-- ==== Sys2Proof/Word.lean ====
section
/-! DEFINITION. The word types of the Caldote CD9 (spec 03, R39; spec 05, R80) and the shape of the
sparse tables the state is made of. The operations over these types are in Machine/Bits.lean and
Machine/Sparse.lean. -/

namespace Sys2Proof

/-- One byte (R4). -/
abbrev Byte := BitVec 8

/-- A 32-bit lane value or instruction word (R39, R80). -/
abbrev Word := BitVec 32

/-- A 64-bit scalar, address or pair value (R80). -/
abbrev DWord := BitVec 64

/-- A lane mask: bit l stands for lane l (R60). -/
abbrev Mask := BitVec 1024

/-- A 1 KiB DRAM row, byte i in bits 8i+7:8i (R205). -/
abbrev Row := BitVec 8192

/-- A sparse table: keys with their values, keys strictly rising. -/
abbrev Sparse (β : Type) := List (Nat × β)

end Sys2Proof
end

