-- ==== Sys2Proof/Syntax.lean ====
section
/-! DEFINITION. The syntax of Dwemaent D1: one constructor of Instr for each row of the table of
operations and events (spec/opcode_table.json). Rows with an encoding carry their operand fields as
spec 03 and the instruction reference give them; rows without an encoding are steps of the part, and
carry what the outside world or the engine concerned supplies. -/

namespace Sys2Proof

/-- A 7-bit register field (R46): 0 to 103 a vector register, 104 to 127 a scalar. -/
inductive Reg where
  | v (n : Fin 104)
  | s (n : Fin 24)
  deriving DecidableEq, Repr

/-- A 7-bit field that must name a vector register. -/
abbrev VReg := Fin 104
/-- A 5-bit scalar field that names s0 to s23 (R46). -/
abbrev SReg := Fin 24
/-- A predicate register p0 to p7. -/
abbrev PReg := Fin 8
/-- A closure register k0 to k7. -/
abbrev KReg := Fin 8
/-- An arrival counter a0 to a15. -/
abbrev CReg := Fin 16
/-- A cohort barrier b0 to b15. -/
abbrev BReg := Fin 16

/-- The s field of an M or A word: s0 to s23, or 31 for a zero base (R46, R49). -/
inductive Base where
  | s (n : Fin 24)
  | zero
  deriving DecidableEq, Repr

/-- The memory operand of an M or A word: index x, base s and W (R49). -/
structure MemOp where
  x : Reg
  s : Base
  w : Bool
  deriving DecidableEq, Repr

/-- The integer types of the ty field (Table 3-5). -/
inductive IntTy where
  | s32 | u32 | s64 | u64
  deriving DecidableEq, Repr

/-- The floating-point types of the ty field (Table 3-5). -/
inductive FTy where
  | f32 | bf16x2 | f16x2
  deriving DecidableEq, Repr

/-- Rounding modes (R48, R59). -/
inductive Rnd where
  | rn | rz | ru | rd
  deriving DecidableEq, Repr

/-- The ty field of FADD, FSUB, FMUL and FFMA (Table 3-5): directed rounding only for f32. -/
inductive FArith where
  | f32 (m : Rnd)
  | bf16x2
  | f16x2
  deriving DecidableEq, Repr

/-- The ty field of TRED and TSCAN (R413). -/
inductive RTy where
  | int (t : IntTy)
  | flt (t : FTy)
  deriving DecidableEq, Repr

/-- The operation of TRED and TSCAN (Table 22-5). -/
inductive RedOp where
  | add | min | max
  deriving DecidableEq, Repr

/-- Scope codes of M words and FENCE (Table 3-6). -/
inductive Scope where
  | team | core | coh | dpr | dev | sys
  deriving DecidableEq, Repr

/-- Scope codes of E and X words (Table 3-6). -/
inductive EScope where
  | core | dpr | dev | sys
  deriving DecidableEq, Repr

/-- The engine ordering flags (R50). The scope is kept even where it is ignored. -/
structure EFlags where
  acq : Bool
  rel : Bool
  scope : EScope
  deriving DecidableEq, Repr

/-- The condition of BRX (R51). -/
inductive BrCond where
  | any | all | none
  deriving DecidableEq, Repr

/-- The conditions of ICMP in its V3 form (Table 20-12). -/
inductive ICond where
  | eq | ne | lt | le | gt | ge
  deriving DecidableEq, Repr

/-- The conditions of the immediate ICMP (Table 20-12): codes 0 to 5 and 8 to 11. -/
inductive ICondImm where
  | eq | ne | lt | le | gt | ge | ltu | leu | gtu | geu
  deriving DecidableEq, Repr

/-- The conditions of FCMP (Table 20-8). -/
inductive FCond where
  | eq | ne | lt | le | gt | ge | num | nan
  deriving DecidableEq, Repr

/-- The MX element formats of PACKMX and UNPKMX (Table 21-5). -/
inductive MxFmt where
  | e4m3 | e5m2 | fp4 | int8
  deriving DecidableEq, Repr

/-- The modes of SHFL (R402). -/
inductive ShflMode where
  | idx | up | down | xor
  deriving DecidableEq, Repr

/-- The modes of VOTE (Table 22-6). -/
inductive VoteMode where
  | any | all | none | uni
  deriving DecidableEq, Repr

/-- The operations of PLOG (Table 21-8). -/
inductive PlogOp where
  | and | or | xor | andn | not
  deriving DecidableEq, Repr

/-- The atomic operations (Table 9-2). -/
inductive AtomOp where
  | add | add64 | mins | maxs | minu | maxu | and | or | xor | exch | exch64 | cas | cas64
  | fadd | faddbf
  deriving DecidableEq, Repr

/-- The action of RETT (Table 21-11). -/
inductive RettAction where
  | replay | skip | fail
  deriving DecidableEq, Repr

/-- The value operand of ASET and AWAIT (Table 19-3). -/
inductive CountSrc where
  | s (n : Fin 24)
  | imm (n : Fin 512)
  deriving DecidableEq, Repr

/-- The mode of BENTER (Table 8-3). -/
inductive BMode where
  | read | own | share
  deriving DecidableEq, Repr

/-- The activation formats of MFMT (R117). -/
inductive AFmt where
  | e4m3 | e5m2 | fp4 | int8 | bf16 | f16
  deriving DecidableEq, Repr

/-- The formats of MSTA (R117). -/
inductive MstaFmt where
  | f32 | bf16 | f16 | e4m3 | e5m2 | fp4 | int8 | s32 | raw
  deriving DecidableEq, Repr

/-- A page-table or other 8-byte store that Stratus makes with a step of its own (R270). -/
structure PteWrite where
  addr : Nat
  value : DWord
  deriving DecidableEq, Repr

/-- The reply of Stratus to a request (R274): it maps the page with the stores given, or is fatal. -/
inductive Reply where
  | map (writes : List PteWrite)
  | fatal
  deriving DecidableEq, Repr

/-- The two visible phases of a page migration (R275): steps 1 and 2, then steps 3 to 5. -/
inductive MigPhase where
  | start
  | finish (leaf : DWord)
  deriving DecidableEq, Repr

/-- What a fabric request asks of its target (R297): a reducing unit carries its reduce code and, for a block
format, the offset and value of its scale byte (R191, R300). -/
inductive FabOp where
  | load (bytes : Nat)
  | store (data : List Byte)
  | atom (op : AtomOp) (c d : DWord)
  | reduce (kind : Nat) (data : List Byte) (scale : Option (Nat × Byte))
  deriving DecidableEq, Repr

/-- The resolution of a fabric response (R297): data, a failure at the target, a contribution from a package outside
the group (R300), or a race on a bundle entered there (R366). -/
inductive FabReply where
  | data (bytes : List Byte)
  | fail
  | outside
  | race (idx : Nat)
  deriving DecidableEq, Repr

/-- What Stratus sets when it creates a context: its descriptor (R238, R266, R281, R297), the tables that the loader
has installed (R186, R189), the context's reduction pages, each with its group (R300); and, for the package, the
collective groups defined by then, each with its members and root (R300), FAB_RTO in µs and the sweep period in ms
(R299, R271), and the ports of each fabric route (R296). -/
structure CtxSetup where
  root : Nat
  trapEntry : DWord
  tensors : List (BitVec 512)
  templates : List (BitVec 1024)
  swapThreshold : DWord
  exportBase : DWord
  marks : List (Nat × Nat)
  groups : List (List Nat × Nat)
  fabRto : Nat
  sweepPeriod : Nat
  fabRoutes : List (List (Fin 12))
  deriving DecidableEq, Repr

/-- A host access to HBM (R302). -/
inductive HostAcc where
  | read (bytes : Nat)
  | write (data : List Byte)
  deriving DecidableEq, Repr

/-- A turn of a die pair's contexts: whether the running context's slice ends with it (R239), and where the images of the
teams it saves go: pairs of a team and an address (R285, log entry 96). -/
structure SwitchTurn where
  dp : Nat
  sliceEnd : Bool
  saves : List (Nat × Nat)
  deriving DecidableEq, Repr

/-- A team to swap out, and the address of its image (R238, R285). -/
structure SwapTurn where
  uid : Nat
  save : Nat
  deriving DecidableEq, Repr

/-- A firmware copy that verifies: its security version and its digest (R313, R326). -/
structure FwCopy where
  version : Nat
  digest : BitVec 256
  deriving DecidableEq, Repr

/-- The instruction words and steps of Dwemaent D1, one constructor per row of the table. -/
inductive Instr where
  -- control (spec 03, 04)
  | nop
  | bra (off : Fin 16777216)
  | brx (p : PReg) (c : BrCond) (off : Fin 524288)
  | call (off : Fin 16777216)
  | ret
  | split (p : PReg)
  | flip
  | merge
  | prune (p : PReg)
  | exit
  | trap (imm : Fin 65536)
  | rett (a : RettAction)
  | bkpt (tag : Fin 65536)
  -- special registers (R404, R405)
  | srd (d : Reg) (n : Fin 1024)
  | swr (a : SReg) (n : Fin 1024)
  -- integer, V3
  | iadd (d a b : Reg) (ty : IntTy)
  | isub (d a b : Reg) (ty : IntTy)
  | imul (d a b : Reg) (ty : IntTy)
  | imulh (d a b : Reg) (ty : IntTy)
  | imad (d a b : Reg) (ty : IntTy)
  | imin (d a b : Reg) (ty : IntTy)
  | imax (d a b : Reg) (ty : IntTy)
  | iabs (d a : Reg) (ty : IntTy)
  | and (d a b : Reg) (ty : IntTy)
  | or (d a b : Reg) (ty : IntTy)
  | xor (d a b : Reg) (ty : IntTy)
  | shl (d a b : Reg) (ty : IntTy)
  | shr (d a b : Reg) (ty : IntTy)
  | sar (d a b : Reg) (ty : IntTy)
  | popc (d a : Reg) (ty : IntTy)
  | clz (d a : Reg) (ty : IntTy)
  | brev (d a : Reg) (ty : IntTy)
  | bfx (d a b : Reg) (ty : IntTy)
  | bfi (d a b : Reg) (ty : IntTy)
  | sel (d : VReg) (a b : Reg) (p : PReg)
  | icmp (c : ICond) (p : PReg) (a b : Reg) (ty : IntTy)
  | lea (d a b : Reg) (ty : IntTy)
  | mov (d a : Reg) (ty : IntTy)
  -- integer, immediate
  | iaddImm (d a : Reg) (imm : Fin 1024)
  | andImm (d a : Reg) (imm : Fin 1024)
  | orImm (d a : Reg) (imm : Fin 1024)
  | xorImm (d a : Reg) (imm : Fin 1024)
  | shlImm (d a : Reg) (count : Fin 64)
  | shrImm (d a : Reg) (count : Fin 64)
  | sarImm (d a : Reg) (count : Fin 64)
  | icmpImm (c : ICondImm) (p : PReg) (a : Reg) (imm : Fin 1024)
  | movi (d : Reg) (imm : Fin 131072)
  | movu (d : Reg) (imm : Fin 65536)
  -- floating point
  | fadd (d : VReg) (a b : Reg) (ty : FArith)
  | fsub (d : VReg) (a b : Reg) (ty : FArith)
  | fmul (d : VReg) (a b : Reg) (ty : FArith)
  | ffma (d : VReg) (a b : Reg) (ty : FArith)
  | fmin (d : VReg) (a b : Reg) (ty : FTy)
  | fmax (d : VReg) (a b : Reg) (ty : FTy)
  | fcmp (c : FCond) (p : PReg) (a b : Reg) (ty : FTy)
  | frcp (d : VReg) (a : Reg) (look : Fin 16) (ty : FTy)
  | frsq (d : VReg) (a : Reg) (look : Fin 16) (ty : FTy)
  | fex2 (d : VReg) (a : Reg) (look : Fin 16) (ty : FTy)
  | flg2 (d : VReg) (a : Reg) (look : Fin 16) (ty : FTy)
  | ftanh (d : VReg) (a : Reg) (look : Fin 16) (ty : FTy)
  | cvt (d : VReg) (a : Reg) (code : Fin 27) (m : Rnd)
  | packmx (d : VReg) (a : Reg) (fmt : MxFmt)
  | unpkmx (d : VReg) (a : Reg) (fmt : MxFmt)
  | planePack (d : VReg) (a : Reg)
  | planeUnpack (d : VReg) (a : Reg) (j : Fin 16)
  -- cross-lane
  | shfl (mode : ShflMode) (pair : Bool) (d : VReg) (a b : Reg)
  | vote (mode : VoteMode) (pair : Bool) (p : PReg) (a : Reg)
  | matchLanes (d : VReg) (p : PReg) (a : Reg) (ty : IntTy)
  | tred (op : RedOp) (ty : RTy) (d : VReg) (a : Reg)
  | tscan (op : RedOp) (excl : Bool) (ty : RTy) (d : VReg) (a : Reg)
  | plog (op : PlogOp) (pd pa pb : PReg)
  | pcnt (d : Reg) (p : PReg)
  | pmovToVector (d : VReg) (p : PReg)
  | pmovToPredicate (p : PReg) (a : Reg)
  | pmovWord (d : SReg) (p : PReg) (w : Fin 32)
  -- memory
  | ldB (t : Reg) (m : MemOp) (look : Fin 16)
  | ldH (t : Reg) (m : MemOp) (look : Fin 16)
  | ldW (t : Reg) (m : MemOp) (look : Fin 16)
  | ldD (t : Reg) (m : MemOp) (look : Fin 16)
  | ldQ (t : VReg) (m : MemOp) (look : Fin 16)
  | stB (t : Reg) (m : MemOp) (look : Fin 16)
  | stH (t : Reg) (m : MemOp) (look : Fin 16)
  | stW (t : Reg) (m : MemOp) (look : Fin 16)
  | stD (t : Reg) (m : MemOp) (look : Fin 16)
  | stQ (t : VReg) (m : MemOp) (look : Fin 16)
  | ldlW (t : VReg) (m : MemOp) (look : Fin 16)
  | ldlQ (t : VReg) (m : MemOp) (look : Fin 16)
  | stlW (t : VReg) (m : MemOp) (look : Fin 16)
  | stlQ (t : VReg) (m : MemOp) (look : Fin 16)
  | ldcW (t : VReg) (m : MemOp) (c : CReg)
  | ldcQ (t : VReg) (m : MemOp) (c : CReg)
  | ldu (t : Reg) (m : MemOp) (look : Fin 16)
  | stu (t : Reg) (m : MemOp) (look : Fin 16)
  | ldAcq (t : Reg) (m : MemOp) (sc : Scope) (d : Bool)
  | stRel (t : Reg) (m : MemOp) (sc : Scope) (d : Bool)
  | atom (op : AtomOp) (t : VReg) (m : MemOp)
  | red (op : AtomOp) (t : VReg) (m : MemOp)
  | atoml (op : AtomOp) (t : VReg) (m : MemOp)
  | fence (sc : Scope) (acq rel : Bool)
  | waitv (ne : Bool) (sc : Scope) (t : VReg) (m : MemOp)
  | await (a : CReg) (v : CountSrc)
  | aset (a : CReg) (v : CountSrc)
  -- engines
  | xfer (chan : Fin 4) (tmpl : Fin 4096) (f : EFlags)
  | xferReg (chan : Fin 4) (s : SReg) (f : EFlags)
  | xptr (sd sa : SReg) (acq : Bool) (sc : EScope)
  | rowcpy (sd sa sc : SReg) (f : EFlags)
  | rowfil (sd sa sc : SReg) (f : EFlags)
  | rowand (sd sa sb sc : SReg) (f : EFlags)
  | rowor (sd sa sb sc : SReg) (f : EFlags)
  | rownot (sd sa sc : SReg) (f : EFlags)
  | rowmaj (sd sa sb sc : SReg) (f : EFlags)
  | rowxor (sd sa sb sc : SReg) (f : EFlags)
  | rowstat (sd : SReg) (acq : Bool) (sc : EScope)
  | rowstatPoll (sd : SReg) (acq : Bool) (sc : EScope)
  -- closures and tasks
  | capt (kd : KReg) (se sm : SReg)
  | captRef (kd : KReg) (se sm : SReg)
  | captLane (se sm : SReg)
  | apply (kd : KReg)
  | applyLane (vh : Fin 128)
  | kdup (kd ks : KReg)
  | kdrop (kd : KReg)
  | kld (kd : KReg) (se : SReg)
  | kst (kd : KReg) (se : SReg)
  | kqry (kd : KReg) (se : SReg)
  | tarm (sa sb : SReg) (k : KReg) (st : SReg)
  | tsig (sa st : SReg)
  | qapply (sa : SReg) (k : KReg) (st : SReg)
  | qapplyLane (sa : SReg) (vh : Fin 128) (st : SReg)
  | launch (sa sb st : SReg)
  -- cohorts and bundles
  | join (sa : SReg) (w : Fin 65) (st : SReg)
  | leave
  | barv (b : BReg)
  | bara (b : BReg)
  | barw (b : BReg)
  | cohq (sd : SReg) (b : BReg)
  | bdeclList (sl sh : SReg) (prio : Fin 8) (st : SReg)
  | bdeclRec (sl sh : SReg) (prio : Fin 8) (st : SReg)
  | benter (sh st : SReg) (mode : BMode) (n1 : Fin 4)
  | bexit (sh st : SReg)
  | bdrop (sh st : SReg)
  | bqry (sh sd : SReg)
  -- matrix streams
  | matt (sa sb st : SReg)
  | mdet (st : SReg)
  | mwb (slot : Fin 16) (rec idx : Fin 256)
  | mlw (slot : Fin 16)
  | mma (tile stamp : Bool) (rec : Fin 256) (slot : Fin 16) (m1 : Fin 512)
  | msta (fmt : MstaFmt) (ieee : Bool) (tile : Bool) (rec : Fin 256)
  | mclr (tile int : Bool)
  | mfmt (f : AFmt) (j : Fin 9) (srec : Fin 256)
  | mbar (b : BReg) (op : Fin 4)
  | mend
  -- steps of teams and of the distributor
  | clauseHeader
  | drainEnd (uid : Nat)
  | resultCommit (uid k : Nat) (lanes : BitVec 32)
  | teamRetirement (uid : Nat)
  | taskDequeue (ctx q : Nat)
  | launchAperturePost (off : Nat) (block : DWord)
  | ballastCancel (off : Nat)
  | launchHeadRead (ctx q : Nat)
  | teamPlacement (dp : Nat)
  | launchCompletionStamp (ctx q : Nat)
  | contextSwitch (w : SwitchTurn)
  | swapOut (w : SwapTurn)
  | ballastSwapOut (w : SwapTurn)
  | ballastGating (avg : BitVec 12) (gate : Bool)
  | psetWrite (value : DWord)
  -- steps of Stratus, the expanders and the host pages
  | stratusReply (req : Nat) (r : Reply)
  | tlbInvalidation (cores : BitVec 512) (ctx : Nat) (lo hi : Nat)
  | pageMigration (ctx : Nat) (va : DWord) (ph : MigPhase)
  | heatSweep (ctx : Nat)
  | hostPageResponse (record : BitVec 256) (writes : List PteWrite)
  | cxlLinkDown (port : Fin 4)
  | cxlCompletionTimeout (uid : Nat) (k : Nat)
  | uncorrectableError (ctxs : List Nat) (cause : Byte) (pa : BitVec 40) (bad : Bool)
  -- networks
  | routeTableWrite (port entry : Nat) (value : BitVec 128)
  | mirroredStoreDelivery (k : Nat)
  | mirroredDeliveryNack (k : Nat)
  | mirroredDeliveryTimeout (k : Nat)
  | balzalFlitReplay (port : Fin 12) (failed : Bool)
  | fabricRequest (src : Nat) (seq : Word) (ctx : Nat) (off : Nat) (op : FabOp) (rel : Bool)
  | fabricResponse (target : Nat) (seq : Word) (r : FabReply)
  | fabricPendingResponse (target : Nat) (seq : Word)
  | fabricRetransmit (target : Nat) (seq : Word)
  | fabricContribution (src : Nat) (seq : Word) (ctx : Nat) (off : Nat) (kind : Nat) (data : List Byte) (scale : Option (Nat × Byte))
  | fabricHaltState (pkg : Nat) (halted : Bool)
  | hostMemoryAccess (pa : Nat) (a : HostAcc)
  -- copy channels
  | deferredStoreEntry (core chan : Nat)
  | channelStallTimeout (uid : Nat)
  | copyHead (core chan : Nat)
  | copyConditionMet (core chan : Nat)
  | copyUnit (core chan : Nat)
  | copyCompletion (core chan : Nat)
  -- row engine and DRAM
  | rowCommandAccept (core : Nat)
  | rowPrestep (cmd unit : Nat)
  | rowStep (cmd unit : Nat)
  | rowFallbackUnit (cmd : Nat)
  | rowCommandComplete (cmd : Nat)
  | bankActivation (bank : Nat)
  | bankRefresh (bank : Nat)
  | captureWindowEnd
  -- bundles
  | bundleFillComplete (core ctx idx : Nat)
  | bundleEvictionComplete (core ctx idx : Nat)
  | directoryGrant (core uid : Nat)
  | bundleEntry (uid : Nat)
  | waitvReread (uid : Nat)
  -- matrix engine
  | galeGrant (core : Nat)
  | mwbComplete (core stream : Nat)
  | mmaChunk (core : Nat) (checksumOk : Bool)
  -- debug
  | partitionStop (core part : Nat)
  | partitionResume (core part : Nat)
  | phaseStep (dp ctx cohort : Nat)
  | dbgEngChannelStop (core chan : Nat)
  | dbgEngStreamStop (core k : Nat)
  | dbgEngRowStop (core : Nat)
  | dbgEngResume (core bit : Nat)
  -- security, start-up and temperature
  | keyLoad (slot : Fin 4096)
  | keyClear (slot : Fin 4096)
  | attestationReport (nonce : BitVec 256)
  | powerGood (copyA copyB : Option FwCopy) (selfTest : Bool)
  | fullFunction
  | tsensRefresh (values : List Word)
  | refreshMultiplierFall (stack : Fin 8)
  | thermalEvaluation (dp : Fin 4)
  | throttlePauseEnd (dp : Fin 4)
  | thermalTrip
  | mgmtRegisterWrite (off : Nat) (value : DWord) (byPort : Bool)
  -- words that match no encoding
  | illegalInstructionWord (w : Word)
  | streamOpcodeError (core stream : Nat) (w : Word)
  -- power and contexts
  | powerOff
  | contextCreation (ctx : Nat) (d : CtxSetup)
  | contextDestruction (ctx : Nat)
  | contextDeclaredFatal (ctx : Nat) (cause : Byte)
  deriving DecidableEq, Repr

end Sys2Proof
end

