-- ==== Sys2Proof/Machine/Float.lean ====
section
/-! DEFINITION. Floating-point arithmetic of spec 06: values are decoded to exact dyadic numbers,
every operation is exact, and the result is rounded once (R91). Flags are nv 16, dz 8, of 4, uf 2,
nx 1 (Table 6-2). -/

namespace Sys2Proof.Machine

/-- A binary format (Tables 6-1, 6-4, R102): exponent and fraction bits, bias, the code of the
largest finite magnitude, whether it has infinities, whether it has NaNs. -/
structure FFmt where
  e : Nat
  f : Nat
  bias : Nat
  maxFin : Nat
  hasInf : Bool
  hasNan : Bool
  deriving DecidableEq, Repr

def fmtF32 : FFmt := ⟨8, 23, 127, 0x7F7FFFFF, true, true⟩
def fmtF16 : FFmt := ⟨5, 10, 15, 0x7BFF, true, true⟩
def fmtBf16 : FFmt := ⟨8, 7, 127, 0x7F7F, true, true⟩
def fmtE4M3 : FFmt := ⟨4, 3, 7, 0x7E, false, true⟩
def fmtE5M2 : FFmt := ⟨5, 2, 15, 0x7B, true, true⟩
def fmtE2M1 : FFmt := ⟨2, 1, 1, 7, false, false⟩
/-- The accumulator's float mode E8M31 (R102). -/
def fmtAcc : FFmt := ⟨8, 31, 127, 0x7F7FFFFFFF, true, true⟩

/-- A decoded value: NaN (signalling or not), an infinity, or (-1)^neg * m * 2^x. -/
inductive FVal where
  | nan (sig : Bool)
  | inf (neg : Bool)
  | fin (neg : Bool) (m : Nat) (x : Int)
  deriving DecidableEq, Repr

abbrev Flags := BitVec 5

def flNv : Flags := 16
def flDz : Flags := 8
def flOf : Flags := 4
def flUf : Flags := 2
def flNx : Flags := 1

/-- The largest exponent field of a format. -/
def FFmt.eMax (t : FFmt) : Nat := 2 ^ t.e - 1
/-- The sign bit's weight. -/
def FFmt.signW (t : FFmt) : Nat := 2 ^ (t.e + t.f)
/-- The exponent of the least subnormal. -/
def FFmt.qMin (t : FFmt) : Int := 1 - (t.bias : Int) - (t.f : Int)
/-- The code of +infinity. -/
def FFmt.infCode (t : FFmt) : Nat := t.eMax * 2 ^ t.f
/-- The canonical NaN (R90, R96): quiet, positive. E4M3 has S.1111.111 with either sign, of which Table 6-4 names none:
0x7F is a DESIGN CHOICE (log entry 91). -/
def FFmt.nanCode (t : FFmt) : Nat :=
  if t.hasInf then t.infCode + 2 ^ (t.f - 1) else if t.hasNan then t.signW - 1 else 0

/-- Decode a code of format t (R90, R96, R102). -/
def decF (t : FFmt) (c : Nat) : FVal :=
  let neg := c / t.signW % 2 == 1
  let ex := c / 2 ^ t.f % 2 ^ t.e
  let fr := c % 2 ^ t.f
  if t.hasInf && ex == t.eMax then
    if fr == 0 then .inf neg else .nan (fr / 2 ^ (t.f - 1) % 2 == 0)
  else if t.hasNan && !t.hasInf && c % t.signW == t.signW - 1 then .nan false
  else if ex == 0 then .fin neg fr t.qMin
  else .fin neg (2 ^ t.f + fr) (t.qMin + (ex : Int) - 1)

/-- A signed code. -/
def signed (t : FFmt) (neg : Bool) (c : Nat) : Nat := if neg then t.signW + c else c

/-- Is the remainder rounded up (away from zero in magnitude)? q is the quotient, r of 2^s. -/
def roundsUp (m : Rnd) (neg : Bool) (q r s : Nat) : Bool :=
  match m with
  | .rn => decide (2 * r > 2 ^ s) || (2 * r == 2 ^ s && q % 2 == 1)
  | .rz => false
  | .ru => !neg && r != 0
  | .rd => neg && r != 0

/-- m * 2^x as a multiple of 2^q: the rounded multiplier, and whether it was inexact. -/
def quantize (md : Rnd) (neg : Bool) (m : Nat) (x q : Int) : Nat × Bool :=
  if q ≤ x then (m * 2 ^ (x - q).toNat, false)
  else
    let s := (q - x).toNat
    let d := m / 2 ^ s
    let r := m % 2 ^ s
    (if roundsUp md neg d r s then d + 1 else d, r != 0)

/-- Does overflow give infinity in this mode (R353)? -/
def overflowsToInf (md : Rnd) (neg : Bool) : Bool :=
  match md with
  | .rn => true
  | .rz => false
  | .ru => !neg
  | .rd => neg

/-- Round (-1)^neg * m * 2^x to t, m > 0: the magnitude code, whether it overflowed the largest finite
value, and whether it is inexact and tiny after rounding (R91, R92). -/
def roundMag (t : FFmt) (md : Rnd) (neg : Bool) (m : Nat) (x : Int) : Nat × Bool × Bool × Bool :=
  let top : Int := (m.log2 : Int) + x
  let eMin : Int := 1 - (t.bias : Int)
  let q := max (top - (t.f : Int)) t.qMin
  let (k, inexact) := quantize md neg m x q
  let code := (q - t.qMin).toNat * 2 ^ t.f + k
  let (k', _) := quantize md neg m x (top - (t.f : Int))
  let tiny := decide (top < eMin) && !(decide (top + 1 = eMin) && k' == 2 ^ (t.f + 1))
  (code, decide (code > t.maxFin), inexact, tiny)

/-- Round an exact value to t (R91): the code and the flags. satur selects saturation instead of
overflow to infinity (R97). -/
def roundF (t : FFmt) (md : Rnd) (satur : Bool) (neg : Bool) (m : Nat) (x : Int) : Nat × Flags :=
  if m = 0 then (signed t neg 0, 0)
  else
    let (code, tooBig, inexact, tiny) := roundMag t md neg m x
    if tooBig then
      let c :=
        if satur || (t.hasInf && !overflowsToInf md neg) then t.maxFin
        else if t.hasInf then t.infCode else t.nanCode
      (signed t neg c, flOf ||| flNx)
    else
      (signed t neg code, (if inexact then flNx else 0) ||| (if inexact && tiny then flUf else 0))

/-- Round an integer multiple of 2^x (x may be negative); an exact zero is +0, or -0 in mode rd. -/
def roundInt (t : FFmt) (md : Rnd) (v : Int) (x : Int) : Nat × Flags :=
  if v = 0 then (signed t (md == .rd) 0, 0) else roundF t md false (decide (v < 0)) v.natAbs x

/-- The signed mantissa. -/
def sgn (neg : Bool) (m : Nat) : Int := if neg then -(m : Int) else m

/-- The exact sum of two dyadic numbers: mantissa and exponent. -/
def addDy (a : Int) (x : Int) (b : Int) (y : Int) : Int × Int :=
  let q := min x y
  (a * 2 ^ (x - q).toNat + b * 2 ^ (y - q).toNat, q)

def isSig : FVal → Bool
  | .nan s => s
  | _ => false

def isNanV : FVal → Bool
  | .nan _ => true
  | _ => false

/-- nv when an input is a signalling NaN (R91). -/
def sigFlag (l : List FVal) : Flags := if l.any isSig then flNv else 0

def negV : FVal → FVal
  | .nan s => .nan s
  | .inf n => .inf !n
  | .fin n m x => .fin (!n) m x

/-- Addition of decoded values, rounded once (R91, R353). -/
def addV (t : FFmt) (md : Rnd) (a b : FVal) : Nat × Flags :=
  match a, b with
  | .nan _, _ | _, .nan _ => (t.nanCode, sigFlag [a, b])
  | .inf n, .inf n' => if n == n' then (signed t n t.infCode, 0) else (t.nanCode, flNv)
  | .inf n, _ => (signed t n t.infCode, 0)
  | _, .inf n => (signed t n t.infCode, 0)
  | .fin n m x, .fin n' m' x' =>
    if m = 0 && m' = 0 && n == n' then (signed t n 0, 0)
    else
      let (v, q) := addDy (sgn n m) x (sgn n' m') x'
      roundInt t md v q

/-- The exact product as a value; none where it is invalid (0 times infinity). -/
def mulV (a b : FVal) : Option FVal :=
  match a, b with
  | .nan s, .nan s' => some (.nan (s || s'))
  | .nan s, _ | _, .nan s => some (.nan s)
  | .inf n, .inf n' => some (.inf (n != n'))
  | .inf n, .fin n' m _ | .fin n' m _, .inf n => if m = 0 then none else some (.inf (n != n'))
  | .fin n m x, .fin n' m' x' => some (.fin (n != n') (m * m') (x + x'))

/-- A value rounded to t. -/
def roundV (t : FFmt) (md : Rnd) : FVal → Nat × Flags
  | .nan s => (t.nanCode, if s then flNv else 0)
  | .inf n => (signed t n t.infCode, 0)
  | .fin n m x => roundF t md false n m x

def fAdd (t : FFmt) (md : Rnd) (a b : Nat) : Nat × Flags := addV t md (decF t a) (decF t b)

def fSub (t : FFmt) (md : Rnd) (a b : Nat) : Nat × Flags := addV t md (decF t a) (negV (decF t b))

def fMul (t : FFmt) (md : Rnd) (a b : Nat) : Nat × Flags :=
  match mulV (decF t a) (decF t b) with
  | some v => roundV t md v
  | none => (t.nanCode, flNv)

/-- a * b + d, rounded once; 0 times infinity sets nv even when d is a NaN (R353). -/
def fFma (t : FFmt) (md : Rnd) (a b d : Nat) : Nat × Flags :=
  match mulV (decF t a) (decF t b) with
  | some v => addV t md v (decF t d)
  | none => (t.nanCode, flNv)

/-- Is a below b? -0 orders below +0 (R91). Neither is a NaN. -/
def ltV (a b : FVal) : Bool :=
  match a, b with
  | .inf n, .inf n' => n && !n'
  | .inf n, _ => n
  | _, .inf n => !n
  | .fin n m x, .fin n' m' x' =>
    let q := min x x'
    let u := sgn n m * 2 ^ (x - q).toNat
    let w := sgn n' m' * 2 ^ (x' - q).toNat
    decide (u < w) || (u == w && n && !n')
  | _, _ => false

/-- minimumNumber and maximumNumber (R91, R356). -/
def fMinMax (t : FFmt) (isMax : Bool) (a b : Nat) : Nat × Flags :=
  let x := decF t a
  let y := decF t b
  let fl := sigFlag [x, y]
  match isNanV x, isNanV y with
  | true, true => (t.nanCode, fl)
  | true, false => (b, fl)
  | false, true => (a, fl)
  | false, false => (if (if isMax then ltV x y else ltV y x) then b else a, fl)

/-- The order of two values: none when either is a NaN; -0 equals +0 (R354). -/
def cmpV (a b : FVal) : Option Ordering :=
  match a, b with
  | .nan _, _ | _, .nan _ => none
  | .fin n m x, .fin n' m' x' =>
    let q := min x x'
    some (compare (sgn n m * 2 ^ (x - q).toNat) (sgn n' m' * 2 ^ (x' - q).toNat))
  | _, _ => some (if ltV a b then .lt else if ltV b a then .gt else .eq)

/-- One element comparison of FCMP with its flags (Table 20-8). -/
def fCmp (t : FFmt) (c : FCond) (a b : Nat) : Bool × Flags :=
  let x := decF t a
  let y := decF t b
  let anyNan := isNanV x || isNanV y
  let sig := sigFlag [x, y]
  let quiet := if anyNan then flNv else 0
  match c, cmpV x y with
  | .eq, o => (o == some .eq, sig)
  | .ne, o => (o != some .eq, sig)
  | .lt, o => (o == some .lt, quiet)
  | .le, o => (o == some .lt || o == some .eq, quiet)
  | .gt, o => (o == some .gt, quiet)
  | .ge, o => (o == some .gt || o == some .eq, quiet)
  | .num, _ => (!anyNan, sig)
  | .nan, _ => (anyNan, sig)

/-- Round a value to an integer in a mode: the integer, and whether it was inexact. -/
def toIntV (md : Rnd) (neg : Bool) (m : Nat) (x : Int) : Int × Bool :=
  let (k, inexact) := quantize md neg m x 0
  (sgn neg k, inexact)

/-- Conversion to an integer range (R351): out of range, infinite and NaN inputs give the stated
value and nv only. -/
def toRange (md : Rnd) (lo hi : Int) (v : FVal) : Int × Flags :=
  match v with
  | .nan _ => (0, flNv)
  | .inf n => (if n then lo else hi, flNv)
  | .fin n m x =>
    let (k, inexact) := toIntV md n m x
    if k < lo then (lo, flNv)
    else if k > hi then (hi, flNv)
    else (k, if inexact then flNx else 0)

/-- Conversion to a smaller float format (R97, R351). satur as Table 6-5's first choice. A tiny inexact result sets uf, as
R91 has it for float formats. -/
def toNarrow (t : FFmt) (md : Rnd) (satur : Bool) (v : FVal) : Nat × Flags :=
  match v with
  | .nan s =>
    if t.hasNan then (t.nanCode, if s then flNv else 0) else (0, flNv)
  | .inf n =>
    if t.hasInf && !satur then (signed t n t.infCode, 0)
    else (signed t n (if satur || !t.hasNan then t.maxFin else t.nanCode), flOf ||| flNx)
  | .fin n m x =>
    roundF t md (satur || (!t.hasInf && !t.hasNan)) n m x

/-- Conversion to a narrow format, whose flags R351 lists: uf is not among them. -/
def toNarrow8 (t : FFmt) (satur : Bool) (v : FVal) : Nat × Flags :=
  let r := toNarrow t .rn satur v
  (r.1, r.2 &&& ~~~flUf)

/-- floor(log2) of m * 2^x, m > 0. -/
def floorLog (m : Nat) (x : Int) : Int := (m.log2 : Int) + x

/-- The format of an MX element, its emax (R99). -/
def mxFfmt : MxFmt → FFmt
  | .e4m3 => fmtE4M3 | .e5m2 => fmtE5M2 | .fp4 => fmtE2M1 | .int8 => fmtE4M3

def mxEmax : MxFmt → Int
  | .e4m3 => 8 | .e5m2 => 15 | .fp4 => 2 | .int8 => 0

/-- An MX element of exact value (-1)^n m 2^x / 2^(X-127), saturating (R99): code and inexactness.
MXINT8 codes are multiples of 2^-6 (R98). -/
def mxElem (t : MxFmt) (sc : Nat) (v : FVal) : Nat × Bool :=
  let sh : Int := 127 - (sc : Int)
  match t, v with
  | .int8, .fin n m x =>
    let (k, inexact) := toIntV .rn n m (x + sh + 6)
    if k < -128 then (128, true) else if k > 127 then (127, true)
    else (((k + 256) % 256).toNat, inexact)
  | t, .fin n m x =>
    let (c, fl) := roundF (mxFfmt t) .rn true n m (x + sh)
    (c, fl &&& flNx != 0)
  | .e5m2, .inf n => (signed fmtE5M2 n fmtE5M2.infCode, false)
  | _, _ => (0, false)

/-- The block of 32 values under R99: scale, element codes, which elements are inexact. -/
def mxBlock (t : MxFmt) (xs : List FVal) : Nat × List Nat × List Bool :=
  let bad := xs.any fun v =>
    match v with
    | .nan _ => true
    | .inf _ => t != .e5m2
    | _ => false
  if bad then (255, xs.map fun _ => 0, xs.map fun _ => false)
  else
    let mags := xs.filterMap fun v =>
      match v with
      | .fin _ m x => if m = 0 then none else some (floorLog m x)
      | _ => none
    let sc : Nat :=
      match mags with
      | [] => 0
      | a :: r => (min 254 (max 0 (r.foldl max a - mxEmax t + 127))).toNat
    let es := xs.map (mxElem t sc)
    (sc, es.map (·.1), es.map (·.2))

/-- An 8-bit two's-complement code as an integer. -/
def int8 (c : Nat) : Int := if c % 256 < 128 then (c % 256 : Nat) else (c % 256 : Nat) - 256

/-- The value of an MX element without its scale (R98, Table 6-4). -/
def mxVal (t : MxFmt) (c : Nat) : FVal :=
  match t with
  | .int8 => let k := int8 c; .fin (decide (k < 0)) k.natAbs (-6)
  | .fp4 => decF fmtE2M1 (c % 16)
  | t => decF (mxFfmt t) (c % 256)

/-- A value times 2^s. -/
def scaleV (s : Int) : FVal → FVal
  | .fin n m x => .fin n m (x + s)
  | v => v

end Sys2Proof.Machine
end

