-- ==== Sys2Proof/Machine/Bits.lean ====
section
/-! DEFINITION. Bit and byte helpers: lane masks (R60), little-endian bytes (R4), sign extension, and
the fields of wide records. -/

namespace Sys2Proof.Machine

/-- The lanes of mask word q whose bit of m is set, ascending (R60, R61). -/
def lanesOfWord (m : Mask) (q : Nat) : List Nat :=
  ((List.range 32).map (32 * q + ·)).filter fun l => m.getLsbD l

/-- The non-empty words of a mask, ascending (R61). -/
def passesOf (m : Mask) : List Nat :=
  (List.range 32).filter fun q => (m.toNat >>> (32 * q)) % 2 ^ 32 != 0

/-- The lanes of a mask, ascending. -/
def lanesOf (m : Mask) : List Nat := (passesOf m).flatMap (lanesOfWord m)

/-- The mask with one bit. -/
def laneBit (l : Nat) : Mask := BitVec.ofNat 1024 (2 ^ l)

/-- The mask of a list of lanes. -/
def maskOf (ls : List Nat) : Mask := ls.foldl (fun m l => m ||| laneBit l) 0

/-- The mask of lanes 0 to n - 1 (R60). -/
def fullMask (n : Nat) : Mask := BitVec.ofNat 1024 (2 ^ n - 1)

/-- Bit l of a mask set to b. -/
def setLane (m : Mask) (l : Nat) (b : Bool) : Mask :=
  if b then m ||| laneBit l else m &&& ~~~(laneBit l)

/-- Word q of a mask (R60). -/
def maskWord (m : Mask) (q : Nat) : Word := BitVec.ofNat 32 (m.toNat >>> (32 * q))

/-- Bits lo to lo + n - 1 of a number. -/
def field (w lo n : Nat) : Nat := (w >>> lo) % 2 ^ n

/-- The lowest n bytes of a number, least significant first (R4). -/
def toBytes (n : Nat) (v : Nat) : List Byte :=
  (List.range n).map fun i => BitVec.ofNat 8 (v >>> (8 * i))

/-- The number whose bytes are given, least significant first (R4). -/
def ofBytes : List Byte → Nat
  | [] => 0
  | b :: r => b.toNat + 256 * ofBytes r

/-- A signed immediate field of n bits. -/
def simm (n v : Nat) : Int := if v < 2 ^ (n - 1) then (v : Int) else (v : Int) - 2 ^ n

/-- A 32-bit value sign-extended to 64 bits. -/
def sext32 (w : Word) : DWord := w.signExtend 64

/-- A 32-bit value zero-extended to 64 bits. -/
def zext32 (w : Word) : DWord := w.setWidth 64

/-- The low and the high half of a 64-bit value. -/
def lo32 (d : DWord) : Word := d.setWidth 32
def hi32 (d : DWord) : Word := (d >>> 32).setWidth 32

/-- A pair (R48): the low half in the even register. -/
def pair64 (lo hi : Word) : DWord := (hi ++ lo : BitVec 64)

/-- Two 16-bit halves. -/
def lo16 (w : Word) : Nat := w.toNat % 2 ^ 16
def hi16 (w : Word) : Nat := w.toNat / 2 ^ 16
def halves (lo hi : Nat) : Word := BitVec.ofNat 32 (hi % 2 ^ 16 * 2 ^ 16 + lo % 2 ^ 16)

/-- The descriptor index in a bundle handle (R141). -/
def bIndex (h : DWord) : Nat := field h.toNat 19 8

/-- Rounded up to a multiple of n. -/
def roundTo (n v : Nat) : Nat := (v + n - 1) / n * n

/-- The distinct elements of a list, first occurrences kept. -/
def distinct (l : List Nat) : List Nat :=
  l.foldl (fun acc x => if acc.contains x then acc else acc ++ [x]) []

/-- A list of numbers in ascending order. -/
def insertNat (x : Nat) : List Nat → List Nat
  | [] => [x]
  | y :: r => if x ≤ y then x :: y :: r else y :: insertNat x r

def sortNat (l : List Nat) : List Nat := l.foldr insertNat []

/-- The least of 0 to n - 1 that is not in the list; n when there is none. -/
def lowestFree (n : Nat) (used : List Nat) : Nat :=
  ((List.range n).find? fun i => !used.contains i).getD n

/-- Replace the k-th element. -/
def setNth {α : Type} (l : List α) (k : Nat) (x : α) : List α := l.set k x

/-- Remove the k-th element. -/
def dropNth {α : Type} (l : List α) (k : Nat) : List α := l.take k ++ l.drop (k + 1)

end Sys2Proof.Machine
end

