-- ==== Sys2Proof/Machine/Crypto.lean ====
section
/-! DEFINITION. The ciphers that the spec names: AES-256 in XTS mode with a 64-byte data unit (R324), and SHA3-256
(R326). Both are taken from their standards (log entry 10): FIPS 197, IEEE 1619 and FIPS 202. -/

namespace Sys2Proof.Machine

/-! ### AES-256 -/

/-- Multiplication by x in the field of AES. -/
def xtime (a : Byte) : Byte := (a <<< 1) ^^^ (if a.msb then 0x1B else 0)

/-- Multiplication in the field of AES. -/
def gmul (a b : Byte) : Byte :=
  ((List.range 8).foldl (init := ((0 : Byte), a)) fun acc i =>
    (if b.getLsbD i then acc.1 ^^^ acc.2 else acc.1, xtime acc.2)).1

/-- The inverse in the field of AES, 0 for 0: the power 254. -/
def ginv (a : Byte) : Byte :=
  ((List.range 7).foldl (init := ((1 : Byte), gmul a a)) fun acc _ => (gmul acc.1 acc.2, gmul acc.2 acc.2)).1

def subByte (a : Byte) : Byte :=
  let b := ginv a
  b ^^^ b.rotateLeft 1 ^^^ b.rotateLeft 2 ^^^ b.rotateLeft 3 ^^^ b.rotateLeft 4 ^^^ 0x63

def unsubByte (a : Byte) : Byte := ginv (a.rotateLeft 1 ^^^ a.rotateLeft 3 ^^^ a.rotateLeft 6 ^^^ 0x05)

/-- Byte-wise exclusive or. -/
def xorBytes (a b : List Byte) : List Byte := (a.zip b).map fun e => e.1 ^^^ e.2

/-- Four bytes, one column of the matrix, times a circulant row. -/
def mixColumn (row : List Byte) (c : List Byte) : List Byte :=
  (List.range 4).map fun i =>
    (List.range 4).foldl (fun x j => x ^^^ gmul (row.getD ((j + 4 - i) % 4) 0) (c.getD j 0)) 0

/-- The columns of a block, each mixed. -/
def mixColumns (row : List Byte) (b : List Byte) : List Byte :=
  (List.range 4).flatMap fun k => mixColumn row ((b.drop (4 * k)).take 4)

/-- Row r of the block moves by r columns to the left, or back. -/
def shiftRows (back : Bool) (b : List Byte) : List Byte :=
  (List.range 16).map fun i =>
    let r := i % 4
    b.getD ((i / 4 + (if back then 4 - r else r)) % 4 * 4 + r) 0

/-- The 60 words of the key schedule, one after the other. -/
def keySchedule (key : List Byte) : List (List Byte) :=
  let start := (List.range 8).map fun i => (key.drop (4 * i)).take 4
  ((List.range 52).foldl (init := (start, (1 : Byte))) fun acc k =>
    let i := k + 8
    let w := acc.1.getD (i - 1) []
    let t :=
      if i % 8 == 0 then xorBytes ((w.tail ++ w.take 1).map subByte) [acc.2, 0, 0, 0]
      else if i % 8 == 4 then w.map subByte
      else w
    (acc.1 ++ [xorBytes (acc.1.getD (i - 8) []) t], if i % 8 == 0 then xtime acc.2 else acc.2)).1

/-- The round key of round r. -/
def roundKey (ws : List (List Byte)) (r : Nat) : List Byte := ((ws.drop (4 * r)).take 4).flatten

/-- One block under a key. -/
def aesEncrypt (ws : List (List Byte)) (b : List Byte) : List Byte :=
  let b := (List.range 13).foldl (init := xorBytes b (roundKey ws 0)) fun b r =>
    xorBytes (mixColumns [2, 3, 1, 1] (shiftRows false (b.map subByte))) (roundKey ws (r + 1))
  xorBytes (shiftRows false (b.map subByte)) (roundKey ws 14)

/-- One block back. -/
def aesDecrypt (ws : List (List Byte)) (b : List Byte) : List Byte :=
  let b := (List.range 13).foldl (init := xorBytes b (roundKey ws 14)) fun b r =>
    mixColumns [14, 11, 13, 9] (xorBytes ((shiftRows true b).map unsubByte) (roundKey ws (13 - r)))
  xorBytes ((shiftRows true b).map unsubByte) (roundKey ws 0)

/-! ### XTS (R324) -/

/-- The next tweak: multiplication by x, the block as a little-endian number. -/
def nextTweak (t : List Byte) : List Byte :=
  let n := ofBytes t * 2
  toBytes 16 (if n < 2 ^ 128 then n else (n % 2 ^ 128) ^^^ 0x87)

/-- The four 16-byte blocks of a unit, each between two additions of its tweak. -/
def xtsBlocks (f : List Byte → List Byte) : Nat → List Byte → List Byte → List Byte
  | 0, _, _ => []
  | n + 1, t, x => xorBytes (f (xorBytes (x.take 16) t)) t ++ xtsBlocks f n (nextTweak t) (x.drop 16)

/-- Unit u through a cipher under a 64-byte key: the data key in bytes 0 to 31, the tweak key in bytes 32 to 63
(R325); the tweak is the unit's number, bits 45:6 of its address. -/
def xtsUnit (f : List (List Byte) → List Byte → List Byte) (key : BitVec 512) (u : Nat) (x : BitVec 512) : BitVec 512 :=
  let k := toBytes 64 key.toNat
  let t := aesEncrypt (keySchedule (k.drop 32)) (toBytes 16 (u % 2 ^ 40))
  BitVec.ofNat 512 (ofBytes (xtsBlocks (f (keySchedule (k.take 32))) 4 t (toBytes 64 x.toNat)))

/-- What memory holds of a unit written as x under a key, and how stored bytes read under one; no key: as they are. -/
def storedUnder (key : Option (BitVec 512)) (u : Nat) (x : BitVec 512) : BitVec 512 :=
  match key with | none => x | some k => xtsUnit aesEncrypt k u x
def readUnder (key : Option (BitVec 512)) (u : Nat) (x : BitVec 512) : BitVec 512 :=
  match key with | none => x | some k => xtsUnit aesDecrypt k u x

/-- A unit written as x under the key old, as the key new reads it (R324). -/
def rekey (new old : Option (BitVec 512)) (u : Nat) (x : BitVec 512) : BitVec 512 :=
  readUnder new u (storedUnder old u x)

/-! ### SHA3-256 -/

/-- The register of eight bits that gives the round constants: one step (FIPS 202, rc). -/
def rcStep (r : Nat) : Nat := if r < 128 then 2 * r else (2 * r) ^^^ 0x171

/-- The constant of one round, whose bit 2^j - 1 is the register's lowest bit at its j-th of seven steps, and the
register after them. -/
def rcRound (r : Nat) : DWord × Nat :=
  (List.range 7).foldl (init := (0, r)) fun x j => (x.1 ||| BitVec.ofNat 64 ((x.2 % 2) <<< (2 ^ j - 1)), rcStep x.2)

/-- By how much rho turns lane x + 5y: the k-th lane of the walk from (1, 0) that takes (x, y) to (y, 2x + 3y) by the
k-th triangular number, and lane 0 not at all. -/
def rhoTurns : List Nat :=
  ((List.range 24).foldl (init := (List.replicate 25 0, 1, 0)) fun w k =>
    (w.1.set (w.2.1 + 5 * w.2.2) ((k + 1) * (k + 2) / 2 % 64), w.2.2, (2 * w.2.1 + 3 * w.2.2) % 5)).1

/-- One round on the 25 lanes. -/
def keccakRound (turns : List Nat) (a : List DWord) (rc : DWord) : List DWord :=
  let at_ := fun (l : List DWord) x y => l.getD (x % 5 + 5 * (y % 5)) 0
  let c := (List.range 5).map fun x => (List.range 5).foldl (fun z y => z ^^^ at_ a x y) 0
  let d := (List.range 5).map fun x => c.getD ((x + 4) % 5) 0 ^^^ (c.getD ((x + 1) % 5) 0).rotateLeft 1
  let b := (List.range 25).map fun i =>
    let x := i % 5
    let y := i / 5
    -- lane (x, y) of the result of rho and pi is lane (x + 3y, x) of what goes in
    let sx := (x + 3 * y) % 5
    (at_ a sx x ^^^ d.getD sx 0).rotateLeft (turns.getD (sx + 5 * x) 0)
  (List.range 25).map fun i =>
    let x := i % 5
    let y := i / 5
    at_ b x y ^^^ (~~~(at_ b (x + 1) y) &&& at_ b (x + 2) y) ^^^ (if i == 0 then rc else 0)

/-- The 24 rounds. -/
def keccakF (a : List DWord) : List DWord :=
  let turns := rhoTurns
  ((List.range 24).foldl (init := (a, 1)) fun x _ => let c := rcRound x.2; (keccakRound turns x.1 c.1, c.2)).1

/-- The message with its padding, in blocks of 136 bytes. -/
def sha3Pad (m : List Byte) : List Byte :=
  let r := 136 - m.length % 136
  m ++ (if r == 1 then [0x86] else 0x06 :: List.replicate (r - 2) 0 ++ [0x80])

/-- Take n blocks in. -/
def sha3Absorb : Nat → List DWord → List Byte → List DWord
  | 0, a, _ => a
  | n + 1, a, m =>
    let a := (List.range 25).map fun i =>
      a.getD i 0 ^^^ (if i < 17 then BitVec.ofNat 64 (ofBytes ((m.drop (8 * i)).take 8)) else 0)
    sha3Absorb n (keccakF a) (m.drop 136)

/-- SHA3-256; byte 0 of the digest is the lowest. -/
def sha3 (m : List Byte) : BitVec 256 :=
  let p := sha3Pad m
  let a := sha3Absorb (p.length / 136) (List.replicate 25 0) p
  BitVec.ofNat 256 (ofBytes ((a.take 4).flatMap fun d => toBytes 8 d.toNat))

end Sys2Proof.Machine
end

