-- ==== Sys2Proof/Machine/Sparse.lean ====
section
/-! DEFINITION. Operations over sparse tables. sget and sset see a table as a total function with a
default value and keep no entry that equals the default; sfind, sput and sdel see it as a partial one. -/

namespace Sys2Proof.Machine

/-- The value listed at k. -/
def sfind {β : Type} : Sparse β → Nat → Option β
  | [], _ => none
  | (j, v) :: r, k => if k = j then some v else sfind r k

/-- List v at k, in key order. -/
def sput {β : Type} : Sparse β → Nat → β → Sparse β
  | [], k, v => [(k, v)]
  | (j, w) :: r, k, v =>
    if k < j then (k, v) :: (j, w) :: r
    else if k = j then (k, v) :: r
    else (j, w) :: sput r k v

/-- List nothing at k. -/
def sdel {β : Type} : Sparse β → Nat → Sparse β
  | [], _ => []
  | (j, v) :: r, k => if k = j then sdel r k else (j, v) :: sdel r k

/-- The value at k, d where nothing is listed. -/
def sget {β : Type} (d : β) (m : Sparse β) (k : Nat) : β := (sfind m k).getD d

/-- The table with v at k; the default d is not listed. -/
def sset {β : Type} [DecidableEq β] (d : β) (m : Sparse β) (k : Nat) (v : β) : Sparse β :=
  if v = d then sdel m k else sput m k v

/-- The keys listed. -/
def skeys {β : Type} (m : Sparse β) : List Nat := m.map (·.1)

/-- Every listed key is above k. -/
def above {β : Type} (k : Nat) (m : Sparse β) : Bool := m.all fun e => decide (k < e.1)

/-- Keys strictly rising. -/
def rising {β : Type} : Sparse β → Bool
  | [] => true
  | e :: r => above e.1 r && rising r

/-- Canonical form: keys strictly rising, and no entry equal to the default. -/
def canon {β : Type} [DecidableEq β] (d : β) (m : Sparse β) : Bool :=
  rising m && m.all fun e => decide (e.2 ≠ d)

end Sys2Proof.Machine
end

