-- ==== Sys2Proof/Config.lean ====
section
/-! DEFINITION. What an implementation fixes, and the free values: constants without a body, of which
nothing can be proved (log entries 7 to 12). The free values stand in the state's data only. -/

namespace Sys2Proof.Config

/-- Stepping number of a B stepping (R2): 0 for B0, 1 for B1. DESIGN CHOICE, log entry 3: B0. -/
def steppingNumber : Nat := 0

/-- Free value (R320): how far CLOCK runs during the n-th step, log entry 2. -/
opaque clockTick : Nat → DWord

/-- Free value (R404): how far CLOCK runs from a word's first pass to its pass q, log entry 2. -/
opaque passTick : Nat → Nat → DWord

/-- Free value (R133): the c-cycles of an MMA spent waiting, as its stamp reports them, log entry 2. -/
opaque waitCycles : Nat → DWord

/-- Free value (R93): which of the values within the bound FRCP (0), FRSQ (1), FEX2 (2), FLG2 (3) and FTANH (4) return
for an element of a format, as steps from the exact value rounded toward zero, log entry 8. -/
opaque transStep : Nat → FTy → Nat → Fin 5

/-- Free value (R205): what a compute row holds when a microprogram starts, log entry 9. -/
opaque computeRow : Nat → Row

/-- Free value (R325): unwrapping a key blob in the n-th start-up under the session key of the given KEM ciphertext;
none where the blob fails unwrapping, log entry 10. -/
opaque unwrap : Nat → List Byte → List Byte → Option (BitVec 512)

/-- Free value (R326): the ML-KEM-768 key of the n-th start-up, log entry 10. -/
opaque kemKey : Nat → List Byte
/-- Free value (R326): the ML-DSA-44 signature under the device identity key, log entry 10. -/
opaque sign : Nat → List Byte → List Byte
/-- Free value (R222): whether the controller postpones a due refresh, log entry 11. -/
opaque pick : Nat → Bool

/-- Free value (R254, R258): what the device writes into the link field of a task control block, by the
block's address and sequence number, log entry 16. -/
opaque link : DWord → Nat → DWord

/-- Free value (R288): the cause that a later read of a failed address records, log entry 23. -/
opaque errorCause : Nat → Byte

/-- Free value (R277): a not-present entry marks its page as the host's, log entry 28. -/
opaque hostBacked : DWord → Bool

/-- Free value (R277): the tag that Stratus chooses for a request, log entry 28. -/
opaque hostTag : Nat → Word

/-- Free value (R138): the set of its home slice that a 256-byte line falls in, log entry 25. -/
opaque l2Set : Nat → Fin 2048

end Sys2Proof.Config
end

