-- ==== Sys2Proof/Machine/State.lean ====
section
/-! DEFINITION. The state of the machine as plain data: everything INVENTORY.md lists under State,
the state after reset, and the reasons a step can stop. -/

namespace Sys2Proof.Machine

/-! ### Teams (spec 04, 05, 13, 15) -/

/-- The states of a team (Table 4-6). -/
inductive TState where
  | ready | stalled | parked | swapped | halted | retired
  deriving DecidableEq, Repr

/-- What a STALLED or PARKED team waits for (Table 4-6). -/
inductive Wait where
  | none
  /-- the drain bits of a clause header, ld st eng tr (R43) -/
  | drain (ld st eng tr : Bool)
  /-- a page or memory fault with unfinished lanes (R272) -/
  | fault
  /-- the arrival part of BARA (thenWait false) or BARV (true) (R75) -/
  | barArrive (b : Nat) (thenWait : Bool)
  /-- BARW or the wait part of BARV (R75) -/
  | barWait (b : Nat)
  | benter
  | waitv
  /-- AWAIT on a counter (R331) -/
  | await (c : Nat) (v : Nat)
  /-- a second deferred aperture store on a channel, key core * 4 + chan (R196) -/
  | deferred (chan : Nat)
  /-- a row command while 16 are not accepted (R209) -/
  | rowQueue
  /-- the commit of a result that a word touches (R53) -/
  | commit
  /-- the delivery of the team's mirrored stores before a release (R173), or the end of a row command's hold on
  lines to be released (R218) -/
  | mirror
  /-- the end of a row command's hold on a line (R218) -/
  | hold
  deriving DecidableEq, Repr

/-- A call-stack entry (R67, Table 4-4). -/
structure CallEntry where
  ret : DWord
  frame : Nat
  maskDepth : Nat
  count : Nat
  cls : Nat
  deriving DecidableEq, Repr

/-- A mask-stack entry (R64). -/
structure MaskEntry where
  outer : Mask
  other : Mask
  deriving DecidableEq, Repr

/-- The clause a team is running (R42): its words, the next word's index, how many words run before
a word that traps at decode (R44), and the passes left, the current one first. all holds the passes
of the clause; snaps the scalar file as each word of the first pass found it, which the later passes
read (R62); skipped counts the clause's words before base, where a trap's return has gone on behind them (R283); reads holds what each vector SRD of the first pass read (R404). -/
structure Clause where
  base : DWord
  cls : Nat
  words : List Word
  idx : Nat
  limit : Nat
  all : List Nat
  passes : List Nat
  first : Bool
  snaps : Sparse (Sparse DWord)
  skipped : Nat
  reads : Sparse DWord
  deriving DecidableEq, Repr

/-- The kinds of pending results (Table 17-2, R330). -/
inductive PendKind where
  | load | trans | atomic | status
  /-- an LDC counted by counter c (R330) -/
  | ldc (c : Nat)
  /-- a waiting ROWSTAT in scalar d, ready when the row commands below the number given have completed
  (R227); its word is formed at the commit, and with a scope it is an acquire that what follows waits for (R176) -/
  | rowWait (d : Nat) (upto : Nat) (acq : Option EScope)
  deriving DecidableEq, Repr

/-- A long-latency result that is not yet committed (R52 to R54). frame is the register frame at its issue (R308);
vals holds, for each vector register key (register * 1024 + lane), the value; svals the same for scalar registers.
more says that the word has still lanes of the pass to do (R52, R369); eas holds the address and the size of each lane's
load, port the bytes whose data is still on its way from an expander, each with its lane, and lost
the lanes whose data has not come from there and is to be read again, dead the trap code after a fatal reply (R276), home those
of a word that reads at the home slices (R169, R372). -/
structure Pending where
  src : DWord
  frame : Nat
  pass : Nat
  span : Nat
  kind : PendKind
  arrived : Bool
  more : Bool
  vals : List (Nat × Word)
  svals : List (Nat × DWord)
  flags : BitVec 5
  eas : List (Nat × DWord × Nat)
  port : List (Nat × Nat)
  lost : List Nat
  dead : Option Nat
  home : Bool
  deriving DecidableEq, Repr

/-- Where a team came from (R231, R259, R262). -/
inductive Origin where
  | launch (ctx q seq : Nat)
  | task (ctx tcb : Nat)
  | entry (handle : DWord)
  deriving DecidableEq, Repr

/-- The groups that an apply.lane has still to run (R248): the clause at the APPLY, the call depth with
the running group's frame, the mask depth at the APPLY, the active mask at it, the running group's
handle and lanes, and the groups to come. Between groups, running is false. -/
structure ApplyState where
  clause : Clause
  depth : Nat
  maskDepth : Nat
  orig : Mask
  handle : DWord
  group : Mask
  todo : List (DWord × Mask)
  running : Bool
  deriving DecidableEq, Repr

/-- A lane of a team's memory instruction that addresses the fabric window (R297): the request it sent
and, once it has arrived, the answer. -/
structure FabLane where
  lane : Nat
  target : Nat
  seq : Word
  reply : Option FabReply
  deriving DecidableEq, Repr

/-- A WAITV in progress (R171, R417): its comparison, scope and t register, the physical address of each
lane's word, and the lanes satisfied so far. -/
structure WaitV where
  ne : Bool
  sc : Scope
  t : Nat
  lanes : List (Nat × Nat)
  satisfied : Mask
  deriving DecidableEq, Repr

/-- One team (R60 to R89, Table 15-2). atPort holds the bytes of the current load that come from an expander, each with
its lane (R276). image is where its save image lies while it is saved (R285). late is set by a trap of a load whose later words have issued: the address
of the first word that had not (R54, R276). resume holds the words and the class that a RET resumes without a
header (R67). -/
structure Team where
  uid : Nat
  ctx : Nat
  core : Nat
  part : Nat
  slot : Nat
  tbase : Nat
  tag : Nat
  cls : Nat
  origin : Origin
  teamId : Nat
  lanes : Nat
  nreg : Nat
  scratchSize : Nat
  bundleCap : Nat
  state : TState
  wait : Wait
  haltedFrom : TState
  lastIssue : Nat
  parkedSince : DWord
  pc : DWord
  clause : Option Clause
  resume : Option (Nat × Nat)
  full : Mask
  active : Mask
  only : Option Mask
  held : Option (Sparse Word × Sparse DWord)
  unfin : Mask
  fatalPages : List Nat
  hostFail : List Nat
  waitReqs : List Nat
  waitv : Option WaitV
  atPort : List (Nat × Nat)
  v : Sparse Word
  s : Sparse DWord
  p : Sparse Mask
  k : Sparse DWord
  a : Sparse (BitVec 16)
  frame : Nat
  maskStack : List MaskEntry
  callHw : List CallEntry
  callDepth : Nat
  scratch : Sparse Byte
  window : Sparse Byte
  windowSize : Nat
  fpflags : Word
  trapInfo : DWord
  trapPc : DWord
  inHandler : Bool
  savedActive : Mask
  savedClause : Option Clause
  savedOnly : Option Mask
  savedHeld : Option (Sparse Word × Sparse DWord)
  savedRead : Option Nat
  savedWaitv : Option WaitV
  savedResume : Option (Nat × Nat)
  late : Option DWord
  trapDepth : Nat
  trapMaskDepth : Nat
  apply : Option ApplyState
  savedApply : Option ApplyState
  pending : List Pending
  rowOut : Nat
  rowDone : Nat
  rowBits : BitVec 8
  cohort : Option Nat
  memberIdx : Nat
  arr : Sparse (BitVec 16)
  entered : List DWord
  enteredMode : BMode
  benter : Option (List DWord × BMode × Nat)
  reenter : Bool
  raceIndex : Nat
  racePending : Bool
  deferred : List (Nat × Word)
  taskHandle : DWord
  stepping : Bool
  fabric : List FabLane
  image : Option Nat
  deriving DecidableEq, Repr

/-! ### Cohorts (spec 04) -/

/-- One barrier of a cohort (R74 to R76): the phase, who was expected and who has arrived (team uids,
streams as 2^40 + core), the flags of the last completion and those waiting for the next one. -/
structure Barrier where
  ph : BitVec 16
  expected : List Nat
  arrived : List Nat
  torn : Bool
  streamErr : Bool
  tornNext : Bool
  errNext : Bool
  deriving DecidableEq, Repr

/-- A live cohort (R71). -/
structure Cohort where
  ctx : Nat
  id : Nat
  dp : Nat
  window : Nat
  members : List (Nat × Nat)
  bars : Sparse Barrier
  tornPending : List Nat
  deriving DecidableEq, Repr

/-! ### Bundles (spec 08) -/

/-- Bundle states (Table 8-5). -/
inductive BState where
  | declared | waiting | filling | resident | entered | evicting
  deriving DecidableEq, Repr

/-- A bundle descriptor (R140 to R153). lines are 256-byte line numbers of virtual addresses with
their physical line, known from the fill on; enterers the teams that hold it entered; reserved the teams whose
waiting BENTER has it reserved; writers the bytes written in the entry epoch, each with its team; recorded says
that a context switch evicted it while it was entered (R157). -/
structure Bundle where
  state : BState
  prio : Nat
  order : Nat
  lines : List (Nat × Nat)
  fillFailed : Bool
  enterers : List Nat
  mode : BMode
  exitTime : Option Nat
  reserved : List Nat
  dropping : Bool
  recorded : Bool
  writers : List (Nat × Nat)
  deriving DecidableEq, Repr

/-- A context's bundle pool on one core (R140). admitting is the bundle whose admission waits for the victims
named with it to leave (R146). -/
structure Pool where
  cap : Nat
  bundles : Sparse Bundle
  gens : Sparse Nat
  nextOrder : Nat
  exits : Nat
  admitting : Option (Nat × List Nat)
  deriving DecidableEq, Repr

/-- A directory grant at a home slice (R154): the core and team, and whether for OWN or SHARE. -/
structure Grant where
  line : Nat
  core : Nat
  uid : Nat
  excl : Bool
  deriving DecidableEq, Repr

/-! ### Environments (spec 13) -/

/-- Environment states (Table 13-3). -/
inductive EnvState where
  | free | live | saved
  deriving DecidableEq, Repr

/-- One environment, kept at its first slot (R242, R243, Table 13-2). -/
structure Env where
  state : EnvState
  slots : Nat
  entry : DWord
  ctx : Nat
  count : Nat
  ref : Bool
  vcount : Nat
  vbase : Nat
  smask : BitVec 16
  words : List Word
  deriving DecidableEq, Repr

/-! ### Copy channels (spec 10) -/

/-- The states of a copy command after it leaves DEFERRED (Table 10-5). -/
inductive CopyState where
  | queued | acquiring | running | completing
  deriving DecidableEq, Repr

/-- One accepted copy command (R192 to R202). order is its place among the engine commands by issue (R175); tmpl, srcRec and dstRec are the template and records as read at
the head; condPa is the place of its condition word once it is translated, and met says that a value of the word
compared; fab holds the fabric requests of the unit it runs. -/
structure CopyCmd where
  seq : BitVec 48
  order : Nat
  ctx : Nat
  uid : Nat
  data : Word
  state : CopyState
  tmpl : BitVec 1024
  srcRec : BitVec 512
  dstRec : BitVec 512
  unit : Nat
  status : Nat
  condPa : Option Nat
  met : Bool
  fab : List FabLane
  deriving DecidableEq, Repr

/-- One copy channel as one context sees it (R194, R195, R198, R202): its commands, the deferred stores
with their teams and their places by issue, the sequence number and the write pointer. -/
structure Channel where
  queue : List CopyCmd
  deferred : List (Nat × Word × Nat)
  seq : BitVec 48
  ptr : DWord
  deriving DecidableEq, Repr

/-! ### The row engine (spec 11) -/

/-- The seven row operations (R207). -/
inductive RowOp where
  | cpy | fil | and | or | not | maj | xor
  deriving DecidableEq, Repr

/-- Where the 1,024 bytes of a unit lie: len bytes from pa on, the rest from next on (R207), each with the key of its
page (R324). -/
structure Seg where
  pa : Nat
  len : Nat
  next : Nat
  key : Nat
  nextKey : Nat
  deriving DecidableEq, Repr

/-- Paths of a row command (R213, R214). -/
inductive RowPath where
  | undecided | dram | fallback
  deriving DecidableEq, Repr

/-- One unit of a row command whose pre-step has been made: started once its write-backs are in memory (R216), with the
step counter and compute rows of its microprogram (R205, R223). -/
structure RowUnit where
  started : Bool
  step : Nat
  t0 : Row
  t1 : Row
  t2 : Row
  t3 : Row
  dcc0 : Row
  dcc1 : Row
  finished : Bool
  deriving DecidableEq, Repr

/-- One row command (R207 to R227). toAccept lists the home slices at which it is still to be accepted, places the
slices that have accepted it, each with the place in the order of acceptance (R212); stopped says that it accesses
nothing more: invalid, refused, a race or a fatal fault; units lists the units whose pre-step has been made. -/
structure RowCmd where
  id : Nat
  uid : Nat
  ctx : Nat
  core : Nat
  op : RowOp
  dst : DWord
  srcs : List DWord
  pattern : DWord
  control : DWord
  flags : EFlags
  toAccept : List Nat
  places : List (Nat × Nat)
  accepted : Bool
  stopped : Bool
  path : RowPath
  bits : BitVec 8
  dstPa : List Seg
  srcPa : List (List Seg)
  units : Sparse RowUnit
  fallbackNext : Nat
  deriving DecidableEq, Repr

/-- A DRAM column access waiting at a bank: a read, urgent or not, or a write-back (R220, R221). -/
structure BankAcc where
  row : Nat
  urgent : Bool
  write : Bool
  pa : Nat
  deriving DecidableEq, Repr

/-- One DRAM bank (R220, R222): accesses in arrival order, those that the open arbitration window of a microprogram
has still to serve, and refreshes owed. -/
structure Bank where
  pendingAcc : List BankAcc
  window : List BankAcc
  refreshOwed : Nat
  deriving DecidableEq, Repr

/-! ### The matrix engine (spec 07) -/

/-- Stream states (Table 7-4). -/
inductive SState where
  | running | parked | saved | error
  deriving DecidableEq, Repr

/-- A weight block latched into the array, with its checksum column (R110): for each K-row, the sum over the columns
of the scaled weights, and of the codes alone, in the units of R128. -/
structure Latched where
  slot : Nat
  stale : Bool
  image : List Byte
  planes : Nat
  owner : Nat
  check : List (Int × Int)
  deriving DecidableEq, Repr

/-- One accumulator tile (R102): elements by row * 128 + column, 40 bits each. -/
structure Tile where
  int : Bool
  sat : Bool
  acc : Sparse (BitVec 40)
  deriving DecidableEq, Repr

/-- A running MMA: the address of its word, its operands, its K-step and chunk (R122, R131), the marks of its stamp
(R133), and whether the current chunk has failed its compare once (R129). latched has the planes at which the current
K-step's block was latched (R131); before is its tile as it found it (R132). -/
structure MmaRun where
  word : DWord
  tile : Bool
  stamp : Bool
  recNo : Nat
  slot : Nat
  rows : Nat
  kstep : Nat
  chunk : Nat
  issue : DWord
  copyin : DWord
  start : DWord
  reruns : Nat
  interrupts : Nat
  failed : Bool
  latched : Option Nat
  before : Tile
  deriving DecidableEq, Repr

/-- A running MSTA: the address of its word, its operands, and how many parts are written (R123). -/
structure MstaRun where
  word : DWord
  fmt : MstaFmt
  ieee : Bool
  tile : Bool
  recNo : Nat
  part : Nat
  deriving DecidableEq, Repr

/-- A stamped MMA that has not retired (R133); copyDone is set once an MSTA has converted its tile. -/
structure StampRun where
  tile : Bool
  seq : Nat
  mma : MmaRun
  computeEnd : DWord
  copyDone : Option DWord
  sparse : Bool
  srec : Nat
  deriving DecidableEq, Repr

/-- A background MWB: the address of its word, its slot, where its image lies, and the image once it is read: none
where its length is out of range (R118, R120). -/
structure MwbRun where
  word : DWord
  slot : Nat
  image : DWord
  read : Option (Option (List Byte))
  deriving DecidableEq, Repr

/-- A weight slot before an MWB that follows the running word wrote it: its image, and whether the block latched from it was
stale (R132). -/
structure SlotUndo where
  slot : Nat
  image : List Byte
  stale : Bool
  deriving DecidableEq, Repr

/-- An attached matrix stream (R112 to R133). order is its place in the order of attaching; ahead holds words
fetched ahead, the next one first (R379); waitReqs names the requests it waits for, each with the address of the
word concerned; undo holds the slots that MWBs after the running word have written, the last one first; failing is the first word that has failed, with its code, while earlier words still run (R120, R132);
savedFrom is the state saved with the context, beside its tiles, its slots and the block latched for it (R131). -/
structure Stream where
  order : Nat
  cohort : Nat
  ctx : Nat
  start : DWord
  pc : DWord
  ahead : List Word
  state : SState
  barMask : BitVec 16
  tileMask : BitVec 2
  slotBase : Nat
  slotCount : Nat
  afmt : AFmt
  j : Nat
  srec : Nat
  arr : Sparse (BitVec 16)
  wait : Wait
  waitReqs : List (Nat × DWord)
  mma : Option MmaRun
  msta : Option MstaRun
  mwbs : List MwbRun
  undo : List SlotUndo
  failing : Option (Nat × DWord)
  stamps : List StampRun
  stampSeq : Nat
  errCode : Nat
  errPc : DWord
  stopped : Bool
  granted : Bool
  savedFrom : SState
  savedTile0 : Tile
  savedTile1 : Tile
  savedSlots : Sparse (List Byte)
  savedLatched : Option Latched
  deriving DecidableEq, Repr

/-- The matrix engine of one core (R110, R116). -/
structure Engine where
  streams : List Stream
  tile0 : Tile
  tile1 : Tile
  slots : Sparse (List Byte)
  latched : Option Latched
  lastGrant : Nat
  attached : Nat
  deriving DecidableEq, Repr

/-! ### Launches, tasks and contexts (spec 12, 13) -/

/-- A posted launch block (R232): its address, its sequence number, and whether the ballast launch in it has been
cancelled. -/
structure LaunchEntry where
  block : DWord
  seq : Nat
  cancel : Bool
  deriving DecidableEq, Repr

/-- A launch whose block has been read and whose teams are placed or run (R230, R237). -/
structure LaunchRun where
  q : Nat
  seq : Nat
  blockVa : DWord
  block : BitVec 2048
  cursor : Nat
  rotation : Sparse Nat
  placed : Nat
  retired : Nat
  cores : List Nat
  cancel : Bool
  deriving DecidableEq, Repr

/-- One launch queue (R232). -/
structure LaunchQueue where
  entries : List LaunchEntry
  discarded : Nat
  nextSeq : Nat
  deriving DecidableEq, Repr

/-- A ready-queue entry (R258, R262): a TCB, or a posted closure with its configuration word. -/
inductive ReadyEntry where
  | tcb (addr : Nat) (prio : Nat) (seq : BitVec 48)
  | closure (handle : DWord) (cfg : DWord) (prio : Nat) (seq : BitVec 48)
  deriving DecidableEq, Repr

/-- One ready queue (R258): cursor counts from the first core of its die pair. -/
structure ReadyQueue where
  entries : List ReadyEntry
  nextSeq : BitVec 48
  cursor : Nat
  rotation : Sparse Nat
  deriving DecidableEq, Repr

/-- A context (R266, R281, R254, R186, R189). marks gives the group of each page that is a reduction page (R300). -/
structure Context where
  root : Nat
  trapEntry : DWord
  tensors : Sparse (BitVec 512)
  templates : Sparse (BitVec 1024)
  queues : Sparse LaunchQueue
  runs : List LaunchRun
  ready : Sparse ReadyQueue
  swapThreshold : DWord
  exportBase : DWord
  marks : Sparse Nat
  deriving DecidableEq, Repr

/-! ### Stratus, networks, temperature -/

/-- Kinds of page request (Table 14-4). -/
inductive ReqKind where
  | read | write | fetch
  deriving DecidableEq, Repr

/-- Which engine asks for a page (R201, R219, R297): a copy channel's head, a row command, a bundle's fill, the head of
a launch or ready queue, an access of another package. -/
inductive Asker where
  | copy (key : Nat) (seq : BitVec 48)
  | row (id : Nat)
  | fill (pool idx : Nat)
  | launch (q : Nat)
  | ready (q : Nat)
  | proxy (src : Nat) (seq : Word)
  deriving DecidableEq, Repr

/-- A request of a core for a page at Stratus (R272, R277), core 512 standing for the home slices. askers are the engines
that wait for it; host is the tag of its record in the host's request ring; queued says that its record waits for room
there. -/
structure FaultReq where
  id : Nat
  ctx : Nat
  core : Nat
  askers : List Asker
  page : Nat
  kind : ReqKind
  host : Option Word
  queued : Bool
  migrating : Bool
  deriving DecidableEq, Repr

/-- The end of a task whose steps at the home slice are not yet all performed (R260, R261): done, or
failed with TRAPINFO; stage 0 the control block, 1 the stamp, 2 + k the k-th successor; req the request
it waits for, none while a home slice holds the line back. -/
structure TaskEnd where
  ctx : Nat
  tcb : DWord
  failed : Option DWord
  stage : Nat
  stamp : DWord
  succPtr : DWord
  succLen : Nat
  req : Option Nat
  deriving DecidableEq, Repr

/-- A stamp whose write waits for Stratus, or for a home slice that holds the line back (R218, R234). inBlock says that va
is the place in a launch block where the stamp's address is still to be read (R288). -/
structure StampWait where
  ctx : Nat
  va : DWord
  value : DWord
  req : Option Nat
  inBlock : Bool
  deriving DecidableEq, Repr

/-- A change of a control block's state that waits in the same way (R255, R261). -/
structure TcbNote where
  ctx : Nat
  tcb : DWord
  st : Nat
  req : Option Nat
  deriving DecidableEq, Repr

/-- The TLBs of a core (R269): first level of a partition, second level, walk-ahead. -/
inductive TlbId where
  | first (part : Nat) | second | ahead
  deriving DecidableEq, Repr

/-- A translation held by a TLB (R269): the page's virtual base, its size and its leaf entry. -/
structure TlbEntry where
  core : Nat
  tlb : TlbId
  ctx : Nat
  base : Nat
  size : Nat
  leaf : DWord
  deriving DecidableEq, Repr

/-- A byte of a first-level cache (R136). -/
structure L1Byte where
  val : Byte
  dirty : Bool
  deriving DecidableEq, Repr

/-- The L2's tag of a 256-byte line (R138, R276, R324): key id, whether it has been read from memory, the sectors
that memory does not hold yet, and when it was last used: 0 while it is not in the L2. -/
structure L2Line where
  key : Nat
  present : Bool
  dirty : BitVec 4
  used : Nat
  deriving DecidableEq, Repr

/-- A mirrored-store packet on its way to one core (R294). -/
structure MirrorPkt where
  sender : Nat
  cohort : Nat
  core : Nat
  targets : List Nat
  off : Nat
  data : List Byte
  deriving DecidableEq, Repr

/-- Who sent a fabric request: a team's lane, or a copy channel (R297). -/
inductive FabWho where
  | team (uid : Nat)
  | copy (core chan ctx : Nat)
  deriving DecidableEq, Repr

/-- A fabric request that has no response yet (R299). -/
structure FabReq where
  target : Nat
  seq : Word
  who : FabWho
  op : FabOp
  off : Nat
  resends : Nat
  deriving DecidableEq, Repr

/-- A performed fabric request that the target remembers, with its response (R299). -/
structure FabDone where
  src : Nat
  seq : Word
  resp : FabReply
  deriving DecidableEq, Repr

/-- A fabric request that is still being performed at the target (R297, R299). -/
structure FabIn where
  src : Nat
  seq : Word
  ctx : Nat
  off : Nat
  op : FabOp
  deriving DecidableEq, Repr

/-- A collective group (R300): members and the root package. -/
structure Group where
  members : List Nat
  root : Nat
  deriving DecidableEq, Repr

/-- The contributions to one unit in one round (R300): the unit's place, its scale's place, the reduce code, and what
each package has given, with the scale. -/
structure Round where
  group : Nat
  pas : List Nat
  scalePa : List Nat
  kind : Nat
  round : Nat
  given : List (Nat × List Byte × Byte)
  deriving DecidableEq, Repr

/-- The fabric side of the package (spec 16). counts holds, by unit address * 4096 + package, the contributions made
to a unit. -/
structure Fabric where
  id : Nat
  down : BitVec 12
  replays : Sparse Nat
  nextSeq : Sparse Word
  outstanding : List FabReq
  done : List FabDone
  waiting : List FabIn
  stale : Nat
  rto : DWord
  halted : List Nat
  table : Sparse (List (Fin 12))
  groups : Sparse Group
  rounds : List Round
  counts : Sparse Nat
  deriving DecidableEq, Repr

/-- The thermal state of a die pair (Table 18-5, R318, R319). -/
structure Thermal where
  step : Nat
  warn : Bool
  safeClk : Bool
  cool : Nat
  paused : Bool
  deriving DecidableEq, Repr

/-- Power states of the package (R312, R321). -/
inductive Power where
  | off | on | tripped
  deriving DecidableEq, Repr

/-- BOOT_STAT (Table 18-2), the number of the start-up, the fused rollback counter (R313), and the digest of the
running firmware (R326). -/
structure Boot where
  stage : Nat
  error : Nat
  secVersion : Nat
  startups : Nat
  rollback : Nat
  digest : BitVec 256
  deriving DecidableEq, Repr

/-- Which units a set of discovery registers reports (Table 15-4). -/
structure Units where
  cores : BitVec 512
  slices : BitVec 256
  stackEn : BitVec 8
  pchs : BitVec 2048
  ports : BitVec 24
  cxl : List Nat
  deriving DecidableEq, Repr

/-- Host ring registers (Table 14-5). -/
structure HostRings where
  reqBase : DWord
  reqTail : Nat
  reqHead : Nat
  rspBase : DWord
  rspTail : Nat
  rspHead : Nat
  seq : DWord
  deriving DecidableEq, Repr

/-- PSET and the power controller's gate (R240, Table 12-3). -/
structure PsetReg where
  setpoint : BitVec 12
  enable : Bool
  avg : BitVec 12
  next : Option (BitVec 12 × Bool)
  gated : Bool
  deriving DecidableEq, Repr

/-- Debug registers (spec 17): stopped partitions and bkpt_en by core * 4 + partition, phase steps
by die pair, engine stop bits by core, the trace queue. -/
structure Debug where
  halted : List Nat
  bkptEn : List Nat
  attached : Bool
  stepDone : Sparse Bool
  stepCohort : Sparse Nat
  engStop : Sparse (BitVec 9)
  traceOn : Bool
  trace : List (BitVec 512)
  traceLost : Nat
  deriving DecidableEq, Repr

/-- Key slots and attestation (spec 18). -/
structure Security where
  keys : Sparse (Option (BitVec 512))
  keyCmd : DWord
  keyData : List Byte
  kemCt : List Byte
  nonce : BitVec 256
  report : List Byte
  deriving DecidableEq, Repr

/-- What the agenda may name as the next move. -/
inductive Move where
  /-- a step without an encoding happens -/
  | occur (i : Instr)
  /-- the partition issues the team's next word (R78) -/
  | issue (uid : Nat)
  /-- Gale runs the next word of a core's k-th stream (R116) -/
  | stream (core k : Nat)
  /-- the first-level cache of a core replaces the 64-byte line (R136) -/
  | replaceL1 (core line : Nat)
  /-- a home slice evicts a 256-byte line, the least recently used one of its set that may go (R138) -/
  | evictL2 (line : Nat)
  /-- a TLB drops its n-th entry (R269) -/
  | dropTlb (n : Nat)
  /-- the arrival of a pending result (R306) -/
  | arrive (uid k : Nat)
  /-- an error of a structure of Table 15-3 is corrected, in its order there; clean data of one is dropped: the n-th
  TLB entry, a line's clean first-level bytes, a clean L2 line (R287) -/
  | corrected (structure_ : Nat)
  | parityTlb (n : Nat)
  | parityL1 (core line : Nat)
  | refetchL2 (line : Nat)
  /-- the tile translation engine translates one page further ahead, for copy channel n or stream n - 4 (R203) -/
  | ahead (core n : Nat)
  /-- the port takes the first stamp of the trace queue (R311) -/
  | traceOut
  deriving DecidableEq, Repr

/-! ### The machine -/

/-- The whole device (INVENTORY.md, State). -/
structure State where
  power : Power
  boot : Boot
  clock : DWord
  fuses : Units
  /-- What the CXL ports find as they train: per port the capacity of its expander, none where training fails (R303). -/
  expanders : List (Option Nat)
  units : Units
  sensors : Sparse Word
  thermal : Sparse Thermal
  refreshMult : Sparse Nat
  refreshCool : Sparse Nat
  pset : PsetReg
  mem : Sparse Byte
  shadows : Sparse (Option (BitVec 512) × BitVec 512)
  l2 : Sparse L2Line
  l2Time : Nat
  l1 : Sparse (Option L1Byte)
  tlbs : List TlbEntry
  badFrames : List Nat
  badReads : List (Nat × Nat)
  cur : Nat
  curStream : Nat × Nat
  issueCount : Nat
  nextUid : Nat
  nextTag : Nat
  teams : Sparse Team
  cohorts : Sparse Cohort
  pools : Sparse Pool
  grants : List Grant
  envs : Sparse Env
  envGens : Sparse Nat
  channels : Sparse Channel
  rowQueue : List RowCmd
  nextRow : Nat
  nextPlace : Nat
  banks : Sparse Bank
  rowActs : Sparse Nat
  captured : List Nat
  stackStopped : BitVec 8
  engines : Sparse Engine
  ctxs : Sparse Context
  running : Sparse (Option Nat)
  rr : Sparse Nat
  reqs : List FaultReq
  taskEnds : List TaskEnd
  stampWaits : List StampWait
  tcbNotes : List TcbNote
  heatWaits : List (Nat × Bool)
  nextReq : Nat
  rings : HostRings
  sweepPeriod : Nat
  cxlDown : BitVec 4
  routes : Sparse (BitVec 128)
  routeErr : Bool
  mirrors : List MirrorPkt
  fabric : Fabric
  fatal : Sparse DWord
  errCounters : Sparse Word
  dbg : Debug
  sec : Security
  free : Nat
  agenda : List Move
  deriving DecidableEq, Repr

/-- Why a step stops. -/
inductive Fault where
  /-- Raised by step when the package has no power or has tripped, so that no clock runs (R312, R321),
  and nothing is left on the agenda. Safe: the hardware stands still there as well. -/
  | noClock
  deriving DecidableEq, Repr

/-- Why an instruction has no meaning in the model. -/
inductive Refusal where
  /-- Raised by an arm of exec whose instruction has no meaning yet. Safe. -/
  | notModelled (mnemonic : String)
  deriving DecidableEq, Repr

/-! ### Values at placement and at reset -/

/-- A team slot that holds no team: the value of every field before placement. -/
def Team.blank : Team where
  uid := 0
  ctx := 0
  core := 0
  part := 0
  slot := 0
  tbase := 0
  tag := 0
  cls := 0
  origin := .entry 0
  teamId := 0
  lanes := 0
  nreg := 0
  scratchSize := 0
  bundleCap := 0
  state := .retired
  wait := .none
  haltedFrom := .ready
  lastIssue := 0
  parkedSince := 0
  pc := 0
  clause := none
  resume := none
  full := 0
  active := 0
  only := none
  held := none
  unfin := 0
  fatalPages := []
  hostFail := []
  waitReqs := []
  waitv := none
  atPort := []
  v := []
  s := []
  p := []
  k := []
  a := []
  frame := 0
  maskStack := []
  callHw := []
  callDepth := 0
  scratch := []
  window := []
  windowSize := 0
  fpflags := 0
  trapInfo := 0
  trapPc := 0
  inHandler := false
  savedActive := 0
  savedClause := none
  savedOnly := none
  savedHeld := none
  savedRead := none
  savedWaitv := none
  savedResume := none
  late := none
  trapDepth := 0
  trapMaskDepth := 0
  apply := none
  savedApply := none
  pending := []
  rowOut := 0
  rowDone := 0
  rowBits := 0
  cohort := none
  memberIdx := 0
  arr := []
  entered := []
  enteredMode := .read
  benter := none
  reenter := false
  raceIndex := 0
  racePending := false
  deferred := []
  taskHandle := 0
  stepping := false
  fabric := []
  image := none

/-- A tile in float mode that holds zero (R121). -/
def Tile.zero : Tile := ⟨false, false, []⟩

/-- A matrix engine with nothing attached. -/
def Engine.idle : Engine := ⟨[], .zero, .zero, [], none, 0, 0⟩

/-- No unit reported (before the safe function; log entry 4). -/
def Units.none : Units := ⟨0, 0, 0, 0, 0, []⟩

/-- A module with every unit enabled and four 2 TiB expanders. DESIGN CHOICE, log entry 4. -/
def Units.all : Units :=
  ⟨BitVec.allOnes 512, BitVec.allOnes 256, BitVec.allOnes 8, BitVec.allOnes 2048,
    BitVec.allOnes 24, [2 ^ 41, 2 ^ 41, 2 ^ 41, 2 ^ 41]⟩

/-- The device at power good, in the ROM stage (Table 18-1): every field the spec gives a reset value
holds it; the others hold the value that the log entry named in INVENTORY.md gives. -/
def State.reset : State where
  power := .on
  boot := ⟨0, 0, 0, 0, 0, 0⟩
  clock := 0
  fuses := { Units.all with cxl := [] }
  expanders := [some (2 ^ 41), some (2 ^ 41), some (2 ^ 41), some (2 ^ 41)]
  units := .none
  sensors := []
  thermal := []
  refreshMult := []
  refreshCool := []
  pset := ⟨0, false, 0, none, false⟩
  mem := []
  shadows := []
  l2 := []
  l2Time := 0
  l1 := []
  tlbs := []
  badFrames := []
  badReads := []
  cur := 0
  curStream := (0, 0)
  issueCount := 0
  nextUid := 0
  nextTag := 0
  teams := []
  cohorts := []
  pools := []
  grants := []
  envs := []
  envGens := []
  channels := []
  rowQueue := []
  nextRow := 0
  nextPlace := 0
  banks := []
  rowActs := []
  captured := []
  stackStopped := 0
  engines := []
  ctxs := []
  running := []
  rr := []
  reqs := []
  taskEnds := []
  stampWaits := []
  tcbNotes := []
  heatWaits := []
  nextReq := 0
  rings := ⟨0, 0, 0, 0, 0, 0, 0⟩
  sweepPeriod := 16
  cxlDown := 15
  routes := []
  routeErr := false
  mirrors := []
  fabric := ⟨0, 0, [], [], [], [], [], 0, 16, [], [], [], [], []⟩
  fatal := []
  errCounters := []
  dbg := ⟨[], [], false, [], [], [], false, [], 0⟩
  sec := ⟨[], 0, [], [], 0, []⟩
  free := 0
  agenda := []

end Sys2Proof.Machine
end

