-- ==== Sys2Proof/Machine/Memory.lean ====
section
/-! DEFINITION. Memory: bytes at the home slices by physical address (R11, R138, R265), the first-level
caches byte by byte (R136, R137), and the keys of spec 18 (R324). An address that nothing has written
reads 0 (DESIGN CHOICE, log entry 1). -/

namespace Sys2Proof.Machine

/-- What an unlisted address of memory reads as (log entry 1). -/
def unlisted : Byte := 0

/-- The canonical form of memory: addresses strictly rising, no entry equal to what an unlisted address
reads as. -/
def Memory.wf (m : Sparse Byte) : Bool := canon unlisted m

/-! ### The home slices -/

/-- The byte at the home slice of pa. -/
def memGet (s : State) (pa : Nat) : Byte := sget unlisted s.mem pa

/-- Write one byte at its home slice. The unit's earlier ciphertext is gone (R324). -/
def memSet (s : State) (pa : Nat) (b : Byte) : State :=
  { s with mem := sset unlisted s.mem pa b, shadows := sdel s.shadows (pa / 64) }

/-- Write bytes at the home slices, one address each. -/
def memSetAll (s : State) : List (Nat × Byte) → State
  | [] => s
  | (pa, b) :: r => memSetAll (memSet s pa b) r

/-- n bytes from pa at the home slice, as a number. -/
def memRead (s : State) (pa n : Nat) : Nat := ofBytes ((List.range n).map fun i => memGet s (pa + i))

/-- The 256-byte line of an address. -/
def lineOf (pa : Nat) : Nat := pa / 256

/-- The tag of a line that the L2 has not held. -/
def L2Line.blank : L2Line := ⟨0, false, 0, 0⟩

/-- The line's tag. -/
def l2Get (s : State) (line : Nat) : L2Line := sget .blank s.l2 line

def l2Set (s : State) (line : Nat) (x : L2Line) : State := { s with l2 := sset .blank s.l2 line x }

/-- The line is in the L2 and has been used (R138). -/
def touchLine (s : State) (line : Nat) : State :=
  l2Set { s with l2Time := s.l2Time + 1 } line { l2Get s line with used := s.l2Time + 1 }

/-- The sector of an address, as a bit of its line. -/
def sectorBit (pa : Nat) : BitVec 4 := BitVec.ofNat 4 (2 ^ (pa / 64 % 4))

/-- A write to a tier 0 or tier 1 line: its sector is dirty in L2 until it is written back (R138, R276). -/
def markDirty (s : State) (pa : Nat) : State :=
  if pa / 2 ^ 44 ≤ 1 then
    let x := l2Get s (lineOf pa)
    l2Set s (lineOf pa) { x with dirty := x.dirty ||| sectorBit pa }
  else s

/-- The L2 holds the byte: its line has been read, or its sector written. -/
def l2Holds (s : State) (pa : Nat) : Bool :=
  let x := l2Get s (lineOf pa)
  x.present || x.dirty &&& sectorBit pa != 0

/-- The address lies in tier 1 behind a port that is down (R276). -/
def portDown (s : State) (pa : Nat) : Bool := pa / 2 ^ 44 == 1 && s.cxlDown.getLsbD (pa / 2 ^ 41 % 4)

/-- A read of the byte would reach a port that is down (R276). -/
def portMiss (s : State) (pa : Nat) : Bool := portDown s pa && !l2Holds s pa

/-- The address failed before (R288). -/
def isBad (s : State) (pa : Nat) : Bool := s.badFrames.contains (lineOf pa)

/-- A read of a failed address for a context: it is fatal to the context at the end of the step (R288). -/
def noteBad (s : State) (ctx pa : Nat) : State :=
  if s.badReads.any fun r => r.1 == ctx then s else { s with badReads := s.badReads ++ [(ctx, pa)] }

/-! ### Rows and banks (Table 1-2, R220) -/

/-- The 1 KiB row of an address, and its bank: pseudo-channel * 16 + bank. -/
def rowOf (pa : Nat) : Nat := pa / 1024
def bankOf (pa : Nat) : Nat := field pa 10 11 * 16 + field pa 21 4

/-- The stack of an address. -/
def stackOf (pa : Nat) : Nat := field pa 18 3

def Bank.blank : Bank := ⟨[], [], 0⟩
def getBank (s : State) (b : Nat) : Bank := sget .blank s.banks b
def setBank (s : State) (b : Nat) (x : Bank) : State := { s with banks := sset .blank s.banks b x }

/-- The row of a tier 0 address is captured: it is served from lines that its slice keeps (R226). -/
def capturedAt (s : State) (pa : Nat) : Bool := pa / 2 ^ 44 == 0 && s.captured.contains (rowOf pa)

/-- A DRAM access of a tier 0 address, a read or a write-back, waits at its bank (R220). -/
def bankAccess (s : State) (urgent write : Bool) (pa : Nat) : State :=
  if pa / 2 ^ 44 != 0 || capturedAt s pa then s
  else
    let b := getBank s (bankOf pa)
    setBank s (bankOf pa) { b with pendingAcc := b.pendingAcc ++ [⟨rowOf pa, urgent, write, pa⟩] }

/-- A read at the home slice: the line is used, and fetched where the L2 does not hold it (R138, R220). -/
def homeFetch (s : State) (urgent : Bool) (pa : Nat) : State :=
  let s := touchLine s (lineOf pa)
  let x := l2Get s (lineOf pa)
  if x.present then s
  else bankAccess (l2Set s (lineOf pa) { x with present := true }) urgent false pa

/-- The same for every line of some bytes. -/
def homeFetchAll (s : State) (urgent : Bool) (pas : List Nat) : State :=
  (distinct (pas.map lineOf)).foldl (fun s ln => homeFetch s urgent (ln * 256)) s

/-- No activation starts in the stack of a read that the L2 cannot serve: it is above its limit (R225). -/
def stackHolds (s : State) (pa : Nat) : Bool :=
  s.stackStopped != 0 && pa / 2 ^ 44 == 0 && s.stackStopped.getLsbD (stackOf pa) && !l2Holds s pa &&
    !capturedAt s pa

/-- The dirty sectors of a line are written to memory, where no port is down (R138, R276). -/
def writeSectors (s : State) (line : Nat) : State :=
  let x := l2Get s line
  if x.dirty == 0 || portDown s (line * 256) || capturedAt s (line * 256) then s
  else bankAccess (l2Set s line { x with dirty := 0 }) false true (line * 256)

/-! ### First-level caches -/

/-- The key of a byte of a core's first-level cache. -/
def l1Key (core pa : Nat) : Nat := core * 2 ^ 46 + pa

def l1Get (s : State) (core pa : Nat) : Option L1Byte := sget none s.l1 (l1Key core pa)

def l1Set (s : State) (core pa : Nat) (v : Option L1Byte) : State :=
  { s with l1 := sset none s.l1 (l1Key core pa) v }

/-- The pool of a context on a core (R140). -/
def poolKey (core ctx : Nat) : Nat := core * 4096 + ctx

/-- The bundle occupies slots of its pool (R146). -/
def Bundle.present (b : Bundle) : Bool :=
  b.state == .filling || b.state == .resident || b.state == .entered || b.state == .evicting

/-- The bundle holds the physical line. -/
def Bundle.hasLine (b : Bundle) (line : Nat) : Bool := b.lines.any fun l => l.2 == line

/-- Every bundle of a core with its pool key and descriptor. -/
def bundlesOf (s : State) (core : Nat) : List (Nat × Nat × Bundle) :=
  (s.pools.filter fun p => p.1 / 4096 == core).flatMap fun p =>
    p.2.bundles.map fun b => (p.1, b.1, b.2)

/-- The line lies in the store copy of a bundle of the core that a team has entered (R139, R151). -/
def inBundle (s : State) (core line : Nat) : Bool :=
  (bundlesOf s core).any fun b => b.2.2.state == .entered && b.2.2.hasLine line

/-- The bytes of a core's first-level cache proper: address and byte, without entered bundle lines. -/
def l1Bytes (s : State) (core : Nat) : List (Nat × L1Byte) :=
  (s.l1.filterMap fun e =>
    if e.1 / 2 ^ 46 == core then e.2.map fun b => (e.1 % 2 ^ 46, b) else none).filter
      fun e => !inBundle s core (lineOf e.1)

/-! ### Units of row commands (R207) -/

/-- Byte i of a unit. -/
def Seg.addr (g : Seg) (i : Nat) : Nat := if i < g.len then g.pa + i else g.next + (i - g.len)

/-- The addresses of a unit's bytes. -/
def Seg.bytes (g : Seg) : List Nat := (List.range 1024).map g.addr

/-- The unit has a byte of the 256-byte line. -/
def Seg.covers (g : Seg) (line : Nat) : Bool :=
  (0 < g.len && lineOf g.pa ≤ line && line ≤ lineOf (g.pa + g.len - 1)) ||
    (g.len < 1024 && lineOf g.next ≤ line && line ≤ lineOf (g.next + (1024 - g.len) - 1))

/-- The lines of a unit. -/
def Seg.lineList (g : Seg) : List Nat :=
  distinct ((List.range 16).flatMap fun i => [lineOf (g.addr (i * 64)), lineOf (g.addr (i * 64 + 63))])

/-! ### Holds (R218) -/

/-- The command has begun: the pre-step of its first unit has been made (R217, R218). -/
def RowCmd.begun (r : RowCmd) : Bool := !r.units.isEmpty

/-- From then until it completes a command holds the lines of all its destination units. -/
def RowCmd.holdsDst (r : RowCmd) (line : Nat) : Bool := r.begun && r.dstPa.any fun g => g.covers line

/-- The same for its source units. -/
def RowCmd.holdsSrc (r : RowCmd) (line : Nat) : Bool := r.begun && r.srcPa.any fun l => l.any fun g => g.covers line

/-- Loads, or stores and atomics, of the line wait at its slice. -/
def heldLine (s : State) (write : Bool) (line : Nat) : Bool :=
  s.rowQueue.any fun r => r.holdsDst line || (write && r.holdsSrc line)

/-! ### WAITV's re-reads (R418, R419) -/

/-- The word at pa as a core reads it at a scope: the home slice merged with the core's dirty bytes at
cohort scope and above (R169), the first-level copy at core scope. -/
def readWordAt (s : State) (core : Nat) (atCore : Bool) (pa : Nat) : Word :=
  BitVec.ofNat 32 (ofBytes ((List.range 4).map fun i =>
    match l1Get s core (pa + i) with
    | some b => if b.dirty || atCore then b.val else memGet s (pa + i)
    | none => memGet s (pa + i)))

/-- Key of lane l of team register g. -/
def vkey (g l : Nat) : Nat := g * 1024 + l

/-- Lane l of team register g (R68, R81). -/
def Team.vget (t : Team) (g l : Nat) : Word := sget 0 t.v (vkey g l)

def Team.vset (t : Team) (g l : Nat) (x : Word) : Team := { t with v := sset 0 t.v (vkey g l) x }

/-- Re-read the words of a waiting team that lie in one of the lines; a lane whose word compares becomes
satisfied and t receives the value (R171). -/
def reread (s : State) (t : Team) (lines : List Nat) : Team :=
  match t.waitv with
  | none => t
  | some w =>
    w.lanes.foldl (init := t) fun t e =>
      match t.waitv with
      | none => t
      | some w =>
        if lines.contains (lineOf e.2) && !w.satisfied.getLsbD e.1 then
          let x := readWordAt s t.core (w.sc == .core) e.2
          if (x == t.vget w.t e.1) != w.ne then
            { t.vset w.t e.1 x with
              waitv := some { w with satisfied := w.satisfied ||| laneBit e.1 } }
          else t
        else t

/-- The condition word of a copy command compares as its template asks (R194). -/
def CopyCmd.condHolds (c : CopyCmd) (x : Word) : Bool :=
  (x.toNat == field c.tmpl.toNat 32 32) != c.tmpl.getLsbD 25

/-- A command that waits for its condition reads the word again when its line is written (R194). -/
def CopyCmd.recheck (s : State) (lines : List Nat) (c : CopyCmd) : CopyCmd :=
  match c.condPa with
  | some pa =>
    if c.state == .acquiring && lines.contains (lineOf pa) && c.condHolds (BitVec.ofNat 32 (memRead s pa 4)) then
      { c with met := true }
    else c
  | none => c

/-- The four bytes of a word are valid in a core's first-level cache. -/
def wordValid (s : State) (core pa : Nat) : Bool := (List.range 4).all fun i => (l1Get s core (pa + i)).isSome

/-- The lines of a waiting team's lanes that an event concerns: a write at the home slices for lanes at cohort scope and
above (R418); an event of core c's first-level cache for lanes at core scope there, whose words it holds (R419). -/
def Team.concerned (s : State) (at_ : Option Nat) (lines : List Nat) (t : Team) : List Nat :=
  match t.waitv, at_ with
  | none, _ => []
  | some w, none => if w.sc == .core then [] else lines.filter fun ln => !heldLine s false ln
  | some w, some c =>
    if w.sc == .core && t.core == c then
      lines.filter fun ln => w.lanes.all fun e => lineOf e.2 != ln || w.satisfied.getLsbD e.1 || wordValid s c e.2
    else []

/-- Something has changed in the lines: at the home slices, where at_ names no core, or in a core's first-level cache. The
waiting lanes that it concerns read their words again, as do copy commands that wait for their condition (R194, R418,
R419); none reads a line that a row command's destination holds (R218). -/
def observe (s : State) (at_ : Option Nat) (lines : List Nat) : State :=
  let s := if s.teams.any fun e => e.2.waitv.isSome then
      { s with teams := s.teams.map fun e => (e.1, reread s e.2 (e.2.concerned s at_ lines)) }
    else s
  if at_.isNone && s.channels.any fun e => e.2.queue.any fun c => c.condPa.isSome then
    { s with channels := s.channels.map fun e =>
        (e.1, { e.2 with queue := e.2.queue.map (CopyCmd.recheck s (lines.filter fun ln => !heldLine s false ln)) }) }
  else s

/-- One write performed at the home slices. -/
def homeWrite (s : State) (bs : List (Nat × Byte)) : State :=
  let lines := distinct (bs.map fun b => lineOf b.1)
  observe (memSetAll ((bs.map (·.1)).foldl markDirty (lines.foldl touchLine s)) bs) none lines

/-! ### First-level operations -/

/-- Bytes of the cache become clean. -/
def cleanBytes (s : State) (core : Nat) : List (Nat × L1Byte) → State
  | [] => s
  | (pa, b) :: r => cleanBytes (l1Set s core pa (some ⟨b.val, false⟩)) core r

/-- The dirty bytes among the given ones are written to their home slices, in one write, so that no word is seen in
part (R163), and become clean. -/
def writeBack (s : State) (core : Nat) (bs : List (Nat × L1Byte)) : State :=
  let ds := bs.filter (·.2.dirty)
  homeWrite (cleanBytes s core ds) (ds.map fun e => (e.1, e.2.val))

/-- Forget the given bytes of the cache. -/
def dropBytes (s : State) (core : Nat) : List (Nat × L1Byte) → State
  | [] => s
  | (pa, _) :: r => dropBytes (l1Set s core pa none) core r

/-- Bytes of a first-level cache are collected: dirty ones go home, and all of them leave (R136). -/
def collectBytes (s : State) (core : Nat) (bs : List (Nat × L1Byte)) : State :=
  dropBytes (writeBack s core bs) core bs

/-- The bytes of the 64-byte lines that hold a dirty byte. -/
def dirtyLines (bs : List (Nat × L1Byte)) : List (Nat × L1Byte) :=
  let lines := distinct ((bs.filter (·.2.dirty)).map fun e => e.1 / 64)
  bs.filter fun e => lines.contains (e.1 / 64)

/-- A release at cohort scope or above: dirty first-level bytes reach their home slices, and the lines that hold them
leave the cache (R136, R139). -/
def l1Release (s : State) (core : Nat) : State := collectBytes s core (dirtyLines (l1Bytes s core))

/-- An acquire at cohort scope or above: valid bytes that are not dirty become invalid (R137). -/
def l1Acquire (s : State) (core : Nat) : State :=
  dropBytes s core ((l1Bytes s core).filter fun e => !e.2.dirty)

/-- A core's first-level copy of a 256-byte line is collected: dirty bytes go home, the copy goes (R138). -/
def l1Collect (s : State) (core line : Nat) : State :=
  collectBytes s core ((l1Bytes s core).filter fun e => lineOf e.1 == line)

/-- The cores that hold a byte of a line. -/
def holders (s : State) (line : Nat) : List Nat :=
  distinct (s.l1.filterMap fun e => if e.1 % 2 ^ 46 / 256 == line then some (e.1 / 2 ^ 46) else none)

/-- An L2 eviction's first step, over every core (R138). -/
def collectLine (s : State) (line : Nat) : State :=
  (holders s line).foldl (fun s c => l1Collect s c line) s

/-- One byte of a fetched sector: a dirty byte stays, and so does one of an entered bundle (R136, R151). -/
def fillByte (core : Nat) (s : State) (a : Nat) : State :=
  match l1Get s core a with
  | some b => if b.dirty || inBundle s core (lineOf a) then s else l1Set s core a (some ⟨memGet s a, false⟩)
  | none => l1Set s core a (some ⟨memGet s a, false⟩)

/-- The 64-byte sector of pa is fetched and merged under the dirty bytes (R136); waiting lanes read their words again
(R419). -/
def fillSector (s : State) (core pa : Nat) : State :=
  let base := pa / 64 * 64
  observe (((List.range 64).map (base + ·)).foldl (fillByte core) (touchLine s (lineOf pa))) (some core) [lineOf pa]

/-- The words of a core's lanes that wait at core scope, in some lines, that its first-level cache does not hold whole. -/
def missingWords (s : State) (core : Nat) (lines : List Nat) : List Nat :=
  s.teams.flatMap fun e =>
    match e.2.waitv with
    | none => []
    | some w =>
      if w.sc == .core && e.2.core == core then
        (w.lanes.filter fun x => lines.contains (lineOf x.2) && !heldLine s false (lineOf x.2) &&
          !w.satisfied.getLsbD x.1 && !wordValid s core x.2).map (·.2)
      else []

/-- Lines have left a core's first-level cache, or agents of the core have written them at the home slices: its lanes that
wait at core scope fetch their words and read them again (R419). -/
def refetch (s : State) (core : Nat) (lines : List Nat) : State :=
  observe ((missingWords s core lines).foldl (fun s pa => fillSector s core pa) s) (some core) lines

/-- Replacement of a 64-byte line of a first-level cache (R136). -/
def l1Replace (s : State) (core line64 : Nat) : State :=
  refetch (collectBytes s core ((l1Bytes s core).filter fun e => e.1 / 64 == line64)) core [line64 / 4]

/-- A byte as the core's plain load reads it. -/
def coreByte (s : State) (core pa : Nat) : Byte :=
  match l1Get s core pa with
  | some b => b.val
  | none => memGet s pa

/-- A plain load: missing sectors are filled (R136). -/
def coreRead (s : State) (core : Nat) (pas : List Nat) : List Byte × State :=
  let s := pas.foldl (init := s) fun s pa =>
    match l1Get s core pa with
    | some _ => s
    | none => fillSector s core pa
  (pas.map (coreByte s core), s)

/-- A load served at the home slice, merged with the core's dirty bytes (R169, R372). -/
def homeRead (s : State) (core : Nat) (pas : List Nat) : List Byte :=
  pas.map fun pa =>
    match l1Get s core pa with
    | some b => if b.dirty || inBundle s core (lineOf pa) then b.val else memGet s pa
    | none => memGet s pa

/-- The core's first-level cache has a byte of the 256-byte line. -/
def l1HasLine (s : State) (core line : Nat) : Bool :=
  s.l1.any fun e => e.1 / 256 == core * 2 ^ 38 + line && e.2.isSome

/-- A line that a first-level cache allocates is in the L2, which holds every first-level line (R138). -/
def includeLine (core : Nat) (s : State) (line : Nat) : State :=
  if l1HasLine s core line then s else touchLine s line

/-- A plain store in the core's store: valid and dirty, without a read (R136). -/
def coreWrite (s : State) (core : Nat) (bs : List (Nat × Byte)) : State :=
  let lines := distinct (bs.map fun b => lineOf b.1)
  observe (bs.foldl (fun s b => l1Set s core b.1 (some ⟨b.2, true⟩)) (lines.foldl (includeLine core) s)) (some core) lines

/-- A store performed at the home slice by a team: valid first-level bytes are updated and become clean
(R169, R410). -/
def throughWrite (s : State) (core : Nat) (bs : List (Nat × Byte)) : State :=
  observe
    (homeWrite
      (bs.foldl (init := s) fun s b =>
        match l1Get s core b.1 with
        | some _ => l1Set s core b.1 (some ⟨b.2, false⟩)
        | none => s)
      bs)
    (some core) (distinct (bs.map fun b => lineOf b.1))

/-- The core's dirty bytes among the addresses go to the home slice and become clean, before an atomic is
performed there (R168). -/
def flushBytes (s : State) (core : Nat) (pas : List Nat) : State :=
  writeBack s core (pas.filterMap fun pa => (l1Get s core pa).map fun b => (pa, b))

/-- A write at the home slice by an engine of a core, or by an atomic of one of its teams, drops the core's
clean copies of the bytes (R419). -/
def dropClean (s : State) (core : Nat) (pas : List Nat) : State :=
  pas.foldl (init := s) fun s pa =>
    match l1Get s core pa with
    | some b => if b.dirty || inBundle s core (lineOf pa) then s else l1Set s core pa none
    | none => s

/-- A write performed at the home slices by an engine of a core, or by an atomic of one of its teams (R197, R419). -/
def engineWrite (s : State) (core : Nat) (bs : List (Nat × Byte)) : State :=
  refetch (homeWrite (dropClean s core (bs.map (·.1))) bs) core (distinct (bs.map fun b => lineOf b.1))

/-! ### Keys (R324) -/

/-- The material of a key: none for plaintext. -/
def keyMaterial (s : State) (key : Nat) : Option (BitVec 512) :=
  if key == 0 then none else sget none s.sec.keys key

/-- The key id a line is tagged with. -/
def lineKey (s : State) (line : Nat) : Nat := (sfind s.l2 line).elim 0 (·.key)

/-- One 64-byte unit changes from the view under one key to the view under another (R324). Back under the
key it was written with, the unit reads as it was written. -/
def viewUnit (old new : Option (BitVec 512)) (s : State) (u : Nat) : State :=
  let plain : BitVec 512 := BitVec.ofNat 512 (memRead s (u * 64) 64)
  let origin := (sfind s.shadows u).getD (old, plain)
  let now := if origin.1 = new then origin.2 else rekey new origin.1 u origin.2
  let s := memSetAll s ((List.range 64).map fun i => (u * 64 + i, BitVec.ofNat 8 (now.toNat >>> (8 * i))))
  if origin.1 = new then s else { s with shadows := sput s.shadows u origin }

/-- A unit that is read from memory again under the key of its line: where it was stored under another, it reads so (R324). -/
def rereadUnit (s : State) (u : Nat) : State :=
  match sfind s.shadows u with
  | none => s
  | some _ => let k := keyMaterial s (lineKey s (u / 4)); viewUnit k k s u

/-- A line is to be read from memory again. -/
def rereadLine (s : State) (line : Nat) : State :=
  l2Set ((List.range 4).foldl (fun s i => rereadUnit s (line * 4 + i)) s) line { l2Get s line with present := false }

/-- A line is in the L2 no longer. -/
def leaveL2 (s : State) (line : Nat) : State :=
  let s := rereadLine s line
  l2Set s line { l2Get s line with used := 0 }

/-- An access under a key: a line with another tag is written back under its own key and fetched again
under this one (R324). Tier 2 ignores keys. -/
def viewKey (s : State) (pa key : Nat) : State :=
  let line := lineOf pa
  if pa / 2 ^ 44 == 2 || lineKey s line == key then s
  else
    let s := collectLine s line
    let old := keyMaterial s (lineKey s line)
    let new := keyMaterial s key
    let s := (List.range 4).foldl (fun s i => viewUnit old new s (line * 4 + i)) (writeSectors s line)
    l2Set s line { l2Get s line with key := key, present := false }

/-- An access to some bytes under a key (R324). -/
def viewBytes (s : State) (pas : List Nat) (key : Nat) : State :=
  (distinct (pas.map lineOf)).foldl (fun s ln => viewKey s (ln * 256) key) s

end Sys2Proof.Machine
end

