-- ==== Sys2Proof/Machine/Translate.lean ====
section
/-! DEFINITION. Address translation (spec 14): the five-level walk, translation buffers, heat, and what a
walk can end in. -/

namespace Sys2Proof.Machine

/-- Bits 63:57 all equal bit 56 (R266). -/
def canonical (va : DWord) : Bool :=
  let h := va.toNat / 2 ^ 56
  h == 0 || h == 255

/-- An access of n bytes touches the block-transfer aperture (R192). -/
def inAperture (ea : DWord) (n : Nat) : Bool :=
  0x00FFFF0000000000 < ea.toNat + n && ea.toNat < 0x00FFFF0000004000

/-- The fabric window (R297). -/
def inFabric (ea : DWord) : Bool := ea.toNat / 2 ^ 48 == 0xFE

/-- Fields of a table entry (Table 14-2). -/
def pteP (e : DWord) : Bool := e.getLsbD 0
def pteW (e : DWord) : Bool := e.getLsbD 1
def pteX (e : DWord) : Bool := e.getLsbD 2
def pteLeaf (e : DWord) : Bool := e.getLsbD 3
def pteC64 (e : DWord) : Bool := e.getLsbD 4
def pteMig (e : DWord) : Bool := e.getLsbD 5
def pteKey (e : DWord) : Nat := field e.toNat 52 12
/-- Physical address bits 45:12 of the entry, as an address. -/
def pteFrame (e : DWord) : Nat := field e.toNat 12 34 * 4096

/-- Size of the page that a leaf at a level maps; 0 where a leaf may not stand (R267). -/
def leafSize (level : Nat) (e : DWord) : Nat :=
  match level with
  | 3 => if pteC64 e then 0 else 2 ^ 30
  | 2 => if pteC64 e then 0 else 2 ^ 21
  | 1 => if pteC64 e then 2 ^ 16 else 2 ^ 12
  | _ => 0

/-- The must-be-zero bits of a leaf: 51:46, 11, 6 (Table 14-2). -/
def leafMbz (e : DWord) : Bool :=
  field e.toNat 46 6 == 0 && !e.getLsbD 11 && !e.getLsbD 6

/-- A leaf that obeys R267 at its level. -/
def leafOk (level : Nat) (e : DWord) : Bool :=
  let n := leafSize level e
  n != 0 && leafMbz e && pteFrame e % n == 0

/-- A non-leaf entry that obeys R267: only p and a tier 0 frame. -/
def tableOk (e : DWord) : Bool :=
  field e.toNat 46 18 == 0 && field e.toNat 1 11 == 0 && pteFrame e / 2 ^ 39 == 0

/-- How a walk ends: at a leaf (its entry's address, its page size, the entry), at an entry that is not present, at a
malformed entry (R267), at data that has failed (R288), or before a stack that is too hot to be read (R225). -/
inductive Walk where
  | leaf (addr size : Nat) (e : DWord)
  | notPresent (e : DWord)
  | malformed
  | bad (addr : Nat)
  | held
  deriving DecidableEq, Repr

/-- The walk of va from the table at a level: entries are read at their home slices with key 0 (R266, R324). -/
def walk (s : State) (table : Nat) (va : DWord) : List Nat → Walk × State
  | [] => (.malformed, s)
  | level :: rest =>
    let addr := table + 8 * field va.toNat (12 + 9 * (level - 1)) 9
    if isBad s addr then (.bad addr, s)
    else if stackHolds s addr || heldLine s false (lineOf addr) then (.held, s)
    else
      let s := homeFetch (viewKey s addr 0) false addr
      let e : DWord := BitVec.ofNat 64 (memRead s addr 8)
      if !pteP e then (.notPresent e, s)
      else if pteLeaf e then
        (if leafOk level e then .leaf addr (leafSize level e) e else .malformed, s)
      else if level == 1 || !tableOk e then (.malformed, s)
      else walk s (pteFrame e) va rest

/-- The context of an id. -/
def Context.none : Context := ⟨0, 0, [], [], [], [], [], 2 ^ 16, 0, []⟩
def getCtx (s : State) (c : Nat) : Context := (sfind s.ctxs c).getD .none
def setCtx (s : State) (c : Nat) (x : Context) : State := { s with ctxs := sput s.ctxs c x }

/-- The walk of va in a context (R266), and where it ends. -/
def walkFrom (s : State) (ctx : Nat) (va : DWord) : Walk × State := walk s (getCtx s ctx).root va [5, 4, 3, 2, 1]
def walkCtx (s : State) (ctx : Nat) (va : DWord) : Walk := (walkFrom s ctx va).1

/-- Heat after a walk that ends at a leaf: rheat or wheat plus 1, saturating at 3 (R271). -/
def addHeat (e : DWord) (write : Bool) : DWord :=
  let at_ := if write then 9 else 7
  if field e.toNat at_ 2 == 3 then e else e + BitVec.ofNat 64 (2 ^ at_)

/-- An 8-byte value at the home slice, little-endian. -/
def dwordCells (pa : Nat) (v : DWord) : List (Nat × Byte) :=
  (toBytes 8 v.toNat).zipIdx.map fun b => (pa + b.2, b.1)

/-- The addition of a walk at its leaf entry, at the entry's home slice (R271). -/
def heatAt (s : State) (addr : Nat) (write : Bool) : State :=
  let s := viewKey s addr 0
  memSetAll (markDirty s addr) (dwordCells addr (addHeat (BitVec.ofNat 64 (memRead s addr 8)) write))

/-- The addition of a walk, which the translation does not wait for: while a row command holds the line, it waits at the slice
(R218, R271). -/
def noteHeat (s : State) (addr : Nat) (write : Bool) : State :=
  if heldLine s true (lineOf addr) then { s with heatWaits := s.heatWaits ++ [(addr, write)] } else heatAt s addr write

/-- The capacity of a TLB (R269). -/
def tlbCap : TlbId → Nat
  | .first _ => 128
  | .second => 4096
  | .ahead => 512

def TlbEntry.covers (t : TlbEntry) (va : DWord) : Bool :=
  t.base ≤ va.toNat && va.toNat < t.base + t.size

/-- Remove the last entry that p picks. -/
def dropLast (p : TlbEntry → Bool) (l : List TlbEntry) : List TlbEntry :=
  match l.reverse.findIdx? p with
  | none => l
  | some i => dropNth l (l.length - 1 - i)

/-- Put a translation into a TLB; a full TLB drops its oldest entry (log entry 13). -/
def tlbPut (l : List TlbEntry) (x : TlbEntry) : List TlbEntry :=
  let same := fun t : TlbEntry => t.core == x.core && t.tlb == x.tlb
  x :: (if tlbCap x.tlb ≤ (l.filter same).length then dropLast same l else l)

/-- The 4 KiB page of an address. -/
def pageOf (va : DWord) : Nat := va.toNat / 4096

/-- How one translation ends for an access (R268, R275); a page that is mapped is named by its first 4 KiB. -/
inductive Xlat where
  | ok (pa key : Nat)
  | fault (page : Nat)
  | migrating (page : Nat)
  | fatal
  | bad (pa : Nat)
  | held
  deriving DecidableEq, Repr

/-- The physical address is backed (R265, R289): a pseudo-channel whose slice is disabled is disabled too. Before full
function no expander has been trained, and the ports are down (R303, R314). -/
def backed (s : State) (pa : Nat) : Bool :=
  match pa / 2 ^ 44 with
  | 0 => pa / 2 ^ 39 == 0 && s.fuses.pchs.getLsbD (field pa 10 11) && s.fuses.slices.getLsbD (field pa 13 8)
  | 1 =>
    let port := field pa 41 2
    !pa.testBit 43 &&
      (if s.boot.stage == 2 then
        s.units.ports.getLsbD port && decide (pa % 2 ^ 41 < (s.units.cxl[port]?).getD 0)
      else s.fuses.ports.getLsbD port)
  | 2 => true
  | _ => false

/-- Stratus may allocate n bytes at a frame: none of its data has failed (R288), and in the safe stage it lies in the
stacks 0 and 1 (R314). -/
def frameOk (s : State) (frame n : Nat) : Bool :=
  frame / 2 ^ 44 != 0 ||
    (!(s.badFrames.any fun ln => frame / 256 ≤ ln && ln < (frame + n) / 256) &&
      (s.boot.stage != 1 || (n ≤ 2 ^ 18 && stackOf frame ≤ 1)))

/-- Judge an access through a leaf (R268, R275). -/
def judge (s : State) (size : Nat) (e : DWord) (va : DWord) (k : ReqKind) : Xlat :=
  let pa := pteFrame e + va.toNat % size
  let key := if pa / 2 ^ 44 == 2 then 0 else pteKey e
  if !backed s pa then .fatal
  else if key != 0 && (sget none s.sec.keys key).isNone then .fatal
  else if (k == .write && !pteW e) || (k == .fetch && !pteX e) then .fault (va.toNat / size * size / 4096)
  else if k == .write && pteMig e then .migrating (va.toNat / size * size / 4096)
  else .ok pa key

/-- A leaf that an access may use goes into the TLBs; no TLB holds a fault (R269). -/
def fillTlbs (s : State) (core : Nat) (tlbs : List TlbId) (ctx base size : Nat) (e : DWord) : Xlat → State
  | .ok _ _ => { s with tlbs := tlbs.foldl (fun l id => tlbPut l ⟨core, id, ctx, base, size, e⟩) s.tlbs }
  | _ => s

/-- Translate va for an agent of a core: the TLBs are asked first, a miss walks the table, adds heat and
fills the TLBs (R269, R271). -/
def translate (s : State) (core : Nat) (tlbs : List TlbId) (ctx : Nat) (va : DWord) (k : ReqKind) :
    Xlat × State :=
  if !canonical va then (.fatal, s)
  else
    match s.tlbs.find? fun t =>
        t.core == core && t.ctx == ctx && tlbs.contains t.tlb && t.covers va with
    | some t => (judge s t.size t.leaf va k, s)
    | none =>
      match walkFrom s ctx va with
      | (.notPresent _, s) => (.fault (pageOf va), s)
      | (.malformed, s) => (.fatal, s)
      | (.bad pa, s) => (.bad pa, s)
      | (.held, s) => (.held, s)
      | (.leaf addr size e, s) =>
        let s := noteHeat s addr (k == .write)
        let x := judge s size e va k
        (x, fillTlbs s core tlbs ctx (va.toNat / size * size) size e x)

/-- The TLBs a team's accesses use (R269). -/
def teamTlbs (t : Team) : List TlbId := [.first t.part, .second]

/-- How the accesses of n bytes from va end: the physical address of every byte, or the pages that
stopped it (R273). -/
inductive Bytes where
  | ok (pas : List Nat)
  | fault (pages : List Nat)
  | migrating (pages : List Nat)
  | fatal
  | bad (pa : Nat)
  | held
  deriving DecidableEq, Repr

/-- Translate one page's part of an access. Every byte of it is to be backed: one in a disabled pseudo-channel is not (R268,
R289). -/
def onePage (s : State) (core : Nat) (tlbs : List TlbId) (ctx : Nat) (va : DWord) (n : Nat)
    (k : ReqKind) : Bytes × State :=
  match translate s core tlbs ctx va k with
  | (.ok pa key, s) =>
    let pas := (List.range n).map (pa + ·)
    if pas.all (backed s) then (.ok pas, viewBytes s pas key) else (.fatal, s)
  | (.fault p, s) => (.fault [p], s)
  | (.migrating p, s) => (.migrating [p], s)
  | (.fatal, s) => (.fatal, s)
  | (.bad pa, s) => (.bad pa, s)
  | (.held, s) => (.held, s)

/-- The two pages of one access: fatal before fault before migration, each page named once (R273). -/
def Bytes.join : Bytes → Bytes → Bytes
  | .ok a, .ok b => .ok (a ++ b)
  | .bad p, _ | _, .bad p => .bad p
  | .held, _ | _, .held => .held
  | .fatal, _ | _, .fatal => .fatal
  | .fault a, .fault b => .fault (a ++ b)
  | .fault a, _ | _, .fault a => .fault a
  | .migrating a, .migrating b => .migrating (a ++ b)
  | .migrating a, _ | _, .migrating a => .migrating a

/-- Translate an access of n bytes, checking both pages that it touches (R273). -/
def translateBytes (s : State) (core : Nat) (tlbs : List TlbId) (ctx : Nat) (va : DWord) (n : Nat)
    (k : ReqKind) : Bytes × State :=
  let first := min n (4096 - va.toNat % 4096)
  let a := onePage s core tlbs ctx va first k
  if first == n then a
  else
    let b := onePage a.2 core tlbs ctx (va + BitVec.ofNat 64 first) (n - first) k
    (a.1.join b.1, b.2)

end Sys2Proof.Machine
end

