-- ==== Sys2Proof/Machine/Mesh.lean ====
section
/-! DEFINITION. Where cores and slices stand, which slice is home to an address (R9 to R11, R265, R290),
and the route tables (R291 to R293). -/

namespace Sys2Proof.Machine

/-- The router of a core: (x, y) of layer 0 (R9, R10). -/
def coreRouter (c : Nat) : Nat × Nat :=
  (8 * (c / 128 % 2) + c % 16 / 2, 8 * (c / 256) + c % 128 / 16)

/-- The router of a slice: (x, y) of layer 1 (R10, R11). -/
def sliceRouter (n : Nat) : Nat × Nat :=
  (8 * (n / 64 % 2) + n % 8, 8 * (n / 128) + n % 64 / 8)

/-- Router number and route table entry number of (x, y, z) (R292). -/
def routerNo (xy : Nat × Nat) (z : Nat) : Nat := z * 256 + xy.2 * 16 + xy.1

/-- The die pair of a core, and of a slice. -/
def coreDp (c : Nat) : Nat := c / 128
def sliceDp (n : Nat) : Nat := n / 64

/-- The substitute of a disabled slice (R290): the next enabled one on its die pair, wrapping, then those of
the following die pairs. -/
def substitute (en : BitVec 256) (n : Nat) : Nat :=
  let dp := n / 64
  let own := (List.range 64).map fun i => dp * 64 + (n % 64 + i) % 64
  let rest := (List.range 192).map fun i => (dp * 64 + 64 + i) % 256
  ((own ++ rest).find? en.getLsbD).getD n

/-- The home slice of an address (R11, R265). -/
def homeSlice (s : State) (pa : Nat) : Nat :=
  if pa / 2 ^ 44 == 0 then field pa 13 8 else substitute s.fuses.slices (field pa 8 8)

/-- The turns of a route: dx x turns, dy y turns and a z turn, in that order (R293, Table 16-1). -/
def routeBits (turns : List Nat) : BitVec 128 :=
  BitVec.ofNat 128 ((turns.zipIdx.foldl (fun acc t => acc + t.1 * 2 ^ (3 * t.2)) 0) + turns.length * 2 ^ 96)

/-- The straight permitted route between two routers (log entry 24). -/
def straightRoute (a b : Nat) : BitVec 128 :=
  let ax := a % 16; let bx := b % 16; let ay := a / 16 % 16; let bz := b / 256; let az := a / 256
  let by_ := b / 16 % 16
  routeBits (
    List.replicate (bx - ax) 0 ++ List.replicate (ax - bx) 1 ++
    List.replicate (by_ - ay) 2 ++ List.replicate (ay - by_) 3 ++
    (if bz > az then [4] else if bz < az then [5] else []))

/-- The key of an entry of a port's table. -/
def routeKey (port entry : Nat) : Nat := port * 512 + entry

/-- A route table entry. Until Stratus writes it, it reads 0 in the ROM and recovery stages, and the straight
route that the start-up firmware writes afterwards (R292; log entry 24). -/
def routeEntry (s : State) (port entry : Nat) : BitVec 128 :=
  match sfind s.routes (routeKey port entry) with
  | some e => e
  | none => if s.boot.stage == 0 || s.boot.stage == 3 then 0 else straightRoute port entry

/-- The len field. -/
def routeLen (e : BitVec 128) : Nat := field e.toNat 96 6

/-- The turns of an entry, first one first. -/
def routeTurns (e : BitVec 128) : List Nat := (List.range (routeLen e)).map fun i => field e.toNat (3 * i) 3

/-- Coordinates after each turn; none when the route leaves the mesh or a turn is invalid. -/
def walkRoute : List Nat → Nat × Nat × Nat → Bool
  | [], _ => true
  | t :: r, (x, y, z) =>
    match t with
    | 0 => x < 15 && walkRoute r (x + 1, y, z)
    | 1 => 0 < x && walkRoute r (x - 1, y, z)
    | 2 => y < 15 && walkRoute r (x, y + 1, z)
    | 3 => 0 < y && walkRoute r (x, y - 1, z)
    | 4 => z == 0 && walkRoute r (x, y, 1)
    | 5 => z == 1 && walkRoute r (x, y, 0)
    | _ => false

/-- x turns of one sign, then y turns of one sign, then at most one z turn (R293). -/
def turnsOrdered (ts : List Nat) : Bool :=
  let xs := ts.takeWhile (· ≤ 1)
  let rest := ts.dropWhile (· ≤ 1)
  let ys := rest.takeWhile fun t => t == 2 || t == 3
  let zs := rest.dropWhile fun t => t == 2 || t == 3
  xs.all (· == xs.headD 0) && ys.all (· == ys.headD 2) && zs.length ≤ 1 && zs.all (4 ≤ ·)

/-- An entry as it is written: the reserved bits 127:102 are ignored and read zero (R6, Table 16-1). -/
def routeWritten (e : BitVec 128) : BitVec 128 := (e.setWidth 102).setWidth 128

/-- A permitted route of a port (R293), len at most 32. -/
def routeOk (port : Nat) (e : BitVec 128) : Bool :=
  let ts := routeTurns e
  routeLen e ≤ 32 && turnsOrdered ts &&
    walkRoute ts (port % 16, port / 16 % 16, port / 256)

/-- Two routers can reach each other (R292): the route of a request and that of its response both have turns. Traffic
within one router needs none. -/
def routersReach (s : State) (a b : Nat) : Bool :=
  a == b || (routeLen (routeEntry s a b) != 0 && routeLen (routeEntry s b a) != 0)

/-- Core and home slice of an address can reach each other. -/
def reachable (s : State) (core pa : Nat) : Bool :=
  routersReach s (routerNo (coreRouter core) 0) (routerNo (sliceRouter (homeSlice s pa)) 1)

/-- Two cores can reach each other. -/
def coresReach (s : State) (a b : Nat) : Bool :=
  routersReach s (routerNo (coreRouter a) 0) (routerNo (coreRouter b) 0)

end Sys2Proof.Machine
end

