-- ==== Sys2Proof/WellFormed.lean ====
section
/-! DEFINITION. The encoding rules that the operand types of Instr do not already express: a term
that breaks one has no instruction word (spec 03, R44 item 3, R45 to R50, and the entries cited). -/

namespace Sys2Proof

/-- The register field names a scalar (104 to 127). -/
def Reg.isScalar : Reg → Bool
  | .v _ => false
  | .s _ => true

/-- R47: a scalar destination needs scalar sources. -/
def pipeOk (d : Reg) (srcs : List Reg) : Bool :=
  !d.isScalar || srcs.all Reg.isScalar

/-- R365, R406: a scalar t needs a scalar index. -/
def memOk (t : Reg) (m : MemOp) : Bool :=
  !t.isScalar || m.x.isScalar

/-- R57, Table 3-10: the special registers that exist. -/
def isSpecialReg (n : Nat) : Bool :=
  n ≤ 5 || (8 ≤ n && n ≤ 11) || (16 ≤ n && n ≤ 19) || (64 ≤ n && n ≤ 107)

/-- R350: the conversions that admit only rounding to nearest even. -/
def cvtRnOnly (code : Nat) : Bool :=
  (10 ≤ code && code ≤ 25)

/-- R167, R393: the operations RED admits. -/
def redAdmits : AtomOp → Bool
  | .exch | .exch64 | .cas | .cas64 => false
  | _ => true

/-- The encoding rules of the word that i stands for; steps without an encoding have none. -/
def Instr.wf : Instr → Bool
  | .srd d n => isSpecialReg n.val && !(d.isScalar && n.val == 0)
  | .swr _ n => n.val == 8
  | .iadd d a b _ | .isub d a b _ | .imul d a b _ | .imulh d a b _ | .imad d a b _
  | .imin d a b _ | .imax d a b _ | .and d a b _ | .or d a b _ | .xor d a b _
  | .shl d a b _ | .shr d a b _ | .sar d a b _ | .bfx d a b _ | .bfi d a b _
  | .lea d a b _ => pipeOk d [a, b]
  | .iabs d a ty => pipeOk d [a] && (ty == .s32 || ty == .s64)
  | .popc d a _ | .clz d a _ | .brev d a _ | .mov d a _ => pipeOk d [a]
  | .iaddImm d a _ | .andImm d a _ | .orImm d a _ | .xorImm d a _
  | .shlImm d a _ | .shrImm d a _ | .sarImm d a _ => pipeOk d [a]
  | .cvt _ _ code m => m == .rn || !cvtRnOnly code.val
  | .planeUnpack _ _ j => 2 ≤ j.val && j.val ≤ 8
  | .plog op _ _ pb => op != .not || pb.val == 0
  | .ldB t m _ | .ldH t m _ | .ldW t m _ | .ldD t m _ | .stB t m _ | .stH t m _ | .stW t m _
  | .stD t m _ | .ldu t m _ | .stu t m _ | .ldAcq t m _ _ | .stRel t m _ _ => memOk t m
  | .red op _ _ => redAdmits op
  | .fence _ acq rel => acq || rel
  | .waitv _ sc _ _ => sc != .team
  | .rowmaj _ _ sb _ _ => sb.val != 23
  | .bdeclList _ sh _ st | .bdeclRec _ sh _ st => sh != st
  | .benter sh _ _ n1 => sh.val + n1.val ≤ 23
  | _ => true

end Sys2Proof
end

