-- ==== Sys2Proof/Decode.lean ====
section
/-! DEFINITION. The decoder and the encoder of instruction words, from the formats of spec 03
(Table 3-4), the opcode map (Table 3-9) and the encoding tables of the instruction reference. Words
are numbered as 32-bit little-endian numbers (R39). -/

namespace Sys2Proof

/-- Why a word is no instruction (R44, R55). -/
inductive DecodeError where
  /-- A reserved opcode (Table 3-9): illegal-instruction, or stream error code 1. -/
  | reservedOpcode
  /-- An extension opcode 0xE0 + n whose feature bit is clear (R55): emulation trap. -/
  | extension (n : Nat)
  /-- A clause header in a clause body (R55). -/
  | headerInBody
  /-- A field breaks its encoding (R44 item 3): illegal-instruction, or stream error code 8. -/
  | badField
  /-- Fewer than four bytes. -/
  | short
  deriving DecidableEq, Repr

/-- Bits lo + n - 1 to lo of w (R59). -/
def fld (w lo n : Nat) : Nat := w / 2 ^ lo % 2 ^ n

/-- x as an element of Fin n, when it is in range. -/
def finOf (n x : Nat) : Option (Fin n) := if h : x < n then some ⟨x, h⟩ else none

/-- A one-bit field. -/
def bitOf (b : Bool) : Nat := if b then 1 else 0

def Reg.code : Reg → Nat
  | .v n => n.val
  | .s n => 104 + n.val

/-- R46: 0 to 103 name vector registers, 104 to 127 scalars. -/
def Reg.ofCode (c : Nat) : Option Reg :=
  match finOf 104 c with
  | some n => some (.v n)
  | none => (finOf 24 (c - 104)).map .s

/-- A 7-bit field that must name a scalar (R389, R405). -/
def sOfFull (c : Nat) : Option SReg := if 104 ≤ c then finOf 24 (c - 104) else none

def Base.code : Base → Nat
  | .s n => n.val
  | .zero => 31

def Base.ofCode (c : Nat) : Option Base :=
  if c == 31 then some .zero else (finOf 24 c).map .s

def MemOp.code (m : MemOp) : Nat := m.x.code * 1024 + m.s.code * 32 + bitOf m.w

def MemOp.ofWord (w : Nat) : Option MemOp :=
  match Reg.ofCode (fld w 10 7), Base.ofCode (fld w 5 5) with
  | some x, some s => some ⟨x, s, fld w 0 1 == 1⟩
  | _, _ => none

def IntTy.code : IntTy → Nat
  | .s32 => 0 | .u32 => 1 | .s64 => 2 | .u64 => 3

def IntTy.ofCode : Nat → Option IntTy
  | 0 => some .s32 | 1 => some .u32 | 2 => some .s64 | 3 => some .u64 | _ => none

def FTy.code : FTy → Nat
  | .f32 => 4 | .bf16x2 => 5 | .f16x2 => 6

def FTy.ofCode : Nat → Option FTy
  | 4 => some .f32 | 5 => some .bf16x2 | 6 => some .f16x2 | _ => none

def FArith.code : FArith → Nat
  | .f32 .rz => 0 | .f32 .ru => 1 | .f32 .rd => 2 | .f32 .rn => 4 | .bf16x2 => 5 | .f16x2 => 6

def FArith.ofCode : Nat → Option FArith
  | 0 => some (.f32 .rz) | 1 => some (.f32 .ru) | 2 => some (.f32 .rd) | 4 => some (.f32 .rn)
  | 5 => some .bf16x2 | 6 => some .f16x2 | _ => none

def RTy.code : RTy → Nat
  | .int t => t.code
  | .flt t => t.code

def RTy.ofCode (c : Nat) : Option RTy :=
  match IntTy.ofCode c with
  | some t => some (.int t)
  | none => (FTy.ofCode c).map .flt

def RedOp.code : RedOp → Nat
  | .add => 0 | .min => 1 | .max => 2

def RedOp.ofCode : Nat → Option RedOp
  | 0 => some .add | 1 => some .min | 2 => some .max | _ => none

def Rnd.code : Rnd → Nat
  | .rn => 0 | .rz => 1 | .ru => 2 | .rd => 3

def Rnd.ofCode : Nat → Option Rnd
  | 0 => some .rn | 1 => some .rz | 2 => some .ru | 3 => some .rd | _ => none

def Scope.code : Scope → Nat
  | .team => 0 | .core => 1 | .coh => 2 | .dpr => 3 | .dev => 4 | .sys => 5

def Scope.ofCode : Nat → Option Scope
  | 0 => some .team | 1 => some .core | 2 => some .coh | 3 => some .dpr | 4 => some .dev
  | 5 => some .sys | _ => none

def EScope.code : EScope → Nat
  | .core => 0 | .dpr => 1 | .dev => 2 | .sys => 3

def EScope.ofCode : Nat → Option EScope
  | 0 => some .core | 1 => some .dpr | 2 => some .dev | 3 => some .sys | _ => none

def EFlags.code (f : EFlags) : Nat := bitOf f.acq * 8 + bitOf f.rel * 4 + f.scope.code

def EFlags.ofCode (c : Nat) : Option EFlags :=
  (EScope.ofCode (c % 4)).map fun sc => ⟨c / 8 % 2 == 1, c / 4 % 2 == 1, sc⟩

def BrCond.code : BrCond → Nat
  | .any => 0 | .all => 1 | .none => 2

def BrCond.ofCode : Nat → Option BrCond
  | 0 => some .any | 1 => some .all | 2 => some .none | _ => Option.none

def ICond.code : ICond → Nat
  | .eq => 0 | .ne => 1 | .lt => 2 | .le => 3 | .gt => 4 | .ge => 5

def ICond.ofCode : Nat → Option ICond
  | 0 => some .eq | 1 => some .ne | 2 => some .lt | 3 => some .le | 4 => some .gt | 5 => some .ge
  | _ => none

def ICondImm.code : ICondImm → Nat
  | .eq => 0 | .ne => 1 | .lt => 2 | .le => 3 | .gt => 4 | .ge => 5
  | .ltu => 8 | .leu => 9 | .gtu => 10 | .geu => 11

def ICondImm.ofCode : Nat → Option ICondImm
  | 0 => some .eq | 1 => some .ne | 2 => some .lt | 3 => some .le | 4 => some .gt | 5 => some .ge
  | 8 => some .ltu | 9 => some .leu | 10 => some .gtu | 11 => some .geu | _ => none

def FCond.code : FCond → Nat
  | .eq => 0 | .ne => 1 | .lt => 2 | .le => 3 | .gt => 4 | .ge => 5 | .num => 6 | .nan => 7

def FCond.ofCode : Nat → Option FCond
  | 0 => some .eq | 1 => some .ne | 2 => some .lt | 3 => some .le | 4 => some .gt | 5 => some .ge
  | 6 => some .num | 7 => some .nan | _ => none

def MxFmt.code : MxFmt → Nat
  | .e4m3 => 0 | .e5m2 => 1 | .fp4 => 2 | .int8 => 3

def MxFmt.ofCode : Nat → Option MxFmt
  | 0 => some .e4m3 | 1 => some .e5m2 | 2 => some .fp4 | 3 => some .int8 | _ => none

def ShflMode.code : ShflMode → Nat
  | .idx => 0 | .up => 1 | .down => 2 | .xor => 3

def ShflMode.ofCode : Nat → Option ShflMode
  | 0 => some .idx | 1 => some .up | 2 => some .down | 3 => some .xor | _ => none

def VoteMode.code : VoteMode → Nat
  | .any => 0 | .all => 1 | .none => 2 | .uni => 3

def VoteMode.ofCode : Nat → Option VoteMode
  | 0 => some .any | 1 => some .all | 2 => some .none | 3 => some .uni | _ => Option.none

def PlogOp.code : PlogOp → Nat
  | .and => 0 | .or => 1 | .xor => 2 | .andn => 3 | .not => 4

def PlogOp.ofCode : Nat → Option PlogOp
  | 0 => some .and | 1 => some .or | 2 => some .xor | 3 => some .andn | 4 => some .not | _ => none

/-- Table 9-2. -/
def AtomOp.code : AtomOp → Nat
  | .add => 0 | .add64 => 1 | .mins => 2 | .maxs => 3 | .minu => 4 | .maxu => 5 | .and => 6
  | .or => 7 | .xor => 8 | .exch => 9 | .exch64 => 10 | .cas => 11 | .cas64 => 12 | .fadd => 13
  | .faddbf => 14

def AtomOp.ofCode : Nat → Option AtomOp
  | 0 => some .add | 1 => some .add64 | 2 => some .mins | 3 => some .maxs | 4 => some .minu
  | 5 => some .maxu | 6 => some .and | 7 => some .or | 8 => some .xor | 9 => some .exch
  | 10 => some .exch64 | 11 => some .cas | 12 => some .cas64 | 13 => some .fadd
  | 14 => some .faddbf | _ => none

def RettAction.code : RettAction → Nat
  | .replay => 0 | .skip => 1 | .fail => 2

def RettAction.ofCode : Nat → Option RettAction
  | 0 => some .replay | 1 => some .skip | 2 => some .fail | _ => none

def BMode.code : BMode → Nat
  | .read => 0 | .own => 1 | .share => 2

def BMode.ofCode : Nat → Option BMode
  | 0 => some .read | 1 => some .own | 2 => some .share | _ => none

def AFmt.code : AFmt → Nat
  | .e4m3 => 0 | .e5m2 => 1 | .fp4 => 2 | .int8 => 3 | .bf16 => 4 | .f16 => 5

def AFmt.ofCode : Nat → Option AFmt
  | 0 => some .e4m3 | 1 => some .e5m2 | 2 => some .fp4 | 3 => some .int8 | 4 => some .bf16
  | 5 => some .f16 | _ => none

def MstaFmt.code : MstaFmt → Nat
  | .f32 => 0 | .bf16 => 1 | .f16 => 2 | .e4m3 => 3 | .e5m2 => 4 | .fp4 => 5 | .int8 => 6
  | .s32 => 7 | .raw => 8

def MstaFmt.ofCode : Nat → Option MstaFmt
  | 0 => some .f32 | 1 => some .bf16 | 2 => some .f16 | 3 => some .e4m3 | 4 => some .e5m2
  | 5 => some .fp4 | 6 => some .int8 | 7 => some .s32 | 8 => some .raw | _ => none

/-- Table 19-3: mode 0 takes sa (bits 23:19), mode 1 the immediate (bits 12:4). -/
def CountSrc.code : CountSrc → Nat
  | .s n => n.val * 524288
  | .imm n => 8192 + n.val * 16

def CountSrc.ofWord (w : Nat) : Option CountSrc :=
  if fld w 13 1 == 0 then
    if fld w 4 9 == 0 then (finOf 24 (fld w 19 5)).map .s else none
  else if fld w 19 5 == 0 then (finOf 512 (fld w 4 9)).map .imm else none

/-- Fields of NOP (opcode 0x00). -/
def decNop (w : Nat) : Option Instr :=
  if fld w 0 24 == 0 then some .nop else none

/-- Fields of BRA (opcode 0x01). -/
def decBra (w : Nat) : Option Instr :=
  match finOf 16777216 (fld w 0 24) with
    | some off => some (.bra off)
    | _ => none

/-- Fields of BRX (opcode 0x02). -/
def decBrx (w : Nat) : Option Instr :=
  match finOf 8 (fld w 21 3), BrCond.ofCode (fld w 19 2), finOf 524288 (fld w 0 19) with
    | some p, some c, some off => some (.brx p c off)
    | _, _, _ => none

/-- Fields of CALL (opcode 0x03). -/
def decCall (w : Nat) : Option Instr :=
  match finOf 16777216 (fld w 0 24) with
    | some off => some (.call off)
    | _ => none

/-- Fields of RET (opcode 0x04). -/
def decRet (w : Nat) : Option Instr :=
  if fld w 0 24 == 0 then some .ret else none

/-- Fields of SPLIT (opcode 0x05). -/
def decSplit (w : Nat) : Option Instr :=
  if fld w 0 21 == 0 then match finOf 8 (fld w 21 3) with
    | some p => some (.split p)
    | _ => none else none

/-- Fields of FLIP (opcode 0x06). -/
def decFlip (w : Nat) : Option Instr :=
  if fld w 0 24 == 0 then some .flip else none

/-- Fields of MERGE (opcode 0x07). -/
def decMerge (w : Nat) : Option Instr :=
  if fld w 0 24 == 0 then some .merge else none

/-- Fields of PRUNE (opcode 0x08). -/
def decPrune (w : Nat) : Option Instr :=
  if fld w 0 21 == 0 then match finOf 8 (fld w 21 3) with
    | some p => some (.prune p)
    | _ => none else none

/-- Fields of EXIT (opcode 0x09). -/
def decExit (w : Nat) : Option Instr :=
  if fld w 0 24 == 0 then some .exit else none

/-- Fields of TRAP (opcode 0x0A). -/
def decTrap (w : Nat) : Option Instr :=
  if fld w 16 8 == 0 then match finOf 65536 (fld w 0 16) with
    | some imm => some (.trap imm)
    | _ => none else none

/-- Fields of RETT (opcode 0x0B). -/
def decRett (w : Nat) : Option Instr :=
  if fld w 2 22 == 0 then match RettAction.ofCode (fld w 0 2) with
    | some a => some (.rett a)
    | _ => none else none

/-- Fields of BKPT (opcode 0x0C). -/
def decBkpt (w : Nat) : Option Instr :=
  if fld w 16 8 == 0 then match finOf 65536 (fld w 0 16) with
    | some tag => some (.bkpt tag)
    | _ => none else none

/-- Fields of SRD (opcode 0x0D). -/
def decSrd (w : Nat) : Option Instr :=
  if fld w 10 7 == 0 then match Reg.ofCode (fld w 17 7), finOf 1024 (fld w 0 10) with
    | some d, some n => some (.srd d n)
    | _, _ => none else none

/-- Fields of SWR (opcode 0x0E). -/
def decSwr (w : Nat) : Option Instr :=
  if fld w 17 7 == 0 then match sOfFull (fld w 10 7), finOf 1024 (fld w 0 10) with
    | some a, some n => some (.swr a n)
    | _, _ => none else none

/-- Fields of IADD (opcode 0x10). -/
def decIadd (w : Nat) : Option Instr :=
  match Reg.ofCode (fld w 17 7), Reg.ofCode (fld w 10 7), Reg.ofCode (fld w 3 7), IntTy.ofCode (fld w 0 3) with
    | some d, some a, some b, some ty => some (.iadd d a b ty)
    | _, _, _, _ => none

/-- Fields of ISUB (opcode 0x11). -/
def decIsub (w : Nat) : Option Instr :=
  match Reg.ofCode (fld w 17 7), Reg.ofCode (fld w 10 7), Reg.ofCode (fld w 3 7), IntTy.ofCode (fld w 0 3) with
    | some d, some a, some b, some ty => some (.isub d a b ty)
    | _, _, _, _ => none

/-- Fields of IMUL (opcode 0x12). -/
def decImul (w : Nat) : Option Instr :=
  match Reg.ofCode (fld w 17 7), Reg.ofCode (fld w 10 7), Reg.ofCode (fld w 3 7), IntTy.ofCode (fld w 0 3) with
    | some d, some a, some b, some ty => some (.imul d a b ty)
    | _, _, _, _ => none

/-- Fields of IMULH (opcode 0x13). -/
def decImulh (w : Nat) : Option Instr :=
  match Reg.ofCode (fld w 17 7), Reg.ofCode (fld w 10 7), Reg.ofCode (fld w 3 7), IntTy.ofCode (fld w 0 3) with
    | some d, some a, some b, some ty => some (.imulh d a b ty)
    | _, _, _, _ => none

/-- Fields of IMAD (opcode 0x14). -/
def decImad (w : Nat) : Option Instr :=
  match Reg.ofCode (fld w 17 7), Reg.ofCode (fld w 10 7), Reg.ofCode (fld w 3 7), IntTy.ofCode (fld w 0 3) with
    | some d, some a, some b, some ty => some (.imad d a b ty)
    | _, _, _, _ => none

/-- Fields of IMIN (opcode 0x15). -/
def decImin (w : Nat) : Option Instr :=
  match Reg.ofCode (fld w 17 7), Reg.ofCode (fld w 10 7), Reg.ofCode (fld w 3 7), IntTy.ofCode (fld w 0 3) with
    | some d, some a, some b, some ty => some (.imin d a b ty)
    | _, _, _, _ => none

/-- Fields of IMAX (opcode 0x16). -/
def decImax (w : Nat) : Option Instr :=
  match Reg.ofCode (fld w 17 7), Reg.ofCode (fld w 10 7), Reg.ofCode (fld w 3 7), IntTy.ofCode (fld w 0 3) with
    | some d, some a, some b, some ty => some (.imax d a b ty)
    | _, _, _, _ => none

/-- Fields of AND (opcode 0x18). -/
def decAnd (w : Nat) : Option Instr :=
  match Reg.ofCode (fld w 17 7), Reg.ofCode (fld w 10 7), Reg.ofCode (fld w 3 7), IntTy.ofCode (fld w 0 3) with
    | some d, some a, some b, some ty => some (.and d a b ty)
    | _, _, _, _ => none

/-- Fields of OR (opcode 0x19). -/
def decOr (w : Nat) : Option Instr :=
  match Reg.ofCode (fld w 17 7), Reg.ofCode (fld w 10 7), Reg.ofCode (fld w 3 7), IntTy.ofCode (fld w 0 3) with
    | some d, some a, some b, some ty => some (.or d a b ty)
    | _, _, _, _ => none

/-- Fields of XOR (opcode 0x1A). -/
def decXor (w : Nat) : Option Instr :=
  match Reg.ofCode (fld w 17 7), Reg.ofCode (fld w 10 7), Reg.ofCode (fld w 3 7), IntTy.ofCode (fld w 0 3) with
    | some d, some a, some b, some ty => some (.xor d a b ty)
    | _, _, _, _ => none

/-- Fields of SHL (opcode 0x1B). -/
def decShl (w : Nat) : Option Instr :=
  match Reg.ofCode (fld w 17 7), Reg.ofCode (fld w 10 7), Reg.ofCode (fld w 3 7), IntTy.ofCode (fld w 0 3) with
    | some d, some a, some b, some ty => some (.shl d a b ty)
    | _, _, _, _ => none

/-- Fields of SHR (opcode 0x1C). -/
def decShr (w : Nat) : Option Instr :=
  match Reg.ofCode (fld w 17 7), Reg.ofCode (fld w 10 7), Reg.ofCode (fld w 3 7), IntTy.ofCode (fld w 0 3) with
    | some d, some a, some b, some ty => some (.shr d a b ty)
    | _, _, _, _ => none

/-- Fields of SAR (opcode 0x1D). -/
def decSar (w : Nat) : Option Instr :=
  match Reg.ofCode (fld w 17 7), Reg.ofCode (fld w 10 7), Reg.ofCode (fld w 3 7), IntTy.ofCode (fld w 0 3) with
    | some d, some a, some b, some ty => some (.sar d a b ty)
    | _, _, _, _ => none

/-- Fields of BFX (opcode 0x21). -/
def decBfx (w : Nat) : Option Instr :=
  match Reg.ofCode (fld w 17 7), Reg.ofCode (fld w 10 7), Reg.ofCode (fld w 3 7), IntTy.ofCode (fld w 0 3) with
    | some d, some a, some b, some ty => some (.bfx d a b ty)
    | _, _, _, _ => none

/-- Fields of BFI (opcode 0x22). -/
def decBfi (w : Nat) : Option Instr :=
  match Reg.ofCode (fld w 17 7), Reg.ofCode (fld w 10 7), Reg.ofCode (fld w 3 7), IntTy.ofCode (fld w 0 3) with
    | some d, some a, some b, some ty => some (.bfi d a b ty)
    | _, _, _, _ => none

/-- Fields of LEA (opcode 0x25). -/
def decLea (w : Nat) : Option Instr :=
  match Reg.ofCode (fld w 17 7), Reg.ofCode (fld w 10 7), Reg.ofCode (fld w 3 7), IntTy.ofCode (fld w 0 3) with
    | some d, some a, some b, some ty => some (.lea d a b ty)
    | _, _, _, _ => none

/-- Fields of IABS (opcode 0x17). -/
def decIabs (w : Nat) : Option Instr :=
  if fld w 3 7 == 0 then match Reg.ofCode (fld w 17 7), Reg.ofCode (fld w 10 7), IntTy.ofCode (fld w 0 3) with
    | some d, some a, some ty => some (.iabs d a ty)
    | _, _, _ => none else none

/-- Fields of POPC (opcode 0x1E). -/
def decPopc (w : Nat) : Option Instr :=
  if fld w 3 7 == 0 then match Reg.ofCode (fld w 17 7), Reg.ofCode (fld w 10 7), IntTy.ofCode (fld w 0 3) with
    | some d, some a, some ty => some (.popc d a ty)
    | _, _, _ => none else none

/-- Fields of CLZ (opcode 0x1F). -/
def decClz (w : Nat) : Option Instr :=
  if fld w 3 7 == 0 then match Reg.ofCode (fld w 17 7), Reg.ofCode (fld w 10 7), IntTy.ofCode (fld w 0 3) with
    | some d, some a, some ty => some (.clz d a ty)
    | _, _, _ => none else none

/-- Fields of BREV (opcode 0x20). -/
def decBrev (w : Nat) : Option Instr :=
  if fld w 3 7 == 0 then match Reg.ofCode (fld w 17 7), Reg.ofCode (fld w 10 7), IntTy.ofCode (fld w 0 3) with
    | some d, some a, some ty => some (.brev d a ty)
    | _, _, _ => none else none

/-- Fields of MOV (opcode 0x26). -/
def decMov (w : Nat) : Option Instr :=
  if fld w 3 7 == 0 then match Reg.ofCode (fld w 17 7), Reg.ofCode (fld w 10 7), IntTy.ofCode (fld w 0 3) with
    | some d, some a, some ty => some (.mov d a ty)
    | _, _, _ => none else none

/-- Fields of SEL (opcode 0x23). -/
def decSel (w : Nat) : Option Instr :=
  match finOf 104 (fld w 17 7), Reg.ofCode (fld w 10 7), Reg.ofCode (fld w 3 7), finOf 8 (fld w 0 3) with
    | some d, some a, some b, some p => some (.sel d a b p)
    | _, _, _, _ => none

/-- Fields of ICMP (opcode 0x24). -/
def decIcmp (w : Nat) : Option Instr :=
  match ICond.ofCode (fld w 20 4), finOf 8 (fld w 17 3), Reg.ofCode (fld w 10 7), Reg.ofCode (fld w 3 7), IntTy.ofCode (fld w 0 3) with
    | some c, some p, some a, some b, some ty => some (.icmp c p a b ty)
    | _, _, _, _, _ => none

/-- Fields of IADD_IMM (opcode 0x28). -/
def decIaddImm (w : Nat) : Option Instr :=
  match Reg.ofCode (fld w 17 7), Reg.ofCode (fld w 10 7), finOf 1024 (fld w 0 10) with
    | some d, some a, some imm => some (.iaddImm d a imm)
    | _, _, _ => none

/-- Fields of AND_IMM (opcode 0x29). -/
def decAndImm (w : Nat) : Option Instr :=
  match Reg.ofCode (fld w 17 7), Reg.ofCode (fld w 10 7), finOf 1024 (fld w 0 10) with
    | some d, some a, some imm => some (.andImm d a imm)
    | _, _, _ => none

/-- Fields of OR_IMM (opcode 0x2A). -/
def decOrImm (w : Nat) : Option Instr :=
  match Reg.ofCode (fld w 17 7), Reg.ofCode (fld w 10 7), finOf 1024 (fld w 0 10) with
    | some d, some a, some imm => some (.orImm d a imm)
    | _, _, _ => none

/-- Fields of XOR_IMM (opcode 0x2B). -/
def decXorImm (w : Nat) : Option Instr :=
  match Reg.ofCode (fld w 17 7), Reg.ofCode (fld w 10 7), finOf 1024 (fld w 0 10) with
    | some d, some a, some imm => some (.xorImm d a imm)
    | _, _, _ => none

/-- Fields of SHL_IMM (opcode 0x2C). -/
def decShlImm (w : Nat) : Option Instr :=
  if fld w 6 4 == 0 then match Reg.ofCode (fld w 17 7), Reg.ofCode (fld w 10 7), finOf 64 (fld w 0 6) with
    | some d, some a, some count => some (.shlImm d a count)
    | _, _, _ => none else none

/-- Fields of SHR_IMM (opcode 0x2C). -/
def decShrImm (w : Nat) : Option Instr :=
  if fld w 6 4 == 4 then match Reg.ofCode (fld w 17 7), Reg.ofCode (fld w 10 7), finOf 64 (fld w 0 6) with
    | some d, some a, some count => some (.shrImm d a count)
    | _, _, _ => none else none

/-- Fields of SAR_IMM (opcode 0x2C). -/
def decSarImm (w : Nat) : Option Instr :=
  if fld w 6 4 == 8 then match Reg.ofCode (fld w 17 7), Reg.ofCode (fld w 10 7), finOf 64 (fld w 0 6) with
    | some d, some a, some count => some (.sarImm d a count)
    | _, _, _ => none else none

/-- Fields of ICMP_IMM (opcode 0x2D). -/
def decIcmpImm (w : Nat) : Option Instr :=
  match ICondImm.ofCode (fld w 20 4), finOf 8 (fld w 17 3), Reg.ofCode (fld w 10 7), finOf 1024 (fld w 0 10) with
    | some c, some p, some a, some imm => some (.icmpImm c p a imm)
    | _, _, _, _ => none

/-- Fields of MOVI (opcode 0x2E). -/
def decMovi (w : Nat) : Option Instr :=
  match Reg.ofCode (fld w 17 7), finOf 131072 (fld w 0 17) with
    | some d, some imm => some (.movi d imm)
    | _, _ => none

/-- Fields of MOVU (opcode 0x2F). -/
def decMovu (w : Nat) : Option Instr :=
  if fld w 16 1 == 0 then match Reg.ofCode (fld w 17 7), finOf 65536 (fld w 0 16) with
    | some d, some imm => some (.movu d imm)
    | _, _ => none else none

/-- Fields of FADD (opcode 0x30). -/
def decFadd (w : Nat) : Option Instr :=
  match finOf 104 (fld w 17 7), Reg.ofCode (fld w 10 7), Reg.ofCode (fld w 3 7), FArith.ofCode (fld w 0 3) with
    | some d, some a, some b, some ty => some (.fadd d a b ty)
    | _, _, _, _ => none

/-- Fields of FSUB (opcode 0x31). -/
def decFsub (w : Nat) : Option Instr :=
  match finOf 104 (fld w 17 7), Reg.ofCode (fld w 10 7), Reg.ofCode (fld w 3 7), FArith.ofCode (fld w 0 3) with
    | some d, some a, some b, some ty => some (.fsub d a b ty)
    | _, _, _, _ => none

/-- Fields of FMUL (opcode 0x32). -/
def decFmul (w : Nat) : Option Instr :=
  match finOf 104 (fld w 17 7), Reg.ofCode (fld w 10 7), Reg.ofCode (fld w 3 7), FArith.ofCode (fld w 0 3) with
    | some d, some a, some b, some ty => some (.fmul d a b ty)
    | _, _, _, _ => none

/-- Fields of FFMA (opcode 0x33). -/
def decFfma (w : Nat) : Option Instr :=
  match finOf 104 (fld w 17 7), Reg.ofCode (fld w 10 7), Reg.ofCode (fld w 3 7), FArith.ofCode (fld w 0 3) with
    | some d, some a, some b, some ty => some (.ffma d a b ty)
    | _, _, _, _ => none

/-- Fields of FMIN (opcode 0x34). -/
def decFmin (w : Nat) : Option Instr :=
  match finOf 104 (fld w 17 7), Reg.ofCode (fld w 10 7), Reg.ofCode (fld w 3 7), FTy.ofCode (fld w 0 3) with
    | some d, some a, some b, some ty => some (.fmin d a b ty)
    | _, _, _, _ => none

/-- Fields of FMAX (opcode 0x35). -/
def decFmax (w : Nat) : Option Instr :=
  match finOf 104 (fld w 17 7), Reg.ofCode (fld w 10 7), Reg.ofCode (fld w 3 7), FTy.ofCode (fld w 0 3) with
    | some d, some a, some b, some ty => some (.fmax d a b ty)
    | _, _, _, _ => none

/-- Fields of FCMP (opcode 0x36). -/
def decFcmp (w : Nat) : Option Instr :=
  match FCond.ofCode (fld w 20 4), finOf 8 (fld w 17 3), Reg.ofCode (fld w 10 7), Reg.ofCode (fld w 3 7), FTy.ofCode (fld w 0 3) with
    | some c, some p, some a, some b, some ty => some (.fcmp c p a b ty)
    | _, _, _, _, _ => none

/-- Fields of FRCP (opcode 0x37). -/
def decFrcp (w : Nat) : Option Instr :=
  if fld w 7 3 == 0 then match finOf 104 (fld w 17 7), Reg.ofCode (fld w 10 7), finOf 16 (fld w 3 4), FTy.ofCode (fld w 0 3) with
    | some d, some a, some look, some ty => some (.frcp d a look ty)
    | _, _, _, _ => none else none

/-- Fields of FRSQ (opcode 0x38). -/
def decFrsq (w : Nat) : Option Instr :=
  if fld w 7 3 == 0 then match finOf 104 (fld w 17 7), Reg.ofCode (fld w 10 7), finOf 16 (fld w 3 4), FTy.ofCode (fld w 0 3) with
    | some d, some a, some look, some ty => some (.frsq d a look ty)
    | _, _, _, _ => none else none

/-- Fields of FEX2 (opcode 0x39). -/
def decFex2 (w : Nat) : Option Instr :=
  if fld w 7 3 == 0 then match finOf 104 (fld w 17 7), Reg.ofCode (fld w 10 7), finOf 16 (fld w 3 4), FTy.ofCode (fld w 0 3) with
    | some d, some a, some look, some ty => some (.fex2 d a look ty)
    | _, _, _, _ => none else none

/-- Fields of FLG2 (opcode 0x3A). -/
def decFlg2 (w : Nat) : Option Instr :=
  if fld w 7 3 == 0 then match finOf 104 (fld w 17 7), Reg.ofCode (fld w 10 7), finOf 16 (fld w 3 4), FTy.ofCode (fld w 0 3) with
    | some d, some a, some look, some ty => some (.flg2 d a look ty)
    | _, _, _, _ => none else none

/-- Fields of FTANH (opcode 0x3B). -/
def decFtanh (w : Nat) : Option Instr :=
  if fld w 7 3 == 0 then match finOf 104 (fld w 17 7), Reg.ofCode (fld w 10 7), finOf 16 (fld w 3 4), FTy.ofCode (fld w 0 3) with
    | some d, some a, some look, some ty => some (.ftanh d a look ty)
    | _, _, _, _ => none else none

/-- Fields of CVT (opcode 0x3C). -/
def decCvt (w : Nat) : Option Instr :=
  if fld w 0 3 == 7 then match finOf 104 (fld w 17 7), Reg.ofCode (fld w 10 7), finOf 27 (fld w 5 5), Rnd.ofCode (fld w 3 2) with
    | some d, some a, some code, some m => some (.cvt d a code m)
    | _, _, _, _ => none else none

/-- Fields of PACKMX (opcode 0x3D). -/
def decPackmx (w : Nat) : Option Instr :=
  if fld w 0 7 == 7 then match finOf 104 (fld w 17 7), Reg.ofCode (fld w 10 7), MxFmt.ofCode (fld w 7 3) with
    | some d, some a, some fmt => some (.packmx d a fmt)
    | _, _, _ => none else none

/-- Fields of UNPKMX (opcode 0x3E). -/
def decUnpkmx (w : Nat) : Option Instr :=
  if fld w 0 7 == 7 then match finOf 104 (fld w 17 7), Reg.ofCode (fld w 10 7), MxFmt.ofCode (fld w 7 3) with
    | some d, some a, some fmt => some (.unpkmx d a fmt)
    | _, _, _ => none else none

/-- Fields of PLANE_PACK (opcode 0x3F). -/
def decPlanePack (w : Nat) : Option Instr :=
  if fld w 0 10 == 7 then match finOf 104 (fld w 17 7), Reg.ofCode (fld w 10 7) with
    | some d, some a => some (.planePack d a)
    | _, _ => none else none

/-- Fields of PLANE_UNPACK (opcode 0x3F). -/
def decPlaneUnpack (w : Nat) : Option Instr :=
  if fld w 0 3 == 7 && fld w 7 3 == 1 then match finOf 104 (fld w 17 7), Reg.ofCode (fld w 10 7), finOf 16 (fld w 3 4) with
    | some d, some a, some j => some (.planeUnpack d a j)
    | _, _, _ => none else none

/-- Fields of SHFL (opcode 0x40). -/
def decShfl (w : Nat) : Option Instr :=
  match ShflMode.ofCode (fld w 0 2), some (fld w 2 1 == 1), finOf 104 (fld w 17 7), Reg.ofCode (fld w 10 7), Reg.ofCode (fld w 3 7) with
    | some mode, some pair, some d, some a, some b => some (.shfl mode pair d a b)
    | _, _, _, _, _ => none

/-- Fields of VOTE (opcode 0x41). -/
def decVote (w : Nat) : Option Instr :=
  if fld w 0 1 == 0 && fld w 2 8 == 0 then match VoteMode.ofCode (fld w 20 4), some (fld w 1 1 == 1), finOf 8 (fld w 17 3), Reg.ofCode (fld w 10 7) with
    | some mode, some pair, some p, some a => some (.vote mode pair p a)
    | _, _, _, _ => none else none

/-- Fields of MATCH (opcode 0x42). -/
def decMatchLanes (w : Nat) : Option Instr :=
  if fld w 3 4 == 0 then match finOf 104 (fld w 17 7), finOf 8 (fld w 7 3), Reg.ofCode (fld w 10 7), IntTy.ofCode (fld w 0 3) with
    | some d, some p, some a, some ty => some (.matchLanes d p a ty)
    | _, _, _, _ => none else none

/-- Fields of TRED (opcode 0x43). -/
def decTred (w : Nat) : Option Instr :=
  if fld w 5 5 == 0 then match RedOp.ofCode (fld w 3 2), RTy.ofCode (fld w 0 3), finOf 104 (fld w 17 7), Reg.ofCode (fld w 10 7) with
    | some op, some ty, some d, some a => some (.tred op ty d a)
    | _, _, _, _ => none else none

/-- Fields of TSCAN (opcode 0x44). -/
def decTscan (w : Nat) : Option Instr :=
  if fld w 6 4 == 0 then match RedOp.ofCode (fld w 3 2), some (fld w 5 1 == 1), RTy.ofCode (fld w 0 3), finOf 104 (fld w 17 7), Reg.ofCode (fld w 10 7) with
    | some op, some excl, some ty, some d, some a => some (.tscan op excl ty d a)
    | _, _, _, _, _ => none else none

/-- Fields of PLOG (opcode 0x45). -/
def decPlog (w : Nat) : Option Instr :=
  if fld w 0 3 == 7 && fld w 6 4 == 0 && fld w 13 4 == 0 then match PlogOp.ofCode (fld w 20 4), finOf 8 (fld w 17 3), finOf 8 (fld w 10 3), finOf 8 (fld w 3 3) with
    | some op, some pd, some pa, some pb => some (.plog op pd pa pb)
    | _, _, _, _ => none else none

/-- Fields of PCNT (opcode 0x46). -/
def decPcnt (w : Nat) : Option Instr :=
  if fld w 0 10 == 7 && fld w 13 4 == 0 then match Reg.ofCode (fld w 17 7), finOf 8 (fld w 10 3) with
    | some d, some p => some (.pcnt d p)
    | _, _ => none else none

/-- Fields of PMOV_TO_VECTOR (opcode 0x47). -/
def decPmovToVector (w : Nat) : Option Instr :=
  if fld w 0 10 == 7 && fld w 13 4 == 0 then match finOf 104 (fld w 17 7), finOf 8 (fld w 10 3) with
    | some d, some p => some (.pmovToVector d p)
    | _, _ => none else none

/-- Fields of PMOV_TO_PREDICATE (opcode 0x47). -/
def decPmovToPredicate (w : Nat) : Option Instr :=
  if fld w 0 10 == 263 && fld w 20 4 == 0 then match finOf 8 (fld w 17 3), Reg.ofCode (fld w 10 7) with
    | some p, some a => some (.pmovToPredicate p a)
    | _, _ => none else none

/-- Fields of PMOV_WORD (opcode 0x47). -/
def decPmovWord (w : Nat) : Option Instr :=
  if fld w 0 3 == 7 && fld w 8 2 == 2 && fld w 13 4 == 0 then match sOfFull (fld w 17 7), finOf 8 (fld w 10 3), finOf 32 (fld w 3 5) with
    | some d, some p, some w => some (.pmovWord d p w)
    | _, _, _ => none else none

/-- Fields of LD_B (opcode 0x50). -/
def decLdB (w : Nat) : Option Instr :=
  match Reg.ofCode (fld w 17 7), MemOp.ofWord w, finOf 16 (fld w 1 4) with
    | some t, some m, some look => some (.ldB t m look)
    | _, _, _ => none

/-- Fields of LD_H (opcode 0x51). -/
def decLdH (w : Nat) : Option Instr :=
  match Reg.ofCode (fld w 17 7), MemOp.ofWord w, finOf 16 (fld w 1 4) with
    | some t, some m, some look => some (.ldH t m look)
    | _, _, _ => none

/-- Fields of LD_W (opcode 0x52). -/
def decLdW (w : Nat) : Option Instr :=
  match Reg.ofCode (fld w 17 7), MemOp.ofWord w, finOf 16 (fld w 1 4) with
    | some t, some m, some look => some (.ldW t m look)
    | _, _, _ => none

/-- Fields of LD_D (opcode 0x53). -/
def decLdD (w : Nat) : Option Instr :=
  match Reg.ofCode (fld w 17 7), MemOp.ofWord w, finOf 16 (fld w 1 4) with
    | some t, some m, some look => some (.ldD t m look)
    | _, _, _ => none

/-- Fields of LD_Q (opcode 0x54). -/
def decLdQ (w : Nat) : Option Instr :=
  match finOf 104 (fld w 17 7), MemOp.ofWord w, finOf 16 (fld w 1 4) with
    | some t, some m, some look => some (.ldQ t m look)
    | _, _, _ => none

/-- Fields of ST_B (opcode 0x55). -/
def decStB (w : Nat) : Option Instr :=
  match Reg.ofCode (fld w 17 7), MemOp.ofWord w, finOf 16 (fld w 1 4) with
    | some t, some m, some look => some (.stB t m look)
    | _, _, _ => none

/-- Fields of ST_H (opcode 0x56). -/
def decStH (w : Nat) : Option Instr :=
  match Reg.ofCode (fld w 17 7), MemOp.ofWord w, finOf 16 (fld w 1 4) with
    | some t, some m, some look => some (.stH t m look)
    | _, _, _ => none

/-- Fields of ST_W (opcode 0x57). -/
def decStW (w : Nat) : Option Instr :=
  match Reg.ofCode (fld w 17 7), MemOp.ofWord w, finOf 16 (fld w 1 4) with
    | some t, some m, some look => some (.stW t m look)
    | _, _, _ => none

/-- Fields of ST_D (opcode 0x58). -/
def decStD (w : Nat) : Option Instr :=
  match Reg.ofCode (fld w 17 7), MemOp.ofWord w, finOf 16 (fld w 1 4) with
    | some t, some m, some look => some (.stD t m look)
    | _, _, _ => none

/-- Fields of ST_Q (opcode 0x59). -/
def decStQ (w : Nat) : Option Instr :=
  match finOf 104 (fld w 17 7), MemOp.ofWord w, finOf 16 (fld w 1 4) with
    | some t, some m, some look => some (.stQ t m look)
    | _, _, _ => none

/-- Fields of LDL_W (opcode 0x5A). -/
def decLdlW (w : Nat) : Option Instr :=
  match finOf 104 (fld w 17 7), MemOp.ofWord w, finOf 16 (fld w 1 4) with
    | some t, some m, some look => some (.ldlW t m look)
    | _, _, _ => none

/-- Fields of LDL_Q (opcode 0x5B). -/
def decLdlQ (w : Nat) : Option Instr :=
  match finOf 104 (fld w 17 7), MemOp.ofWord w, finOf 16 (fld w 1 4) with
    | some t, some m, some look => some (.ldlQ t m look)
    | _, _, _ => none

/-- Fields of STL_W (opcode 0x5C). -/
def decStlW (w : Nat) : Option Instr :=
  match finOf 104 (fld w 17 7), MemOp.ofWord w, finOf 16 (fld w 1 4) with
    | some t, some m, some look => some (.stlW t m look)
    | _, _, _ => none

/-- Fields of STL_Q (opcode 0x5D). -/
def decStlQ (w : Nat) : Option Instr :=
  match finOf 104 (fld w 17 7), MemOp.ofWord w, finOf 16 (fld w 1 4) with
    | some t, some m, some look => some (.stlQ t m look)
    | _, _, _ => none

/-- Fields of LDU (opcode 0x60). -/
def decLdu (w : Nat) : Option Instr :=
  match Reg.ofCode (fld w 17 7), MemOp.ofWord w, finOf 16 (fld w 1 4) with
    | some t, some m, some look => some (.ldu t m look)
    | _, _, _ => none

/-- Fields of STU (opcode 0x61). -/
def decStu (w : Nat) : Option Instr :=
  match Reg.ofCode (fld w 17 7), MemOp.ofWord w, finOf 16 (fld w 1 4) with
    | some t, some m, some look => some (.stu t m look)
    | _, _, _ => none

/-- Fields of LDC_W (opcode 0x5E). -/
def decLdcW (w : Nat) : Option Instr :=
  match finOf 104 (fld w 17 7), MemOp.ofWord w, finOf 16 (fld w 1 4) with
    | some t, some m, some c => some (.ldcW t m c)
    | _, _, _ => none

/-- Fields of LDC_Q (opcode 0x5F). -/
def decLdcQ (w : Nat) : Option Instr :=
  match finOf 104 (fld w 17 7), MemOp.ofWord w, finOf 16 (fld w 1 4) with
    | some t, some m, some c => some (.ldcQ t m c)
    | _, _, _ => none

/-- Fields of LD_ACQ (opcode 0x62). -/
def decLdAcq (w : Nat) : Option Instr :=
  match Reg.ofCode (fld w 17 7), MemOp.ofWord w, Scope.ofCode (fld w 2 3), some (fld w 1 1 == 1) with
    | some t, some m, some sc, some d => some (.ldAcq t m sc d)
    | _, _, _, _ => none

/-- Fields of ST_REL (opcode 0x63). -/
def decStRel (w : Nat) : Option Instr :=
  match Reg.ofCode (fld w 17 7), MemOp.ofWord w, Scope.ofCode (fld w 2 3), some (fld w 1 1 == 1) with
    | some t, some m, some sc, some d => some (.stRel t m sc d)
    | _, _, _, _ => none

/-- Fields of ATOM (opcode 0x64). -/
def decAtom (w : Nat) : Option Instr :=
  match AtomOp.ofCode (fld w 1 4), finOf 104 (fld w 17 7), MemOp.ofWord w with
    | some op, some t, some m => some (.atom op t m)
    | _, _, _ => none

/-- Fields of RED (opcode 0x65). -/
def decRed (w : Nat) : Option Instr :=
  match AtomOp.ofCode (fld w 1 4), finOf 104 (fld w 17 7), MemOp.ofWord w with
    | some op, some t, some m => some (.red op t m)
    | _, _, _ => none

/-- Fields of ATOML (opcode 0x66). -/
def decAtoml (w : Nat) : Option Instr :=
  match AtomOp.ofCode (fld w 1 4), finOf 104 (fld w 17 7), MemOp.ofWord w with
    | some op, some t, some m => some (.atoml op t m)
    | _, _, _ => none

/-- Fields of FENCE (opcode 0x67). -/
def decFence (w : Nat) : Option Instr :=
  if fld w 5 19 == 0 then match Scope.ofCode (fld w 2 3), some (fld w 1 1 == 1), some (fld w 0 1 == 1) with
    | some sc, some acq, some rel => some (.fence sc acq rel)
    | _, _, _ => none else none

/-- Fields of WAITV (opcode 0x68). -/
def decWaitv (w : Nat) : Option Instr :=
  match some (fld w 1 1 == 1), Scope.ofCode (fld w 2 3), finOf 104 (fld w 17 7), MemOp.ofWord w with
    | some ne, some sc, some t, some m => some (.waitv ne sc t m)
    | _, _, _, _ => none

/-- Fields of AWAIT (opcode 0x69). -/
def decAwait (w : Nat) : Option Instr :=
  if fld w 14 5 == 0 then match finOf 16 (fld w 0 4), CountSrc.ofWord w with
    | some a, some v => some (.await a v)
    | _, _ => none else none

/-- Fields of ASET (opcode 0x6A). -/
def decAset (w : Nat) : Option Instr :=
  if fld w 14 5 == 0 then match finOf 16 (fld w 0 4), CountSrc.ofWord w with
    | some a, some v => some (.aset a v)
    | _, _ => none else none

/-- Fields of XFER (opcode 0x70). -/
def decXfer (w : Nat) : Option Instr :=
  if fld w 0 5 == 0 && fld w 21 1 == 0 then match finOf 4 (fld w 22 2), finOf 4096 (fld w 9 12), EFlags.ofCode (fld w 5 4) with
    | some chan, some tmpl, some f => some (.xfer chan tmpl f)
    | _, _, _ => none else none

/-- Fields of XFER_REG (opcode 0x70). -/
def decXferReg (w : Nat) : Option Instr :=
  if fld w 9 13 == 4096 then match finOf 4 (fld w 22 2), finOf 24 (fld w 0 5), EFlags.ofCode (fld w 5 4) with
    | some chan, some s, some f => some (.xferReg chan s f)
    | _, _, _ => none else none

/-- Fields of XPTR (opcode 0x71). -/
def decXptr (w : Nat) : Option Instr :=
  if fld w 2 1 == 0 && fld w 4 10 == 0 then match finOf 24 (fld w 19 5), finOf 24 (fld w 14 5), some (fld w 3 1 == 1), EScope.ofCode (fld w 0 2) with
    | some sd, some sa, some acq, some sc => some (.xptr sd sa acq sc)
    | _, _, _, _ => none else none

/-- Fields of ROWCPY (opcode 0x78). -/
def decRowcpy (w : Nat) : Option Instr :=
  if fld w 9 5 == 0 then match finOf 24 (fld w 19 5), finOf 24 (fld w 14 5), finOf 24 (fld w 4 5), EFlags.ofCode (fld w 0 4) with
    | some sd, some sa, some sc, some f => some (.rowcpy sd sa sc f)
    | _, _, _, _ => none else none

/-- Fields of ROWFIL (opcode 0x79). -/
def decRowfil (w : Nat) : Option Instr :=
  if fld w 9 5 == 0 then match finOf 24 (fld w 19 5), finOf 24 (fld w 14 5), finOf 24 (fld w 4 5), EFlags.ofCode (fld w 0 4) with
    | some sd, some sa, some sc, some f => some (.rowfil sd sa sc f)
    | _, _, _, _ => none else none

/-- Fields of ROWNOT (opcode 0x7C). -/
def decRownot (w : Nat) : Option Instr :=
  if fld w 9 5 == 0 then match finOf 24 (fld w 19 5), finOf 24 (fld w 14 5), finOf 24 (fld w 4 5), EFlags.ofCode (fld w 0 4) with
    | some sd, some sa, some sc, some f => some (.rownot sd sa sc f)
    | _, _, _, _ => none else none

/-- Fields of ROWAND (opcode 0x7A). -/
def decRowand (w : Nat) : Option Instr :=
  match finOf 24 (fld w 19 5), finOf 24 (fld w 14 5), finOf 24 (fld w 9 5), finOf 24 (fld w 4 5), EFlags.ofCode (fld w 0 4) with
    | some sd, some sa, some sb, some sc, some f => some (.rowand sd sa sb sc f)
    | _, _, _, _, _ => none

/-- Fields of ROWOR (opcode 0x7B). -/
def decRowor (w : Nat) : Option Instr :=
  match finOf 24 (fld w 19 5), finOf 24 (fld w 14 5), finOf 24 (fld w 9 5), finOf 24 (fld w 4 5), EFlags.ofCode (fld w 0 4) with
    | some sd, some sa, some sb, some sc, some f => some (.rowor sd sa sb sc f)
    | _, _, _, _, _ => none

/-- Fields of ROWMAJ (opcode 0x7D). -/
def decRowmaj (w : Nat) : Option Instr :=
  match finOf 24 (fld w 19 5), finOf 24 (fld w 14 5), finOf 24 (fld w 9 5), finOf 24 (fld w 4 5), EFlags.ofCode (fld w 0 4) with
    | some sd, some sa, some sb, some sc, some f => some (.rowmaj sd sa sb sc f)
    | _, _, _, _, _ => none

/-- Fields of ROWXOR (opcode 0x7E). -/
def decRowxor (w : Nat) : Option Instr :=
  match finOf 24 (fld w 19 5), finOf 24 (fld w 14 5), finOf 24 (fld w 9 5), finOf 24 (fld w 4 5), EFlags.ofCode (fld w 0 4) with
    | some sd, some sa, some sb, some sc, some f => some (.rowxor sd sa sb sc f)
    | _, _, _, _, _ => none

/-- Fields of ROWSTAT (opcode 0x7F). -/
def decRowstat (w : Nat) : Option Instr :=
  if fld w 2 1 == 0 && fld w 4 15 == 0 then match finOf 24 (fld w 19 5), some (fld w 3 1 == 1), EScope.ofCode (fld w 0 2) with
    | some sd, some acq, some sc => some (.rowstat sd acq sc)
    | _, _, _ => none else none

/-- Fields of ROWSTAT_POLL (opcode 0x7F). -/
def decRowstatPoll (w : Nat) : Option Instr :=
  if fld w 2 1 == 0 && fld w 4 15 == 1024 then match finOf 24 (fld w 19 5), some (fld w 3 1 == 1), EScope.ofCode (fld w 0 2) with
    | some sd, some acq, some sc => some (.rowstatPoll sd acq sc)
    | _, _, _ => none else none

/-- Fields of CAPT (opcode 0x80). -/
def decCapt (w : Nat) : Option Instr :=
  if fld w 0 11 == 0 then match finOf 8 (fld w 21 3), finOf 24 (fld w 16 5), finOf 24 (fld w 11 5) with
    | some kd, some se, some sm => some (.capt kd se sm)
    | _, _, _ => none else none

/-- Fields of CAPT_REF (opcode 0x80). -/
def decCaptRef (w : Nat) : Option Instr :=
  if fld w 0 11 == 1024 then match finOf 8 (fld w 21 3), finOf 24 (fld w 16 5), finOf 24 (fld w 11 5) with
    | some kd, some se, some sm => some (.captRef kd se sm)
    | _, _, _ => none else none

/-- Fields of CAPT_LANE (opcode 0x80). -/
def decCaptLane (w : Nat) : Option Instr :=
  if fld w 0 11 == 512 && fld w 21 3 == 0 then match finOf 24 (fld w 16 5), finOf 24 (fld w 11 5) with
    | some se, some sm => some (.captLane se sm)
    | _, _ => none else none

/-- Fields of APPLY (opcode 0x81). -/
def decApply (w : Nat) : Option Instr :=
  if fld w 0 21 == 0 then match finOf 8 (fld w 21 3) with
    | some kd => some (.apply kd)
    | _ => none else none

/-- Fields of APPLY_LANE (opcode 0x81). -/
def decApplyLane (w : Nat) : Option Instr :=
  if fld w 0 11 == 512 && fld w 18 6 == 0 then match finOf 128 (fld w 11 7) with
    | some vh => some (.applyLane vh)
    | _ => none else none

/-- Fields of KDUP (opcode 0x82). -/
def decKdup (w : Nat) : Option Instr :=
  if fld w 0 16 == 0 && fld w 19 2 == 0 then match finOf 8 (fld w 21 3), finOf 8 (fld w 16 3) with
    | some kd, some ks => some (.kdup kd ks)
    | _, _ => none else none

/-- Fields of KDROP (opcode 0x83). -/
def decKdrop (w : Nat) : Option Instr :=
  if fld w 0 21 == 0 then match finOf 8 (fld w 21 3) with
    | some kd => some (.kdrop kd)
    | _ => none else none

/-- Fields of KLD (opcode 0x84). -/
def decKld (w : Nat) : Option Instr :=
  if fld w 0 16 == 0 then match finOf 8 (fld w 21 3), finOf 24 (fld w 16 5) with
    | some kd, some se => some (.kld kd se)
    | _, _ => none else none

/-- Fields of KST (opcode 0x85). -/
def decKst (w : Nat) : Option Instr :=
  if fld w 0 16 == 0 then match finOf 8 (fld w 21 3), finOf 24 (fld w 16 5) with
    | some kd, some se => some (.kst kd se)
    | _, _ => none else none

/-- Fields of KQRY (opcode 0x86). -/
def decKqry (w : Nat) : Option Instr :=
  if fld w 0 16 == 0 then match finOf 8 (fld w 21 3), finOf 24 (fld w 16 5) with
    | some kd, some se => some (.kqry kd se)
    | _, _ => none else none

/-- Fields of TARM (opcode 0x88). -/
def decTarm (w : Nat) : Option Instr :=
  if fld w 8 6 == 0 then match finOf 24 (fld w 19 5), finOf 24 (fld w 14 5), finOf 8 (fld w 5 3), finOf 24 (fld w 0 5) with
    | some sa, some sb, some k, some st => some (.tarm sa sb k st)
    | _, _, _, _ => none else none

/-- Fields of TSIG (opcode 0x89). -/
def decTsig (w : Nat) : Option Instr :=
  if fld w 5 14 == 0 then match finOf 24 (fld w 19 5), finOf 24 (fld w 0 5) with
    | some sa, some st => some (.tsig sa st)
    | _, _ => none else none

/-- Fields of QAPPLY (opcode 0x8A). -/
def decQapply (w : Nat) : Option Instr :=
  if fld w 5 1 == 0 && fld w 9 10 == 0 then match finOf 24 (fld w 19 5), finOf 8 (fld w 6 3), finOf 24 (fld w 0 5) with
    | some sa, some k, some st => some (.qapply sa k st)
    | _, _, _ => none else none

/-- Fields of QAPPLY_LANE (opcode 0x8A). -/
def decQapplyLane (w : Nat) : Option Instr :=
  if fld w 5 1 == 0 && fld w 13 6 == 1 then match finOf 24 (fld w 19 5), finOf 128 (fld w 6 7), finOf 24 (fld w 0 5) with
    | some sa, some vh, some st => some (.qapplyLane sa vh st)
    | _, _, _ => none else none

/-- Fields of LAUNCH (opcode 0x8B). -/
def decLaunch (w : Nat) : Option Instr :=
  if fld w 5 9 == 0 then match finOf 24 (fld w 19 5), finOf 24 (fld w 14 5), finOf 24 (fld w 0 5) with
    | some sa, some sb, some st => some (.launch sa sb st)
    | _, _, _ => none else none

/-- Fields of JOIN (opcode 0x90). -/
def decJoin (w : Nat) : Option Instr :=
  if fld w 12 7 == 0 then match finOf 24 (fld w 19 5), finOf 65 (fld w 5 7), finOf 24 (fld w 0 5) with
    | some sa, some w, some st => some (.join sa w st)
    | _, _, _ => none else none

/-- Fields of LEAVE (opcode 0x91). -/
def decLeave (w : Nat) : Option Instr :=
  if fld w 0 24 == 0 then some .leave else none

/-- Fields of BARV (opcode 0x92). -/
def decBarv (w : Nat) : Option Instr :=
  if fld w 4 20 == 0 then match finOf 16 (fld w 0 4) with
    | some b => some (.barv b)
    | _ => none else none

/-- Fields of BARA (opcode 0x93). -/
def decBara (w : Nat) : Option Instr :=
  if fld w 4 20 == 0 then match finOf 16 (fld w 0 4) with
    | some b => some (.bara b)
    | _ => none else none

/-- Fields of BARW (opcode 0x94). -/
def decBarw (w : Nat) : Option Instr :=
  if fld w 4 20 == 0 then match finOf 16 (fld w 0 4) with
    | some b => some (.barw b)
    | _ => none else none

/-- Fields of COHQ (opcode 0x95). -/
def decCohq (w : Nat) : Option Instr :=
  if fld w 4 10 == 0 && fld w 19 5 == 0 then match finOf 24 (fld w 14 5), finOf 16 (fld w 0 4) with
    | some sd, some b => some (.cohq sd b)
    | _, _ => none else none

/-- Fields of BDECL_LIST (opcode 0x98). -/
def decBdeclList (w : Nat) : Option Instr :=
  if fld w 8 6 == 0 then match finOf 24 (fld w 19 5), finOf 24 (fld w 14 5), finOf 8 (fld w 5 3), finOf 24 (fld w 0 5) with
    | some sl, some sh, some prio, some st => some (.bdeclList sl sh prio st)
    | _, _, _, _ => none else none

/-- Fields of BDECL_REC (opcode 0x98). -/
def decBdeclRec (w : Nat) : Option Instr :=
  if fld w 8 6 == 1 then match finOf 24 (fld w 19 5), finOf 24 (fld w 14 5), finOf 8 (fld w 5 3), finOf 24 (fld w 0 5) with
    | some sl, some sh, some prio, some st => some (.bdeclRec sl sh prio st)
    | _, _, _, _ => none else none

/-- Fields of BENTER (opcode 0x99). -/
def decBenter (w : Nat) : Option Instr :=
  if fld w 4 10 == 0 then match finOf 24 (fld w 19 5), finOf 24 (fld w 14 5), BMode.ofCode (fld w 2 2), finOf 4 (fld w 0 2) with
    | some sh, some st, some mode, some n1 => some (.benter sh st mode n1)
    | _, _, _, _ => none else none

/-- Fields of BEXIT (opcode 0x9A). -/
def decBexit (w : Nat) : Option Instr :=
  if fld w 0 14 == 0 then match finOf 24 (fld w 19 5), finOf 24 (fld w 14 5) with
    | some sh, some st => some (.bexit sh st)
    | _, _ => none else none

/-- Fields of BDROP (opcode 0x9B). -/
def decBdrop (w : Nat) : Option Instr :=
  if fld w 0 14 == 0 then match finOf 24 (fld w 19 5), finOf 24 (fld w 14 5) with
    | some sh, some st => some (.bdrop sh st)
    | _, _ => none else none

/-- Fields of BQRY (opcode 0x9C). -/
def decBqry (w : Nat) : Option Instr :=
  if fld w 0 14 == 0 then match finOf 24 (fld w 19 5), finOf 24 (fld w 14 5) with
    | some sh, some sd => some (.bqry sh sd)
    | _, _ => none else none

/-- Fields of MATT (opcode 0xA0). -/
def decMatt (w : Nat) : Option Instr :=
  if fld w 5 9 == 0 then match finOf 24 (fld w 19 5), finOf 24 (fld w 14 5), finOf 24 (fld w 0 5) with
    | some sa, some sb, some st => some (.matt sa sb st)
    | _, _, _ => none else none

/-- Fields of MDET (opcode 0xA1). -/
def decMdet (w : Nat) : Option Instr :=
  if fld w 5 19 == 0 then match finOf 24 (fld w 0 5) with
    | some st => some (.mdet st)
    | _ => none else none

/-- Fields of MWB (opcode 0xC0). -/
def decMwb (w : Nat) : Option Instr :=
  match finOf 16 (fld w 16 8), finOf 256 (fld w 8 8), finOf 256 (fld w 0 8) with
    | some slot, some rec, some idx => some (.mwb slot rec idx)
    | _, _, _ => none

/-- Fields of MLW (opcode 0xC1). -/
def decMlw (w : Nat) : Option Instr :=
  if fld w 0 16 == 0 then match finOf 16 (fld w 16 8) with
    | some slot => some (.mlw slot)
    | _ => none else none

/-- Fields of MMA (opcode 0xC2). -/
def decMma (w : Nat) : Option Instr :=
  if fld w 13 1 == 0 then match some (fld w 15 1 == 1), some (fld w 14 1 == 1), finOf 256 (fld w 16 8), finOf 16 (fld w 9 4), finOf 512 (fld w 0 9) with
    | some tile, some stamp, some rec, some slot, some m1 => some (.mma tile stamp rec slot m1)
    | _, _, _, _, _ => none else none

/-- Fields of MSTA (opcode 0xC3). -/
def decMsta (w : Nat) : Option Instr :=
  if fld w 0 10 == 0 then match MstaFmt.ofCode (fld w 10 4), some (fld w 14 1 == 1), some (fld w 15 1 == 1), finOf 256 (fld w 16 8) with
    | some fmt, some ieee, some tile, some rec => some (.msta fmt ieee tile rec)
    | _, _, _, _ => none else none

/-- Fields of MCLR (opcode 0xC4). -/
def decMclr (w : Nat) : Option Instr :=
  if fld w 0 8 == 0 && fld w 9 7 == 0 && fld w 17 7 == 0 then match some (fld w 16 1 == 1), some (fld w 8 1 == 1) with
    | some tile, some int => some (.mclr tile int)
    | _, _ => none else none

/-- Fields of MFMT (opcode 0xC5). -/
def decMfmt (w : Nat) : Option Instr :=
  match AFmt.ofCode (fld w 16 8), finOf 9 (fld w 8 8), finOf 256 (fld w 0 8) with
    | some f, some j, some srec => some (.mfmt f j srec)
    | _, _, _ => none

/-- Fields of MBAR (opcode 0xC6). -/
def decMbar (w : Nat) : Option Instr :=
  if fld w 0 8 == 0 then match finOf 16 (fld w 16 8), finOf 4 (fld w 8 8) with
    | some b, some op => some (.mbar b op)
    | _, _ => none else none

/-- Fields of MEND (opcode 0xC7). -/
def decMend (w : Nat) : Option Instr :=
  if fld w 0 24 == 0 then some .mend else none

/-- The instruction of a word with opcode op, by the opcode map (Table 3-9). -/
def decodeFields (op w : Nat) : Option Instr :=
  match op with
  | 0x00 => decNop w
  | 0x01 => decBra w
  | 0x02 => decBrx w
  | 0x03 => decCall w
  | 0x04 => decRet w
  | 0x05 => decSplit w
  | 0x06 => decFlip w
  | 0x07 => decMerge w
  | 0x08 => decPrune w
  | 0x09 => decExit w
  | 0x0A => decTrap w
  | 0x0B => decRett w
  | 0x0C => decBkpt w
  | 0x0D => decSrd w
  | 0x0E => decSwr w
  | 0x10 => decIadd w
  | 0x11 => decIsub w
  | 0x12 => decImul w
  | 0x13 => decImulh w
  | 0x14 => decImad w
  | 0x15 => decImin w
  | 0x16 => decImax w
  | 0x17 => decIabs w
  | 0x18 => decAnd w
  | 0x19 => decOr w
  | 0x1A => decXor w
  | 0x1B => decShl w
  | 0x1C => decShr w
  | 0x1D => decSar w
  | 0x1E => decPopc w
  | 0x1F => decClz w
  | 0x20 => decBrev w
  | 0x21 => decBfx w
  | 0x22 => decBfi w
  | 0x23 => decSel w
  | 0x24 => decIcmp w
  | 0x25 => decLea w
  | 0x26 => decMov w
  | 0x28 => decIaddImm w
  | 0x29 => decAndImm w
  | 0x2A => decOrImm w
  | 0x2B => decXorImm w
  | 0x2C => decShlImm w <|> decShrImm w <|> decSarImm w
  | 0x2D => decIcmpImm w
  | 0x2E => decMovi w
  | 0x2F => decMovu w
  | 0x30 => decFadd w
  | 0x31 => decFsub w
  | 0x32 => decFmul w
  | 0x33 => decFfma w
  | 0x34 => decFmin w
  | 0x35 => decFmax w
  | 0x36 => decFcmp w
  | 0x37 => decFrcp w
  | 0x38 => decFrsq w
  | 0x39 => decFex2 w
  | 0x3A => decFlg2 w
  | 0x3B => decFtanh w
  | 0x3C => decCvt w
  | 0x3D => decPackmx w
  | 0x3E => decUnpkmx w
  | 0x3F => decPlanePack w <|> decPlaneUnpack w
  | 0x40 => decShfl w
  | 0x41 => decVote w
  | 0x42 => decMatchLanes w
  | 0x43 => decTred w
  | 0x44 => decTscan w
  | 0x45 => decPlog w
  | 0x46 => decPcnt w
  | 0x47 => decPmovToVector w <|> decPmovToPredicate w <|> decPmovWord w
  | 0x50 => decLdB w
  | 0x51 => decLdH w
  | 0x52 => decLdW w
  | 0x53 => decLdD w
  | 0x54 => decLdQ w
  | 0x55 => decStB w
  | 0x56 => decStH w
  | 0x57 => decStW w
  | 0x58 => decStD w
  | 0x59 => decStQ w
  | 0x5A => decLdlW w
  | 0x5B => decLdlQ w
  | 0x5C => decStlW w
  | 0x5D => decStlQ w
  | 0x5E => decLdcW w
  | 0x5F => decLdcQ w
  | 0x60 => decLdu w
  | 0x61 => decStu w
  | 0x62 => decLdAcq w
  | 0x63 => decStRel w
  | 0x64 => decAtom w
  | 0x65 => decRed w
  | 0x66 => decAtoml w
  | 0x67 => decFence w
  | 0x68 => decWaitv w
  | 0x69 => decAwait w
  | 0x6A => decAset w
  | 0x70 => decXfer w <|> decXferReg w
  | 0x71 => decXptr w
  | 0x78 => decRowcpy w
  | 0x79 => decRowfil w
  | 0x7A => decRowand w
  | 0x7B => decRowor w
  | 0x7C => decRownot w
  | 0x7D => decRowmaj w
  | 0x7E => decRowxor w
  | 0x7F => decRowstat w <|> decRowstatPoll w
  | 0x80 => decCapt w <|> decCaptRef w <|> decCaptLane w
  | 0x81 => decApply w <|> decApplyLane w
  | 0x82 => decKdup w
  | 0x83 => decKdrop w
  | 0x84 => decKld w
  | 0x85 => decKst w
  | 0x86 => decKqry w
  | 0x88 => decTarm w
  | 0x89 => decTsig w
  | 0x8A => decQapply w <|> decQapplyLane w
  | 0x8B => decLaunch w
  | 0x90 => decJoin w
  | 0x91 => decLeave w
  | 0x92 => decBarv w
  | 0x93 => decBara w
  | 0x94 => decBarw w
  | 0x95 => decCohq w
  | 0x98 => decBdeclList w <|> decBdeclRec w
  | 0x99 => decBenter w
  | 0x9A => decBexit w
  | 0x9B => decBdrop w
  | 0x9C => decBqry w
  | 0xA0 => decMatt w
  | 0xA1 => decMdet w
  | 0xC0 => decMwb w
  | 0xC1 => decMlw w
  | 0xC2 => decMma w
  | 0xC3 => decMsta w
  | 0xC4 => decMclr w
  | 0xC5 => decMfmt w
  | 0xC6 => decMbar w
  | 0xC7 => decMend w
  | _ => none

/-- Opcodes 0xC0 to 0xC7 stand in matrix streams only (Table 3-9). -/
def isStreamOp (op : Nat) : Bool := 0xC0 ≤ op && op ≤ 0xC7

/-- The opcodes that Table 3-9 assigns to an instruction. -/
def isAssigned (op : Nat) : Bool :=
  op ≤ 0x0E || (0x10 ≤ op && op ≤ 0x26) || (0x28 ≤ op && op ≤ 0x47) || (0x50 ≤ op && op ≤ 0x6A)
    || op == 0x70 || op == 0x71 || (0x78 ≤ op && op ≤ 0x86) || (0x88 ≤ op && op ≤ 0x8B)
    || (0x90 ≤ op && op ≤ 0x95) || (0x98 ≤ op && op ≤ 0x9C) || op == 0xA0 || op == 0xA1
    || isStreamOp op

/-- Decode one 32-bit word (R44, R45, R55), total, refusing by name. -/
def decodeWord (w : Word) : Except DecodeError Instr :=
  let n := w.toNat
  let op := n / 2 ^ 24
  if 0xE0 ≤ op && op ≤ 0xEF then .error (.extension (op - 0xE0))
  else if 0xF0 ≤ op then .error .headerInBody
  else if !isAssigned op then .error .reservedOpcode
  else
    match decodeFields op n with
    | some i => if i.wf then .ok i else .error .badField
    | none => .error .badField

/-- Decode the first word of a byte string; words lie little-endian (R39). -/
def decodeBytes : List Byte → Except DecodeError (Instr × List Byte)
  | b0 :: b1 :: b2 :: b3 :: rest =>
    match decodeWord (b3 ++ b2 ++ b1 ++ b0) with
    | .ok i => .ok (i, rest)
    | .error e => .error e
  | _ => .error .short

/-- The table's view of the decoder: the word w laid out as the hardware stores it, then decoded. -/
def decodeTableWord (_nbits w : Nat) : Option Instr :=
  if w < 2 ^ 32 then
    match decodeBytes [BitVec.ofNat 8 w, BitVec.ofNat 8 (w / 256), BitVec.ofNat 8 (w / 65536),
        BitVec.ofNat 8 (w / 16777216)] with
    | .ok (i, _) => some i
    | .error _ => none
  else none

/-- The instruction word of an instruction, from the same encoding tables; none for a step that
has no encoding. -/
def encode : Instr → Option Nat
  | .nop => some (0)
  | .bra off => some (16777216 + off.val)
  | .brx p c off => some (33554432 + p.val * 2097152 + c.code * 524288 + off.val)
  | .call off => some (50331648 + off.val)
  | .ret => some (67108864)
  | .split p => some (83886080 + p.val * 2097152)
  | .flip => some (100663296)
  | .merge => some (117440512)
  | .prune p => some (134217728 + p.val * 2097152)
  | .exit => some (150994944)
  | .trap imm => some (167772160 + imm.val)
  | .rett a => some (184549376 + a.code)
  | .bkpt tag => some (201326592 + tag.val)
  | .srd d n => some (218103808 + d.code * 131072 + n.val)
  | .swr a n => some (234881024 + (a.val + 104) * 1024 + n.val)
  | .iadd d a b ty => some (268435456 + d.code * 131072 + a.code * 1024 + b.code * 8 + ty.code)
  | .isub d a b ty => some (285212672 + d.code * 131072 + a.code * 1024 + b.code * 8 + ty.code)
  | .imul d a b ty => some (301989888 + d.code * 131072 + a.code * 1024 + b.code * 8 + ty.code)
  | .imulh d a b ty => some (318767104 + d.code * 131072 + a.code * 1024 + b.code * 8 + ty.code)
  | .imad d a b ty => some (335544320 + d.code * 131072 + a.code * 1024 + b.code * 8 + ty.code)
  | .imin d a b ty => some (352321536 + d.code * 131072 + a.code * 1024 + b.code * 8 + ty.code)
  | .imax d a b ty => some (369098752 + d.code * 131072 + a.code * 1024 + b.code * 8 + ty.code)
  | .and d a b ty => some (402653184 + d.code * 131072 + a.code * 1024 + b.code * 8 + ty.code)
  | .or d a b ty => some (419430400 + d.code * 131072 + a.code * 1024 + b.code * 8 + ty.code)
  | .xor d a b ty => some (436207616 + d.code * 131072 + a.code * 1024 + b.code * 8 + ty.code)
  | .shl d a b ty => some (452984832 + d.code * 131072 + a.code * 1024 + b.code * 8 + ty.code)
  | .shr d a b ty => some (469762048 + d.code * 131072 + a.code * 1024 + b.code * 8 + ty.code)
  | .sar d a b ty => some (486539264 + d.code * 131072 + a.code * 1024 + b.code * 8 + ty.code)
  | .bfx d a b ty => some (553648128 + d.code * 131072 + a.code * 1024 + b.code * 8 + ty.code)
  | .bfi d a b ty => some (570425344 + d.code * 131072 + a.code * 1024 + b.code * 8 + ty.code)
  | .lea d a b ty => some (620756992 + d.code * 131072 + a.code * 1024 + b.code * 8 + ty.code)
  | .iabs d a ty => some (385875968 + d.code * 131072 + a.code * 1024 + ty.code)
  | .popc d a ty => some (503316480 + d.code * 131072 + a.code * 1024 + ty.code)
  | .clz d a ty => some (520093696 + d.code * 131072 + a.code * 1024 + ty.code)
  | .brev d a ty => some (536870912 + d.code * 131072 + a.code * 1024 + ty.code)
  | .mov d a ty => some (637534208 + d.code * 131072 + a.code * 1024 + ty.code)
  | .sel d a b p => some (587202560 + d.val * 131072 + a.code * 1024 + b.code * 8 + p.val)
  | .icmp c p a b ty => some (603979776 + c.code * 1048576 + p.val * 131072 + a.code * 1024 + b.code * 8 + ty.code)
  | .iaddImm d a imm => some (671088640 + d.code * 131072 + a.code * 1024 + imm.val)
  | .andImm d a imm => some (687865856 + d.code * 131072 + a.code * 1024 + imm.val)
  | .orImm d a imm => some (704643072 + d.code * 131072 + a.code * 1024 + imm.val)
  | .xorImm d a imm => some (721420288 + d.code * 131072 + a.code * 1024 + imm.val)
  | .shlImm d a count => some (738197504 + d.code * 131072 + a.code * 1024 + count.val)
  | .shrImm d a count => some (738197760 + d.code * 131072 + a.code * 1024 + count.val)
  | .sarImm d a count => some (738198016 + d.code * 131072 + a.code * 1024 + count.val)
  | .icmpImm c p a imm => some (754974720 + c.code * 1048576 + p.val * 131072 + a.code * 1024 + imm.val)
  | .movi d imm => some (771751936 + d.code * 131072 + imm.val)
  | .movu d imm => some (788529152 + d.code * 131072 + imm.val)
  | .fadd d a b ty => some (805306368 + d.val * 131072 + a.code * 1024 + b.code * 8 + ty.code)
  | .fsub d a b ty => some (822083584 + d.val * 131072 + a.code * 1024 + b.code * 8 + ty.code)
  | .fmul d a b ty => some (838860800 + d.val * 131072 + a.code * 1024 + b.code * 8 + ty.code)
  | .ffma d a b ty => some (855638016 + d.val * 131072 + a.code * 1024 + b.code * 8 + ty.code)
  | .fmin d a b ty => some (872415232 + d.val * 131072 + a.code * 1024 + b.code * 8 + ty.code)
  | .fmax d a b ty => some (889192448 + d.val * 131072 + a.code * 1024 + b.code * 8 + ty.code)
  | .fcmp c p a b ty => some (905969664 + c.code * 1048576 + p.val * 131072 + a.code * 1024 + b.code * 8 + ty.code)
  | .frcp d a look ty => some (922746880 + d.val * 131072 + a.code * 1024 + look.val * 8 + ty.code)
  | .frsq d a look ty => some (939524096 + d.val * 131072 + a.code * 1024 + look.val * 8 + ty.code)
  | .fex2 d a look ty => some (956301312 + d.val * 131072 + a.code * 1024 + look.val * 8 + ty.code)
  | .flg2 d a look ty => some (973078528 + d.val * 131072 + a.code * 1024 + look.val * 8 + ty.code)
  | .ftanh d a look ty => some (989855744 + d.val * 131072 + a.code * 1024 + look.val * 8 + ty.code)
  | .cvt d a code m => some (1006632967 + d.val * 131072 + a.code * 1024 + code.val * 32 + m.code * 8)
  | .packmx d a fmt => some (1023410183 + d.val * 131072 + a.code * 1024 + fmt.code * 128)
  | .unpkmx d a fmt => some (1040187399 + d.val * 131072 + a.code * 1024 + fmt.code * 128)
  | .planePack d a => some (1056964615 + d.val * 131072 + a.code * 1024)
  | .planeUnpack d a j => some (1056964743 + d.val * 131072 + a.code * 1024 + j.val * 8)
  | .shfl mode pair d a b => some (1073741824 + mode.code + bitOf pair * 4 + d.val * 131072 + a.code * 1024 + b.code * 8)
  | .vote mode pair p a => some (1090519040 + mode.code * 1048576 + bitOf pair * 2 + p.val * 131072 + a.code * 1024)
  | .matchLanes d p a ty => some (1107296256 + d.val * 131072 + p.val * 128 + a.code * 1024 + ty.code)
  | .tred op ty d a => some (1124073472 + op.code * 8 + ty.code + d.val * 131072 + a.code * 1024)
  | .tscan op excl ty d a => some (1140850688 + op.code * 8 + bitOf excl * 32 + ty.code + d.val * 131072 + a.code * 1024)
  | .plog op pd pa pb => some (1157627911 + op.code * 1048576 + pd.val * 131072 + pa.val * 1024 + pb.val * 8)
  | .pcnt d p => some (1174405127 + d.code * 131072 + p.val * 1024)
  | .pmovToVector d p => some (1191182343 + d.val * 131072 + p.val * 1024)
  | .pmovToPredicate p a => some (1191182599 + p.val * 131072 + a.code * 1024)
  | .pmovWord d p w => some (1191182855 + (d.val + 104) * 131072 + p.val * 1024 + w.val * 8)
  | .ldB t m look => some (1342177280 + t.code * 131072 + m.code + look.val * 2)
  | .ldH t m look => some (1358954496 + t.code * 131072 + m.code + look.val * 2)
  | .ldW t m look => some (1375731712 + t.code * 131072 + m.code + look.val * 2)
  | .ldD t m look => some (1392508928 + t.code * 131072 + m.code + look.val * 2)
  | .ldQ t m look => some (1409286144 + t.val * 131072 + m.code + look.val * 2)
  | .stB t m look => some (1426063360 + t.code * 131072 + m.code + look.val * 2)
  | .stH t m look => some (1442840576 + t.code * 131072 + m.code + look.val * 2)
  | .stW t m look => some (1459617792 + t.code * 131072 + m.code + look.val * 2)
  | .stD t m look => some (1476395008 + t.code * 131072 + m.code + look.val * 2)
  | .stQ t m look => some (1493172224 + t.val * 131072 + m.code + look.val * 2)
  | .ldlW t m look => some (1509949440 + t.val * 131072 + m.code + look.val * 2)
  | .ldlQ t m look => some (1526726656 + t.val * 131072 + m.code + look.val * 2)
  | .stlW t m look => some (1543503872 + t.val * 131072 + m.code + look.val * 2)
  | .stlQ t m look => some (1560281088 + t.val * 131072 + m.code + look.val * 2)
  | .ldu t m look => some (1610612736 + t.code * 131072 + m.code + look.val * 2)
  | .stu t m look => some (1627389952 + t.code * 131072 + m.code + look.val * 2)
  | .ldcW t m c => some (1577058304 + t.val * 131072 + m.code + c.val * 2)
  | .ldcQ t m c => some (1593835520 + t.val * 131072 + m.code + c.val * 2)
  | .ldAcq t m sc d => some (1644167168 + t.code * 131072 + m.code + sc.code * 4 + bitOf d * 2)
  | .stRel t m sc d => some (1660944384 + t.code * 131072 + m.code + sc.code * 4 + bitOf d * 2)
  | .atom op t m => some (1677721600 + op.code * 2 + t.val * 131072 + m.code)
  | .red op t m => some (1694498816 + op.code * 2 + t.val * 131072 + m.code)
  | .atoml op t m => some (1711276032 + op.code * 2 + t.val * 131072 + m.code)
  | .fence sc acq rel => some (1728053248 + sc.code * 4 + bitOf acq * 2 + bitOf rel)
  | .waitv ne sc t m => some (1744830464 + bitOf ne * 2 + sc.code * 4 + t.val * 131072 + m.code)
  | .await a v => some (1761607680 + a.val + v.code)
  | .aset a v => some (1778384896 + a.val + v.code)
  | .xfer chan tmpl f => some (1879048192 + chan.val * 4194304 + tmpl.val * 512 + f.code * 32)
  | .xferReg chan s f => some (1881145344 + chan.val * 4194304 + s.val + f.code * 32)
  | .xptr sd sa acq sc => some (1895825408 + sd.val * 524288 + sa.val * 16384 + bitOf acq * 8 + sc.code)
  | .rowcpy sd sa sc f => some (2013265920 + sd.val * 524288 + sa.val * 16384 + sc.val * 16 + f.code)
  | .rowfil sd sa sc f => some (2030043136 + sd.val * 524288 + sa.val * 16384 + sc.val * 16 + f.code)
  | .rownot sd sa sc f => some (2080374784 + sd.val * 524288 + sa.val * 16384 + sc.val * 16 + f.code)
  | .rowand sd sa sb sc f => some (2046820352 + sd.val * 524288 + sa.val * 16384 + sb.val * 512 + sc.val * 16 + f.code)
  | .rowor sd sa sb sc f => some (2063597568 + sd.val * 524288 + sa.val * 16384 + sb.val * 512 + sc.val * 16 + f.code)
  | .rowmaj sd sa sb sc f => some (2097152000 + sd.val * 524288 + sa.val * 16384 + sb.val * 512 + sc.val * 16 + f.code)
  | .rowxor sd sa sb sc f => some (2113929216 + sd.val * 524288 + sa.val * 16384 + sb.val * 512 + sc.val * 16 + f.code)
  | .rowstat sd acq sc => some (2130706432 + sd.val * 524288 + bitOf acq * 8 + sc.code)
  | .rowstatPoll sd acq sc => some (2130722816 + sd.val * 524288 + bitOf acq * 8 + sc.code)
  | .capt kd se sm => some (2147483648 + kd.val * 2097152 + se.val * 65536 + sm.val * 2048)
  | .captRef kd se sm => some (2147484672 + kd.val * 2097152 + se.val * 65536 + sm.val * 2048)
  | .captLane se sm => some (2147484160 + se.val * 65536 + sm.val * 2048)
  | .apply kd => some (2164260864 + kd.val * 2097152)
  | .applyLane vh => some (2164261376 + vh.val * 2048)
  | .kdup kd ks => some (2181038080 + kd.val * 2097152 + ks.val * 65536)
  | .kdrop kd => some (2197815296 + kd.val * 2097152)
  | .kld kd se => some (2214592512 + kd.val * 2097152 + se.val * 65536)
  | .kst kd se => some (2231369728 + kd.val * 2097152 + se.val * 65536)
  | .kqry kd se => some (2248146944 + kd.val * 2097152 + se.val * 65536)
  | .tarm sa sb k st => some (2281701376 + sa.val * 524288 + sb.val * 16384 + k.val * 32 + st.val)
  | .tsig sa st => some (2298478592 + sa.val * 524288 + st.val)
  | .qapply sa k st => some (2315255808 + sa.val * 524288 + k.val * 64 + st.val)
  | .qapplyLane sa vh st => some (2315264000 + sa.val * 524288 + vh.val * 64 + st.val)
  | .launch sa sb st => some (2332033024 + sa.val * 524288 + sb.val * 16384 + st.val)
  | .join sa w st => some (2415919104 + sa.val * 524288 + w.val * 32 + st.val)
  | .leave => some (2432696320)
  | .barv b => some (2449473536 + b.val)
  | .bara b => some (2466250752 + b.val)
  | .barw b => some (2483027968 + b.val)
  | .cohq sd b => some (2499805184 + sd.val * 16384 + b.val)
  | .bdeclList sl sh prio st => some (2550136832 + sl.val * 524288 + sh.val * 16384 + prio.val * 32 + st.val)
  | .bdeclRec sl sh prio st => some (2550137088 + sl.val * 524288 + sh.val * 16384 + prio.val * 32 + st.val)
  | .benter sh st mode n1 => some (2566914048 + sh.val * 524288 + st.val * 16384 + mode.code * 4 + n1.val)
  | .bexit sh st => some (2583691264 + sh.val * 524288 + st.val * 16384)
  | .bdrop sh st => some (2600468480 + sh.val * 524288 + st.val * 16384)
  | .bqry sh sd => some (2617245696 + sh.val * 524288 + sd.val * 16384)
  | .matt sa sb st => some (2684354560 + sa.val * 524288 + sb.val * 16384 + st.val)
  | .mdet st => some (2701131776 + st.val)
  | .mwb slot rec idx => some (3221225472 + slot.val * 65536 + rec.val * 256 + idx.val)
  | .mlw slot => some (3238002688 + slot.val * 65536)
  | .mma tile stamp rec slot m1 => some (3254779904 + bitOf tile * 32768 + bitOf stamp * 16384 + rec.val * 65536 + slot.val * 512 + m1.val)
  | .msta fmt ieee tile rec => some (3271557120 + fmt.code * 1024 + bitOf ieee * 16384 + bitOf tile * 32768 + rec.val * 65536)
  | .mclr tile int => some (3288334336 + bitOf tile * 65536 + bitOf int * 256)
  | .mfmt f j srec => some (3305111552 + f.code * 65536 + j.val * 256 + srec.val)
  | .mbar b op => some (3321888768 + b.val * 65536 + op.val * 256)
  | .mend => some (3338665984)
  | _ => none

/-- The 32-bit word that stands for i: its encoding, or the offending word itself. -/
def Instr.word (i : Instr) : Word :=
  match i with
  | .illegalInstructionWord w => w
  | _ => BitVec.ofNat 32 ((encode i).getD 0)

end Sys2Proof
end

