-- ==== Sys2Proof/Machine/Operands.lean ====
section
/-! DEFINITION. Operand forms: how a word's register fields read and write a team's registers (R46 to
R48, R62, R68, R80), which registers it names, and the checks found at decode (R44). -/

namespace Sys2Proof

/-! ### What a word names -/

/-- Width in bits of an integer type, and whether it is signed (Table 3-5). -/
def IntTy.is64 : IntTy → Bool
  | .s64 | .u64 => true
  | _ => false

def IntTy.signed : IntTy → Bool
  | .s32 | .s64 => true
  | _ => false

/-- Registers that a field of w registers names: the number and w (R48, R167). -/
def vf (w : Nat) : Reg → List (Nat × Nat)
  | .v n => [(n.val, w)]
  | .s _ => []

def sf : Reg → List Nat
  | .v _ => []
  | .s n => [n.val]

def wd (ty : IntTy) : Nat := if ty.is64 then 2 else 1

/-- Registers of a memory operand (R49). -/
def MemOp.vr (m : MemOp) : List (Nat × Nat) := vf (if m.w then 2 else 1) m.x
def MemOp.sr (m : MemOp) : List Nat :=
  sf m.x ++ (match m.s with | .s n => [n.val] | .zero => [])

/-- Registers that an atomic's t names (Table 9-2, R167). -/
def atomWidth : AtomOp → Nat
  | .add64 | .exch64 | .cas => 2
  | .cas64 => 4
  | _ => 1

/-- Special registers of 64 bits (Table 3-10). -/
def srWide (n : Nat) : Bool := n == 5 || n == 9 || n == 10

/-- Vector registers that a word names, each with the number of consecutive registers, which is also the
alignment (R48). -/
def Instr.vregs : Instr → List (Nat × Nat)
  | .srd d n => vf (if srWide n.val then 2 else 1) d
  | .iadd d a b ty | .isub d a b ty | .imul d a b ty | .imulh d a b ty | .imad d a b ty
  | .imin d a b ty | .imax d a b ty | .and d a b ty | .or d a b ty | .xor d a b ty
  | .shl d a b ty | .shr d a b ty | .sar d a b ty | .bfx d a b ty | .bfi d a b ty =>
    vf (wd ty) d ++ vf (wd ty) a ++ vf (wd ty) b
  | .iabs d a ty | .popc d a ty | .clz d a ty | .brev d a ty | .mov d a ty => vf (wd ty) d ++ vf (wd ty) a
  | .sel d a b _ => (d.val, 1) :: (vf 1 a ++ vf 1 b)
  | .icmp _ _ a b ty => vf (wd ty) a ++ vf (wd ty) b
  | .lea d a b ty => vf 2 d ++ vf 2 a ++ vf (wd ty) b
  | .iaddImm d a _ | .andImm d a _ | .orImm d a _ | .xorImm d a _ | .shlImm d a _ | .shrImm d a _
  | .sarImm d a _ => vf 1 d ++ vf 1 a
  | .icmpImm _ _ a _ => vf 1 a
  | .movi d _ | .movu d _ => vf 1 d
  | .fadd d a b _ | .fsub d a b _ | .fmul d a b _ | .ffma d a b _ => (d.val, 1) :: (vf 1 a ++ vf 1 b)
  | .fmin d a b _ | .fmax d a b _ => (d.val, 1) :: (vf 1 a ++ vf 1 b)
  | .fcmp _ _ a b _ => vf 1 a ++ vf 1 b
  | .frcp d a _ _ | .frsq d a _ _ | .fex2 d a _ _ | .flg2 d a _ _ | .ftanh d a _ _ =>
    (d.val, 1) :: vf 1 a
  | .cvt d a code _ =>
    (d.val, if code.val == 4 || code.val == 5 then 2 else 1) ::
      vf (if code.val == 6 || code.val == 7 then 2 else 1) a
  | .packmx d a _ | .unpkmx d a _ | .planePack d a | .planeUnpack d a _ => (d.val, 1) :: vf 1 a
  | .shfl _ pair d a b => (d.val, if pair then 2 else 1) :: (vf (if pair then 2 else 1) a ++ vf 1 b)
  | .vote _ pair _ a => vf (if pair then 2 else 1) a
  | .matchLanes d _ a ty => (d.val, 1) :: vf (wd ty) a
  | .tred _ ty d a | .tscan _ _ ty d a =>
    let w := match ty with | .int t => wd t | .flt _ => 1
    (d.val, w) :: vf w a
  | .pcnt d _ => vf 1 d
  | .pmovToVector d _ => [(d.val, 1)]
  | .pmovToPredicate _ a => vf 1 a
  | .ldB t m _ | .ldH t m _ | .ldW t m _ | .stB t m _ | .stH t m _ | .stW t m _ | .ldu t m _
  | .stu t m _ => vf 1 t ++ m.vr
  | .ldD t m _ | .stD t m _ => vf 2 t ++ m.vr
  | .ldQ t m _ | .stQ t m _ | .ldlQ t m _ | .stlQ t m _ | .ldcQ t m _ => (t.val, 4) :: m.vr
  | .ldlW t m _ | .stlW t m _ | .ldcW t m _ => (t.val, 1) :: m.vr
  | .ldAcq t m _ d | .stRel t m _ d => vf (if d then 2 else 1) t ++ m.vr
  | .atom op t m | .red op t m | .atoml op t m => (t.val, atomWidth op) :: m.vr
  | .waitv _ _ t m => (t.val, 1) :: m.vr
  | .applyLane vh | .qapplyLane _ vh _ => [(vh.val, 2)]
  | _ => []

/-- Scalar registers that a word names. -/
def Instr.sregs : Instr → List Nat
  | .srd d _ => sf d
  | .swr a _ => [a.val]
  | .iadd d a b _ | .isub d a b _ | .imul d a b _ | .imulh d a b _ | .imad d a b _
  | .imin d a b _ | .imax d a b _ | .and d a b _ | .or d a b _ | .xor d a b _
  | .shl d a b _ | .shr d a b _ | .sar d a b _ | .bfx d a b _ | .bfi d a b _
  | .lea d a b _ => sf d ++ sf a ++ sf b
  | .iabs d a _ | .popc d a _ | .clz d a _ | .brev d a _ | .mov d a _ => sf d ++ sf a
  | .sel _ a b _ | .icmp _ _ a b _ | .fcmp _ _ a b _ => sf a ++ sf b
  | .iaddImm d a _ | .andImm d a _ | .orImm d a _ | .xorImm d a _ | .shlImm d a _ | .shrImm d a _
  | .sarImm d a _ => sf d ++ sf a
  | .icmpImm _ _ a _ => sf a
  | .movi d _ | .movu d _ => sf d
  | .fadd _ a b _ | .fsub _ a b _ | .fmul _ a b _ | .ffma _ a b _ => sf a ++ sf b
  | .fmin _ a b _ | .fmax _ a b _ | .shfl _ _ _ a b => sf a ++ sf b
  | .frcp _ a _ _ | .frsq _ a _ _ | .fex2 _ a _ _ | .flg2 _ a _ _ | .ftanh _ a _ _ | .cvt _ a _ _
  | .packmx _ a _ | .unpkmx _ a _ | .planePack _ a | .planeUnpack _ a _ | .vote _ _ _ a
  | .matchLanes _ _ a _ | .tred _ _ _ a | .tscan _ _ _ _ a | .pmovToPredicate _ a => sf a
  | .pcnt d _ => sf d
  | .pmovWord d _ _ => [d.val]
  | .ldB t m _ | .ldH t m _ | .ldW t m _ | .ldD t m _ | .stB t m _ | .stH t m _ | .stW t m _
  | .stD t m _ | .ldu t m _ | .stu t m _ | .ldAcq t m _ _ | .stRel t m _ _ => sf t ++ m.sr
  | .ldQ _ m _ | .stQ _ m _ | .ldlW _ m _ | .ldlQ _ m _ | .stlW _ m _ | .stlQ _ m _ | .ldcW _ m _
  | .ldcQ _ m _ | .atom _ _ m | .red _ _ m | .atoml _ _ m | .waitv _ _ _ m => m.sr
  | .await _ (.s n) | .aset _ (.s n) => [n.val]
  | .call _ => [23]
  | .xferReg _ s _ => [s.val]
  | .xptr sd sa _ _ => [sd.val, sa.val]
  | .rowcpy sd sa sc _ | .rowfil sd sa sc _ | .rownot sd sa sc _ => [sd.val, sa.val, sc.val]
  | .rowand sd sa sb sc _ | .rowor sd sa sb sc _ | .rowxor sd sa sb sc _ =>
    [sd.val, sa.val, sb.val, sc.val]
  | .rowmaj sd sa sb sc _ => [sd.val, sa.val, sb.val, sb.val + 1, sc.val]
  | .rowstat sd _ _ | .rowstatPoll sd _ _ => [sd.val]
  | .capt _ se sm | .captRef _ se sm | .captLane se sm => [se.val, sm.val]
  | .kld _ se | .kst _ se | .kqry _ se => [se.val]
  | .tarm sa sb _ st => [sa.val, sb.val, st.val]
  | .tsig sa st | .qapply sa _ st | .qapplyLane sa _ st => [sa.val, st.val]
  | .launch sa sb st => [sa.val, sb.val, st.val]
  | .join sa _ st => [sa.val, st.val]
  | .cohq sd _ => [sd.val]
  | .bdeclList sl sh _ st | .bdeclRec sl sh _ st => [sl.val, sh.val, st.val]
  | .benter sh st _ n1 => st.val :: (List.range (n1.val + 1)).map (sh.val + ·)
  | .bexit sh st | .bdrop sh st => [sh.val, st.val]
  | .bqry sh sd => [sh.val, sd.val]
  | .matt sa sb st => [sa.val, sb.val, st.val]
  | .mdet st => [st.val]
  | _ => []

/-- Words that run once, in the first pass, and need a converged team (R47, R62, R63, R365, R386, R389,
R405, R406). -/
def Instr.scalarPipe : Instr → Bool
  | .srd d _ | .movi d _ | .movu d _ | .pcnt d _ => d.isScalar
  | .swr _ _ | .pmovWord _ _ _ => true
  | .iadd d _ _ _ | .isub d _ _ _ | .imul d _ _ _ | .imulh d _ _ _ | .imad d _ _ _
  | .imin d _ _ _ | .imax d _ _ _ | .and d _ _ _ | .or d _ _ _ | .xor d _ _ _
  | .shl d _ _ _ | .shr d _ _ _ | .sar d _ _ _ | .bfx d _ _ _ | .bfi d _ _ _
  | .lea d _ _ _ | .iabs d _ _ | .popc d _ _ | .clz d _ _ | .brev d _ _ | .mov d _ _
  | .iaddImm d _ _ | .andImm d _ _ | .orImm d _ _ | .xorImm d _ _ | .shlImm d _ _ | .shrImm d _ _
  | .sarImm d _ _ => d.isScalar
  | .ldB t _ _ | .ldH t _ _ | .ldW t _ _ | .ldD t _ _ | .stB t _ _ | .stH t _ _ | .stW t _ _
  | .stD t _ _ | .ldu t _ _ | .stu t _ _ | .ldAcq t _ _ _ | .stRel t _ _ _ => t.isScalar
  | _ => false

/-- Words that run once, in the first pass of a pass-major clause (R42, R62, R331, R417). -/
def Instr.once : Instr → Bool
  | .aset _ _ | .await _ _ | .waitv _ _ _ _ => true
  | i => i.scalarPipe

/-- The opcode of a word. -/
def Instr.opcode (i : Instr) : Nat := i.word.toNat / 2 ^ 24

/-- Words that need the team converged (R63): scalar-pipe words, and every word of classes 3 and 5 but
NOP (R383), CAPT.lane, APPLY.lane and QAPPLY.lane. -/
def Instr.converged (i : Instr) : Bool :=
  match i with
  | .captLane _ _ | .applyLane _ | .qapplyLane _ _ _ | .illegalInstructionWord _ => false
  | i => i.scalarPipe || (0x70 ≤ i.opcode && i.opcode ≤ 0xA1)

end Sys2Proof

namespace Sys2Proof.Machine


/-! ### Registers of a team -/

/-- The scalar file that a word reads: in a later pass of a pass-major clause, the file as the word found
it in the first pass (R62). -/
def Team.scalars (t : Team) : Sparse DWord :=
  match t.clause with
  | some c => if c.first then t.s else (sfind c.snaps c.idx).getD t.s
  | none => t.s

/-- S[n] as the word reads it. -/
def Team.sread (t : Team) (n : Nat) : DWord := sget 0 t.scalars n

/-- S[n] := x. -/
def Team.swrite (t : Team) (n : Nat) (x : DWord) : Team := { t with s := sset 0 t.s n x }

/-- Predicate p as a mask: p7 reads as the full mask (R80). -/
def Team.pread (t : Team) (p : Nat) : Mask := if p == 7 then t.full else sget 0 t.p p

/-- Write the bits of the given lanes of predicate p; p7 ignores writes (R80). -/
def Team.pwrite (t : Team) (p : Nat) (lanes : List Nat) (f : Nat → Bool) : Team :=
  if p == 7 then t
  else { t with p := sset 0 t.p p (lanes.foldl (fun m l => setLane m l (f l)) (sget 0 t.p p)) }

def Team.kread (t : Team) (k : Nat) : DWord := sget 0 t.k k
def Team.kwrite (t : Team) (k : Nat) (h : DWord) : Team := { t with k := sset 0 t.k k h }
def Team.aread (t : Team) (a : Nat) : BitVec 16 := sget 0 t.a a
def Team.awrite (t : Team) (a : Nat) (x : BitVec 16) : Team := { t with a := sset 0 t.a a x }

/-- Lane l of vector register v under the frame shift (R68). -/
def Team.lane (t : Team) (v l : Nat) : Word := t.vget (t.frame + v) l

/-- The pair v, v + 1 in lane l (R48). -/
def Team.lane64 (t : Team) (v l : Nat) : DWord := pair64 (t.lane v l) (t.lane (v + 1) l)

def Team.setLane32 (t : Team) (v l : Nat) (x : Word) : Team := t.vset (t.frame + v) l x

def Team.setLane64 (t : Team) (v l : Nat) (x : DWord) : Team :=
  (t.vset (t.frame + v) l (lo32 x)).vset (t.frame + v + 1) l (hi32 x)

/-- Src(r, l) at 32 bits: a scalar supplies its low half to every lane (R47, R327). -/
def Team.src (t : Team) (r : Reg) (l : Nat) : Word :=
  match r with
  | .v n => t.lane n.val l
  | .s n => lo32 (t.sread n.val)

/-- Src(r, l) at 64 bits (R327). -/
def Team.src64 (t : Team) (r : Reg) (l : Nat) : DWord :=
  match r with
  | .v n => t.lane64 n.val l
  | .s n => t.sread n.val

/-- The opcodes a clause class admits (Table 3-2). -/
def admits (cls : Nat) (i : Instr) : Bool :=
  let op := i.opcode
  op == 0 ||
    match cls with
    | 0 => op == 0x0D || op == 0x0E || (0x10 ≤ op && op ≤ 0x3F)
    | 1 => op == 0x0D || op == 0x0E || (0x10 ≤ op && op ≤ 0x47)
    | 2 => 0x50 ≤ op && op ≤ 0x6A
    | 3 => 0x70 ≤ op && op ≤ 0x7F
    | 4 => op ≤ 0x0C
    | 5 => (0x80 ≤ op && op ≤ 0x8B) || (0x90 ≤ op && op ≤ 0xA1)
    | _ => false

/-- A field of w registers starting at n names registers the team has, aligned (R46, R48, R68). -/
def Team.fits (t : Team) (r : Nat × Nat) : Bool := r.1 % r.2 == 0 && r.1 + r.2 ≤ t.nreg - t.frame

/-- The trap found at decode or at issue before a word has any effect, in the order of R44: SWR outside a
handler (R57), illegal register, scalar divergence. The word's own fields were checked by the decoder. -/
def staticTrap (i : Instr) (t : Team) : Option Nat :=
  if (match i with | .swr _ _ => !t.inHandler | _ => false) then some 1
  else if !(i.vregs.all t.fits) then some 2
  else if i.converged && t.active != t.full then some 4
  else none

/-- The trap of a word that is no team instruction of its clause (R44 items 2 and 3, R55): extension
opcodes take the emulation trap, every other word illegal-instruction. -/
def wordTrap (w : Word) : Nat :=
  let op := w.toNat / 2 ^ 24
  if 0xE0 ≤ op && op ≤ 0xEF then 3 else 1

/-- The instruction that a clause word stands for (R44): a word that decodes to none, a stream word, or a
word that its class does not admit is the illegal-instruction step. -/
def clauseInstr (cls : Nat) (w : Word) : Instr :=
  match decodeWord w with
  | .ok i => if admits cls i then i else .illegalInstructionWord w
  | .error _ => .illegalInstructionWord w

/-- A word of a clause that traps at decode (R44). -/
def decodeTraps (cls : Nat) (t : Team) (w : Word) : Bool :=
  match clauseInstr cls w with
  | .illegalInstructionWord _ => true
  | i => (staticTrap i t).isSome

end Sys2Proof.Machine
end

