-- ==== Sys2Proof/Machine/Teams.lean ====
section
/-! DEFINITION. The named operations over one team: where it stands in its clause, its pending results,
its masks, its call stack, its local memory (spec 03, 04, 05). -/

namespace Sys2Proof.Machine

/-! ### The team table -/

def State.getTeam (s : State) (u : Nat) : Team := (sfind s.teams u).getD .blank
def State.setTeam (s : State) (u : Nat) (t : Team) : State := { s with teams := sput s.teams u t }

/-- The team that issues. -/
def State.tm (s : State) : Team := s.getTeam s.cur
def State.setTm (s : State) (t : Team) : State := s.setTeam s.cur t
def State.modTm (s : State) (f : Team → Team) : State := s.setTm (f s.tm)
def State.modTeam (s : State) (u : Nat) (f : Team → Team) : State := s.setTeam u (f (s.getTeam u))

/-- Act as team u, then give the turn back. -/
def onTeam (u : Nat) (f : State → State) (s : State) : State :=
  { f { s with cur := u } with cur := s.cur }

/-! ### Passes (R42, R61) -/

def Team.cls4 (t : Team) : Nat := match t.clause with | some c => c.cls | none => 4

/-- Classes 0 and 2 run pass by pass. -/
def Team.passMajor (t : Team) : Bool := t.cls4 == 0 || t.cls4 == 2

/-- The mask word of the current pass. -/
def Team.pass (t : Team) : Nat := match t.clause with | some c => c.passes.headD 0 | none => 0

/-- The word stands in a later pass of a pass-major clause. -/
def Team.laterPass (t : Team) : Bool :=
  t.passMajor && (match t.clause with | some c => !c.first | none => false)

/-- The active lanes, or those still to be replayed (R89). -/
def Team.acting (t : Team) : Mask := match t.only with | some o => t.active &&& o | none => t.active

/-- The lanes on which the current word acts, ascending: those of the pass in a pass-major clause, every
active lane otherwise (R42, R59). -/
def Team.wordLanes (t : Team) : List Nat :=
  if t.passMajor then lanesOfWord t.acting t.pass else lanesOf t.acting

/-! ### Pending results (R52 to R54) -/

/-- ROWSTAT's word (Table 11-5): outstanding, completed and the status bits. -/
def rowStatus (out done : Nat) (bits : BitVec 8) : DWord :=
  BitVec.ofNat 64 (out % 2 ^ 16 * 2 ^ 48 + done % 2 ^ 16 * 2 ^ 32 + bits.toNat)

/-- OR flags into FPFLAGS (R92). -/
def Team.orFlags (t : Team) (f : Flags) : Team := { t with fpflags := t.fpflags ||| f.setWidth 32 }

/-- Write results to vector registers, by key. -/
def Team.putVals (t : Team) (vs : List (Nat × Word)) : Team :=
  { t with v := vs.foldl (fun m e => sset 0 m e.1 e.2) t.v }

def Team.putSvals (t : Team) (vs : List (Nat × DWord)) : Team :=
  { t with s := vs.foldl (fun m e => sset 0 m e.1 e.2) t.s }

/-- One result commits (R53): its values and flags; an LDC whose pass is complete adds one arrival
(R330); a waiting ROWSTAT reports and clears what has accumulated (R227, R399). -/
def Team.commitOne (t : Team) (p : Pending) : Team :=
  let t := ((t.putVals p.vals).putSvals p.svals).orFlags p.flags
  match p.kind with
  | .ldc c => if p.more then t else t.awrite c (t.aread c + 1)
  | .rowWait d _ _ =>
    { t.swrite d (rowStatus t.rowOut t.rowDone t.rowBits) with rowDone := 0, rowBits := 0 }
  | _ => t

/-- A result that cannot commit yet: a ROWSTAT whose commands run, or a load that is to be made again (R276). -/
def Pending.blocked (p : Pending) : Bool :=
  !p.lost.isEmpty ||
  match p.kind with
  | .rowWait _ _ _ => !p.arrived
  | _ => false

/-- What stays of a result after its values have committed: an LDC with lanes to replay. -/
def Pending.rest (p : Pending) : Option Pending :=
  match p.kind with
  | .ldc _ => if p.more then some { p with vals := [], svals := [], flags := 0 } else none
  | _ => none

/-- A result's destination registers: team register numbers of vector registers. -/
def Pending.regs (p : Pending) : List Nat := distinct (p.vals.map (·.1 / 1024))
def Pending.sregs (p : Pending) : List Nat :=
  p.svals.map (·.1) ++ (match p.kind with | .rowWait d _ _ => [d] | _ => [])

/-- A wait for row commands. -/
def Pending.isRowWait (p : Pending) : Bool := match p.kind with | .rowWait _ _ _ => true | _ => false

/-- The scope of the acquire that a wait for row commands will be, while they run (R176). -/
def Pending.acquires (p : Pending) : Option EScope :=
  match p.kind with | .rowWait _ _ a => if p.arrived then none else a | _ => none

/-- The team's accesses wait for such an acquire (R177, R184 note 6). -/
def Team.awaitsRows (t : Team) : Bool := t.pending.any fun p => p.acquires.isSome

/-- Two results with a common destination. Two waits for row commands share the team's counts, which the first clears
before the second reads them (R227). -/
def Pending.overlaps (p q : Pending) : Bool :=
  (p.isRowWait && q.isRowWait) ||
  (p.vals.any fun e => q.vals.any fun f => e.1 == f.1) || (p.sregs.any fun n => q.sregs.contains n)

/-- The results that f picks, and with each the earlier ones to its registers, which must commit before it (R53; log
entry 86). -/
def pickDue (f : Pending → Bool) : List Pending → List (Pending × Bool)
  | [] => []
  | p :: r =>
    let rest := pickDue f r
    (p, f p || rest.any fun q => q.2 && p.overlaps q.1) :: rest

/-- The lines of a result that are on their way from an expander (R276). -/
def Pending.onWay (p : Pending) : List Nat := if p.arrived then [] else p.port.map fun e => lineOf e.2

/-- Some lines have come: they are on their way for no result of the team any more. -/
def Team.came (t : Team) (lines : List Nat) : Team :=
  if lines.isEmpty then t
  else { t with pending := t.pending.map fun p => { p with port := p.port.filter fun e => !lines.contains (lineOf e.2) } }

/-- Commit the results that f picks, in issue order; a blocked result keeps its place, and so does a later one to its
registers. -/
def Team.commitWhere (t : Team) (f : Pending → Bool) : Team :=
  let r := (pickDue f t.pending).foldl (init := (t, ([] : List Pending), ([] : List Nat))) fun acc p =>
    if p.2 && !p.1.blocked && !(acc.2.1.any fun q => q.overlaps p.1) then
      (acc.1.commitOne p.1, acc.2.1 ++ p.1.rest.toList, acc.2.2 ++ p.1.onWay)
    else (acc.1, acc.2.1 ++ [p.1], acc.2.2)
  { r.1 with pending := r.2.1 }.came r.2.2

/-- A load of the team has not been performed yet: its data is on its way from an expander, or is to be read again
(R276; log entry 109). -/
def Pending.unread (p : Pending) : Bool := !p.lost.isEmpty || !p.onWay.isEmpty
def Team.unread (t : Team) : Bool := t.pending.any Pending.unread

/-- The same for a load of one of some bytes; one that is to be read again stands before every later write (R184
note 1). -/
def Team.unreadAt (t : Team) (pas : List Nat) : Bool :=
  t.pending.any fun p => !p.lost.isEmpty || (!p.arrived && p.port.any fun e => pas.contains e.2)

/-- Every open span ends (R54, R281). -/
def Team.commitAll (t : Team) : Team := t.commitWhere fun _ => true

/-- Some result cannot commit yet. -/
def Team.blocked (t : Team) : Bool := t.pending.any Pending.blocked

/-- The word touches the result: a register of the result in the lanes' pass, or a scalar of it (R53).
LDC destinations hold no word back (R370). -/
def Pending.touched (p : Pending) (vr : List Nat) (sr : List Nat) (pass : Option Nat) : Bool :=
  (match p.kind with | .ldc _ => false | _ => true) &&
    ((p.sregs.any fun n => sr.contains n) ||
      ((pass.isNone || pass == some p.pass) && p.regs.any fun g => vr.contains g))

/-- How many results, from the first issued, must commit before a word that touches the given registers
issues: up to the last touched result whose span has ended. -/
def Team.mustCommit (t : Team) (vr : List Nat) (sr : List Nat) (pass : Option Nat) : Nat :=
  (t.pending.zipIdx.filterMap fun e =>
    if e.1.span == 0 && e.1.touched vr sr pass then some (e.2 + 1) else none).foldl max 0

/-- Before a word issues: the touched results whose span has ended commit, and with them every earlier
result to the same registers (R53, log entry 14). none when one of them is blocked. -/
def Team.settle (t : Team) (vr : List Nat) (sr : List Nat) (pass : Option Nat) : Option Team :=
  let n := t.mustCommit vr sr pass
  if n == 0 then some t
  else
    let due := fun p : Pending => p.span == 0 && p.touched vr sr pass
    if (pickDue due (t.pending.take n)).any fun p => p.2 && p.1.blocked then none
    else
      let t' := { t with pending := t.pending.take n }.commitWhere due
      some { t' with pending := t'.pending ++ t.pending.drop n }

/-- Vector registers of a word as team register numbers. -/
def touchedRegs (t : Team) (i : Instr) : List Nat :=
  i.vregs.flatMap fun r => (List.range r.2).map fun k => t.frame + r.1 + k

/-- A word has executed in the current pass: the spans that count it shrink (R52; log entry 15), those of its own
results apart. -/
def Team.countSpan (t : Team) : Team :=
  let counts := fun p : Pending =>
    !p.more && (!t.passMajor || p.pass == t.pass ||
      (match t.clause with | some c => c.first && !c.all.contains p.pass | none => true))
  { t with pending := t.pending.map fun p => if counts p then { p with span := p.span - 1 } else p }

/-- Results of a long-latency word, one entry for each pass (R52); values by lane. On a replay after a fault they
commit at once (R54). -/
def Team.pend (t : Team) (kind : PendKind) (span : Nat) (res : List (Nat × List (Nat × Word)))
    (flags : Nat → Flags) (eas : List (Nat × DWord × Nat)) : Team :=
  let passes := distinct (res.map fun r => r.1 / 32)
  let mk := fun q =>
    let mine := res.filter fun r => r.1 / 32 == q
    { src := t.pc, frame := t.frame, pass := q, span := span, kind := kind, arrived := false, more := false,
      vals := mine.flatMap fun r => r.2.map fun e => (vkey e.1 r.1, e.2), svals := [],
      flags := flags q, eas := eas.filter fun e => e.1 / 32 == q
      port := t.atPort.filter fun e => e.1 / 32 == q, lost := [], dead := none, home := false : Pending }
  if t.held.isSome then (passes.foldl (fun t q => t.commitOne (mk q)) t).came (passes.flatMap fun q => (mk q).onWay)
  else { t with pending := t.pending ++ passes.map mk }

/-- The result of a long-latency word in a scalar. -/
def Team.pendS (t : Team) (kind : PendKind) (span : Nat) (d : Nat) (x : DWord)
    (eas : List (Nat × DWord × Nat)) : Team :=
  let p : Pending :=
    { src := t.pc, frame := t.frame, pass := t.pass, span := span, kind := kind, arrived := false, more := false,
      vals := [], svals := [(d, x)], flags := 0, eas := eas, port := t.atPort, lost := [], dead := none, home := false }
  if t.held.isSome then (t.commitOne p).came p.onWay else { t with pending := t.pending ++ [p] }

/-- A result whose spans are not to be counted yet, since its word has lanes to do; an LDC keeps its own account of them
(R330, R369). -/
def Pending.setMore (b : Bool) (p : Pending) : Pending := match p.kind with | .ldc _ => p | _ => { p with more := b }

/-- A long-latency word has done what it can for now, and f adds its results. Complete, it counts in the open spans of
earlier words, once (R52, R53), and its own spans open; with lanes to do it counts, and its spans open, when they are done.
A replay after a fault counts no more, for the spans have ended (R54). -/
def Team.results (t : Team) (complete : Bool) (f : Team → Team) : Team :=
  if complete then
    let t := if t.held.isNone then t.countSpan else t
    { f { t with pending := t.pending.map (Pending.setMore false) } with atPort := [] }
  else
    let n := t.pending.length
    let t := f t
    { t with
      atPort := []
      pending := t.pending.zipIdx.map fun p => if n ≤ p.2 then p.1.setMore true else p.1 }

/-! ### The sources of a word that faults (R89) -/

/-- The sources stand as they are at the fault: the results that commit for it do not change what the replay reads
(R54, R89; log entry 87). -/
def Team.holdSources (t : Team) : Team :=
  match t.held with
  | some _ => t
  | none => { t with held := some (t.v, t.s) }

/-- The team with the registers that its word reads: those of the fault on a replay (R89). -/
def Team.sources (t : Team) : Team :=
  match t.held with
  | some h => { t with v := h.1, s := h.2 }
  | none => t

/-- Every open span ends at a fault of the word, whose sources stay (R54, R89). -/
def Team.commitFault (t : Team) : Team := t.holdSources.commitAll

/-! ### Moving through a clause (R42, R44) -/

/-- The clause's words from base, with the passes of the active mask. words before limit run in every
pass; the word at limit, if any, traps. In an empty mask no pass runs, and only a scalar-pipe word is
reached, where it traps (R61). -/
def Team.enterClause (t : Team) (base : DWord) (cls : Nat) (words : List Word) : Team :=
  let bad := if cls == 0 || cls == 2 then (words.findIdx? (decodeTraps cls t)).getD words.length
    else words.length
  let all := passesOf t.active
  let empty := cls ≤ 2 && all.isEmpty
  let limit := if empty then (words.findIdx? (decodeTraps cls t)).getD words.length else bad
  let passes := if cls == 0 || cls == 2 then all else []
  let idx := if empty || (limit == 0) then limit else 0
  if idx < words.length then
    { t with
      pc := base + BitVec.ofNat 64 (4 * idx)
      clause := some ⟨base, cls, words, idx, limit, all, if idx == limit then [] else passes, true, [], 0, []⟩ }
  else { t with pc := base + BitVec.ofNat 64 (4 * words.length), clause := none }

/-- To word k of the clause. -/
def Team.atWord (t : Team) (c : Clause) (k : Nat) (passes : List Nat) (first : Bool) : Team :=
  { t with
    pc := c.base + BitVec.ofNat 64 (4 * k)
    clause := some { c with idx := k, passes := passes, first := first } }

/-- Past the clause, to the next header. -/
def Team.endClause (t : Team) (c : Clause) : Team :=
  { t with pc := c.base + BitVec.ofNat 64 (4 * c.words.length), clause := none }

/-- The word has run: on to the next word of the pass, the next pass, the word that traps, or the next
clause (R42, R44). Outside a clause, to the next word. -/
def Team.advance (t : Team) : Team :=
  let t := { t with only := none, unfin := 0, fatalPages := [], hostFail := [], waitv := none, held := none }
  match t.clause with
  | none => { t with pc := t.pc + 4 }
  | some c =>
    if c.idx + 1 < c.limit then t.atWord c (c.idx + 1) c.passes c.first
    else if t.passMajor && c.passes.length > 1 then t.atWord c 0 c.passes.tail false
    else if c.idx < c.limit && c.limit < c.words.length then t.atWord c c.limit [] true
    else t.endClause c

/-- The word is complete: it counts in the open spans and the team goes on. -/
def Team.finish (t : Team) : Team := t.countSpan.advance

/-! ### Local memory (R72, R82, R135) -/

def Team.scratchByte (t : Team) (a : Nat) : Byte := sget 0 t.scratch a

def Team.scratchPut (t : Team) (a : Nat) (bs : List Byte) : Team :=
  { t with scratch := (bs.zipIdx.foldl (fun m b => sset 0 m (a + b.2) b.1) t.scratch) }

def Team.scratchGet (t : Team) (a n : Nat) : Nat :=
  ofBytes ((List.range n).map fun i => t.scratchByte (a + i))

/-! ### The call stack (R67 to R70) -/

/-- The spill image of an entry (Table 4-4). -/
def CallEntry.image (e : CallEntry) : Nat :=
  e.ret.toNat + e.frame * 2 ^ 64 + e.maskDepth * 2 ^ 72 + e.count * 2 ^ 80 + e.cls * 2 ^ 84

def CallEntry.ofImage (w : Nat) : CallEntry :=
  ⟨BitVec.ofNat 64 w, field w 64 8, field w 72 8, field w 80 4, field w 84 3⟩

/-- Push an entry; the oldest of 16 hardware entries is spilled first. none when its slot would lie below
offset 0, or the depth is 4,095 (R70, R346). -/
def Team.push (t : Team) (e : CallEntry) : Option Team :=
  if t.callDepth ≥ 4095 then none
  else if t.callHw.length < 16 then
    some { t with callHw := e :: t.callHw, callDepth := t.callDepth + 1 }
  else
    let k := t.callDepth - 15
    if t.scratchSize < 16 * k then none
    else
      let old := (t.callHw.getLast?).getD ⟨0, 0, 0, 0, 0⟩
      let t := t.scratchPut (t.scratchSize - 16 * k) (toBytes 16 old.image)
      some { t with callHw := e :: t.callHw.dropLast, callDepth := t.callDepth + 1 }

/-- Pop the top entry and refill from the most recent spill slot (R69, R70). -/
def Team.pop (t : Team) : Team :=
  let t := { t with callHw := t.callHw.tail, callDepth := t.callDepth - 1 }
  if t.callHw.length < 16 && t.callHw.length < t.callDepth then
    let k := t.callDepth - t.callHw.length
    { t with callHw := t.callHw ++ [.ofImage (t.scratchGet (t.scratchSize - 16 * k) 16)] }
  else t

/-- Pop entries until n are left. -/
def Team.popTo (t : Team) (n : Nat) : Nat → Team
  | 0 => t
  | fuel + 1 => if t.callDepth > n then (t.pop).popTo n fuel else t

/-! ### Masks (R64, R66) -/

/-- Lanes leave the full mask, the active mask and every mask-stack entry. -/
def Team.exitLanes (t : Team) (m : Mask) : Team :=
  { t with
    full := t.full &&& ~~~m
    active := t.active &&& ~~~m
    maskStack := t.maskStack.map fun e => ⟨e.outer &&& ~~~m, e.other &&& ~~~m⟩ }

/-! ### Waiting and waking (Table 4-6) -/

/-- The team holds a slot (Table 4-6). -/
def Team.resident (t : Team) : Bool :=
  t.state != .retired && t.state != .swapped && !(t.state == .halted && t.haltedFrom == .swapped)

/-- The team becomes READY; a halted team will be, and a swapped one is placed again first. A team that must enter its
bundles again waits for that (R157). -/
def Team.wake (t : Team) : Team :=
  let t := { t with wait := if t.reenter then .benter else .none }
  let st : TState := if t.reenter then .parked else .ready
  match t.state with
  | .stalled | .parked => { t with state := st }
  | .halted => if t.haltedFrom == .swapped then t else { t with haltedFrom := st }
  | _ => t

/-- The team waits; a halted team's wait stands behind the halt, and a swapped team stays so (Table 4-6). -/
def Team.sleep (t : Team) (st : TState) (w : Wait) : Team :=
  let t := { t with wait := w }
  match t.state with
  | .halted => if t.haltedFrom == .swapped then t else { t with haltedFrom := st }
  | .swapped => t
  | _ => { t with state := st }

/-- ph is at or past arr, compared modulo 2^16 (R75). -/
def reached (ph arr : BitVec 16) : Bool := (ph - arr).toNat < 2 ^ 15

/-- The counter has reached the value (R331). -/
def counted (t : Team) (c v : Nat) : Bool := reached (t.aread c) (BitVec.ofNat 16 v)

/-- The team issues its word again: for the lanes that are unfinished, if some are (R89). -/
def Team.reissue (t : Team) : Team := { t.wake with only := if t.unfin == 0 then t.only else some t.unfin }

/-- Waits that a commit ends: a word that touches the result issues again, and an AWAIT may be satisfied. -/
def Team.afterCommit (t : Team) : Team :=
  match t.wait with
  | .commit => t.reissue
  | .await c v => if counted t c v then t.wake.finish else t
  | _ => t

/-- A halted team at the resumption: results that have arrived and whose span has ended commit, and the team is in
the state it would be in (R306). -/
def Team.unhalt (t : Team) : Team :=
  if t.state != .halted then t
  else
    let t := { t with state := t.haltedFrom, haltedFrom := .ready, stepping := false }
    (t.commitWhere fun p => (t.wait == .fault && t.fabric.isEmpty) || (p.span == 0 && p.arrived)).afterCommit

/-- Every open span ends where the team stands: a word with unfinished lanes keeps its sources (R54, R89). -/
def Team.commitHere (t : Team) : Team := if t.unfin == 0 then t.commitAll else t.commitFault

/-- The team's registers go to its save area (R238, R285): open spans end (R54), and a wait for one of them ends too;
a halted team stays so. -/
def Team.stored (t : Team) : Team :=
  let t := t.commitHere
  let t := if t.state == .halted then { t with haltedFrom := .swapped } else { t with state := .swapped }
  t.afterCommit

def State.stall (s : State) (w : Wait) : State := s.modTm fun t => t.sleep .stalled w
def State.park (s : State) (w : Wait) : State :=
  s.modTm fun t => { t.sleep .parked w with parkedSince := s.clock }

end Sys2Proof.Machine
end

