-- ==== Sys2Proof/Machine/Banks.lean ====
section
/-! DEFINITION. Access at the home slices (R288, R292, R276, R225) and the lines that row commands hold (R218). -/

namespace Sys2Proof.Machine

/-! ### At the home slice -/

/-- What stops an access that has been translated: no route (R292), failed data (R288), a slice that holds the line back
(R218, R225), or a port that is down for the bytes at some places (R276). -/
inductive HomeStop where
  | noRoute
  | bad (pa : Nat)
  | held
  | lost (at_ : List Nat)
  deriving DecidableEq, Repr

/-- What stops an access to some bytes at their home slices, which reads them, writes them or both. -/
def sliceStop (s : State) (reads writes : Bool) (pas : List Nat) : Option HomeStop :=
  match if reads then pas.find? (isBad s) else none with
  | some pa => some (.bad pa)
  | none =>
    if pas.any fun pa => heldLine s writes (lineOf pa) || (reads && stackHolds s pa) then some .held
    else
      let lost := pas.zipIdx.filterMap fun e => if reads && portMiss s e.1 then some e.2 else none
      if lost.isEmpty then none else some (.lost lost)

/-- The same for an agent of a core, which needs a route to the slices. -/
def homeStop (s : State) (core : Nat) (reads writes : Bool) (pas : List Nat) : Option HomeStop :=
  if pas.any fun pa => !reachable s core pa then some .noRoute else sliceStop s reads writes pas

/-- A dirty byte of the core's first-level cache lies in a held line. -/
def dirtyHeld (s : State) (core : Nat) : Bool :=
  if s.rowQueue.isEmpty then false
  else (l1Bytes s core).any fun e => e.2.dirty && heldLine s true (lineOf e.1)

end Sys2Proof.Machine
end

