-- ==== Sys2Proof/Machine/CohortOps.lean ====
section
/-! DEFINITION. The cohort table: membership, barrier phases and their completion (R71 to R76, R126),
and the detaching of streams (R73, R114). -/

namespace Sys2Proof

/-- Cohort scope and above reach the home slices (Table 8-1, R137). -/
def Scope.far : Scope → Bool
  | .team | .core => false
  | _ => true

/-- The same for the scopes of engine words. -/
def EScope.far : EScope → Bool
  | .core => false
  | _ => true

/-- Where a releasing team's dirty bytes must reach (Table 8-1): the core's store, the home slices, or the host's coherence
point; nowhere stands for no release, or one at team scope, which adds nothing to program order (R170). -/
inductive RelTo where
  | nowhere | core | home | host
  deriving DecidableEq, Repr

def Scope.relTo : Scope → RelTo
  | .team => .nowhere
  | .core => .core
  | .sys => .host
  | _ => .home

def EScope.relTo : EScope → RelTo
  | .core => .core
  | .sys => .host
  | _ => .home

end Sys2Proof

namespace Sys2Proof.Machine

/-- The key of a cohort id in a context. -/
def cohKey (ctx id : Nat) : Nat := ctx * 65536 + id

/-- The barrier participant that stands for the stream on a core. -/
def streamId (core : Nat) : Nat := 2 ^ 40 + core

def Barrier.blank : Barrier := ⟨0, [], [], false, false, false, false⟩

def getEngine (s : State) (core : Nat) : Engine := (sfind s.engines core).getD .idle
def setEngine (s : State) (core : Nat) (e : Engine) : State := { s with engines := sput s.engines core e }

def getCohort (s : State) (ck : Nat) : Option Cohort := sfind s.cohorts ck
def setCohort (s : State) (ck : Nat) (c : Cohort) : State := { s with cohorts := sput s.cohorts ck c }

def Cohort.bar (c : Cohort) (b : Nat) : Barrier := (sfind c.bars b).getD .blank
def Cohort.setBar (c : Cohort) (b : Nat) (x : Barrier) : Cohort := { c with bars := sput c.bars b x }

/-- The stream has had an error, which its context's switch may have saved. -/
def Stream.failed (x : Stream) : Bool := x.state == .error || (x.state == .saved && x.savedFrom == .error)

/-- The attached streams of a cohort that take part in barriers, with their cores (R126). -/
def streamsOf (s : State) (ck : Nat) : List (Nat × Stream) :=
  s.engines.flatMap fun e =>
    (e.2.streams.filter fun x => x.cohort == ck && !x.failed).map fun x => (e.1, x)

def modStream (s : State) (core ck : Nat) (f : Stream → Stream) : State :=
  let e := getEngine s core
  setEngine s core { e with streams := e.streams.map fun x => if x.cohort == ck then f x else x }

/-- Who is expected in a phase of barrier b that opens now: every member, and every stream that arrives at
b (R75, R126). -/
def expectedNow (s : State) (c : Cohort) (ck b : Nat) : List Nat :=
  c.members.map (·.2) ++
    ((streamsOf s ck).filter fun x => x.2.barMask.getLsbD b).map fun x => streamId x.1

/-- Every expected participant has arrived (R75). -/
def Barrier.done (b : Barrier) : Bool := b.expected.all b.arrived.contains

/-- An arrival of a participant in the open phase of barrier b; a torn delivery of the sender goes with
the phase (R75, R295). -/
def countArrival (c : Cohort) (b id : Nat) : Cohort :=
  let x := c.bar b
  { c.setBar b { x with arrived := x.arrived ++ [id], tornNext := x.tornNext || c.tornPending.contains id }
    with tornPending := c.tornPending.filter (· != id) }

/-- A release at cohort scope: the team's dirty bytes reach their home slices (Table 8-1). -/
def releaseCore (s : State) (u : Nat) : State := l1Release s (s.getTeam u).core

/-- An acquire at cohort scope or above by team u (R137). -/
def acquireCore (s : State) (u : Nat) : State := l1Acquire s (s.getTeam u).core

/-- Team u's mirrored stores are all delivered or failed (R173). -/
def mirrorsDone (s : State) (u : Nat) : Bool := s.mirrors.all fun m => m.sender != u

/-! ### Releases and acquires -/

/-- What the home slices hold of tier 1 lines goes through the CXL path (Table 8-1). -/
def carryToHost (s : State) : State :=
  (s.l2.filter fun e => e.1 / 2 ^ 36 == 1 && e.2.dirty != 0).foldl (fun s e => writeSectors s e.1) s

/-- A release by team u, as far as it must reach (Table 8-1). -/
def releaseAt (r : RelTo) (s : State) (u : Nat) : State :=
  match r with
  | .nowhere | .core => s
  | .home => releaseCore s u
  | .host => carryToHost (releaseCore s u)

/-- An acquire by team u (R137). -/
def acquireAt (far : Bool) (s : State) (u : Nat) : State := if far then acquireCore s u else s

/-- A release by team u can be performed now: no dirty byte that it writes home waits at a slice (R218), and the team's
loads have been performed (R178 to R183, Ld); at cohort scope, where mirrors says so, the team's mirrored stores are
delivered (R173); at any other no row command's end is still to be observed (R179, R181 to R183, EC). -/
def canRelease (s : State) (u : Nat) (r : RelTo) (mirrors : Bool) : Bool :=
  r == .nowhere ||
    (!(r != .core && dirtyHeld s (s.getTeam u).core) && !(s.getTeam u).unread &&
      (if mirrors then mirrorsDone s u else !(s.getTeam u).awaitsRows))

/-- A release of the current team before a word's own effect (R76, R173, R408): none while it must wait. -/
def releaseFirst (r : RelTo) (mirrors : Bool) (s : State) : Option State :=
  if canRelease s s.cur r mirrors then some (releaseAt r s s.cur) else none

/-- Wake the teams that wait for something p picks; they issue their word again. -/
def wakeWhere (s : State) (p : Team → Bool) : State :=
  { s with teams := s.teams.map fun e =>
      (e.1, if (e.2.state == .stalled || e.2.haltedFrom == .stalled) && p e.2 then
        e.2.reissue else e.2) }

/-! ### Arrivals and phases (R74 to R76) -/

/-- Team u arrives at barrier b in the open phase: a release at cohort scope (R75, R76). -/
def teamArrives (s : State) (u ck b : Nat) : State :=
  let s := releaseCore s u
  match getCohort s ck with
  | none => s
  | some c =>
    let s := setCohort s ck (countArrival c b u)
    s.modTeam u fun t => { t with arr := sset 0 t.arr b ((c.bar b).ph + 1) }

/-- What the opening of a phase does for one team that waits at barrier b: a stalled arrival arrives, a
wait whose phase has completed ends with an acquire (R75, R76). -/
def serveTeam (ck b : Nat) (s : State) (u : Nat) : State :=
  match getCohort s ck with
  | none => s
  | some c =>
    let t := s.getTeam u
    match t.wait with
    | .barArrive k thenWait =>
      if k == b && sget 0 t.arr b == (c.bar b).ph && canRelease s u .home true then
        let s := teamArrives s u ck b
        if thenWait then s.modTeam u fun t => { t.sleep .parked (.barWait b) with parkedSince := s.clock }
        else s.modTeam u fun t => t.wake.finish
      else s
    | .barWait k =>
      if k == b && reached (c.bar b).ph (sget 0 t.arr b) then
        (acquireCore s u).modTeam u fun t => t.wake.finish
      else s
    | _ => s

/-- A wait of the stream ends (Table 7-4). -/
def Stream.unpark (x : Stream) : Stream :=
  { x with
    wait := .none
    state := if x.state == .parked then .running else x.state
    savedFrom := if x.state == .saved then .running else x.savedFrom }

/-- A wait at a barrier ends; a page that a background MWB waits for still parks the stream (R115). -/
def Stream.passed (x : Stream) : Stream := if x.waitReqs.isEmpty then x.unpark else { x with wait := .fault }

/-- The stream's word is complete: the next one follows. -/
def Stream.nextWord (x : Stream) : Stream :=
  { x.unpark with pc := x.pc + 4, ahead := x.ahead.tail, granted := false }

/-- The same for a stream (R124, R127). -/
def serveStream (ck b : Nat) (s : State) (core : Nat) : State :=
  match getCohort s ck, (streamsOf s ck).find? fun x => x.1 == core with
  | some c, some (_, x) =>
    let ph := (c.bar b).ph
    match x.wait with
    | .barArrive k thenWait =>
      if k == b && sget 0 x.arr b == ph then
        let s := setCohort s ck (countArrival c b (streamId core))
        modStream s core ck fun x =>
          let x := { x with arr := sset 0 x.arr b (ph + 1) }
          if thenWait then { x with wait := .barWait b }
          else x.passed
      else s
    | .barWait k =>
      if k == b && reached ph (sget 0 x.arr b) then
        modStream s core ck Stream.passed
      else s
    | _ => s
  | _, _ => s

/-- Complete the open phase of barrier b when everyone expected has arrived, and serve those who wait;
their arrivals may complete the next one (R75). -/
def settleBarrier (ck b : Nat) : Nat → State → State
  | 0, s => s
  | fuel + 1, s =>
    match getCohort s ck with
    | none => s
    | some c =>
      let x := c.bar b
      if !x.done || c.members.isEmpty then s
      else
        let x' : Barrier :=
          ⟨x.ph + 1, expectedNow s c ck b, [], x.tornNext, x.errNext, false, false⟩
        let s := setCohort s ck (c.setBar b x')
        let s := (c.members.map (·.2)).foldl (serveTeam ck b) s
        let s := ((streamsOf s ck).map (·.1)).foldl (serveStream ck b) s
        settleBarrier ck b fuel s

/-- The fuel of settleBarrier: an arrival that waits arrives once. -/
def barFuel : Nat := 4

/-- A stalled arrival of team u arrives if it can now; phases may complete by it. -/
def retryArrival (s : State) (u : Nat) : State :=
  let t := s.getTeam u
  match t.wait, t.cohort with
  | .barArrive b _, some ck => settleBarrier ck b barFuel (serveTeam ck b s u)
  | .barWait b, some ck => settleBarrier ck b barFuel (serveTeam ck b s u)
  | _, _ => s

/-- What stood in the way of releases is gone: stalled arrivals, stores and fences go on (R173, R178, R218). -/
def retryReleases (s : State) (p : Team → Bool) : State :=
  let us := (s.teams.filter fun e => p e.2 && match e.2.wait with | .barArrive _ _ => true | _ => false).map (·.1)
  us.foldl retryArrival (wakeWhere s fun t => p t && (t.wait == .mirror || t.wait == .hold))

/-- The same for one team. -/
def retryTeam (s : State) (u : Nat) : State :=
  let t := s.getTeam u
  match t.wait with
  | .barArrive _ _ => retryArrival s u
  | .mirror | .hold => if t.state == .stalled || t.haltedFrom == .stalled then s.modTeam u Team.reissue else s
  | _ => s

/-- A participant leaves every barrier; phases may complete by it (R75, R126). -/
def leaveBarriers (s : State) (ck id : Nat) : State :=
  (List.range 16).foldl (init := s) fun s b =>
    match getCohort s ck with
    | none => s
    | some c =>
      let x := c.bar b
      let x' := { x with expected := x.expected.filter (· != id), arrived := x.arrived.filter (· != id) }
      settleBarrier ck b barFuel (setCohort s ck (c.setBar b x'))

/-- The stream holds weight slot n. -/
def Stream.holdsSlot (x : Stream) (n : Nat) : Bool := x.slotBase ≤ n && n < x.slotBase + x.slotCount

/-- The engine without the tiles, slots and latched block that a stream holds: their contents are lost (R114). -/
def Engine.release (e : Engine) (x : Stream) : Engine :=
  { e with
    tile0 := if x.tileMask.getLsbD 0 then .zero else e.tile0
    tile1 := if x.tileMask.getLsbD 1 then .zero else e.tile1
    slots := e.slots.filter fun p => !x.holdsSlot p.1
    latched := match e.latched with
      | some l => if l.owner == x.cohort then none else some l
      | none => none }

/-- Detach the stream of a cohort on a core: off its barriers, its tiles and slots free (R114). -/
def detachStream (s : State) (core ck : Nat) : State :=
  let s := leaveBarriers s ck (streamId core)
  let e := getEngine s core
  match e.streams.find? fun x => x.cohort == ck with
  | none => s
  | some x => setEngine s core ({ e with streams := e.streams.filter fun x => x.cohort != ck }.release x)

/-- Detach every stream of a cohort, in any state (R73). -/
def detachAll (s : State) (ck : Nat) : State :=
  (s.engines.filter fun e => e.2.streams.any fun x => x.cohort == ck).foldl
    (fun s e => detachStream s e.1 ck) s

/-- The stream at rest: nothing of it is under way. DESIGN CHOICE: a stamped MMA that is abandoned while it runs leaves no
stamp and is not counted (log entry 120). -/
def Stream.halt (x : Stream) : Stream :=
  { x with wait := .none, waitReqs := [], mma := none, msta := none, mwbs := [], undo := [], failing := none, granted := false }

/-- The stream of a cohort without members: it starts nothing more, and is detached once its stamps are written (R73,
R133). -/
def Stream.dissolved (x : Stream) : Stream :=
  if x.state == .saved then { x.halt with savedFrom := .parked, wait := .commit }
  else { x.halt with state := .parked, wait := .commit }

/-- A stream of a cohort has stamps to write before it is detached (R133). -/
def stampsLeft (s : State) (ck : Nat) : Bool :=
  s.engines.any fun e => e.2.streams.any fun x => x.cohort == ck && !x.stamps.isEmpty

/-- A cohort without members is dissolved: its streams are detached, and its id is free. While stamps of its streams are to
be written, the streams stand still and the cohort keeps its id (R73). -/
def endCohort (s : State) (ck : Nat) : State :=
  if stampsLeft s ck then
    { s with engines := s.engines.map fun e =>
        (e.1, { e.2 with streams := e.2.streams.map fun x => if x.cohort == ck then x.dissolved else x }) }
  else
    let s := detachAll s ck
    { s with cohorts := sdel s.cohorts ck }

/-- The team leaves its cohort: index free, window discarded, phases may complete; the last member
dissolves the cohort (R73, R374). Packets on their way to the team are not delivered to it. -/
def leaveCohort (s : State) (u : Nat) : State :=
  match (s.getTeam u).cohort with
  | none => s
  | some ck =>
    let s := s.modTeam u fun t => { t with cohort := none, memberIdx := 0, window := [], windowSize := 0, arr := [] }
    let s := { s with mirrors := s.mirrors.map fun m => { m with targets := m.targets.filter (· != u) } }
    match getCohort s ck with
    | none => s
    | some c =>
      let s := setCohort s ck { c with
        members := c.members.filter fun m => m.2 != u, tornPending := c.tornPending.filter (· != u) }
      if (c.members.filter fun m => m.2 != u).isEmpty then endCohort s ck
      else leaveBarriers s ck u

end Sys2Proof.Machine
end

