-- ==== Sys2Proof/Machine/TaskOps.lean ====
section
/-! DEFINITION. Environments and their reference counts (R241 to R252), and task control blocks at their
home slices (R254 to R261). -/

namespace Sys2Proof.Machine

/-! ### Handles and environments -/

def hGen (h : DWord) : Nat := field h.toNat 48 16
def hCore (h : DWord) : Nat := field h.toNat 39 9
def hSlot (h : DWord) : Nat := field h.toNat 27 12
def hCtx (h : DWord) : Nat := field h.toNat 15 12

/-- The handle of Table 13-1. -/
def mkHandle (gen core slot ctx : Nat) : DWord :=
  BitVec.ofNat 64 (gen * 2 ^ 48 + core * 2 ^ 39 + slot * 2 ^ 27 + ctx * 2 ^ 15)

/-- The key of an environment slot of a core. -/
def envKey (core slot : Nat) : Nat := core * 4096 + slot

/-- The generation of a slot, 1 at reset (Table 13-2). -/
def slotGen (s : State) (k : Nat) : Nat := sget 1 s.envGens k

/-- The generation after g (R244). -/
def nextGen (g : Nat) : Nat := if g == 65535 then 1 else g + 1

/-- The environment a handle names, when it is LIVE with that generation (R247). -/
def liveEnv (s : State) (h : DWord) : Option Env :=
  let k := envKey (hCore h) (hSlot h)
  match sfind s.envs k with
  | some e => if e.state == .live && slotGen s k == hGen h then some e else none
  | none => none

/-- The checks of R247 on a handle: the trap code they give, or the environment. -/
def checkHandle (s : State) (ctx : Nat) (h : DWord) : Except Nat Env :=
  if h == 0 then .error 0x0B
  else if hCtx h != ctx then .error 0x0E
  else
    match liveEnv s h with
    | some e => .ok e
    | none => .error 0x0B

/-- Store the environment of a handle. -/
def setEnv (s : State) (h : DWord) (e : Env) : State :=
  { s with envs := sput s.envs (envKey (hCore h) (hSlot h)) e }

/-- Free an environment: its slots take the next generation (R244). -/
def freeEnv (s : State) (k : Nat) (e : Env) : State :=
  { s with
    envs := sdel s.envs k
    envGens := (List.range e.slots).foldl
      (fun g i => sset 1 g (k + i) (nextGen (sget 1 g (k + i)))) s.envGens }

/-- The environment of a handle, whether its context runs there or is saved (R250, R253). -/
def namedEnv (s : State) (h : DWord) : Option Env :=
  (sfind s.envs (envKey (hCore h) (hSlot h))).filter fun e =>
    e.state != .free && slotGen s (envKey (hCore h) (hSlot h)) == hGen h

/-- Drop one reference (R250): a handle that does not match has none. -/
def dropRef (s : State) (h : DWord) : State :=
  if h == 0 then s
  else
    match namedEnv s h with
    | none => s
    | some e =>
      if e.count ≤ 1 then freeEnv s (envKey (hCore h) (hSlot h)) e
      else setEnv s h { e with count := e.count - 1 }

/-- Take one more reference; the caller has checked the limit (R251). -/
def addRef (s : State) (h : DWord) (e : Env) : State := setEnv s h { e with count := e.count + 1 }

/-! ### Requests to Stratus (R272) -/

/-- Where host memory begins (Table 14-1). -/
def hostBase : Nat := 2 * 2 ^ 44

/-- Bytes at an address of host memory. -/
def putHost (s : State) (a : Nat) (bs : List Byte) : State :=
  memSetAll s (bs.zipIdx.map fun b => (hostBase + (a + b.2) % 2 ^ 44, b.1))

/-- A host request record (Table 14-4). -/
def hostRecord (page : Nat) (tag : Word) (ctx : Nat) (k : ReqKind) (seq : DWord) : Nat :=
  let kind := match k with | .read => 0 | .write => 1 | .fetch => 2
  page * 4096 * 2 ^ 192 + tag.toNat * 2 ^ 96 + ctx * 2 ^ 84 + kind * 2 ^ 66 + seq.toNat

/-- The request ring is full: its next slot is the one before the host's (R277). -/
def ringFull (r : HostRings) : Bool := (r.reqTail + 1) % 4096 == r.reqHead

/-- Append the record of a request to the host's request ring (R277). -/
def appendRecord (s : State) (q : FaultReq) (tag : Word) : State :=
  let r := s.rings
  let image := hostRecord q.page tag q.ctx q.kind (r.seq + 1)
  let s := putHost s (r.reqBase.toNat + 32 * r.reqTail) (toBytes 32 image)
  { s with rings := { r with seq := r.seq + 1, reqTail := (r.reqTail + 1) % 4096 } }

/-- Records that wait for room are appended in the order of their requests (R277). -/
def fillRing : List FaultReq → State → State
  | [], s => s
  | q :: rest, s =>
    if !q.queued then fillRing rest s
    else if ringFull s.rings then s
    else
      let s : State := { s with reqs := s.reqs.map fun x => if x.id == q.id then { x with queued := false } else x }
      fillRing rest (appendRecord s q (q.host.getD 0))

/-- The page is host-backed: its not-present entry says so (R277; log entry 28). -/
def isHostBacked (s : State) (ctx page : Nat) : Bool :=
  match walkCtx s ctx (BitVec.ofNat 64 (page * 4096)) with
  | .notPresent e => Config.hostBacked e
  | _ => false

/-- Ask for a page on behalf of a core: one request for each page and kind (R272), whose number is the answer. A request
for a host-backed page goes on to the host. -/
def newReq (s : State) (core ctx page : Nat) (k : ReqKind) (migrating : Bool) (askers : List Asker) : Nat × State :=
  match s.reqs.find? fun q => q.core == core && q.ctx == ctx && q.page == page && q.kind == k && q.migrating == migrating with
  | some q =>
    (q.id, { s with reqs := s.reqs.map fun r =>
      if r.id == q.id then { r with askers := r.askers ++ askers.filter fun a => !r.askers.contains a } else r })
  | none =>
    let id := s.nextReq
    let host := !migrating && isHostBacked s ctx page
    let q : FaultReq := ⟨id, ctx, core, askers, page, k, if host then some (Config.hostTag id) else none, host, migrating⟩
    let s : State := { s with nextReq := id + 1, reqs := s.reqs ++ [q] }
    (id, if host then fillRing s.reqs s else s)

/-- An engine of a core asks for pages and waits (R201, R219). -/
def askPages (s : State) (core ctx : Nat) (a : Asker) (k : ReqKind) (migrating : Bool) (ps : List Nat) : State :=
  ps.foldl (fun s p => (newReq s core ctx p k migrating [a]).2) s

/-! ### Accesses that the device makes at the home slices in a context -/

/-- Where an access of the device within one line ends: at an address, at a page to wait for, at a line that its slice
holds back (R218, R225), at failed data (R288), or fatally. -/
inductive Reach where
  | at_ (pa : Nat)
  | wait (page : Nat) (migrating : Bool)
  | held
  | bad (pa : Nat)
  | fatal
  deriving DecidableEq, Repr

/-- Translate for the home slice itself: no TLB of a core is used (log entry 17). A write that reads nothing needs no
data. -/
def reach (s : State) (ctx : Nat) (va : DWord) (k : ReqKind) (reads : Bool) : Reach × State :=
  if inAperture va 1 || inFabric va then (.fatal, s)
  else
    match translate s 512 [] ctx va k with
    | (.ok pa key, s) =>
      let s := viewKey s pa key
      match sliceStop s reads (k == .write) [pa] with
      | some (.bad p) => (.bad p, s)
      | some (.lost _) => (.wait (pageOf va) false, s)
      | some _ => (.held, s)
      | none => (.at_ pa, if reads then homeFetch s false pa else s)
    | (.fault p, s) => (.wait p false, s)
    | (.migrating p, s) => (.wait p true, s)
    | (.fatal, s) => (.fatal, s)
    | (.bad pa, s) => (.bad pa, s)
    | (.held, s) => (.held, s)

/-- Write n bytes of a number at the home slice. -/
def putNum (s : State) (pa n v : Nat) : State :=
  homeWrite s ((toBytes n v).zipIdx.map fun b => (pa + b.2, b.1))

/-! ### Ready queues (R258) -/

def getReady (s : State) (ctx q : Nat) : ReadyQueue :=
  (sfind (getCtx s ctx).ready q).getD ⟨[], 0, 0, []⟩

def setReady (s : State) (ctx q : Nat) (r : ReadyQueue) : State :=
  setCtx s ctx { getCtx s ctx with ready := sput (getCtx s ctx).ready q r }

/-- QAPPLY entries that a queue holds (R262). -/
def postedCount (r : ReadyQueue) : Nat :=
  (r.entries.filter fun e => match e with | .closure .. => true | .tcb .. => false).length

def ReadyEntry.prio : ReadyEntry → Nat
  | .tcb _ p _ => p
  | .closure _ _ p _ => p

/-- Insert by prio descending, then in order of sequence (R258). -/
def insertReady (e : ReadyEntry) : List ReadyEntry → List ReadyEntry
  | [] => [e]
  | x :: r => if x.prio < e.prio then e :: x :: r else x :: insertReady e r

/-- Post a closure into a ready queue (R262). -/
def postClosure (s : State) (ctx q : Nat) (h cfg : DWord) : State :=
  let r := getReady s ctx q
  let n := r.nextSeq + 1
  setReady s ctx q
    { r with entries := insertReady (.closure h cfg (field cfg.toNat 21 8) n) r.entries, nextSeq := n }

/-! ### Task control blocks (Table 13-7) -/

def tcbState (s : State) (pa : Nat) : Nat := (memGet s (pa + 12)).toNat % 8
def setTcbState (s : State) (pa st : Nat) : State := putNum s (pa + 12) 1 st
def tcbQueue (s : State) (pa : Nat) : Nat := (memGet s (pa + 13)).toNat % 16
def tcbPrio (s : State) (pa : Nat) : Nat := (memGet s (pa + 14)).toNat
def tcbDep (s : State) (pa : Nat) : Nat := memRead s (pa + 8) 4
def tcbClosure (s : State) (pa : Nat) : DWord := BitVec.ofNat 64 (memRead s pa 8)

/-- The must-be-zero fields and the range that TARM checks (R254, R256). -/
def tcbOk (s : State) (pa : Nat) : Bool :=
  let w := memRead s pa 128
  let z := fun lo n => field w lo n == 0
  let nreg := field w 138 7
  z 99 5 && z 108 4 && z 120 8 && z 145 15 && z 185 7 && z 272 48 && z 576 448 &&
    nreg % 6 == 0 && 6 ≤ nreg && nreg ≤ 102

/-- MakeReady: the next sequence number, state READY, link, and the queue (R258). -/
def makeReady (s : State) (ctx : Nat) (tcb : DWord) (pa : Nat) : State :=
  let q := tcbQueue s pa
  let r := getReady s ctx q
  let n := r.nextSeq + 1
  let s := setReady s ctx q
    { r with entries := insertReady (.tcb tcb.toNat (tcbPrio s pa) n) r.entries, nextSeq := n }
  let s := putNum s (pa + 56) 8 n.toNat
  let s := putNum s (pa + 64) 8 (Config.link tcb n.toNat).toNat
  setTcbState s pa 2

/-- A signal at a control block: status 1 unless ARMED, else the count falls and may reach 0 (R257). -/
def signalTcb (s : State) (ctx : Nat) (tcb : DWord) (pa : Nat) : Nat × State :=
  if tcbState s pa != 1 then (1, s)
  else
    let n := (tcbDep s pa + (2 ^ 32 - 1)) % 2 ^ 32
    let s := putNum s (pa + 8) 4 n
    (0, if n == 0 then makeReady s ctx tcb pa else s)

/-! ### The end of a task (R260, R261) -/

/-- What an access of the device waits for: a page, for which it asks, or, none, a line that its slice holds back. -/
def Reach.request (s : State) (ctx : Nat) (k : ReqKind) : Reach → Option Nat × State
  | .wait page m => let r := newReq s 512 ctx page k m []; (some r.1, r.2)
  | _ => (none, s)

/-- One access of a task's end: k goes on at the address; the end waits, or passes over a fatal fault. -/
def taskAccess (s : State) (x : TaskEnd) (va : DWord) (k : ReqKind) (skip : Option TaskEnd)
    (go : Nat → State → State × Option TaskEnd) : State × Option TaskEnd :=
  match reach s x.ctx va k true with
  | (.at_ pa, s) => go pa s
  | (.fatal, s) => (s, skip)
  | (.bad pa, s) => (noteBad s x.ctx pa, none)
  | (r, s) =>
    let q := r.request s x.ctx k
    ({ q.2 with taskEnds := q.2.taskEnds ++ [{ x with req := q.1 }] }, none)

/-- One stage of a task's end: the state and the next stage, or none when it waits or is over. -/
def taskStage (s : State) (x : TaskEnd) : State × Option TaskEnd :=
  match x.stage with
  | 0 =>
    taskAccess s x x.tcb .write none fun pa s =>
      let h := tcbClosure s pa
      let stamp : DWord := BitVec.ofNat 64 (memRead s (pa + 48) 8)
      let ptr : DWord := BitVec.ofNat 64 (memRead s (pa + 24) 8)
      let len := memRead s (pa + 32) 2
      let s := match x.failed with
        | some info => putNum s (pa + 40) 8 info.toNat
        | none => s
      let s := setTcbState s pa (if x.failed.isSome then 6 else 5)
      let s := dropRef (putNum s pa 8 0) h
      (s, some { x with stage := 1, stamp := stamp, succPtr := ptr, succLen := len })
  | 1 =>
    let next := if x.failed.isSome then none else some { x with stage := 2 }
    if x.stamp == 0 then (s, next)
    else
      taskAccess s x x.stamp .write next fun pa s =>
        let old := memRead s pa 8
        let new := if x.failed.isSome then old ||| 2 ^ 63
          else old / 2 ^ 32 * 2 ^ 32 + (old + 1) % 2 ^ 32
        (putNum s pa 8 new, next)
  | k + 2 =>
    let next := some { x with stage := k + 3 }
    if x.succLen ≤ k then (s, none)
    else
      taskAccess s x (x.succPtr + BitVec.ofNat 64 (8 * k)) .read next fun la s =>
        let tcb : DWord := BitVec.ofNat 64 (memRead s la 8)
        if tcb.toNat % 128 != 0 then (s, next)
        else taskAccess s x tcb .write next fun pa s => ((signalTcb s x.ctx tcb pa).2, next)

/-- Perform the steps of a task's end until it is over or waits. -/
def endTask : Nat → State → TaskEnd → State
  | 0, s, _ => s
  | fuel + 1, s, x =>
    match taskStage s x with
    | (s, none) => s
    | (s, some x) => endTask fuel s x

/-- The stages of one task's end: the block, the stamp, and up to 65,535 successors. -/
def taskFuel : Nat := 65538

/-- A task ends (R260, R261): changes of its state that still wait are overtaken. -/
def startEnd (s : State) (ctx : Nat) (tcb : DWord) (failed : Option DWord) : State :=
  endTask taskFuel { s with tcbNotes := s.tcbNotes.filter fun n => !(n.ctx == ctx && n.tcb == tcb) }
    ⟨ctx, tcb, failed, 0, 0, 0, 0, none⟩

/-- A control block's state changes at its home slice (R255), in place of an earlier change that still waits. The change
waits for a page that does not translate and for a line that is held. -/
def noteState (s : State) (ctx : Nat) (tcb : DWord) (st : Nat) : State :=
  let s := { s with tcbNotes := s.tcbNotes.filter fun n => !(n.ctx == ctx && n.tcb == tcb) }
  match reach s ctx tcb .write true with
  | (.at_ pa, s) => setTcbState s pa st
  | (.fatal, s) => s
  | (.bad pa, s) => noteBad s ctx pa
  | (r, s) =>
    let q := r.request s ctx .write
    { q.2 with tcbNotes := q.2.tcbNotes ++ [⟨ctx, tcb, st, q.1⟩] }

/-- The control block's state of a team's task follows the team's (R261): 3 RUNNING, 4 PARKED. -/
def noteTask (s : State) (u st : Nat) : State :=
  match (s.getTeam u).origin with
  | .task ctx tcb => noteState s ctx (BitVec.ofNat 64 tcb) st
  | _ => s

/-- A team that ends as under the fail action makes its task FAILED (R261). -/
def failTask (s : State) (u : Nat) (info : DWord) : State :=
  match (s.getTeam u).origin with
  | .task ctx tcb =>
    (startEnd s ctx (BitVec.ofNat 64 tcb) (some info)).modTeam u fun t => { t with origin := .entry 0 }
  | _ => s

end Sys2Proof.Machine
end

