-- ==== Sys2Proof/Machine/Fatal.lean ====
section
/-! DEFINITION. What ends a context: stamps that the device writes (R234), and the effects of a
context-fatal error (R288). -/

namespace Sys2Proof.Machine

/-- Write a stamp of a context: a fault waits for Stratus, and a line that a row command holds for its end (R218); a
fatal fault leaves the stamp unwritten (R234), and so does an address that is not aligned (log entry 26). -/
def writeStamp (s : State) (ctx : Nat) (va value : DWord) : State :=
  if va == 0 || va.toNat % 8 != 0 then s
  else
    match reach s ctx va .write false with
    | (.at_ pa, s) => putNum s pa 8 value.toNat
    | (.fatal, s) => s
    | (.bad pa, s) => noteBad s ctx pa
    | (r, s) =>
      let q := r.request s ctx .write
      { q.2 with stampWaits := q.2.stampWaits ++ [⟨ctx, va, value, q.1, false⟩] }

/-- A launch's completion stamp (R234). -/
def launchStamp (seq status : Nat) : DWord := BitVec.ofNat 64 (seq % 2 ^ 48 + status * 2 ^ 48)

/-- Write the stamp that a launch block names which has not been read (Table 12-1); va is the place of the stamp's address. It
waits as a stamp does; a block that cannot be read gives none (log entry 27). -/
def writeBlockStamp (s : State) (ctx : Nat) (va value : DWord) : State :=
  match reach s ctx va .read true with
  | (.at_ pa, s) => writeStamp s ctx (BitVec.ofNat 64 (memRead s pa 8)) value
  | (.fatal, s) | (.bad _, s) => s
  | (r, s) =>
    let q := r.request s ctx .read
    { q.2 with stampWaits := q.2.stampWaits ++ [⟨ctx, va, value, q.1, true⟩] }

/-- A stamp that has waited is written. -/
def StampWait.go (s : State) (w : StampWait) : State :=
  if w.inBlock then writeBlockStamp s w.ctx w.va w.value else writeStamp s w.ctx w.va w.value

/-- Field of a launch block (Table 12-1). -/
def LaunchRun.fld (r : LaunchRun) (lo n : Nat) : Nat := field r.block.toNat lo n
def LaunchRun.stampAddr (r : LaunchRun) : DWord := BitVec.ofNat 64 (r.fld 128 64)

/-- Stamp status 3 for every launch of a context that is placed or queued (R288). -/
def stampDiscarded (s : State) (ctx : Nat) : State :=
  let c := getCtx s ctx
  let s := c.runs.foldl (fun s r => writeStamp s ctx r.stampAddr (launchStamp r.seq 3)) s
  (c.queues.flatMap fun q => q.2.entries.map fun e => (q.1, e)).foldl (init := s) fun s e =>
    if c.runs.any fun r => r.q == e.1 && r.seq == e.2.seq then s
    else writeBlockStamp s ctx (e.2.block + 16) (launchStamp e.2.seq 3)

/-- Free every environment of a context (R244, R253). -/
def freeEnvs (s : State) (ctx : Nat) : State :=
  (s.envs.filter fun e => e.2.ctx == ctx).foldl (fun s e => freeEnv s e.1 e.2) s

/-- The key of a channel as a context sees it. -/
def chanKey (ctx core chan : Nat) : Nat := ctx * 2048 + core * 4 + chan

/-- The engine without the streams of a context, and what they held there. -/
def Engine.discard (e : Engine) (ctx : Nat) : Engine :=
  let gone := e.streams.filter fun x => x.ctx == ctx
  { (gone.filter fun x => x.state != .saved).foldl Engine.release e with
    streams := e.streams.filter fun x => x.ctx != ctx }

/-- Discard a context's work: teams, cohorts, launches, copies, row commands, streams, tiles, ready-queue
entries and environments (R288). -/
def discardWork (s : State) (ctx : Nat) : State :=
  let gone := fun u : Nat => (s.getTeam u).ctx == ctx && (sfind s.teams u).isSome
  let s := { s with
    engines := s.engines.map fun e => (e.1, e.2.discard ctx)
    mirrors := s.mirrors.filter fun m => m.cohort / 65536 != ctx
    cohorts := s.cohorts.filter fun c => c.2.ctx != ctx
    pools := s.pools.filter fun p => p.1 % 4096 != ctx
    grants := s.grants.filter fun g => !gone g.uid
    channels := s.channels.filter fun c => c.1 / 2048 != ctx
    rowQueue := s.rowQueue.filter fun r => r.ctx != ctx
    taskEnds := s.taskEnds.filter fun t => t.ctx != ctx
    tcbNotes := s.tcbNotes.filter fun n => n.ctx != ctx
    reqs := s.reqs.filter fun r => r.ctx != ctx || s.stampWaits.any fun w => w.req == some r.id
    fabric := { s.fabric with
      outstanding := s.fabric.outstanding.filter fun r =>
        match r.who with
        | .team u => !gone u
        | .copy _ _ c => c != ctx }
    teams := s.teams.filter fun t => t.2.ctx != ctx }
  let s := freeEnvs s ctx
  let c := getCtx s ctx
  if (sfind s.ctxs ctx).isSome then
    setCtx s ctx { c with
      queues := c.queues.map fun q => (q.1, { q.2 with entries := [] })
      runs := []
      ready := c.ready.map fun q => (q.1, { q.2 with entries := [] }) }
  else s

/-- A context-fatal error (R288): launches are stamped, work is discarded, the fatal word is set. -/
def contextFatal (s : State) (ctx : Nat) (cause : Byte) (pa : Nat) : State :=
  let s := discardWork (stampDiscarded s ctx) ctx
  { s with
    fatal := sput s.fatal ctx (BitVec.ofNat 64 (cause.toNat + pa % 2 ^ 40 * 2 ^ 8 + 2 ^ 63)) }

/-- What waits for a line that its slice held back is tried again (R218, R225): stamps, changes of control blocks, ends of
tasks, additions of heat. -/
def retryHeld (s : State) : State :=
  let ws := s.stampWaits.filter fun w => w.req.isNone
  let ns := s.tcbNotes.filter fun n => n.req.isNone
  let es := s.taskEnds.filter fun e => e.req.isNone
  if ws.isEmpty && ns.isEmpty && es.isEmpty && s.heatWaits.isEmpty then s
  else
    let s := s.heatWaits.foldl (fun s h => noteHeat s h.1 h.2) { s with heatWaits := [] }
    let s := { s with
      stampWaits := s.stampWaits.filter fun w => w.req.isSome
      taskEnds := s.taskEnds.filter fun e => e.req.isSome }
    let s := ws.foldl StampWait.go s
    let s := ns.foldl (fun s n => noteState s n.ctx n.tcb n.st) s
    es.foldl (fun s e => endTask taskFuel s e) s

/-- The contexts that have read failed data end (R288). -/
def failReads (s : State) : State :=
  s.badReads.foldl (fun s r => contextFatal s r.1 (Config.errorCause s.free) r.2) { s with badReads := [] }

/-- A corrected error of a structure of Table 15-3, numbered in its order (R287): its counter saturates. -/
def countError (s : State) (kind : Nat) : State :=
  let n := sget 0 s.errCounters kind
  if n == BitVec.allOnes 32 then s else { s with errCounters := sset 0 s.errCounters kind (n + 1) }

end Sys2Proof.Machine
end

