-- ==== Sys2Proof/Machine/Ops.lean ====
section
/-! DEFINITION. The operations that meanings share: issuing a word, a memory word's unfinished lanes,
taking a trap and returning from one (spec 15), and fetching a clause (R39 to R44). -/

namespace Sys2Proof.Machine

/-- The outcome of every meaning. -/
abbrev Out := Host.Outcome State Fault Refusal

/-! ### A team with no lanes left (R66, R73) -/

/-- The references that an apply.lane has still to drop when all its lanes have exited: those of the running group and of
the groups to come (R329). -/
def ApplyState.owed (a : ApplyState) : List DWord := (if a.running then [a.handle] else []) ++ a.todo.map (·.1)

/-- A team whose full mask is empty leaves its cohort, drops the references of its apply.lane groups, and issues no more; it
retires when its operations have completed. Meanwhile the team is STALLED without a cause (log entry 85). -/
def endIfEmpty (s : State) (u : Nat) : State :=
  let t := s.getTeam u
  if t.full == 0 then
    let owed := (t.apply.toList ++ t.savedApply.toList).flatMap ApplyState.owed
    (owed.foldl dropRef (leaveCohort s u)).modTeam u fun t =>
      { t.sleep .stalled .none with clause := none, apply := none, savedApply := none }
  else s

/-- The fail action: every lane exits; a task becomes FAILED with the given TRAPINFO (R261, R283). -/
def failTeam (s : State) (u : Nat) (info : DWord) : State :=
  let s := s.modTeam u fun t =>
    { (t.exitLanes t.full) with
      inHandler := false, only := none, unfin := 0, waitReqs := []
      pending := t.pending.filter fun p => p.lost.isEmpty }
  endIfEmpty (failTask s u info) u

/-! ### Taking a trap (R279 to R282) -/

/-- TRAPINFO (R279): the code, the mask word of the pass, and the word or the unfinished lanes. -/
def trapInfoOf (code q : Nat) (hi : Word) : DWord :=
  BitVec.ofNat 64 (code % 256 + q % 32 * 256 + hi.toNat * 2 ^ 32)

/-- TRAPINFO with the double-trap code in bits 7:0 (R282). -/
def doubleInfo (info : DWord) : DWord := BitVec.ofNat 64 (info.toNat / 256 * 256 + 0x14)

/-- An apply.lane between two of its groups: it stands aside while a handler runs, which may execute one of its own
(R248; log entry 90). -/
def Team.waitingApply (t : Team) : Option ApplyState := t.apply.filter fun a => !a.running
def Team.runningApply (t : Team) : Option ApplyState := t.apply.filter fun a => a.running

/-- The current team takes a trap at addr (R281): open spans commit; TRAPINFO, TRAPPC, the active mask and
the place in the clause are recorded; a frame is pushed; the active mask becomes the full mask and the
team goes on at the context's trap entry. A trap in a handler, or one whose frame cannot be pushed, ends
the team (R282); so does a trap entry of 0. While a waiting ROWSTAT cannot commit, the team waits, and its word keeps its
sources (R54, R89). -/
def takeTrap (s : State) (code q : Nat) (hi : Word) (addr : DWord) : State :=
  let t := s.tm
  if t.blocked then (s.modTm fun t => if t.unfin == 0 then t else t.holdSources).stall .commit
  else
    let info := trapInfoOf code q hi
    let t := t.commitHere
    if t.inHandler then failTeam (s.setTm t) s.cur (doubleInfo info)
    else
      let t := { t with
        trapInfo := info, trapPc := addr
        savedActive := t.active, savedClause := t.clause, savedResume := t.resume
        savedOnly := if t.unfin == 0 then none else some t.unfin
        savedHeld := t.held, savedRead := none, savedWaitv := t.waitv
        savedApply := t.waitingApply, apply := t.runningApply
        trapMaskDepth := t.maskStack.length, late := none
        only := none, held := none, unfin := 0, waitv := none, waitReqs := [], fatalPages := [], hostFail := [], fabric := [] }
      let entry := (getCtx s t.ctx).trapEntry
      if entry == 0 then failTeam (s.setTm t) s.cur info
      else
        match t.push ⟨addr, t.frame, t.maskStack.length, 0, 0⟩ with
        | none => failTeam (s.setTm t) s.cur (doubleInfo info)
        | some t =>
          s.setTm { t.wake with
            inHandler := true, trapDepth := t.callDepth, active := t.full, pc := entry, clause := none,
            resume := none }

/-- The trap of a load that later words of the team have passed (R54, R276): it records the load's address, and the
team is to go on at the first word that has not issued. -/
def lateTrap (s : State) (code q : Nat) (hi : Word) (src : DWord) : State :=
  let at_ := s.tm.pc
  (takeTrap s code q hi src).modTm fun t => if t.inHandler then { t with late := some at_ } else t

/-- TRAPINFO bits 63:32 of a trap of a whole word (Table 15-1): the word; zero for the local-address fault of a call,
whose spill is an access of the team (log entry 88). -/
def trapHi (code : Nat) (w : Word) : Word := if code == 6 then 0 else w

/-- A trap of a whole word at the word (Table 15-1). -/
def trapWord (s : State) (code : Nat) (i : Instr) : State := takeTrap s code 0 (trapHi code i.word) s.tm.pc

/-! ### Issuing a word -/

/-- The scalar file as this word of a first pass finds it, when it issues first, is kept for the later passes (R62). -/
def Team.snap (t : Team) : Team :=
  match t.clause with
  | some c =>
    if t.passMajor && c.first && t.only.isNone then { t with clause := some { c with snaps := sput c.snaps c.idx t.s } } else t
  | none => t

/-- Pass that a word's touched registers lie in: one pass of a pass-major clause, every pass otherwise. -/
def Team.touchPass (t : Team) : Option Nat := if t.passMajor then some t.pass else none

/-- The word issues (R78). -/
def State.noteIssue (s : State) : State :=
  { s.modTm fun t => { t with lastIssue := s.issueCount + 1 } with issueCount := s.issueCount + 1 }

/-- Issue word i of the current team: in a later pass, a word that runs once does nothing (R42, R62); a
word that traps at decode or at issue traps (R44, R63); otherwise, after the results it touches have
committed, it has the effect k. A word that waits for such a commit has not issued (R53, R78). -/
def issue (i : Instr) (s : State) (k : State → State) : Out :=
  let s' := s.noteIssue
  let t := s'.tm
  if i.once && t.laterPass then .next (s'.modTm Team.finish)
  else
    match staticTrap i t with
    | some c => .next (trapWord s' c i)
    | none =>
      match t.settle (touchedRegs t i) i.sregs t.touchPass with
      | none => .next (s.stall .commit)
      | some t => .next (k (s'.setTm t.snap))

/-- A word that touches further registers, which its operands name: results to them commit before its effect
(R53, R83, R249). -/
def touching (vr sr : List Nat) (s : State) (k : State → State) : State :=
  match s.tm.settle vr sr none with
  | none => s.stall .commit
  | some t => k (s.setTm t)

/-- A word whose effect is on the team alone, after which the team goes on. -/
def teamWord (i : Instr) (s : State) (f : Team → Team) : Out :=
  issue i s fun s => s.modTm fun t => (f t).finish

/-- A control word: it counts in the open spans (R52; log entry 108) and moves the team itself; f gives the trap code
or the team (R65). -/
def controlWord (i : Instr) (s : State) (f : Team → Except Nat Team) : Out :=
  issue i s fun s =>
    match f s.tm.countSpan with
    | .ok t => s.setTm t
    | .error c => trapWord s c i

/-- What the team issues next: a clause header, or the next word of its clause (R39, R44). -/
def Team.nextInstr (t : Team) : Instr :=
  match t.clause with
  | none => .clauseHeader
  | some c => clauseInstr c.cls ((c.words[c.idx]?).getD 0)

/-! ### Unfinished lanes (R89, R272, R280) -/

/-- Why a lane of a memory word is unfinished: a page fault, a page that migrates, a fabric request
without answer, a line that a row command holds (R218), an access that waits and that those of later lanes come after,
for the fabric or for a release (R298, R407), a full channel, data that is uncorrectable, or a trap kind. -/
inductive LaneFault where
  | bad (pa : Nat)
  | page (p : Nat) (k : ReqKind)
  | migrating (p : Nat)
  | fabric
  | held
  | order (fabric : Bool)
  | channel (chan : Nat)
  | code (c : Nat)
  deriving DecidableEq, Repr

def LaneFault.parks : LaneFault → Bool
  | .page _ _ | .migrating _ | .fabric | .order true => true
  | _ => false

/-- The word has not done the lane yet, and goes on with it without a fault: a line that is held, an answer of the fabric. -/
def LaneFault.waits : LaneFault → Bool
  | .held | .fabric | .order _ => true
  | _ => false

/-- A translation fault, which ends the open spans (R54); an answer of the fabric that is awaited is none. -/
def LaneFault.translation : LaneFault → Bool
  | .page _ _ | .migrating _ => true
  | _ => false

/-- The requests of a core for the pages of some faults, one for each page and kind (R272): their numbers. -/
def sendReqs (core ctx : Nat) : List LaneFault → State → List Nat × State
  | [], s => ([], s)
  | f :: r, s =>
    let send := fun p k m =>
      let a := newReq s core ctx p k m []
      let b := sendReqs core ctx r a.2
      (if b.1.contains a.1 then b.1 else a.1 :: b.1, b.2)
    match f with
    | .page p k => send p k false
    | .migrating p => send p .write true
    | _ => sendReqs core ctx r s

/-- The trap of a word whose remaining lanes all have trap kinds: the kind of the lowest lane, with the
unfinished lanes of its pass (R279, R280). once is set for a once-per-team word (R362); also names lanes that
are unfinished without a fault. -/
def laneTrap (s : State) (once : Bool) (also : Mask) (faults : List (Nat × Nat)) : State :=
  let lanes := faults.map (·.1)
  let low := lanes.foldl min (lanes.headD 0)
  let code := ((faults.find? fun f => f.1 == low).map (·.2)).getD 0x12
  let unfin := maskOf lanes ||| also
  let s := s.modTm fun t => { t with unfin := unfin }
  if once then takeTrap s code 0 0 s.tm.pc
  else takeTrap s code (low / 32) (maskWord unfin (low / 32)) s.tm.pc

/-- The end of a memory word: it is complete when no lane is unfinished, and counts in the open spans where
count says so; translation faults park the team until every request is answered; then the remaining lanes
raise one trap (R280). A lane that meets a full channel stalls the team (R196). Uncorrectable data is fatal to
the context (R288). -/
def endMem (s : State) (once count : Bool) (faults : List (Nat × LaneFault)) : State :=
  if faults.isEmpty then
    s.modTm fun t => { (if count then t.countSpan else t) with fabric := [] }.advance
  else
    match faults.findSome? fun f => match f.2 with | .bad p => some p | _ => none with
    | some pa => contextFatal s s.tm.ctx (Config.errorCause s.free) pa
    | none =>
      let unfin := maskOf (faults.map (·.1))
      if faults.any fun f => f.2.parks then
        let r := sendReqs s.tm.core s.tm.ctx (faults.map (·.2)) s
        r.2.modTm fun t =>
          { (if faults.any fun f => f.2.translation then t.commitFault else t).sleep .parked .fault with
            unfin := unfin, waitReqs := t.waitReqs ++ r.1, parkedSince := s.clock }
      else if faults.any fun f => f.2 == .held || f.2 == .order false then
        s.modTm fun t => { t.sleep .stalled .hold with unfin := unfin }
      else
        match faults.findSome? fun f => match f.2 with | .channel c => some c | _ => none with
        | some c => s.modTm fun t => { t.sleep .stalled (.deferred c) with unfin := unfin }
        | none =>
          laneTrap s once 0 (faults.map fun f => (f.1, match f.2 with | .code c => c | _ => 0x12))

/-! ### Fetching (log entry 18) -/

/-- The faults of pages that do not translate: the trap kinds of replies already given, else requests
(R272, R274, R278). -/
def pageFaults (t : Team) (pages : List Nat) (f : Nat → LaneFault) : List LaneFault :=
  if pages.any t.fatalPages.contains then [.code 0x12]
  else if pages.any t.hostFail.contains then [.code 0x13]
  else pages.map f

/-- The pages of some bytes of an access. -/
def pagesAt (ea : DWord) (at_ : List Nat) : List Nat := distinct (at_.map fun i => pageOf (ea + BitVec.ofNat 64 i))

/-- How the fetch of a word ends. -/
inductive Fetch where
  | ok (w : Word)
  | page (p : Nat)
  | fatal
  | held
  | bad (pa : Nat)
  deriving DecidableEq, Repr

/-- The word at va as the team fetches it. -/
def fetchAt (s : State) (t : Team) (va : DWord) : Fetch × State :=
  if inAperture va 4 || inFabric va then (.fatal, s)
  else
    match translateBytes s t.core (teamTlbs t) t.ctx va 4 .fetch with
    | (.ok pas, s) =>
      match homeStop s t.core true false pas with
      | some .noRoute => (.fatal, s)
      | some (.bad pa) => (.bad pa, s)
      | some .held => (.held, s)
      | some (.lost at_) => (.page ((pagesAt va at_).headD 0), s)
      | none => (.ok (BitVec.ofNat 32 (ofBytes (homeRead s t.core pas))), homeFetchAll s false pas)
    | (.fatal, s) => (.fatal, s)
    | (.bad pa, s) => (.bad pa, s)
    | (.held, s) => (.held, s)
    | (.fault ps, s) | (.migrating ps, s) => (.page (ps.headD 0), s)

/-- n words from va on, or what stops the fetch. -/
def fetchAll (s : State) (t : Team) (va : DWord) : Nat → Except Fetch (List Word) × State
  | 0 => (.ok [], s)
  | n + 1 =>
    match fetchAt s t va with
    | (.ok w, s) =>
      match fetchAll s t (va + 4) n with
      | (.ok ws, s) => (.ok (w :: ws), s)
      | x => x
    | (f, s) => (.error f, s)

/-- A fetch that does not end well: the team waits, or takes the trap at its header (R272, R274, R278). -/
def fetchStops (s : State) : Fetch → State
  | .ok _ => s
  | .page p => endMem s true false ((pageFaults s.tm [p] fun p => .page p .fetch).map fun f => (0, f))
  | .fatal => takeTrap s 0x12 0 0 s.tm.pc
  | .held => s.stall .hold
  | .bad pa => contextFatal s s.tm.ctx (Config.errorCause s.free) pa

/-! ### Return from a trap (R283, R56) -/

/-- The kinds whose trap admits no replay (Table 15-1). -/
def noReplay (code : Nat) : Bool :=
  [0x0A, 0x0C, 0x0E, 0x10, 0x11, 0x12, 0x13].contains code

/-- A header word: its tag and its count field (Table 3-1). -/
def isHeader (w : Word) : Bool := w.toNat / 2 ^ 28 == 15
def hdrCount (w : Word) : Nat := field w.toNat 24 4
def hdrClass (w : Word) : Nat := field w.toNat 21 3

/-- A valid header (R40, R41). -/
def headerOk (w : Word) : Bool :=
  isHeader w && hdrCount w != 0 && hdrClass w ≤ 5 && field w.toNat 0 17 == 0 &&
    (hdrClass w != 4 || hdrCount w == 1)

/-! ### Drains (Table 3-3) -/

/-- The drain bits of a header: ld, st, eng, tr (Table 3-1). -/
def drainBit (w : Word) (i : Nat) : Bool := w.getLsbD (20 - i)

/-- The result's kind is covered by the drain bits (Table 3-3). -/
def Pending.drained (ld tr : Bool) (p : Pending) : Bool :=
  match p.kind with
  | .load | .atomic | .ldc _ => ld
  | .trans => tr
  | .status | .rowWait _ _ _ => false

/-- No engine command of the team is under way (Table 3-3). -/
def engineIdle (s : State) (t : Team) : Bool :=
  t.rowOut == 0 && t.deferred.isEmpty &&
    s.channels.all fun c => c.1 / 2048 != t.ctx || c.2.queue.all fun x => x.uid != t.uid

/-- The next word of a READY team would stall: it touches a result that has not arrived, or it is a header that drains such
results or engine commands (Table 4-6, R221; log entry 113). -/
def Team.stallsNext (s : State) (t : Team) : Bool :=
  match t.clause with
  | some _ =>
    let i := t.nextInstr
    t.pending.any fun p => p.span == 0 && !p.arrived && p.touched (touchedRegs t i) i.sregs t.touchPass
  | none =>
    t.resume.isNone &&
      match (fetchAt s t t.pc).1 with
      | .ok w =>
        headerOk w && ((t.pending.any fun p => !p.arrived && p.drained (drainBit w 0) (drainBit w 3)) ||
          (drainBit w 2 && !engineIdle s t))
      | _ => false

/-- A read of the team carries the urgency bit: no other team of its partition is READY, those apart whose next word would
stall (R221). -/
def urgentNow (s : State) (t : Team) : Bool :=
  !s.teams.any fun e => e.2.uid != t.uid && e.2.core == t.core && e.2.part == t.part && e.2.state == .ready &&
    !e.2.stallsNext s

/-- An LDC whose remaining lanes are abandoned reports no arrival (log entry 19). -/
def Team.abandon (t : Team) : Team := { t with pending := t.pending.filter fun p => !p.more }

/-- Resume after the trap with the clause as it stood; drop is 0 for replay and 1 for skip (R44, R283). -/
def Team.resumeWord (t : Team) (c : Clause) (skip : Bool) : Team :=
  let t := match t.apply with
    | some a => if skip && !a.running then { t with apply := none } else t
    | none => t
  if c.idx == c.limit || c.cls == 1 || 3 ≤ c.cls then
    let i := if skip then c.idx + 1 else c.idx
    let t := t.enterClause (c.base + BitVec.ofNat 64 (4 * i)) c.cls (c.words.drop i)
    { t with
      held := if skip then none else t.savedHeld
      clause := t.clause.map fun x => { x with skipped := c.skipped + i } }
  else
    let t := { t with clause := some c, pc := c.base + BitVec.ofNat 64 (4 * c.idx) }
    if skip then t.abandon.advance else { t with only := t.savedOnly, held := t.savedHeld, waitv := t.savedWaitv }

/-- Skip after a trap at a header whose word is w (R56): past the clause, or past the word where it is no header. -/
def passWord (w : Word) (s : State) : State :=
  s.modTm fun t => { t with pc := t.trapPc + BitVec.ofNat 64 (if isHeader w then 4 * (hdrCount w + 1) else 4) }

/-- Where skip goes on after a trap without a clause (R56): past the clause of a header that was read, or past the
first of the words that a call left. The word of a bad header stands in TRAPINFO; a race comes before the header is read,
so that skip reads it, and where its page is not there the RETT waits at s0, as it found the team. A header whose fetch took
a fatal fault admits no skip. -/
def skipHeader (s0 s : State) (code : Nat) (fail : State) : State :=
  let t := s.tm
  match t.savedRead, t.savedResume with
  | some n, _ => s.setTm { t with pc := t.trapPc + BitVec.ofNat 64 (4 * (n + 1)) }
  | none, some (n, cls) =>
    s.setTm { t with pc := t.trapPc + 4, resume := if n ≤ 1 then none else some (n - 1, cls) }
  | none, none =>
    if code == 0x12 || code == 0x13 then fail
    else if code == 1 then passWord (t.trapInfo.extractLsb' 32 32) s
    else
      match fetchAt s0 s0.tm t.trapPc with
      | (.ok w, x) => passWord w (x.setTm t)
      | (.page p, x) =>
        if s0.tm.fatalPages.contains p || s0.tm.hostFail.contains p then fail
        else (fetchStops x (.page p)).modTm fun t => { t with unfin := 0, held := none }
      | (.fatal, _) => fail
      | (f, x) => fetchStops x f

/-- RETT's action after its checks (R283): the frame is popped, the active mask restored, and the trapped
word replayed, skipped, or the team ended. s0 is the state before the RETT, in which it waits where it must. -/
def returnTrap (s0 s : State) (a : RettAction) : State :=
  let t := s.tm
  let top := (t.callHw.head?).getD ⟨0, 0, 0, 0, 0⟩
  let t := { t.pop with
    frame := top.frame, active := t.savedActive &&& t.full, inHandler := false
    apply := t.savedApply.or t.apply, savedApply := none
    clause := none, resume := none, pc := t.trapPc, fatalPages := [], hostFail := [] }
  let code := t.trapInfo.toNat % 256
  let s := s.setTm t
  let fail := failTeam s s.cur t.trapInfo
  match a with
  | .fail => fail
  | .replay =>
    if noReplay code then fail
    else
      match t.savedClause with
      | none => s.setTm { t with resume := t.savedResume }
      | some c => s.setTm (t.resumeWord c false)
  | .skip =>
    match t.late, t.savedClause with
    | some at_, c =>
      s.setTm { t with
        clause := c, resume := t.savedResume, only := t.savedOnly, held := t.savedHeld, waitv := t.savedWaitv
        pc := at_ }
    | none, some c => s.setTm (t.resumeWord c true)
    | none, none => skipHeader s0 s code fail

end Sys2Proof.Machine
end

