-- ==== Sys2Proof/Machine/CopyOps.lean ====
section
/-! DEFINITION. The queues of copy channels (R192 to R196, R202). -/

namespace Sys2Proof.Machine

def Channel.blank : Channel := ⟨[], [], 0, 0⟩
def getChan (s : State) (k : Nat) : Channel := (sfind s.channels k).getD .blank
def setChan (s : State) (k : Nat) (c : Channel) : State := { s with channels := sput s.channels k c }

/-- A command as it enters the queue (R194, R198). -/
def newCmd (seq : BitVec 48) (order ctx uid : Nat) (data : Word) : CopyCmd :=
  ⟨seq, order, ctx, uid, data, .queued, 0, 0, 0, 0, 0, none, false, []⟩

/-- Accept an aperture store into the queue (R198). -/
def acceptCopy (s : State) (k order ctx uid : Nat) (data : Word) : State :=
  let c := getChan s k
  setChan s k { c with seq := c.seq + 1, queue := c.queue ++ [newCmd (c.seq + 1) order ctx uid data] }

/-- The flags that an aperture store's data sets in bits 15:12, when bits 15:14 are not both zero (R192). -/
def overrideFlags (data : Word) : Option EFlags :=
  let f := field data.toNat 12 4
  if f / 4 == 0 then none else EFlags.ofCode f

/-- The issue is a release that must wait for held lines (R174, R218). -/
def apertureHeld (s : State) (u : Nat) (data : Word) : Bool :=
  match overrideFlags data with
  | some f => f.rel && !canRelease s u f.scope.relTo false
  | none => false

/-- A copy's flags: those of its aperture store, else its template's, as read at the head or as they stand (R174,
R192). -/
def copyFlags (s : State) (ctx : Nat) (c : Option CopyCmd) (data : Word) : Option EFlags :=
  match overrideFlags data, c with
  | some f, _ => some f
  | none, some c =>
    if c.state == .queued then EFlags.ofCode (field ((sget 0 (getCtx s ctx).templates (data.toNat % 4096)).toNat) 20 4)
    else EFlags.ofCode (field c.tmpl.toNat 20 4)
  | none, none => EFlags.ofCode (field ((sget 0 (getCtx s ctx).templates (data.toNat % 4096)).toNat) 20 4)

/-- Some flags ask for a release at a scope. -/
def releasesAt (sc : EScope) (f : Option EFlags) : Bool := match f with | some f => f.rel && f.scope == sc | none => false

/-- An earlier engine command of team u, issued before the place given, that carries a release flag at the scope has
not performed its final release (R175, R184 note 4). -/
def earlierReleases (s : State) (u order : Nat) (sc : EScope) : Bool :=
  (s.rowQueue.any fun r => r.uid == u && r.id < order && r.flags.rel && r.flags.scope == sc) ||
  s.channels.any fun e =>
    (e.2.queue.any fun c => c.uid == u && c.order < order && releasesAt sc (copyFlags s c.ctx (some c) c.data)) ||
    e.2.deferred.any fun d => d.1 == u && d.2.2 < order && releasesAt sc (copyFlags s (e.1 / 2048) none d.2.1)

/-- An aperture store of team u (R174, R192, R195): none when the team already holds a deferred store on
the channel, and stalls (R196). -/
def apertureStore (s : State) (u core chan : Nat) (data : Word) : Option State :=
  let t := s.getTeam u
  let k := chanKey t.ctx core chan
  let c := getChan s k
  let full := 16 ≤ c.queue.length || !c.deferred.isEmpty
  if full && t.deferred.any fun d => d.1 == k then none
  else
    let s := match overrideFlags data with
      | some f => if f.rel then releaseAt f.scope.relTo s u else s
      | none => s
    let order := s.nextRow
    let s := { s with nextRow := order + 1 }
    if full then
      let s := setChan s k { getChan s k with deferred := c.deferred ++ [(u, data, order)] }
      some (s.modTeam u fun t => { t with deferred := t.deferred ++ [(k, data)] })
    else some (acceptCopy s k order t.ctx u data)

end Sys2Proof.Machine
end

