-- ==== Sys2Proof/Machine/Lanes.lean ====
section
/-! DEFINITION. The lanes of global memory words: addresses (R365), GlobalCheck (R366), race detection
(R155), and accesses through the fabric window (R297, R299). -/

namespace Sys2Proof.Machine

/-- The address of lane l (R49, R89, R365). -/
def memAddr (t : Team) (m : MemOp) (l : Nat) : DWord :=
  let t := t.sources
  (match m.s with | .s n => t.sread n.val | .zero => 0) +
    (if m.w then t.src64 m.x l else sext32 (t.src m.x l))

/-- What an access does: red is an atomic that returns nothing. -/
inductive Acc where
  | load | store | atomic | red
  deriving DecidableEq, Repr

/-- Where an access is performed. -/
inductive Site where
  /-- the core's store (R136) -/
  | plain
  /-- the home slice, with the races of a plain access: LDU, STU, KST (R362, R372, R410) -/
  | home
  /-- the home slice: an atomic, or an acquire or a release at cohort scope and above (R155, R166, R169) -/
  | far
  deriving DecidableEq, Repr

/-! ### Races (R155, R156) -/

/-- The entered bundles that hold a line, with pool key and descriptor number. -/
def enteredOn (s : State) (line : Nat) : List (Nat × Nat × Bundle) :=
  (s.pools.flatMap fun p => p.2.bundles.map fun b => (p.1, b.1, b.2)).filter
    fun b => b.2.2.state == .entered && b.2.2.hasLine line

/-- The bundle is one that team t holds entered. -/
def heldBy (t : Team) (b : Nat × Nat × Bundle) : Bool :=
  b.1 == poolKey t.core t.ctx && b.2.2.enterers.contains t.uid

/-- Another team than u wrote a byte that p picks, in a bundle's SHARE epoch. -/
def otherWrote (bs : List (Nat × Nat × Bundle)) (u : Nat) (p : Nat → Bool) : Bool :=
  bs.any fun b => b.2.2.mode == .share && b.2.2.writers.any fun w => w.2 != u && p w.1

/-- An access races on a line that the team itself holds entered, in bundle o (R155; log entry 94). -/
def racesHeld (t : Team) (acc : Acc) (far : Bool) (pa : Nat) (bs : List (Nat × Nat × Bundle)) (o : Bundle) : Bool :=
  far ||
  match acc with
  | .atomic | .red => true
  | .store => o.mode == .read || otherWrote bs t.uid fun w => w / 64 == pa / 64
  | .load => otherWrote bs t.uid fun w => w == pa

/-- The descriptor of the bundle on which an access to one byte races (R155). -/
def raceAt (s : State) (t : Team) (acc : Acc) (far : Bool) (pa : Nat) : Option Nat :=
  match enteredOn s (lineOf pa) with
  | [] => none
  | b :: bs =>
    let own := (b :: bs).filter (heldBy t)
    match own with
    | [] => some b.2.1
    | o :: _ =>
      if racesHeld t acc far pa (b :: bs) o.2.2 then some o.2.1 else none

/-- The first race of an access to some bytes. -/
def raceOf (s : State) (t : Team) (acc : Acc) (far : Bool) (pas : List Nat) : Option Nat :=
  if s.pools.isEmpty then none else pas.findSome? (raceAt s t acc far)

/-- A store by team u to some bytes, as a bundle that it holds entered records it (R151). -/
def Bundle.record (u : Nat) (pas : List Nat) (b : Bundle) : Bundle :=
  if b.state == .entered && b.mode != .read && b.enterers.contains u then
    { b with
      writers := (pas.filter fun pa => b.hasLine (lineOf pa)).foldl
        (fun w pa => if w.contains (pa, u) then w else w ++ [(pa, u)]) b.writers }
  else b

/-- Stores to lines that the team holds entered under OWN or SHARE are recorded (R151). -/
def recordWrites (s : State) (t : Team) (pas : List Nat) : State :=
  match sfind s.pools (poolKey t.core t.ctx) with
  | none => s
  | some p =>
    { s with
      pools := sput s.pools (poolKey t.core t.ctx)
        { p with bundles := p.bundles.map fun b => (b.1, b.2.record t.uid pas) } }

/-! ### GlobalCheck (R366) -/

/-- How the check of a lane ends. -/
inductive Lane where
  | ok (pas : List Nat)
  | aperture
  | fabric (target off : Nat)
  | fail (fs : List LaneFault)
  deriving DecidableEq, Repr

/-- The access must reach the home slice: always for far ones, for a plain load when a byte is missing from
the first-level cache. -/
def goesHome (s : State) (core : Nat) (site : Site) (acc : Acc) (pas : List Nat) : Bool :=
  site != .plain || (acc == .load && pas.any fun pa => (l1Get s core pa).isNone)

/-- What stops a lane at the home slice; for pages behind a port that is down the team waits (R276). -/
def homeFaults (t : Team) (ea : DWord) (k : ReqKind) : HomeStop → List LaneFault
  | .noRoute => [.code 0x12]
  | .bad pa => [.bad pa]
  | .held => [.held]
  | .lost at_ => pageFaults t (pagesAt ea at_) fun p => .page p k

/-- GlobalCheck of one lane (R366), and what stops it at the home slice. An access after an acquiring ROWSTAT waits for
the row commands (R184 note 6), and a write waits for an earlier load of its bytes (R162, R184 note 1). Loads and the reads of returning atomics may be
urgent (R221). -/
def globalCheck (s : State) (t : Team) (ea : DWord) (n : Nat) (acc : Acc) (site : Site) : Lane × State :=
  if !canonical ea then (.fail [.code 0x12], s)
  else if t.awaitsRows then (.fail [.held], s)
  else if inAperture ea n then (.aperture, s)
  else if inFabric ea then (.fabric (field ea.toNat 36 12) (field ea.toNat 0 36), s)
  else
    let k := if acc == .load then ReqKind.read else .write
    match translateBytes s t.core (teamTlbs t) t.ctx ea n k with
    | (.fatal, s) => (.fail [.code 0x12], s)
    | (.bad pa, s) => (.fail [.bad pa], s)
    | (.held, s) => (.fail [.held], s)
    | (.fault ps, s) => (.fail (pageFaults t ps fun p => .page p k), s)
    | (.migrating ps, s) => (.fail (pageFaults t ps .migrating), s)
    | (.ok pas, s) =>
      match raceOf s t acc (site == .far) pas with
      | some i => (.fail [.code 0x09], s.modTeam t.uid fun t => { t with raceIndex := i })
      | none =>
        if acc != .load && t.unreadAt pas then (.fail [.held], s)
        else if goesHome s t.core site acc pas then
          match homeStop s t.core (acc != .store) (acc != .load) pas with
          | some x => (.fail (homeFaults t ea k x), s)
          | none =>
            (.ok pas, if acc == .store then s else homeFetchAll s (acc != .red && urgentNow s t) pas)
        else (.ok pas, s)

/-- Every fault of a word's lanes is one after which it is not simply gone on with. -/
def allDone (faults : List (Nat × LaneFault)) : Bool := faults.all fun f => !f.2.waits

/-! ### Loads from an expander (R276) -/

/-- The line is on its way from an expander for some load. -/
def onItsWay (s : State) (line : Nat) : Bool :=
  s.teams.any fun e => (e.2.atPort.any fun x => lineOf x.2 == line) || e.2.pending.any fun p => p.onWay.contains line

/-- The bytes of a load that come from an expander, as the state before it says: no cache serves them. -/
def portBytes (s : State) (core : Nat) (how : Site) (pas : List Nat) : List Nat :=
  pas.filter fun pa => pa / 2 ^ 44 == 1 &&
    match l1Get s core pa with
    | some b => !b.dirty && (onItsWay s (lineOf pa) || (how != .plain && !l2Holds s pa))
    | none => onItsWay s (lineOf pa) || !l2Holds s pa

/-- Lane l of the current load waits for some bytes. -/
def noteAtPort (s : State) (u l : Nat) (pas : List Nat) : State :=
  if pas.isEmpty then s else s.modTeam u fun t => { t with atPort := t.atPort ++ pas.map fun pa => (l, pa) }

/-! ### The fabric window -/

/-- Send a request to a package: the sequence number it takes (R299). -/
def sendFabric (s : State) (target : Nat) (who : FabWho) (op : FabOp) (off : Nat) : Word × State :=
  let seq := sget 0 s.fabric.nextSeq target
  (seq, { s with fabric := { s.fabric with
    nextSeq := sset 0 s.fabric.nextSeq target (seq + 1)
    outstanding := s.fabric.outstanding ++ [⟨target, seq, who, op, off, 0⟩] } })

/-- Bytes of an atomic's word (Table 9-2). -/
def atomSize : AtomOp → Nat
  | .add64 | .exch64 | .cas64 => 8
  | _ => 4

/-- The bytes that a request accesses. -/
def fabSize : FabOp → Nat
  | .load n => n
  | .store d => d.length
  | .atom op _ _ => atomSize op
  | .reduce _ d _ => d.length

/-- A request of the team to a package that touches a byte of an access has no response yet: the access is sent after it
(R298). -/
def fabOverlap (s : State) (u target off n : Nat) : Bool :=
  s.fabric.outstanding.any fun r =>
    r.who == .team u && r.target == target && r.off < off + n && off < r.off + fabSize r.op

/-- A lane's access in the fabric window: the request is sent once; when its answer is there, the lane takes
it (R297). Before full function the window is a fatal memory fault (R314). -/
def fabricLane (s : State) (t : Team) (l target off : Nat) (op : FabOp) :
    Except (List LaneFault) (List Byte) × State :=
  match t.fabric.find? fun f => f.lane == l with
  | some f =>
    match f.reply with
    | some (.data bs) => (.ok bs, s)
    | some .fail | some .outside => (.error [.code 0x12], s)
    | some (.race i) => (.error [.code 0x09], s.modTeam t.uid fun t => { t with raceIndex := i })
    | none => (.error [.fabric], s)
  | none =>
    if s.boot.stage != 2 then (.error [.code 0x12], s)
    else if fabOverlap s t.uid target off (fabSize op) then (.error [.order true], s)
    else
      let r := sendFabric s target (.team t.uid) op off
      (.error [.fabric], r.2.modTeam t.uid fun t => { t with fabric := t.fabric ++ [⟨l, target, r.1, none⟩] })

/-! ### Going through the lanes -/

/-- The later lanes of the word wait with the lane: it meets a full channel (R407), or its access has to wait and comes before
theirs (R298, R407). -/
def LaneFault.stops : LaneFault → Bool
  | .channel _ | .order _ => true
  | _ => false

/-- Lanes in ascending order: results and faults. After a lane that the later lanes wait for, they have its fault. -/
def eachLane {α : Type} (lanes : List Nat)
    (f : State → Nat → Except (List LaneFault) α × State) (s : State) :
    State × List (Nat × α) × List (Nat × LaneFault) :=
  lanes.foldl (init := (s, [], [])) fun acc l =>
    match acc.2.2.find? fun x => x.2.stops with
    | some x => (acc.1, acc.2.1, acc.2.2 ++ [(l, x.2)])
    | none =>
      match f acc.1 l with
      | (.ok x, s) => (s, acc.2.1 ++ [(l, x)], acc.2.2)
      | (.error fs, s) => (s, acc.2.1, acc.2.2 ++ fs.map fun e => (l, e))

/-- A word whose scalar operand makes it run once acts as one lane (R62, R365). -/
def Team.memLanes (t : Team) (r : Reg) : List Nat := if r.isScalar then [0] else t.wordLanes

/-- 32-bit words of loaded bytes, least significant first. -/
def wordsOf (bs : List Byte) : List Word :=
  (List.range (max 1 (bs.length / 4))).map fun i => BitVec.ofNat 32 (ofBytes (bs.drop (4 * i)))

/-- Register keys and words that loaded bytes give to register n of a team. -/
def Team.loaded (t : Team) (n : Nat) (bs : List Byte) : List (Nat × Word) :=
  (wordsOf bs).zipIdx.map fun w => (t.frame + n + w.2, w.1)

end Sys2Proof.Machine
end

