-- ==== Sys2Proof/Machine/Local.lean ====
section
/-! DEFINITION. Local accesses: LDL and STL (R371, R409) on the scratchpad (R135), the mirrored window
(R72, R173, R294) and the register window (R82, R83). -/

namespace Sys2Proof.Machine

/-- Where a local address lies. -/
inductive Local where
  | scratch (a : Nat)
  | window (off : Nat)
  /-- lane l of team register g -/
  | reg (g l : Nat)
  | bad
  deriving DecidableEq, Repr

/-- Register windows: bytes (R82). -/
def Team.regBytes (t : Team) : Nat := (t.lanes + 31) / 32 * t.nreg * 128

/-- A local address of n bytes, aligned and wholly within a range of the team (R371). -/
def localOf (t : Team) (ea : DWord) (n : Nat) : Local :=
  let a := ea.toNat
  if a % n != 0 then .bad
  else if a + n ≤ t.scratchSize then .scratch a
  else if 0x01000000 ≤ a && a + n ≤ 0x01000000 + t.windowSize then .window (a - 0x01000000)
  else if 0x02000000 ≤ a && a + n ≤ 0x02000000 + t.regBytes then
    let off := a - 0x02000000
    .reg (off / 128 % t.nreg) (off / 128 / t.nreg * 32 + off % 128 / 4)
  else .bad

/-- The team registers that a local word reaches through the register window. -/
def windowRegs (t : Team) (m : MemOp) (n : Nat) : List Nat :=
  t.wordLanes.filterMap fun l => match localOf t (memAddr t m l) n with | .reg g _ => some g | _ => none

/-- The bytes at a local place. -/
def localRead (t : Team) (n : Nat) : Local → List Byte
  | .scratch a => (List.range n).map fun i => t.scratchByte (a + i)
  | .window off => (List.range n).map fun i => sget 0 t.window (off + i)
  | .reg g l => (List.range (n / 4)).flatMap fun i => toBytes 4 (t.vget g (l + i)).toNat
  | .bad => []

/-- Write bytes of a mirrored window (R173). -/
def Team.windowPut (t : Team) (off : Nat) (bs : List Byte) : Team :=
  { t with window := bs.zipIdx.foldl (fun m b => sset 0 m (off + b.2) b.1) t.window }

/-- Write bytes at a local place of the team itself. -/
def localWrite (t : Team) (bs : List Byte) : Local → Team
  | .scratch a => t.scratchPut a bs
  | .window off => t.windowPut off bs
  | .reg g l => (wordsOf bs).zipIdx.foldl (fun t w => t.vset g (l + w.2) w.1) t
  | .bad => t

/-- The other members of a team's cohort. -/
def otherMembers (s : State) (t : Team) : List Nat :=
  match t.cohort.bind (getCohort s) with
  | none => []
  | some c => (c.members.map (·.2)).filter (· != t.uid)

/-- Where a packet for no core goes: to the home slice of a swapped member's image (R294). -/
def toImage : Nat := 512

/-- The packets of a mirrored store: one for each core that holds another member, and one for each swapped member, which
goes to the home slice of its image (R294). -/
def mirrorPackets (s : State) (t : Team) (off : Nat) (bs : List Byte) : List MirrorPkt :=
  let here := (otherMembers s t).filter fun u => (s.getTeam u).resident
  let away := (otherMembers s t).filter fun u => !(s.getTeam u).resident
  let pkt := fun core targets =>
    { sender := t.uid, cohort := t.cohort.getD 0, core := core, targets := targets, off := off, data := bs : MirrorPkt }
  ((distinct (here.map fun u => (s.getTeam u).core)).map fun k =>
      pkt k (here.filter fun u => (s.getTeam u).core == k)) ++
    away.map fun u => pkt toImage [u]

/-- A route is missing that a mirrored store of the team needs, to a member's core or to the slice of its image: its lane
takes the fatal memory fault (R292; log entry 107). -/
def mirrorCut (s : State) (t : Team) : Bool :=
  (otherMembers s t).any fun u =>
    let x := s.getTeam u
    if x.resident then !coresReach s t.core x.core else x.image.any fun a => !reachable s t.core a

/-- A mirrored store leaves the team. -/
def sendMirror (s : State) (t : Team) (off : Nat) (bs : List Byte) : State :=
  { s with mirrors := s.mirrors ++ mirrorPackets s t off bs }

/-- A local word: results to registers that it reaches through the window commit first when their span has ended; it
waits for one that cannot commit (R53, R83). -/
def localWord (i : Instr) (m : MemOp) (n : Nat) (s : State) (k : State → State) : Out :=
  issue i s fun s => touching (windowRegs s.tm m n) [] s k

/-- LDL of n bytes (R371). -/
def ldlWord (i : Instr) (d : VReg) (m : MemOp) (n look : Nat) (s : State) : Out :=
  localWord i m n s fun s =>
    let t := s.tm
    let x := eachLane t.wordLanes (fun s l =>
      match localOf t (memAddr t m l) n with
      | .bad => (.error [.code 0x06], s)
      | p => (.ok (localRead t n p), s)) s
    let s := x.1.modTm fun t => t.results (allDone x.2.2) fun t =>
      t.pend .load look (x.2.1.map fun e => (e.1, t.loaded d.val e.2)) (fun _ => 0) []
    endMem s false false x.2.2

/-- The data of an STL lane. -/
def stlData (t : Team) (d : VReg) (n l : Nat) : List Byte :=
  (List.range (n / 4)).flatMap fun i => toBytes 4 (t.sources.lane (d.val + i) l).toNat

/-- One lane of STL at a local place (R409). -/
def stlLane (t : Team) (bs : List Byte) (p : Local) (s : State) : Except (List LaneFault) Unit × State :=
  match p with
  | .bad => (.error [.code 0x06], s)
  | .window off =>
    if mirrorCut s t then (.error [.code 0x12], s)
    else (.ok (), (sendMirror s t off bs).modTeam t.uid fun t => localWrite t bs p)
  | p => (.ok (), s.modTeam t.uid fun t => localWrite t bs p)

/-- STL of n bytes (R409): data is read before any lane writes. -/
def stlWord (i : Instr) (d : VReg) (m : MemOp) (n : Nat) (s : State) : Out :=
  localWord i m n s fun s =>
    let t := s.tm
    let x := eachLane t.wordLanes
      (fun s l => stlLane t (stlData t d n l) (localOf t (memAddr t m l) n) s) s
    endMem x.1 false true x.2.2

def execLdlW (t : VReg) (m : MemOp) (look : Fin 16) (s : State) : Out :=
  ldlWord (.ldlW t m look) t m 4 look.val s
def execLdlQ (t : VReg) (m : MemOp) (look : Fin 16) (s : State) : Out :=
  ldlWord (.ldlQ t m look) t m 16 look.val s
def execStlW (t : VReg) (m : MemOp) (look : Fin 16) (s : State) : Out :=
  stlWord (.stlW t m look) t m 4 s
def execStlQ (t : VReg) (m : MemOp) (look : Fin 16) (s : State) : Out :=
  stlWord (.stlQ t m look) t m 16 s

end Sys2Proof.Machine
end

