-- ==== Sys2Proof/Machine/Atomic.lean ====
section
/-! DEFINITION. Atomics: ATOM, RED and ATOML (R166 to R168, R333, R334, R393). -/

namespace Sys2Proof.Machine

/-- The new value of a word (Table 9-2): old value, comparand c, data d. -/
def atomNew (op : AtomOp) (old c d : DWord) : DWord :=
  let o := lo32 old
  let x := lo32 d
  match op with
  | .add => zext32 (o + x)
  | .add64 => old + d
  | .mins => zext32 (if x.slt o then x else o)
  | .maxs => zext32 (if o.slt x then x else o)
  | .minu => zext32 (if x.ult o then x else o)
  | .maxu => zext32 (if o.ult x then x else o)
  | .and => zext32 (o &&& x)
  | .or => zext32 (o ||| x)
  | .xor => zext32 (o ^^^ x)
  | .exch => zext32 x
  | .exch64 => d
  | .cas => zext32 (if o == lo32 c then x else o)
  | .cas64 => if old == c then d else old
  | .fadd => BitVec.ofNat 64 (fAdd fmtF32 .rn o.toNat x.toNat).1
  | .faddbf =>
    zext32 (halves (fAdd fmtBf16 .rn (lo16 o) (lo16 x)).1 (fAdd fmtBf16 .rn (hi16 o) (hi16 x)).1)

/-- Comparand and data of a lane (Table 9-2, R89). -/
def Team.atomData (t : Team) (op : AtomOp) (v l : Nat) : DWord × DWord :=
  let t := t.sources
  match op with
  | .cas => (zext32 (t.lane v l), zext32 (t.lane (v + 1) l))
  | .cas64 => (t.lane64 v l, t.lane64 (v + 2) l)
  | .add64 | .exch64 => (0, t.lane64 v l)
  | _ => (0, zext32 (t.lane v l))

/-- One atomic at the home slice by a team of a core (R168): the core's dirty bytes first, then one
indivisible read and write; the core's clean copies go (R419). The answer is the old value's bytes. -/
def homeAtomic (s : State) (core : Nat) (op : AtomOp) (c d : DWord) (pas : List Nat) : List Byte × State :=
  let s := flushBytes s core pas
  let old := pas.map (memGet s)
  let new := atomNew op (BitVec.ofNat 64 (ofBytes old)) c d
  (old, engineWrite s core (pas.zip (toBytes pas.length new.toNat)))

/-- One lane of ATOM or RED (R166, R333). -/
def atomLane (t : Team) (acc : Acc) (op : AtomOp) (v : Nat) (m : MemOp) (s : State) (l : Nat) :
    Except (List LaneFault) (List Byte) × State :=
  let ea := memAddr t m l
  let n := atomSize op
  let x := t.atomData op v l
  if ea.toNat % n != 0 then (.error [.code 0x07], s)
  else
    match globalCheck s t ea n acc .far with
    | (.fail fs, s) => (.error fs, s)
    | (.aperture, s) => (.error [.code 0x08], s)
    | (.fabric target off, s) => fabricLane s t l target off (.atom op x.1 x.2)
    | (.ok pas, s) => let r := homeAtomic s t.core op x.1 x.2 pas; (.ok r.1, r.2)

/-- ATOM (R333): old values are a long-latency result with lookahead 0. -/
def execAtom (op : AtomOp) (t : VReg) (m : MemOp) (s : State) : Out :=
  issue (.atom op t m) s fun s =>
    let u := s.tm
    let x := eachLane u.wordLanes (atomLane u .atomic op t.val m) s
    let s := x.1.modTm fun u => u.results (allDone x.2.2) fun u =>
      u.pend .atomic 0 (x.2.1.map fun e => (e.1, u.loaded t.val e.2)) (fun _ => 0) []
    endMem s false false x.2.2

/-- RED (R393): no result. -/
def execRed (op : AtomOp) (t : VReg) (m : MemOp) (s : State) : Out :=
  issue (.red op t m) s fun s =>
    let x := eachLane s.tm.wordLanes (atomLane s.tm .red op t.val m) s
    endMem x.1 false true x.2.2

/-- One lane of ATOML (R334): an aligned word of the scratchpad. -/
def atomlLane (t : Team) (op : AtomOp) (v : Nat) (m : MemOp) (s : State) (l : Nat) :
    Except (List LaneFault) (List Byte) × State :=
  let n := atomSize op
  let x := t.atomData op v l
  if (memAddr t m l).toNat % n != 0 then (.error [.code 0x07], s)
  else
    match localOf t (memAddr t m l) n with
    | .scratch a =>
      let old := localRead (s.getTeam t.uid) n (.scratch a)
      let new := atomNew op (BitVec.ofNat 64 (ofBytes old)) x.1 x.2
      (.ok old, s.modTeam t.uid fun u => u.scratchPut a (toBytes n new.toNat))
    | _ => (.error [.code 0x06], s)

/-- ATOML (R334). -/
def execAtoml (op : AtomOp) (t : VReg) (m : MemOp) (s : State) : Out :=
  issue (.atoml op t m) s fun s =>
    let u := s.tm
    let x := eachLane u.wordLanes (atomlLane u op t.val m) s
    let s := x.1.modTm fun u => u.results (allDone x.2.2) fun u =>
      u.pend .atomic 0 (x.2.1.map fun e => (e.1, u.loaded t.val e.2)) (fun _ => 0) []
    endMem s false false x.2.2

end Sys2Proof.Machine
end

