-- ==== Sys2Proof/Machine/Load.lean ====
section
/-! DEFINITION. Global loads: LD, LD.acq, LDU and LDC (R365 to R370, R372). -/

namespace Sys2Proof.Machine

/-- Read the bytes of a lane that has passed its checks. After a read at the home slice the core's clean copies of the
bytes, which may be older, are gone, so that no later load returns an older value (R163). -/
def readHow (s : State) (core : Nat) (how : Site) (pas : List Nat) : List Byte × State :=
  match how with
  | .plain => coreRead s core pas
  | _ => (homeRead s core pas, dropClean s core pas)

/-- One lane of a load of n bytes: the bytes read, or its faults. fab says that the word is admitted in the
fabric window (R297). -/
def loadLane (t : Team) (how : Site) (fab : Bool) (n : Nat) (ea : DWord) (s : State) (l : Nat) :
    Except (List LaneFault) (List Byte) × State :=
  match globalCheck s t ea n .load how with
  | (.fail fs, s) => (.error fs, s)
  | (.aperture, s) => (.error [.code 0x08], s)
  | (.fabric target off, s) =>
    if fab then fabricLane s t l target off (.load n) else (.error [.code 0x12], s)
  | (.ok pas, s1) =>
    let r := readHow s1 t.core how pas
    (.ok r.1, noteAtPort r.2 t.uid l (portBytes s t.core how pas))

/-- The lanes of a load. -/
def loadLanes (t : Team) (how : Site) (fab aligned : Bool) (n : Nat) (m : MemOp) (lanes : List Nat)
    (s : State) : State × List (Nat × List Byte) × List (Nat × LaneFault) :=
  eachLane lanes (fun s l =>
    let ea := memAddr t m l
    if aligned && ea.toNat % n != 0 then (.error [.code 0x07], s) else loadLane t how fab n ea s l) s

/-- How the results of the current word are read: a word at the home slices reads there again where data is lost
(R276), and nothing later of the team is performed before an acquire's results have arrived (R169). -/
def Team.readAt (t : Team) (how : Site) (acq : Bool) : Team :=
  let mine := t.pending.filter fun p => p.src == t.pc
  let t := if acq then t.came (mine.flatMap Pending.onWay) else t
  { t with pending := t.pending.map fun p =>
      if p.src == t.pc then { p with arrived := p.arrived || acq, home := how != .plain } else p }

/-- A load of n bytes into r (R365): a long-latency result with the given span, values zero-extended; a
scalar r takes all 64 bits. Only an acquire load is aligned (R169). -/
def loadWord (i : Instr) (r : Reg) (m : MemOp) (n look : Nat) (how : Site) (fab aligned : Bool)
    (before : State → State) (s : State) : Out :=
  issue i s fun s =>
    let s := before s
    let t := s.tm
    let lanes := t.memLanes r
    let x := loadLanes t how fab aligned n m lanes s
    let eas := lanes.map fun l => (l, memAddr t m l, n)
    let s := x.1.modTm fun t => t.results (allDone x.2.2) fun t =>
      let t := match r with
        | .s d =>
          match x.2.1 with
          | [] => t
          | (_, bs) :: _ => t.pendS .load look d.val (BitVec.ofNat 64 (ofBytes bs)) eas
        | .v d =>
          t.pend .load look (x.2.1.map fun e => (e.1, t.loaded d.val e.2)) (fun _ => 0) eas
      if how == .plain && !aligned then t else t.readAt how aligned
    endMem s r.isScalar false x.2.2

def execLdB (t : Reg) (m : MemOp) (look : Fin 16) (s : State) : Out :=
  loadWord (.ldB t m look) t m 1 look.val .plain true false id s
def execLdH (t : Reg) (m : MemOp) (look : Fin 16) (s : State) : Out :=
  loadWord (.ldH t m look) t m 2 look.val .plain true false id s
def execLdW (t : Reg) (m : MemOp) (look : Fin 16) (s : State) : Out :=
  loadWord (.ldW t m look) t m 4 look.val .plain true false id s
def execLdD (t : Reg) (m : MemOp) (look : Fin 16) (s : State) : Out :=
  loadWord (.ldD t m look) t m 8 look.val .plain true false id s
def execLdQ (t : VReg) (m : MemOp) (look : Fin 16) (s : State) : Out :=
  loadWord (.ldQ t m look) (.v t) m 16 look.val .plain true false id s

/-- LDU (R372): in the fabric window it is performed at the target, as LD is (log entry 112). -/
def execLdu (t : Reg) (m : MemOp) (look : Fin 16) (s : State) : Out :=
  loadWord (.ldu t m look) t m 4 look.val .home true false id s

/-- LD.acq (R169, R368): aligned, lookahead 0; at cohort scope and above the acquire comes first and the
read is served at the home slice. -/
def execLdAcq (t : Reg) (m : MemOp) (sc : Scope) (d : Bool) (s : State) : Out :=
  loadWord (.ldAcq t m sc d) t m (if d then 8 else 4) 0 (if sc.far then .far else .plain) true true
    (fun s => acquireAt sc.far s s.cur) s

/-! ### LDC (R369, R370) -/

/-- Values that a replay of an LDC adds to the pending result of the same word and pass. -/
def Pending.addVals (p : Pending) (vs : List (Nat × Word)) (more : Bool) (port : List (Nat × Nat)) : Pending :=
  { p with vals := p.vals ++ vs, more := more, port := p.port ++ port }

/-- One pass of an LDC: its results join those that wait from the pass's earlier lanes; the count comes when
all have committed (R330). -/
def Team.pendLdc (t : Team) (c q : Nat) (vs : List (Nat × Word)) (more : Bool)
    (eas : List (Nat × DWord × Nat)) : Team :=
  let mine := fun p : Pending => p.more && p.src == t.pc && p.pass == q
  if t.pending.any mine then
    { t with pending := t.pending.map fun p => if mine p then p.addVals vs more t.atPort else p }
  else
    { t with pending := t.pending ++
        [⟨t.pc, t.frame, q, 0, .ldc c, false, more, vs, [], 0, eas, t.atPort, [], none, false⟩] }

/-- LDC of n bytes (R369). -/
def ldcWord (i : Instr) (d : VReg) (m : MemOp) (n : Nat) (c : CReg) (s : State) : Out :=
  issue i s fun s =>
    let t := s.tm
    let lanes := t.wordLanes
    let x := loadLanes t .plain false false n m lanes s
    let eas := lanes.map fun l => (l, memAddr t m l, n)
    let s := x.1.modTm fun t => t.results (allDone x.2.2) fun t =>
      t.pendLdc c.val t.pass (x.2.1.flatMap fun e => (t.loaded d.val e.2).map fun v => (vkey v.1 e.1, v.2))
        (!x.2.2.isEmpty) eas
    endMem s false false x.2.2

def execLdcW (t : VReg) (m : MemOp) (c : CReg) (s : State) : Out := ldcWord (.ldcW t m c) t m 4 c s
def execLdcQ (t : VReg) (m : MemOp) (c : CReg) (s : State) : Out := ldcWord (.ldcQ t m c) t m 16 c s

end Sys2Proof.Machine
end

