-- ==== Sys2Proof/Machine/Records.lean ====
section
/-! DEFINITION. Tensor records (R186 to R188): fields, validity, size and where a unit lies. -/

namespace Sys2Proof.Machine

/-- A tensor record (Table 10-1). -/
abbrev TRec := BitVec 512

/-- Field of a record. -/
def recField (r : TRec) (lo n : Nat) : Nat := field r.toNat lo n

def recFmt (r : TRec) : Nat := recField r 60 4

/-- The base address, sign-extended from bit 56. -/
def recBase (r : TRec) : Int := simm 57 (recField r 0 57)

/-- Extent of dimension d in elements. -/
def recExtent (r : TRec) (d : Nat) : Nat := recField r (168 + 64 * d) 24 + 1

/-- Signed byte stride of dimension d. -/
def recStride (r : TRec) (d : Nat) : Int := simm 40 (recField r (128 + 64 * d) 40)

def recScaleOff (r : TRec) : Int := simm 48 (recField r 80 48)

/-- A block format: MXFP8, MXFP4 or MXINT8 (Table 10-2). -/
def recBlock (r : TRec) : Bool := 6 ≤ recFmt r && recFmt r ≤ 9

/-- Element bytes of a unit, without the scale (Table 10-2). -/
def unitBytes (fmt : Nat) : Nat :=
  match fmt with
  | 0 => 1
  | 1 | 2 => 2
  | 3 | 4 => 4
  | 5 => 8
  | 6 | 7 | 9 => 32
  | 8 => 16
  | _ => 0

/-- A record is invalid (R187). -/
def recInvalid (r : TRec) : Bool :=
  let f := recFmt r
  recField r 64 16 != 0 || recField r 57 3 != 0 || 11 ≤ f ||
  (recBlock r &&
    (recExtent r 0 % 32 != 0 || (f != 8 && recStride r 0 != 1) || (f == 8 && recStride r 0 != 0) ||
      [1, 2, 3, 4, 5].any fun d => recStride r d % (unitBytes f : Int) != 0)) ||
  (f ≤ 5 && recScaleOff r != 0)

/-- Extent of dimension d in units (R188). -/
def unitExtent (r : TRec) (d : Nat) : Nat :=
  if d == 0 && recBlock r then recExtent r 0 / 32 else recExtent r d

/-- The number of units (R188). -/
def recSize (r : TRec) : Nat := (List.range 6).foldl (fun n d => n * unitExtent r d) 1

/-- The coordinate of dimension d of linear index e (R188). -/
def unitCoord (r : TRec) (e d : Nat) : Nat :=
  e / (List.range d).foldl (fun n k => n * unitExtent r k) 1 % unitExtent r d

/-- Byte offset of unit e from the base (R188). -/
def unitOffset (r : TRec) (e : Nat) : Int :=
  let first : Int := if recBlock r then (unitBytes (recFmt r) : Int) else recStride r 0
  (unitCoord r e 0 : Int) * first +
    ([1, 2, 3, 4, 5].map fun d => (unitCoord r e d : Int) * recStride r d).foldl (· + ·) 0

/-- The address of a unit's elements, and of its scale byte for block formats (R188). -/
def unitAddr (r : TRec) (e : Nat) : DWord := BitVec.ofInt 64 (recBase r + unitOffset r e)
def scaleAddr (r : TRec) (e : Nat) : Option DWord :=
  if recBlock r then
    some (BitVec.ofInt 64 (recBase r + recScaleOff r + unitOffset r e / (unitBytes (recFmt r) : Int)))
  else none

end Sys2Proof.Machine
end

