-- ==== Sys2Proof/Machine/Bundles.lean ====
section
/-! DEFINITION. Bundles (R140 to R154, R336, R337): pools and handles, Cumulus, the five bundle words, fills,
evictions, directory grants and entries. -/

namespace Sys2Proof.Machine

/-! ### Pools and handles (R140, R141) -/

/-- The context runs on the die pair of the core (R284). -/
def ctxOn (s : State) (core ctx : Nat) : Bool := sget none s.running (core / 128) == some ctx

def getPool (s : State) (k : Nat) : Option Pool := sfind s.pools k
def setPool (s : State) (k : Nat) (p : Pool) : State := { s with pools := sput s.pools k p }

/-- A pool as it is made (R140). -/
def Pool.fresh (cap : Nat) : Pool := ⟨cap, [], [], 0, 0, none⟩

/-- The generation of a descriptor, 1 at first (R141). -/
def Pool.gen (p : Pool) (i : Nat) : Nat := sget 1 p.gens i

def bGen (h : DWord) : Nat := field h.toNat 48 16
def bCore (h : DWord) : Nat := field h.toNat 39 9
def bCtx (h : DWord) : Nat := field h.toNat 27 12

/-- A bundle handle (Table 8-2). -/
def mkBundle (gen core ctx idx : Nat) : DWord :=
  BitVec.ofNat 64 (gen * 2 ^ 48 + core * 2 ^ 39 + ctx * 2 ^ 27 + idx * 2 ^ 19)

/-- The pool of a team: none for a launch without bundle capacity (R140). -/
def Team.poolKey (t : Team) : Nat := Machine.poolKey t.core t.ctx
def teamPool (s : State) (t : Team) : Option Pool := if t.bundleCap == 0 then none else getPool s t.poolKey

/-- The descriptor and bundle of a valid handle (R141). -/
def findBundle (s : State) (t : Team) (h : DWord) : Option (Nat × Bundle) :=
  if h == 0 || bCore h != t.core || bCtx h != t.ctx then none
  else
    match getPool s t.poolKey with
    | none => none
    | some p =>
      match sfind p.bundles (bIndex h) with
      | some b => if p.gen (bIndex h) == bGen h then some (bIndex h, b) else none
      | none => none

def modBundle (s : State) (k i : Nat) (f : Bundle → Bundle) : State :=
  match getPool s k with
  | none => s
  | some p =>
    match sfind p.bundles i with
    | none => s
    | some b => setPool s k { p with bundles := sput p.bundles i (f b) }

/-- Distinct virtual lines of some bundles. -/
def lineUnion (bs : List Bundle) : List Nat := distinct (bs.flatMap fun b => b.lines.map (·.1))

/-- The physical lines of a bundle. -/
def Bundle.phys (b : Bundle) : List Nat := b.lines.map (·.2)

/-! ### Waiting BENTERs (R148) -/

/-- The handles of a pending BENTER, or those that the team is to enter again (R157), and the mode. -/
def Team.enterSet (t : Team) : List DWord :=
  if t.reenter then t.entered else match t.benter with | some (hs, _, _) => hs | none => []
def Team.enterMode (t : Team) : BMode :=
  if t.reenter then t.enteredMode else match t.benter with | some (_, m, _) => m | none => .read

/-- Teams that wait to enter the bundle. -/
def entererOf (s : State) (k i : Nat) : List Nat :=
  s.teams.filterMap fun e =>
    if e.2.poolKey == k && e.2.enterSet.any fun h => bIndex h == i then some e.1 else none

/-- A BENTER ends: status, reservations and, unless it entered, its grants (R148, R150). -/
def endBenter (s : State) (u status : Nat) : State :=
  let t := s.getTeam u
  match t.benter with
  | none => s
  | some (hs, _, st) =>
    let s := hs.foldl (init := s) fun s h =>
      modBundle s t.poolKey (bIndex h) fun b => { b with reserved := b.reserved.filter (· != u) }
    let s := if status == 0 then s else { s with grants := s.grants.filter fun g => g.uid != u }
    s.modTeam u fun t => { (t.swrite st (BitVec.ofNat 64 status)) with benter := none }.wake.finish

/-! ### Cumulus (R146) -/

/-- Lines that occupy slots. -/
def Pool.presentLines (p : Pool) : List Nat := lineUnion ((p.bundles.map (·.2)).filter Bundle.present)

/-- The better of two waiting bundles: those recorded at a context switch first, in declaration order (R157), then
prio descending, then declaration order. -/
def waitsBefore (a b : Bundle) : Bool :=
  if a.recorded != b.recorded then a.recorded
  else (!a.recorded && b.prio < a.prio) || ((a.recorded || a.prio == b.prio) && a.order < b.order)

/-- The WAITING bundle that is admitted next. -/
def Pool.nextWaiting (p : Pool) : Option (Nat × Bundle) :=
  (p.bundles.filter fun b => b.2.state == .waiting).foldl
    (fun best b => match best with
      | some x => if waitsBefore b.2 x.2 then some b else best
      | none => some b) none

/-- A victim before another: prio ascending, never-entered ones first, then earliest exit (R146). DESIGN CHOICE: among
never-entered ones the first declared comes first (log entry 121). -/
def evictsBefore (a b : Bundle) : Bool :=
  let key := fun b : Bundle => match b.exitTime with | none => 0 | some n => n + 1
  a.prio < b.prio || (a.prio == b.prio && (key a < key b || (key a == key b && a.order < b.order)))

def insertVictim (x : Nat × Bundle) : List (Nat × Bundle) → List (Nat × Bundle)
  | [] => [x]
  | y :: r => if evictsBefore y.2 x.2 then y :: insertVictim x r else x :: y :: r

/-- RESIDENT, unentered bundles that no waiting BENTER has reserved, in the order of eviction. -/
def Pool.victims (p : Pool) : List (Nat × Bundle) :=
  (p.bundles.filter fun b => b.2.state == .resident && b.2.reserved.isEmpty).foldr
    insertVictim []

/-- Lines released when the bundles of some descriptors leave: those whose every holder is among them and
that w does not contain. -/
def Pool.reclaim (p : Pool) (vs : List Nat) (w : Bundle) : List Nat :=
  (lineUnion ((p.bundles.filter fun b => vs.contains b.1).map (·.2))).filter fun ln =>
    !(w.lines.map (·.1)).contains ln &&
      p.bundles.all fun b => !(b.2.present && (b.2.lines.map (·.1)).contains ln) || vs.contains b.1

/-- The victims to evict, in order, until enough lines are free. -/
def Pool.choose (p : Pool) (w : Bundle) (need : Nat) : List Nat → List Nat → List Nat
  | [], chosen => chosen
  | v :: r, chosen =>
    if need ≤ (p.reclaim chosen w).length then chosen else p.choose w need r (chosen ++ [v])

/-- Admission: the bundle is FILLING, and reserved for the BENTERs that wait for it (R150). -/
def Pool.admitted (p : Pool) (waiters : Nat → List Nat) (i : Nat) : Pool :=
  match sfind p.bundles i with
  | none => { p with admitting := none }
  | some b =>
    { p with
      admitting := none
      bundles := sput p.bundles i { b with state := .filling, fillFailed := false, reserved := waiters i } }

/-- One evaluation (R146): bundles are admitted in order; an admission whose victims must leave first waits
for them. -/
def Pool.evaluate (waiters : Nat → List Nat) : Nat → Pool → Pool
  | 0, p => p
  | fuel + 1, p =>
    if p.admitting.isSome then p
    else
      match p.nextWaiting with
      | none => p
      | some (i, w) =>
        let new := (lineUnion [w]).filter fun ln => !p.presentLines.contains ln
        let free := p.cap - p.presentLines.length
        let vs := p.victims.map (·.1)
        if free + (p.reclaim vs w).length < new.length then p
        else if new.length ≤ free then (p.admitted waiters i).evaluate waiters fuel
        else
          let chosen := p.choose w (new.length - free) vs []
          { p with
            admitting := some (i, chosen)
            bundles := p.bundles.map fun b =>
              if chosen.contains b.1 then (b.1, { b.2 with state := .evicting }) else b }

/-- Cumulus evaluates a pool whose context runs. -/
def evaluatePool (s : State) (k : Nat) : State :=
  match getPool s k with
  | none => s
  | some p => if !ctxOn s (k / 4096) (k % 4096) then s else setPool s k (p.evaluate (entererOf s k) 257)

/-! ### Leaving a pool -/

/-- Free a descriptor: its generation goes on, and BENTERs that wait for it end with status 2 (R141, R153). -/
def freeBundle (s : State) (k i : Nat) : State :=
  let us := entererOf s k i
  let s := us.foldl (fun s u => endBenter s u 2) s
  match getPool s k with
  | none => s
  | some p =>
    setPool s k { p with
      bundles := sdel p.bundles i
      gens := sset 1 p.gens i (nextGen (p.gen i))
      admitting := match p.admitting with
        | some (w, vs) => if w == i then none else some (w, vs)
        | none => none }

/-- A victim has left: the admission that waited for it goes on when it was the last one (R146). -/
def victimGone (s : State) (k i : Nat) : State :=
  match getPool s k with
  | none => s
  | some p =>
    match p.admitting with
    | none => s
    | some (w, vs) =>
      let vs := vs.filter (· != i)
      let p := { p with admitting := some (w, vs) }
      setPool s k (if vs.isEmpty then p.admitted (entererOf s k) w else p)

/-- The bytes of some lines in a core's first-level cache, dirty ones first written home, leave it. -/
def dropLines (s : State) (core : Nat) (lines : List Nat) : State :=
  lines.foldl (init := s) fun s line =>
    let bs := (List.range 256).filterMap fun i => (l1Get s core (line * 256 + i)).map fun b => (line * 256 + i, b)
    dropBytes (writeBack s core bs) core bs

/-- Physical lines of a bundle that no other present bundle of the pool holds. -/
def ownLines (s : State) (k i : Nat) (b : Bundle) : List Nat :=
  match getPool s k with
  | none => b.phys
  | some p => b.phys.filter fun ln => !(p.bundles.any fun c => c.1 != i && c.2.present && c.2.hasLine ln)

/-- An eviction ends (R147): written bytes go home, the slots are free, and the bundle is DECLARED, WAITING
for a BENTER, or dropped. What a context switch has recorded of it stays (R157). -/
def finishEviction (s : State) (k i : Nat) : State :=
  match (getPool s k).bind fun p => sfind p.bundles i with
  | none => s
  | some b =>
    let s := dropLines s (k / 4096) (ownLines s k i b)
    let s := modBundle s k i fun b => { b with
      state := if (entererOf s k i).isEmpty then .declared else .waiting
      enterers := if b.recorded then b.enterers else [], writers := if b.recorded then b.writers else [] }
    let s := victimGone s k i
    evaluatePool (if b.dropping then freeBundle s k i else s) k

/-- Start the eviction of every unentered resident bundle that holds the line, on the cores that p picks
(R138, R154, R217). -/
def evictHolders (s : State) (p : Nat → Bool) (line : Nat) : State :=
  { s with pools := s.pools.map fun e =>
      if !p (e.1 / 4096) then e
      else (e.1, { e.2 with
        bundles := e.2.bundles.map fun b =>
          if b.2.state == .resident && b.2.hasLine line then (b.1, { b.2 with state := .evicting })
          else b }) }

/-- Some unentered bundle of a picked core still holds the line. -/
def stillHeld (s : State) (p : Nat → Bool) (line : Nat) : Bool :=
  s.pools.any fun e => p (e.1 / 4096) && e.2.bundles.any fun b =>
    (b.2.state == .resident || b.2.state == .evicting) && b.2.hasLine line

/-! ### Replacement in the L2 (R138) -/

/-- The lines that share a set of their home slice with a line, it among them. -/
def setLines (s : State) (line : Nat) : List (Nat × L2Line) :=
  s.l2.filter fun e =>
    e.2.used != 0 && homeSlice s (e.1 * 256) == homeSlice s (line * 256) && Config.l2Set e.1 == Config.l2Set line

/-- The line lies in an entered bundle of some core (R139). -/
def enteredLine (s : State) (line : Nat) : Bool :=
  s.pools.any fun e => e.2.bundles.any fun b => b.2.state == .entered && b.2.hasLine line

/-- A line that may be replaced: not pinned by an entry, a row command, a capture or a port that is down (R138, R218,
R226, R276). -/
def replaceable (s : State) (e : Nat × L2Line) : Bool :=
  !enteredLine s e.1 && !heldLine s true e.1 && !capturedAt s (e.1 * 256) &&
    !(portDown s (e.1 * 256) && e.2.dirty != 0)

/-- The least recently used of some lines. -/
def oldestUse : List (Nat × L2Line) → Option (Nat × L2Line)
  | [] => none
  | e :: r => match oldestUse r with | some x => if x.2.used < e.2.used then some x else some e | none => some e

/-- The line that leaves the set of a line next. -/
def lru (s : State) (line : Nat) : Option Nat :=
  (oldestUse ((setLines s line).filter (replaceable s))).map (·.1)

/-- A line leaves the L2 (R138): first-level copies are collected, unentered bundles that hold it are evicted first, and
its dirty sectors are written to memory. -/
def evictL2 (s : State) (line : Nat) : State :=
  if stillHeld s (fun _ => true) line then evictHolders s (fun _ => true) line
  else
    let cores := holders s line
    let s := writeSectors (collectLine s line) line
    cores.foldl (fun s c => refetch s c [line]) (leaveL2 s line)

/-- Sets that hold more than their 16 ways give up lines (R138). -/
def trimL2 (s : State) : State :=
  if s.l2.length ≤ 16 then s
  else
    s.l2.foldl (init := s) fun s e =>
      if 16 < (setLines s e.1).length then
        match lru s e.1 with
        | some ln => evictL2 s ln
        | none => s
      else s

/-! ### BDECL (R143, R144) -/

/-- What a declaration's list or record comes to: malformed, or its virtual lines. -/
inductive Decl where
  | malformed
  | lines (ls : List Nat)
  deriving DecidableEq, Repr

/-- The entries of an extent list (Table 8-4). -/
def listEntries (s : State) (t : Team) (base : DWord) : Nat → Nat → Except (List LaneFault) (List Nat) × State
  | _, 0 => (.ok [], s)
  | k, n + 1 =>
    match loadLane t .plain false 16 (base + BitVec.ofNat 64 (16 * (k + 1))) s 0 with
    | (.error fs, s) => (.error fs, s)
    | (.ok bs, s) =>
      match listEntries s t base (k + 1) n with
      | (.error fs, s) => (.error fs, s)
      | (.ok r, s) => (.ok (ofBytes bs :: r), s)

/-- An entry of Table 8-4 is well formed. -/
def entryOk (e : Nat) : Bool :=
  field e 96 32 == 0 && 1 ≤ field e 64 32 && field e 64 32 ≤ 4096 && field e 0 8 == 0

/-- The list itself is well formed: aligned, its header's fields in range, and so its entries (R144). -/
def listOk (base : DWord) (h : Nat) (es : List Nat) : Bool :=
  base.toNat % 16 == 0 && field h 5 123 == 0 && field h 0 5 != 0 && field h 0 5 ≤ 16 && es.all entryOk

/-- The lines of an extent list, which is read as plain loads of the team (R143) before it is checked (R144). -/
def listLines (s : State) (t : Team) (base : DWord) : Except (List LaneFault) Decl × State :=
  match loadLane t .plain false 16 base s 0 with
  | (.error fs, s) => (.error fs, s)
  | (.ok bs, s) =>
    match listEntries s t base 0 (field (ofBytes bs) 0 5) with
    | (.error fs, s) => (.error fs, s)
    | (.ok es, s) =>
      (.ok (if listOk base (ofBytes bs) es then
        .lines (distinct (es.flatMap fun e => (List.range (field e 64 32)).map (field e 0 64 / 256 + ·)))
      else .malformed), s)

/-- The lines that a byte range covers. -/
def coverLines (a : DWord) (n : Nat) : List Nat :=
  distinct [a.toNat / 256, (a.toNat + n - 1) % 2 ^ 64 / 256]

/-- The lines of the units of a record from e on; the collection stops once it exceeds cap (R143). -/
def walkLines (r : TRec) (cap : Nat) : Nat → Nat → List Nat → List Nat
  | 0, _, acc => acc
  | n + 1, e, acc =>
    if cap < acc.length then acc
    else
      let one := coverLines (unitAddr r e) (unitBytes (recFmt r)) ++
        (match scaleAddr r e with | some a => coverLines a 1 | none => [])
      walkLines r cap n (e + 1) (one.foldl (fun l x => if l.contains x then l else l ++ [x]) acc)

/-- The lines of a record (R143). -/
def recLines (s : State) (t : Team) (n cap : Nat) : Decl :=
  match sfind (getCtx s t.ctx).tensors n with
  | none => .malformed
  | some r =>
    if recInvalid r || recFmt r == 10 then .malformed else .lines (walkLines r cap (recSize r) 0 [])

/-- A declaration with its lines (R144): status and handle. -/
def declare (s : State) (t : Team) (prio : Nat) (d : Decl) : Nat × DWord × State :=
  match d with
  | .malformed => (2, 0, s)
  | .lines ls =>
    match teamPool s t with
    | none => (1, 0, s)
    | some p =>
      if p.cap < ls.length then (1, 0, s)
      else if 256 ≤ p.bundles.length then (3, 0, s)
      else
        let i := lowestFree 256 (skeys p.bundles)
        let b : Bundle := ⟨.waiting, prio, p.nextOrder, ls.map fun l => (l, 0), false, [], .read, none, [], false, false, []⟩
        let s := setPool s t.poolKey { p with bundles := sput p.bundles i b, nextOrder := p.nextOrder + 1 }
        (0, mkBundle (p.gen i) t.core t.ctx i, evaluatePool s t.poolKey)

/-- The end of BDECL: both scalars are written. -/
def endDecl (s : State) (sh st prio : Nat) (d : Decl) : State :=
  let r := declare s s.tm prio d
  r.2.2.modTm fun t => ((t.swrite st (BitVec.ofNat 64 r.1)).swrite sh r.2.1).finish

/-- BDECL.list (R143, R144). -/
def execBdeclList (sl sh : SReg) (prio : Fin 8) (st : SReg) (s : State) : Out :=
  issue (.bdeclList sl sh prio st) s fun s =>
    match listLines s s.tm (s.tm.sources.sread sl.val) with
    | (.error fs, s) => endMem s true true (fs.map fun f => (0, f))
    | (.ok d, s) => endDecl s sh.val st.val prio.val d

/-- BDECL.rec (R143, R144). -/
def execBdeclRec (sl sh : SReg) (prio : Fin 8) (st : SReg) (s : State) : Out :=
  issue (.bdeclRec sl sh prio st) s fun s =>
    let cap := match teamPool s s.tm with | some p => p.cap | none => 0
    endDecl s sh.val st.val prio.val (recLines s s.tm (s.tm.sread sl.val).toNat cap)

/-! ### BENTER (R148 to R150) -/

/-- A team holds an entry, or has a writer record of an epoch that goes on (R148, R149). -/
def holdsEntry (s : State) (t : Team) : Bool :=
  !t.entered.isEmpty ||
    (match getPool s t.poolKey with
      | some p => p.bundles.any fun b => b.2.writers.any fun w => w.2 == t.uid
      | none => false)

/-- Every DECLARED bundle of the set becomes WAITING. -/
def awakenSet (s : State) (k : Nat) (hs : List DWord) : State :=
  hs.foldl (init := s) fun s h =>
    modBundle s k (bIndex h) fun b => if b.state == .declared then { b with state := .waiting } else b

/-- BENTER (R148): it parks; BUNDLE_ENTRY ends it. -/
def execBenter (sh st : SReg) (mode : BMode) (n1 : Fin 4) (s : State) : Out :=
  issue (.benter sh st mode n1) s fun s =>
    let t := s.tm
    let hs := ((List.range (n1.val + 1)).map fun i => t.sread (sh.val + i)).foldl
      (fun l h => if l.contains h then l else l ++ [h]) ([] : List DWord)
    if holdsEntry s t then trapWord s 0x0A (.benter sh st mode n1)
    else if t.awaitsRows then s.stall .hold
    else if hs.any fun h => (findBundle s t h).isNone then
      s.modTm fun t => (t.swrite st.val 2).finish
    else
      let bs := hs.filterMap fun h => (findBundle s t h).map (·.2)
      let cap := match getPool s t.poolKey with | some p => p.cap | none => 0
      if cap < (lineUnion bs).length then s.modTm fun t => (t.swrite st.val 1).finish
      else
        let s := s.modTm fun t => { t with benter := some (hs, mode, st.val) }
        evaluatePool ((awakenSet s t.poolKey hs).park .benter) t.poolKey

/-! ### Exits, drops and queries (R152, R153) -/

/-- The bytes a team wrote in a bundle go home and become clean (R152). -/
def releaseWritten (s : State) (core u : Nat) (b : Bundle) : State :=
  writeBack s core ((b.writers.filter fun w => w.2 == u).filterMap fun w =>
    (l1Get s core w.1).map fun x => (w.1, x))

/-- Bytes that team u wrote in the bundle wait at a slice: their lines are held (R218). -/
def writtenHeld (s : State) (u : Nat) (b : Bundle) : Bool :=
  b.writers.any fun w => w.2 == u && heldLine s true (lineOf w.1)

/-- The same for some bundle that the team holds entered. -/
def Team.entryHeld (s : State) (t : Team) : Bool :=
  t.entered.any fun h => (findBundle s t h).any fun b => writtenHeld s t.uid b.2

/-- Team u's entry of descriptor i ends (R152): it was the last one when those who have entered the bundle before a
context switch have not entered it again (R157). -/
def exitBundle (s : State) (u i : Nat) : State :=
  let t := s.getTeam u
  let k := t.poolKey
  match (getPool s k).bind fun p => sfind p.bundles i with
  | none => s
  | some b =>
    let s := if b.mode == .read then s else releaseWritten (releaseCore s u) t.core u b
    let rest := t.entered.filter fun h => bIndex h != i
    let kept := rest.flatMap fun h =>
      match (getPool s k).bind fun p => sfind p.bundles (bIndex h) with | some c => c.phys | none => []
    let s := { s with grants := s.grants.filter fun g => g.uid != u || kept.contains g.line || !b.hasLine g.line }
    let s := s.modTeam u fun t => { t with
      entered := rest, enteredMode := if rest.isEmpty then .read else t.enteredMode }
    let stay := b.enterers.filter (· != u)
    let last := stay.all fun v => (s.getTeam v).reenter
    let s := match getPool s k with
      | none => s
      | some p =>
        let b' := { b with
          enterers := stay
          writers := if stay.isEmpty then [] else b.writers
          state := if last then .resident else b.state
          exitTime := if last then some p.exits else b.exitTime
          mode := if stay.isEmpty then .read else b.mode
          recorded := last && !stay.isEmpty }
        setPool s k { p with bundles := sput p.bundles i b', exits := p.exits + 1 }
    evaluatePool s k

/-- BEXIT (R152): an exit from OWN or SHARE is a release at device scope. -/
def execBexit (sh st : SReg) (s : State) : Out :=
  issue (.bexit sh st) s fun s =>
    let t := s.tm
    match findBundle s t (t.sread sh.val) with
    | none => s.modTm fun t => (t.swrite st.val 2).finish
    | some (i, b) =>
      if !b.enterers.contains t.uid then s.modTm fun t => (t.swrite st.val 5).finish
      else if b.mode != .read && (!canRelease s t.uid .home false || writtenHeld s t.uid b) then s.stall .mirror
      else (exitBundle s t.uid i).modTm fun t => (t.swrite st.val 0).finish

/-- A bundle that no team holds entered is dropped, now or when its work ends (R153). -/
def dropBundle (s : State) (k i : Nat) (b : Bundle) : State :=
  match b.state with
  | .waiting | .declared => evaluatePool (freeBundle s k i) k
  | .resident => modBundle s k i fun b => { b with dropping := true, state := .evicting }
  | _ => modBundle s k i fun b => { b with dropping := true }

/-- BDROP (R153). -/
def execBdrop (sh st : SReg) (s : State) : Out :=
  issue (.bdrop sh st) s fun s =>
    let t := s.tm
    match findBundle s t (t.sread sh.val) with
    | none => s.modTm fun t => (t.swrite st.val 2).finish
    | some (i, b) =>
      if !b.enterers.isEmpty then s.modTm fun t => (t.swrite st.val 6).finish
      else (dropBundle s t.poolKey i b).modTm fun t => (t.swrite st.val 0).finish

def BState.code : BState → Nat
  | .declared => 0 | .waiting => 1 | .filling => 2 | .resident => 3 | .entered => 4 | .evicting => 5

/-- The word of Table 8-6. -/
def bundleWord : Option Bundle → DWord
  | none => 7
  | some b =>
    BitVec.ofNat 64 (b.state.code + (if b.enterers.isEmpty then 0 else b.mode.code) * 16 +
      b.enterers.length * 64 + b.prio * 2 ^ 12 + (if b.fillFailed then 2 ^ 15 else 0) +
      b.lines.length * 2 ^ 16)

/-- BQRY (R153). -/
def execBqry (sh sd : SReg) (s : State) : Out :=
  issue (.bqry sh sd) s fun s =>
    s.modTm fun t => (t.swrite sd.val (bundleWord ((findBundle s t (t.sread sh.val)).map (·.2)))).finish

/-! ### Events -/

/-- How the lines of a bundle translate for its fill: with their places, with a wait, or fatally. -/
inductive FillEnd where
  | ok (ls : List (Nat × Nat))
  | wait
  | fatal
  deriving DecidableEq, Repr

/-- Translate the lines of a bundle for its fill, and check them at their home slices. -/
def fillLines (s : State) (core ctx idx : Nat) : List Nat → FillEnd × State
  | [] => (.ok [], s)
  | ln :: r =>
    let va : DWord := BitVec.ofNat 64 (ln * 256)
    let ask := fun s m ps => (FillEnd.wait, askPages s core ctx (.fill (poolKey core ctx) idx) .read m ps)
    if inFabric va || inAperture va 1 then (.fatal, s)
    else
      match onePage s core [.second] ctx va 1 .read with
      | (.fatal, s) => (.fatal, s)
      | (.bad pa, s) => (.wait, noteBad s ctx pa)
      | (.held, s) => (.wait, s)
      | (.fault ps, s) => ask s false ps
      | (.migrating ps, s) => ask s true ps
      | (.ok pas, s) =>
        match homeStop s core true false pas with
        | some .noRoute => (.fatal, s)
        | some (.bad pa) => (.wait, noteBad s ctx pa)
        | some .held => (.wait, s)
        | some (.lost _) => ask s false [pageOf va]
        | none =>
          match fillLines s core ctx idx r with
          | (.ok ls, s) => (.ok ((ln, lineOf (pas.headD 0)) :: ls), s)
          | x => x

/-- A fill ends fatally (Table 8-5): DECLARED with fill_failed, and BENTERs that wait end with status 4. DESIGN CHOICE: the
pool is evaluated then (log entry 122). -/
def failFill (s : State) (k i : Nat) : State :=
  let us := entererOf s k i
  let s := modBundle s k i fun b => { b with state := .declared, fillFailed := true, reserved := [] }
  let s := us.foldl (fun s u => endBenter s u 4) s
  let drop := match (getPool s k).bind fun p => sfind p.bundles i with | some b => b.dropping | none => false
  evaluatePool (if drop then freeBundle s k i else s) k

/-- A fill of the lines must wait: one is held under OWN or SHARE on another core (R154). -/
def fillWaits (s : State) (core : Nat) (ls : List (Nat × Nat)) : Bool :=
  ls.any fun l => s.grants.any fun g => g.line == l.2 && g.core != core && g.excl

/-- BUNDLE_FILL_COMPLETE (R145). -/
def execBundleFillComplete (core ctx idx : Nat) (s : State) : Out :=
  let k := poolKey core ctx
  .next (match (getPool s k).bind fun p => sfind p.bundles idx with
    | none => s
    | some b =>
      if b.state != .filling || !ctxOn s core ctx then s
      else
        match fillLines s core ctx idx (b.lines.map (·.1)) with
        | (.wait, s) => s
        | (.fatal, s) => failFill s k idx
        | (.ok ls, s) =>
          if fillWaits s core ls then s
          else
            let s := homeFetchAll s false (ls.map (·.2 * 256))
            let s := modBundle s k idx fun b => { b with state := .resident, lines := ls }
            evaluatePool (if b.dropping then freeBundle s k idx else s) k)

/-- BUNDLE_EVICTION_COMPLETE (R147): lines that a row command holds are written when it has completed. -/
def execBundleEvictionComplete (core ctx idx : Nat) (s : State) : Out :=
  let k := poolKey core ctx
  .next (match (getPool s k).bind fun p => sfind p.bundles idx with
    | none => s
    | some b =>
      if b.state != .evicting || b.phys.any (heldLine s true) then s else finishEviction s k idx)

/-- The bundles that a team waits to enter. -/
def benterSet (s : State) (t : Team) : List (Nat × Bundle) := t.enterSet.filterMap (findBundle s t)

/-- Every bundle of the set is RESIDENT or ENTERED. -/
def setResident (s : State) (t : Team) : Bool :=
  (t.benter.isSome || t.reenter) && ctxOn s t.core t.ctx && (benterSet s t).all fun b => b.2.state == .resident || b.2.state == .entered

/-- The next line, in ascending order, that the set has not been granted (R154). -/
def nextGrant (s : State) (t : Team) : Option Nat :=
  (sortNat (distinct ((benterSet s t).flatMap fun b => b.2.phys))).find? fun ln =>
    !s.grants.any fun g => g.uid == t.uid && g.line == ln

/-- A line's directory entry admits a grant (R154). -/
def grantOk (s : State) (core : Nat) (mode : BMode) (line : Nat) : Bool :=
  s.grants.all fun g => g.line != line || g.core == core || (mode == .read && !g.excl)

/-- DIRECTORY_GRANT (R154): before an OWN or SHARE grant, other cores' unentered bundles leave. -/
def execDirectoryGrant (core uid : Nat) (s : State) : Out :=
  let t := s.getTeam uid
  .next (if t.core != core || !setResident s t then s
    else
      match nextGrant s t with
      | none => s
      | some ln =>
        let mode := t.enterMode
        let others := fun c : Nat => c != core
        if heldLine s false ln || !grantOk s core mode ln then s
        else if mode != .read && stillHeld s others ln then evictHolders s others ln
        else { s with grants := s.grants ++ [⟨ln, core, uid, mode != .read⟩] })

/-- Two modes conflict on one core (R150). -/
def modesClash (a b : BMode) : Bool := !(a == b && a != .own)

/-- No other team of the core holds a conflicting entry on a line of the set (R150). -/
def noClash (s : State) (t : Team) (mode : BMode) (lines : List Nat) : Bool :=
  (bundlesOf s t.core).all fun b =>
    b.2.2.state != .entered || !(b.2.2.enterers.any (· != t.uid)) || !modesClash mode b.2.2.mode ||
      !(lines.any b.2.2.hasLine)

/-- Lines pinned in home slices: those of entered bundles (R139). -/
def pinnedLines (s : State) : List Nat :=
  distinct (s.pools.flatMap fun p => (p.2.bundles.filter fun b => b.2.state == .entered).flatMap fun b => b.2.phys)

/-- At most 12 ways of an L2 set are pinned with the lines of the set (R139). Which set of its slice a line
falls in is a free value (log entry 25). -/
def pinsOk (s : State) (lines : List Nat) : Bool :=
  let all := distinct (pinnedLines s ++ lines)
  lines.all fun ln =>
    let same := all.filter fun x => homeSlice s (x * 256) == homeSlice s (ln * 256)
    same.length ≤ 12 || (same.filter fun x => Config.l2Set x == Config.l2Set ln).length ≤ 12

/-- The bytes of lines that become entered on a core: dirty bytes go home, and the store copy shows the home
slice's bytes (R150, R151). Lines already entered there keep the bytes written in the epoch, and dirty bytes of a line
that a row command reads stay until its end (R218). -/
def refreshLines (s : State) (core : Nat) (lines : List Nat) : State :=
  lines.foldl (init := s) fun s line =>
    let addrs := (List.range 256).map (line * 256 + ·)
    let keep := inBundle s core line || heldLine s true line
    let s := if keep then s else writeBack s core (addrs.filterMap fun a => (l1Get s core a).map fun b => (a, b))
    addrs.foldl (init := s) fun s a =>
      match l1Get s core a with
      | some b => if b.dirty && keep then s else l1Set s core a (some ⟨memGet s a, false⟩)
      | none => l1Set s core a (some ⟨memGet s a, false⟩)

/-- Every condition of Entry() holds (R150). -/
def canEnter (s : State) (t : Team) : Bool :=
  let lines := distinct ((benterSet s t).flatMap fun b => b.2.phys)
  setResident s t && (nextGrant s t).isNone && noClash s t (t.enterMode) lines &&
    !(lines.any (heldLine s false)) && pinsOk s lines

/-- BUNDLE_ENTRY (R150): a pending BENTER ends, or a team has its bundles again (R157). -/
def execBundleEntry (uid : Nat) (s : State) : Out :=
  let t := s.getTeam uid
  .next (if !canEnter s t then s
    else
      let mode := t.enterMode
      let set := benterSet s t
      let hs := t.enterSet
      let lines := distinct (set.flatMap fun b => b.2.phys)
      let s := refreshLines (lines.foldl touchLine s) t.core lines
      let s := set.foldl (init := s) fun s b =>
        modBundle s t.poolKey b.1 fun b => { b with
          state := .entered, mode := mode, enterers := b.enterers.filter (· != uid) ++ [uid], recorded := false
          reserved := b.reserved.filter (· != uid) }
      let again := t.reenter
      let s := s.modTeam uid fun t => { t with entered := hs, enteredMode := mode, reenter := false }
      if !again then endBenter s uid 0
      else s.modTeam uid fun t => if t.wait == .benter then t.wake else t)

end Sys2Proof.Machine
end

