-- ==== Sys2Proof/Machine/ApplyOps.lean ====
section
/-! DEFINITION. Applying a closure (R247 to R249): the checks, the frame, the captured values, and the
groups of APPLY.lane. -/

namespace Sys2Proof.Machine

/-- Captured scalars of a capture mask, ascending (R243). -/
def maskRegs (smask : BitVec 16) : List Nat := (List.range 16).filter fun i => smask.getLsbD i

/-- Word k of an environment. -/
def Env.word (e : Env) (k : Nat) : Word := (e.words[k]?).getD 0

/-- The captured 64-bit value of the i-th captured scalar. -/
def Env.scalar (e : Env) (i : Nat) : DWord := pair64 (e.word (2 * i)) (e.word (2 * i + 1))

/-- Where the vector captures begin. -/
def Env.vecAt (e : Env) : Nat := 2 * (maskRegs e.smask).length

/-- A by-reference capture's tag, register and depth (R243). -/
def Env.refTag (e : Env) (t : Nat) : Nat := hi16 (e.word (e.vecAt + 2 * t))
def Env.refReg (e : Env) (t : Nat) : Nat := field (e.word (e.vecAt + 2 * t)).toNat 0 7
def Env.refDepth (e : Env) (t : Nat) : Nat := lo16 (e.word (e.vecAt + 2 * t + 1))

/-- The resident or swapped team of a core that holds a tag (R249). -/
def teamOfTag (s : State) (core tag : Nat) : Option Team :=
  (s.teams.find? fun e => e.2.core == core && e.2.tag == tag && e.2.state != .retired).map (·.2)

/-- The captured teams of the first n vector captures are there, with their frames (R249). -/
def framesLive (s : State) (core : Nat) (e : Env) : Nat → Bool
  | 0 => true
  | n + 1 =>
    match teamOfTag s core (e.refTag n) with
    | none => false
    | some t => decide (e.refDepth n ≤ t.callDepth) && framesLive s core e n

/-- Resolve a by-reference environment on a core: it made the environment, and every captured frame is there
(R249). -/
def resolveRef (s : State) (core : Nat) (h : DWord) (e : Env) : Except Nat Unit :=
  if hCore h != core then .error 0x0C
  else if framesLive s core e e.vcount then .ok ()
  else .error 0x0B

/-- The value of vector capture k in lane l for team t (R247, R249), whose own registers stand as they are when it
applies. -/
def captured (s : State) (t : Team) (e : Env) (k l : Nat) : Word :=
  if e.ref then
    match teamOfTag s t.core (e.refTag k) with
    | some u =>
      let u := if u.uid == t.uid then t else u
      if l < u.lanes then u.vget (e.refReg k) l else 0
    | none => 0
  else e.word (e.vecAt + k)

/-- The frame argument of CALL and APPLY: bits 6:0 of s23; the trap it gives, or f (R67). -/
def frameArg (t : Team) : Except Nat Nat :=
  let f := field (t.sread 23).toNat 0 7
  if f % 6 != 0 || f > 96 then .error 1
  else if t.frame + f > t.nreg - 6 then .error 2
  else .ok f

/-- Apply handle h to team t (R247): every check before any change; then the frame, the captured scalars
and vectors, and the entry. -/
def applyHandle (s : State) (t : Team) (h ret : DWord) (count cls : Nat) : Except Nat Team := do
  let e ← checkHandle s t.ctx h
  let f ← frameArg t
  if e.vcount != 0 && e.vbase + e.vcount > t.nreg - (t.frame + f) then throw 2
  if e.ref then resolveRef s t.core h e
  match t.push ⟨ret, t.frame, t.maskStack.length, count, cls⟩ with
  | none => throw 6
  | some t' =>
    let vals := (List.range e.vcount).flatMap fun k =>
      (lanesOf t.active).map fun l => (vkey (t.frame + f + e.vbase + k) l, captured s t e k l)
    let svals := (maskRegs e.smask).zipIdx.map fun r => (r.1, e.scalar r.2)
    pure { ((t'.putVals vals).putSvals svals) with
      frame := t.frame + f, pc := e.entry, clause := none, resume := none }

/-- Registers that applying a handle touches: captured registers of the team itself, the destinations,
and the captured scalars (R53, R249). -/
def applyTouches (s : State) (h : DWord) : List Nat × List Nat :=
  let t := s.tm
  match checkHandle s t.ctx h with
  | .error _ => ([], [])
  | .ok e =>
    let f := field (t.sread 23).toNat 0 7
    ((List.range e.vcount).flatMap fun k =>
        (t.frame + f + e.vbase + k) ::
          (if e.ref && e.refTag k == t.tag then [e.refReg k] else []),
      23 :: maskRegs e.smask)

/-- After the last group of an APPLY.lane: the original mask without exited lanes, and the next word
(R248). -/
def Team.endApply (t : Team) (a : ApplyState) : Team :=
  { t with
    apply := none, active := a.orig &&& t.full
    clause := some a.clause
    pc := a.clause.base + BitVec.ofNat 64 (4 * a.clause.idx) }.advance

/-- The team stands at the APPLY.lane again, with groups still to run. -/
def Team.atApply (t : Team) (a : ApplyState) (todo : List (DWord × Mask)) : Team :=
  { t with
    active := a.orig &&& t.full, clause := some a.clause, resume := none
    pc := a.clause.base + BitVec.ofNat 64 (4 * a.clause.idx)
    apply := some { a with todo := todo, running := false } }

/-- Start the next group, or go on at the word after the APPLY (R248, R329). A group whose lanes have all
exited only drops its reference. Results whose span has ended commit first (R53); while one cannot, the team
waits at the APPLY. A check that fails traps there. -/
def nextGroup (s : State) (a : ApplyState) : List (DWord × Mask) → State
  | [] => s.modTm fun t => t.endApply a
  | (h, m) :: rest =>
    let t := s.tm
    if m &&& t.full == 0 then nextGroup (dropRef s h) a rest
    else if t.pending.any fun p => p.span == 0 && p.blocked then
      (s.setTm (t.atApply a ((h, m) :: rest))).stall .commit
    else
      let c := a.clause
      let at_ := c.base + BitVec.ofNat 64 (4 * c.idx)
      let t := t.commitWhere fun p => p.span == 0
      let t1 := { t with active := m &&& t.full }
      match applyHandle s t1 h at_ (c.words.length - c.idx) c.cls with
      | .ok t2 =>
        s.setTm { t2 with
          apply := some { a with depth := t2.callDepth, handle := h, group := m, todo := rest, running := true } }
      | .error code =>
        takeTrap (s.setTm (t.atApply a ((h, m) :: rest))) code 0 (trapHi code ((c.words[c.idx]?).getD 0)) at_

/-- The running group ends: its reference is dropped and the next one starts (R248). -/
def endGroup (s : State) (a : ApplyState) : State := nextGroup (dropRef s a.handle) a a.todo

/-- The lanes of the running group have all exited (R329); a handler taken in its body ends first (log entry 20). -/
def Team.groupGone (t : Team) : Option ApplyState :=
  match t.apply with
  | some a =>
    if a.running && (!t.inHandler || t.trapDepth < a.depth) && a.group &&& t.full == 0 then some a else none
  | none => none

/-- A group ends at once when all of its lanes have exited: frames down to its own are popped, the mask
stack returns to its depth (R329). -/
def groupEmptied (s : State) (a : ApplyState) : State :=
  let s := s.modTm fun t =>
    let t' := t.popTo (a.depth - 1) 4096
    let low := t.maskStack.drop (t.maskStack.length - a.maskDepth)
    { t' with
      frame := match (t.popTo a.depth 4096).callHw.head? with | some e => e.frame | none => t.frame
      maskStack := low }
  endGroup s a

end Sys2Proof.Machine
end

