-- ==== Sys2Proof/Machine/Control.lean ====
section
/-! DEFINITION. The control words, opcodes 0x00 to 0x0C (R51, R64 to R70, R283, R307, and the reference
entries of chapters 19 to 22). -/

namespace Sys2Proof.Machine

/-- The target of a branch word: its own address plus 4 times the signed offset (R51). -/
def branchTarget (pc : DWord) (bits off : Nat) : DWord := pc + BitVec.ofInt 64 (4 * simm bits off)

/-- The team goes on at an address, where a header is expected (R39). -/
def Team.goto (t : Team) (pc : DWord) : Team := { t with pc := pc, clause := none, resume := none }

/-- NOP changes nothing but the program counter (R383). -/
def execNop (s : State) : Out := teamWord .nop s id

/-- BRA (R342). -/
def execBra (off : Fin 16777216) (s : State) : Out :=
  controlWord (.bra off) s fun t => .ok (t.goto (branchTarget t.pc 24 off.val))

/-- The condition of BRX over the active lanes (R65, R344). -/
def brxHolds (t : Team) (p : Nat) : BrCond → Bool
  | .any => t.active &&& t.pread p != 0
  | .all => t.active &&& ~~~(t.pread p) == 0
  | .none => t.active &&& t.pread p == 0

/-- BRX (R344): not taken, the next clause header follows. -/
def execBrx (p : PReg) (c : BrCond) (off : Fin 524288) (s : State) : Out :=
  controlWord (.brx p c off) s fun t =>
    .ok (if brxHolds t p.val c then t.goto (branchTarget t.pc 19 off.val) else t.advance)

/-- CALL (R67, R346). -/
def execCall (off : Fin 16777216) (s : State) : Out :=
  controlWord (.call off) s fun t =>
    match frameArg t with
    | .error c => .error c
    | .ok f =>
      match t.push ⟨t.pc + 4, t.frame, t.maskStack.length, 0, 0⟩ with
      | none => .error 6
      | some t' => .ok { t'.goto (branchTarget t.pc 24 off.val) with frame := t.frame + f }

/-- The top call-stack entry. -/
def Team.top (t : Team) : CallEntry := (t.callHw.head?).getD ⟨0, 0, 0, 0, 0⟩

/-- RET raises illegal-instruction (R69, R394). -/
def retIllegal (t : Team) : Bool :=
  let e := t.top
  t.callDepth == 0 || (t.inHandler && t.callDepth == t.trapDepth) || t.maskStack.length != e.maskDepth ||
    e.frame % 6 != 0 || e.frame > t.nreg - 6 || (e.count != 0 && e.cls ≥ 6)

/-- The team's outermost frame is the task end (R259). -/
def Team.taskFrame (t : Team) : Bool := match t.origin with | .launch _ _ _ => false | _ => true

/-- RET (R69, R394): to the return address, or with the remaining words of a clause; at the task end every
lane exits; at the frame of an APPLY.lane group the group ends. -/
def execRet (s : State) : Out :=
  issue .ret s fun s =>
    let t := s.tm.countSpan
    if retIllegal t then trapWord s 1 .ret
    else
      let e := t.top
      let t' := { t.pop with frame := e.frame }
      if t.callDepth == 1 && t.taskFrame then
        endIfEmpty (s.setTm (t'.exitLanes t'.full)) s.cur
      else
        match t.apply.filter fun a => a.running && a.depth == t.callDepth with
        | some a => endGroup (s.setTm t') a
        | none =>
          s.setTm { t'.goto e.ret with resume := if e.count == 0 then none else some (e.count, e.cls) }

/-- SPLIT (R64, R403). -/
def execSplit (p : PReg) (s : State) : Out :=
  controlWord (.split p) s fun t =>
    if t.maskStack.length ≥ 16 then .error 5
    else
      .ok { t with
        maskStack := ⟨t.active, t.active &&& ~~~(t.pread p.val)⟩ :: t.maskStack
        active := t.active &&& t.pread p.val }.advance

/-- FLIP (R64): the other lanes become active. -/
def execFlip (s : State) : Out :=
  controlWord .flip s fun t =>
    match t.maskStack with
    | [] => .error 1
    | e :: r =>
      .ok { t with
        maskStack := ⟨e.outer, t.active &&& t.full⟩ :: r
        active := e.other &&& t.full }.advance

/-- MERGE (R64, R380). -/
def execMerge (s : State) : Out :=
  controlWord .merge s fun t =>
    match t.maskStack with
    | [] => .error 1
    | e :: r => .ok { t with maskStack := r, active := e.outer &&& t.full }.advance

/-- PRUNE (R64, R391). -/
def execPrune (p : PReg) (s : State) : Out :=
  controlWord (.prune p) s fun t =>
    match t.maskStack with
    | [] => .error 1
    | e :: r =>
      let m := t.pread p.val
      .ok { t with
        maskStack := ⟨e.outer, e.other &&& ~~~m⟩ :: r
        active := t.active &&& ~~~m }.advance

/-- EXIT (R66, R352): the active lanes leave; a team without lanes goes on to its retirement (R73); a group
of APPLY.lane without lanes ends (R329). -/
def execExit (s : State) : Out :=
  issue .exit s fun s =>
    let s := s.modTm fun t => (t.countSpan.exitLanes t.active).advance
    let s := match s.tm.groupGone with
      | some a => groupEmptied s a
      | none => s
    endIfEmpty s s.cur

/-- TRAP (R412). -/
def execTrap (imm : Fin 65536) (s : State) : Out :=
  controlWord (.trap imm) s fun _ => .error 0x10

/-- RETT (R283, R395): the checks raise illegal-instruction, which inside a handler is a double trap. -/
def execRett (a : RettAction) (s : State) : Out :=
  issue (.rett a) s fun s =>
    let t := s.tm.countSpan
    if !t.inHandler || t.callDepth != t.trapDepth || t.maskStack.length != t.trapMaskDepth then
      trapWord s 1 (.rett a)
    else
      let s := returnTrap s (s.setTm t) a
      let s := match s.tm.groupGone with
        | some g => groupEmptied s g
        | none => s
      endIfEmpty s s.cur

/-- Partition key: core * 4 + partition. -/
def Team.partKey (t : Team) : Nat := t.core * 4 + t.part

/-- A resident team enters HALTED, whatever its state (R306). -/
def Team.halt (t : Team) : Team :=
  if t.state == .halted || t.state == .swapped || t.state == .retired then t
  else { t with haltedFrom := t.state, state := .halted, stepping := false }

/-- A partition stops: every resident team of it enters HALTED (R306). -/
def stopPart (s : State) (k : Nat) : State :=
  { s with
    teams := s.teams.map fun e => (e.1, if e.2.partKey == k then e.2.halt else e.2)
    dbg := { s.dbg with halted := if s.dbg.halted.contains k then s.dbg.halted else k :: s.dbg.halted } }

/-- BKPT (R307, R341): with bkpt_en set the partition stops and the team resumes after the word; otherwise
the BKPT trap. -/
def execBkpt (tag : Fin 65536) (s : State) : Out :=
  issue (.bkpt tag) s fun s =>
    if s.dbg.bkptEn.contains s.tm.partKey then
      stopPart (s.modTm Team.finish) s.tm.partKey
    else trapWord (s.modTm Team.countSpan) 0x11 (.bkpt tag)

end Sys2Proof.Machine
end

