-- ==== Sys2Proof/Machine/Combine.lean ====
section
/-! DEFINITION. The reductions of copies and of the fabric (R109, R191, R300). -/

namespace Sys2Proof.Machine

/-- The exact sum of two values, not rounded (R109). -/
def sumV (a b : FVal) : FVal :=
  match a, b with
  | .nan _, _ | _, .nan _ => .nan false
  | .inf n, .inf n' => if n == n' then .inf n else .nan false
  | .inf n, _ | _, .inf n => .inf n
  | .fin n m x, .fin n' m' x' =>
    if m = 0 && m' = 0 then .fin (n && n') 0 0
    else
      let (v, q) := addDy (sgn n m) x (sgn n' m') x'
      .fin (decide (v < 0)) v.natAbs q

/-- A magnitude m * 2^x is at most k * 2^y. -/
def magLe (m : Nat) (x : Int) (k : Nat) (y : Int) : Bool :=
  let q := min x y
  m * 2 ^ (x - q).toNat ≤ k * 2 ^ (y - q).toNat

/-- The scale of a combined block: the smallest for which every finite magnitude is at most M (R109). -/
def combineScale (big : Nat) (ys : List FVal) : Nat :=
  ((List.range 255).find? fun (sc : Nat) => ys.all fun y =>
    match y with
    | .fin _ m x => magLe m x big ((sc : Int) - 127)
    | _ => true).getD 254

/-- Combine two MXFP8 blocks of one element format (R109): scale and element codes. -/
def mxCombine (t : MxFmt) (xa : Nat) (a : List Nat) (xb : Nat) (b : List Nat) : Nat × List Nat :=
  if xa == 255 || xb == 255 then (255, a.map fun _ => 0)
  else
    let f := mxFfmt t
    let ys := (a.zip b).map fun e =>
      sumV (scaleV ((xa : Int) - 127) (decF f (e.1 % 256))) (scaleV ((xb : Int) - 127) (decF f (e.2 % 256)))
    let sc := combineScale (if t == .e4m3 then 448 else 57344) ys
    (sc, ys.map fun y =>
      match y with
      | .nan _ => f.nanCode
      | .inf n => signed f n f.infCode
      | .fin n m x => (roundF f .rn (t == .e4m3) n m (x + (127 - (sc : Int)))).1)

/-- Combine a destination unit with a source unit (R191): reduce code, elements and scales. -/
def combine (kind : Nat) (d : List Byte) (ds : Byte) (x : List Byte) (xs : Byte) : List Byte × Byte :=
  match kind with
  | 1 => ((toBytes4 (fAdd fmtF32 .rn (num d) (num x)).1 4), 0)
  | 2 => ((toBytes4 (fAdd fmtBf16 .rn (num d) (num x)).1 2), 0)
  | k =>
    let r := mxCombine (if k == 3 then .e4m3 else .e5m2) ds.toNat (d.map (·.toNat)) xs.toNat (x.map (·.toNat))
    (r.2.map (BitVec.ofNat 8), BitVec.ofNat 8 r.1)
where
  num (l : List Byte) : Nat := l.foldr (fun b n => b.toNat + 256 * n) 0
  toBytes4 (v n : Nat) : List Byte := (List.range n).map fun i => BitVec.ofNat 8 (v / 256 ^ i)

end Sys2Proof.Machine
end

