-- ==== Sys2Proof/Machine/Rime.lean ====
section
/-! DEFINITION. Row commands and Rime (R205 to R227, R396 to R399): issue, acceptance, pre-step, microprogram
steps, the fallback path, completion, ROWSTAT, and the DRAM events. -/

namespace Sys2Proof.Machine

/-! ### Fields of a command (Table 11-3, R210) -/

def RowCmd.ctl (r : RowCmd) (lo n : Nat) : Nat := field r.control.toNat lo n
def RowCmd.width (r : RowCmd) : Nat := r.ctl 0 11 + 1
def RowCmd.red (r : RowCmd) : Bool := r.ctl 11 1 == 1
def RowCmd.count (r : RowCmd) : Nat := r.ctl 12 6 + 1
def RowCmd.nofb (r : RowCmd) : Bool := r.ctl 18 1 == 1

/-- AND, OR and XOR: the operations with a reduction form. -/
def RowOp.reduces : RowOp → Bool
  | .and | .or | .xor => true
  | _ => false

/-- The source addresses (R207). -/
def RowCmd.sources (r : RowCmd) : List DWord :=
  if r.op.reduces && r.red then
    let a := (r.srcs[0]?).getD 0
    let b := (r.srcs[1]?).getD 0
    (List.range r.count).map fun k => a + BitVec.ofNat 64 k * b
  else r.srcs

/-- Two ranges of the command's width overlap. -/
def RowCmd.overlap (r : RowCmd) (a b : DWord) : Bool :=
  let n := 1024 * r.width
  a.toNat < b.toNat + n && b.toNat < a.toNat + n

/-- An invalid command (R211). -/
def RowCmd.bad (r : RowCmd) : Bool :=
  r.ctl 19 45 != 0 || (!r.red && r.ctl 12 6 != 0) || (r.red && !r.op.reduces) ||
    !canonical r.dst || !(r.sources.all canonical) ||
    (r.sources.any fun a => r.overlap r.dst a && a != r.dst) ||
    (r.op == .cpy && r.sources.any fun a => a == r.dst)

/-- Status bits of Table 11-5. -/
def rbInvalid : BitVec 8 := 2
def rbMem : BitVec 8 := 4
def rbRace : BitVec 8 := 8
def rbWait : BitVec 8 := 16
def rbRefused : BitVec 8 := 32
def rbFallback : BitVec 8 := 64
def rbThermal : BitVec 8 := 128

/-- Replace a command of the queue. -/
def modRow (s : State) (id : Nat) (f : RowCmd → RowCmd) : State :=
  { s with rowQueue := s.rowQueue.map fun r => if r.id == id then f r else r }

def findRow (s : State) (id : Nat) : Option RowCmd := s.rowQueue.find? fun r => r.id == id

/-- The command accesses nothing more; a status bit says why. -/
def RowCmd.stop (b : BitVec 8) (r : RowCmd) : RowCmd :=
  { r with accepted := true, stopped := true, bits := r.bits ||| b }

/-! ### Issue (R396) -/

/-- Issue a row command: the operands' values are read, the release comes first, and the command is posted to
the core's queue. -/
def rowWord (i : Instr) (op : RowOp) (sd sa : SReg) (srcs : List Nat) (sc : SReg) (f : EFlags) (s : State) : Out :=
  issue i s fun s =>
    let t := s.tm
    if 16 ≤ (s.rowQueue.filter fun r => r.core == t.core && r.ctx == t.ctx && !r.accepted).length then s.stall .rowQueue
    else
      match releaseFirst (if f.rel then f.scope.relTo else .nowhere) false s with
      | none => s.stall .mirror
      | some s =>
        let r : RowCmd :=
          { id := s.nextRow, uid := t.uid, ctx := t.ctx, core := t.core, op := op, dst := t.sread sd.val
            srcs := srcs.map t.sread, pattern := t.sread sa.val, control := t.sread sc.val, flags := f
            toAccept := [], places := [], accepted := false, stopped := false, path := .undecided, bits := 0, dstPa := [], srcPa := []
            units := [], fallbackNext := 0 }
        { s with rowQueue := s.rowQueue ++ [r], nextRow := s.nextRow + 1 }.modTm
          fun t => { t with rowOut := t.rowOut + 1 }.finish

def execRowcpy (sd sa sc : SReg) (f : EFlags) (s : State) : Out :=
  rowWord (.rowcpy sd sa sc f) .cpy sd sa [sa.val] sc f s
def execRowfil (sd sa sc : SReg) (f : EFlags) (s : State) : Out :=
  rowWord (.rowfil sd sa sc f) .fil sd sa [] sc f s
def execRowand (sd sa sb sc : SReg) (f : EFlags) (s : State) : Out :=
  rowWord (.rowand sd sa sb sc f) .and sd sa [sa.val, sb.val] sc f s
def execRowor (sd sa sb sc : SReg) (f : EFlags) (s : State) : Out :=
  rowWord (.rowor sd sa sb sc f) .or sd sa [sa.val, sb.val] sc f s
def execRownot (sd sa sc : SReg) (f : EFlags) (s : State) : Out :=
  rowWord (.rownot sd sa sc f) .not sd sa [sa.val] sc f s
def execRowmaj (sd sa sb sc : SReg) (f : EFlags) (s : State) : Out :=
  rowWord (.rowmaj sd sa sb sc f) .maj sd sa [sa.val, sb.val, sb.val + 1] sc f s
def execRowxor (sd sa sb sc : SReg) (f : EFlags) (s : State) : Out :=
  rowWord (.rowxor sd sa sb sc f) .xor sd sa [sa.val, sb.val] sc f s

/-! ### Translation (R219) -/

/-- The translation of one unit, or why it stops: to wait, or fatally. -/
inductive UnitEnd where
  | ok (g : Seg)
  | wait
  | fatal
  deriving DecidableEq, Repr

/-- Translate one unit of command id (R219). -/
def translateUnit (s : State) (core ctx id : Nat) (va : DWord) (k : ReqKind) : UnitEnd × State :=
  if inFabric va || inFabric (va + 1023) || inAperture va 1024 then (.fatal, s)
  else
    let len := min 1024 (4096 - va.toNat % 4096)
    match translateBytes s core [.second] ctx va 1024 k with
    | (.fatal, s) => (.fatal, s)
    | (.bad pa, s) => (.wait, noteBad s ctx pa)
    | (.held, s) => (.wait, s)
    | (.fault ps, s) => (.wait, askPages s core ctx (.row id) k false ps)
    | (.migrating ps, s) => (.wait, askPages s core ctx (.row id) k true ps)
    | (.ok pas, s) =>
      let next := (pas[len]?).getD 0
      let g : Seg := ⟨pas.headD 0, len, next, lineKey s (lineOf (pas.headD 0)), lineKey s (lineOf next)⟩
      if g.lineList.all fun ln => reachable s core (ln * 256) then (.ok g, s) else (.fatal, s)

/-- Translate n units from va on: none, with true for a fatal fault, where one stops. -/
def translateUnits (s : State) (core ctx id : Nat) (k : ReqKind) : Nat → DWord → Option (List Seg) × Bool × State
  | 0, _ => (some [], false, s)
  | n + 1, va =>
    match translateUnit s core ctx id va k with
    | (.fatal, s) => (none, true, s)
    | (.wait, s) => (none, false, s)
    | (.ok g, s) =>
      match translateUnits s core ctx id k n (va + 1024) with
      | (some gs, _, s) => (some (g :: gs), false, s)
      | x => x

/-- Translate the sources. -/
def translateSources (s : State) (core ctx id n : Nat) : List DWord → Option (List (List Seg)) × Bool × State
  | [] => (some [], false, s)
  | a :: r =>
    match translateUnits s core ctx id .read n a with
    | (none, f, s) => (none, f, s)
    | (some gs, _, s) =>
      match translateSources s core ctx id n r with
      | (some l, _, s) => (some (gs :: l), false, s)
      | x => x

/-- Translate every operand of a command. -/
def translateRow (s : State) (r : RowCmd) : Option (List Seg × List (List Seg)) × Bool × State :=
  match translateUnits s r.core r.ctx r.id .write r.width r.dst with
  | (none, f, s) => (none, f, s)
  | (some ds, _, s) =>
    match translateSources s r.core r.ctx r.id r.width r.sources with
    | (none, f, s) => (none, f, s)
    | (some ss, _, s) => (some (ds, ss), false, s)

/-! ### Races and bundles (R155, R217) -/

/-- The bundle on which an engine's access to a line races: a write to an entered line, a read of one entered
under OWN or SHARE (R155). -/
def engineRace (s : State) (write : Bool) (line : Nat) : Option Nat :=
  if s.pools.isEmpty then none
  else
    ((s.pools.flatMap fun p => p.2.bundles).find? fun b =>
      b.2.state == .entered && b.2.hasLine line && (write || b.2.mode != .read)).map (·.1)

/-- Team u holds a pending race exception on a descriptor (R156). -/
def noteRace (s : State) (u idx : Nat) : State :=
  if (sfind s.teams u).isSome then
    s.modTeam u fun t => { t with racePending := true, raceIndex := idx }
  else s

/-- A line of some units, which the command reads, is entered under OWN or SHARE (R155, R217). -/
def readRace (s : State) (gs : List Seg) : Option Nat :=
  if s.pools.isEmpty then none else (gs.flatMap Seg.lineList).findSome? (engineRace s false)

/-- The same for any source unit of the command. -/
def RowCmd.sourceRace (s : State) (r : RowCmd) : Option Nat := readRace s r.srcPa.flatten

/-- A line of a destination unit is entered on some core (R217). -/
def RowCmd.dstEntered (s : State) (r : RowCmd) : Bool :=
  if s.pools.isEmpty then false else r.dstPa.any fun g => g.lineList.any fun ln => (engineRace s true ln).isSome

/-- The command stops on a race (R217). -/
def stopRace (s : State) (r : RowCmd) (idx : Nat) : State := noteRace (modRow s r.id (RowCmd.stop rbRace)) r.uid idx

/-! ### Acceptance (R212) -/

/-- The addresses of a unit's first and last byte: 1,024 bytes lie in at most two rows, and these are in them. -/
def Seg.ends (g : Seg) : List Nat := [g.addr 0, g.addr 1023]

/-- The home slices of the destination units in ascending order, which is that of their pseudo-channels. -/
def RowCmd.slices (s : State) (r : RowCmd) : List Nat :=
  sortNat (distinct ((r.dstPa.flatMap Seg.ends).map (homeSlice s)))

/-- The slice has a free entry: it holds fewer than 32 accepted commands. -/
def sliceFree (s : State) (n : Nat) : Bool :=
  (s.rowQueue.filter fun q => q.places.any fun p => p.1 == n).length < 32

/-- A waiting row word of the core issues again: one command has left the core's queue (R209). -/
def wakeRowQueue (s : State) (core : Nat) : State := wakeWhere s fun t => t.core == core && t.wait == .rowQueue

/-- The command has left its core's queue: it waits for entered bundles, or stops on a race (R217). -/
def leaveQueue (s : State) (r : RowCmd) : State :=
  let s := wakeRowQueue (modRow s r.id fun q =>
    { q with accepted := true, bits := if r.dstEntered s then q.bits ||| rbWait else q.bits }) r.core
  match r.sourceRace s with
  | some idx => stopRace s r idx
  | none => s

/-- The command takes its place at the next slice, where that has room, and leaves the queue after the last one. One that
gave up its places at a switch has left the queue before. -/
def acceptAt (s : State) (r : RowCmd) : State :=
  match r.toAccept with
  | [] => s
  | n :: rest =>
    if !sliceFree s n then s
    else
      let r := { r with toAccept := rest, places := r.places ++ [(n, s.nextPlace)] }
      let s := modRow { s with nextPlace := s.nextPlace + 1 } r.id fun _ => r
      if rest.isEmpty && !r.accepted then leaveQueue s r else s

/-- The command still takes places: it is in its core's queue, or has given up its places at a switch (R223). -/
def RowCmd.queued (r : RowCmd) : Bool := !r.stopped && (!r.accepted || !r.toAccept.isEmpty)

/-- The command at the head of a core's queue (R212, R223): the first of the context that runs there. -/
def rowHead (s : State) (core : Nat) : Option RowCmd :=
  s.rowQueue.find? fun r => r.core == core && r.queued && ctxOn s core r.ctx

/-- ROW_COMMAND_ACCEPT (R211, R212, R219): the head of the core's queue is translated, and then accepted at one slice
after the other. -/
def execRowCommandAccept (core : Nat) (s : State) : Out :=
  .next (match rowHead s core with
    | none => s
    | some r =>
      if (sget 0 s.dbg.engStop core).getLsbD 8 then s
      else if r.bad then wakeRowQueue (modRow s r.id (RowCmd.stop rbInvalid)) core
      else if !r.dstPa.isEmpty then acceptAt s r
      else
        match translateRow s r with
        | (none, true, s) => wakeRowQueue (modRow s r.id (RowCmd.stop rbMem)) core
        | (none, false, s) => s
        | (some (ds, ss), _, s) =>
          modRow s r.id fun q =>
            let q := { q with dstPa := ds, srcPa := ss }
            { q with toAccept := q.slices s })

/-! ### Pre-step (R213, R216) -/

/-- An operand's units are consecutive and stay within 2 MiB (R213). -/
def consecutive (gs : List Seg) : Bool :=
  match gs with
  | [] => true
  | g :: _ =>
    (gs.zipIdx.all fun e => e.1.len == 1024 && e.1.pa == g.pa + 1024 * e.2) &&
      g.pa / 2 ^ 21 == (g.pa + 1024 * gs.length - 1) / 2 ^ 21

/-- Row-congruent addresses: they agree in bits 24:10 and 38:34. -/
def congruent (a b : Nat) : Bool := field a 10 15 == field b 10 15 && field a 34 5 == field b 34 5

/-- The command is eligible for the in-DRAM path (R213): its operand pages have key 0 (R324). Row operations are enabled
in full function (R314). -/
def RowCmd.eligible (s : State) (r : RowCmd) : Bool :=
  let all := r.dstPa :: r.srcPa
  r.dst.toNat % 1024 == 0 && (r.sources.all fun a => a.toNat % 1024 == 0) &&
    (all.all fun gs => gs.all fun g => g.pa / 2 ^ 44 == 0 && g.key == 0 && !s.captured.contains (rowOf g.pa)) &&
    all.all consecutive &&
    (r.srcPa.all fun gs => (gs.zip r.dstPa).all fun e => congruent e.1.pa e.2.pa) && s.boot.stage == 2

/-- Two bytes of destination units meet at one bank, or, outside tier 0, at one home slice. -/
def sameBank (s : State) (a b : Nat) : Bool :=
  if a / 2 ^ 44 == 0 then b / 2 ^ 44 == 0 && bankOf a == bankOf b
  else b / 2 ^ 44 != 0 && homeSlice s a == homeSlice s b

/-- The place of a command in the order of acceptance at a slice. -/
def RowCmd.placeAt (r : RowCmd) (n : Nat) : Option Nat := (r.places.find? fun p => p.1 == n).map (·.2)

/-- A command accepted earlier at a bank of the unit has not completed (R212). -/
def bankTaken (s : State) (r : RowCmd) (g : Seg) : Bool :=
  g.ends.any fun a =>
    let n := homeSlice s a
    s.rowQueue.any fun q => q.dstPa.any (fun h => h.ends.any (sameBank s a)) &&
      (match q.placeAt n, r.placeAt n with | some x, some y => x < y | _, _ => false)

/-- A microprogram starts with compute rows in an undefined state (R205). -/
def RowUnit.begin (n : Nat) : RowUnit :=
  let c := fun i => Config.computeRow (8 * n + i)
  ⟨false, 0, c 0, c 1, c 2, c 3, c 4, c 5, false⟩

/-- The path of a command after its first pre-step (R213). -/
def RowCmd.choosePath (s : State) (r : RowCmd) : RowCmd :=
  if r.path != .undecided then r
  else if r.eligible s then { r with path := .dram }
  else if r.nofb then r.stop rbRefused
  else { r with path := .fallback }

/-- The units of a command's operands at a place: the destination's, then the sources'. -/
def RowCmd.segs (r : RowCmd) (unit : Nat) : List Seg := (r.dstPa :: r.srcPa).filterMap fun l => l[unit]?

/-- The operand rows of a unit. -/
def RowCmd.rows (r : RowCmd) (unit : Nat) : List Nat := distinct ((r.segs unit).flatMap fun g => g.ends.map rowOf)

/-- Access to a unit under the keys of its pages (R324). -/
def viewSeg (s : State) (g : Seg) : State :=
  viewBytes (viewBytes s ((List.range g.len).map (g.pa + ·)) g.key) ((List.range (1024 - g.len)).map (g.next + ·)) g.nextKey

/-- A line leaves the L2, unless its slice must keep it (R226, R276). -/
def dropLine (s : State) (ln : Nat) : State :=
  let x := l2Get s ln
  if x.dirty != 0 || capturedAt s (ln * 256) then s else l2Set s ln { x with present := false, used := 0 }

/-- The duties of a unit's home slice toward the caches (R216): the destination's first-level bytes are collected, the
dirty sectors of source and destination rows are written, and the destination's lines become invalid. -/
def prestepLines (s : State) (d : Seg) (all : List Seg) : State :=
  let s := d.lineList.foldl collectLine s
  let s := all.foldl viewSeg s
  let s := (all.flatMap Seg.lineList).foldl writeSectors s
  d.lineList.foldl dropLine s

/-- A stack of the unit is above its limit (R225). -/
def unitHot (s : State) (gs : List Seg) : Bool :=
  s.stackStopped != 0 && gs.any fun g => g.pa / 2 ^ 44 == 0 && s.stackStopped.getLsbD (stackOf g.pa)

/-! ### Arbitration windows (R220) -/

/-- The row is an operand of a microprogram that runs. -/
def operandRow (s : State) (row : Nat) : Bool :=
  s.rowQueue.any fun r => r.path == .dram && !r.stopped && r.units.any fun u =>
    u.2.started && !u.2.finished && (r.rows u.1).contains row

/-- The number of activations at which a row is captured, at the refresh multiplier of its stack: 1, 2 or 4 (R226, R317). -/
def captureLimit (s : State) (row : Nat) : Nat := 1024 / 2 ^ min 2 (sget 0 s.refreshMult (stackOf (row * 1024)))

/-- Accesses to the row wait for its capture: it has reached the threshold as an operand (R226). -/
def rowWaits (s : State) (row : Nat) : Bool := captureLimit s row ≤ sget 0 s.rowActs row && operandRow s row

/-- What a window serves of the accesses that are pending as it opens (R220): the urgent reads, and up to four ordinary
accesses to the row of the oldest one. -/
def windowOf (s : State) (l : List BankAcc) : List BankAcc :=
  let l := l.filter fun a => !rowWaits s a.row
  l.filter (·.urgent) ++
    match l.find? fun a => !a.urgent with
    | some o => (l.filter fun a => !a.urgent && a.row == o.row).take 4
    | none => []

/-- A window opens at the bank of a unit. Without an urgent read in it, a refresh that is due comes first (R220, R222). -/
def openWindow (s : State) (g : Seg) : State :=
  let b := getBank s (bankOf g.pa)
  let w := windowOf s b.pendingAcc
  setBank s (bankOf g.pa) { b with window := w, refreshOwed := if w.any (·.urgent) then b.refreshOwed else 0 }

/-- Another command that has begun holds a line against the command: one that it writes, or one that it reads and the
other writes. The command then begins later, so that two holds never meet (DESIGN CHOICE, log entry 102). -/
def holdsMeet (s : State) (r : RowCmd) : Bool :=
  (r.dstPa.any fun g => g.lineList.any (heldLine s true)) ||
    r.srcPa.any fun l => l.any fun g => g.lineList.any (heldLine s false)

/-- What a pre-step waits for: the engine's stop bit (R310), a release that the acquire flag names (R175); and, before the
command has begun, earlier commands at its banks (R212) and the holds of others. -/
def prestepWaits (s : State) (r : RowCmd) : Bool :=
  !ctxOn s r.core r.ctx || (sget 0 s.dbg.engStop r.core).getLsbD 8 ||
    (r.flags.acq && earlierReleases s r.uid r.id r.flags.scope) ||
    (!r.begun && (r.dstPa.any (bankTaken s r) || holdsMeet s r))

/-- The unit's pre-step, once no bundle stands against it (R216). -/
def prestepUnit (s : State) (r : RowCmd) (unit : Nat) (g : Seg) : State :=
  modRow (prestepLines s g (r.segs unit)) r.id fun r => { r with units := sput r.units unit (.begin s.free) }

/-- What a pre-step finds entered under OWN or SHARE: any source before the command has begun, a source of the unit later
(R155, R156, R217; log entry 102). -/
def RowCmd.raceAt (s : State) (r : RowCmd) (unit : Nat) : Option Nat :=
  if r.begun then readRace s (r.srcPa.filterMap fun l => l[unit]?) else r.sourceRace s

/-- ROW_PRESTEP (R216, R217, R225): before a command begins, entered bundles leave its destination, and the unentered ones
are evicted. -/
def execRowPrestep (cmd unit : Nat) (s : State) : Out :=
  .next (match findRow s cmd with
    | none => s
    | some r =>
      match r.dstPa[unit]? with
      | none => s
      | some g =>
        if !r.accepted || !r.toAccept.isEmpty || r.stopped || (sfind r.units unit).isSome || prestepWaits s r then s
        else if unitHot s (r.segs unit) then modRow s cmd fun r => { r with bits := r.bits ||| rbThermal }
        else if !r.begun && r.dstEntered s then modRow s cmd fun r => { r with bits := r.bits ||| rbWait }
        else
          match r.raceAt s unit with
          | some idx => stopRace s r idx
          | none =>
            let all := fun _ : Nat => true
            let lines := r.dstPa.flatMap Seg.lineList
            if !r.begun && !s.pools.isEmpty && lines.any (stillHeld s all) then
              lines.foldl (fun s ln => evictHolders s all ln) s
            else prestepUnit s r unit g)

/-! ### Microprograms (Tables 11-1 and 11-4) -/

/-- A row that a step names. -/
inductive RowRef where
  | src (k : Nat)
  | dst
  | t (i : Fin 4)
  | dcc (i : Fin 2)
  | zero
  | ones
  deriving DecidableEq, Repr

/-- The steps of Table 11-1. -/
inductive MicroStep where
  | aap (x y : RowRef)
  | tra (x y z : Fin 4)
  | dra (i : Fin 2) (y : RowRef)
  | pwr
  deriving DecidableEq, Repr

/-- The steps for one further source of ROWAND and ROWOR, and of ROWXOR (Table 11-4). -/
def groupSteps (op : RowOp) (k : Nat) : List MicroStep :=
  match op with
  | .and => [.aap (.src k) (.t 1), .aap .zero (.t 2), .tra 0 1 2]
  | .or => [.aap (.src k) (.t 1), .aap .ones (.t 2), .tra 0 1 2]
  | .xor =>
    [.aap (.t 0) (.dcc 1), .aap (.src k) (.t 1), .aap .ones (.t 2), .tra 0 1 2,
     .aap (.dcc 1) (.t 1), .aap (.src k) (.t 2), .aap .zero (.t 3), .tra 1 2 3,
     .aap (.t 1) (.dcc 0), .dra 0 (.t 1), .aap .zero (.t 2), .tra 0 1 2]
  | _ => []

/-- The microprogram of a command with n sources (Table 11-4). -/
def microprogram (op : RowOp) (pattern : DWord) (n : Nat) : List MicroStep :=
  match op with
  | .cpy => [.aap (.src 0) .dst]
  | .fil =>
    if pattern == 0 then [.aap .zero .dst]
    else if pattern == BitVec.allOnes 64 then [.aap .ones .dst]
    else [.pwr, .aap (.t 3) .dst]
  | .not => [.aap (.src 0) (.dcc 0), .dra 0 .dst]
  | .maj => [.aap (.src 0) (.t 0), .aap (.src 1) (.t 1), .aap (.src 2) (.t 2), .tra 0 1 2, .aap (.t 0) .dst]
  | op => .aap (.src 0) (.t 0) :: ((List.range (n - 1)).flatMap fun k => groupSteps op (k + 1)) ++ [.aap (.t 0) .dst]

def RowUnit.getT (u : RowUnit) (i : Fin 4) : Row :=
  match i with | 0 => u.t0 | 1 => u.t1 | 2 => u.t2 | 3 => u.t3

def RowUnit.setT (u : RowUnit) (i : Fin 4) (r : Row) : RowUnit :=
  match i with
  | 0 => { u with t0 := r }
  | 1 => { u with t1 := r }
  | 2 => { u with t2 := r }
  | 3 => { u with t3 := r }

def RowUnit.getDcc (u : RowUnit) (i : Fin 2) : Row := match i with | 0 => u.dcc0 | 1 => u.dcc1
def RowUnit.setDcc (u : RowUnit) (i : Fin 2) (r : Row) : RowUnit :=
  match i with
  | 0 => { u with dcc0 := r }
  | 1 => { u with dcc1 := r }

/-- Each bit is the majority of three. -/
def majority (a b c : Row) : Row := (a &&& b) ||| (b &&& c) ||| (a &&& c)

/-- A 64-bit pattern repeated over a row. -/
def patternRow (p : DWord) : Row := BitVec.ofNat 8192 (ofBytes ((List.range 128).flatMap fun _ => toBytes 8 p.toNat))

/-- The contents of a row that a step names. -/
def readRow (s : State) (r : RowCmd) (unit : Nat) (u : RowUnit) : RowRef → Row
  | .src k =>
    match (r.srcPa[k]?).bind fun l => l[unit]? with
    | some g => BitVec.ofNat 8192 (memRead s g.pa 1024)
    | none => 0
  | .dst =>
    match r.dstPa[unit]? with
    | some g => BitVec.ofNat 8192 (memRead s g.pa 1024)
    | none => 0
  | .t i => u.getT i
  | .dcc i => u.getDcc i
  | .zero => 0
  | .ones => BitVec.allOnes 8192

/-- Write a row that a step names: the operand row in DRAM, of which no cache has a copy, or a compute row. -/
def writeRow (s : State) (r : RowCmd) (unit : Nat) (u : RowUnit) (x : Row) : RowRef → State × RowUnit
  | .t i => (s, u.setT i x)
  | .dcc i => (s, u.setDcc i x)
  | .dst =>
    match r.dstPa[unit]? with
    | some g => (memSetAll s (g.bytes.zip (toBytes 1024 x.toNat)), u)
    | none => (s, u)
  | _ => (s, u)

/-- The effect of one step (Table 11-1). -/
def microStep (s : State) (r : RowCmd) (unit : Nat) (u : RowUnit) : MicroStep → State × RowUnit
  | .aap x y => writeRow s r unit u (readRow s r unit u x) y
  | .tra x y z =>
    let m := majority (u.getT x) (u.getT y) (u.getT z)
    (s, ((u.setT x m).setT y m).setT z m)
  | .dra i y => writeRow s r unit u (~~~(u.getDcc i)) y
  | .pwr => (s, u.setT 3 (patternRow r.pattern))

/-- The addressable rows that a step activates. -/
def activates (r : RowCmd) (unit : Nat) : MicroStep → List Nat
  | .aap x y => [x, y].filterMap row
  | .dra _ y => [y].filterMap row
  | _ => []
where
  /-- The row number of an operand. -/
  row : RowRef → Option Nat
    | .src k => ((r.srcPa[k]?).bind fun l => l[unit]?).map fun g => rowOf g.pa
    | .dst => (r.dstPa[unit]?).map fun g => rowOf g.pa
    | _ => none

/-- The addressable row that a step reads. -/
def readsRow (r : RowCmd) (unit : Nat) : MicroStep → Option Nat
  | .aap x _ => activates.row r unit x
  | _ => none

/-! ### The activation tracker (R226) -/

/-- The lines of a row. -/
def rowLines (row : Nat) : List Nat := (List.range 4).map (row * 4 + ·)

/-- Every sector of a row is brought into its home slice. -/
def captureRow (s : State) (row : Nat) : State :=
  let s := (rowLines row).foldl (fun s ln => l2Set (touchLine s ln) ln { l2Get (touchLine s ln) ln with present := true }) s
  { s with captured := s.captured ++ [row] }

/-- Rows at the threshold are captured, except operands of running microprograms. -/
def captureRows (s : State) (rows : List Nat) : State :=
  rows.foldl (init := s) fun s row =>
    if captureLimit s row ≤ sget 0 s.rowActs row && !operandRow s row && !s.captured.contains row then captureRow s row
    else s

/-- One activation of a row. -/
def countActivation (s : State) (row : Nat) : State :=
  captureRows { s with rowActs := sset 0 s.rowActs row (sget 0 s.rowActs row + 1) } [row]

/-! ### Steps and fallback units -/

/-- What an open window has still to serve: accesses to a row at its limit wait for its capture (R226). -/
def windowLeft (s : State) (bank : Nat) : List BankAcc := (getBank s bank).window.filter fun a => !rowWaits s a.row

/-- A unit may start its next step: its context runs, nothing stops the stack or the engine, its bank's window has been
served, and none of its rows is captured (R220, R223, R225, R226, R310). -/
def mayStep (s : State) (r : RowCmd) (unit : Nat) (g : Seg) : Bool :=
  ctxOn s r.core r.ctx && !s.stackStopped.getLsbD (stackOf g.pa) && !(sget 0 s.dbg.engStop r.core).getLsbD 8 &&
    (windowLeft s (bankOf g.pa)).isEmpty && !(r.rows unit).any s.captured.contains

/-- After a step: the next window opens; after the last one, rows that it has held back are captured (R226). -/
def endStep (s : State) (r : RowCmd) (unit : Nat) (g : Seg) (u : RowUnit) (m : MicroStep) : State :=
  let s := modRow s r.id fun r => { r with units := sput r.units unit u }
  let s := (activates r unit m).foldl countActivation s
  if u.finished then
    let b := getBank s (bankOf g.pa)
    captureRows (setBank s (bankOf g.pa) { b with window := [] }) (r.rows unit)
  else openWindow s g

/-- Write-backs of some units' rows still wait at their banks (R216). -/
def writesWait (s : State) (gs : List Seg) : Bool :=
  s.banks.any fun e => e.2.pendingAcc.any fun a => a.write && gs.any fun g => g.covers (lineOf a.pa)

/-- The pre-step of a unit is over: the command has its path (R213), and a microprogram begins with a window (R220). -/
def startUnit (s : State) (r : RowCmd) (unit : Nat) (u : RowUnit) (g : Seg) : State :=
  let r := r.choosePath s
  let s := modRow s r.id fun _ => { r with units := sput r.units unit { u with started := true } }
  if r.path == .dram then openWindow s g else s

/-- One step of a unit's microprogram. A source row that has been entered under OWN or SHARE meanwhile is a race, before
its access (R155, R156); a step that reads a row with failed data is fatal to the context (R288). -/
def stepUnit (s : State) (r : RowCmd) (unit : Nat) (u : RowUnit) (g : Seg) : State :=
  let prog := microprogram r.op r.pattern r.sources.length
  match prog[u.step]? with
  | none => s
  | some m =>
    let lines := (readsRow r unit m).elim [] rowLines
    match lines.findSome? (engineRace s false), lines.find? fun ln => isBad s (ln * 256) with
    | some idx, _ => stopRace s r idx
    | none, some ln => noteBad s r.ctx (ln * 256)
    | none, none =>
      let x := microStep s r unit u m
      endStep x.1 r unit g { x.2 with step := u.step + 1, finished := prog.length ≤ u.step + 1 } m

/-- ROW_STEP (R215, R216): a unit starts once the write-backs of its pre-step are in memory, and then makes one step after
the other. -/
def execRowStep (cmd unit : Nat) (s : State) : Out :=
  .next (match findRow s cmd with
    | none => s
    | some r =>
      match sfind r.units unit, r.dstPa[unit]? with
      | some u, some g =>
        if r.stopped || u.finished then s
        else if !u.started then if writesWait s (r.segs unit) then s else startUnit s r unit u g
        else if r.path != .dram || !mayStep s r unit g then s
        else stepUnit s r unit u g
      | _, _ => s)

/-- The bytes that R210 gives for one unit: op over the sources' bytes. -/
def rowBytes (op : RowOp) (pattern : DWord) (xs : List (List Byte)) : List Byte :=
  (List.range 1024).map fun i =>
    let at_ := xs.map fun l => (l[i]?).getD 0
    let x := at_.headD 0
    match op with
    | .cpy => x
    | .fil => BitVec.ofNat 8 (pattern.toNat >>> (8 * (i % 8)))
    | .not => ~~~x
    | .and => at_.tail.foldl (· &&& ·) x
    | .or => at_.tail.foldl (· ||| ·) x
    | .xor => at_.tail.foldl (· ^^^ ·) x
    | .maj =>
      let y := (at_[1]?).getD 0
      let z := (at_[2]?).getD 0
      (x &&& y) ||| (y &&& z) ||| (x &&& z)

/-- What stops a fallback unit's reads: a stack above its limit (R225), a port that is down (R276) or failed data
(R288). -/
def fallbackStop (s : State) (srcs : List Seg) : Option HomeStop :=
  let pas := srcs.flatMap Seg.bytes
  match pas.find? (isBad s) with
  | some pa => some (.bad pa)
  | none =>
    if pas.any (stackHolds s) then some .held
    else if pas.any (portMiss s) then some (.lost []) else none

/-- The pages of a unit's sources, which Stratus is to map elsewhere (R276). -/
def RowCmd.sourcePages (r : RowCmd) (unit : Nat) : List Nat :=
  distinct (r.sources.flatMap fun a => [pageOf (a + BitVec.ofNat 64 (1024 * unit)), pageOf (a + BitVec.ofNat 64 (1024 * unit + 1023))])

/-- One unit by way of the L2: plain accesses at the home slices, which leave the result dirty there (R214). -/
def fallbackUnit (s : State) (r : RowCmd) (unit : Nat) (g : Seg) : State :=
  let srcs := r.srcPa.filterMap fun l => l[unit]?
  let s := srcs.foldl (fun s g => homeFetchAll (viewSeg s g) false g.bytes) s
  let xs := srcs.map fun g => g.bytes.map (memGet s)
  homeWrite (viewSeg s g) (g.bytes.zip (rowBytes r.op r.pattern xs))

/-- ROW_FALLBACK_UNIT (R214): the units in ascending order, each after its pre-step. -/
def execRowFallbackUnit (cmd : Nat) (s : State) : Out :=
  .next (match findRow s cmd with
    | none => s
    | some r =>
      let unit := r.fallbackNext
      match sfind r.units unit, r.dstPa[unit]? with
      | some u, some g =>
        if r.stopped || r.path != .fallback || !u.started || !ctxOn s r.core r.ctx ||
            (sget 0 s.dbg.engStop r.core).getLsbD 8 then s
        else
          let srcs := r.srcPa.filterMap fun l => l[unit]?
          match readRace s srcs, fallbackStop s srcs with
          | some idx, _ => stopRace s r idx
          | none, some (.bad pa) => noteBad s r.ctx pa
          | none, some (.lost _) => askPages s r.core r.ctx (.row cmd) .read false (r.sourcePages unit)
          | none, some _ => modRow s cmd fun r => { r with bits := r.bits ||| rbThermal }
          | none, none =>
            modRow (fallbackUnit s r unit g) cmd fun r =>
              { r with fallbackNext := unit + 1, units := sput r.units unit { u with finished := true } }
      | _, _ => s)

/-! ### Completion (R227) -/

/-- Nothing of the command is left to do. -/
def RowCmd.done (r : RowCmd) : Bool :=
  r.accepted && (r.stopped || ((List.range r.width).all fun u => ((sfind r.units u).map (·.finished)).getD false))

/-- Waiting ROWSTATs of team u whose commands have all completed are ready; one with the acquire flag
acquires (R227, R399). -/
def readyStats (s : State) (u : Nat) : State :=
  let ready := fun p : Pending => match p.kind with
    | .rowWait _ upto _ => !p.arrived && !s.rowQueue.any fun r => r.uid == u && r.id < upto
    | _ => false
  let far := (s.getTeam u).pending.any fun p => ready p && (match p.acquires with | some sc => sc.far | none => false)
  (acquireAt far s u).modTeam u fun t =>
    { t with pending := t.pending.map fun p => if ready p then { p with arrived := true } else p }

/-- The team's counts after one command (Table 11-5). -/
def Team.rowEnds (b : BitVec 8) (t : Team) : Team :=
  { t with rowOut := t.rowOut - 1, rowDone := min 65535 (t.rowDone + 1), rowBits := t.rowBits ||| b }

/-- The status bits that a command leaves: a fallback that has completed sets its own (R214). -/
def RowCmd.endBits (r : RowCmd) : BitVec 8 :=
  if r.path == .fallback && !r.stopped then r.bits ||| rbFallback else r.bits

/-- The command's completion is a release at its scope (R227, Table 8-1): its writes are at the home slices. -/
def rowRelease (s : State) (r : RowCmd) : State :=
  if r.flags.rel && r.flags.scope.relTo == .host then carryToHost s else s

/-- The command's holds end (R218): rows at their limit are captured (R226), and waiting lanes and copies read the lines of
its destination again (R194, R418, R419). -/
def endHold (s : State) (r : RowCmd) : State :=
  if !r.begun then s
  else
    let lines := distinct (r.dstPa.flatMap Seg.lineList)
    let s := captureRows s (distinct (r.units.flatMap fun u => r.rows u.1))
    (distinct ((s.teams.filter fun e => e.2.waitv.isSome).map fun e => e.2.core)).foldl
      (fun s c => refetch s c lines) (observe s none lines)

/-- ROW_COMMAND_COMPLETE (R227): its holds end, and teams that waited for them go on. -/
def execRowCommandComplete (cmd : Nat) (s : State) : Out :=
  .next (match findRow s cmd with
    | none => s
    | some r =>
      if !r.done then s
      else
        let s := endHold (rowRelease { s with rowQueue := s.rowQueue.filter fun q => q.id != cmd } r) r
        let s := if (sfind s.teams r.uid).isSome then
            readyStats (s.modTeam r.uid (Team.rowEnds r.endBits)) r.uid
          else s
        retryReleases (wakeWhere s fun t => t.wait == .commit) fun _ => true)

/-- ROWSTAT, wait form (R227, R399). -/
def execRowstat (sd : SReg) (acq : Bool) (sc : EScope) (s : State) : Out :=
  issue (.rowstat sd acq sc) s fun s =>
    let t := s.tm
    let p : Pending :=
      { src := t.pc, frame := t.frame, pass := t.pass, span := 0
        kind := .rowWait sd.val s.nextRow (if acq then some sc else none), arrived := false, more := false, port := [], vals := [], svals := [], flags := 0, eas := [], lost := [], dead := none, home := false }
    (readyStats (s.modTm fun t => { t.countSpan with pending := t.countSpan.pending ++ [p] }) s.cur).modTm Team.advance

/-- Wait forms whose commands have completed commit: each clears what it reports (R399). -/
def Team.commitStats (t : Team) : Team := t.commitWhere fun p => p.isRowWait && p.arrived

/-- ROWSTAT, poll form (R227, R399): it reports what earlier wait forms have left; with the acquire flag it acquires when
nothing is outstanding, after an earlier observation that acquires (R184 note 6). -/
def execRowstatPoll (sd : SReg) (acq : Bool) (sc : EScope) (s : State) : Out :=
  issue (.rowstatPoll sd acq sc) s fun s =>
    if acq && s.tm.awaitsRows then s.stall .hold
    else
      let s := s.modTm Team.commitStats
      let s := acquireAt (acq && sc.far && s.tm.rowOut == 0) s s.cur
      s.modTm fun t =>
        (t.countSpan.pendS .status 0 sd.val (rowStatus t.rowOut t.rowDone t.rowBits) []).advance

/-! ### Banks (R220, R222, R226) -/

/-- The accesses that one activation of a bank serves (R220): those to the row of the oldest urgent read, or, without one,
of the oldest access. In a window the urgent reads of that row alone share it. -/
def servedBy (window : Bool) (l : List BankAcc) : Option (Nat × List BankAcc) :=
  match l.find? fun a => a.urgent with
  | some a => some (a.row, l.filter fun x => x.row == a.row && (x.urgent || !window))
  | none =>
    match l with
    | [] => none
    | a :: _ => some (a.row, l.filter fun x => x.row == a.row)

/-- A microprogram runs at the bank; that of a context which is switched out does not (R223). -/
def microAt (s : State) (bank : Nat) : Bool :=
  s.rowQueue.any fun r => r.path == .dram && !r.stopped && ctxOn s r.core r.ctx && r.units.any fun u =>
    u.2.started && !u.2.finished && ((r.dstPa[u.1]?).map fun g => bankOf g.pa == bank).getD false

/-- Served accesses leave a list, each once. -/
def unserved (l served : List BankAcc) : List BankAcc := served.foldl List.erase l

/-- The accesses from which the next activation of a bank takes its own: those of the open window where a microprogram
runs, else all that are pending; accesses to an operand row at its limit wait (R226). -/
def bankWork (s : State) (bank : Nat) : List BankAcc :=
  if microAt s bank then windowLeft s bank else (getBank s bank).pendingAcc.filter fun a => !rowWaits s a.row

/-- BANK_ACTIVATION (R220). Owed refreshes come before it, unless it serves an urgent read and fewer than eight are owed
(R222). A captured row is served without an activation (R226), also in a stack that is stopped (R225). -/
def execBankActivation (bank : Nat) (s : State) : Out :=
  let b := getBank s bank
  .next (match servedBy (microAt s bank) (bankWork s bank) with
    | none => s
    | some (row, served) =>
      let captured := s.captured.contains row
      if s.stackStopped.getLsbD (bank / 16 / 256 % 8) && !captured then s
      else
        let s := setBank s bank
          { pendingAcc := unserved b.pendingAcc served, window := unserved b.window served
            refreshOwed := if served.any (·.urgent) && b.refreshOwed < 8 then b.refreshOwed else 0 }
        if captured then s else countActivation s row)

/-- BANK_REFRESH (R222): a refresh falls due. Where a microprogram runs it is owed to the next window, except in a stopped
stack (R225). Elsewhere it is taken, with every refresh owed, or postponed, at most eight times, while urgent reads
wait. -/
def execBankRefresh (bank : Nat) (s : State) : Out :=
  let b := getBank s bank
  let postponed :=
    if microAt s bank then !s.stackStopped.getLsbD (bank / 16 / 256 % 8)
    else (b.pendingAcc.any fun a => a.urgent) && Config.pick s.free
  .next (setBank s bank { b with refreshOwed := if postponed && b.refreshOwed < 8 then b.refreshOwed + 1 else 0 })

/-- CAPTURE_WINDOW_END (R226): captured lines are written back, and the counts start again. -/
def execCaptureWindowEnd (s : State) : Out :=
  .next ((s.captured.flatMap rowLines).foldl writeSectors { s with captured := [], rowActs := [] })

end Sys2Proof.Machine
end

