-- ==== Sys2Proof/Machine/Engine.lean ====
section
/-! DEFINITION. Accesses of copy channels and matrix streams at the home slices (R155, R197, R201, R203,
R218, R292, R297). -/

namespace Sys2Proof.Machine

/-- How the check of an engine's access ends. -/
inductive EngAcc where
  | ok (pas : List Nat)
  | fabric (target off : Nat)
  | wait (pages : List Nat) (migrating : Bool)
  | held
  | fatal
  | race (idx : Nat)
  | bad (pa : Nat)
  deriving DecidableEq, Repr

/-- Check an access of n bytes by an engine of a core, which reads the bytes, writes them or both. -/
def engineCheck (s : State) (core : Nat) (tlbs : List TlbId) (ctx : Nat) (va : DWord) (n : Nat) (reads writes : Bool) :
    EngAcc × State :=
  if !canonical va || inAperture va n then (.fatal, s)
  else if inFabric va then (.fabric (field va.toNat 36 12) (field va.toNat 0 36), s)
  else
    match translateBytes s core tlbs ctx va n (if writes then .write else .read) with
    | (.fatal, s) => (.fatal, s)
    | (.bad pa, s) => (.bad pa, s)
    | (.held, s) => (.held, s)
    | (.fault ps, s) => (.wait ps false, s)
    | (.migrating ps, s) => (.wait ps true, s)
    | (.ok pas, s) =>
      match pas.findSome? fun pa => engineRace s writes (lineOf pa) with
      | some idx => (.race idx, s)
      | none =>
        match homeStop s core reads writes pas with
        | some .noRoute => (.fatal, s)
        | some (.bad pa) => (.bad pa, s)
        | some .held => (.held, s)
        | some (.lost at_) => (.wait (pagesAt va at_) false, s)
        | none => (.ok pas, if reads then homeFetchAll s false pas else s)

/-! ### Walking ahead (R203) -/

/-- How many pages the tile translation engine runs ahead of the walk (R203). -/
def aheadPages : Nat := 64

/-- The pages of some accesses in walk order, at most 64 of them, each with the access that meets it first. -/
def pagesAhead (l : List (DWord × ReqKind)) : List (DWord × ReqKind) :=
  (l.foldl (init := []) fun acc x => if acc.any fun y => pageOf y.1 == pageOf x.1 then acc else acc ++ [x]).take aheadPages

/-- Translate the first page that the walk-ahead TLB of a core lacks. A fault is not taken yet. -/
def translateAhead (s : State) (core ctx : Nat) (l : List (DWord × ReqKind)) : State :=
  match (pagesAhead l).find? fun x => !s.tlbs.any fun t => t.core == core && t.tlb == .ahead && t.ctx == ctx && t.covers x.1 with
  | none => s
  | some x => if inFabric x.1 || inAperture x.1 1 then s else (translate s core [.ahead] ctx x.1 x.2).2

/-- A closure configuration that QAPPLY accepts (R262, R392). -/
def cfgOk (cfg : DWord) : Bool :=
  let nreg := field cfg.toNat 14 7
  let lanes := field cfg.toNat 4 10 + 1
  field cfg.toNat 54 10 == 0 && nreg % 6 == 0 && 6 ≤ nreg && nreg ≤ 102 && field cfg.toNat 29 25 ≤ 16777216 &&
    (lanes + 31) / 32 * nreg ≤ 3072

/-- QAPPLY entries that a ready queue may hold (R262). -/
def queueCap : Nat := 4096

end Sys2Proof.Machine
end

