-- ==== Sys2Proof/Machine/Store.lean ====
section
/-! DEFINITION. Global stores: ST, ST.rel and STU (R406 to R408, R410), and the aperture stores among
them (R192, R407). -/

namespace Sys2Proof.Machine

/-- The low n bytes of a store's data (R89, R406): a scalar, or the registers from t on. -/
def Team.storeData (t : Team) (r : Reg) (n l : Nat) : List Byte :=
  let t := t.sources
  match r with
  | .s k => toBytes n (t.sread k.val).toNat
  | .v k => (List.range (max 1 (n / 4))).flatMap fun i => toBytes (min n 4) (t.lane (k.val + i) l).toNat

/-- Perform a lane's store to bytes that have passed their checks. Bytes of a line that the team holds
entered go to the store copy (R151). -/
def performStore (s : State) (t : Team) (how : Site) (pas : List Nat) (bs : List Byte) : State :=
  let s := recordWrites s t pas
  let cells := pas.zip bs
  match how with
  | .plain => coreWrite s t.core cells
  | _ =>
    let near := cells.filter fun c => (enteredOn s (lineOf c.1)).any (heldBy t)
    let far := cells.filter fun c => !(enteredOn s (lineOf c.1)).any (heldBy t)
    throughWrite (coreWrite s t.core near) t.core far

/-- The core and channel of an aperture slot (R192). -/
def apertureSlot (ea : DWord) : Nat × Nat := (field ea.toNat 5 9, field ea.toNat 3 2)

/-- A lane of an aperture store: a slot of a disabled core, or another offset, takes the aperture fault
(R192), one of a core that no route reaches the fatal memory fault (R292); a full channel on which the team holds a
deferred store stops the lane (R196, R407), and so does a release that has to wait. -/
def apertureLane (t : Team) (ea : DWord) (data : Word) (s : State) : Except (List LaneFault) Unit × State :=
  let a := apertureSlot ea
  if ea.toNat % 8 != 0 || !s.units.cores.getLsbD a.1 then (.error [.code 0x08], s)
  else if !coresReach s t.core a.1 then (.error [.code 0x12], s)
  else if apertureHeld s t.uid data then (.error [.order false], s)
  else
    match apertureStore s t.uid a.1 a.2 data with
    | some s => (.ok (), s)
    | none => (.error [.channel (chanKey t.ctx a.1 a.2)], s)

/-- One lane of a store of n bytes (R406). slots says that the word makes aperture stores, fab that it is
admitted in the fabric window. -/
def storeLane (t : Team) (r : Reg) (how : Site) (slots fab : Bool) (n : Nat) (ea : DWord) (s : State)
    (l : Nat) : Except (List LaneFault) Unit × State :=
  let bs := t.storeData r n l
  match globalCheck s t ea n .store how with
  | (.fail fs, s) => (.error fs, s)
  | (.aperture, s) =>
    if slots then apertureLane t ea (BitVec.ofNat 32 (ofBytes bs)) s else (.error [.code 0x08], s)
  | (.fabric target off, s) =>
    if fab then
      match fabricLane s t l target off (.store bs) with
      | (.ok _, s) => (.ok (), s)
      | (.error fs, s) => (.error fs, s)
    else (.error [.code 0x12], s)
  | (.ok pas, s) => (.ok (), performStore s t how pas bs)

/-- A store word of n bytes (R406). -/
def storeWord (i : Instr) (r : Reg) (m : MemOp) (n : Nat) (how : Site) (slots fab aligned : Bool)
    (before : State → Option State) (s : State) : Out :=
  issue i s fun s =>
    match before s with
    | none => s.stall .mirror
    | some s =>
      let t := s.tm
      let x := eachLane (t.memLanes r) (fun s l =>
        let ea := memAddr t m l
        if aligned && ea.toNat % n != 0 then (.error [.code 0x07], s)
        else storeLane t r how slots fab n ea s l) s
      endMem x.1 r.isScalar true x.2.2

def execStB (t : Reg) (m : MemOp) (look : Fin 16) (s : State) : Out :=
  storeWord (.stB t m look) t m 1 .plain false true false some s
def execStH (t : Reg) (m : MemOp) (look : Fin 16) (s : State) : Out :=
  storeWord (.stH t m look) t m 2 .plain false true false some s
def execStW (t : Reg) (m : MemOp) (look : Fin 16) (s : State) : Out :=
  storeWord (.stW t m look) t m 4 .plain true true false some s
def execStD (t : Reg) (m : MemOp) (look : Fin 16) (s : State) : Out :=
  storeWord (.stD t m look) t m 8 .plain true true false some s
def execStQ (t : VReg) (m : MemOp) (look : Fin 16) (s : State) : Out :=
  storeWord (.stQ t m look) (.v t) m 16 .plain false true false some s

/-- STU (R410): in the fabric window it is performed at the target, as ST is (log entry 112). -/
def execStu (t : Reg) (m : MemOp) (look : Fin 16) (s : State) : Out :=
  storeWord (.stu t m look) t m 4 .home false true false some s

/-- ST.rel (R408): aligned; at cohort scope and above performed at the home slice after the release. -/
def execStRel (t : Reg) (m : MemOp) (sc : Scope) (d : Bool) (s : State) : Out :=
  storeWord (.stRel t m sc d) t m (if d then 8 else 4) (if sc.far then .far else .plain) false true true
    (releaseFirst sc.relTo (sc == .coh)) s

end Sys2Proof.Machine
end

