-- ==== Sys2Proof/Machine/Closures.lean ====
section
/-! DEFINITION. The closure and task words, opcodes 0x80 to 0x8B: CAPT, APPLY, the k-register words, TARM, TSIG,
QAPPLY and LAUNCH (R233, R241 to R263, R329, R347, R361 to R364, R392, R411). -/

namespace Sys2Proof.Machine

/-! ### Environments (R242, R243) -/

/-- The environments of a core's store, with their first slots. -/
def coreEnvs (s : State) (core : Nat) : List (Nat × Env) :=
  (s.envs.filter fun e => e.1 / 4096 == core).map fun e => (e.1 % 4096, e.2)

/-- Slots a to a + n - 1 are free. -/
def runFree (es : List (Nat × Env)) (n a : Nat) : Bool :=
  a + n ≤ 4096 && es.all fun e => decide (e.1 + e.2.slots ≤ a) || decide (a + n ≤ e.1)

/-- The lowest free run of n slots (R242): it starts at slot 0 or where an environment ends. -/
def lowestRun (es : List (Nat × Env)) (n : Nat) : Option Nat :=
  (sortNat (0 :: es.map fun e => e.1 + e.2.slots)).find? (runFree es n)

/-- Free slots of a core's store. -/
def freeSlots (s : State) (core : Nat) : Nat :=
  4096 - (coreEnvs s core).foldl (fun n e => n + e.2.slots) 0

/-- Slots that w captured words take (R243). -/
def slotsFor (w : Nat) : Nat := max 1 ((w + 11) / 12)

/-- MakeEnv (R246): the handle of a new environment, 0 when no run of slots is free. -/
def makeEnv (s : State) (t : Team) (entry : DWord) (ref : Bool) (vcount vbase : Nat) (smask : BitVec 16)
    (words : List Word) : DWord × State :=
  let n := slotsFor words.length
  match lowestRun (coreEnvs s t.core) n with
  | none => (0, s)
  | some a =>
    let k := envKey t.core a
    (mkHandle (slotGen s k) t.core a t.ctx,
      { s with envs := sput s.envs k ⟨.live, n, entry, t.ctx, 1, ref, vcount, vbase, smask, words⟩ })

/-! ### CAPT (R245, R246, R347) -/

def mapVcount (m : DWord) : Nat := field m.toNat 23 3
def mapVbase (m : DWord) : Nat := field m.toNat 16 7
def mapHd (m : DWord) : Nat := field m.toNat 26 7
def mapSmask (m : DWord) : BitVec 16 := BitVec.ofNat 16 m.toNat

/-- The trap of CAPT's checks (R246). -/
def captTrap (t : Team) (map entry : DWord) (ref lane : Bool) : Option Nat :=
  let room := t.nreg - t.frame
  if field map.toNat 33 31 != 0 || mapVcount map > 4 || (ref && lane) ||
      (!ref && !lane && mapVcount map != 0) || !canonical entry || entry.toNat % 4 != 0 then some 1
  else if mapVcount map != 0 && mapVbase map + mapVcount map > room then some 2
  else if lane && (mapHd map % 2 != 0 || mapHd map + 2 > room) then some 2
  else none

/-- Captured scalars, each as two words (R243). -/
def scalarWords (t : Team) (smask : BitVec 16) : List Word :=
  (maskRegs smask).flatMap fun i => [lo32 (t.sread i), hi32 (t.sread i)]

/-- By-reference captures: tag and register, then the call depth (R243). -/
def refWords (t : Team) (vbase vcount : Nat) : List Word :=
  (List.range vcount).flatMap fun k =>
    [halves (t.frame + vbase + k) t.tag, BitVec.ofNat 32 (t.callDepth % 2 ^ 16)]

/-- CAPT and CAPT.ref: one environment for the team; the register takes its handle and drops the old one. -/
def captTeam (i : Instr) (kd : KReg) (se sm : SReg) (ref : Bool) (s : State) : Out :=
  issue i s fun s =>
    let map := s.tm.sread sm.val
    let smask := mapSmask map
    match captTrap s.tm map (s.tm.sread se.val) ref false with
    | some c => trapWord s c i
    | none =>
      touching [] (maskRegs smask) s fun s =>
        let t := s.tm
        let r := makeEnv s t (t.sread se.val) ref (mapVcount map) (mapVbase map) smask
          (scalarWords t smask ++ refWords t (mapVbase map) (mapVcount map))
        let old := t.kread kd.val
        (dropRef (r.2.modTm fun t => t.kwrite kd.val r.1) old).modTm Team.finish

def execCapt (kd : KReg) (se sm : SReg) (s : State) : Out := captTeam (.capt kd se sm) kd se sm false s
def execCaptRef (kd : KReg) (se sm : SReg) (s : State) : Out := captTeam (.captRef kd se sm) kd se sm true s

/-- CAPT.lane for some lanes, ascending. Every lane needs as many slots as the others, so that after the first null handle
every later lane receives one (R347). -/
def captLanes (entry map : DWord) : List Nat → State → State
  | [], s => s
  | l :: ls, s =>
    let t := s.tm
    let words := scalarWords t (mapSmask map) ++
      (List.range (mapVcount map)).map fun k => t.lane (mapVbase map + k) l
    let r := makeEnv s t entry false (mapVcount map) (mapVbase map) (mapSmask map) words
    captLanes entry map ls (r.2.modTm fun t => t.setLane64 (mapHd map) l r.1)

/-- CAPT.lane (R246): each active lane's environment, its handle in the pair hd. -/
def execCaptLane (se sm : SReg) (s : State) : Out :=
  issue (.captLane se sm) s fun s =>
    let map := s.tm.sread sm.val
    match captTrap s.tm map (s.tm.sread se.val) false true with
    | some c => trapWord s c (.captLane se sm)
    | none =>
      let t := s.tm
      let vr := [t.frame + mapHd map, t.frame + mapHd map + 1] ++
        (List.range (mapVcount map)).map fun k => t.frame + mapVbase map + k
      touching vr (maskRegs (mapSmask map)) s fun s =>
        (captLanes (s.tm.sread se.val) map (lanesOf s.tm.active) s).modTm Team.finish

/-! ### APPLY (R247, R248, R329) -/

/-- The words of the clause after the current one, and its class (R67). -/
def Team.wordsLeft (t : Team) : Nat × Nat :=
  match t.clause with
  | some c => if c.idx + 1 < c.words.length then (c.words.length - c.idx - 1, c.cls) else (0, 0)
  | none => (0, 0)

/-- APPLY kd: the team runs the closure once, and comes back to the next word. -/
def execApply (kd : KReg) (s : State) : Out :=
  issue (.apply kd) s fun s =>
    let h := s.tm.kread kd.val
    let x := applyTouches s h
    touching x.1 x.2 s fun s =>
      let t := s.tm.countSpan
      let left := t.wordsLeft
      match applyHandle s t h (t.pc + 4) left.1 left.2 with
      | .ok t => s.setTm t
      | .error c => trapWord s c (.apply kd)

/-- The groups of active lanes with equal handles, in order of their lowest lanes. -/
def groupsOf (t : Team) (vh : Nat) : List (DWord × Mask) :=
  let hs := (lanesOf t.active).map fun l => (t.lane64 vh l, l)
  let keys := hs.foldl (fun ks e => if ks.contains e.1 then ks else ks ++ [e.1]) ([] : List DWord)
  keys.map fun h => (h, maskOf ((hs.filter fun e => e.1 == h).map (·.2)))

/-- The trap of APPLY.lane's check of every active lane's handle, lowest lane first (R248). -/
def groupsTrap (t : Team) (gs : List (DWord × Mask)) : Option Nat :=
  gs.findSome? fun g => if g.1 == 0 then some 0x0B else if hCtx g.1 != t.ctx then some 0x0E else none

/-- APPLY.lane vh: a running group makes it illegal; a replay goes on with the groups that are left; otherwise
the groups are formed and the first one starts. -/
def execApplyLane (vh : Fin 128) (s : State) : Out :=
  issue (.applyLane vh) s fun s =>
    match s.tm.apply with
    | some a => if a.running then trapWord s 1 (.applyLane vh) else nextGroup s a a.todo
    | none =>
      let gs := groupsOf s.tm vh.val
      match groupsTrap s.tm gs, s.tm.clause with
      | some c, _ => trapWord s c (.applyLane vh)
      | none, none => s.modTm Team.finish
      | none, some c =>
        let s := s.modTm Team.countSpan
        nextGroup s ⟨c, 0, s.tm.maskStack.length, s.tm.active, 0, 0, gs, false⟩ gs

/-! ### The k-register words (R250, R251, R361 to R363) -/

/-- kd takes a handle that is 0 or passes the checks, with one more reference, and drops the old one. -/
def takeHandle (s : State) (i : Instr) (kd : KReg) (h : DWord) : State :=
  let old := s.tm.kread kd.val
  if h == 0 then (dropRef (s.modTm fun t => t.kwrite kd.val 0) old).modTm Team.finish
  else
    match checkHandle s s.tm.ctx h with
    | .error c => trapWord s c i
    | .ok e =>
      if 65535 ≤ e.count then trapWord s 0x0D i
      else (dropRef ((addRef s h e).modTm fun t => t.kwrite kd.val h) old).modTm Team.finish

/-- KDUP. -/
def execKdup (kd ks : KReg) (s : State) : Out :=
  issue (.kdup kd ks) s fun s => takeHandle s (.kdup kd ks) kd (s.tm.kread ks.val)

/-- KDROP: a handle that does not match is cleared without effect. -/
def execKdrop (kd : KReg) (s : State) : Out :=
  issue (.kdrop kd) s fun s =>
    let h := s.tm.kread kd.val
    let s := if hCtx h == s.tm.ctx then dropRef s h else s
    s.modTm fun t => (t.kwrite kd.val 0).finish

/-- The check of KLD's and KST's one access of 8 aligned bytes (R362). -/
def kAccess (s : State) (ea : DWord) (acc : Acc) : Except (List LaneFault) (List Nat) × State :=
  if ea.toNat % 8 != 0 then (.error [.code 0x07], s)
  else
    match globalCheck s s.tm ea 8 acc (if acc == .store then .home else .plain) with
    | (.fail fs, s) => (.error fs, s)
    | (.aperture, s) => (.error [.code 0x08], s)
    | (.fabric _ _, s) => (.error [.code 0x12], s)
    | (.ok pas, s) => (.ok pas, s)

/-- KLD. -/
def execKld (kd : KReg) (se : SReg) (s : State) : Out :=
  issue (.kld kd se) s fun s =>
    match kAccess s (s.tm.sources.sread se.val) .load with
    | (.error fs, s) => endMem s true false (fs.map fun f => (0, f))
    | (.ok pas, s) =>
      let r := coreRead s s.tm.core pas
      takeHandle r.2 (.kld kd se) kd (BitVec.ofNat 64 (ofBytes r.1))

/-- KST: the handle is written at the home slice (R375), and the count is unchanged. -/
def execKst (kd : KReg) (se : SReg) (s : State) : Out :=
  issue (.kst kd se) s fun s =>
    match kAccess s (s.tm.sources.sread se.val) .store with
    | (.error fs, s) => endMem s true false (fs.map fun f => (0, f))
    | (.ok pas, s) =>
      endMem (performStore s s.tm .home pas (toBytes 8 (s.tm.kread kd.val).toNat)) true true []

/-- The word of Table 13-6. -/
def kqryWord (s : State) (t : Team) (h : DWord) : DWord :=
  let free := freeSlots s t.core * 2 ^ 35
  if h == 0 then BitVec.ofNat 64 (2 * 2 ^ 48 + free)
  else
    match checkHandle s t.ctx h with
    | .error _ => BitVec.ofNat 64 (2 ^ 48 + free)
    | .ok e =>
      BitVec.ofNat 64 (free + (e.slots - 1) * 2 ^ 18 + (if e.ref then 2 ^ 17 else 0) +
        (if hCore h == t.core then 0 else 2 ^ 16) + e.count)

/-- KQRY. -/
def execKqry (kd : KReg) (se : SReg) (s : State) : Out :=
  issue (.kqry kd se) s fun s =>
    s.modTm fun t => (t.swrite se.val (kqryWord s t (t.kread kd.val))).finish

/-! ### TARM and TSIG (R256, R257, R411) -/

/-- The status is written and the word is complete. -/
def endStatus (s : State) (st : SReg) (v : Nat) : State :=
  s.modTm fun t => (t.swrite st.val (BitVec.ofNat 64 v)).finish

/-- The address of a control block, checked for a write and not for races (R411). -/
def tcbAccess (s : State) (ea : DWord) : Except LaneFault Nat × State :=
  let t := s.tm
  if !canonical ea then (.error (.code 0x12), s)
  else if inAperture ea 128 then (.error (.code 0x08), s)
  else if inFabric ea then (.error (.code 0x12), s)
  else
    match onePage s t.core (teamTlbs t) t.ctx ea 128 .write with
    | (.fatal, s) => (.error (.code 0x12), s)
    | (.fault ps, s) => (.error ((pageFaults t ps fun p => .page p .write).headD .fabric), s)
    | (.migrating ps, s) => (.error ((pageFaults t ps .migrating).headD .fabric), s)
    | (.bad pa, s) => (.error (.bad pa), s)
    | (.held, s) => (.error .held, s)
    | (.ok pas, s) =>
      match homeStop s t.core true true [pas.headD 0] with
      | some x => (.error ((homeFaults t ea .write x).headD .fabric), s)
      | none => (.ok (pas.headD 0), homeFetchAll s false [pas.headD 0])

/-- TARM's change at the home slice: the status, with the handle's environment checked (R256). -/
def armTcb (s : State) (ctx : Nat) (a : DWord) (pa : Nat) (h : DWord) (e : Env) (count : Nat) : Nat × State :=
  let st := tcbState s pa
  if !tcbOk s pa then (2, s)
  else if 1 ≤ st && st ≤ 4 then (1, s)
  else if 65535 ≤ e.count then (3, s)
  else
    let s := addRef s h e
    let s := putNum s pa 8 h.toNat
    let s := putNum s (pa + 40) 8 0
    let s := putNum s (pa + 8) 4 count
    let s := setTcbState s pa 1
    (0, if count == 0 then makeReady s ctx a pa else s)

/-- TARM (R256): a device-scope release, then the change at the home slice. -/
def execTarm (sa sb : SReg) (k : KReg) (st : SReg) (s : State) : Out :=
  issue (.tarm sa sb k st) s fun s =>
    match releaseFirst .home false s with
    | none => s.stall .mirror
    | some s =>
      let t := s.tm.sources
      let a := t.sread sa.val
      let h := t.kread k.val
      if a.toNat % 128 != 0 then endStatus s st 2
      else
        match checkHandle s t.ctx h with
        | .error _ => endStatus s st 2
        | .ok e =>
          match tcbAccess s a with
          | (.error f, s) => endMem s true false [(0, f)]
          | (.ok pa, s) =>
            let r := armTcb s t.ctx a pa h e ((t.sread sb.val).toNat % 2 ^ 32)
            endStatus r.2 st r.1

/-- TSIG (R257). -/
def execTsig (sa st : SReg) (s : State) : Out :=
  issue (.tsig sa st) s fun s =>
    match releaseFirst .home false s with
    | none => s.stall .mirror
    | some s =>
      let a := s.tm.sources.sread sa.val
      if a.toNat % 128 != 0 then endStatus s st 2
      else
        match tcbAccess s a with
        | (.error f, s) => endMem s true false [(0, f)]
        | (.ok pa, s) =>
          let r := signalTcb s s.tm.ctx a pa
          endStatus r.2 st r.1

/-! ### QAPPLY (R262, R392) -/

/-- Post handles in order until one fails: the status. ref says that each entry takes a new reference. -/
def postHandles (ctx : Nat) (cfg : DWord) (ref : Bool) : List DWord → State → Nat × State
  | [], s => (0, s)
  | h :: hs, s =>
    let q := field cfg.toNat 0 4
    match checkHandle s ctx h with
    | .error _ => (2, s)
    | .ok e =>
      if queueCap ≤ postedCount (getReady s ctx q) then (1, s)
      else if ref && 65535 ≤ e.count then (3, s)
      else postHandles ctx cfg ref hs (postClosure (if ref then addRef s h e else s) ctx q h cfg)

/-- A device-scope release, the check of the configuration, and the postings. -/
def qapplyWord (i : Instr) (sa st : SReg) (ref : Bool) (handles : Team → List DWord) (s : State) : Out :=
  issue i s fun s =>
    match releaseFirst .home false s with
    | none => s.stall .mirror
    | some s =>
      let cfg := s.tm.sread sa.val
      if !cfgOk cfg then endStatus s st 2
      else
        let r := postHandles s.tm.ctx cfg ref (handles s.tm) s
        endStatus r.2 st r.1

def execQapply (sa : SReg) (k : KReg) (st : SReg) (s : State) : Out :=
  qapplyWord (.qapply sa k st) sa st true (fun t => [t.kread k.val]) s
def execQapplyLane (sa : SReg) (vh : Fin 128) (st : SReg) (s : State) : Out :=
  qapplyWord (.qapplyLane sa vh st) sa st false (fun t => (lanesOf t.active).map (t.lane64 vh.val)) s

/-! ### LAUNCH (R232, R233, R364) -/

def LaunchQueue.blank : LaunchQueue := ⟨[], 0, 0⟩
def getQueue (s : State) (ctx q : Nat) : LaunchQueue := (sfind (getCtx s ctx).queues q).getD .blank
def setQueue (s : State) (ctx q : Nat) (x : LaunchQueue) : State :=
  setCtx s ctx { getCtx s ctx with queues := sput (getCtx s ctx).queues q x }

/-- Launches a queue holds (R232). -/
def queueDepth : Nat := 256

/-- Append a block to a queue: it takes the next sequence number (R234). -/
def appendLaunch (s : State) (ctx q : Nat) (block : DWord) : State :=
  let x := getQueue s ctx q
  setQueue s ctx q { x with entries := x.entries ++ [⟨block, x.nextSeq + 1, false⟩], nextSeq := x.nextSeq + 1 }

/-- LAUNCH (R233): status 0 is a device-scope release (R234). -/
def execLaunch (sa sb st : SReg) (s : State) : Out :=
  issue (.launch sa sb st) s fun s =>
    let t := s.tm
    let a := t.sread sa.val
    let q := (t.sread sb.val).toNat
    if a.toNat % 256 != 0 || q > 63 then endStatus s st 2
    else if queueDepth ≤ (getQueue s t.ctx q).entries.length then endStatus s st 1
    else
      match releaseFirst .home false s with
      | none => s.stall .mirror
      | some s => endStatus (appendLaunch s t.ctx q a) st 0

end Sys2Proof.Machine
end

