-- ==== Sys2Proof/Machine/Cohorts.lean ====
section
/-! DEFINITION. Cohorts and barriers (R71 to R76, R335, R349, R360, R374), and the delivery of mirrored stores
(R294, R295). -/

namespace Sys2Proof.Machine

/-! ### JOIN, LEAVE and COHQ -/

/-- Live cohorts that a die pair's table holds (R71). -/
def cohortCap : Nat := 512

/-- The status of Table 4-5 for a JOIN by team t, in the order of R71. -/
def joinStatus (s : State) (t : Team) (id w : Nat) : Nat :=
  if t.cohort.isSome then 5
  else
    let c := getCohort s (cohKey t.ctx id)
    if id == 0xFFFF || (match c with | some c => c.window != w | none => false) then 4
    else
      match c with
      | some c =>
        if c.dp != t.core / 128 then 3 else if 64 ≤ c.members.length then 2 else 0
      | none =>
        if cohortCap ≤ (s.cohorts.filter fun c => c.2.dp == t.core / 128).length then 6 else 1

/-- Team u becomes a member (R72, R74): its index, its zero window, and arr one past the open phase, or the open
phase for the cohort's creator. -/
def addMember (s : State) (u ck : Nat) (creator : Bool) : State :=
  match getCohort s ck with
  | none => s
  | some c =>
    let i := lowestFree 64 (c.members.map (·.1))
    let arr := (List.range 16).foldl (init := ([] : Sparse (BitVec 16))) fun m b =>
      sset 0 m b ((c.bar b).ph + (if creator then 0 else 1))
    (setCohort s ck { c with members := c.members ++ [(i, u)] }).modTeam u fun t => { t with
      cohort := some ck, memberIdx := i, window := [], windowSize := 1024 * c.window, arr := arr }

/-- A new cohort whose phase 0 expects its creator (R74, R75). -/
def newCohort (t : Team) (id w : Nat) : Cohort where
  ctx := t.ctx
  id := id
  dp := t.core / 128
  window := w
  members := []
  bars := (List.range 16).map fun b => (b, { Barrier.blank with expected := [t.uid] })
  tornPending := []

/-- The cohort of a key has no members: the stamps of its streams are to be written before its id is free (R73). -/
def dissolving (s : State) (ck : Nat) : Bool := (getCohort s ck).any fun c => c.members.isEmpty

/-- JOIN (R360). DESIGN CHOICE: one of an id whose cohort is being dissolved waits until the id is free (log entry 111). -/
def execJoin (sa : SReg) (w : Fin 65) (st : SReg) (s : State) : Out :=
  issue (.join sa w st) s fun s =>
    let t := s.tm
    let id := (t.sread sa.val).toNat % 65536
    let ck := cohKey t.ctx id
    if t.cohort.isNone && dissolving s ck then s.stall .hold
    else
      let code := joinStatus s t id w.val
      let s := if code == 1 then addMember (setCohort s ck (newCohort t id w.val)) t.uid ck true
        else if code == 0 then addMember s t.uid ck false
        else s
      endStatus s st code

/-- The word of Table 20-4. -/
def cohqWord (s : State) (t : Team) (b : Nat) : DWord :=
  match t.cohort with
  | none => 0xFFFF
  | some ck =>
    match getCohort s ck with
    | none => 0xFFFF
    | some c =>
      let x := c.bar b
      BitVec.ofNat 64 (x.ph.toNat * 2 ^ 48 + (sget 0 t.arr b).toNat * 2 ^ 32 + (if x.torn then 2 ^ 31 else 0) +
        (if x.streamErr then 2 ^ 30 else 0) + 2 ^ 29 + c.members.length * 2 ^ 22 + t.memberIdx * 2 ^ 16 + c.id)

/-- COHQ (R349). -/
def execCohq (sd : SReg) (b : BReg) (s : State) : Out :=
  issue (.cohq sd b) s fun s =>
    s.modTm fun t => (t.swrite sd.val (cohqWord s t b.val)).finish

/-! ### Barriers (R335) -/

/-- A barrier word: outside a cohort it is illegal; otherwise the team takes up its wait, which ends at once
where nothing stands in its way. -/
def barWord (i : Instr) (s : State) (f : State → State) : Out :=
  issue i s fun s => if s.tm.cohort.isNone then trapWord s 1 i else retryArrival (f s) s.cur

/-- BARV: an arrival, then a wait. -/
def execBarv (b : BReg) (s : State) : Out := barWord (.barv b) s fun s => s.stall (.barArrive b.val true)

/-- BARA: an arrival. -/
def execBara (b : BReg) (s : State) : Out := barWord (.bara b) s fun s => s.stall (.barArrive b.val false)

/-- BARW: a wait. -/
def execBarw (b : BReg) (s : State) : Out := barWord (.barw b) s fun s => s.park (.barWait b.val)

/-! ### Mirrored stores on their way (R173, R294, R295) -/

/-- An earlier packet of the same sender is on its way to one of the same members, wherever they are now (R173). -/
def mirrorBehind (l : List MirrorPkt) (k : Nat) : Bool :=
  match l[k]? with
  | none => true
  | some m => (l.take k).any fun x => x.sender == m.sender && x.targets.any m.targets.contains

/-- The k-th packet has been acknowledged or has failed: the sender's releases may go on. -/
def mirrorOff (s : State) (k sender : Nat) : State :=
  retryTeam { s with mirrors := dropNth s.mirrors k } sender

/-- MIRRORED_STORE_DELIVERY (R294): the store is written into every member window on the core. -/
def execMirroredStoreDelivery (k : Nat) (s : State) : Out :=
  .next (match s.mirrors[k]? with
    | none => s
    | some m =>
      if mirrorBehind s.mirrors k then s
      else
        let s := m.targets.foldl (fun s u =>
          if (s.getTeam u).cohort == some m.cohort then s.modTeam u fun t => t.windowPut m.off m.data else s) s
        mirrorOff s k m.sender)

/-- The delivery fails: the sender's next barrier completes torn (R295). -/
def mirrorFails (s : State) (k : Nat) : State :=
  match s.mirrors[k]? with
  | none => s
  | some m =>
    let s := match getCohort s m.cohort with
      | some c =>
        if (c.members.any fun x => x.2 == m.sender) && !c.tornPending.contains m.sender then
          setCohort s m.cohort { c with tornPending := c.tornPending ++ [m.sender] }
        else s
      | none => s
    mirrorOff s k m.sender

/-- MIRRORED_DELIVERY_NACK (R295). -/
def execMirroredDeliveryNack (k : Nat) (s : State) : Out := .next (mirrorFails s k)

/-- MIRRORED_DELIVERY_TIMEOUT (R295). -/
def execMirroredDeliveryTimeout (k : Nat) (s : State) : Out := .next (mirrorFails s k)

end Sys2Proof.Machine
end

