-- ==== Sys2Proof/Machine/Copy.lean ====
section
/-! DEFINITION. Copies (R189 to R203, R420, R422): XFER and XPTR, the head of a channel, its condition, its
units, its completion, and deferred stores. -/

namespace Sys2Proof.Machine

/-! ### Templates (Table 10-3) -/

def tField (t : BitVec 1024) (lo n : Nat) : Nat := field t.toNat lo n

/-- Counter c: count, source step and destination step. -/
def tCount (t : BitVec 1024) (c : Nat) : Nat := tField t (384 + 96 * c) 32 + 1
def tSrcStep (t : BitVec 1024) (c : Nat) : Int := simm 32 (tField t (416 + 96 * c) 32)
def tDstStep (t : BitVec 1024) (c : Nat) : Int := simm 32 (tField t (448 + 96 * c) 32)

def tReduce (t : BitVec 1024) : Nat := tField t 16 3
def tClosure (t : BitVec 1024) : DWord := BitVec.ofNat 64 (tField t 320 64)
def tCloseCfg (t : BitVec 1024) : DWord := BitVec.ofNat 64 (tField t 960 64)
def tStamp (t : BitVec 1024) : DWord := BitVec.ofNat 64 (tField t 256 64)
def tCond (t : BitVec 1024) : DWord := BitVec.ofNat 64 (tField t 64 64)

/-- The template's flags after the override of the aperture store's data (R192). -/
def withOverride (t : BitVec 1024) (data : Word) : BitVec 1024 :=
  let f := field data.toNat 12 4
  if f / 4 == 0 then t
  else BitVec.ofNat 1024 (t.toNat - tField t 20 4 * 2 ^ 20 + f * 2 ^ 20)

/-- The number of units of the walk. -/
def tUnits (t : BitVec 1024) : Nat := (List.range 6).foldl (fun n c => n * tCount t c) 1

/-- Counter c at unit k of the walk, j0 innermost (R190). -/
def tIndex (t : BitVec 1024) (k c : Nat) : Nat :=
  k / (List.range c).foldl (fun n i => n * tCount t i) 1 % tCount t c

/-- The source and destination indices of unit k (R190). -/
def tSrc (t : BitVec 1024) (k : Nat) : Int :=
  (List.range 6).foldl (fun e c => e + (tIndex t k c : Int) * tSrcStep t c) (simm 64 (tField t 128 64))
def tDst (t : BitVec 1024) (k : Nat) : Int :=
  (List.range 6).foldl (fun e c => e + (tIndex t k c : Int) * tDstStep t c) (simm 64 (tField t 192 64))

/-- The reduction matches the format of both records (R190). -/
def reduceFits (kind : Nat) (fmt : Nat) : Bool :=
  match kind with
  | 0 => true
  | 1 => fmt == 3
  | 2 => fmt == 2
  | 3 => fmt == 6
  | 4 => fmt == 7
  | _ => false

/-- A template with its records is one that runs (R190); otherwise the command completes with status 1. -/
def templateOk (data : Word) (t : BitVec 1024) (a b : TRec) : Bool :=
  let fa := recFmt a
  let fb := recFmt b
  field data.toNat 16 16 == 0 && !recInvalid a && !recInvalid b && fa != 10 && fb != 10 &&
    unitBytes fa == unitBytes fb && recBlock a == recBlock b && tField t 30 2 == 0 && tField t 19 1 == 0 &&
    reduceFits (tReduce t) fa && reduceFits (tReduce t) fb && (tStamp t).toNat % 8 == 0 &&
    (tCond t).toNat % 4 == 0 &&
    (tClosure t == 0 || tCloseCfg t == 0 || (cfgOk (tCloseCfg t) && field (tCloseCfg t).toNat 0 4 == 0))

/-! ### Channels as the running context sees them -/

/-- The context that runs on the die pair of a core. -/
def runningCtx (s : State) (core : Nat) : Option Nat := sget none s.running (core / 128)

/-- The key of a core's channel for the running context. -/
def liveKey (s : State) (core chan : Nat) : Option Nat := (runningCtx s core).map fun c => chanKey c core chan

/-- The head command of a channel, while the debugger does not stop the channel: a unit with a request in the fabric goes on
to its end (R202, R310). -/
def headCmd (s : State) (core chan : Nat) : Option (Nat × CopyCmd) :=
  let stop := (sget 0 s.dbg.engStop core).getLsbD chan
  if chan ≥ 4 then none
  else
    match liveKey s core chan with
    | none => none
    | some k => (((getChan s k).queue.head?).filter fun c => !stop || !c.fab.isEmpty).map fun c => (k, c)

/-- Replace the head command. -/
def setHead (s : State) (k : Nat) (c : CopyCmd) : State :=
  setChan s k { getChan s k with queue := c :: (getChan s k).queue.tail }

/-- The write pointer of a command with n units done of total (R198). -/
def pointer (seq : BitVec 48) (n total : Nat) : DWord :=
  let top := 2 ^ 40 - 1
  let low := if total < top then n else if n < total then min n (top - 1) else top
  BitVec.ofNat 64 (seq.toNat % 2 ^ 24 * 2 ^ 40 + low)

/-- The command goes to COMPLETING with a stop status (Table 10-5). -/
def stopCopy (s : State) (k : Nat) (c : CopyCmd) (status : Nat) : State :=
  setHead s k { c with state := .completing, status := status, fab := [] }

/-! ### The words -/

/-- XFER of a template (R193, R420). -/
def xferWord (i : Instr) (chan : Fin 4) (tmpl : Team → Nat) (f : EFlags) (s : State) : Out :=
  issue i s fun s =>
    let data : Word := BitVec.ofNat 32 (tmpl s.tm % 4096 + f.code * 4096)
    if apertureHeld s s.cur data then s.stall .mirror
    else
      match apertureStore s s.cur s.tm.core chan.val data with
      | some s => s.modTm Team.finish
      | none => s.stall (.deferred (chanKey s.tm.ctx s.tm.core chan.val))

def execXfer (chan : Fin 4) (tmpl : Fin 4096) (f : EFlags) (s : State) : Out :=
  xferWord (.xfer chan tmpl f) chan (fun _ => tmpl.val) f s
def execXferReg (chan : Fin 4) (sT : SReg) (f : EFlags) (s : State) : Out :=
  xferWord (.xferReg chan sT f) chan (fun t => (t.sread sT.val).toNat) f s

/-- XPTR (R199, R422): with the acquire flag it is a completion observation, which comes after an earlier one (R184
note 6). -/
def execXptr (sd sa : SReg) (acq : Bool) (sc : EScope) (s : State) : Out :=
  issue (.xptr sd sa acq sc) s fun s =>
    let t := s.tm
    if acq && t.awaitsRows then s.stall .hold
    else
      let p := (getChan s (chanKey t.ctx t.core ((t.sread sa.val).toNat % 4))).ptr
      (acquireAt (acq && sc.far) s s.cur).modTm fun t => (t.countSpan.pendS .status 0 sd.val p []).advance

/-! ### Events -/

/-- COPY_HEAD (R194): the template and the records are read; a command that cannot run completes with status
1. -/
def execCopyHead (core chan : Nat) (s : State) : Out :=
  .next (match headCmd s core chan with
    | none => s
    | some (k, c) =>
      if c.state != .queued then s
      else
        let ctx := getCtx s c.ctx
        let s := setChan s k { getChan s k with ptr := pointer c.seq 0 0 }
        match sfind ctx.templates (c.data.toNat % 4096) with
        | none => stopCopy s k c 1
        | some t0 =>
          let t := withOverride t0 c.data
          match sfind ctx.tensors (tField t 0 8), sfind ctx.tensors (tField t 8 8) with
          | some a, some b =>
            let c := { c with tmpl := t, srcRec := a, dstRec := b }
            if templateOk c.data t a b then
              setHead s k { c with state := if t.getLsbD 23 || t.getLsbD 24 then .acquiring else .running }
            else stopCopy s k c 1
          | _, _ => stopCopy s k { c with tmpl := t } 1)

/-- The channel's command waits for pages (R201). -/
def copyAsks (s : State) (k core : Nat) (c : CopyCmd) (write m : Bool) (ps : List Nat) : State :=
  askPages s core c.ctx (.copy k c.seq) (if write then .write else .read) m ps

/-- The scope of the acquire and of the release that a command's flags name. -/
def CopyCmd.scope (c : CopyCmd) : EScope := ((EFlags.ofCode (tField c.tmpl 20 4)).map (·.scope)).getD .core

/-- The acquire of a command waits for the final releases of the team's earlier commands (R175). -/
def CopyCmd.acquireWaits (s : State) (c : CopyCmd) : Bool :=
  c.tmpl.getLsbD 23 && earlierReleases s c.uid c.order c.scope

/-- A release by the channel for a command, whose writes are at the home slices: at system scope they go on to the
host (R174, R198, Table 8-1). -/
def copyRelease (s : State) (c : CopyCmd) : State :=
  if c.tmpl.getLsbD 22 && c.scope.relTo == .host then carryToHost s else s

/-- COPY_CONDITION_MET (R175, R194): the condition word has compared, at the home slice, and the acquire is made. -/
def execCopyConditionMet (core chan : Nat) (s : State) : Out :=
  .next (match headCmd s core chan with
    | none => s
    | some (k, c) =>
      if c.state != .acquiring || c.acquireWaits s then s
      else if !c.tmpl.getLsbD 24 || c.met then setHead s k { c with state := .running }
      else
        match engineCheck s core [.ahead] c.ctx (tCond c.tmpl) 4 true false with
        | (.fatal, s) | (.fabric _ _, s) => stopCopy s k c 3
        | (.wait ps m, s) => copyAsks s k core c false m ps
        | (.held, s) => s
        | (.race idx, s) => noteRace (stopCopy s k c 4) c.uid idx
        | (.bad pa, s) => contextFatal s c.ctx (Config.errorCause s.free) pa
        | (.ok pas, s) =>
          let c := { c with condPa := some (pas.headD 0) }
          if c.condHolds (BitVec.ofNat 32 (memRead s (pas.headD 0) 4)) then setHead s k { c with state := .running }
          else setHead s k c)

/-- How a part of a unit ends. -/
inductive Part (α : Type) where
  | ok (x : α)
  | wait
  | stop (k : Nat)
  | bad (pa : Nat)
  | race (idx : Nat)
  deriving DecidableEq, Repr

/-- A part of a unit in the fabric window: its request is sent once (R297); parts are numbered. -/
def fabricPart (s : State) (k core chan part target off : Nat) (op : FabOp) : Part (List Byte) × State :=
  match (getChan s k).queue.head? with
  | none => (.wait, s)
  | some c =>
    match c.fab.find? fun f => f.lane == part with
    | some f =>
      match f.reply with
      | some (.data bs) => (.ok bs, s)
      | some .fail => (.stop 3, s)
      | some .outside => (.stop 1, s)
      | some (.race i) => (.race i, s)
      | none => (.wait, s)
    | none =>
      if s.boot.stage != 2 then (.stop 3, s)
      else
        let r := sendFabric s target (.copy core chan c.ctx) op off
        (.wait, setHead r.2 k { c with fab := c.fab ++ [⟨part, target, r.1, none⟩] })

/-- Where a part of a unit lies: in memory, or answered by the fabric. -/
inductive Place where
  | mem (pas : List Nat)
  | remote (bs : List Byte)
  deriving DecidableEq, Repr

/-- Check one part of a unit. -/
def partAt (s : State) (k core chan : Nat) (c : CopyCmd) (part : Nat) (va : DWord) (n : Nat) (reads writes : Bool)
    (op : FabOp) : Part Place × State :=
  match engineCheck s core [.ahead] c.ctx va n reads writes with
  | (.fatal, s) => (.stop 3, s)
  | (.wait ps m, s) => (.wait, copyAsks s k core c writes m ps)
  | (.held, s) => (.wait, s)
  | (.race idx, s) => (.race idx, s)
  | (.bad pa, s) => (.bad pa, s)
  | (.ok pas, s) => (.ok (.mem pas), s)
  | (.fabric target off, s) =>
    match fabricPart s k core chan part target off op with
    | (.ok bs, s) => (.ok (.remote bs), s)
    | (.wait, s) => (.wait, s)
    | (.stop x, s) => (.stop x, s)
    | (.bad pa, s) => (.bad pa, s)
    | (.race i, s) => (.race i, s)

/-- The bytes at a place. -/
def Place.read (s : State) : Place → List Byte
  | .mem pas => pas.map (memGet s)
  | .remote bs => bs

/-- Two parts one after the other; a unit without a scale has an empty second part. -/
def twoParts (a : State → Part Place × State) (b : Option (State → Part Place × State)) (s : State) :
    Part (Place × Place) × State :=
  match a s with
  | (.ok x, s) =>
    match b with
    | none => (.ok (x, .remote []), s)
    | some b =>
      match b s with
      | (.ok y, s) => (.ok (x, y), s)
      | (.wait, s) => (.wait, s)
      | (.stop k, s) => (.stop k, s)
      | (.bad pa, s) => (.bad pa, s)
      | (.race i, s) => (.race i, s)
  | (.wait, s) => (.wait, s)
  | (.stop k, s) => (.stop k, s)
  | (.bad pa, s) => (.bad pa, s)
  | (.race i, s) => (.race i, s)

/-- Write bytes at a place in memory; what lies in the fabric has been written by its target. -/
def Place.write (s : State) (core : Nat) (bs : List Byte) : Place → State
  | .mem pas => engineWrite s core (pas.zip bs)
  | .remote _ => s

/-- The offset within the fabric window, or 0. -/
def fabOffset (va : DWord) : Nat := field va.toNat 0 36

/-- Write the unit (R190, R191): a reduction in memory is one indivisible step; in the fabric the target
combines. -/
def writeUnit (s : State) (k core chan : Nat) (c : CopyCmd) (ed : Nat) (xs : List Byte) (sc : List Byte) :
    Part Unit × State :=
  let r := c.dstRec
  let n := unitBytes (recFmt r)
  let va := unitAddr r ed
  let kind := tReduce c.tmpl
  let away := inFabric va
  let op : FabOp :=
    if kind == 0 then .store xs
    else .reduce kind xs ((scaleAddr r ed).map fun a => (fabOffset a, sc.headD 0))
  let second := if kind != 0 && away then none
    else (scaleAddr r ed).map fun a => fun s => partAt s k core chan c 3 a 1 (kind != 0) true (.store sc)
  match twoParts (fun s => partAt s k core chan c 2 va n (kind != 0) true op) second s with
  | (.ok (p, q), s) =>
    let new := if kind == 0 || away then (xs, sc.headD 0)
      else combine kind (p.read s) ((q.read s).headD 0) xs (sc.headD 0)
    (.ok (), q.write (p.write s core new.1) core [new.2])
  | (.wait, s) => (.wait, s)
  | (.stop x, s) => (.stop x, s)
  | (.bad pa, s) => (.bad pa, s)
  | (.race i, s) => (.race i, s)

/-- After unit c.unit has been written: the pointer advances; the last unit leads to COMPLETING (R198). -/
def countUnit (s : State) (k : Nat) : State :=
  match (getChan s k).queue.head? with
  | none => s
  | some c =>
    let total := tUnits c.tmpl
    let n := c.unit + 1
    let c := { c with unit := n, fab := [], state := if total ≤ n then .completing else .running }
    let s := copyRelease (setHead s k c) c
    setChan s k { getChan s k with ptr := pointer c.seq n total }

/-- A unit that did not complete. -/
def stopUnit (s : State) (k : Nat) (c : CopyCmd) : Part Unit → State
  | .ok _ => countUnit s k
  | .wait => s
  | .stop x => stopCopy s k c x
  | .bad pa => contextFatal s c.ctx (Config.errorCause s.free) pa
  | .race idx => noteRace (stopCopy s k c 4) c.uid idx

/-- COPY_UNIT (R190, R201). -/
def execCopyUnit (core chan : Nat) (s : State) : Out :=
  .next (match headCmd s core chan with
    | none => s
    | some (k, c) =>
      if c.state != .running then s
      else
        let es := tSrc c.tmpl c.unit
        let ed := tDst c.tmpl c.unit
        if es < 0 || (recSize c.srcRec : Int) ≤ es || ed < 0 || (recSize c.dstRec : Int) ≤ ed then stopCopy s k c 2
        else
          let n := unitBytes (recFmt c.srcRec)
          let va := unitAddr c.srcRec es.toNat
          let second := (scaleAddr c.srcRec es.toNat).map fun a =>
            fun s => partAt s k core chan c 1 a 1 true false (.load 1)
          match twoParts (fun s => partAt s k core chan c 0 va n true false (.load n)) second s with
          | (.ok (p, q), s) =>
            let w := writeUnit s k core chan c ed.toNat (p.read s) (q.read s)
            stopUnit w.2 k c w.1
          | (.wait, s) => stopUnit s k c .wait
          | (.stop x, s) => stopUnit s k c (.stop x)
          | (.bad pa, s) => stopUnit s k c (.bad pa)
          | (.race i, s) => stopUnit s k c (.race i))

/-- How many units the model looks ahead in a walk for those pages (log entry 97). -/
def aheadUnits : Nat := 4096

/-- The accesses of unit k of a copy. -/
def unitAccesses (c : CopyCmd) (k : Nat) : List (DWord × ReqKind) :=
  let es := tSrc c.tmpl k
  let ed := tDst c.tmpl k
  if es < 0 || (recSize c.srcRec : Int) ≤ es || ed < 0 || (recSize c.dstRec : Int) ≤ ed then []
  else
    [(unitAddr c.srcRec es.toNat, ReqKind.read)] ++ ((scaleAddr c.srcRec es.toNat).map fun a => (a, ReqKind.read)).toList ++
    [(unitAddr c.dstRec ed.toNat, ReqKind.write)] ++ ((scaleAddr c.dstRec ed.toNat).map fun a => (a, ReqKind.write)).toList

/-- The walk of the running command of a channel is translated one page further. -/
def copyAhead (s : State) (core chan : Nat) : State :=
  match headCmd s core chan with
  | none => s
  | some (_, c) =>
    if c.state != .running then s
    else
      let n := min aheadUnits (tUnits c.tmpl - c.unit)
      translateAhead s core c.ctx ((List.range n).flatMap fun i => unitAccesses c (c.unit + i))

/-- The checks of a completion closure (R200): the status they give. -/
def closureStatus (s : State) (c : CopyCmd) : Nat :=
  let h := tClosure c.tmpl
  if c.status != 0 || h == 0 then c.status
  else
    match checkHandle s c.ctx h with
    | .error _ => 5
    | .ok e =>
      if 65535 ≤ e.count then 6
      else if queueCap ≤ postedCount (getReady s c.ctx (tField c.tmpl 26 4)) then 7
      else 0

/-- The configuration word of the completion closure (R200): 0 stands for one lane and nreg 6. -/
def closureCfg (t : BitVec 1024) : DWord :=
  let q := tField t 26 4
  if tCloseCfg t == 0 then BitVec.ofNat 64 (6 * 2 ^ 14 + q)
  else BitVec.ofNat 64 ((tCloseCfg t).toNat / 16 * 16 + q)

/-- The entry of the completed command is freed. -/
def freeHead (s : State) (k : Nat) : State :=
  setChan s k { getChan s k with queue := (getChan s k).queue.tail }

/-- Post the completion closure with one more reference (R200). -/
def postCompletion (s : State) (c : CopyCmd) : State :=
  let h := tClosure c.tmpl
  match liveEnv s h with
  | none => s
  | some e => postClosure (addRef s h e) c.ctx (tField c.tmpl 26 4) h (closureCfg c.tmpl)

/-- COPY_COMPLETION (R198, R200): checks, stamp, closure, and the entry is freed. A stamp that cannot be
written leaves no closure. -/
def execCopyCompletion (core chan : Nat) (s : State) : Out :=
  .next (match headCmd s core chan with
    | none => s
    | some (k, c) =>
      if c.state != .completing then s
      else
        let status := closureStatus s c
        let close := status == 0 && tClosure c.tmpl != 0
        if tStamp c.tmpl == 0 || (tStamp c.tmpl).toNat % 8 != 0 then
          freeHead (if close then postCompletion s c else s) k
        else
          match engineCheck s core [.ahead] c.ctx (tStamp c.tmpl) 8 false true with
          | (.wait ps m, s) => copyAsks s k core c true m ps
          | (.held, s) => s
          | (.fatal, s) | (.fabric _ _, s) => freeHead s k
          | (.bad pa, s) => contextFatal s c.ctx (Config.errorCause s.free) pa
          | (.race idx, s) => noteRace (freeHead s k) c.uid idx
          | (.ok pas, s) =>
            let stamp := c.seq.toNat + status * 2 ^ 48
            let s := engineWrite s core (pas.zip (toBytes 8 stamp))
            freeHead (if close then postCompletion s c else s) k)

/-- The first deferred store of a channel enters a free entry; a team that waits to defer another one goes on
(R195, R196). -/
def execDeferredStoreEntry (core chan : Nat) (s : State) : Out :=
  .next (match liveKey s core chan with
    | none => s
    | some k =>
      if chan ≥ 4 then s
      else
        let c := getChan s k
        match c.deferred with
        | [] => s
        | (u, data, order) :: rest =>
          if 16 ≤ c.queue.length then s
          else
            let s := acceptCopy (setChan s k { c with deferred := rest }) k order (k / 2048) u data
            let s := if (sfind s.teams u).isSome then
                s.modTeam u fun t => { t with deferred := t.deferred.filter fun d => d.1 != k }
              else s
            wakeWhere s fun t => t.uid == u && t.wait == .deferred k)

/-- CHANNEL_STALL_TIMEOUT (R196): while the head is ACQUIRING, the stalled team takes the channel-stall trap
at its store. -/
def execChannelStallTimeout (uid : Nat) (s : State) : Out :=
  .next (match (s.getTeam uid).wait with
    | .deferred k =>
      match (getChan s k).queue.head? with
      | none => s
      | some c =>
        let t := s.getTeam uid
        if c.state != .acquiring || !ctxOn s t.core t.ctx || t.state != .stalled then s
        else
          onTeam uid (fun s =>
            let lanes := lanesOf t.unfin
            if lanes.isEmpty then takeTrap s 0x0F 0 0 t.pc
            else laneTrap s t.nextInstr.scalarPipe 0 (lanes.map fun l => (l, 0x0F))) s
    | _ => s)

end Sys2Proof.Machine
end

