-- ==== Sys2Proof/Machine/Images.lean ====
section
/-! DEFINITION. The save image of a team (Table 15-2) and its place in memory (R285), with the pending writes that the
debugger reads after it (R308). -/

namespace Sys2Proof.Machine

/-- Kinds of Table 17-2. -/
def PendKind.code : PendKind → Nat
  | .load | .ldc _ => 0
  | .trans => 1
  | .atomic => 2
  | .status | .rowWait _ _ _ => 3

/-- A pending-write entry (Table 17-2): the register as the word names it, in the frame of its issue. -/
def Pending.entry (p : Pending) : BitVec 128 :=
  let lanes := (p.vals.map fun e => e.1 % 32).foldl (fun m l => m ||| 2 ^ l) 0
  let reg := match p.sregs with
    | d :: _ => 104 + d
    | [] => (p.regs.foldl min (p.regs.headD 0)) - p.frame
  BitVec.ofNat 128 (p.src.toNat * 2 ^ 64 + lanes % 2 ^ 32 * 2 ^ 32 + p.pass % 32 * 2 ^ 27 + p.kind.code * 2 ^ 24 +
    (if p.arrived then 2 ^ 7 else 0) + reg % 2 ^ 7)

/-- The states of Table 4-6 in its order. -/
def TState.code : TState → Nat
  | .ready => 0 | .stalled => 1 | .parked => 2 | .swapped => 3 | .halted => 4 | .retired => 5

/-- A trap that the team is still to take: a race, a fatal reply, or the trap of a load that was lost (R156, R274,
R276, R278). -/
def Team.trapPending (t : Team) : Bool :=
  t.racePending || !t.fatalPages.isEmpty || !t.hostFail.isEmpty || t.pending.any (·.dead.isSome)

/-- The control word of an image (Table 15-2). -/
def Team.control (t : Team) : DWord :=
  let idx := match t.clause with | some c => c.skipped + c.idx + 1 | none => 0
  BitVec.ofNat 64 (idx % 16 + t.pass % 32 * 2 ^ 4 + t.frame % 2 ^ 7 * 2 ^ 9 + t.maskStack.length % 32 * 2 ^ 16 +
    t.callDepth % 2 ^ 12 * 2 ^ 21 + (if t.inHandler then 2 ^ 33 else 0) + (if t.trapPending then 2 ^ 34 else 0) +
    (if t.state == .halted then 2 ^ 35 else 0) + t.tag % 2 ^ 16 * 2 ^ 36 + t.state.code % 8 * 2 ^ 52)

/-- Tables of the team as bytes. -/
def dwordBytes (v : DWord) : List Byte := toBytes 8 v.toNat
def maskBytes (m : Mask) : List Byte := toBytes 128 m.toNat
def fixed (n : Nat) (f : Nat → List Byte) : List Byte := (List.range n).flatMap f

/-- Where the saved active mask stands in an image: the table gives its offset in the trap row and names no place for
it. DESIGN CHOICE, log entry 29. -/
def savedMaskAt : Nat := 0x1900

/-- The rows of an image below the vectors, with their offsets (Table 15-2). Fields inside a row of the table follow
each other in its order (log entry 29). -/
def Team.imageRows (t : Team) : List (Nat × List Byte) :=
  [ (0x0000, dwordBytes (match t.clause with | some c => c.base - BitVec.ofNat 64 (4 * (c.skipped + 1)) | none => t.pc)), (0x0008, dwordBytes t.control),
    (0x0010, dwordBytes t.trapInfo ++ dwordBytes t.trapPc ++ toBytes 8 savedMaskAt),
    (0x0040, fixed 24 fun n => dwordBytes (sget 0 t.s n)),
    (0x0100, maskBytes t.full ++ maskBytes t.active ++ maskBytes t.unfin ++
      maskBytes (t.apply.elim 0 (·.orig))),
    (0x0300, fixed 7 fun n => maskBytes (sget 0 t.p n)),
    (0x0680, fixed 16 fun n => ((t.maskStack.reverse[n]?).elim (List.replicate 256 0)
      fun e => maskBytes e.outer ++ maskBytes e.other)),
    (0x1680, fixed 16 fun n => (t.callHw[n]?).elim (List.replicate 16 0) fun e => toBytes 16 e.image),
    (0x1780, fixed 8 fun n => dwordBytes (sget 0 t.k n)),
    (0x17C0, fixed 16 fun n => toBytes 2 (sget 0 t.a n).toNat),
    (0x17E0, toBytes 4 t.fpflags.toNat ++ dwordBytes (rowStatus t.rowOut t.rowDone t.rowBits)),
    (0x1800, toBytes 4 (t.cohort.elim 0xFFFFFFFF (· % 65536)) ++ toBytes 4 t.memberIdx ++
      fixed 16 fun n => toBytes 2 (sget 0 t.arr n).toNat),
    (0x1840, fixed 4 (fun n => dwordBytes (t.entered.getD n 0)) ++ toBytes 4 t.enteredMode.code ++
      toBytes 4 (if t.benter.isSome then 1 else 0)),
    (0x1880, fixed 4 fun c => ((t.deferred.find? fun d => d.1 % 4 == c).elim (toBytes 8 0)
      fun d => toBytes 4 d.2.toNat ++ toBytes 4 1)),
    (savedMaskAt, maskBytes t.savedActive) ]

/-- The vectors in register-window order (R82), then the scratchpad. -/
def Team.vectorBytes (t : Team) : List Byte :=
  ((List.range ((t.lanes + 31) / 32)).flatMap fun w => (List.range t.nreg).flatMap fun r =>
    (List.range 32).flatMap fun l => toBytes 4 (t.vget r (32 * w + l)).toNat) ++
  (List.range t.scratchSize).map t.scratchByte

/-- An image with the count of pending writes and their entries, which the debugger reads (R308). -/
def Team.saveImage (t : Team) : List (Nat × List Byte) :=
  t.imageRows ++ [(0x2000, t.vectorBytes ++ toBytes 4 t.pending.length ++
    t.pending.flatMap fun p => toBytes 16 p.entry.toNat)]

/-- An image as bytes from an address on. -/
def imageCells (a : Nat) (rows : List (Nat × List Byte)) : List (Nat × Byte) :=
  rows.flatMap fun r => r.2.zipIdx.map fun b => (a + r.1 + b.2, b.1)

/-- The lines of an image from an address on. -/
def Team.imageLines (a : Nat) (t : Team) : List Nat :=
  (List.range ((0x2000 + 128 * ((t.lanes + 31) / 32) * t.nreg + t.scratchSize + 255) / 256)).map (lineOf a + ·)

/-- Team u's image can be written at an address: no line of it is held by a row command (R218). -/
def imageFree (s : State) (u a : Nat) : Bool :=
  s.rowQueue.isEmpty || !((s.getTeam u).imageLines a).any (heldLine s true)

/-- Team u's image is written at the 4 KiB-aligned address that Stratus assigns (R285; log entry 96). -/
def storeImage (s : State) (u : Nat) (save : Option Nat) : State :=
  match save with
  | none => s
  | some a =>
    if a % 4096 != 0 then s
    else
      homeWrite (s.modTeam u fun t => { t with image := some a })
        (imageCells a ((s.getTeam u).imageRows ++ [(0x2000, (s.getTeam u).vectorBytes)]))

end Sys2Proof.Machine
end

