-- ==== Sys2Proof/Machine/Place.lean ====
section
/-! DEFINITION. Where teams fit and how they are placed (R80, R81, R134, R135, R140, R237, R238, R240), and pools
that are freed when nobody needs them. -/

namespace Sys2Proof.Machine

/-! ### Who is resident -/

/-- Bank rows of a register footprint (R81). -/
def footprint (lanes nreg : Nat) : Nat := (lanes + 31) / 32 * nreg

/-- What a team needs of a core: scratch is its scratchpad in bytes, a multiple of 128 (R135). -/
structure Need where
  ctx : Nat
  cls : Nat
  lanes : Nat
  nreg : Nat
  scratch : Nat
  cap : Nat
  deriving DecidableEq, Repr

def Team.need (t : Team) : Need := ⟨t.ctx, t.cls, t.lanes, t.nreg, t.scratchSize, t.bundleCap⟩

/-- The resident teams of a core. -/
def teamsOn (s : State) (core : Nat) : List Team :=
  (s.teams.map (·.2)).filter fun t => t.core == core && t.resident

/-- Rows of a core's store that registers, scratchpads and pools take (R134). -/
def rowsUsed (s : State) (core : Nat) : Nat :=
  (teamsOn s core).foldl (fun n t => n + footprint t.lanes t.nreg + t.scratchSize / 128) 0 +
    (s.pools.filter fun p => p.1 / 4096 == core).foldl (fun n p => n + 2 * p.2.cap) 0

/-- Rows of the store, and those that the first-level cache keeps (R134). -/
def storeRows : Nat := 12288
def cacheRows : Nat := 512

/-- The team's rows, its pool's among them where the core has none yet. -/
def Need.rows (s : State) (core : Nat) (n : Need) : Nat :=
  footprint n.lanes n.nreg + n.scratch / 128 +
    (if n.cap != 0 && (sfind s.pools (poolKey core n.ctx)).isNone then 2 * n.cap else 0)

/-- The context's pool, if any, has the same capacity (R140). -/
def poolFits (s : State) (core : Nat) (n : Need) : Bool :=
  n.cap == 0 || (match sfind s.pools (poolKey core n.ctx) with | some p => p.cap == n.cap | none => true)

/-- Rows T to T + k - 1 of a partition hold no team's registers. DESIGN CHOICE: scratchpads, pools and the cache take rows
of the core as a whole and bar no base (log entry 95). -/
def baseFree (ts : List Team) (k b : Nat) : Bool :=
  b + k ≤ 3072 && ts.all fun t => decide (t.tbase + footprint t.lanes t.nreg ≤ b) || decide (b + k ≤ t.tbase)

/-- The lowest team base for k rows (R81). DESIGN CHOICE: the spec asks for a multiple of 6 with free rows and names no
order (log entry 95). -/
def lowestBase (ts : List Team) (k : Nat) : Option Nat :=
  (sortNat (0 :: ts.map fun t => t.tbase + footprint t.lanes t.nreg)).find? (baseFree ts k)

/-- A slot of the partition is free for the class (R13, R240). -/
def slotFree (ts : List Team) (part cls : Nat) : Bool :=
  let mine := ts.filter fun t => t.part == part
  let ballast := fun l : List Team => (l.filter fun t => t.cls == 7).length
  mine.length < 12 && (cls != 7 || (ballast mine < 2 && ballast ts < 6))

/-- The team fits in a partition of a core (R237); without slots, its other needs fit there. -/
def fitsPart (s : State) (core : Nat) (n : Need) (slots : Bool) (part : Nat) : Bool :=
  let ts := teamsOn s core
  (!slots || slotFree ts part n.cls) &&
    (lowestBase (ts.filter fun t => t.part == part) (footprint n.lanes n.nreg)).isSome &&
    rowsUsed s core + n.rows s core + cacheRows ≤ storeRows && poolFits s core n

/-- The die pair of the core runs the context, and the core is enabled (R235, R237). -/
def coreOpen (s : State) (core ctx : Nat) : Bool :=
  core < 512 && s.units.cores.getLsbD core && sget none s.running (core / 128) == some ctx

/-- The debugger has not stopped the partition (R306). -/
def partOpen (s : State) (core part : Nat) : Bool := !s.dbg.halted.contains (core * 4 + part)

/-- The partition that a team takes on a core: the one asked for, or the next in the rotation that fits. -/
def choosePart (s : State) (core : Nat) (n : Need) (rot : Nat) (only : Option Nat) : Option Nat :=
  if !coreOpen s core n.ctx then none
  else
    match only with
    | some p => if fitsPart s core n true p && partOpen s core p then some p else none
    | none => ((List.range 4).map fun i => (rot + i) % 4).find? fun p => fitsPart s core n true p && partOpen s core p

/-- The core and partition for a team: cores from the cursor on, wrapping in their range (R237). -/
def chooseCore (s : State) (n : Need) (first count cursor : Nat) (rot : Sparse Nat) (only : Option Nat) :
    Option (Nat × Nat) :=
  (List.range count).findSome? fun i =>
    let core := first + (cursor - first + i) % count
    (choosePart s core n (sget 0 rot core) only).map fun p => (core, p)

/-- The partitions that a team may take: the one that its launch maps it to, or any (R237). -/
def partsOf (only : Option Nat) : List Nat := match only with | some p => [p] | none => List.range 4

/-- A team cannot be placed on a core for want of a slot, though all else is there (R240). -/
def wantsSlot (s : State) (core : Nat) (n : Need) (only : Option Nat) : Bool :=
  coreOpen s core n.ctx && !((partsOf only).any (fitsPart s core n true)) && (partsOf only).any (fitsPart s core n false)

/-- A team does not fit on a core for want of a slot or of rows (R238). -/
def wantsRoom (s : State) (core : Nat) (n : Need) (only : Option Nat) : Bool :=
  poolFits s core n && !((partsOf only).any (fitsPart s core n true))

/-! ### Placing -/

/-- A tag that no team holds (R243). -/
def freeTag (s : State) : Nat :=
  let used := s.teams.map fun e => e.2.tag
  ((List.range (used.length + 1)).map fun i => (s.nextTag + i) % 65536).find? (fun x => !used.contains x) |>.getD 0

/-- Put a team into the lowest free slot of a partition; its pool is made if there is none (R81, R140). -/
def seatTeam (s : State) (core part : Nat) (t : Team) : State :=
  let ts := (teamsOn s core).filter fun x => x.part == part
  let t := { t with
    core := core, part := part
    slot := lowestFree 12 (ts.map (·.slot))
    tbase := (lowestBase ts (footprint t.lanes t.nreg)).getD 0 }
  let s := s.setTeam t.uid t
  let k := poolKey core t.ctx
  if t.bundleCap != 0 && (getPool s k).isNone then setPool s k (Pool.fresh t.bundleCap) else s

/-- A new team of a need (R60, R80): every register holds zero. DESIGN CHOICE: in the choice of R78 it counts as if it had
issued at its placement (log entry 110). -/
def newTeam (s : State) (n : Need) (o : Origin) (id : Nat) (entry : DWord) : Team :=
  { Team.blank with
    uid := s.nextUid, ctx := n.ctx, cls := n.cls, origin := o, teamId := id, lanes := n.lanes, nreg := n.nreg
    scratchSize := n.scratch, bundleCap := n.cap, state := .ready, lastIssue := s.issueCount, pc := entry
    full := fullMask n.lanes, active := fullMask n.lanes, tag := freeTag s }

/-- Place a new team; its first word acquires (R231, R263). -/
def placeNew (s : State) (core part : Nat) (t : Team) : State :=
  let s := seatTeam s core part t
  l1Acquire { s with nextUid := s.nextUid + 1, nextTag := (t.tag + 1) % 65536 } core

/-! ### Pools (R140) -/

/-- A by-reference capture names the team (R238). -/
def refCaptured (s : State) (t : Team) : Bool :=
  s.envs.any fun e => e.1 / 4096 == t.core && e.2.ref && e.2.state == .live &&
    (List.range e.2.vcount).any fun k => e.2.refTag k == t.tag

/-- A swapped team returns to the same core (R238). -/
def Team.bound (s : State) (t : Team) : Bool :=
  !t.entered.isEmpty || t.benter.isSome || t.reenter || !t.deferred.isEmpty || refCaptured s t

/-- Free the pool of a context on a core that has neither a placed team there nor one that must return (R140). DESIGN CHOICE:
in a pool that is made again the generations start at 1 (log entry 80). -/
def trimPool (s : State) (core ctx : Nat) : State :=
  let k := poolKey core ctx
  if s.teams.any fun e => e.2.core == core && e.2.ctx == ctx && (e.2.resident || e.2.bound s) then s
  else
    match getPool s k with
    | none => s
    | some p =>
      let s := dropLines s core (distinct ((p.bundles.filter fun b => b.2.present).flatMap fun b => b.2.phys))
      { s with pools := sdel s.pools k }

/-! ### Swapping (R238) -/

/-- A team at a clause boundary. -/
def Team.atBoundary (t : Team) : Bool := t.clause.isNone && t.resume.isNone

/-- The team's registers go to its save area (R238, R285); open spans end (R54). -/
def swapTeam (s : State) (u save : Nat) : State :=
  let s := storeImage (s.modTeam u Team.stored) u (some save)
  trimPool s (s.getTeam u).core (s.getTeam u).ctx

/-- A wait in which a team is PARKED (Table 4-6). -/
def Wait.parks : Wait → Bool
  | .fault | .barWait _ | .benter | .waitv | .await _ _ => true
  | _ => false

/-- A halted team that was saved with its context (R286). -/
def Team.savedHalted (t : Team) : Bool := t.state == .halted && t.haltedFrom == .swapped

/-- A load that has failed ends the AWAIT that counts it, by its trap (R79, R274, R276). -/
def Team.failsAwait (t : Team) : Bool := match t.wait with | .await _ _ => t.pending.any (·.dead.isSome) | _ => false

/-- A swapped team that can be placed: its wait has ended (R79, R238), or it is to be replayed (R284), or it is restored
HALTED (R286). One that must enter its bundles again waits for that (R157). -/
def Team.placeable (t : Team) : Bool :=
  t.savedHalted ||
    (t.state == .swapped && !t.reenter &&
      (t.failsAwait || match t.wait with | .barArrive _ _ => false | w => !w.parks))

/-- A halted team that comes back: a wait stands behind the halt, and so does the entry of its bundles (R157, R286). -/
def Team.backHalted (t : Team) : Team :=
  if t.wait.parks then { t with state := .halted, haltedFrom := .parked }
  else if t.reenter then { t with state := .halted, haltedFrom := .parked, wait := .benter }
  else { t with state := .halted, haltedFrom := .ready, wait := .none }

/-- The same, where a phase step runs the team once it is placed (R309). -/
def Team.backRunning (t : Team) : Team :=
  if t.stepping then { t.backHalted.unhalt with stepping := true } else t.backHalted

/-- The cores that have held teams of a launch, whose bytes its stamp's release covers (R234). -/
def noteCore (s : State) (o : Origin) (core : Nat) : State :=
  match o with
  | .launch ctx q seq =>
    let c := getCtx s ctx
    setCtx s ctx { c with runs := c.runs.map fun r =>
      if r.q == q && r.seq == seq && !r.cores.contains core then { r with cores := r.cores ++ [core] } else r }
  | _ => s

/-- A team that comes back to another core takes its memory with it: its dirty bytes go home from the old one, and the
new one holds nothing older (R162, R178). -/
def moveCore (s : State) (o : Origin) (old new : Nat) : State :=
  if old == new then s else noteCore (l1Acquire (l1Release s old) new) o new

/-- The team comes back to a core: an instruction at which it was stalled is replayed (R284). It has not issued since, so it
keeps its place in the choice of R78. -/
def returnTeam (s : State) (core part u : Nat) : State :=
  let t := s.getTeam u
  let old := t.core
  let t := { t with
    image := none
    only := if t.unfin == 0 then t.only else some t.unfin }
  let t := if t.savedHalted then t.backRunning else { t with state := .ready, haltedFrom := .ready, wait := .none }
  trimPool (moveCore (seatTeam s core part t) t.origin old core) old t.ctx

/-- Where a swapped team can be placed on a die pair: a halted one in its partition (R286), one that must return
there on its core (R238). It moves to another core once no dirty byte of the old one waits at a slice. -/
def returnPlace (s : State) (dp : Nat) (t : Team) : Option (Nat × Nat) :=
  if t.core / 128 != dp then none
  else if t.savedHalted then
    if coreOpen s t.core t.ctx && fitsPart s t.core t.need true t.part then some (t.core, t.part) else none
  else if t.bound s then (choosePart s t.core t.need 0 none).map fun p => (t.core, p)
  else
    (chooseCore s t.need (dp * 128) 128 (dp * 128) [] none).filter fun p => p.1 == t.core || !dirtyHeld s t.core

end Sys2Proof.Machine
end

