-- ==== Sys2Proof/Machine/Launch.lean ====
section
/-! DEFINITION. Launches (R229 to R240): the block and its checks, the traversal orders, posting, the head, the
distributor, completion, swapping and the ballast. -/

namespace Sys2Proof.Machine

/-! ### The launch block (Table 12-1) -/

def LaunchRun.dimX (r : LaunchRun) : Nat := r.fld 192 20 + 1
def LaunchRun.dimY (r : LaunchRun) : Nat := r.fld 212 20 + 1
def LaunchRun.dimZ (r : LaunchRun) : Nat := r.fld 232 20 + 1
def LaunchRun.cls (r : LaunchRun) : Nat := r.fld 281 3
def LaunchRun.ballast (r : LaunchRun) : Bool := r.fld 290 1 == 1
def LaunchRun.coreFirst (r : LaunchRun) : Nat := r.fld 358 9
def LaunchRun.coreCount (r : LaunchRun) : Nat := r.fld 367 9 + 1
def LaunchRun.entry (r : LaunchRun) : DWord := BitVec.ofNat 64 (r.fld 0 64)

/-- The need of each team of a launch. -/
def LaunchRun.need (r : LaunchRun) (ctx : Nat) : Need :=
  ⟨ctx, r.cls, r.fld 256 10 + 1, r.fld 266 7, roundTo 128 (r.fld 320 25), r.fld 345 13⟩

/-- A valid block, posted to queue q (R230). -/
def LaunchRun.valid (r : LaunchRun) : Bool :=
  let nreg := r.fld 266 7
  let cap := r.fld 345 13
  r.fld 448 1600 == 0 && r.fld 376 39 == 0 && r.fld 291 29 == 0 && r.fld 273 3 == 0 && r.fld 252 4 == 0 &&
    (r.fld 415 1 == 0 || r.fld 367 9 == 0) && r.fld 358 9 + r.fld 367 9 ≤ 511 &&
    (cap == 0 || (4 ≤ cap && cap ≤ 4096)) && r.fld 320 25 ≤ 16777216 && (!r.ballast || r.cls == 7) &&
    r.fld 284 6 == r.q && r.fld 278 3 ≤ 6 && (r.fld 276 2 < 2 || r.fld 278 3 == 0) &&
    nreg % 6 == 0 && 6 ≤ nreg && nreg ≤ 102 && r.stampAddr.toNat % 8 == 0 &&
    canonical r.entry && r.entry.toNat % 4 == 0 && r.blockVa.toNat % 256 == 0

/-- Some enabled core of the range could hold a team together with the cache's rows (R13, R230). -/
def LaunchRun.holdable (s : State) (r : LaunchRun) (ctx : Nat) : Bool :=
  let n := r.need ctx
  footprint n.lanes n.nreg ≤ 3072 &&
    footprint n.lanes n.nreg + n.scratch / 128 + 2 * n.cap + cacheRows ≤ storeRows &&
    (List.range r.coreCount).any fun i => s.units.cores.getLsbD (r.coreFirst + i)

/-! ### Traversal (R236) -/

/-- Bands of w along the second axis, the first axis inside a band, the second innermost: pairs (first, second). -/
def banded (n m w : Nat) : List (Nat × Nat) :=
  (List.range ((m + w - 1) / w)).flatMap fun b =>
    (List.range n).flatMap fun x =>
      ((List.range w).map fun i => (x, b * w + i)).filter fun p => p.2 < m

/-- The coordinates of a Morton code: x in the even bits, y in the odd ones. -/
def morton (bits code : Nat) : Nat × Nat :=
  (List.range bits).foldl
    (fun p i => (p.1 + code / 2 ^ (2 * i) % 2 * 2 ^ i, p.2 + code / 2 ^ (2 * i + 1) % 2 * 2 ^ i)) (0, 0)

/-- One step of the Hilbert conversion at side 2^i (R236). -/
def hilbertStep (a : Nat × Nat × Nat) (i : Nat) : Nat × Nat × Nat :=
  let (x, y, t) := a
  let side := 2 ^ i
  let rx := t / 2 % 2
  let ry := (t + rx) % 2
  let (x, y) := if ry == 0 then
      if rx == 1 then (side - 1 - y, side - 1 - x) else (y, x)
    else (x, y)
  (x + side * rx, y + side * ry, t / 4)

/-- The coordinates of distance d along the curve on a square of side 2^bits. -/
def hilbert (bits d : Nat) : Nat × Nat :=
  let r := (List.range bits).foldl hilbertStep (0, 0, d)
  (r.1, r.2.1)

/-- The least number of bits whose square covers both extents. -/
def coverBits (x y : Nat) : Nat := ((List.range 21).find? fun b => x ≤ 2 ^ b && y ≤ 2 ^ b).getD 20

/-- The points of one plane in the launch's order. -/
def planeOrder (order swizzle x y : Nat) : List (Nat × Nat) :=
  let b := coverBits x y
  let inside := fun p : Nat × Nat => p.1 < x && p.2 < y
  match order with
  | 0 => banded x y (2 ^ swizzle)
  | 1 => (banded y x (2 ^ swizzle)).map fun p => (p.2, p.1)
  | 2 => ((List.range (4 ^ b)).map (morton b)).filter inside
  | _ => ((List.range (4 ^ b)).map (hilbert b)).filter inside

/-- How many teams a launch has. -/
def LaunchRun.total (r : LaunchRun) : Nat := r.dimX * r.dimY * r.dimZ

/-- The coordinates of the k-th team in traversal order. -/
def LaunchRun.point (r : LaunchRun) (k : Nat) : Nat × Nat × Nat :=
  let plane := r.dimX * r.dimY
  let p := ((planeOrder (r.fld 276 2) (r.fld 278 3) r.dimX r.dimY)[k % plane]?).getD (0, 0)
  (p.1, p.2, k / plane)

/-- TEAMID (R231). -/
def LaunchRun.teamId (r : LaunchRun) (p : Nat × Nat × Nat) : Nat := p.1 + r.dimX * (p.2.1 + r.dimY * p.2.2)

/-! ### Posting (R232) -/

/-- Context and queue of an offset in the launch aperture. -/
def apertureQueue (off : Nat) : Nat × Nat := (off / 512, off % 512 / 8)

/-- Cancel the perpetual ballast launches of a queue at the end of their rounds. -/
def cancelBallast (s : State) (ctx q : Nat) : State :=
  let c := getCtx s ctx
  let s := setCtx s ctx { c with
    runs := c.runs.map fun r => if r.q == q && r.ballast then { r with cancel := true } else r }
  let x := getQueue s ctx q
  setQueue s ctx q { x with entries := x.entries.map fun e => { e with cancel := true } }

/-- The device runs in its safe or its full function (Table 18-1): before, and in recovery, no launch is accepted (R312,
R313). -/
def serving (s : State) : Bool := s.boot.stage == 1 || s.boot.stage == 2

/-- A store to the aperture, for a context that exists: 0 cancels; a block is appended, or discarded and counted
where the queue is full. -/
def postAperture (s : State) (off : Nat) (block : DWord) : State :=
  let (ctx, q) := apertureQueue off
  if off % 8 != 0 || (sfind s.ctxs ctx).isNone || !serving s then s
  else if block == 0 then cancelBallast s ctx q
  else
    let x := getQueue s ctx q
    if queueDepth ≤ x.entries.length then setQueue s ctx q { x with discarded := min 65535 (x.discarded + 1) }
    else appendLaunch s ctx q block

/-- LAUNCH_APERTURE_POST. -/
def execLaunchAperturePost (off : Nat) (block : DWord) (s : State) : Out := .next (postAperture s off block)

/-- BALLAST_CANCEL. -/
def execBallastCancel (off : Nat) (s : State) : Out := .next (postAperture s off 0)

/-- The run of the launch at the head of a queue, once its block has been read. -/
def headRun (s : State) (ctx q : Nat) : Option LaunchRun :=
  match (getQueue s ctx q).entries with
  | [] => none
  | e :: _ => (getCtx s ctx).runs.find? fun r => r.q == q && r.seq == e.seq

/-- The queue status word (R232). -/
def queueStatus (s : State) (ctx q : Nat) : DWord :=
  let x := getQueue s ctx q
  BitVec.ofNat 64 (x.entries.length + x.discarded * 2 ^ 16 +
    (match headRun s ctx q with | some r => r.cls | none => 0) * 2 ^ 32)

/-! ### The head (R230) -/

/-- The launch leaves the head of its queue. -/
def popLaunch (s : State) (ctx q : Nat) : State :=
  let x := getQueue s ctx q
  setQueue s ctx q { x with entries := x.entries.tail }

/-- The run of an entry whose block has been read. -/
def startRun (q : Nat) (e : LaunchEntry) (block : BitVec 2048) : LaunchRun :=
  let r : LaunchRun := ⟨q, e.seq, e.block, block, 0, [], 0, 0, [], e.cancel⟩
  { r with cursor := r.coreFirst }

/-- A launch that places nothing completes at once with a status. -/
def refuseLaunch (s : State) (ctx : Nat) (r : LaunchRun) (status : Nat) : State :=
  popLaunch (writeStamp s ctx r.stampAddr (launchStamp r.seq status)) ctx r.q

/-- LAUNCH_HEAD_READ: the block is read through the context's translation and checked. -/
def execLaunchHeadRead (ctx q : Nat) (s : State) : Out :=
  .next (match (getQueue s ctx q).entries with
    | [] => s
    | e :: _ =>
      if (headRun s ctx q).isSome || !serving s then s
      else
        match reach s ctx e.block .read true with
        | (.wait p m, s) => (newReq s 512 ctx p .read m [.launch q]).2
        | (.held, s) => s
        | (.bad pa, s) => noteBad s ctx pa
        | (.fatal, s) => popLaunch s ctx q
        | (.at_ pa, s) =>
          let r := startRun q e (BitVec.ofNat 2048 (memRead s pa 256))
          if !r.valid then refuseLaunch s ctx r 1
          else if !r.holdable s ctx then refuseLaunch s ctx r 2
          else
            let c := getCtx s ctx
            setCtx s ctx { c with runs := c.runs ++ [r] })

/-! ### The distributor (R235, R237) -/

/-- The partition that the map gives the next team. -/
def LaunchRun.mapped (r : LaunchRun) (id : Nat) : Option Nat :=
  if r.fld 415 1 == 1 && id < 16 then some (r.fld (416 + 2 * id) 2) else none

/-- Where a run's next team goes. -/
def LaunchRun.place (s : State) (r : LaunchRun) (ctx : Nat) : Option (Nat × Nat) :=
  chooseCore s (r.need ctx) r.coreFirst r.coreCount r.cursor r.rotation (r.mapped (r.teamId (r.point r.placed)))

/-- The run has teams to place. -/
def LaunchRun.open_ (r : LaunchRun) : Bool := r.placed < r.total

def setRun (s : State) (ctx : Nat) (r : LaunchRun) : State :=
  let c := getCtx s ctx
  setCtx s ctx { c with runs := c.runs.map fun x => if x.q == r.q && x.seq == r.seq then r else x }

/-- The next core of a range. -/
def nextCore (first count core : Nat) : Nat := if core + 1 < first + count then core + 1 else first

/-- The run after a team has been placed on a core. -/
def LaunchRun.advance (r : LaunchRun) (core part : Nat) (mapped : Bool) : LaunchRun :=
  { r with
    placed := r.placed + 1
    cursor := nextCore r.coreFirst r.coreCount core
    rotation := if mapped then r.rotation else sset 0 r.rotation core ((part + 1) % 4)
    cores := if r.cores.contains core then r.cores else r.cores ++ [core] }

/-- The registers that a launch loads (R231). -/
def Team.launched (t : Team) (p : Nat × Nat × Nat) (block arg : DWord) : Team :=
  { t with s := sset 0 (sset 0 (sset 0 t.s 20 (BitVec.ofNat 64 (p.1 + p.2.1 * 2 ^ 20 + p.2.2 * 2 ^ 40)))
      21 block) 22 arg }

/-- Place the next team of a run. The launch leaves its queue with its last team (R235). -/
def placeRun (s : State) (ctx : Nat) (r : LaunchRun) (core part : Nat) : State :=
  let p := r.point r.placed
  let id := r.teamId p
  let t := (newTeam s (r.need ctx) (.launch ctx r.q r.seq) id r.entry).launched p r.blockVa
    (BitVec.ofNat 64 (r.fld 64 64))
  let s := placeNew s core part t
  let r' := r.advance core part (r.mapped id).isSome
  let s := setRun s ctx r'
  if r'.open_ then s else popLaunch s ctx r.q

/-- Swapped teams of a class that can be placed on a die pair, with their places. -/
def returning (s : State) (dp ctx cls : Nat) : List (Nat × Nat × Nat) :=
  s.teams.filterMap fun e =>
    if e.2.ctx == ctx && e.2.cls == cls && e.2.placeable then
      (returnPlace s dp e.2).map fun p => (e.1, p.1, p.2)
    else none

/-- Runs of a class whose next team fits on a core of the die pair, with the places. -/
def placing (s : State) (dp ctx cls : Nat) : List (LaunchRun × Nat × Nat) :=
  (getCtx s ctx).runs.filterMap fun r =>
    if r.open_ && r.cls == cls then
      match r.place s ctx with
      | some p => if p.1 / 128 == dp then some (r, p.1, p.2) else none
      | none => none
    else none

/-- The key of a round-robin place: die pair and class. -/
def rrKey (dp cls : Nat) : Nat := dp * 8 + cls

/-- The turns of a class: its 64 launch queues, then the 16 ready queues, which are class-1 queues (R235, R258; log
entry 98). -/
def turns : Nat := 80

/-- The candidate that comes first, from one turn on and wrapping. -/
def firstFrom (q : Nat) (l : List Nat) : Option Nat :=
  l.foldl (init := none) fun best x =>
    match best with
    | none => some x
    | some b => if (x + turns - q) % turns < (b + turns - q) % turns then some x else best

/-! ### Tasks (R258, R259, R262) -/

/-- The slice that serves a ready queue, and its die pair (R258, R290). -/
def readyDp (s : State) (ctx q : Nat) : Nat := sliceDp (substitute s.fuses.slices (16 * (ctx % 16) + q))

/-- The need of the team for a task or an entry. -/
def taskNeed (ctx lanesM1 nreg scratch : Nat) : Need := ⟨ctx, 1, lanesM1 + 1, nreg, roundTo 128 scratch, 0⟩

/-- The need of a control block's team, read at the block. -/
def tcbNeed (s : State) (ctx pa : Nat) : Need :=
  let w := memRead s (pa + 16) 8
  taskNeed ctx (field w 0 10) (field w 10 7) (field w 32 25)

/-- The need of a posted closure's team. -/
def cfgNeed (ctx : Nat) (cfg : DWord) : Need :=
  taskNeed ctx (field cfg.toNat 4 10) (field cfg.toNat 14 7) (field cfg.toNat 29 25)

/-- Where the next team of a ready queue goes. -/
def readyPlace (s : State) (dp : Nat) (n : Need) (r : ReadyQueue) : Option (Nat × Nat) :=
  chooseCore s n (dp * 128) 128 (dp * 128 + r.cursor) r.rotation none

/-- Whether the first entry of a ready queue could be placed now. -/
def readyFits (s : State) (ctx q : Nat) : Bool :=
  let dp := readyDp s ctx q
  match (getReady s ctx q).entries with
  | [] => false
  | .closure _ cfg _ _ :: _ => (readyPlace s dp (cfgNeed ctx cfg) (getReady s ctx q)).isSome
  | .tcb a _ _ :: _ =>
    match reach s ctx (BitVec.ofNat 64 a) .write true with
    | (.at_ pa, s) => (readyPlace s dp (tcbNeed s ctx pa) (getReady s ctx q)).isSome
    | (.wait p _, s) => !s.reqs.any fun r => r.ctx == ctx && r.page == p && r.askers.contains (.ready q)
    | (.held, _) => false
    | _ => true

/-- The ready queues that the die pair serves with an entry to dequeue, by their turns. -/
def tasksWait (s : State) (dp ctx : Nat) : List Nat :=
  ((getCtx s ctx).ready.filter fun q => readyDp s ctx q.1 == dp && readyFits s ctx q.1).map fun q => 64 + q.1 % 16

/-- Whose turn it is in a class of a die pair (R235). -/
def turnOf (s : State) (dp ctx cls : Nat) : Option Nat :=
  firstFrom (sget 0 s.rr (rrKey dp cls))
    ((placing s dp ctx cls).map (·.1.q) ++ if cls == 1 then tasksWait s dp ctx else [])

/-- The turn passes on from a queue. -/
def passTurn (s : State) (dp cls n : Nat) : State := { s with rr := sset 0 s.rr (rrKey dp cls) ((n + 1) % turns) }

/-- Serve one class of a die pair: a returning team first (R238), then its queues in turn. A turn of a ready queue is
taken by TASK_DEQUEUE. -/
def serveClass (s : State) (dp ctx cls : Nat) : Option State :=
  match returning s dp ctx cls with
  | (u, core, part) :: _ => some (returnTeam s core part u)
  | [] =>
    (turnOf s dp ctx cls).map fun n =>
      match (placing s dp ctx cls).find? fun x => x.1.q == n with
      | some x => placeRun (passTurn s dp cls n) ctx x.1 x.2.1 x.2.2
      | none => s

/-- TEAM_PLACEMENT: the highest class whose next team fits (R235). -/
def execTeamPlacement (dp : Nat) (s : State) : Out :=
  .next (match sget none s.running dp with
    | none => s
    | some ctx => ((List.range 8).findSome? (serveClass s dp ctx)).getD s)

/-- The queue after its first entry has been placed on a core. -/
def ReadyQueue.taken (r : ReadyQueue) (dp core part : Nat) : ReadyQueue :=
  { r with
    entries := r.entries.tail
    cursor := nextCore (dp * 128) 128 core - dp * 128
    rotation := sset 0 r.rotation core ((part + 1) % 4) }

/-- Start a task's team (R259): s20 and s21 are loaded, and the closure is applied with one frame that returns to
the task end. A check that fails ends the team as the fail action does (R261). -/
def startTask (s : State) (core part : Nat) (n : Need) (o : Origin) (h tcb seq : DWord) : State :=
  let t := newTeam s n o 0 0
  let t := { t with s := sset 0 (sset 0 t.s 20 tcb) 21 seq }
  let u := t.uid
  let s := placeNew s core part t
  match applyHandle s (s.getTeam u) h 0 0 0 with
  | .ok t => s.setTeam u t
  | .error c => failTeam s u (trapInfoOf c 0 0)

/-- TASK_DEQUEUE: the first entry of the queue, when the die pair runs the context and a core has room. A block
that cannot be reached is dropped from the queue (log entry 27). -/
def execTaskDequeue (ctx q : Nat) (s : State) : Out :=
  let dp := readyDp s ctx q
  let r := getReady s ctx q
  .next (if sget none s.running dp != some ctx then s
    else if (serveClass s dp ctx 0).isSome || !(returning s dp ctx 1).isEmpty ||
        turnOf s dp ctx 1 != some (64 + q % 16) then s
    else
      let s := passTurn s dp 1 (64 + q % 16)
      match r.entries with
      | [] => s
      | .closure h cfg _ seq :: _ =>
        match readyPlace s dp (cfgNeed ctx cfg) r with
        | none => s
        | some (core, part) =>
          startTask (setReady s ctx q (r.taken dp core part)) core part (cfgNeed ctx cfg) (.entry h) h 0 (seq.setWidth 64)
      | .tcb a _ seq :: _ =>
        match reach s ctx (BitVec.ofNat 64 a) .write true with
        | (.wait p m, s) => (newReq s 512 ctx p .write m [.ready q]).2
        | (.held, s) => s
        | (.bad pa, s) => noteBad s ctx pa
        | (.fatal, s) => setReady s ctx q { r with entries := r.entries.tail }
        | (.at_ pa, s) =>
          let n := tcbNeed s ctx pa
          match readyPlace s dp n r with
          | none => s
          | some (core, part) =>
            let s := setTcbState (setReady s ctx q (r.taken dp core part)) pa 3
            startTask s core part n (.task ctx a) (tcbClosure s pa) (BitVec.ofNat 64 a) (seq.setWidth 64))

/-! ### Completion and retirement (R73, R234, R250, R260) -/

/-- Every team of the run has retired. -/
def LaunchRun.over (r : LaunchRun) : Bool := r.placed == r.total && r.retired == r.total

/-- LAUNCH_COMPLETION_STAMP: a release by the cores that held teams, then the stamp; a perpetual ballast launch is
posted again at the tail of its queue. -/
def execLaunchCompletionStamp (ctx q : Nat) (s : State) : Out :=
  .next (match (getCtx s ctx).runs.find? fun r => r.q == q && r.over with
    | none => s
    | some r =>
      let again := r.ballast && !r.cancel
      if r.cores.any (dirtyHeld s) || (again && queueDepth ≤ (getQueue s ctx q).entries.length) then s
      else
        let s := carryToHost (r.cores.foldl l1Release s)
        let s := writeStamp s ctx r.stampAddr (launchStamp r.seq 0)
        let c := getCtx s ctx
        let s := setCtx s ctx { c with runs := c.runs.filter fun x => !(x.q == q && x.seq == r.seq) }
        if again then appendLaunch s ctx q r.blockVa else s)

/-- A copy command, a deferred store, a row command, a mirrored store or a fabric request of the team is still
under way (R73). -/
def Team.busy (s : State) (t : Team) : Bool :=
  t.blocked || t.rowOut != 0 || !t.deferred.isEmpty || !mirrorsDone s t.uid ||
    (s.channels.any fun c => c.2.queue.any fun x => x.uid == t.uid && c.1 / 2048 == t.ctx) ||
    s.fabric.outstanding.any fun r => r.who == .team t.uid

/-- What the team's work leaves when it retires: a launch counts it, a task is DONE (R260), an entry's reference is
dropped (R250). -/
def closeOrigin (s : State) (u : Nat) : State :=
  match (s.getTeam u).origin with
  | .launch ctx q seq =>
    let c := getCtx s ctx
    setCtx s ctx { c with
      runs := c.runs.map fun r => if r.q == q && r.seq == seq then { r with retired := r.retired + 1 } else r }
  | .task ctx tcb => startEnd (releaseCore s u) ctx (BitVec.ofNat 64 tcb) none
  | .entry h => dropRef s h

/-! ### Swapping and the ballast (R238, R240) -/

/-- The needs of teams of the running context that wait to be placed on a core, with the partition that a launch maps
its next team to. -/
def waitingNeeds (s : State) (ctx core : Nat) : List (Need × Option Nat) :=
  ((getCtx s ctx).runs.filterMap fun r =>
    if r.open_ && r.coreFirst ≤ core && core < r.coreFirst + r.coreCount then
      some (r.need ctx, r.mapped (r.teamId (r.point r.placed)))
    else none) ++
  (s.teams.filterMap fun e =>
    if e.2.ctx == ctx && e.2.placeable && e.2.core / 128 == core / 128 &&
        (e.2.core == core || !(e.2.savedHalted || e.2.bound s)) then
      some (e.2.need, if e.2.savedHalted then some e.2.part else none)
    else none) ++
  ((getCtx s ctx).ready.filterMap fun q =>
    if readyDp s ctx q.1 != core / 128 then none
    else
      match q.2.entries with
      | .closure _ cfg _ _ :: _ => some (cfgNeed ctx cfg, none)
      | .tcb a _ _ :: _ =>
        match reach s ctx (BitVec.ofNat 64 a) .write true with
        | (.at_ pa, s) => some (tcbNeed s ctx pa, none)
        | _ => none
      | [] => none)

/-- SWAP_OUT (R238): a team parked beyond the threshold, where another team does not fit on its core. w.save is the place
that Stratus assigns for its image (R285). -/
def execSwapOut (w : SwapTurn) (s : State) : Out :=
  let t := s.getTeam w.uid
  .next (if t.state != .parked || !coreOpen s t.core t.ctx || w.save % 4096 != 0 || !imageFree s w.uid w.save then s
    else if (s.clock - t.parkedSince).toNat < (getCtx s t.ctx).swapThreshold.toNat then s
    else if (waitingNeeds s t.ctx t.core).any fun n => wantsRoom s t.core n.1 n.2 then swapTeam s w.uid w.save
    else s)

/-- BALLAST_SWAP_OUT (R240): a ballast team at a clause boundary, where a team of another class lacks a slot. -/
def execBallastSwapOut (w : SwapTurn) (s : State) : Out :=
  let t := s.getTeam w.uid
  .next (if t.cls != 7 || !t.resident || t.state == .halted || w.save % 4096 != 0 || !imageFree s w.uid w.save || !coreOpen s t.core t.ctx ||
      !((t.state == .ready && t.atBoundary && !t.blocked) || t.state == .parked) then s
    else if (waitingNeeds s t.ctx t.core).any fun n => n.1.cls != 7 && wantsSlot s t.core n.1 n.2 then swapTeam s w.uid w.save
    else s)

/-- BALLAST_GATING (R240): a setpoint or enable that was written takes effect, avg is updated, and the controller
gates ballast issue or lets it be; while a die pair is throttled it does not raise it (R320). -/
def execBallastGating (avg : BitVec 12) (gate : Bool) (s : State) : Out :=
  let p := s.pset
  let p := match p.next with
    | some (sp, en) => { p with setpoint := sp, enable := en, next := none }
    | none => p
  let throttled := s.thermal.any fun t => t.2.step != 0
  .next { s with pset := { p with avg := avg, gated := (gate || (throttled && p.gated)) && p.enable } }

/-- PSET as written (Table 12-3). -/
def psetWrite (s : State) (value : DWord) : State :=
  { s with pset := { s.pset with next := some (value.setWidth 12, value.getLsbD 31) } }

/-- PSET_WRITE. -/
def execPsetWrite (value : DWord) (s : State) : Out := .next (psetWrite s value)

/-- PSET as it reads (Table 12-3). -/
def psetWord (s : State) : DWord :=
  BitVec.ofNat 64 (s.pset.setpoint.toNat + (if s.pset.enable then 2 ^ 31 else 0) + s.pset.avg.toNat * 2 ^ 32)

end Sys2Proof.Machine
end

