-- ==== Sys2Proof/Machine/Elementary.lean ====
section
/-! DEFINITION. The exact values of FEX2, FLG2 and FTANH (R93) as fixed-point numbers of 384 fraction bits, from which
the bound of 2 ulp is reckoned (log entry 8). -/

namespace Sys2Proof.Machine

/-- One, as a fixed-point number. -/
def fxOne : Nat := 2 ^ 384

/-- The natural logarithm of 2. -/
def fxLn2 : Nat :=
  0xB17217F7D1CF79ABC9E3B39803F2F6AF40F343267298B62D8A0D175B8BAAFA2BE7B876206DEBAC98559552FB4AFA1B10

/-- m * 2^x, rounded down. -/
def toFx (m : Nat) (x : Int) : Nat :=
  if 0 ≤ x + 384 then m * 2 ^ (x + 384).toNat else m / 2 ^ (-(x + 384)).toNat

/-- 2^f for a fraction f: the exponential series of f ln 2. -/
def exp2Frac (f : Nat) : Nat :=
  let y := f * fxLn2 / fxOne
  ((List.range 90).foldl (init := (fxOne, fxOne)) fun acc n =>
    let term := acc.2 * y / (fxOne * (n + 1))
    (acc.1 + term, term)).1

/-- log2 of u, 1 to 2, in units of 2^-200: bit by bit, by squaring. -/
def log2Frac (u : Nat) : Nat :=
  ((List.range 200).foldl (init := (0, u)) fun acc _ =>
    let v := acc.2 * acc.2 / fxOne
    if 2 * fxOne ≤ v then (2 * acc.1 + 1, v / 2) else (2 * acc.1, v)).1

/-- 2^x for x = (-1)^n m 2^e. -/
def exp2Val (n : Bool) (m : Nat) (e : Int) : FVal :=
  let x : Int := if n then -(toFx m e : Int) else toFx m e
  .fin false (exp2Frac (x % fxOne).toNat) (max (x / fxOne) (-1000) - 384)

/-- log2 of m 2^e, m > 0. -/
def log2Val (m : Nat) (e : Int) : FVal :=
  let k := floorLog m e
  let x : Int := k * 2 ^ 200 + log2Frac (toFx m (e - k))
  .fin (decide (x < 0)) x.natAbs (-200)

/-- tanh of (-1)^n m 2^e: with z = e^(2|x|), (z - 1) / (z + 1). From |x| = 128 on the largest number below 1. -/
def tanhVal (n : Bool) (m : Nat) (e : Int) : FVal :=
  if 7 ≤ floorLog m e then .fin n (fxOne - 1) (-384)
  else
    let y := toFx m (e + 1) * fxOne / fxLn2
    let z := exp2Frac (y % fxOne) * 2 ^ (y / fxOne)
    .fin n ((z - fxOne) * fxOne / (z + fxOne)) (-384)

/-- The magnitude code of a value rounded toward zero. -/
def floorCode (t : FFmt) (v : FVal) : Nat := (roundV t .rz v).1 % t.signW

end Sys2Proof.Machine
end

