-- ==== Sys2Proof/Machine/Flags.lean ====
section
/-! DEFINITION. Flag computations: FPFLAGS (Table 6-2, R92) and the predicates that comparisons write
(R354, R359, R416). -/

namespace Sys2Proof.Machine

/-- OR of flags. -/
def orAll (l : List Flags) : Flags := l.foldl (· ||| ·) 0

/-- An integer comparison over w bits (Table 20-12). -/
def icmpHolds (c : ICond) (signed : Bool) {w : Nat} (x y : BitVec w) : Bool :=
  let lt := fun (x y : BitVec w) => if signed then x.slt y else x.ult y
  match c with
  | .eq => x == y
  | .ne => x != y
  | .lt => lt x y
  | .le => !lt y x
  | .gt => lt y x
  | .ge => !lt x y

/-- The comparison of a condition code of the immediate form, and whether it is signed (Table 20-12). -/
def immCond : ICondImm → ICond × Bool
  | .eq => (.eq, true)
  | .ne => (.ne, true)
  | .lt => (.lt, true)
  | .le => (.le, true)
  | .gt => (.gt, true)
  | .ge => (.ge, true)
  | .ltu => (.lt, false)
  | .leu => (.le, false)
  | .gtu => (.gt, false)
  | .geu => (.ge, false)

/-- The format of one element of a floating-point type, and its elements in a 32-bit word (Table 3-5). -/
def eltFmt : FTy → FFmt
  | .f32 => fmtF32
  | .bf16x2 => fmtBf16
  | .f16x2 => fmtF16

def elts (ty : FTy) (w : Word) : List Nat :=
  match ty with
  | .f32 => [w.toNat]
  | _ => [lo16 w, hi16 w]

/-- Elements packed into a word. -/
def packElts (ty : FTy) (es : List Nat) : Word :=
  match ty with
  | .f32 => BitVec.ofNat 32 (es.headD 0)
  | _ => halves (es.headD 0) (es.tail.headD 0)

/-- FCMP in one lane: the condition holds for every element; the flags of every element (R354). -/
def fcmpLane (c : FCond) (ty : FTy) (x y : Word) : Bool × Flags :=
  let rs := (List.zip (elts ty x) (elts ty y)).map fun e => fCmp (eltFmt ty) c e.1 e.2
  (rs.all (·.1), orAll (rs.map (·.2)))

/-- VOTE's condition over the active lanes' values (R416): 64-bit views of 32-bit or pair values. -/
def voteHolds (mode : VoteMode) (vals : List DWord) : Bool :=
  match mode with
  | .any => vals.any (· != 0)
  | .all => vals.all (· != 0)
  | .none => vals.all (· == 0)
  | .uni => match vals with | [] => true | v :: r => r.all (· == v)

end Sys2Proof.Machine
end

