-- ==== Sys2Proof/Machine/FloatOps.lean ====
section
/-! DEFINITION. The floating-point words (R90 to R93, R353 to R357). -/

namespace Sys2Proof.Machine

/-! ### Arithmetic -/

/-- The type and the rounding mode of an arithmetic ty field (Table 3-5). -/
def arithTy : FArith → FTy × Rnd
  | .f32 m => (.f32, m)
  | .bf16x2 => (.bf16x2, .rn)
  | .f16x2 => (.f16x2, .rn)

/-- An element operation: format, mode, a, b and the old d. -/
abbrev EltFn := FFmt → Rnd → Nat → Nat → Nat → Nat × Flags

def eltAdd : EltFn := fun f m a b _ => fAdd f m a b
def eltSub : EltFn := fun f m a b _ => fSub f m a b
def eltMul : EltFn := fun f m a b _ => fMul f m a b
def eltFma : EltFn := fun f m a b d => fFma f m a b d
def eltMin : EltFn := fun f _ a b _ => fMinMax f false a b
def eltMax : EltFn := fun f _ a b _ => fMinMax f true a b

/-- One lane: every element of the type (R90, R353). -/
def fltLane (ty : FTy) (m : Rnd) (f : EltFn) (a b d : Word) : Word × Flags :=
  let rs := (List.zip (elts ty a) (List.zip (elts ty b) (elts ty d))).map fun e =>
    f (eltFmt ty) m e.1 e.2.1 e.2.2
  (packElts ty (rs.map (·.1)), orAll (rs.map (·.2)))

/-- A floating-point word whose result is written at once (R353, R356). -/
def Team.fltWord (t : Team) (ty : FTy) (m : Rnd) (f : EltFn) (d : VReg) (a b : Reg) : Team :=
  t.wordLanes.foldl (init := t) fun t' l =>
    let r := fltLane ty m f (t.src a l) (t.src b l) (t.lane d.val l)
    (t'.setLane32 d.val l r.1).orFlags r.2

def execFadd (d : VReg) (a b : Reg) (ty : FArith) (s : State) : Out :=
  teamWord (.fadd d a b ty) s fun t => t.fltWord (arithTy ty).1 (arithTy ty).2 eltAdd d a b
def execFsub (d : VReg) (a b : Reg) (ty : FArith) (s : State) : Out :=
  teamWord (.fsub d a b ty) s fun t => t.fltWord (arithTy ty).1 (arithTy ty).2 eltSub d a b
def execFmul (d : VReg) (a b : Reg) (ty : FArith) (s : State) : Out :=
  teamWord (.fmul d a b ty) s fun t => t.fltWord (arithTy ty).1 (arithTy ty).2 eltMul d a b
def execFfma (d : VReg) (a b : Reg) (ty : FArith) (s : State) : Out :=
  teamWord (.ffma d a b ty) s fun t => t.fltWord (arithTy ty).1 (arithTy ty).2 eltFma d a b
def execFmin (d : VReg) (a b : Reg) (ty : FTy) (s : State) : Out :=
  teamWord (.fmin d a b ty) s fun t => t.fltWord ty .rn eltMin d a b
def execFmax (d : VReg) (a b : Reg) (ty : FTy) (s : State) : Out :=
  teamWord (.fmax d a b ty) s fun t => t.fltWord ty .rn eltMax d a b

/-- FCMP (R354). -/
def execFcmp (c : FCond) (p : PReg) (a b : Reg) (ty : FTy) (s : State) : Out :=
  teamWord (.fcmp c p a b ty) s fun t =>
    (t.pwrite p.val t.wordLanes fun l => (fcmpLane c ty (t.src a l) (t.src b l)).1).orFlags
      (orAll (t.wordLanes.map fun l => (fcmpLane c ty (t.src a l) (t.src b l)).2))

/-! ### Transcendental functions (R93, R357) -/

/-- The five functions, numbered as in Config. -/
inductive Trans where
  | rcp | rsq | ex2 | lg2 | tanh
  deriving DecidableEq, Repr

/-- Table 6-3: the special inputs' results and flags. -/
def transSpecial (g : Trans) (t : FFmt) (v : FVal) : Option (Nat × Flags) :=
  let one := t.bias * 2 ^ t.f
  match v with
  | .nan sig => some (t.nanCode, if sig then flNv else 0)
  | .inf n =>
    match g with
    | .rcp => some (signed t n 0, 0)
    | .rsq => some (if n then (t.nanCode, flNv) else (0, 0))
    | .ex2 => some (if n then 0 else t.infCode, 0)
    | .lg2 => some (if n then (t.nanCode, flNv) else (t.infCode, 0))
    | .tanh => some (signed t n one, 0)
  | .fin n 0 _ =>
    match g with
    | .rcp | .rsq => some (signed t n t.infCode, flDz)
    | .ex2 => some (one, 0)
    | .lg2 => some (signed t true t.infCode, flDz)
    | .tanh => some (signed t n 0, 0)
  | .fin n m x =>
    match g with
    | .rsq => if n then some (t.nanCode, flNv) else none
    | .lg2 =>
      if n then some (t.nanCode, flNv)
      else if m == 2 ^ m.log2 && floorLog m x == 0 then some (0, 0)
      else none
    | _ => none

/-- How y * 2^z compares with v ^ (-1/k), v = m * 2^x: its k-th power times v with 1. -/
def cmpRoot (k m : Nat) (x : Int) (y : Nat) (z : Int) : Ordering :=
  let e := (k : Int) * z + x
  if 0 ≤ e then compare (y ^ k * m * 2 ^ e.toNat) 1 else compare (y ^ k * m) (2 ^ (-e).toNat)

/-- The value of magnitude code c is at most v ^ (-1/k), v = m * 2^x. -/
def atMostRoot (t : FFmt) (k m : Nat) (x : Int) (c : Nat) : Bool :=
  match decF t c with
  | .fin _ y z => cmpRoot k m x y z != .gt
  | _ => false

/-- The largest finite magnitude code that is at most v ^ (-1/k), found bit by bit. -/
def rootCode (t : FFmt) (k m : Nat) (x : Int) : Nat :=
  ((List.range (t.e + t.f)).reverse).foldl (init := 0) fun c i =>
    if c + 2 ^ i ≤ t.maxFin && atMostRoot t k m x (c + 2 ^ i) then c + 2 ^ i else c

/-- A magnitude code within 2 ulp of a value (R93): c is the value rounded toward zero, exact says that c is the value,
step picks. Where the next code begins a binade, the one after it lies further than 2 ulp; a value that rounds toward
zero below the largest finite one does not overflow. -/
def pickNear (t : FFmt) (c : Nat) (exact : Bool) (step : Nat) : Nat :=
  let high := if (c + 1) % 2 ^ t.f == 0 && 2 ^ t.f < c + 1 then c + 1 else c + 2
  let cap := if c == t.maxFin && !exact then t.infCode else t.maxFin
  min (min high cap) ((if exact then c - 2 else c - 1) + step)

/-- FRCP (k = 1) and FRSQ (k = 2) of m * 2^x: the magnitude code within 2 ulp that step picks. A root of 2^(emax + 1)
or more overflows. -/
def rootNear (t : FFmt) (k m : Nat) (x : Int) (step : Nat) : Nat :=
  let c := rootCode t k m x
  if cmpRoot k m x 1 (t.bias + 1) != .gt then t.infCode
  else
    pickNear t c (match decF t c with | .fin _ y z => cmpRoot k m x y z == .eq | _ => false) step

/-- The flags of a result outside Table 6-3 (R93): nx where it differs from the exact value, of where it
overflowed, uf where it is also below the least normal magnitude. -/
def transFlags (t : FFmt) (exact : Bool) (mag : Nat) : Flags :=
  if mag == t.infCode then flOf ||| flNx
  else if exact then 0
  else flNx ||| (if mag < 2 ^ t.f then flUf else 0)

/-- The result is the exact value: v = m * 2^x, r the result. -/
def transExact (g : Trans) (n : Bool) (m : Nat) (x : Int) (r : FVal) : Bool :=
  let pow2 := m == 2 ^ m.log2
  match g, r with
  | .rcp, .fin _ y z => pow2 && y == 2 ^ y.log2 && floorLog y z + floorLog m x == 0
  | .rsq, .fin _ y z => pow2 && y == 2 ^ y.log2 && 2 * floorLog y z + floorLog m x == 0
  | .ex2, .fin _ y z =>
    let (k, inexact) := toIntV .rz n m x
    !inexact && y == 2 ^ y.log2 && floorLog y z == k
  | .lg2, r => pow2 && cmpV r (.fin (decide (floorLog m x < 0)) (floorLog m x).natAbs 0) == some .eq
  | .tanh, _ => false
  | _, _ => false

/-- A code at most 2 ulp from the value, of which exact says that a code is it. -/
def nearCode (t : FFmt) (v : FVal) (exact : Bool) (step : Nat) : Nat := pickNear t (floorCode t v) exact step

/-- One element (R93). The reciprocal of binary32 2.0 is stated exactly (R357); FEX2 of 2^emax + 1 and above
overflows. -/
def transElt (g : Trans) (ty : FTy) (c : Nat) : Nat × Flags :=
  let t := eltFmt ty
  let v := decF t c
  match transSpecial g t v with
  | some r => r
  | none =>
    match v with
    | .fin n m x =>
      let pow2 := m == 2 ^ m.log2
      let code :=
        match g with
        | .rcp =>
          if ty == .f32 && !n && m == 2 ^ 23 && floorLog m x == 1 then 0x3F000000
          else signed t n (rootNear t 1 m x (Config.transStep 0 ty c).val)
        | .rsq => rootNear t 2 m x (Config.transStep 1 ty c).val
        | .ex2 =>
          let whole := toIntV .rz n m x
          if !n && (t.bias + 1 : Int) ≤ whole.1 then t.infCode
          else nearCode t (exp2Val n m x) (!whole.2) (Config.transStep 2 ty c).val
        | .lg2 =>
          signed t (decide (floorLog m x < 0)) (nearCode t (log2Val m x) pow2 (Config.transStep 3 ty c).val)
        | .tanh => signed t n (nearCode t (tanhVal n m x) false (Config.transStep 4 ty c).val)
      (code, transFlags t (transExact g n m x (decF t code)) (code % t.signW))
    | _ => (t.nanCode, 0)

/-- One lane of a transcendental word. -/
def transLane (g : Trans) (ty : FTy) (a : Word) : Word × Flags :=
  let rs := (elts ty a).map (transElt g ty)
  (packElts ty (rs.map (·.1)), orAll (rs.map (·.2)))

/-- A transcendental word: long-latency, its flags are set at the commit (R92, R357). -/
def transWord (i : Instr) (g : Trans) (d : VReg) (a : Reg) (look : Nat) (ty : FTy) (s : State) : Out :=
  issue i s fun s => s.modTm fun t =>
    let rs := t.wordLanes.map fun l => (l, transLane g ty (t.src a l))
    let flags := fun q => orAll ((rs.filter fun r => r.1 / 32 == q).map (·.2.2))
    (t.countSpan.pend .trans look (rs.map fun r => (r.1, [(t.frame + d.val, r.2.1)])) flags []).advance

def execFrcp (d : VReg) (a : Reg) (look : Fin 16) (ty : FTy) (s : State) : Out :=
  transWord (.frcp d a look ty) .rcp d a look.val ty s
def execFrsq (d : VReg) (a : Reg) (look : Fin 16) (ty : FTy) (s : State) : Out :=
  transWord (.frsq d a look ty) .rsq d a look.val ty s
def execFex2 (d : VReg) (a : Reg) (look : Fin 16) (ty : FTy) (s : State) : Out :=
  transWord (.fex2 d a look ty) .ex2 d a look.val ty s
def execFlg2 (d : VReg) (a : Reg) (look : Fin 16) (ty : FTy) (s : State) : Out :=
  transWord (.flg2 d a look ty) .lg2 d a look.val ty s
def execFtanh (d : VReg) (a : Reg) (look : Fin 16) (ty : FTy) (s : State) : Out :=
  transWord (.ftanh d a look ty) .tanh d a look.val ty s

end Sys2Proof.Machine
end

