-- ==== Sys2Proof/Machine/Convert.lean ====
section
/-! DEFINITION. CVT, PACKMX, UNPKMX and PLANE (R96 to R101, R350, R351, R385, R387, R415). -/

namespace Sys2Proof.Machine

/-! ### CVT -/

/-- An exact integer as a value. -/
def intV (k : Int) : FVal := .fin (decide (k < 0)) k.natAbs 0

/-- Rounded to an integral binary32 value: infinities are kept (code 26). -/
def rint (m : Rnd) : FVal → Nat × Flags
  | .fin n k x => (signed fmtF32 n (roundF fmtF32 .rn false false (quantize m n k x 0).1 0).1, 0)
  | v => roundV fmtF32 .rn v

/-- A conversion to an integer of w bits (R351). -/
def cvtInt (m : Rnd) (w : Nat) (sg : Bool) (v : FVal) : Nat × Flags :=
  let r := if sg then toRange m (-(2 ^ (w - 1))) (2 ^ (w - 1) - 1) v else toRange m 0 (2 ^ w - 1) v
  ((BitVec.ofInt w r.1).toNat, r.2)

/-- Table 20-5: the result of a conversion code on the 64-bit view of the source. -/
def cvt (code : Nat) (m : Rnd) (x : DWord) : Nat × Flags :=
  let w := x.toNat % 2 ^ 32
  let f := decF fmtF32 w
  match code with
  | 0 => cvtInt m 32 true f
  | 1 => cvtInt m 32 false f
  | 2 => roundV fmtF32 m (intV (lo32 x).toInt)
  | 3 => roundV fmtF32 m (intV w)
  | 4 => cvtInt m 64 true f
  | 5 => cvtInt m 64 false f
  | 6 => roundV fmtF32 m (intV x.toInt)
  | 7 => roundV fmtF32 m (intV x.toNat)
  | 8 => toNarrow fmtF16 m false f
  | 9 => toNarrow fmtBf16 m false f
  | 10 => roundV fmtF32 .rn (decF fmtF16 (w % 2 ^ 16))
  | 11 => roundV fmtF32 .rn (decF fmtF16 (w / 2 ^ 16))
  | 12 => roundV fmtF32 .rn (decF fmtBf16 (w % 2 ^ 16))
  | 13 => roundV fmtF32 .rn (decF fmtBf16 (w / 2 ^ 16))
  | 14 =>
    let a := toNarrow fmtBf16 .rn false (decF fmtF16 (w % 2 ^ 16))
    let b := toNarrow fmtBf16 .rn false (decF fmtF16 (w / 2 ^ 16))
    (b.1 * 2 ^ 16 + a.1, a.2 ||| b.2)
  | 15 =>
    let a := toNarrow fmtF16 .rn false (decF fmtBf16 (w % 2 ^ 16))
    let b := toNarrow fmtF16 .rn false (decF fmtBf16 (w / 2 ^ 16))
    (b.1 * 2 ^ 16 + a.1, a.2 ||| b.2)
  | 16 => toNarrow8 fmtE4M3 true f
  | 17 => toNarrow8 fmtE4M3 false f
  | 18 => toNarrow8 fmtE5M2 true f
  | 19 => toNarrow8 fmtE5M2 false f
  | 20 => toNarrow8 fmtE2M1 true f
  | 21 => cvtInt .rn 8 true f
  | 22 => roundV fmtF32 .rn (decF fmtE4M3 (w % 2 ^ 8))
  | 23 => roundV fmtF32 .rn (decF fmtE5M2 (w % 2 ^ 8))
  | 24 => roundV fmtF32 .rn (decF fmtE2M1 (w % 2 ^ 4))
  | 25 => roundV fmtF32 .rn (intV (int8 w))
  | _ => rint m f

/-- CVT (R350): codes 4 and 5 write a pair, codes 6 and 7 read one. -/
def execCvt (d : VReg) (a : Reg) (code : Fin 27) (m : Rnd) (s : State) : Out :=
  teamWord (.cvt d a code m) s fun t =>
    t.wordLanes.foldl (init := t) fun t' l =>
      let x := if code.val == 6 || code.val == 7 then t.src64 a l else zext32 (t.src a l)
      let r := cvt code.val m x
      (if code.val == 4 || code.val == 5 then t'.setLane64 d.val l (BitVec.ofNat 64 r.1)
        else t'.setLane32 d.val l (BitVec.ofNat 32 r.1)).orFlags r.2

/-! ### Blocks of one pass -/

/-- The mask words of the lanes a word acts on. -/
def Team.wordPasses (t : Team) : List Nat := distinct (t.wordLanes.map (· / 32))

/-- The 32 datapath lanes of a pass: the source where the lane is active, else 0 (R385, R387). -/
def Team.passSrc (t : Team) (a : Reg) (q : Nat) : List Word :=
  (List.range 32).map fun i => if t.active.getLsbD (32 * q + i) then t.src a (32 * q + i) else 0

/-- A word that forms, from the 32 lanes of each pass, a result for some of them and flags. -/
def Team.blockWord (t : Team) (d : VReg) (a : Reg) (f : List Word → (Nat → Option Word) × (Nat → Flags)) :
    Team :=
  t.wordPasses.foldl (init := t) fun t' q =>
    let r := f (t.passSrc a q)
    (t.wordLanes.filter fun l => l / 32 == q).foldl (init := t') fun t' l =>
      let t' := t'.orFlags (r.2 (l % 32))
      match r.1 (l % 32) with
      | some x => t'.setLane32 d.val l x
      | none => t'

/-- PACKMX on one pass (R385): nx for the lane's inexact element, nv for the block. -/
def packBlock (fmt : MxFmt) (xs : List Word) : (Nat → Option Word) × (Nat → Flags) :=
  let vs := xs.map fun x => decF fmtF32 x.toNat
  let b := mxBlock fmt vs
  let inf := vs.any fun v => match v with | .inf _ => fmt != .e5m2 | _ => false
  let nv := if vs.any isSig || inf then flNv else 0
  (fun i => some (BitVec.ofNat 32 (b.1 * 256 + (b.2.1[i]?).getD 0)),
    fun i => nv ||| (if (b.2.2[i]?).getD false then flNx else 0))

/-- PACKMX (R385). -/
def execPackmx (d : VReg) (a : Reg) (fmt : MxFmt) (s : State) : Out :=
  teamWord (.packmx d a fmt) s fun t => t.blockWord d a (packBlock fmt)

/-- UNPKMX in one lane (R415). -/
def unpackLane (fmt : MxFmt) (w : Word) : Word × Flags :=
  let x := field w.toNat 8 8
  let v := mxVal fmt (w.toNat % 256)
  if x == 255 || isNanV v then (BitVec.ofNat 32 fmtF32.nanCode, 0)
  else
    let r := roundV fmtF32 .rn (scaleV ((x : Int) - 127) v)
    (BitVec.ofNat 32 r.1, r.2)

/-- UNPKMX (R415). -/
def execUnpkmx (d : VReg) (a : Reg) (fmt : MxFmt) (s : State) : Out :=
  teamWord (.unpkmx d a fmt) s fun t =>
    t.wordLanes.foldl (init := t) fun t' l =>
      let r := unpackLane fmt (t.src a l)
      (t'.setLane32 d.val l r.1).orFlags r.2

/-- The word whose bit i is bit k of the i-th source. -/
def planeOf (xs : List Word) (k : Nat) : Word :=
  (xs.zipIdx).foldl (fun w x => if x.1.getLsbD k then w ||| BitVec.ofNat 32 (2 ^ x.2) else w) 0

/-- PLANE pack on one pass (R387): lanes 0 to 7 receive a plane each. -/
def planePackBlock (xs : List Word) : (Nat → Option Word) × (Nat → Flags) :=
  (fun i => if i < 8 then some (planeOf xs (7 - i)) else none, fun _ => 0)

/-- PLANE unpack of j planes on one pass (R387, R101). -/
def planeUnpackBlock (j : Nat) (xs : List Word) : (Nat → Option Word) × (Nat → Flags) :=
  (fun i =>
    let v := (xs.take j).foldl (fun v x => 2 * v + (if x.getLsbD i then 1 else 0)) 0
    some (BitVec.ofInt 32 (simm j v)),
    fun _ => 0)

/-- PLANE in pack mode (R387). -/
def execPlanePack (d : VReg) (a : Reg) (s : State) : Out :=
  teamWord (.planePack d a) s fun t => t.blockWord d a planePackBlock

/-- PLANE in unpack mode (R387). -/
def execPlaneUnpack (d : VReg) (a : Reg) (j : Fin 16) (s : State) : Out :=
  teamWord (.planeUnpack d a j) s fun t => t.blockWord d a (planeUnpackBlock j.val)

end Sys2Proof.Machine
end

