-- ==== Sys2Proof/Machine/Weights.lean ====
section
/-! DEFINITION. Weight images (R103 to R105), accumulators (R102), and the sums of the array (R101, R106 to R108). -/

namespace Sys2Proof.Machine

/-! ### Images -/

/-- The formats of weights (Table 6-6). -/
inductive WFmt where
  | mx (f : MxFmt)
  | bp8
  deriving DecidableEq, Repr

def wFmtOf : Nat → Option WFmt
  | 0 => some (.mx .e4m3) | 1 => some (.mx .e5m2) | 2 => some (.mx .fp4) | 3 => some (.mx .int8) | 4 => some .bp8
  | _ => none

/-- Values kept in each group of 64 rows (Table 6-6). -/
def keepOf : Nat → Option Nat
  | 0 => some 64 | 1 => some 8 | 2 => some 16 | 3 => some 24 | 4 => some 32 | 5 => some 48 | _ => none

/-- Bytes of a group's kept values. -/
def valueBytes (f : WFmt) (planes n : Nat) : Nat :=
  match f with
  | .mx .fp4 => n / 2
  | .mx _ => n
  | .bp8 => planes * (n / 8)

/-- A weight image read from memory: each column has 128 codes and four scales, the lowest K-rows first. -/
structure Image where
  fmt : WFmt
  keep : Nat
  planes : Nat
  cols : List (List Nat × List Nat)
  deriving DecidableEq, Repr

/-- The code of kept element i of a group (R104): for BP8, plane 0 is the sign. -/
def keptCode (f : WFmt) (planes n : Nat) (vals : List Byte) (i : Nat) : Nat :=
  let b := fun k : Nat => ((vals[k]?).getD 0).toNat
  match f with
  | .mx .fp4 => b (i / 2) / 16 ^ (i % 2) % 16
  | .mx _ => b i
  | .bp8 => (List.range planes).foldl (fun c q => 2 * c + b (q * (n / 8) + i / 8) / 2 ^ (i % 8) % 2) 0

/-- One group record (R104): the codes of its 64 rows and its two scales; none where it breaks the rule. -/
def parseGroup (f : WFmt) (keep planes n : Nat) (r : List Byte) : Option (List Nat × List Nat) :=
  let p := if keep == 0 then 0 else 8
  let mask := if keep == 0 then 2 ^ 64 - 1 else ofBytes (r.take 8)
  let rows := (List.range 64).filter mask.testBit
  let scales := (r.drop p).take 8
  let vals := r.drop (p + 8)
  let used := valueBytes f planes n
  if rows.length != n || !((scales.drop 2).all (· == 0)) || !((vals.drop used).all (· == 0)) then none
  else
    some ((List.range 64).map fun k =>
        if mask.testBit k then keptCode f planes n vals ((rows.takeWhile (· < k)).length) else 0,
      (scales.take 2).map (·.toNat))

/-- The group records of one column, one for each 64 rows. -/
def parseGroups (f : WFmt) (keep planes n len : Nat) : Nat → List Byte → Option (List Nat × List Nat)
  | 0, _ => some ([], [])
  | g + 1, bs => do
    let a ← parseGroup f keep planes n (bs.take len)
    let r ← parseGroups f keep planes n len g (bs.drop len)
    pure (a.1 ++ r.1, a.2 ++ r.2)

/-- The columns of an image. -/
def parseCols (f : WFmt) (keep planes n len groups : Nat) : Nat → List Byte → Option (List (List Nat × List Nat))
  | 0, _ => some []
  | c + 1, bs => do
    let (codes, scales) ← parseGroups f keep planes n len groups (bs.take (groups * len))
    let r ← parseCols f keep planes n len groups c (bs.drop (groups * len))
    pure ((codes ++ List.replicate (128 - codes.length) 0, scales ++ List.replicate (4 - scales.length) 127) :: r)

/-- The image in some bytes (R103 to R105): none for an image error. -/
def parseImage (bs : List Byte) : Option Image := do
  let h := ofBytes (bs.take 16)
  let f ← wFmtOf (field h 20 4)
  let keep := field h 17 3
  let n ← keepOf keep
  let planes := field h 13 4
  let groups := field h 32 1 + 1
  let ncols := field h 0 8 + 1
  let len := roundTo 8 ((if keep == 0 then 0 else 8) + 8 + valueBytes f planes n)
  let size := 16 + ncols * groups * len
  if field h 96 32 != 0 || field h 33 31 != 0 || field h 8 5 != 0 || field h 24 8 != 0xC9 ||
      128 < ncols || (if f == .bp8 then planes < 2 || 8 < planes else planes != 0) ||
      field h 64 32 != size || bs.length != size || 32768 < size then none
  else
    let cols ← parseCols f keep planes n len groups ncols (bs.drop 16)
    pure ⟨f, keep, planes, cols⟩

/-- A slot whose image was never loaded holds zero weights (R122). DESIGN CHOICE: it has 128 columns (log entry 116). -/
def Image.zero : Image :=
  ⟨.mx .e4m3, 0, 0, List.replicate 128 (List.replicate 128 0, List.replicate 4 127)⟩

/-! ### Blocks of 32 elements -/

/-- A block: elements as whole multiples of 2^x, special values in their places, the scale, and the raw codes. -/
structure Block where
  ints : List Int
  x : Int
  specials : List (Option FVal)
  scale : Nat
  deriving DecidableEq, Repr

/-- A finite value as a multiple of 2^x; x is at most its exponent. -/
def atPoint (x : Int) : FVal → Int
  | .fin n m y => sgn n m * 2 ^ (y - x).toNat
  | _ => 0

def specialOf : FVal → Option FVal
  | .fin _ _ _ => none
  | v => some v

/-- A block of decoded elements whose values are multiples of 2^x. -/
def blockOf (x : Int) (vs : List FVal) (scale : Nat) : Block := ⟨vs.map (atPoint x), x, vs.map specialOf, scale⟩

/-- The fixed point of an MX format. -/
def mxPoint : MxFmt → Int
  | .int8 => -6
  | f => (mxFfmt f).qMin

/-- A block of MX codes. -/
def mxBlockOf (f : MxFmt) (codes : List Nat) (scale : Nat) : Block := blockOf (mxPoint f) (codes.map (mxVal f)) scale

/-- A block of BP8 codes of s stored planes read at the first j (R101). -/
def bpBlockOf (s j : Nat) (codes : List Nat) (scale : Nat) : Block :=
  let q := codes.map fun c => simm j (c / 2 ^ (s - j) % 2 ^ j)
  ⟨q, 8 - (j : Int), codes.map fun _ => none, scale⟩

/-- K-block b of column n of an image read at j planes. -/
def Image.block (g : Image) (j n b : Nat) : Block :=
  let c := (g.cols[n]?).getD ([], [])
  let codes := (c.1.drop (32 * b)).take 32
  let sc := (c.2[b]?).getD 127
  match g.fmt with
  | .mx f => mxBlockOf f codes sc
  | .bp8 => bpBlockOf g.planes j codes sc

/-! ### Sums (R106 to R108) -/

/-- The exact sum of products. -/
def dot (a b : List Int) : Int := (a.zip b).foldl (fun s p => s + p.1 * p.2) 0

/-- The sign of an element, and whether it is zero. -/
def elemNeg (v : Option FVal) (k : Int) : Bool := match v with | some (.inf n) => n | _ => decide (k < 0)

/-- The product of two elements where one is special (R107): none for a finite product. -/
def specialProduct (va : Option FVal) (ka : Int) (vb : Option FVal) (kb : Int) : Option FVal :=
  match va, vb with
  | none, none => none
  | some (.nan _), _ | _, some (.nan _) => some (.nan false)
  | a, b =>
    if (a.isNone && ka == 0) || (b.isNone && kb == 0) then some (.nan false)
    else some (.inf (elemNeg a ka != elemNeg b kb))

/-- SpecialBlock's result (R107): none where the block is finite. -/
def specialBlock (a b : Block) : Option FVal :=
  let ps := ((a.specials.zip a.ints).zip (b.specials.zip b.ints)).filterMap fun p =>
    specialProduct p.1.1 p.1.2 p.2.1 p.2.2
  if a.scale == 255 || b.scale == 255 then some (.nan false)
  else if ps.isEmpty then none
  else if ps.any isNanV then some (.nan false)
  else if ps.contains (.inf true) && ps.contains (.inf false) then some (.nan false)
  else ps.head?

/-- The block sum in float mode (R106). -/
def blockSum (a b : Block) : FVal :=
  match specialBlock a b with
  | some v => v
  | none =>
    let s := dot a.ints b.ints
    .fin (decide (s < 0)) s.natAbs (a.x + b.x + ((a.scale + b.scale : Nat) : Int) - 254)

/-! ### Accumulators (R102) -/

/-- An integer-mode element. -/
def accInt (x : BitVec 40) : Int := x.toInt

/-- An integer kept within the limits of integer mode, and whether it was cut. -/
def satAcc (v : Int) : BitVec 40 × Bool :=
  if v < -(2 ^ 39) then (BitVec.ofInt 40 (-(2 ^ 39)), true)
  else if 2 ^ 39 - 1 < v then (BitVec.ofInt 40 (2 ^ 39 - 1), true)
  else (BitVec.ofInt 40 v, false)

/-- Add blocks into one element, in ascending K: the element and whether an integer addition saturated. DESIGN CHOICE: a
negative sum that rounds to zero in float mode keeps its sign (log entry 115). -/
def accumulate (int : Bool) (acc : BitVec 40) (blocks : List (Block × Block)) : BitVec 40 × Bool :=
  blocks.foldl (init := (acc, false)) fun r p =>
    if int then
      let x := satAcc (accInt r.1 + dot p.1.ints p.2.ints)
      (x.1, r.2 || x.2)
    else (BitVec.ofNat 40 (addV fmtAcc .rn (decF fmtAcc r.1.toNat) (blockSum p.1 p.2)).1, r.2)

/-- The element of row m, column n of a tile, and its value. -/
def Tile.get (t : Tile) (m n : Nat) : BitVec 40 := sget 0 t.acc (m * 128 + n)
def Tile.val (t : Tile) (m n : Nat) : FVal :=
  if t.int then intV (accInt (t.get m n)) else decF fmtAcc (t.get m n).toNat

end Sys2Proof.Machine
end

