-- ==== Sys2Proof/Machine/Streams.lean ====
section
/-! DEFINITION. Matrix streams (R112 to R118, R124 to R127, R132, R133): turns and grants, accesses, errors, stamps,
attaching and detaching. -/

namespace Sys2Proof.Machine

/-! ### Streams and their turns -/

def findStream (s : State) (core ck : Nat) : Option Stream :=
  (getEngine s core).streams.find? fun x => x.cohort == ck

/-- The stream could run a word: RUNNING, without a wait or a stop (R115, R310). -/
def Stream.canRun (x : Stream) : Bool := x.state == .running && x.wait == .none && !x.stopped

/-- The stream instruction that a word stands for (R117): every other word is a stream opcode error. -/
def streamInstr (core k : Nat) (w : Word) : Instr :=
  match decodeWord w with
  | .ok i => if 0xC0 ≤ i.opcode then i else .streamOpcodeError core k w
  | .error _ => .streamOpcodeError core k w

/-- The words that need the array grant (R116, Table 21-3). -/
def needsGrant : Instr → Bool
  | .mlw _ | .mma _ _ _ _ _ | .msta _ _ _ _ | .mclr _ _ => true
  | _ => false

/-- Slots that an MMA reads from its first one on: one for each K-step (R122). -/
def kSteps (s : State) (ctx rec : Nat) : Nat :=
  match sfind (getCtx s ctx).tensors rec with
  | some r => (recExtent r 0 + 127) / 128
  | none => 1

/-- No background MWB of the slots is under way. -/
def Stream.slotsReady (x : Stream) (first n : Nat) : Bool :=
  x.mwbs.all fun m => !(first ≤ m.slot && m.slot < first + n)

/-- A word of the stream is still running on the array (R118). -/
def Stream.running (x : Stream) : Bool := x.mma.isSome || x.msta.isSome

/-- The stream waits at a barrier: the MBAR has started, and MWBs after it may start (R118). -/
def Stream.atBarrier (x : Stream) : Bool :=
  x.state == .parked && !x.stopped && match x.wait with | .barArrive _ _ | .barWait _ => true | _ => false

/-- The word may start now (R118): MWB once the previous word has started, every other word when it has completed; none
after a word that has failed (R120, R132). DESIGN CHOICE: an MWB does not start while its stream is PARKED on a page fault of
an earlier word (log entry 118). -/
def Stream.mayStart (s : State) (x : Stream) (i : Instr) : Bool :=
  x.failing.isNone &&
    match i with
    | .mwb _ _ _ => x.canRun || x.atBarrier
    | .mlw n => x.canRun && !x.running && x.slotsReady n.val 1
    | .mma _ _ rec n _ => x.canRun && !x.running && x.slotsReady n.val (kSteps s x.ctx rec.val)
    | .mbar _ op => x.canRun && !x.running && ((op.val != 1 && op.val != 3) || x.mwbs.isEmpty)
    | .mend => x.canRun && !x.running && x.mwbs.isEmpty
    | _ => x.canRun && !x.running

/-- The stream waits for the array grant (R116). -/
def Stream.wantsGrant (s : State) (x : Stream) : Bool :=
  x.canRun && !x.granted &&
    (x.running ||
      match x.ahead with
      | w :: _ => needsGrant (streamInstr 0 0 w) && x.mayStart s (streamInstr 0 0 w)
      | [] => false)

/-- The waiting stream whose place in the order of attaching comes first after the last one served. -/
def nextGranted (s : State) (e : Engine) : Option Stream :=
  let key := fun x : Stream => if e.lastGrant < x.order then x.order else x.order + 2 ^ 64
  (e.streams.filter (Stream.wantsGrant s)).foldl (init := none) fun best x =>
    match best with
    | none => some x
    | some b => if key x < key b then some x else best

/-- Gale grants the array, if nobody holds it (R116). -/
def passGrant (s : State) (core : Nat) : State :=
  let e := getEngine s core
  if e.streams.any fun x => x.granted then s
  else
    match nextGranted s e with
    | none => s
    | some x =>
      setEngine s core { e with
        lastGrant := x.order
        streams := e.streams.map fun y => if y.cohort == x.cohort then { y with granted := true } else y }

/-- The stream gives up the array, by which its MMA is interrupted (R116, R133). -/
def Stream.yield (x : Stream) : Stream :=
  { x with granted := false, mma := x.mma.map fun m => { m with interrupts := m.interrupts + 1 } }

/-- GALE_GRANT. -/
def execGaleGrant (core : Nat) (s : State) : Out := .next (passGrant s core)

/-- A word of the stream whose turn it is: nothing happens until it may start and, where it needs the array, holds
the grant. -/
def streamWord (i : Instr) (s : State) (k : Nat → Stream → State → State) : Out :=
  .next (match findStream s s.curStream.1 s.curStream.2 with
    | none => s
    | some x => if x.mayStart s i && (!needsGrant i || x.granted) then k s.curStream.1 x s else s)

/-- The word has started and the stream goes on to the next one. -/
def Stream.skip (x : Stream) : Stream := { x with pc := x.pc + 4, ahead := x.ahead.tail }

/-! ### Errors (R132) -/

/-- The next completion of each barrier of the mask carries the stream-error flag. -/
def flagError (c : Cohort) (mask : BitVec 16) : Cohort :=
  (List.range 16).foldl (init := c) fun c b =>
    if mask.getLsbD b then c.setBar b { c.bar b with errNext := true } else c

/-- The stream enters ERROR with the code and the failing word's address, and leaves its barriers. -/
def enterError (s : State) (core ck code : Nat) (at_ : DWord) : State :=
  match findStream s core ck with
  | none => s
  | some x =>
    let s := modStream s core ck fun x => { x.halt with state := .error, errCode := code, errPc := at_ }
    let s := match getCohort s ck with
      | none => s
      | some c => setCohort s ck (flagError c x.barMask)
    leaveBarriers s ck (streamId core)

/-- A word that has failed stops the stream once the earlier words, and those that an MWB leaves to run, have ended
(R120, R132). Until then the stream is not in ERROR, and an MDET returns 0: a DESIGN CHOICE (log entry 92). -/
def settleStream (s : State) (core ck : Nat) : State :=
  match findStream s core ck with
  | none => s
  | some x =>
    match x.failing with
    | some f => if x.canRun && !x.running && x.mwbs.isEmpty then enterError s core ck f.1 f.2 else s
    | none => s

/-- A word's place in the stream. -/
def Stream.place (x : Stream) (at_ : DWord) : Nat := (at_ - x.start).toNat

/-- The word at at_ fails. An MMA or MSTA that fails ends, and MWBs after it have no effect; after a failing MWB, the
words that had started run on. Of several failing words the first one counts. -/
def Stream.fail (code : Nat) (at_ : DWord) (x : Stream) : Stream :=
  let mine := fun w : DWord => w == at_
  let array := x.mma.any (fun m => mine m.word) || x.msta.any fun m => mine m.word
  let reqs := x.waitReqs.filter fun r => !mine r.2
  let x := { x with
    mma := x.mma.filter fun m => !mine m.word
    msta := x.msta.filter fun m => !mine m.word
    granted := x.granted && !array
    undo := if array then [] else x.undo
    mwbs := x.mwbs.filter fun m => !mine m.word && (!array || decide (x.place m.word < x.place at_))
    waitReqs := reqs
    failing := match x.failing with
      | some f => if x.place f.2 ≤ x.place at_ then some f else some (code, at_)
      | none => some (code, at_) }
  if x.wait == .fault && reqs.isEmpty then x.unpark else x

/-- A tile of the engine. -/
def Engine.tile (e : Engine) (t : Bool) : Tile := if t then e.tile1 else e.tile0
def Engine.setTile (e : Engine) (t : Bool) (x : Tile) : Engine :=
  if t then { e with tile1 := x } else { e with tile0 := x }

/-- The tile that a failing MMA leaves: as the MMA found it, since the word has no effect (R132). -/
def undoMma (s : State) (core ck : Nat) (at_ : DWord) : State :=
  match (findStream s core ck).bind (·.mma) with
  | some m =>
    if m.word == at_ then setEngine s core ((getEngine s core).setTile m.tile m.before) else s
  | none => s

/-- The MMA or MSTA at an address runs. -/
def Stream.runs (x : Stream) (at_ : DWord) : Bool := x.mma.any (·.word == at_) || x.msta.any (·.word == at_)

/-- A slot as it was before an MWB wrote it. -/
def Engine.undoSlot (e : Engine) (u : SlotUndo) : Engine :=
  { e with
    slots := sset [] e.slots u.slot u.image
    latched := e.latched.map fun l => if l.slot == u.slot then { l with stale := u.stale } else l }

/-- The slots that a failing MMA or MSTA leaves: MWBs after it have no effect (R132). -/
def undoMwbs (s : State) (core ck : Nat) (at_ : DWord) : State :=
  match findStream s core ck with
  | some x => if x.runs at_ then setEngine s core (x.undo.foldl Engine.undoSlot (getEngine s core)) else s
  | none => s

/-- A stream error at a word. -/
def streamError (s : State) (core ck code : Nat) (at_ : DWord) : State :=
  settleStream (modStream (undoMma (undoMwbs s core ck at_) core ck at_) core ck (Stream.fail code at_)) core ck

/-- STREAM_OPCODE_ERROR (R117): code 8 for a stream opcode with a wrong field, else code 1. -/
def execStreamOpcodeError (core stream : Nat) (w : Word) (s : State) : Out :=
  .next (match (getEngine s core).streams[stream]? with
    | none => s
    | some x =>
      if x.mayStart s (.streamOpcodeError core stream w) then
        streamError s core x.cohort (if isStreamOp (w.toNat / 2 ^ 24) then 8 else 1) x.pc
      else s)

/-! ### Accesses (R112, R115, R127, R203) -/

/-- Streams translate through the tile translation engine (R112). -/
def streamTlbs : List TlbId := [.ahead]

/-- The parts of a range of bytes, one for each page. -/
def pageParts : Nat → DWord → Nat → List (DWord × Nat)
  | 0, _, _ => []
  | fuel + 1, va, n =>
    if n == 0 then []
    else
      let m := min n (4096 - va.toNat % 4096)
      (va, m) :: pageParts fuel (va + BitVec.ofNat 64 m) (n - m)

/-- A range cut into its pages. -/
def cut (va : DWord) (n : Nat) : List (DWord × Nat) := pageParts (n / 4096 + 2) va n

/-- Check the parts of an access before any of it is made. -/
def checkParts (s : State) (core ctx : Nat) (write : Bool) : List (DWord × Nat) → EngAcc × State
  | [] => (.ok [], s)
  | (va, n) :: r =>
    match engineCheck s core streamTlbs ctx va n (!write) write with
    | (.ok a, s) =>
      match checkParts s core ctx write r with
      | (.ok b, s) => (.ok (a ++ b), s)
      | x => x
    | x => x

/-- The stream waits for pages at a word: PARKED unless it waits at a barrier already (R115). -/
def streamPark (s : State) (core ck : Nat) (at_ : DWord) (pages : List Nat) (k : ReqKind) (migrating : Bool) :
    State :=
  match findStream s core ck with
  | none => s
  | some x =>
    let s := modStream s core ck fun x =>
      if x.wait == .none then { x with state := .parked, wait := .fault } else x
    (distinct pages).foldl (init := s) fun s p =>
      let r := newReq s core x.ctx p k migrating []
      modStream r.2 core ck fun x => { x with waitReqs := x.waitReqs ++ [(r.1, at_)] }

/-- What an access that is not made does to the stream. -/
def streamStop (s : State) (core ck ctx : Nat) (at_ : DWord) (write : Bool) : EngAcc → State
  | .ok _ | .held => s
  | .wait ps m => streamPark s core ck at_ ps (if write then .write else .read) m
  | .bad pa => contextFatal s ctx (Config.errorCause s.free) pa
  | .fatal | .fabric _ _ | .race _ => streamError s core ck 7 at_

/-- The bytes at the home slices. -/
def homeBytes (s : State) (pas : List Nat) : List Byte := pas.map (memGet s)

/-! ### Tile stamps (R133) -/

/-- The stamp record of Table 7-8 as a number; the time spent waiting is a free value (log entry 2). -/
def stampWord (core : Nat) (x : Stream) (t : Tile) (p : StampRun) (waited : DWord) : Nat :=
  (p.copyDone.getD 0).toNat * 2 ^ 448 + p.computeEnd.toNat * 2 ^ 384 + p.mma.start.toNat * 2 ^ 320 +
    waited.toNat * 2 ^ 256 + p.mma.copyin.toNat * 2 ^ 192 + p.mma.issue.toNat * 2 ^ 128 +
    p.seq % 2 ^ 32 * 2 ^ 96 + p.mma.reruns % 2 ^ 16 * 2 ^ 80 + p.mma.interrupts % 2 ^ 16 * 2 ^ 64 +
    p.mma.rows * 2 ^ 48 + (p.mma.kstep + 1) % 2 ^ 8 * 2 ^ 40 + (if t.sat then 2 ^ 34 else 0) +
    (if t.int then 2 ^ 33 else 0) + (if p.sparse then 2 ^ 32 else 0) + x.cohort % 2 ^ 16 * 2 ^ 16 + core

/-- Where a stamp lies. -/
def stampVa (s : State) (x : Stream) (p : StampRun) : Option DWord :=
  (sfind (getCtx s x.ctx).tensors p.srec).map fun r =>
    BitVec.ofInt 64 (recBase r + 64 * ((p.seq % recExtent r 0 : Nat) : Int))

/-- How the retirement of stamps ends: all written, or one whose access is not made. -/
inductive Retire where
  | done
  | stop (a : EngAcc)
  deriving DecidableEq, Repr

/-- Forget the first stamp of a list of the stream. -/
def dropStamp (s : State) (core ck : Nat) (p : StampRun) : State :=
  modStream s core ck fun x => { x with stamps := x.stamps.erase p }

/-- A stamp goes to the trace queue of the debugger's port too (R311). -/
def traceStamp (s : State) (v : Nat) : State :=
  if !s.dbg.traceOn then s
  else if s.dbg.trace.length < 256 then
    { s with dbg := { s.dbg with trace := s.dbg.trace ++ [BitVec.ofNat 512 v] } }
  else { s with dbg := { s.dbg with traceLost := s.dbg.traceLost + 1 } }

/-- Write one stamp (R133). -/
def writeTileStamp (s : State) (core : Nat) (x : Stream) (p : StampRun) : Retire × State :=
  match stampVa s x p with
  | none => (.done, dropStamp s core x.cohort p)
  | some va =>
    match checkParts s core x.ctx true (cut va 64) with
    | (.ok pas, s) =>
      let v := stampWord core x ((getEngine s core).tile p.tile) p (Config.waitCycles s.free)
      (.done, dropStamp (traceStamp (engineWrite s core (pas.zip (toBytes 64 v))) v) core x.cohort p)
    | (a, s) => (.stop a, s)

/-- The access will be made later. -/
def EngAcc.waits : EngAcc → Bool
  | .wait _ _ | .held => true
  | _ => false

/-- Retire the given stamps in order; one whose address is fatal is not written, then or later (R133). -/
def retireStamps (core : Nat) (x : Stream) : List StampRun → State → Retire × State
  | [], s => (.done, s)
  | p :: r, s =>
    match writeTileStamp s core x p with
    | (.done, s) => retireStamps core x r s
    | (.stop a, s) => (.stop a, if a.waits then s else dropStamp s core x.cohort p)

/-- Retire stamps of a stream at a word and go on with k. -/
def retireThen (s : State) (core : Nat) (x : Stream) (at_ : DWord) (ps : List StampRun) (k : State → State) : State :=
  match retireStamps core x ps s with
  | (.done, s) => k s
  | (.stop a, s) => streamStop s core x.cohort x.ctx at_ true a

/-! ### MATT and MDET (R113, R114, R377) -/

/-- The configuration word of Table 7-2. -/
def attTiles (cfg : DWord) : BitVec 2 := BitVec.ofNat 2 cfg.toNat
def attBase (cfg : DWord) : Nat := field cfg.toNat 4 4
def attCount (cfg : DWord) : Nat := field cfg.toNat 8 4 + 1
def attBars (cfg : DWord) : BitVec 16 := BitVec.ofNat 16 (field cfg.toNat 16 16)

/-- A tile or slot of the configuration is held by an attached stream. -/
def attTaken (e : Engine) (cfg : DWord) : Bool :=
  e.streams.any fun x =>
    x.state != .saved && ((x.tileMask &&& attTiles cfg) != 0 || (List.range (attCount cfg)).any fun i => x.holdsSlot (attBase cfg + i))

/-- The status of Table 7-3: the lowest that applies. A SAVED stream holds none of the core's four places, tiles and
slots: a DESIGN CHOICE, since Table 7-4 makes it a state of an attached stream (log entry 92). -/
def attStatus (s : State) (core ck : Nat) (start cfg : DWord) : Nat :=
  let e := getEngine s core
  if (findStream s core ck).isSome then 1
  else if 4 ≤ (e.streams.filter fun x => x.state != .saved).length then 2
  else if attTaken e cfg then 3
  else if field cfg.toNat 32 32 != 0 || field cfg.toNat 12 4 != 0 || field cfg.toNat 2 2 != 0 ||
      16 < attBase cfg + attCount cfg || start.toNat % 4 != 0 then 4
  else 0

/-- The stream as it is attached (R113, R119, R126). -/
def newStream (e : Engine) (ctx ck : Nat) (c : Cohort) (start cfg : DWord) : Stream where
  order := e.attached + 1
  cohort := ck
  ctx := ctx
  start := start
  pc := start
  ahead := []
  state := .running
  barMask := attBars cfg
  tileMask := attTiles cfg
  slotBase := attBase cfg
  slotCount := attCount cfg
  afmt := .e4m3
  j := 0
  srec := 0
  arr := (List.range 16).foldl (fun m b =>
    sset 0 m b ((c.bar b).ph + (if (attBars cfg).getLsbD b then 0 else 1))) []
  wait := .none
  waitReqs := []
  mma := none
  msta := none
  mwbs := []
  undo := []
  failing := none
  stamps := []
  stampSeq := 0
  errCode := 0
  errPc := 0
  stopped := false
  granted := false
  savedFrom := .running
  savedTile0 := .zero
  savedTile1 := .zero
  savedSlots := []
  savedLatched := none

/-- The stream is expected in the open phase of each barrier of its mask (R126). -/
def expectStream (c : Cohort) (mask : BitVec 16) (id : Nat) : Cohort :=
  (List.range 16).foldl (init := c) fun c b =>
    if mask.getLsbD b then c.setBar b { c.bar b with expected := (c.bar b).expected ++ [id] } else c

/-- Attach a stream: it takes its tiles and slots, which are empty (R121, R122). -/
def attachStream (s : State) (core ctx ck : Nat) (start cfg : DWord) : State :=
  match getCohort s ck with
  | none => s
  | some c =>
    let e := getEngine s core
    let x := newStream e ctx ck c start cfg
    let e := e.release x
    setCohort (setEngine s core { e with streams := e.streams ++ [x], attached := e.attached + 1 }) ck
      (expectStream c x.barMask (streamId core))

/-- MATT. -/
def execMatt (sa sb st : SReg) (s : State) : Out :=
  issue (.matt sa sb st) s fun s =>
    let t := s.tm
    match t.cohort with
    | none => trapWord s 1 (.matt sa sb st)
    | some ck =>
      let start := t.sread sa.val
      let cfg := t.sread sb.val
      let code := attStatus s t.core ck start cfg
      endStatus (if code == 0 then attachStream s t.core t.ctx ck start cfg else s) st code

/-- The status that MDET gives for a stream (R114). -/
def detStatus (x : Stream) : Nat :=
  if x.state == .error then 2 + x.errCode * 2 ^ 8 + (x.errPc - x.start).toNat % 2 ^ 48 * 2 ^ 16 else 0

/-- The stream is stopped: its running MMA is abandoned, and it starts nothing more. -/
def Stream.stopAll (x : Stream) : Stream :=
  if x.state == .error then x else { x.halt with state := .parked, wait := .commit }

/-- A page that the team knows to be fatal (R274). -/
def Team.lost (t : Team) (ps : List Nat) : Bool := ps.any fun p => t.fatalPages.contains p || t.hostFail.contains p

/-- Retire every stamp of a stream that a team detaches: one that cannot be written is dropped; the pages of the
others hold the team up. -/
def retireFor (core : Nat) (x : Stream) : List StampRun → State → Option EngAcc × State
  | [], s => (none, s)
  | p :: r, s =>
    match writeTileStamp s core x p with
    | (.done, s) => retireFor core x r s
    | (.stop (.wait ps m), s) =>
      if s.tm.lost ps then retireFor core x r (dropStamp s core x.cohort p) else (some (.wait ps m), s)
    | (.stop .held, s) => (some .held, s)
    | (.stop (.bad pa), s) => (some (.bad pa), s)
    | (.stop _, s) => retireFor core x r (dropStamp s core x.cohort p)

/-- The faults of a stamp that cannot be written yet. -/
def stampFaults : EngAcc → List (Nat × LaneFault)
  | .wait ps m => ps.map fun p => (0, if m then .migrating p else .page p .write)
  | .bad pa => [(0, .bad pa)]
  | _ => [(0, .held)]

/-- MDET. -/
def execMdet (st : SReg) (s : State) : Out :=
  issue (.mdet st) s fun s =>
    let t := s.tm
    match t.cohort with
    | none => trapWord s 1 (.mdet st)
    | some ck =>
      match findStream s t.core ck with
      | none => endStatus s st 1
      | some x =>
        let s := modStream s t.core ck Stream.stopAll
        match retireFor t.core x x.stamps s with
        | (some a, s) => endMem s true true (stampFaults a)
        | (none, s) => endStatus (detachStream s t.core ck) st (detStatus x)

/-! ### The end of a cohort (R73) -/

/-- The stamps of a stream whose cohort is dissolved, as far as they can be written: one waits for its page, or for a line
that is held; one that cannot be written is dropped. -/
def retireLeft (core ck : Nat) : List StampRun → State → State
  | [], s => s
  | p :: r, s =>
    match findStream s core ck with
    | none => s
    | some x =>
      match writeTileStamp s core x p with
      | (.done, s) => retireLeft core ck r s
      | (.stop (.wait ps m), s) => streamPark s core ck x.pc ps .write m
      | (.stop .held, s) => s
      | (.stop (.bad pa), s) => contextFatal s x.ctx (Config.errorCause s.free) pa
      | (.stop _, s) => retireLeft core ck r (dropStamp s core ck p)

/-- The streams of a cohort without members write their stamps; when all are written the cohort is gone, and a JOIN that
waits for its id goes on. -/
def dissolve (s : State) (ck : Nat) : State :=
  let s := (skeys s.engines).foldl (init := s) fun s core =>
    match findStream s core ck with
    | some x => if x.state == .saved || !x.waitReqs.isEmpty then s else retireLeft core ck x.stamps s
    | none => s
  if (getCohort s ck).isNone || stampsLeft s ck then s
  else wakeWhere (endCohort s ck) fun t => t.wait == .hold

/-- The same for every such cohort. -/
def dissolveAll (s : State) : State :=
  (s.cohorts.filter fun c => c.2.members.isEmpty).foldl (fun s c => dissolve s c.1) s

/-- LEAVE: no effect in no cohort. -/
def execLeave (s : State) : Out :=
  issue .leave s fun s => (leaveCohort s s.cur).modTm Team.finish

/-- TEAM_RETIREMENT (R73): the team, which has left its cohort, leaves its bundles, its k-registers drop their references,
and its slot and rows are free. -/
def execTeamRetirement (uid : Nat) (s : State) : Out :=
  let t := s.getTeam uid
  .next (if t.full != 0 || t.state == .retired || t.state == .halted || t.busy s || dirtyHeld s t.core || t.entryHeld s then s
    else
      let s := (leaveCohort s uid).modTeam uid Team.commitAll
      let s := (t.entered.map bIndex).foldl (fun s i => exitBundle s uid i) s
      let s := (t.k.map (·.2)).foldl dropRef s
      let s := closeOrigin s uid
      trimPool { s with teams := sdel s.teams uid } t.core t.ctx)

/-! ### MFMT, MBAR and MEND (R119, R124, R125) -/

/-- MFMT. -/
def execMfmt (f : AFmt) (j : Fin 9) (srec : Fin 256) (s : State) : Out :=
  streamWord (.mfmt f j srec) s fun core x s =>
    if j.val == 1 then streamError s core x.cohort 9 x.pc
    else modStream s core x.cohort fun x => { x with afmt := f, j := j.val, srec := srec.val }.nextWord

/-- The wait that an MBAR takes up: arr, wait, sync (R124). -/
def mbarWait (b : Nat) (op : Nat) : Wait :=
  if op == 1 then .barArrive b false else if op == 2 then .barWait b else .barArrive b true

/-- MBAR. -/
def execMbar (b : BReg) (op : Fin 4) (s : State) : Out :=
  streamWord (.mbar b op) s fun core x s =>
    if op.val == 0 || (op.val != 2 && !x.barMask.getLsbD b.val) then streamError s core x.cohort 6 x.pc
    else
      let ck := x.cohort
      let s := modStream s core ck fun x => { x.skip with wait := mbarWait b.val op.val, granted := false }
      let s := settleBarrier ck b.val barFuel (serveStream ck b.val s core)
      modStream s core ck fun x => if x.wait == .none then x else { x with state := .parked }

/-- MEND: its stamps retire, and it detaches. -/
def execMend (s : State) : Out :=
  streamWord .mend s fun core x s =>
    retireThen s core x x.pc x.stamps fun s => detachStream s core x.cohort

end Sys2Proof.Machine
end

