-- ==== Sys2Proof/Machine/Matrix.lean ====
section
/-! DEFINITION. The work of the matrix engine (R110, R111, R118 to R123, R128 to R131): weights, latching, products,
and the conversion of tiles. -/

namespace Sys2Proof.Machine

def modEngine (s : State) (core : Nat) (f : Engine → Engine) : State := setEngine s core (f (getEngine s core))

/-- The stream holds a tile. -/
def Stream.holdsTile (x : Stream) (t : Bool) : Bool := x.tileMask.getLsbD (if t then 1 else 0)

/-- An installed record of a context. -/
def getRec (s : State) (ctx n : Nat) : Option TRec := sfind (getCtx s ctx).tensors n

/-- A record invalid for a cause other than its format (R120, R187). -/
def recBroken (r : TRec) : Bool :=
  let f := recFmt r
  if f ≤ 10 then recInvalid r else recField r 64 16 != 0 || recField r 57 3 != 0

/-! ### MWB (R118, R120) -/

/-- MWB starts: its image is read in the background. -/
def execMwb (slot : Fin 16) (rec idx : Fin 256) (s : State) : Out :=
  streamWord (.mwb slot rec idx) s fun core x s =>
    if !x.holdsSlot slot.val then streamError s core x.cohort 4 x.pc
    else
      match getRec s x.ctx rec.val with
      | none => streamError s core x.cohort 5 x.pc
      | some r =>
        if recBroken r then streamError s core x.cohort 5 x.pc
        else
          let va := BitVec.ofInt 64 (recBase r + (idx.val : Int) * recStride r 0)
          modStream s core x.cohort fun x => { x.skip with mwbs := x.mwbs ++ [⟨x.pc, slot.val, va, none⟩] }

/-- The slot is read by the running MMA (R118). -/
def slotInUse (s : State) (x : Stream) (slot : Nat) : Bool :=
  match x.mma with
  | some m => m.slot ≤ slot && slot < m.slot + kSteps s x.ctx m.recNo
  | none => false

/-- The image as it stands in memory: its bytes, or none where its length is out of range (R110, R120). -/
def readImage (s : State) (core ctx : Nat) (va : DWord) : Except EngAcc (Option (List Byte)) × State :=
  match checkParts s core ctx false (cut va 16) with
  | (.ok pas, s) =>
    let len := ofBytes ((homeBytes s pas).drop 8 |>.take 4)
    if len < 16 || 32768 < len then (.ok none, s)
    else
      match checkParts s core ctx false (cut va len) with
      | (.ok pas, s) => (.ok (some (homeBytes s pas)), s)
      | (a, s) => (.error a, s)
  | (a, s) => (.error a, s)

/-- A slot of an engine as it stands. -/
def slotUndo (e : Engine) (slot : Nat) : SlotUndo :=
  ⟨slot, sget [] e.slots slot, e.latched.any fun l => l.slot == slot && l.stale⟩

/-- The word at an address follows the MMA or MSTA that runs. -/
def Stream.followsRun (x : Stream) (at_ : DWord) : Bool :=
  x.mma.any (fun m => decide (x.place m.word < x.place at_)) || x.msta.any fun m => decide (x.place m.word < x.place at_)

/-- An MWB of a stream ends: the slot receives the image, or the stream has an image error (R120). -/
def endMwb (s : State) (core : Nat) (x : Stream) (m : MwbRun) (img : Option (List Byte)) : State :=
  match img.bind fun bs => (parseImage bs).map fun _ => bs with
  | none => streamError s core x.cohort 2 m.word
  | some bs =>
    let s := modStream s core x.cohort fun x => { x with
      mwbs := x.mwbs.filter fun y => y.word != m.word
      undo := if x.followsRun m.word then slotUndo (getEngine s core) m.slot :: x.undo else x.undo }
    settleStream (modEngine s core fun e => { e with
      slots := sset [] e.slots m.slot bs
      latched := e.latched.map fun l => if l.slot == m.slot then { l with stale := true } else l }) core x.cohort

/-- The first MWB that can go on: it reads its image unless it waits for a page, and writes its slot when the earlier
writes and reads of the slot have ended (R118). busy holds the slots of the earlier MWBs. -/
def nextMwb (s : State) (x : Stream) (busy : List Nat) : List MwbRun → Option MwbRun
  | [] => none
  | m :: r =>
    let held := slotInUse s x m.slot || busy.contains m.slot
    if !(x.waitReqs.any fun q => q.2 == m.word) && (m.read.isNone || !held) then some m
    else nextMwb s x (m.slot :: busy) r

/-- The image of an MWB has been read: it is held until the slot can be written (R118). -/
def heldMwb (s : State) (core : Nat) (x : Stream) (m : MwbRun) (img : Option (List Byte)) : State :=
  modStream s core x.cohort fun x => { x with
    mwbs := x.mwbs.map fun y => if y.word == m.word then { y with read := some img } else y }

/-- The slot of an MWB may be written now. -/
def mwbFree (s : State) (x : Stream) (m : MwbRun) : Bool :=
  !slotInUse s x m.slot && !((x.mwbs.takeWhile fun y => y.word != m.word).any fun y => y.slot == m.slot)

/-- MWB_COMPLETE: the image is read, and the word ends once the slot may be written. -/
def execMwbComplete (core stream : Nat) (s : State) : Out :=
  .next (match (getEngine s core).streams[stream]? with
    | none => s
    | some x =>
      if x.state == .saved || x.state == .error then s
      else
        match nextMwb s x [] x.mwbs with
        | none => s
        | some m =>
          match m.read with
          | some img => endMwb s core x m img
          | none =>
            match readImage s core x.ctx m.image with
            | (.error a, s) => streamStop s core x.cohort x.ctx m.word false a
            | (.ok img, s) => if mwbFree s x m then endMwb s core x m img else heldMwb s core x m img)

/-! ### Latching (R110, R120) -/

/-- The point of the checksum: block sums count in units of 2^-512 (R128). -/
def sumPoint : Int := 256

/-- A value k * 2^x with a block's scale in the array's units. -/
def scaledUnits (k x : Int) (scale : Nat) : Int := k * 2 ^ (x + scale - 127 + sumPoint).toNat

/-- A block with a special element or scale: SpecialBlock holds of it with every other (R107). -/
def Block.isSpecial (b : Block) : Bool := b.scale == 255 || b.specials.any Option.isSome

/-- The block's elements in the array's units, scaled and as they are; none counts of a special block (R128). -/
def Block.units (b : Block) : List (Int × Int) :=
  b.ints.map fun k => if b.isSpecial then (0, 0) else (scaledUnits k b.x b.scale, k)

/-- The checksum column of an image read at j planes (R110): for each of the 128 K-rows the sums over the columns. -/
def checkColumn (g : Image) (j : Nat) : List (Int × Int) :=
  (List.range 4).flatMap fun q =>
    (List.range g.cols.length).foldl (init := List.replicate 32 (0, 0)) fun acc n =>
      acc.zipWith (fun a u => (a.1 + u.1, a.2 + u.2)) (g.block j n q).units

/-- The block that an image gives. -/
def blockFrom (slot owner : Nat) (bs : List Byte) (g : Image) (j : Nat) : Latched :=
  ⟨slot, false, bs, j, owner, checkColumn g j⟩

/-- The block that latching a slot gives, at the planes of an earlier latch where again has them (R131): none where j
exceeds the stored planes. -/
def latchOf (e : Engine) (x : Stream) (slot : Nat) (again : Option Nat) : Option Latched :=
  let bs := sget [] e.slots slot
  match parseImage bs with
  | none => some (blockFrom slot x.cohort [] .zero 0)
  | some g =>
    let j := again.getD (if x.j == 0 then g.planes else x.j)
    if g.fmt != .bp8 then some (blockFrom slot x.cohort bs g 0)
    else if g.planes < j then none
    else some (blockFrom slot x.cohort bs g j)

/-- The image of a latched block. -/
def Latched.img (l : Latched) : Image := (parseImage l.image).getD .zero

/-- MLW. -/
def execMlw (slot : Fin 16) (s : State) : Out :=
  streamWord (.mlw slot) s fun core x s =>
    if !x.holdsSlot slot.val then streamError s core x.cohort 4 x.pc
    else
      match latchOf (getEngine s core) x slot.val none with
      | none => streamError s core x.cohort 9 x.pc
      | some l => modStream (modEngine s core fun e => { e with latched := some l }) core x.cohort Stream.nextWord

/-! ### MCLR (R121) -/

/-- The marks of MMAs of one tile that have not retired. -/
def Stream.stampsOf (x : Stream) (tile : Bool) : List StampRun := x.stamps.filter fun p => p.tile == tile

/-- MCLR: stamped MMAs of the tile retire, then it is cleared. -/
def execMclr (tile int : Bool) (s : State) : Out :=
  streamWord (.mclr tile int) s fun core x s =>
    if !x.holdsTile tile then streamError s core x.cohort 4 x.pc
    else
      retireThen s core x x.pc (x.stampsOf tile) fun s =>
        modStream (modEngine s core fun e => e.setTile tile ⟨int, false, []⟩) core x.cohort Stream.nextWord

/-! ### MMA (R122) -/

/-- The record format of an activation format. -/
def afmtRec : AFmt → Nat
  | .e4m3 => 6 | .e5m2 => 7 | .fp4 => 8 | .int8 => 9 | .bf16 => 2 | .f16 => 1

/-- A slot holds MXINT8 or BP8 weights; a slot whose image was never loaded is admitted too (DESIGN CHOICE, log entry 116). -/
def intWeights (e : Engine) (slot : Nat) : Bool :=
  match parseImage (sget [] e.slots slot) with
  | none => true
  | some g => g.fmt == .bp8 || g.fmt == .mx .int8

/-- The error that the checks of R122 give, in their order. -/
def mmaError (s : State) (core : Nat) (x : Stream) (tile stamp : Bool) (rec first rows : Nat) : Option Nat :=
  match getRec s x.ctx rec with
  | none => some 5
  | some r =>
    let n := (recExtent r 0 + 127) / 128
    let e := getEngine s core
    if recInvalid r then some 5
    else if stamp && (match getRec s x.ctx x.srec with | some q => recInvalid q | none => true) then some 5
    else if !x.holdsTile tile || !((List.range n).all fun i => x.holdsSlot (first + i)) then some 4
    else if recExtent r 0 % 32 != 0 || recExtent r 1 < rows then some 5
    else if recFmt r != afmtRec x.afmt then some 3
    else if (e.tile tile).int && (x.afmt != .int8 || !((List.range n).all fun i => intWeights e (first + i))) then some 3
    else none

/-- MMA starts (R122). -/
def execMma (tile stamp : Bool) (rec : Fin 256) (slot : Fin 16) (m1 : Fin 512) (s : State) : Out :=
  streamWord (.mma tile stamp rec slot m1) s fun core x s =>
    match mmaError s core x tile stamp rec.val slot.val (m1.val + 1) with
    | some c => streamError s core x.cohort c x.pc
    | none =>
      modStream s core x.cohort fun x => { x.skip with
        mma := some ⟨x.pc, tile, stamp, rec.val, slot.val, m1.val + 1, 0, 0, s.clock, 0, 0, 0, 0, false, none,
          (getEngine s core).tile tile⟩ }

/-- The units of one activation row in K-blocks b to b + n - 1: addresses and lengths, then those of the scales. -/
def actParts (r : TRec) (row b n : Nat) : List (DWord × Nat) :=
  let k := recExtent r 0
  if recBlock r then
    (List.range n).flatMap fun i =>
      let u := b + i + k / 32 * row
      (unitAddr r u, unitBytes (recFmt r)) :: (match scaleAddr r u with | some a => [(a, 1)] | none => [])
  else (List.range (32 * n)).map fun i => (unitAddr r (32 * b + i + k * row), 2)

/-- Codes of the elements in the bytes of a K-block (R98). -/
def actCodes (fmt : Nat) (bs : List Byte) : List Nat :=
  match fmt with
  | 8 => bs.flatMap fun b => [b.toNat % 16, b.toNat / 16]
  | _ => bs.map (·.toNat)

/-- One K-block of activations from its bytes; BF16 and FP16 have the scale 127 (R106). -/
def actBlock (a : AFmt) (bs : List Byte) : Block :=
  let mx := fun (f : MxFmt) (fmt : Nat) =>
    mxBlockOf f (actCodes fmt (bs.take (unitBytes fmt))) (((bs[unitBytes fmt]?).getD 0).toNat)
  let flt := fun t : FFmt =>
    blockOf t.qMin ((List.range 32).map fun i => decF t (ofBytes ((bs.drop (2 * i)).take 2))) 127
  match a with
  | .e4m3 => mx .e4m3 6
  | .e5m2 => mx .e5m2 7
  | .fp4 => mx .fp4 8
  | .int8 => mx .int8 9
  | .bf16 => flt fmtBf16
  | .f16 => flt fmtF16

/-- Bytes of a K-block with its scale. -/
def actLen (a : AFmt) : Nat :=
  match a with
  | .fp4 => 17
  | .bf16 | .f16 => 64
  | _ => 33

/-- The K-blocks of one row from its bytes. -/
def actBlocks (a : AFmt) (bs : List Byte) (n : Nat) : List Block :=
  (List.range n).map fun i => actBlock a ((bs.drop (i * actLen a)).take (actLen a))

/-- Rows of a chunk of 32, of M rows. -/
def chunkRows (m c : Nat) : List Nat := (List.range (min 32 (m - 32 * c))).map (32 * c + ·)

/-- Add one row's products into a tile (R122). -/
def addRow (g : Image) (j : Nat) (acts : List Block) (row : Nat) (t : Tile) : Tile :=
  (List.range g.cols.length).foldl (init := t) fun t n =>
    let r := accumulate t.int (t.get row n) (acts.zipIdx.map fun a => (a.1, g.block j n a.2))
    { t with acc := sset 0 t.acc (row * 128 + n) r.1, sat := t.sat || r.2 }

/-- Add a chunk: bytes holds the activations of its rows in order. -/
def addChunk (g : Image) (j : Nat) (a : AFmt) (n : Nat) (rows : List Nat) (bytes : List Byte) (t : Tile) : Tile :=
  rows.zipIdx.foldl (init := t) fun t r =>
    addRow g j (actBlocks a ((bytes.drop (r.2 * (n * actLen a))).take (n * actLen a)) n) r.1 t

/-- The grant is passed on at an interrupt point where another stream waits (R116). -/
def yieldGrant (s : State) (core : Nat) (x : Stream) : State :=
  if (getEngine s core).streams.any fun y => y.cohort != x.cohort && y.wantsGrant s then
    passGrant (modStream s core x.cohort Stream.yield) core
  else s

/-- The MMA ends: a stamped one keeps its marks until it retires (R133). -/
def endMma (s : State) (core : Nat) (x : Stream) (m : MmaRun) (sparse : Bool) : State :=
  let s := modStream s core x.cohort fun x => { x with
    mma := none, granted := false, undo := []
    stamps := if m.stamp then x.stamps ++ [⟨m.tile, x.stampSeq, m, s.clock, none, sparse, x.srec⟩] else x.stamps
    stampSeq := if m.stamp then x.stampSeq + 1 else x.stampSeq }
  settleStream s core x.cohort

/-- After a chunk: the next chunk, the next K-step, or the end (R131). -/
def afterChunk (s : State) (core : Nat) (x : Stream) (m : MmaRun) (steps : Nat) (sparse : Bool) : State :=
  let first := m.kstep == 0 && m.chunk == 0
  let m := if first then { m with copyin := s.clock, start := s.clock } else m
  let m := { m with failed := false }
  let put := fun m : MmaRun => yieldGrant (modStream s core x.cohort fun x => { x with mma := some m }) core x
  if 32 * (m.chunk + 1) < m.rows then put { m with chunk := m.chunk + 1 }
  else if m.kstep + 1 < steps then put { m with kstep := m.kstep + 1, chunk := 0, latched := none }
  else endMma s core x m sparse

/-- The latched block serves the K-step (R110, R116). -/
def latchedFor (e : Engine) (x : Stream) (slot : Nat) : Option Latched :=
  match e.latched with
  | some l => if l.slot == slot && l.owner == x.cohort && !l.stale then some l else none
  | none => none

/-- Latch the slot of the K-step unless it is latched; a block that another word has displaced is latched again as it
was (R116, R131). -/
def latchStep (s : State) (core : Nat) (x : Stream) (m : MmaRun) : Option (Latched × State) :=
  let e := getEngine s core
  match latchedFor e x (m.slot + m.kstep) with
  | some l => some (l, s)
  | none => (latchOf e x (m.slot + m.kstep) m.latched).map fun l => (l, setEngine s core { e with latched := some l })

/-! ### The compare of a chunk (R128, R129) -/

/-- The sum over the columns of a row's block sums, in the array's units. -/
def sumOfBlocks (g : Image) (j : Nat) (int : Bool) (acts : List Block) : Int :=
  (List.range g.cols.length).foldl (init := 0) fun t n =>
    acts.zipIdx.foldl (init := t) fun t a =>
      let w := g.block j n a.2
      if a.1.isSpecial || w.isSpecial then t
      else
        t + if int then dot a.1.ints w.ints
          else dot (a.1.ints.map fun k => scaledUnits k a.1.x a.1.scale) (w.ints.map fun k => scaledUnits k w.x w.scale)

/-- The row's activations multiplied by the checksum column. -/
def sumOfColumn (check : List (Int × Int)) (int : Bool) (acts : List Block) : Int :=
  acts.zipIdx.foldl (init := 0) fun t a =>
    let col := (check.drop (32 * a.2)).take 32
    t + if int then dot (a.1.units.map (·.2)) (col.map (·.2)) else dot (a.1.units.map (·.1)) (col.map (·.1))

/-- The compare of a row: the two residues modulo 65,521, of which an error of the array changes the first (R128). -/
def rowPasses (l : Latched) (int : Bool) (acts : List Block) (error : Int) : Bool :=
  (sumOfBlocks l.img l.planes int acts + error) % 65521 == sumOfColumn l.check int acts % 65521

/-- The compare of a chunk of the rows given by their activations' bytes; intact says that the array makes no error,
which is an input of the model (log entry 93). -/
def chunkPasses (l : Latched) (int : Bool) (a : AFmt) (n : Nat) (rows : List Nat) (bytes : List Byte) (intact : Bool) :
    Bool :=
  rows.zipIdx.all fun r =>
    rowPasses l int (actBlocks a ((bytes.drop (r.2 * (n * actLen a))).take (n * actLen a)) n) (if intact then 0 else 1)

/-- The chunk whose compare has failed runs again; a second mismatch is fatal to the context (R129). The cause code that it
records is a free value (log entry 23). -/
def failChunk (s : State) (core : Nat) (x : Stream) (m : MmaRun) : State :=
  if m.failed then contextFatal s x.ctx (Config.errorCause s.free) 0
  else modStream (countError s 15) core x.cohort fun x => { x with mma := some { m with failed := true, reruns := m.reruns + 1 } }

/-- One chunk of the running MMA of a stream (R122): the compare comes before the additions (R128). -/
def runChunk (s : State) (core : Nat) (x : Stream) (m : MmaRun) (intact : Bool) : State :=
  match getRec s x.ctx m.recNo, latchStep s core x m with
  | some r, some (l, s) =>
    let k := recExtent r 0
    let n := min 4 (k / 32 - 4 * m.kstep)
    let rows := chunkRows m.rows m.chunk
    let m := { m with latched := some l.planes }
    let s := modStream s core x.cohort fun x => { x with mma := some m }
    match checkParts s core x.ctx false (rows.flatMap fun row => actParts r row (4 * m.kstep) n) with
    | (.ok pas, s) =>
      let bytes := homeBytes s pas
      let tile := (getEngine s core).tile m.tile
      if !chunkPasses l tile.int x.afmt n rows bytes intact then failChunk s core x m
      else
        let s := modEngine s core fun e => e.setTile m.tile (addChunk l.img l.planes x.afmt n rows bytes tile)
        afterChunk s core x m ((k + 127) / 128) (1 ≤ l.img.keep && l.img.keep ≤ 4)
    | (a, s) => streamStop s core x.cohort x.ctx m.word false a
  | _, none => streamError s core x.cohort 9 m.word
  | none, _ => s

/-- MMA_CHUNK: the next chunk of the MMA that holds the array of a core. -/
def execMmaChunk (core : Nat) (intact : Bool) (s : State) : Out :=
  .next (match (getEngine s core).streams.find? fun x => x.granted && x.canRun && x.mma.isSome with
    | none => s
    | some x =>
      match x.mma with
      | some m => runChunk s core x m intact
      | none => s)

/-! ### MSTA (R123) -/

/-- The record format of an MSTA format. -/
def mstaRec : MstaFmt → Nat
  | .f32 => 3 | .bf16 => 2 | .f16 => 1 | .e4m3 => 6 | .e5m2 => 7 | .fp4 => 8 | .int8 => 9 | .s32 => 4 | .raw => 5

def mstaMx : MstaFmt → Option MxFmt
  | .e4m3 => some .e4m3 | .e5m2 => some .e5m2 | .fp4 => some .fp4 | .int8 => some .int8 | _ => none

/-- The error that MSTA's checks give (R123). DESIGN CHOICE: the tile comes first, then the record, then the format (log
entry 117). -/
def mstaError (s : State) (core : Nat) (x : Stream) (fmt : MstaFmt) (tile : Bool) (rec : Nat) : Option Nat :=
  if !x.holdsTile tile then some 4
  else
    match getRec s x.ctx rec with
    | none => some 5
    | some r =>
      if 128 < recExtent r 0 || 512 < recExtent r 1 || ((mstaMx fmt).isSome && recExtent r 0 % 32 != 0) ||
          recInvalid r then some 5
      else if recFmt r != mstaRec fmt || (fmt == .s32 && !((getEngine s core).tile tile).int) then some 3
      else none

/-- A finite value saturates unless ieee; an infinity stays (R123). -/
def storeFloat (t : FFmt) (ieee : Bool) (v : FVal) : Nat :=
  match v with
  | .fin n m x => (roundF t .rn (!ieee) n m x).1
  | v => (roundV t .rn v).1

/-- The bytes of one element. -/
def mstaElem (fmt : MstaFmt) (ieee : Bool) (t : Tile) (m n : Nat) : List Byte :=
  match fmt with
  | .f32 => toBytes 4 (storeFloat fmtF32 ieee (t.val m n))
  | .bf16 => toBytes 2 (storeFloat fmtBf16 ieee (t.val m n))
  | .f16 => toBytes 2 (storeFloat fmtF16 ieee (t.val m n))
  | .s32 => toBytes 4 (BitVec.ofInt 32 (max (-(2 ^ 31)) (min (2 ^ 31 - 1) (accInt (t.get m n))))).toNat
  | .raw => toBytes 8 (t.get m n).toNat
  | _ => []

/-- The bytes of a block of codes. -/
def packCodes (f : MxFmt) (codes : List Nat) : List Byte :=
  if f == .fp4 then
    (List.range 16).map fun i => BitVec.ofNat 8 ((codes[2 * i]?).getD 0 % 16 + (codes[2 * i + 1]?).getD 0 % 16 * 16)
  else codes.map (BitVec.ofNat 8)

/-- What one row of the tile writes: addresses with their bytes. -/
def mstaRow (r : TRec) (fmt : MstaFmt) (ieee : Bool) (t : Tile) (m : Nat) : List (DWord × List Byte) :=
  let cols := recExtent r 0
  match mstaMx fmt with
  | some f =>
    (List.range (cols / 32)).flatMap fun b =>
      let x := mxBlock f ((List.range 32).map fun i => t.val m (32 * b + i))
      let u := b + cols / 32 * m
      (unitAddr r u, packCodes f x.2.1) ::
        (match scaleAddr r u with | some a => [(a, [BitVec.ofNat 8 x.1])] | none => [])
  | none => (List.range cols).map fun n => (unitAddr r (n + cols * m), mstaElem fmt ieee t m n)

/-- The MSTA has converted its tile: the stamps of the tile know when (R133). -/
def Stream.converted (x : Stream) (tile : Bool) (at_ : DWord) : Stream :=
  { x with stamps := x.stamps.map fun p => if p.tile == tile && p.copyDone.isNone then { p with copyDone := some at_ } else p }

/-- The end of MSTA: the stamps of its tile retire. -/
def endMsta (s : State) (core ck : Nat) (m : MstaRun) : State :=
  match findStream s core ck with
  | none => s
  | some x =>
    retireThen s core x m.word (x.stampsOf m.tile) fun s =>
      settleStream (modStream s core ck fun x => { x with msta := none, granted := false, undo := [] }) core ck

/-- One part of a running MSTA: 32 rows are written; after the last one the stamps of the tile retire (R123). -/
def mstaPart (s : State) (core : Nat) (x : Stream) (m : MstaRun) : State :=
  match getRec s x.ctx m.recNo with
  | none => s
  | some r =>
    let parts := (recExtent r 1 + 31) / 32
    if parts ≤ m.part then endMsta s core x.cohort m
    else
      let w := (chunkRows (recExtent r 1) m.part).flatMap (mstaRow r m.fmt m.ieee ((getEngine s core).tile m.tile))
      match checkParts s core x.ctx true (w.flatMap fun e => cut e.1 e.2.length) with
      | (.ok pas, s) =>
        let s := engineWrite s core (pas.zip (w.flatMap (·.2)))
        let m' := { m with part := m.part + 1 }
        let last := parts ≤ m'.part
        let s := modStream s core x.cohort fun x =>
          { (if last then x.converted m.tile s.clock else x) with msta := some m' }
        if last then endMsta s core x.cohort m' else s
      | (a, s) => streamStop s core x.cohort x.ctx m.word true a

/-- MSTA starts, or the one that runs goes on: one part at each turn (R118, R123). -/
def execMsta (fmt : MstaFmt) (ieee tile : Bool) (rec : Fin 256) (s : State) : Out :=
  match (findStream s s.curStream.1 s.curStream.2).bind fun x => x.msta.map fun m => (x, m) with
  | some (x, m) => .next (if x.canRun && x.granted then mstaPart s s.curStream.1 x m else s)
  | none =>
    streamWord (.msta fmt ieee tile rec) s fun core x s =>
      match mstaError s core x fmt tile rec.val with
      | some c => streamError s core x.cohort c x.pc
      | none =>
        let m : MstaRun := ⟨x.pc, fmt, ieee, tile, rec.val, 0⟩
        mstaPart (modStream s core x.cohort fun x => { x.skip with msta := some m }) core x m

/-! ### Walking ahead (R203) -/

/-- The accesses that the running word of a stream has still to make, in order. -/
def streamAccesses (s : State) (core : Nat) (x : Stream) : List (DWord × ReqKind) :=
  match x.mma, x.msta with
  | some m, _ =>
    match getRec s x.ctx m.recNo with
    | none => []
    | some r =>
      let blocks := recExtent r 0 / 32
      let chunks := (m.rows + 31) / 32
      (List.range ((blocks + 3) / 4 - m.kstep)).flatMap fun d =>
        let k := m.kstep + d
        ((List.range chunks).filter fun c => d != 0 || m.chunk ≤ c).flatMap fun c =>
          (chunkRows m.rows c).flatMap fun row => (actParts r row (4 * k) (min 4 (blocks - 4 * k))).map fun a => (a.1, .read)
  | none, some m =>
    match getRec s x.ctx m.recNo with
    | none => []
    | some r =>
      (List.range ((recExtent r 1 + 31) / 32 - m.part)).flatMap fun d =>
        (chunkRows (recExtent r 1) (m.part + d)).flatMap fun row =>
          (mstaRow r m.fmt m.ieee ((getEngine s core).tile m.tile) row).map fun a => (a.1, .write)
  | none, none => []

/-- The running word of a stream is translated one page further. -/
def streamAhead (s : State) (core k : Nat) : State :=
  match (getEngine s core).streams[k]? with
  | none => s
  | some x => if x.state == .running then translateAhead s core x.ctx (streamAccesses s core x) else s

end Sys2Proof.Machine
end

