-- ==== Sys2Proof/Machine/Contexts.lean ====
section
/-! DEFINITION. Contexts (R71, R131, R157, R202, R239, R244, R253, R258, R266, R281, R284 to R286, R288): creation,
destruction, and the switch of a die pair's running context. -/

namespace Sys2Proof.Machine

/-! ### Creation and destruction -/

/-- Contexts that are resident at most, and their ids. -/
def ctxLimit : Nat := 64
def ctxIds : Nat := 4096

/-- A trap entry: a canonical, aligned address, or 0 (R281). -/
def trapEntryOk (a : DWord) : Bool := canonical a && a.toNat % 4 == 0

/-- A table root: a 4 KiB-aligned tier 0 address that can be allocated (R266). -/
def rootOk (s : State) (a : Nat) : Bool := a % 4096 == 0 && a / 2 ^ 39 == 0 && frameOk s a 4096

/-- A list as a table of numbered entries, at most n of them. -/
def numbered {α : Type} (n : Nat) (l : List α) : Sparse α := ((l.take n).zipIdx).map fun x => (x.2, x.1)

/-- The context as it is created (R186, R189, R258). -/
def newContext (d : CtxSetup) : Context :=
  ⟨d.root, d.trapEntry, numbered 256 d.tensors, numbered 4096 d.templates, [], [], [], d.swapThreshold, d.exportBase,
    d.marks.foldl (fun m x => sput m x.1 x.2) []⟩

/-- CONTEXT_CREATION. -/
def execContextCreation (ctx : Nat) (d : CtxSetup) (s : State) : Out :=
  .next (if !serving s || ctxIds ≤ ctx || ctxLimit ≤ s.ctxs.length || (sfind s.ctxs ctx).isSome || !rootOk s d.root ||
      !trapEntryOk d.trapEntry || d.swapThreshold.toNat < 2 ^ 12 || 2 ^ 24 < d.swapThreshold.toNat then s
    else
      { setCtx s ctx (newContext d) with
        fabric := { s.fabric with
          groups := numbered 64 (d.groups.map fun g => ⟨g.1, g.2⟩)
          rto := if 1 ≤ d.fabRto && d.fabRto ≤ 1024 then BitVec.ofNat 64 d.fabRto else s.fabric.rto
          table := numbered 4096 (d.fabRoutes.map fun r => r.take 4) }
        sweepPeriod := if 1 ≤ d.sweepPeriod && d.sweepPeriod ≤ 1024 then d.sweepPeriod else s.sweepPeriod })

/-- CONTEXT_DESTRUCTION: its work is discarded, its environments are FREE, and its host page requests are forgotten
(R244, R278). -/
def execContextDestruction (ctx : Nat) (s : State) : Out :=
  .next (if (sfind s.ctxs ctx).isNone then s
    else
      let s := discardWork { s with stampWaits := s.stampWaits.filter fun w => w.ctx != ctx } ctx
      { s with
        ctxs := sdel s.ctxs ctx
        running := s.running.filter fun r => r.2 != some ctx })

/-- CONTEXT_DECLARED_FATAL (R276, R288). -/
def execContextDeclaredFatal (ctx : Nat) (cause : Byte) (s : State) : Out :=
  .next (if (sfind s.ctxs ctx).isNone then s else contextFatal s ctx cause 0)

/-! ### The next context (R239) -/

/-- A core of the die pair. -/
def onDp (dp core : Nat) : Bool := core / 128 == dp

/-- The context has a saved stream, a copy or a row command on the die pair that goes on only while it runs. -/
def agentsWait (s : State) (dp ctx : Nat) : Bool :=
  (s.engines.any fun e => onDp dp e.1 && e.2.streams.any fun x =>
      x.ctx == ctx && x.state == .saved && x.savedFrom == .running) ||
    (s.channels.any fun c => c.1 / 2048 == ctx && onDp dp (c.1 % 2048 / 4) && !c.2.queue.isEmpty) ||
    s.rowQueue.any fun r => r.ctx == ctx && onDp dp r.core

/-- The classes of a context's placeable work on a die pair. -/
def workClasses (s : State) (dp ctx : Nat) : List Nat :=
  ((getCtx s ctx).runs.filterMap fun r =>
    if r.open_ && r.coreFirst < 128 * (dp + 1) && 128 * dp < r.coreFirst + r.coreCount then some r.cls else none) ++
  (if (getCtx s ctx).ready.any fun q => readyDp s ctx q.1 == dp && !q.2.entries.isEmpty then [1] else []) ++
  s.teams.filterMap fun e =>
    if e.2.ctx == ctx && onDp dp e.2.core && e.2.state != .retired && !e.2.resident &&
        (e.2.placeable || e.2.reenter || agentsWait s dp ctx) then some e.2.cls
    else none

/-- The classes of a context's placed teams on a die pair. -/
def placedClasses (s : State) (dp ctx : Nat) : List Nat :=
  s.teams.filterMap fun e =>
    if e.2.ctx == ctx && onDp dp e.2.core && e.2.resident then some e.2.cls else none

/-- The highest class of some work: the lowest number; 8 for no work. -/
def bestClass (l : List Nat) : Nat := l.foldl min 8

/-- The resident contexts in the order of the round-robin, the current one last. -/
def ctxOrder (s : State) (cur : Option Nat) : List Nat :=
  let ids := skeys s.ctxs
  match cur with
  | none => ids
  | some c => (ids.filter (c < ·)) ++ (ids.filter (· < c)) ++ [c]

/-- The best class of the work that a context has to place on the die pair. -/
def ctxClass (s : State) (dp ctx : Nat) : Nat := bestClass (workClasses s dp ctx)

/-- The context that runs next when a slice ends (R239): the one with placeable work of the highest class. -/
def sliceNext (s : State) (dp : Nat) (cur : Option Nat) : Option Nat :=
  let ids := ctxOrder s cur
  let best := bestClass (ids.map (ctxClass s dp))
  if best == 8 then none
  else (ids.find? fun c => ctxClass s dp c == best).filter fun c => some c != cur

/-- The context that pre-empts the running one (R239): its work is of a class strictly higher than every class of the
running context's placed and queued work, and not of class 7 alone. -/
def preempting (s : State) (dp cur : Nat) : Option Nat :=
  let limit := min 7 (bestClass (workClasses s dp cur ++ placedClasses s dp cur))
  let ids := (ctxOrder s (some cur)).filter fun c => c != cur
  let best := bestClass (ids.map (ctxClass s dp))
  if best < limit then ids.find? fun c => ctxClass s dp c == best else none

/-- The context that the die pair is to run next, if another one is: at the end of a slice, or at once. -/
def nextContext (s : State) (dp : Nat) (sliceEnd : Bool) : Option Nat :=
  match sget none s.running dp with
  | none => sliceNext s dp none
  | some cur => if sliceEnd then sliceNext s dp (some cur) else preempting s dp cur

/-! ### Stop points (R284) -/

/-- A stall that ends only by something else, a row command's end among it, at whose instruction the team is saved. -/
def Wait.savable : Wait → Bool
  | .drain _ _ _ _ | .deferred _ | .barArrive _ _ | .hold | .rowQueue | .commit | .mirror => true
  | _ => false

/-- The team can be saved now. -/
def Team.atStop (t : Team) : Bool :=
  match t.state with
  | .ready => t.atBoundary && !t.blocked
  | .stalled => t.wait.savable || (t.wait == .none && t.atBoundary)
  | _ => true

/-- A stream at an interrupt point (R131). DESIGN CHOICE: an MSTA runs to its end, also one that is PARKED on a page, and the
switch waits (log entry 119). -/
def Stream.atStop (x : Stream) : Bool := x.msta.isNone

/-- Every agent of the context on the die pair is at its stop point, and no line of its bundles is held by a row
command (R218). -/
def canLeave (s : State) (dp ctx : Nat) : Bool :=
  (s.teams.all fun e => e.2.ctx != ctx || !onDp dp e.2.core || !e.2.resident || e.2.atStop) &&
  (s.engines.all fun e => !onDp dp e.1 || e.2.streams.all fun x => x.ctx != ctx || x.atStop) &&
  (s.channels.all fun c => c.1 / 2048 != ctx || !onDp dp (c.1 % 2048 / 4) || c.2.queue.all fun x => x.fab.isEmpty) &&
  s.pools.all fun p => p.1 % 4096 != ctx || !onDp dp (p.1 / 4096) ||
    p.2.bundles.all fun b => !b.2.present || !(b.2.phys.any (heldLine s true))

/-! ### Saving -/

/-- A team that holds bundles is to enter them again (R157). -/
def Team.expelled (t : Team) : Team := { t with reenter := t.reenter || !t.entered.isEmpty }

/-- The image of a team (R285): open spans end. One that was swapped out before has its image. -/
def Team.saved (t : Team) : Team := (if t.resident then t.stored else t).expelled

/-- A stream's image: its state, tiles and slots, and what it has latched (R131). -/
def Stream.saved (e : Engine) (x : Stream) : Stream :=
  { x with
    state := .saved, savedFrom := x.state, granted := false
    mma := x.mma.map fun m => { m with interrupts := m.interrupts + 1 }
    savedTile0 := if x.tileMask.getLsbD 0 then e.tile0 else .zero
    savedTile1 := if x.tileMask.getLsbD 1 then e.tile1 else .zero
    savedSlots := e.slots.filter fun p => x.holdsSlot p.1
    savedLatched := e.latched.filter fun l => l.owner == x.cohort }

/-- The engine without a context's streams in it. A stream in ERROR is SAVED too, and comes back in ERROR: a DESIGN CHOICE,
since Table 7-4 lets ERROR be left by MDET only (log entry 92). -/
def Engine.leave (ctx : Nat) (e : Engine) : Engine :=
  let mine := e.streams.filter fun x => x.ctx == ctx && x.state != .saved
  { mine.foldl Engine.release e with
    streams := e.streams.map fun x => if x.ctx == ctx && x.state != .saved then x.saved e else x }

/-- A bundle after its eviction by a switch: WAITING where a team holds it entered or waits for it (R157). -/
def Bundle.evicted (waits : Bool) (b : Bundle) : Bundle :=
  let held := b.recorded || !b.enterers.isEmpty
  { b with
    state := if held || waits || b.state == .waiting then .waiting else .declared
    recorded := held, reserved := [] }

/-- The bundles of a pool leave (R157): written bytes go home; a dropped bundle is freed. -/
def leavePool (s : State) (k : Nat) : State :=
  match getPool s k with
  | none => s
  | some p =>
    let s := dropLines s (k / 4096) (distinct ((p.bundles.filter fun b => b.2.present).flatMap fun b => b.2.phys))
    let dropped := (p.bundles.filter fun b => b.2.dropping).map (·.1)
    let s := setPool s k { p with
      admitting := none
      bundles := p.bundles.map fun b => (b.1, b.2.evicted (!(entererOf s k b.1).isEmpty)) }
    dropped.foldl (fun s i => freeBundle s k i) s

/-- A copy that waits for its condition reads it again after the switch (R202). -/
def CopyCmd.saved (c : CopyCmd) : CopyCmd := { c with condPa := none, met := false }

/-- A row command that has not begun gives up its places at the slices, and takes new ones, in its turn, when its context
runs again (R223). -/
def RowCmd.saved (s : State) (r : RowCmd) : RowCmd :=
  if !r.begun && !r.stopped then { r with places := [], toAccept := r.slices s } else r

/-- The teams of a context that hold slots on a die pair. -/
def teamsAt (s : State) (dp ctx : Nat) : List Nat :=
  (s.teams.filter fun e => e.2.ctx == ctx && onDp dp e.2.core && e.2.resident).map (·.1)

/-- Stratus has assigned a 4 KiB-aligned place to the image of every such team (R285; log entry 96). -/
def savesOk (s : State) (dp ctx : Nat) (saves : List (Nat × Nat)) : Bool :=
  (teamsAt s dp ctx).all fun u => (saves.find? fun x => x.1 == u).any fun x => x.2 % 4096 == 0 && imageFree s u x.2

/-- The images of a context's teams go to the places that Stratus assigns (R285). -/
def storeImages (s : State) (us : List Nat) (saves : List (Nat × Nat)) : State :=
  us.foldl (fun s u => storeImage s u ((saves.find? fun x => x.1 == u).map (·.2))) s

/-- The running context of a die pair is saved. -/
def leaveCtx (s : State) (dp ctx : Nat) (saves : List (Nat × Nat)) : State :=
  let us := teamsAt s dp ctx
  let pools := (s.pools.filter fun p => p.1 % 4096 == ctx && onDp dp (p.1 / 4096)).map (·.1)
  let all := (s.teams.filter fun e => e.2.ctx == ctx && onDp dp e.2.core && e.2.state != .retired).map (·.1)
  let s := all.foldl (fun s u => s.modTeam u Team.saved) s
  let s := storeImages s us saves
  let s := pools.foldl leavePool s
  let s : State := { s with
    grants := s.grants.filter fun g => !(onDp dp g.core && (s.getTeam g.uid).ctx == ctx)
    envs := s.envs.map fun e =>
      (e.1, if e.2.ctx == ctx && onDp dp (e.1 / 4096) && e.2.state == .live then { e.2 with state := .saved } else e.2)
    channels := s.channels.map fun c =>
      (c.1, if c.1 / 2048 == ctx && onDp dp (c.1 % 2048 / 4) then { c.2 with queue := c.2.queue.map CopyCmd.saved } else c.2)
    rowQueue := s.rowQueue.map fun r => if r.ctx == ctx && onDp dp r.core then r.saved s else r
    engines := s.engines.map fun e => (e.1, if onDp dp e.1 then e.2.leave ctx else e.2)
    running := sput s.running dp none }
  pools.foldl (fun s k => trimPool s (k / 4096) ctx) s

/-! ### Restoring -/

/-- A stream as it was saved, with its tiles and slots back, and the block latched for it latched again (R131). -/
def Engine.putBack (e : Engine) (x : Stream) : Engine :=
  { e with
    latched := x.savedLatched.or e.latched
    tile0 := if x.tileMask.getLsbD 0 then x.savedTile0 else e.tile0
    tile1 := if x.tileMask.getLsbD 1 then x.savedTile1 else e.tile1
    slots := x.savedSlots.foldl (fun m p => sset [] m p.1 p.2) e.slots }

def Stream.restored (x : Stream) : Stream :=
  { x with
    state := x.savedFrom, savedFrom := .running, stopped := false
    savedTile0 := .zero, savedTile1 := .zero, savedSlots := [], savedLatched := none }

/-- The engine with a context's streams restored. -/
def Engine.enter (ctx : Nat) (e : Engine) : Engine :=
  let mine := e.streams.filter fun x => x.ctx == ctx && x.state == .saved
  { mine.foldl Engine.putBack e with
    streams := e.streams.map fun x => if x.ctx == ctx && x.state == .saved then x.restored else x }

/-- A context starts to run on a die pair: its environments are LIVE (R253), its streams go on, Cumulus admits its
bundles (R157). Its teams are placed by the distributor. -/
def enterCtx (s : State) (dp ctx : Nat) : State :=
  let s : State := { s with
    running := sput s.running dp (some ctx)
    envs := s.envs.map fun e =>
      (e.1, if e.2.ctx == ctx && onDp dp (e.1 / 4096) && e.2.state == .saved then { e.2 with state := .live } else e.2)
    engines := s.engines.map fun e => (e.1, if onDp dp e.1 then e.2.enter ctx else e.2) }
  (s.pools.filter fun p => p.1 % 4096 == ctx && onDp dp (p.1 / 4096)).foldl (fun s p => evaluatePool s p.1) s

/-- CONTEXT_SWITCH: at the end of a slice, or at a pre-emption, once every agent of the running context is at its stop
point, it is saved and the next context is restored. An idle die pair starts a context. saves gives the places of the
teams' images. -/
def execContextSwitch (w : SwitchTurn) (s : State) : Out :=
  let dp := w.dp
  .next (match nextContext s dp w.sliceEnd with
    | none => s
    | some c =>
      match sget none s.running dp with
      | none => if dp < 4 then enterCtx s dp c else s
      | some cur => if canLeave s dp cur && savesOk s dp cur w.saves then enterCtx (leaveCtx s dp cur w.saves) dp c else s)

end Sys2Proof.Machine
end

