-- ==== Sys2Proof/Machine/CrossLane.lean ====
section
/-! DEFINITION. The cross-lane words (R94, R95, R376, R386, R388, R389, R402, R413, R414, R416). They act
on every active lane of the team; every source is read before any result is written. -/

namespace Sys2Proof.Machine

/-- A 32-bit value, or a pair, as 64 bits. -/
def Team.key (t : Team) (pair : Bool) (a : Reg) (l : Nat) : DWord :=
  if pair then t.src64 a l else zext32 (t.src a l)

/-- Write a 32-bit value or a pair. -/
def Team.setKey (t : Team) (pair : Bool) (d l : Nat) (x : DWord) : Team :=
  if pair then t.setLane64 d l x else t.setLane32 d l (lo32 x)

/-! ### SHFL, VOTE, MATCH -/

/-- The source lane of SHFL, when it is a lane number (R402). -/
def shflSource (mode : ShflMode) (l c : Nat) : Option Nat :=
  match mode with
  | .idx => some (c % 1024)
  | .up => if c ≤ l then some (l - c) else none
  | .down => some (l + c)
  | .xor => some (l ^^^ c % 1024)

/-- SHFL (R402). -/
def execShfl (mode : ShflMode) (pair : Bool) (d : VReg) (a b : Reg) (s : State) : Out :=
  teamWord (.shfl mode pair d a b) s fun t =>
    t.wordLanes.foldl (init := t) fun t' l =>
      let src := match shflSource mode l (t.src b l).toNat with
        | some m => if t.active.getLsbD m then m else l
        | none => l
      t'.setKey pair d.val l (t.key pair a src)

/-- VOTE (R416). -/
def execVote (mode : VoteMode) (pair : Bool) (p : PReg) (a : Reg) (s : State) : Out :=
  teamWord (.vote mode pair p a) s fun t =>
    t.pwrite p.val t.wordLanes fun _ => voteHolds mode ((lanesOf t.active).map (t.key pair a))

/-- MATCH (R376). -/
def execMatchLanes (d : VReg) (p : PReg) (a : Reg) (ty : IntTy) (s : State) : Out :=
  teamWord (.matchLanes d p a ty) s fun t =>
    let all := lanesOf t.active
    let group := fun l => all.filter fun m => t.key ty.is64 a m == t.key ty.is64 a l
    (t.wordLanes.foldl (fun t' l => t'.setLane32 d.val l (BitVec.ofNat 32 (group l).length)) t).pwrite
      p.val t.wordLanes fun l => (group l).head? == some l

/-! ### TRED and TSCAN -/

/-- A reduction over one element position: identity and combination (R94, R413). -/
structure Reducer where
  ident : Nat
  comb : Nat → Nat → Nat × Flags

/-- Integer reductions over w bits. -/
def intReducer (op : RedOp) (w : Nat) (sg : Bool) : Reducer :=
  let lt := fun x y : Nat =>
    if sg then (BitVec.ofNat w x).slt (BitVec.ofNat w y) else decide (x < y)
  match op with
  | .add => ⟨0, fun x y => ((x + y) % 2 ^ w, 0)⟩
  | .min => ⟨if sg then 2 ^ (w - 1) - 1 else 2 ^ w - 1, fun x y => (if lt y x then y else x, 0)⟩
  | .max => ⟨if sg then 2 ^ (w - 1) else 0, fun x y => (if lt x y then y else x, 0)⟩

/-- Floating-point reductions, rounded to nearest even. -/
def fltReducer (op : RedOp) (f : FFmt) : Reducer :=
  match op with
  | .add => ⟨f.signW, fAdd f .rn⟩
  | .min => ⟨f.infCode, fMinMax f false⟩
  | .max => ⟨f.signW + f.infCode, fMinMax f true⟩

/-- The element positions of a reduction type: shift, width, and the reduction. -/
def reducers (op : RedOp) : RTy → List (Nat × Nat × Reducer)
  | .int ty => let w := if ty.is64 then 64 else 32; [(0, w, intReducer op w ty.signed)]
  | .flt .f32 => [(0, 32, fltReducer op fmtF32)]
  | .flt ty => [(0, 16, fltReducer op (eltFmt ty)), (16, 16, fltReducer op (eltFmt ty))]

/-- One level up the tree (R94). -/
def levelUp (r : Reducer) : List Nat → List Nat × Flags
  | x :: y :: rest =>
    let n := r.comb x y
    let up := levelUp r rest
    (n.1 :: up.1, n.2 ||| up.2)
  | l => (l, 0)

/-- The levels of the tree from the leaves on, and the flags of its nodes. -/
def treeLevels (r : Reducer) : Nat → List Nat → List (List Nat) × Flags
  | 0, l => ([l], 0)
  | h + 1, l =>
    let up := levelUp r l
    let rest := treeLevels r h up.1
    (l :: rest.1, up.2 ||| rest.2)

/-- The nodes that exactly cover lanes 0 to n - 1, largest first (R95). -/
def coverNodes (levels : List (List Nat)) (n : Nat) : List Nat :=
  ((List.range 11).reverse.foldl (init := ((0 : Nat), ([] : List Nat))) fun acc h =>
    if n.testBit h then
      (acc.1 + 2 ^ h, acc.2 ++ [(((levels[h]?).getD [])[acc.1 / 2 ^ h]?).getD 0])
    else acc).2

/-- The scan value over lanes 0 to n - 1, and the flags of its own additions (R95). DESIGN CHOICE: the value of a single
leaf is the leaf itself, a NaN with its payload too (log entry 114). -/
def scanValue (r : Reducer) (levels : List (List Nat)) (n : Nat) : Nat × Flags :=
  match coverNodes levels n with
  | [] => (r.ident, 0)
  | x :: rest => rest.foldl (fun acc y => let c := r.comb acc.1 y; (c.1, acc.2 ||| c.2)) (x, 0)

/-- The leaves of an element position (R94). -/
def leaves (t : Team) (a : Reg) (pair : Bool) (sh w ident : Nat) : List Nat :=
  (List.range 1024).map fun l =>
    if t.active.getLsbD l then field (t.key pair a l).toNat sh w else ident

/-- A reduction word: cover gives, for a lane, how many lanes its value covers, from lane 0. Leaves and
nodes are formed once. -/
def reduceWord (t : Team) (op : RedOp) (ty : RTy) (d : VReg) (a : Reg) (cover : Nat → Nat) : Team :=
  let pair := match ty with | .int t => t.is64 | .flt _ => false
  let trees := (reducers op ty).map fun r => (r.1, r.2.2, treeLevels r.2.2 10 (leaves t a pair r.1 r.2.1 r.2.2.ident))
  let t0 := t.orFlags (orAll (trees.map (·.2.2.2)))
  t.wordLanes.foldl (init := t0) fun t' l =>
    let vs := trees.map fun r => (r.1, scanValue r.2.1 r.2.2.1 (cover l))
    (t'.setKey pair d.val l (BitVec.ofNat 64 (vs.foldl (fun acc v => acc + v.2.1 * 2 ^ v.1) 0))).orFlags
      (orAll (vs.map (·.2.2)))

/-- TRED (R94, R413): the root covers all 1,024 lanes. -/
def execTred (op : RedOp) (ty : RTy) (d : VReg) (a : Reg) (s : State) : Out :=
  teamWord (.tred op ty d a) s fun t => reduceWord t op ty d a fun _ => 1024

/-- TSCAN (R95, R413). -/
def execTscan (op : RedOp) (excl : Bool) (ty : RTy) (d : VReg) (a : Reg) (s : State) : Out :=
  teamWord (.tscan op excl ty d a) s fun t => reduceWord t op ty d a fun l => if excl then l else l + 1

/-! ### Predicates -/

/-- PLOG's operation on two bits (Table 21-8). -/
def plogBit : PlogOp → Bool → Bool → Bool
  | .and, x, y => x && y
  | .or, x, y => x || y
  | .xor, x, y => x != y
  | .andn, x, y => x && !y
  | .not, x, _ => !x

/-- PLOG (R388). -/
def execPlog (op : PlogOp) (pd pa pb : PReg) (s : State) : Out :=
  teamWord (.plog op pd pa pb) s fun t =>
    t.pwrite pd.val t.wordLanes fun l =>
      plogBit op ((t.pread pa.val).getLsbD l) ((t.pread pb.val).getLsbD l)

/-- PCNT (R386). -/
def execPcnt (d : Reg) (p : PReg) (s : State) : Out :=
  teamWord (.pcnt d p) s fun t =>
    let n := (lanesOf (t.active &&& t.pread p.val)).length
    match d with
    | .s k => t.swrite k.val (BitVec.ofNat 64 n)
    | .v k => t.wordLanes.foldl (fun t' l => t'.setLane32 k.val l (BitVec.ofNat 32 n)) t

/-- PMOV mode 0 (R389). -/
def execPmovToVector (d : VReg) (p : PReg) (s : State) : Out :=
  teamWord (.pmovToVector d p) s fun t =>
    t.wordLanes.foldl (fun t' l => t'.setLane32 d.val l (if (t.pread p.val).getLsbD l then 1 else 0)) t

/-- PMOV mode 1 (R389). -/
def execPmovToPredicate (p : PReg) (a : Reg) (s : State) : Out :=
  teamWord (.pmovToPredicate p a) s fun t => t.pwrite p.val t.wordLanes fun l => t.src a l != 0

/-- PMOV mode 2 (R389). -/
def execPmovWord (d : SReg) (p : PReg) (w : Fin 32) (s : State) : Out :=
  teamWord (.pmovWord d p w) s fun t => t.swrite d.val (zext32 (maskWord (t.pread p.val) w.val))

end Sys2Proof.Machine
end

