-- ==== Sys2Proof/Machine/Sync.lean ====
section
/-! DEFINITION. FENCE, WAITV, AWAIT and ASET (R170, R171, R331, R355, R417 to R419). -/

namespace Sys2Proof.Machine

/-- FENCE (R170): a release fence, then an acquire fence, which waits for the team's earlier loads and observed ends as a
release at core scope does. -/
def execFence (sc : Scope) (acq rel : Bool) (s : State) : Out :=
  issue (.fence sc acq rel) s fun s =>
    match releaseFirst (if rel || sc == .team then sc.relTo else .core) (rel && sc == .coh) s with
    | none => s.stall .mirror
    | some s => (acquireAt (acq && sc.far) s s.cur).modTm Team.finish

/-! ### WAITV -/

/-- One lane of WAITV: the address of its word (R417). At cohort scope and above its reads are far (R155); at core scope
a missing sector is filled (R419). -/
def waitvLane (t : Team) (far : Bool) (m : MemOp) (s : State) (l : Nat) :
    Except (List LaneFault) Nat × State :=
  let ea := memAddr t m l
  if ea.toNat % 4 != 0 then (.error [.code 0x07], s)
  else
    match globalCheck s t ea 4 .load (if far then .far else .plain) with
    | (.fail fs, s) => (.error fs, s)
    | (.aperture, s) => (.error [.code 0x08], s)
    | (.fabric _ _, s) => (.error [.code 0x12], s)
    | (.ok pas, s) => (.ok (pas.headD 0), if far then s else (coreRead s t.core pas).2)

/-- Lanes whose word has not compared yet. -/
def WaitV.waiting (w : WaitV) : Mask := maskOf (w.lanes.map (·.1)) &&& ~~~w.satisfied

/-- Lanes join a wait, and their words are read for the first time. -/
def joinWait (s : State) (w0 : WaitV) (lanes : List (Nat × Nat)) : State :=
  s.modTm fun t =>
    let w := (t.waitv).getD w0
    reread s { t with waitv := some { w with lanes := w.lanes ++ lanes } } (lanes.map fun e => lineOf e.2)

/-- The wait of team u ends when every lane is satisfied: an acquire, and the team goes on (R171). -/
def waitDone (s : State) (u : Nat) : Bool :=
  match (s.getTeam u).waitv with
  | some w => w.waiting == 0
  | none => true

def endWait (s : State) (u : Nat) : State :=
  let far := match (s.getTeam u).waitv with | some w => w.sc.far | none => false
  (acquireAt far s u).modTeam u fun t => t.wake.finish

/-- The satisfying reads of team u's wait are acquires (R171). -/
def acquireRead (s : State) (u : Nat) : State :=
  acquireAt (match (s.getTeam u).waitv with | some w => w.sc.far && w.satisfied != 0 | none => false) s u

/-- WAITV after its lanes were checked: it ends, parks, or traps with the waiting lanes unfinished. -/
def settleWait (s : State) (faults : List (Nat × LaneFault)) : State :=
  if faults.isEmpty then
    if waitDone s s.cur then endWait s s.cur else s.park .waitv
  else if faults.any fun f => match f.2 with | .code _ => false | _ => true then
    endMem s false true faults
  else
    let s := acquireRead s s.cur
    let rest := match s.tm.waitv with | some w => w.waiting | none => 0
    let s := s.modTm fun t => { t with
      waitv := t.waitv.map fun w => { w with lanes := w.lanes.filter fun e => w.satisfied.getLsbD e.1 } }
    laneTrap s false rest (faults.map fun f => (f.1, match f.2 with | .code c => c | _ => 0x12))

/-- WAITV (R417): the active lanes of every pass; a lane that was satisfied is not read again. -/
def execWaitv (ne : Bool) (sc : Scope) (t : VReg) (m : MemOp) (s : State) : Out :=
  issue (.waitv ne sc t m) s fun s =>
    let u := s.tm
    let known : List Nat := (u.waitv.map fun w => w.lanes.map (·.1)).getD []
    let x := eachLane ((lanesOf u.acting).filter fun l => !known.contains l) (waitvLane u sc.far m) s
    settleWait (joinWait x.1 ⟨ne, sc, u.frame + t.val, [], 0⟩ x.2.1) x.2.2

/-! ### Arrival counters -/

/-- The value operand of ASET and AWAIT (R331). -/
def countVal (t : Team) : CountSrc → Nat
  | .s n => (t.sread n.val).toNat % 2 ^ 16
  | .imm n => n.val

/-- ASET (R331). -/
def execAset (a : CReg) (v : CountSrc) (s : State) : Out :=
  teamWord (.aset a v) s fun t => t.awrite a.val (BitVec.ofNat 16 (countVal t v))

/-- AWAIT (R331): the team parks until the counter has reached the value. -/
def execAwait (a : CReg) (v : CountSrc) (s : State) : Out :=
  issue (.await a v) s fun s =>
    let n := countVal s.tm v
    if counted s.tm a.val n then s.modTm Team.finish else s.park (.await a.val n)

end Sys2Proof.Machine
end

