-- ==== Sys2Proof/Machine/Headers.lean ====
section
/-! DEFINITION. Clause headers and drains (R39 to R44, R156), commits of results (R53, R330, R331, R370), the re-reads
of WAITV (R418, R419), and words that no encoding matches (R55). -/

namespace Sys2Proof.Machine

/-! ### Fetching (log entry 18) -/

/-- A fetch by the current team, whose wait for a page names no lanes; read is the count of a header that has been
read before (R56). What the team knows of failed pages it keeps until the clause starts (R274, R278). -/
def withFetch (va : DWord) (n : Nat) (read : Option Nat) (s : State) (k : List Word → State → State) : State :=
  match fetchAll s s.tm va n with
  | (.ok ws, s) =>
    k ws (s.modTm fun t => { t with only := none, held := none, unfin := 0 })
  | (.error f, s) =>
    let nested := s.tm.inHandler
    let s := fetchStops s f
    if (sfind s.teams s.cur).isSome then
      s.modTm fun t => { t with unfin := 0, held := none, savedRead := if nested then t.savedRead else read }
    else s

/-! ### Headers -/

/-- A result that a drain waits for: it could not commit (R43, R276). Lanes of an LDC that are still to be replayed after
the handler are not. -/
def Pending.awaited (ld tr : Bool) (p : Pending) : Bool := p.drained ld tr && (!p.more || !p.lost.isEmpty)

/-- The words of a clause are there: it starts with its passes, and what was known of failed pages is over (R42). -/
def Team.startClause (t : Team) (base : DWord) (cls : Nat) (ws : List Word) : Team :=
  { t with resume := none, fatalPages := [], hostFail := [] }.enterClause base cls ws

/-- A clause starts (R42, R43): results of the drained kinds commit, the team waits for those that cannot yet and for
its engine commands, and the words are there with their passes. -/
def enterHeader (w : Word) (s : State) : State :=
  let s := s.modTm fun t => t.commitWhere (Pending.drained (drainBit w 0) (drainBit w 3))
  if s.tm.pending.any (Pending.awaited (drainBit w 0) (drainBit w 3)) then s.stall .commit
  else if drainBit w 2 && !engineIdle s s.tm then
    s.stall (.drain (drainBit w 0) (drainBit w 1) (drainBit w 2) (drainBit w 3))
  else
    withFetch (s.tm.pc + 4) (hdrCount w) (some (hdrCount w)) s fun ws s =>
      s.modTm fun t => t.startClause (t.pc + 4) (hdrClass w) ws

/-- The illegal-instruction trap of a word found where a header is expected (R39, R40). -/
def badHeader (ws : List Word) (s : State) : State := takeTrap s 0x01 0 (ws.headD 0) s.tm.pc

/-- CLAUSE_HEADER: a pending race exception comes first (R156); words left by a call are resumed without a header
(R39, R67). A clause off a 4-byte boundary, as a changed return address may give, traps with the word found there
(R39, R70; log entry 89). -/
def execClauseHeader (s : State) : Out :=
  let t := s.tm
  .next (
    if t.resume.isNone && t.racePending && !t.inHandler then
      if t.blocked then s.stall .commit
      else takeTrap (s.modTm fun t => { t with racePending := false }) 0x09 0 0 t.pc
    else if t.pc.toNat % 4 != 0 then withFetch t.pc 1 none s badHeader
    else
      match t.resume with
      | some (n, cls) =>
        withFetch t.pc n none s fun ws s => s.modTm fun t => t.startClause t.pc cls ws
      | none =>
        withFetch t.pc 1 none s fun ws s =>
          if headerOk (ws.headD 0) then enterHeader (ws.headD 0) s else badHeader ws s)

/-- DRAIN_END: the engine commands that a header waits for are over; the header goes on. -/
def execDrainEnd (uid : Nat) (s : State) : Out :=
  let t := s.getTeam uid
  .next (match t.wait with
    | .drain _ _ _ _ => if engineIdle s t then s.modTeam uid Team.wake else s
    | _ => s)

/-- ILLEGAL_INSTRUCTION_WORD: the illegal-instruction or the emulation trap (R44, R55). -/
def execIllegalInstructionWord (w : Word) (s : State) : Out :=
  .next (trapWord s.noteIssue (wordTrap w) (.illegalInstructionWord w))

/-! ### Commits (R53, R330, R370) -/

/-- The k-th result may commit: its span has ended, it has not to wait, and no earlier result goes to its registers. -/
def Team.canCommit (t : Team) (k : Nat) (p : Pending) : Bool :=
  p.span == 0 && !p.blocked && !((t.pending.take k).any p.overlaps)

/-- The lane of a value lies among some lanes of its pass. -/
def valueIn (lanes : BitVec 32) (e : Nat × Word) : Bool := lanes.getLsbD (e.1 % 32)

/-- The k-th result commits: an LDC lane by lane, any other whole. Its lines have come. -/
def Team.commitAt (t : Team) (k : Nat) (p : Pending) (lanes : BitVec 32) : Team :=
  let t := t.came p.onWay
  let late := p.vals.filter fun e => !valueIn lanes e
  match p.kind with
  | .ldc _ =>
    if late.isEmpty then { t.commitOne p with pending := t.pending.take k ++ p.rest.toList ++ t.pending.drop (k + 1) }
    else { t.putVals (p.vals.filter (valueIn lanes)) with pending := t.pending.set k { p with vals := late } }
  | _ => { t.commitOne p with pending := dropNth t.pending k }

/-- RESULT_COMMIT: not while the team is HALTED (R306). -/
def execResultCommit (uid k : Nat) (lanes : BitVec 32) (s : State) : Out :=
  let t := s.getTeam uid
  .next (match t.pending[k]? with
    | none => s
    | some p =>
      if t.state == .halted || !t.canCommit k p then s
      else retryTeam (s.setTeam uid (t.commitAt k p lanes).afterCommit) uid)

/-! ### WAITV (R418, R419) -/

/-- WAITV_REREAD: at core scope the words are fetched where they are missing, and read again; at cohort scope and above the
slice has read them at each write (R418). The wait ends when every lane is satisfied. -/
def execWaitvReread (uid : Nat) (s : State) : Out :=
  let t := s.getTeam uid
  .next (match t.wait, t.waitv with
    | .waitv, some w =>
      let s := if w.sc.far then s
        else refetch s t.core (distinct ((w.lanes.filter fun e => !w.satisfied.getLsbD e.1).map fun e => lineOf e.2))
      if waitDone s uid then endWait s uid else s
    | _, _ => s)

end Sys2Proof.Machine
end

