-- ==== Sys2Proof/Machine/Debug.lean ====
section
/-! DEFINITION. The debugger's stops and steps (R305, R306, R309, R310). -/

namespace Sys2Proof.Machine

/-- PARTITION_STOP (R306). -/
def execPartitionStop (core part : Nat) (s : State) : Out :=
  .next (if 512 ≤ core || 4 ≤ part then s else stopPart s (core * 4 + part))

/-- The stop of a partition ends: its teams go on; one that is away with its context does so at its return (R286). -/
def resumePart (s : State) (k : Nat) : State :=
  if !s.dbg.halted.contains k then s
  else
    { s with
      teams := s.teams.map fun e => (e.1, if e.2.partKey == k then e.2.unhalt else e.2)
      dbg := { s.dbg with halted := s.dbg.halted.filter (· != k) } }

/-- PARTITION_RESUME (R306). -/
def execPartitionResume (core part : Nat) (s : State) : Out := .next (resumePart s (core * 4 + part))

/-- A halted member becomes runnable until its next arrival; one that is SWAPPED runs once it is placed (R309). -/
def Team.startStep (ck : Nat) (t : Team) : Team :=
  if t.cohort != some ck then t
  else if t.state == .swapped || (t.state == .halted && t.haltedFrom == .swapped) then { t with stepping := true }
  else if t.state == .halted then { t.unhalt with stepping := true }
  else t

/-- A phase step of a cohort on its die pair. -/
def phaseStep (s : State) (dp ctx cohort : Nat) : State :=
  let ck := cohKey ctx cohort
  match getCohort s ck with
  | none => s
  | some c =>
    if c.dp != dp then s
    else
      let teams := s.teams.map fun e => (e.1, e.2.startStep ck)
      let running := teams.any fun e => e.2.stepping && e.2.cohort == some ck
      { s with
        teams := teams
        dbg := { s.dbg with
          stepDone := sset false s.dbg.stepDone dp (!running)
          stepCohort := sput s.dbg.stepCohort dp ck } }

/-- PHASE_STEP (R309). -/
def execPhaseStep (dp ctx cohort : Nat) (s : State) : Out := .next (phaseStep s dp ctx cohort)

/-! ### Engines (R310) -/

/-- The k-th attached stream of a core in attach order. -/
def nthStream (s : State) (core k : Nat) : Option Stream :=
  ((getEngine s core).streams.filter fun x => x.state != .saved)[k]?

/-- The debugger stops a stream, or lets it go on: a stopped one gives the array up, which interrupts its MMA (R116). -/
def Stream.setStop (stop : Bool) (x : Stream) : Stream :=
  if stop && x.granted then { x.yield with stopped := true } else { x with stopped := stop }

/-- Bits 7:4 of DBG_ENG and the attached streams: one whose bit is set stops at its next interrupt point, and goes on
when the bit is clear. An MSTA that runs goes on to its end (R131). -/
def syncEngine (s : State) (core : Nat) : State :=
  let b := sget 0 s.dbg.engStop core
  (List.range 4).foldl (init := s) fun s k =>
    match nthStream s core k with
    | none => s
    | some x =>
      let stop := b.getLsbD (4 + k) && (x.stopped || x.atStop)
      if x.stopped == stop then s else modStream s core x.cohort (Stream.setStop stop)

/-- The same for every core of which the debugger stops an engine. -/
def syncStops (s : State) : State := (skeys s.dbg.engStop).foldl syncEngine s

/-- DBG_ENG of a core takes a value. -/
def setEng (s : State) (core : Nat) (b : BitVec 9) : State :=
  if 512 ≤ core then s
  else syncEngine { s with dbg := { s.dbg with engStop := sset 0 s.dbg.engStop core b } } core

/-- One bit of DBG_ENG is set or cleared. -/
def setEngBit (s : State) (core bit : Nat) (on : Bool) : State :=
  let b := sget 0 s.dbg.engStop core
  let m : BitVec 9 := BitVec.ofNat 9 (2 ^ bit)
  setEng s core (if on then b ||| m else b &&& ~~~m)

/-- DBG_ENG_CHANNEL_STOP: a channel stops at a unit boundary, where it always is between units (R202). -/
def execDbgEngChannelStop (core chan : Nat) (s : State) : Out := .next (if chan < 4 then setEngBit s core chan true else s)

/-- DBG_ENG_STREAM_STOP. -/
def execDbgEngStreamStop (core k : Nat) (s : State) : Out := .next (if k < 4 then setEngBit s core (4 + k) true else s)

/-- DBG_ENG_ROW_STOP: row commands of the core's teams stop at a step boundary (R223). -/
def execDbgEngRowStop (core : Nat) (s : State) : Out := .next (setEngBit s core 8 true)

/-- DBG_ENG_RESUME: the engine of a bit goes on where it stopped. -/
def execDbgEngResume (core bit : Nat) (s : State) : Out := .next (if bit < 9 then setEngBit s core bit false else s)

/-! ### Steps end with an arrival (R309) -/

/-- A stepping member that has arrived halts again; in a partition that is not stopped it runs on freely. -/
def Team.stepEnd (stopped : Bool) (t before : Team) : Team :=
  if t.stepping && before.cohort == t.cohort && before.arr != t.arr then
    { (if stopped then t.halt else t) with stepping := false }
  else t

/-- The steps of the die pairs whose members have all halted are over. -/
def closeSteps (s : State) : State :=
  s.dbg.stepCohort.foldl (init := s) fun s e =>
    if s.teams.any fun t => t.2.stepping && t.2.cohort == some e.2 then s
    else
      { s with dbg := { s.dbg with
          stepDone := sset false s.dbg.stepDone e.1 true
          stepCohort := sdel s.dbg.stepCohort e.1 } }

/-- What one step does for the members that a phase step runs. -/
def noteSteps (before s : State) : State :=
  if s.dbg.stepCohort.isEmpty then s
  else
    closeSteps { s with
      teams := s.teams.map fun e =>
        (e.1, match sfind before.teams e.1 with
          | some b => e.2.stepEnd (s.dbg.halted.contains e.2.partKey) b
          | none => e.2) }

end Sys2Proof.Machine
end

