-- ==== Sys2Proof/Machine/Proxy.lean ====
section
/-! DEFINITION. Fabric requests at their target (R297 to R300): the proxy performs each once, remembers its response, and
joins contributions in rounds. -/

namespace Sys2Proof.Machine

/-! ### Requests -/

/-- How a request accesses its bytes. -/
def fabAccess : FabOp → ReqKind
  | .load _ => .read
  | _ => .write

/-- The request is one of the accesses that the window admits: up to 64 bytes, an atomic aligned. -/
def FabIn.admitted (q : FabIn) : Bool :=
  1 ≤ fabSize q.op && fabSize q.op ≤ 64 && q.off < 2 ^ 36 && q.src < 4096 &&
    match q.op with
    | .atom op _ _ => q.off % atomSize op == 0
    | _ => true

/-- How an attempt ends: a response, or a wait. -/
inductive ProxyEnd where
  | done (r : FabReply)
  | wait
  deriving DecidableEq, Repr

/-- The virtual address of an offset in the window (R297). -/
def exportVa (s : State) (ctx off : Nat) : DWord := (getCtx s ctx).exportBase + BitVec.ofNat 64 off

/-- How the check of a proxy's access ends. -/
inductive ProxyAcc where
  | ok (pas : List Nat)
  | fail
  | wait
  | race (idx : Nat)
  deriving DecidableEq, Repr

/-- The request comes from a copy command: it reduces, or this package's own copy has sent it (log entry 67). -/
def byEngine (s : State) (q : FabIn) : Bool :=
  (match q.op with | .reduce _ _ _ => true | _ => false) ||
    (q.src == s.fabric.id && s.fabric.outstanding.any fun r =>
      r.target == s.fabric.id && r.seq == q.seq && match r.who with | .copy _ _ _ => true | .team _ => false)

/-- The bundle on which a request's access races at the target (R155, R366): a team's access to any entered line, since no
team there has entered it for the requester, and an engine's as an engine's. -/
def proxyRace (s : State) (q : FabIn) (pas : List Nat) : Option Nat :=
  if s.pools.isEmpty then none
  else pas.findSome? fun pa =>
    if byEngine s q then engineRace s (fabAccess q.op == .write) (lineOf pa)
    else (enteredOn s (lineOf pa)).head?.map (·.2.1)

/-- Check an access of n bytes for a request (R297, R366): a translation fault is serviced by Stratus; a race is answered as
such; uncorrectable data is fatal to the context (R288); a held line waits (R218), and so does a page behind a port that
is down (R276). -/
def proxyCheck (s : State) (q : FabIn) (va : DWord) (n : Nat) (k : ReqKind) (reads : Bool) : ProxyAcc × State :=
  let ask := fun s k m ps => (ProxyAcc.wait, askPages s 512 q.ctx (.proxy q.src q.seq) k m ps)
  if inAperture va n || inFabric va then (.fail, s)
  else
    match translateBytes s 512 [] q.ctx va n k with
    | (.fatal, s) => (.fail, s)
    | (.bad pa, s) => (.fail, noteBad s q.ctx pa)
    | (.held, s) => (.wait, s)
    | (.fault ps, s) => ask s k false ps
    | (.migrating ps, s) => ask s k true ps
    | (.ok pas, s) =>
      match proxyRace s q pas with
      | some i => (.race i, s)
      | none =>
        match sliceStop s reads (k == .write) pas with
        | some (.bad pa) => (.fail, noteBad s q.ctx pa)
        | some (.lost at_) => ask s .read false (pagesAt va at_)
        | some _ => (.wait, s)
        | none => (.ok pas, if reads then homeFetchAll s false pas else s)

/-! ### Rounds (R300) -/

/-- One level of the combining tree: nodes 2i and 2i + 1, an unpaired last one as it is. -/
def combineLevel (kind : Nat) : List (List Byte × Byte) → List (List Byte × Byte)
  | a :: b :: r => combine kind a.1 a.2 b.1 b.2 :: combineLevel kind r
  | l => l

/-- The tree over the values in order; as many levels as there are values are enough. -/
def combineTree (kind : Nat) : Nat → List (List Byte × Byte) → Option (List Byte × Byte)
  | _, [] => none
  | _, [x] => some x
  | 0, x :: _ => some x
  | n + 1, l => combineTree kind n (combineLevel kind l)

/-- What the members have given, in ascending package number. -/
def Round.values (r : Round) : List (List Byte × Byte) :=
  (sortNat (r.given.map (·.1))).filterMap fun p => (r.given.find? fun g => g.1 == p).map (·.2)

/-- dest := Combine(dest, x) as one step at the home slice (R191, R300). -/
def combineInto (s : State) (kind : Nat) (pas scalePa : List Nat) (xs : List Byte) (sc : Byte) : State :=
  let old := (combine kind (pas.map (memGet s)) (((scalePa.head?).map (memGet s)).getD 0) xs sc)
  homeWrite s (pas.zip old.1 ++ scalePa.zip [old.2])

/-- A contribution of package src to a unit: it joins the round of its number; a round to which every member has
contributed is combined into the unit. -/
def contribute (s : State) (g : Nat) (members : List Nat) (src kind : Nat) (pas scalePa : List Nat) (xs : List Byte)
    (sc : Byte) : State :=
  let unit := pas.headD 0
  let key := unit * 4096 + src
  let k := sget 0 s.fabric.counts key
  let mine := fun r : Round => r.group == g && r.pas.headD 0 == unit && r.round == k
  let r := (s.fabric.rounds.find? mine).getD ⟨g, pas, scalePa, kind, k, []⟩
  let r := { r with given := r.given ++ [(src, xs, sc)] }
  let others := s.fabric.rounds.filter fun x => !mine x
  let full := members.all fun m => r.given.any fun e => e.1 == m
  let s : State := { s with fabric := { s.fabric with
    counts := sset 0 s.fabric.counts key (k + 1)
    rounds := if full then others else others ++ [r] } }
  if full then
    match combineTree r.kind r.given.length r.values with
    | some x => combineInto s r.kind r.pas r.scalePa x.1 x.2
    | none => s
  else s

/-- The group of a page that is a reduction page at this root. -/
def reductionGroup (s : State) (ctx page : Nat) : Option (Nat × Group) :=
  match sfind (getCtx s ctx).marks page with
  | none => none
  | some g =>
    match sfind s.fabric.groups g with
    | some x => if x.root == s.fabric.id then some (g, x) else none
    | none => none

/-! ### Performing a request -/

/-- The effect of a request whose bytes have been checked (R298): the proxy performs it at the home slices. -/
def performOp (s : State) (q : FabIn) (pas scalePa : List Nat) : FabReply × State :=
  match q.op with
  | .load _ => (.data (pas.map (memGet s)), s)
  | .store d => (.data [], homeWrite s (pas.zip d))
  | .atom op c d =>
    let old := pas.map (memGet s)
    let new := atomNew op (BitVec.ofNat 64 (ofBytes old)) c d
    (.data old, homeWrite s (pas.zip (toBytes pas.length new.toNat)))
  | .reduce kind d sc =>
    let b := (sc.map (·.2)).getD 0
    match reductionGroup s q.ctx (pageOf (exportVa s q.ctx q.off)) with
    | none => (.data [], combineInto s kind pas scalePa d b)
    | some (g, x) =>
      if x.members.contains q.src then (.data [], contribute s g x.members q.src kind pas scalePa d b) else (.outside, s)

/-- One attempt to perform a request. -/
def attempt (s : State) (q : FabIn) : ProxyEnd × State :=
  if (sfind s.ctxs q.ctx).isNone then (.done .fail, s)
  else
    let reads := match q.op with | .store _ => false | _ => true
    match proxyCheck s q (exportVa s q.ctx q.off) (fabSize q.op) (fabAccess q.op) reads with
    | (.fail, s) => (.done .fail, s)
    | (.race i, s) => (.done (.race i), s)
    | (.wait, s) => (.wait, s)
    | (.ok pas, s) =>
      match q.op with
      | .reduce _ _ (some sc) =>
        match proxyCheck s q (exportVa s q.ctx sc.1) 1 .write true with
        | (.fail, s) => (.done .fail, s)
        | (.race i, s) => (.done (.race i), s)
        | (.wait, s) => (.wait, s)
        | (.ok spa, s) => let r := performOp s q pas spa; (.done r.1, r.2)
      | _ => let r := performOp s q pas []; (.done r.1, r.2)

/-! ### The record of performed requests (R299) -/

/-- Sequence numbers kept for each source. -/
def fabWindow : Nat := 4096

/-- a was sent before b, in numbers modulo 2^32. -/
def seqBefore (a b : Word) : Bool := 0 < (b - a).toNat && (b - a).toNat < 2 ^ 31

/-- The performed request of a source with a number. -/
def findDone (s : State) (src : Nat) (seq : Word) : Option FabDone :=
  s.fabric.done.find? fun d => d.src == src && d.seq == seq

/-- Record a response: the oldest of a source goes when there are more than the window holds. -/
def recordDone (l : List FabDone) (x : FabDone) : List FabDone :=
  if l.any fun d => d.src == x.src && d.seq == x.seq then
    l.map fun d => if d.src == x.src && d.seq == x.seq then x else d
  else
    let l := l ++ [x]
    if fabWindow < (l.filter fun d => d.src == x.src).length then
      match l.findIdx? fun d => d.src == x.src with
      | some i => dropNth l i
      | none => l
    else l

/-- The number is older than every one of a full window. -/
def staleSeq (s : State) (src : Nat) (seq : Word) : Bool :=
  let mine := s.fabric.done.filter fun d => d.src == src
  fabWindow ≤ mine.length && mine.all fun d => seqBefore seq d.seq

/-- The request is no longer being performed. -/
def notWaiting (s : State) (q : FabIn) : State :=
  { s with fabric := { s.fabric with waiting := s.fabric.waiting.filter fun x => !(x.src == q.src && x.seq == q.seq) } }

/-- Record the response of a request. -/
def respond (s : State) (q : FabIn) (r : FabReply) : State :=
  let s := notWaiting s q
  { s with fabric := { s.fabric with done := recordDone s.fabric.done ⟨q.src, q.seq, r⟩ } }

/-- Perform a request now, or let it wait. -/
def serve (s : State) (q : FabIn) : State :=
  match attempt s q with
  | (.done r, s) => respond s q r
  | (.wait, s) =>
    let s := notWaiting s q
    { s with fabric := { s.fabric with waiting := s.fabric.waiting ++ [q] } }

/-- The requests of a context that wait are tried again. -/
def retryProxies (s : State) (ctx : Nat) : State :=
  (s.fabric.waiting.filter fun q => q.ctx == ctx).foldl serve s

/-- A fatal answer for a page fails the request that has asked for it (R297). -/
def failProxy (s : State) (src : Nat) (seq : Word) : State :=
  match s.fabric.waiting.find? fun q => q.src == src && q.seq == seq with
  | some q => respond s q .fail
  | none => s

end Sys2Proof.Machine
end

