-- ==== Sys2Proof/Machine/Stratus.lean ====
section
/-! DEFINITION. What Stratus does in the tables of contexts and to those who wait for it (R270 to R278, R288): replies,
invalidations, migrations, heat, the host's responses, and expanders that fail. -/

namespace Sys2Proof.Machine

/-! ### Loads that are to be made again (R54, R276) -/

/-- The lane's values in place of those of a result, in the order of its registers. -/
def Pending.putLane (p : Pending) (l : Nat) (bs : List Byte) : Pending :=
  let keys := (p.vals.filter fun e => e.1 % 1024 == l).map (·.1)
  { p with
    vals := (p.vals.filter fun e => e.1 % 1024 != l) ++ keys.zip (wordsOf bs)
    svals := p.svals.map fun e => (e.1, BitVec.ofNat 64 (ofBytes bs))
    lost := p.lost.filter (· != l) }

/-- The result is complete: it commits at once, unless an earlier one to its registers has to wait, or the team is
HALTED (R306). -/
def Team.landed (t : Team) (k : Nat) (p : Pending) : Team :=
  let p := { p with arrived := true, span := 0 }
  let t := { t with pending := t.pending.set k p }
  if t.state == .halted then t else (t.commitWhere fun q => q == p).afterCommit

/-- The lost lanes of the k-th result are read again: the team, with the requests that go out anew; a fatal fault marks
the result. -/
def readLost (s : State) (u k : Nat) (p : Pending) : State :=
  let r := p.lost.foldl (init := (s, p, ([] : List (Nat × LaneFault)))) fun acc l =>
    match p.eas.find? fun e => e.1 == l with
    | none => (acc.1, { acc.2.1 with lost := acc.2.1.lost.filter (· != l) }, acc.2.2)
    | some e =>
      match loadLane (acc.1.getTeam u) (if p.home then .home else .plain) false e.2.2 e.2.1 acc.1 l with
      | (.ok bs, s) => (s, acc.2.1.putLane l bs, acc.2.2)
      | (.error fs, s) => (s, acc.2.1, acc.2.2 ++ fs.map fun f => (l, f))
  let s := r.1
  let p := r.2.1
  match r.2.2.findSome? fun f => match f.2 with | .bad pa => some pa | _ => none with
  | some pa => contextFatal s (s.getTeam u).ctx (Config.errorCause s.free) pa
  | none =>
    let q := sendReqs (s.getTeam u).core (s.getTeam u).ctx (r.2.2.map (·.2)) s
    let dead := r.2.2.findSome? fun f => match f.2 with | .code c => some c | _ => none
    let s := q.2.modTeam u fun t =>
      let t := { t with waitReqs := t.waitReqs ++ q.1 }
      if p.lost.isEmpty then { t with atPort := [] }.landed k p else { t with atPort := [], pending := t.pending.set k { p with dead := dead } }
    retryTeam s u

/-- The team can take a trap of an earlier load: it is about to issue a word, or issues one again after its wait. -/
def Team.interruptible (t : Team) : Bool :=
  (t.state == .ready || t.state == .stalled || t.state == .parked) && t.fabric.isEmpty &&
    match t.wait with
    | .none | .fault | .commit | .drain _ _ _ _ | .mirror | .hold | .rowQueue | .await _ _ => true
    | _ => false

/-- The result has a lost lane in the page. -/
def Pending.lostIn (p : Pending) (page : Nat) : Bool :=
  p.lost.any fun l => p.eas.any fun e => e.1 == l &&
    (pageOf e.2.1 == page || pageOf (e.2.1 + BitVec.ofNat 64 (e.2.2 - 1)) == page)

/-- The result is to trap with a code, if a lane of it lies in a page that was not mapped (R274, R278). -/
def Pending.fails (page code : Nat) (p : Pending) : Pending := if p.lostIn page then { p with dead := some code } else p

/-- The team takes the trap of its k-th result (R274): the mapped lanes have completed. -/
def trapLost (s : State) (u k : Nat) (p : Pending) : State :=
  let t := s.getTeam u
  let others := { t with pending := dropNth t.pending k }
  if others.blocked || !t.interruptible then s
  else
    let kept := { p with vals := p.vals.filter fun e => !p.lost.contains (e.1 % 1024), svals := [], lost := [] }
    let t := match p.kind with
      | .ldc _ => { others with v := (t.putVals kept.vals).v }
      | _ => { t with pending := t.pending.set k kept }.commitAll
    let once := !p.svals.isEmpty
    onTeam u (fun s => if t.full == 0 then s else
      lateTrap s (p.dead.getD 0x12) (if once then 0 else p.pass) (if once then 0 else maskWord (maskOf p.lost) p.pass) p.src) (s.setTeam u t)

/-- The first result of a team with lost lanes, when no request is outstanding: read again, or its trap. -/
def replayLost (s : State) (u : Nat) : State :=
  let t := s.getTeam u
  if !t.waitReqs.isEmpty || (sfind s.teams u).isNone then s
  else
    match t.pending.findIdx? fun p => !p.lost.isEmpty with
    | none => s
    | some k =>
      match t.pending[k]? with
      | none => s
      | some p => if p.dead.isSome then trapLost s u k p else readLost s u k p

/-- The same for every such result. -/
def replayAll (u : Nat) : Nat → State → State
  | 0, s => s
  | n + 1, s => if (s.getTeam u).pending.any fun p => !p.lost.isEmpty then replayAll u n (replayLost s u) else s

/-! ### Answers (R272 to R274, R278) -/

/-- What an answer says. -/
inductive Answer where
  | mapped | fatal | host
  deriving DecidableEq, Repr

/-- A team takes note of the answer. -/
def Team.answer (id page : Nat) (a : Answer) (t : Team) : Team :=
  if !t.waitReqs.contains id then t
  else
    let t := { t with waitReqs := t.waitReqs.filter (· != id) }
    match a with
    | .mapped => t
    | .fatal =>
      { t with fatalPages := t.fatalPages ++ [page], pending := t.pending.map (Pending.fails page 0x12) }
    | .host =>
      { t with hostFail := t.hostFail ++ [page], pending := t.pending.map (Pending.fails page 0x13) }

/-- A team without outstanding requests goes on (R274). -/
def resumeTeam (s : State) (u : Nat) : State :=
  let s := replayAll u (s.getTeam u).pending.length s
  if (sfind s.teams u).isNone then s
  else
    s.modTeam u fun t =>
      if t.wait == .fault && t.waitReqs.isEmpty && t.fabric.all (fun f => f.reply.isSome) then
        t.reissue
      else t

/-- A stream without outstanding requests goes on (R115). -/
def Stream.answer (id : Nat) (x : Stream) : Stream :=
  let x := { x with waitReqs := x.waitReqs.filter fun r => r.1 != id }
  if x.wait == .fault && x.waitReqs.isEmpty then x.unpark else x

/-- The streams that wait for the request: a fatal answer is a stream error at the word concerned (R115, R132); where the
cohort is dissolved, the stamp is not written (R133). -/
def answerStreams (s : State) (id : Nat) (a : Answer) : State :=
  let cs := s.engines.flatMap fun e => e.2.streams.filterMap fun x =>
    (x.waitReqs.find? fun r => r.1 == id).map fun r => (e.1, x.cohort, r.2)
  cs.foldl (init := s) fun s c =>
    if a == .mapped then modStream s c.1 c.2.1 (Stream.answer id)
    else if dissolving s c.2.1 then modStream s c.1 c.2.1 fun x => { x with stamps := x.stamps.tail, waitReqs := [] }
    else streamError s c.1 c.2.1 7 c.2.2

/-- The ends of tasks that wait for the request: the stage is performed, or passed over (R260, R261). -/
def answerTasks (s : State) (id : Nat) (a : Answer) : State :=
  let mine := s.taskEnds.filter fun x => x.req == some id
  let s := { s with taskEnds := s.taskEnds.filter fun x => x.req != some id }
  mine.foldl (init := s) fun s x =>
    if a == .mapped then endTask taskFuel s x
    else
      match x.stage with
      | 0 => s
      | 1 => if x.failed.isSome then s else endTask taskFuel s { x with stage := 2 }
      | n => endTask taskFuel s { x with stage := n + 1 }

/-- The stamps that wait for the request (R234). -/
def answerStamps (s : State) (id : Nat) (a : Answer) : State :=
  let mine := s.stampWaits.filter fun x => x.req == some id
  let s := { s with stampWaits := s.stampWaits.filter fun x => x.req != some id }
  if a == .mapped then mine.foldl StampWait.go s else s

/-- The changes of control blocks that wait for the request (R255). -/
def answerNotes (s : State) (id : Nat) (a : Answer) : State :=
  let mine := s.tcbNotes.filter fun x => x.req == some id
  let s := { s with tcbNotes := s.tcbNotes.filter fun x => x.req != some id }
  if a == .mapped then mine.foldl (fun s x => noteState s x.ctx x.tcb x.st) s else s

/-- A virtual range of n bytes has a byte in the page. -/
def touchesPage (page : Nat) (va : DWord) (n : Nat) : Bool := page * 4096 < va.toNat + n && va.toNat < (page + 1) * 4096

/-- The ranges that the head command of a channel accesses next. -/
def CopyCmd.ranges (c : CopyCmd) : List (DWord × Nat) :=
  let unit := fun r e => (unitAddr r e, unitBytes (recFmt r)) :: ((scaleAddr r e).map fun a => (a, 1)).toList
  match c.state with
  | .queued => []
  | .acquiring => [(tCond c.tmpl, 4)]
  | .running => unit c.srcRec (tSrc c.tmpl c.unit).toNat ++ unit c.dstRec (tDst c.tmpl c.unit).toNat
  | .completing => [(tStamp c.tmpl, 8)]

/-- A copy whose head command still accesses the page: status 3, or a completion without its stamp (R201). -/
def failCopy (s : State) (k page : Nat) (seq : BitVec 48) : State :=
  match (getChan s k).queue with
  | [] => s
  | c :: _ =>
    if c.seq == seq && c.ranges.any fun r => touchesPage page r.1 r.2 then
      if c.state == .completing then freeHead s k else stopCopy s k c 3
    else s

/-- A row command that has not stopped accesses nothing more (R219). -/
def failRow (s : State) (id : Nat) : State :=
  match findRow s id with
  | none => s
  | some r => if r.stopped then s else wakeRowQueue (modRow s id (RowCmd.stop rbMem)) r.core

/-- A fill that goes on fails (Table 8-5). -/
def failFilling (s : State) (k i : Nat) : State :=
  match (getPool s k).bind fun p => sfind p.bundles i with
  | some b => if b.state == .filling then failFill s k i else s
  | none => s

/-- The launch at the head of a queue, whose block cannot be read, leaves it (log entry 27). -/
def failLaunch (s : State) (ctx q page : Nat) : State :=
  match (getQueue s ctx q).entries with
  | e :: _ => if (headRun s ctx q).isNone && touchesPage page e.block 256 then popLaunch s ctx q else s
  | [] => s

/-- The control block at the head of a ready queue, which cannot be reached, leaves it (log entry 27). -/
def failReady (s : State) (ctx q page : Nat) : State :=
  match (getReady s ctx q).entries with
  | .tcb a _ _ :: _ =>
    if touchesPage page (BitVec.ofNat 64 a) 128 then
      setReady s ctx q { getReady s ctx q with entries := (getReady s ctx q).entries.tail }
    else s
  | _ => s

/-- A fatal answer for one engine that has asked for the page. -/
def failAsker (ctx page : Nat) (s : State) : Asker → State
  | .copy key seq => failCopy s key page seq
  | .row id => failRow s id
  | .fill pool i => failFilling s pool i
  | .launch q => failLaunch s ctx q page
  | .ready q => failReady s ctx q page
  | .proxy src seq => failProxy s src seq

/-- The engines that have asked for the page. -/
def failEngines (s : State) (q : FaultReq) : State :=
  if (sfind s.ctxs q.ctx).isNone then s else q.askers.foldl (failAsker q.ctx q.page) s

/-- Everyone who waits for the request takes note of its answer (R274, R278). -/
def answerReq (s : State) (q : FaultReq) (a : Answer) : State :=
  let s := { s with reqs := s.reqs.filter fun r => r.id != q.id }
  let us := (s.teams.filter fun e => e.2.waitReqs.contains q.id).map (·.1)
  let s := { s with teams := s.teams.map fun e => (e.1, e.2.answer q.id q.page a) }
  let s := answerNotes (answerStamps (answerTasks (answerStreams s q.id a) q.id a) q.id a) q.id a
  let s := if a == .mapped then retryProxies s q.ctx else failEngines s q
  (us.filter fun u => (s.getTeam u).waitReqs.isEmpty).foldl resumeTeam s

/-! ### Table writes (R270) -/

/-- The stores that Stratus makes at the home slices, as tables are read: under key 0 (R324). -/
def tableWrites (s : State) (ws : List PteWrite) : State :=
  ws.foldl (fun s w => homeWrite (viewKey s w.addr 0) (dwordCells (w.addr / 8 * 8) w.value)) s

/-- What a table maps, down to its leaves: for each the address of its entry, its frame and its size. -/
def mappedBy (s : State) (table : Nat) : List Nat → List (Nat × Nat × Nat)
  | [] => []
  | level :: rest =>
    (List.range 512).flatMap fun i =>
      let addr := table + 8 * i
      let e : DWord := BitVec.ofNat 64 (memRead (viewKey s addr 0) addr 8)
      if !pteP e then []
      else if pteLeaf e then (if leafOk level e then [(addr, pteFrame e, leafSize level e)] else [])
      else if level == 1 || !tableOk e then []
      else mappedBy s (pteFrame e) rest

/-- Every frame that the tables of the contexts map was mapped by the same entry before, or can be allocated (R288, R314). -/
def framesOk (before s : State) : Bool :=
  (s.boot.stage != 1 && s.badFrames.isEmpty) ||
    s.ctxs.all fun c =>
      let old := mappedBy before c.2.root [5, 4, 3, 2, 1]
      (mappedBy s c.2.root [5, 4, 3, 2, 1]).all fun l => old.contains l || frameOk s l.2.1 l.2.2

/-- The stores by which Stratus answers a request, none while a line that they write is held (R218), or where they map a
frame that cannot be allocated (R288, R314). -/
def writeTables (s : State) (ws : List PteWrite) : Option State :=
  let s' := tableWrites s ws
  if ws.any (fun w => heldLine s true (lineOf w.addr)) || !framesOk s s' then none else some s'

/-- Sectors of an old frame that a port which is down holds in L2 go to the new frame (R276): the sectors of one
line. -/
def moveSectors (old new : Nat) (s : State) (line : Nat) : State :=
  let s := collectLine s line
  let x := l2Get s line
  let s := (List.range 4).foldl (init := s) fun s i =>
    if x.dirty.getLsbD i then
      homeWrite s ((List.range 64).map fun j =>
        let a := line * 256 + i * 64 + j
        (new + (a - old), memGet s a))
    else s
  l2Set s line { l2Get s line with dirty := 0, present := false, used := 0 }

/-- What is kept by physical address follows the page: lanes of WAITV, conditions of copies, and the rounds and counts of
reductions (R300). -/
def moveWaits (s : State) (old new n : Nat) : State :=
  let moved := fun pa : Nat => if old ≤ pa && pa < old + n then new + (pa - old) else pa
  { s with
    teams := s.teams.map fun e =>
      (e.1, { e.2 with waitv := e.2.waitv.map fun w => { w with lanes := w.lanes.map fun l => (l.1, moved l.2) } })
    channels := s.channels.map fun e =>
      (e.1, { e.2 with queue := e.2.queue.map fun c => { c with condPa := c.condPa.map moved } })
    fabric := { s.fabric with
      rounds := s.fabric.rounds.map fun r => { r with pas := r.pas.map moved, scalePa := r.scalePa.map moved }
      counts := s.fabric.counts.foldl (fun m e => sset 0 m (moved (e.1 / 4096) * 4096 + e.1 % 4096) e.2) [] } }

/-- A page that lay behind a port which is down has been mapped to another frame. -/
def moveHeld (before s : State) (ctx page : Nat) : State :=
  let va : DWord := BitVec.ofNat 64 (page * 4096)
  match walkCtx before ctx va, walkCtx s ctx va with
  | .leaf _ n e, .leaf _ _ e' =>
    if portDown s (pteFrame e) && pteFrame e != pteFrame e' then
      let s := moveWaits s (pteFrame e) (pteFrame e') n
      (distinct ((skeys s.l2).filter (fun ln => pteFrame e / 256 ≤ ln && ln < (pteFrame e + n) / 256) ++
        (s.l1.map fun b => b.1 % 2 ^ 46 / 256).filter fun ln => pteFrame e / 256 ≤ ln && ln < (pteFrame e + n) / 256)).foldl
          (moveSectors (pteFrame e) (pteFrame e')) s
    else s
  | _, _ => s

/-- STRATUS_REPLY (R274). A request that waits for the end of a migration is answered by it. -/
def execStratusReply (req : Nat) (r : Reply) (s : State) : Out :=
  .next (match s.reqs.find? fun q => q.id == req && !q.migrating with
    | none => s
    | some q =>
      match r with
      | .map ws =>
        match writeTables s ws with
        | some s' => answerReq (moveHeld s s' q.ctx q.page) q .mapped
        | none => s
      | .fatal => answerReq s q .fatal)

/-! ### Invalidation (R270) -/

/-- A range of n bytes meets the addresses from lo to hi - 1. -/
def meets (lo hi : Nat) (va : DWord) (n : Nat) : Bool := va.toNat < hi && lo < va.toNat + n

/-- Entries of a context that overlap a range, on the cores that p picks, are gone. -/
def dropTlbs (s : State) (p : Nat → Bool) (ctx lo hi : Nat) : State :=
  { s with tlbs := s.tlbs.filter fun t =>
      !(p t.core && t.ctx == ctx && t.base < hi && lo < t.base + t.size) }

/-- An operand of the command meets the range. -/
def RowCmd.meets (lo hi : Nat) (r : RowCmd) : Bool :=
  (r.dst :: r.sources).any fun a => Machine.meets lo hi a (1024 * r.width)

/-- The command has not begun, and is not accepted or belongs to a context that does not run: it can be translated
anew (R223). -/
def RowCmd.unbegun (s : State) (r : RowCmd) : Bool :=
  !r.stopped && !r.begun && (!r.accepted || !ctxOn s r.core r.ctx)

/-- Such a command is to be translated, and accepted, again. -/
def RowCmd.untranslated (r : RowCmd) : RowCmd :=
  { r with accepted := false, dstPa := [], srcPa := [], toAccept := [], places := [] }

/-- Row commands that have been translated through removed entries access their rows until they complete. -/
def rowsUnderWay (s : State) (p : Nat → Bool) (ctx lo hi : Nat) : Bool :=
  s.rowQueue.any fun r => r.ctx == ctx && p r.core && r.accepted && !r.stopped && !r.unbegun s && r.meets lo hi

/-- Row commands that have not begun are translated again. -/
def untranslateRows (s : State) (p : Nat → Bool) (ctx lo hi : Nat) : State :=
  { s with rowQueue := s.rowQueue.map fun r =>
      if r.ctx == ctx && p r.core && r.unbegun s && r.meets lo hi then r.untranslated else r }

/-- The condition word of a channel's command is translated again. -/
def recondition (s : State) (k : Nat) : State :=
  match (getChan s k).queue with
  | [] => s
  | c :: _ =>
    match engineCheck s (k % 2048 / 4) [.ahead] c.ctx (tCond c.tmpl) 4 true false with
    | (.ok pas, s) =>
      setHead s k { c with
        condPa := some (pas.headD 0), met := c.met || c.condHolds (BitVec.ofNat 32 (memRead s (pas.headD 0) 4)) }
    | _ => setHead s k { c with condPa := none }

/-- The same for the channels of a context whose condition lies in the range. -/
def reconditionAll (s : State) (p : Nat → Bool) (ctx lo hi : Nat) : State :=
  (s.channels.filter fun e => e.1 / 2048 == ctx && p (e.1 % 2048 / 4) &&
      (e.2.queue.head?).any fun c => c.condPa.isSome && meets lo hi (tCond c.tmpl) 4).foldl
    (fun s e => recondition s e.1) s

/-- The lanes of a waiting team's WAITV whose words lie in the range, and that are not satisfied, are translated again: one
that does not translate issues again. -/
def rewait (lo hi : Nat) (s : State) (u : Nat) : State :=
  let t := s.getTeam u
  match t.waitv, t.nextInstr with
  | some w, .waitv _ sc _ m =>
    let stale := (w.lanes.filter fun e => !w.satisfied.getLsbD e.1 && meets lo hi (memAddr t m e.1) 4).map (·.1)
    let s := s.modTeam u fun t => { t with waitv := some { w with lanes := w.lanes.filter fun e => !stale.contains e.1 } }
    let x := eachLane stale (waitvLane t sc.far m) s
    if x.2.2.isEmpty then onTeam u (fun s => joinWait s w x.2.1) x.1
    else s.modTeam u Team.wake
  | _, _ => s

/-- The same for the teams of a context. -/
def rewaitAll (s : State) (p : Nat → Bool) (ctx lo hi : Nat) : State :=
  (s.teams.filter fun e => e.2.ctx == ctx && p e.2.core && e.2.wait == .waitv).foldl (fun s e => rewait lo hi s e.1) s

/-- An invalidation on the cores that p picks: the entries are gone, and what has been translated through them without
having been performed is translated again. -/
def invalidate (s : State) (p : Nat → Bool) (ctx lo hi : Nat) : State :=
  rewaitAll (reconditionAll (untranslateRows (dropTlbs s p ctx lo hi) p ctx lo hi) p ctx lo hi) p ctx lo hi

/-- TLB_INVALIDATION of the addresses from lo to hi - 1: it completes when the row commands that use removed entries
have completed. -/
def execTlbInvalidation (cores : BitVec 512) (ctx lo hi : Nat) (s : State) : Out :=
  let p := fun c : Nat => cores.getLsbD c
  .next (if rowsUnderWay s p ctx lo hi then dropTlbs s p ctx lo hi else invalidate s p ctx lo hi)

/-! ### Heat (R271) -/

/-- The leaves below a table, as addresses of their entries. -/
def leavesOf (s : State) (table : Nat) : List Nat → List Nat × State
  | [] => ([], s)
  | level :: rest =>
    (List.range 512).foldl (init := (([] : List Nat), s)) fun acc i =>
      let addr := table + 8 * i
      let s := viewKey acc.2 addr 0
      let e : DWord := BitVec.ofNat 64 (memRead s addr 8)
      if !pteP e then (acc.1, s)
      else if pteLeaf e then (if leafOk level e then acc.1 ++ [addr] else acc.1, s)
      else if level == 1 || !tableOk e then (acc.1, s)
      else
        let r := leavesOf s (pteFrame e) rest
        (acc.1 ++ r.1, r.2)

/-- One less in each heat field that is not zero. -/
def coolLeaf (e : DWord) : DWord :=
  let sub := fun (e : DWord) (at_ : Nat) => if field e.toNat at_ 2 == 0 then e else e - BitVec.ofNat 64 (2 ^ at_)
  sub (sub e 7) 9

/-- The leaf at an address is cooled at its home slice. -/
def coolAt (s : State) (a : Nat) : State :=
  let s := viewKey s a 0
  homeWrite s (dwordCells a (coolLeaf (BitVec.ofNat 64 (memRead s a 8))))

/-- HEAT_SWEEP of a resident context; it waits for lines that row commands hold (R218). -/
def execHeatSweep (ctx : Nat) (s : State) : Out :=
  .next (if (sfind s.ctxs ctx).isNone then s
    else
      let r := leavesOf s (getCtx s ctx).root [5, 4, 3, 2, 1]
      if r.1.any fun a => heldLine s true (lineOf a) then s else (distinct r.1).foldl coolAt r.2)

/-! ### Migration (R275) -/

/-- A line of the range of n bytes at a frame. -/
def inFrame (frame n line : Nat) : Bool := frame / 256 ≤ line && line < (frame + n) / 256

/-- The unit has a byte in the range. -/
def Seg.inFrame (frame n : Nat) (g : Seg) : Bool :=
  (g.pa < frame + n && frame < g.pa + g.len) || (g.len < 1024 && g.next < frame + n && frame < g.next + (1024 - g.len))

/-- An entered bundle pins a line of the frame (R139), or a row command that has translated its units accesses it
(R218, R270). -/
def framePinned (s : State) (frame n : Nat) : Bool :=
  (s.pools.any fun p => p.2.bundles.any fun b =>
      b.2.state == .entered && b.2.phys.any (Machine.inFrame frame n)) ||
    s.rowQueue.any fun r => r.accepted && !r.stopped && !r.unbegun s &&
      (r.dstPa :: r.srcPa).any fun l => l.any (Seg.inFrame frame n)

/-- The unentered bundles with a line in the frame, which leave whole. -/
def frameBundles (s : State) (frame n : Nat) : List (Nat × Nat × Bundle) :=
  s.pools.flatMap fun p => p.2.bundles.filterMap fun b =>
    if (b.2.state == .resident || b.2.state == .evicting) && b.2.phys.any (Machine.inFrame frame n) then
      some (p.1, b.1, b.2)
    else none

/-- First-level bytes of the frame's lines are collected, its bundles leave whole, and its L2 lines are evicted. -/
def evictFrame (s : State) (frame n : Nat) : State :=
  let mine := Machine.inFrame frame n
  let s := (distinct ((s.l1.map fun e => e.1 % 2 ^ 46 / 256).filter mine)).foldl collectLine s
  let s := (frameBundles s frame n).foldl (fun s e => finishEviction s e.1 e.2.1) s
  ((skeys s.l2).filter mine).foldl (init := s) fun s ln =>
    let s := leaveL2 (writeSectors s ln) ln
    l2Set s ln { l2Get s ln with dirty := 0 }

/-- One line of the frame is copied, each side under the key of its leaf. -/
def copyLine (old new ko kn : Nat) (s : State) (i : Nat) : State :=
  let s := viewKey s (old + 256 * i) ko
  let bs := (List.range 256).map fun j => memGet s (old + 256 * i + j)
  let s := viewKey s (new + 256 * i) kn
  homeWrite s (bs.zipIdx.map fun b => (new + 256 * i + b.2, b.1))

/-- The leaf that ends a migration: the new frame with mig = 0, or a not-present leaf whose frame field records it. -/
def migLeafOk (s : State) (old leaf : DWord) (n : Nat) : Bool :=
  pteFrame leaf % n == 0 && backed s (pteFrame leaf) && frameOk s (pteFrame leaf) n &&
    (!pteP leaf || (pteLeaf leaf && leafMbz leaf && !pteMig leaf && pteC64 leaf == pteC64 old))

/-- Key of a leaf's frame. -/
def leafKey (e : DWord) : Nat := if pteFrame e / 2 ^ 44 == 2 then 0 else pteKey e

/-- Those who wait for the end of the migration of a page of n bytes go on. -/
def endMigration (s : State) (ctx base n : Nat) : State :=
  (s.reqs.filter fun q => q.migrating && q.ctx == ctx && base ≤ q.page * 4096 && q.page * 4096 < base + n).foldl
    (fun s q => answerReq s q .mapped) s

/-- The entries of a page: the 16 of a 64 KiB group, which Stratus keeps identical apart from heat (R267), or the one. -/
def pageEntries (addr : Nat) (e : DWord) : List Nat :=
  if pteC64 e then (List.range 16).map fun i => addr / 128 * 128 + 8 * i else [addr]

/-- Every entry of a page is written, under key 0 (R324). -/
def writeEntries (s : State) (as : List Nat) (f : DWord → DWord) : State :=
  as.foldl (init := s) fun s a =>
    let s := viewKey s a 0
    homeWrite s (dwordCells a (f (BitVec.ofNat 64 (memRead s a 8))))

/-- Stratus waits for the lines of the entries, and for those that the frame's bundles have to write home (R218). -/
def migrationHeld (s : State) (as : List Nat) (frame n : Nat) : Bool :=
  (as.any fun a => heldLine s true (lineOf a)) ||
    (frameBundles s frame n).any fun b => b.2.2.phys.any (heldLine s true)

/-- PAGE_MIGRATION: steps 1 and 2, and then steps 3 to 5. -/
def execPageMigration (ctx : Nat) (va : DWord) (ph : MigPhase) (s : State) : Out :=
  .next (match walkCtx s ctx va with
    | .leaf addr n e =>
      let base := va.toNat / n * n
      let frame := pteFrame e
      let as := pageEntries addr e
      if (sfind s.ctxs ctx).isNone || framePinned s frame n || migrationHeld s as frame n then s
      else
        match ph with
        | .start =>
          if pteMig e then s
          else invalidate (writeEntries s as (· ||| 32)) (fun _ => true) ctx base (base + n)
        | .finish leaf =>
          if !pteMig e || !migLeafOk s e leaf n then s
          else
            let s := evictFrame s frame n
            let s := (List.range (n / 256)).foldl (copyLine frame (pteFrame leaf) (leafKey e) (leafKey leaf)) s
            let s := untranslateRows (writeEntries s as fun _ => leaf) (fun _ => true) ctx base (base + n)
            let s := moveWaits (dropTlbs s (fun _ => true) ctx base (base + n)) frame (pteFrame leaf) n
            endMigration s ctx base n
    | _ => s)

/-! ### The host's responses (R277, R278) -/

/-- Fields of a response record (Table 14-4). -/
def rspAddr (r : BitVec 256) : Nat := field r.toNat 192 64
def rspTag (r : BitVec 256) : Word := BitVec.ofNat 32 (field r.toNat 96 32)
def rspCtx (r : BitVec 256) : Nat := field r.toNat 84 12
def rspSize (r : BitVec 256) : Nat := [2 ^ 12, 2 ^ 16, 2 ^ 21, 2 ^ 30].getD (field r.toNat 66 2) 0
def rspW (r : BitVec 256) : Bool := r.getLsbD 65
def rspFail (r : BitVec 256) : Bool := r.getLsbD 64

/-- The response names a frame that can be mapped. -/
def rspOk (s : State) (r : BitVec 256) : Bool :=
  !rspFail r && rspAddr r / 2 ^ 44 == 2 && backed s (rspAddr r) && rspAddr r % rspSize r == 0

/-- The leaf that the response asks for is installed for the page. -/
def leafInstalled (s : State) (ctx page : Nat) (r : BitVec 256) : Bool :=
  match walkCtx s ctx (BitVec.ofNat 64 (page * 4096)) with
  | .leaf _ n e => n == rspSize r && pteFrame e == rspAddr r && pteW e == rspW r
  | _ => false

/-- HOST_PAGE_RESPONSE: the record at the head of the host's response ring, which the host has written there, and the
stores by which Stratus installs the leaf. -/
def execHostPageResponse (record : BitVec 256) (writes : List PteWrite) (s : State) : Out :=
  let h := s.rings
  .next (if h.rspHead == h.rspTail then s
    else
      let s0 := putHost s (h.rspBase.toNat + 32 * h.rspHead) (toBytes 32 record.toNat)
      let s0 : State := { s0 with rings := { h with rspHead := (h.rspHead + 1) % 4096 } }
      match s0.reqs.find? fun q => q.host == some (rspTag record) && !q.queued && q.ctx == rspCtx record with
      | none => s0
      | some q =>
        if !rspOk s0 record then answerReq s0 q .host
        else
          match writeTables s0 writes with
          | none => s
          | some s1 => if leafInstalled s1 q.ctx q.page record then answerReq s1 q .mapped else s)

/-! ### Expanders (R276) -/

/-- The lanes of a result whose data is on its way in one of some lines: it does not come. -/
def Pending.lose (lines : List Nat) (x : Pending) : Pending :=
  if x.arrived then x
  else { x with lost := distinct (x.lost ++ (x.port.filter fun e => lines.contains (lineOf e.2)).map (·.1)) }

/-- A line whose data has not come is in no cache, but for what was written to it. -/
def forgetLine (s : State) (line : Nat) : State :=
  let s := (holders s line).foldl (init := s) fun s c =>
    dropBytes s c ((l1Bytes s c).filter fun e => lineOf e.1 == line && !e.2.dirty)
  l2Set s line { l2Get s line with present := false }

/-- Some lines do not come: every lane that waits for one is unfinished (R276). -/
def loseLines (s : State) (lines : List Nat) : State :=
  let s := { s with teams := s.teams.map fun e => (e.1, { e.2 with pending := e.2.pending.map (Pending.lose lines) }) }
  lines.foldl forgetLine s

/-- The lines that are on their way for some load. -/
def linesOnWay (s : State) : List Nat := distinct (s.teams.flatMap fun e => e.2.pending.flatMap Pending.onWay)

/-- Requests for the pages of a team's lost lanes; a team that is about to issue parks until they are answered. -/
def askLost (before s : State) (u : Nat) : State :=
  let t := s.getTeam u
  let old := (before.getTeam u).pending.flatMap fun p => p.lost.map fun l => (p.src, p.pass, l)
  let fs := t.pending.flatMap fun p => (p.eas.filter fun e => p.lost.contains e.1 && !old.contains (p.src, p.pass, e.1)).map
    fun e => LaneFault.page (pageOf e.2.1) .read
  if fs.isEmpty then s
  else
    let r := sendReqs t.core t.ctx fs s
    r.2.modTeam u fun t =>
      let t := { t with waitReqs := t.waitReqs ++ r.1 }
      if t.interruptible then { t.commitHere.sleep .parked .fault with parkedSince := s.clock }
      else if t.state == .halted && t.haltedFrom == .ready then
        { t.sleep .parked .fault with parkedSince := s.clock }
      else t

/-- Requests for what is lost, by every team that has lost a lane. -/
def askAll (before s : State) : State := (skeys s.teams).foldl (askLost before) s

/-- CXL_LINK_DOWN. -/
def execCxlLinkDown (port : Fin 4) (s : State) : Out :=
  let s1 : State := { s with cxlDown := s.cxlDown ||| BitVec.ofNat 4 (2 ^ port.val) }
  .next (askAll s (loseLines s1 ((linesOnWay s1).filter fun ln => portDown s1 (ln * 256))))

/-- CXL_COMPLETION_TIMEOUT: the k-th result of a team waits for a completion of tier 1. -/
def execCxlCompletionTimeout (uid k : Nat) (s : State) : Out :=
  .next (match (sfind s.teams uid).bind fun t => t.pending[k]? with
    | none => s
    | some p => askAll s (loseLines s (distinct p.onWay)))

/-! ### Errors (R288) -/

/-- UNCORRECTABLE_ERROR: the contexts concerned, every resident one where none is named; bad says that the data at an
HBM address has failed. -/
def execUncorrectableError (ctxs : List Nat) (cause : Byte) (pa : BitVec 40) (bad : Bool) (s : State) : Out :=
  let cs := if ctxs.isEmpty then skeys s.ctxs else ctxs.filter fun c => (sfind s.ctxs c).isSome
  let s := cs.foldl (fun s c => contextFatal s c cause pa.toNat) s
  .next (if bad && !isBad s pa.toNat then { s with badFrames := s.badFrames ++ [lineOf pa.toNat] } else s)

end Sys2Proof.Machine
end

