-- ==== Sys2Proof/Machine/Fabric.lean ====
section
/-! DEFINITION. The steps of the networks (R292, R293, R296 to R302): route tables, flit replay, fabric requests and
responses, halt states, and the host's accesses to HBM. -/

namespace Sys2Proof.Machine

/-! ### The mesh and the links -/

/-- ROUTE_TABLE_WRITE (R293): an entry that is not permitted is ignored and sets ROUTE_ERR. -/
def execRouteTableWrite (port entry : Nat) (value : BitVec 128) (s : State) : Out :=
  .next (if 512 ≤ port || 512 ≤ entry then s
    else if routeOk port value then { s with routes := sput s.routes (routeKey port entry) (routeWritten value) }
    else { s with routeErr := true })

/-- Failed replays of one flit after which a port goes down (R296). -/
def replayLimit : Nat := 16

/-- BALZAL_FLIT_REPLAY: the replayed flit arrives, or fails again (R287, R296). -/
def execBalzalFlitReplay (port : Fin 12) (failed : Bool) (s : State) : Out :=
  let n := sget 0 s.fabric.replays port.val + 1
  .next (if s.fabric.down.getLsbD port.val then s
    else if !failed then
      countError { s with fabric := { s.fabric with replays := sset 0 s.fabric.replays port.val 0 } } 12
    else if n < replayLimit then { s with fabric := { s.fabric with replays := sset 0 s.fabric.replays port.val n } }
    else { s with fabric := { s.fabric with
      replays := sset 0 s.fabric.replays port.val 0
      down := s.fabric.down ||| BitVec.ofNat 12 (2 ^ port.val) } })

/-- The port by which a transit packet leaves toward a package: the first of its route that is up (R296). -/
def exitPort (s : State) (pkg : Nat) : Option (Fin 12) :=
  (sget [] s.fabric.table pkg).find? fun p => !s.fabric.down.getLsbD p.val

/-! ### The target's side -/

/-- A request that this package sent to itself is one that it holds (R297). -/
def ownRequest (s : State) (q : FabIn) : Bool :=
  q.src != s.fabric.id || s.fabric.outstanding.any fun r =>
    r.target == s.fabric.id && r.seq == q.seq && r.off == q.off && r.op == q.op &&
      match r.who with
      | .team u => (s.getTeam u).ctx == q.ctx
      | .copy _ _ c => c == q.ctx

/-- A request arrives (R299). -/
def arriveFab (s : State) (q : FabIn) : State :=
  if s.boot.stage != 2 || !q.admitted || !ownRequest s q then s
  else
    match findDone s q.src q.seq with
    | some _ => match q.op with | .load _ => serve s q | _ => s
    | none =>
      if s.fabric.waiting.any fun x => x.src == q.src && x.seq == q.seq then
        match s.fabric.waiting.find? fun x => x.src == q.src && x.seq == q.seq with
        | some x => serve s x
        | none => s
      else if staleSeq s q.src q.seq then { s with fabric := { s.fabric with stale := s.fabric.stale + 1 } }
      else serve s q

/-- FABRIC_REQUEST. The proxy holds nothing back, so a release has nothing more to do (R298). -/
def execFabricRequest (src : Nat) (seq : Word) (ctx off : Nat) (op : FabOp) (_rel : Bool) (s : State) : Out :=
  .next (arriveFab s ⟨src, seq, ctx, off, op⟩)

/-- FABRIC_CONTRIBUTION: a reducing unit that addresses a reduction page of this root. -/
def execFabricContribution (src : Nat) (seq : Word) (ctx off kind : Nat) (data : List Byte) (scale : Option (Nat × Byte))
    (s : State) : Out :=
  .next (if (reductionGroup s ctx (pageOf (exportVa s ctx off))).isNone then s
    else arriveFab s ⟨src, seq, ctx, off, .reduce kind data scale⟩)

/-! ### The requester's side -/

/-- The request that has no response yet. -/
def findReq (s : State) (target : Nat) (seq : Word) : Option FabReq :=
  s.fabric.outstanding.find? fun r => r.target == target && r.seq == seq

/-- The response has the form that the request asks for. -/
def replyFits (op : FabOp) : FabReply → Bool
  | .fail | .race _ => true
  | .outside => match op with | .reduce _ _ _ => true | _ => false
  | .data bs => bs.length == match op with
    | .load n => n
    | .atom op _ _ => atomSize op
    | _ => 0

/-- A lane or part takes the answer of its request. -/
def FabLane.take (target : Nat) (seq : Word) (r : FabReply) (f : FabLane) : FabLane :=
  if f.target == target && f.seq == seq then { f with reply := some r } else f

/-- The request is resolved: its lane or its part of a unit has the answer (R297, R299). -/
def resolve (s : State) (q : FabReq) (r : FabReply) : State :=
  let s : State := { s with fabric := { s.fabric with
    outstanding := s.fabric.outstanding.filter fun x => !(x.target == q.target && x.seq == q.seq) } }
  match q.who with
  | .team u =>
    if (sfind s.teams u).isNone then s
    else
      resumeTeam (s.modTeam u fun t => { t with fabric := t.fabric.map (FabLane.take q.target q.seq r) }) u
  | .copy core chan ctx =>
    let k := chanKey ctx core chan
    match (getChan s k).queue with
    | c :: _ => setHead s k { c with fab := c.fab.map (FabLane.take q.target q.seq r) }
    | [] => s

/-- FABRIC_RESPONSE. This package's own answer is the one that it has recorded. -/
def execFabricResponse (target : Nat) (seq : Word) (r : FabReply) (s : State) : Out :=
  .next (match findReq s target seq with
    | none => s
    | some q =>
      if !replyFits q.op r then s
      else if target == s.fabric.id && (findDone s target seq).map (·.resp) != some r then s
      else resolve s q r)

/-- FABRIC_PENDING_RESPONSE: the timer of the request starts again; time is not modelled. -/
def execFabricPendingResponse (_target : Nat) (_seq : Word) (s : State) : Out := .next s

/-- Resends after which a request fails (R299). -/
def resendLimit : Nat := 8

/-- FABRIC_RETRANSMIT: FAB_RTO has passed. Timers toward a halted package stand still (R301). -/
def execFabricRetransmit (target : Nat) (seq : Word) (s : State) : Out :=
  .next (match findReq s target seq with
    | none => s
    | some q =>
      if s.fabric.halted.contains target then s
      else if resendLimit ≤ q.resends then resolve s q .fail
      else
        { s with fabric := { s.fabric with
          outstanding := s.fabric.outstanding.map fun x =>
            if x.target == target && x.seq == seq then { x with resends := x.resends + 1 } else x } })

/-- FABRIC_HALT_STATE (R301). -/
def execFabricHaltState (pkg : Nat) (halted : Bool) (s : State) : Out :=
  let l := s.fabric.halted.filter (· != pkg)
  .next (if 4096 ≤ pkg then s
    else { s with fabric := { s.fabric with halted := if halted then l ++ [pkg] else l } })

/-! ### The host (R302) -/

/-- HOST_MEMORY_ACCESS: HBM, as it reads without a key (R324), at the home slices; what a row command holds waits. In the
ROM stage and in recovery the host reaches the management registers only (Table 18-1). Failed data that it reads is fatal
to no context (R288). -/
def execHostMemoryAccess (pa : Nat) (a : HostAcc) (s : State) : Out :=
  let n := match a with | .read n => n | .write d => d.length
  let pas := (List.range n).map (pa + ·)
  let write := match a with | .read _ => false | .write _ => true
  .next (if !serving s || 2 ^ 39 < pa + n || pas.any (fun p => !backed s p) || (sliceStop s (!write) write pas).isSome then s
    else
      let s := viewBytes s pas 0
      match a with
      | .read _ => homeFetchAll s false pas
      | .write d => homeWrite s (pas.zip d))

end Sys2Proof.Machine
end

