-- ==== Sys2Proof/Machine/Integer.lean ====
section
/-! DEFINITION. The integer words (R327 and the entries that cite it), SEL, ICMP, LEA, MOVI, MOVU. -/

namespace Sys2Proof.Machine

/-! ### Operand delivery (R327) -/

/-- An operation on a width w: signed type, x, y and the old destination z. -/
abbrev IntFn := (w : Nat) → Bool → BitVec w → BitVec w → BitVec w → BitVec w

/-- A 32-bit scalar-pipe result extended to 64 bits by its type (R47). -/
def extend (ty : IntTy) (r : Word) : DWord := if ty.signed then sext32 r else zext32 r

/-- The result of a scalar-pipe word (R47, R327). -/
def Team.scalarResult (t : Team) (ty : IntTy) (f : IntFn) (d : SReg) (a b : Reg) : DWord :=
  if ty.is64 then f 64 ty.signed (t.src64 a 0) (t.src64 b 0) (t.sread d.val)
  else extend ty (f 32 ty.signed (t.src a 0) (t.src b 0) (lo32 (t.sread d.val)))

/-- A word of R327: in every lane it acts on, or once on the scalar pipe. Sources are read before any
result is written. -/
def Team.intWord (t : Team) (ty : IntTy) (f : IntFn) (d a b : Reg) : Team :=
  match d with
  | .s n => t.swrite n.val (t.scalarResult ty f n a b)
  | .v n =>
    t.wordLanes.foldl (init := t) fun t' l =>
      if ty.is64 then
        t'.setLane64 n.val l (f 64 ty.signed (t.src64 a l) (t.src64 b l) (t.lane64 n.val l))
      else t'.setLane32 n.val l (f 32 ty.signed (t.src a l) (t.src b l) (t.lane n.val l))

/-- The immediate form: 32-bit in lanes, 64-bit on the scalar pipe (R47, R327). -/
def Team.immWord (t : Team) (f : IntFn) (d a : Reg) (imm : Int) : Team :=
  match d with
  | .s n => t.swrite n.val (f 64 true (t.src64 a 0) (BitVec.ofInt 64 imm) (t.sread n.val))
  | .v n =>
    t.wordLanes.foldl (init := t) fun t' l =>
      t'.setLane32 n.val l (f 32 true (t.src a l) (BitVec.ofInt 32 imm) (t.lane n.val l))

/-! ### The operations -/

def opAdd : IntFn := fun _ _ x y _ => x + y
def opSub : IntFn := fun _ _ x y _ => x - y
def opMul : IntFn := fun _ _ x y _ => x * y
/-- Bits 2W - 1 to W of the exact product (R358). -/
def opMulh : IntFn := fun w sg x y _ =>
  if sg then BitVec.ofInt w (x.toInt * y.toInt / 2 ^ w) else BitVec.ofNat w (x.toNat * y.toNat / 2 ^ w)
def opMad : IntFn := fun _ _ x y z => x * y + z
def opMin : IntFn := fun _ sg x y _ => if (if sg then y.slt x else y.ult x) then y else x
def opMax : IntFn := fun _ sg x y _ => if (if sg then x.slt y else x.ult y) then y else x
def opAbs : IntFn := fun _ _ x _ _ => if x.msb then 0 - x else x
def opAnd : IntFn := fun _ _ x y _ => x &&& y
def opOr : IntFn := fun _ _ x y _ => x ||| y
def opXor : IntFn := fun _ _ x y _ => x ^^^ y
/-- The shift count: y[5:0] (R400). -/
def shiftCount {w : Nat} (y : BitVec w) : Nat := y.toNat % 64
def opShl : IntFn := fun _ _ x y _ => x <<< shiftCount y
def opShr : IntFn := fun _ _ x y _ => x >>> shiftCount y
def opSar : IntFn := fun _ _ x y _ => x.sshiftRight (shiftCount y)
def opPopc : IntFn := fun w _ x _ _ =>
  BitVec.ofNat w ((List.range w).filter fun i => x.getLsbD i).length
def opClz : IntFn := fun w _ x _ _ =>
  BitVec.ofNat w (if x == 0 then w else w - 1 - x.toNat.log2)
def opBrev : IntFn := fun w _ x _ _ =>
  (List.range w).foldl (fun r i => if x.getLsbD i then r ||| BitVec.ofNat w (2 ^ (w - 1 - i)) else r) 0
def opMov : IntFn := fun _ _ x _ _ => x

/-- The field specification of BFX and BFI (R338): position and length, length 0 when empty. -/
def fieldSpec (w : Nat) (y : Nat) : Nat × Nat :=
  let pos := y % 64
  let len := y / 256 % 64
  (pos, if pos ≥ w then 0 else min len (w - pos))

/-- BFX (R339). -/
def opBfx : IntFn := fun w sg x y _ =>
  let (pos, n) := fieldSpec w y.toNat
  let f := x.toNat / 2 ^ pos % 2 ^ n
  if n == 0 then 0
  else if sg && f.testBit (n - 1) then BitVec.ofInt w ((f : Int) - 2 ^ n)
  else BitVec.ofNat w f

/-- BFI (R340). -/
def opBfi : IntFn := fun w _ x y z =>
  let (pos, n) := fieldSpec w y.toNat
  let m := BitVec.ofNat w ((2 ^ n - 1) * 2 ^ pos)
  if n == 0 then z else (z &&& ~~~m) ||| ((x <<< pos) &&& m)

/-! ### V3 words -/

def execIadd (d a b : Reg) (ty : IntTy) (s : State) : Out :=
  teamWord (.iadd d a b ty) s fun t => t.intWord ty opAdd d a b
def execIsub (d a b : Reg) (ty : IntTy) (s : State) : Out :=
  teamWord (.isub d a b ty) s fun t => t.intWord ty opSub d a b
def execImul (d a b : Reg) (ty : IntTy) (s : State) : Out :=
  teamWord (.imul d a b ty) s fun t => t.intWord ty opMul d a b
def execImulh (d a b : Reg) (ty : IntTy) (s : State) : Out :=
  teamWord (.imulh d a b ty) s fun t => t.intWord ty opMulh d a b
def execImad (d a b : Reg) (ty : IntTy) (s : State) : Out :=
  teamWord (.imad d a b ty) s fun t => t.intWord ty opMad d a b
def execImin (d a b : Reg) (ty : IntTy) (s : State) : Out :=
  teamWord (.imin d a b ty) s fun t => t.intWord ty opMin d a b
def execImax (d a b : Reg) (ty : IntTy) (s : State) : Out :=
  teamWord (.imax d a b ty) s fun t => t.intWord ty opMax d a b
def execIabs (d a : Reg) (ty : IntTy) (s : State) : Out :=
  teamWord (.iabs d a ty) s fun t => t.intWord ty opAbs d a a
def execAnd (d a b : Reg) (ty : IntTy) (s : State) : Out :=
  teamWord (.and d a b ty) s fun t => t.intWord ty opAnd d a b
def execOr (d a b : Reg) (ty : IntTy) (s : State) : Out :=
  teamWord (.or d a b ty) s fun t => t.intWord ty opOr d a b
def execXor (d a b : Reg) (ty : IntTy) (s : State) : Out :=
  teamWord (.xor d a b ty) s fun t => t.intWord ty opXor d a b
def execShl (d a b : Reg) (ty : IntTy) (s : State) : Out :=
  teamWord (.shl d a b ty) s fun t => t.intWord ty opShl d a b
def execShr (d a b : Reg) (ty : IntTy) (s : State) : Out :=
  teamWord (.shr d a b ty) s fun t => t.intWord ty opShr d a b
def execSar (d a b : Reg) (ty : IntTy) (s : State) : Out :=
  teamWord (.sar d a b ty) s fun t => t.intWord ty opSar d a b
def execPopc (d a : Reg) (ty : IntTy) (s : State) : Out :=
  teamWord (.popc d a ty) s fun t => t.intWord ty opPopc d a a
def execClz (d a : Reg) (ty : IntTy) (s : State) : Out :=
  teamWord (.clz d a ty) s fun t => t.intWord ty opClz d a a
def execBrev (d a : Reg) (ty : IntTy) (s : State) : Out :=
  teamWord (.brev d a ty) s fun t => t.intWord ty opBrev d a a
def execBfx (d a b : Reg) (ty : IntTy) (s : State) : Out :=
  teamWord (.bfx d a b ty) s fun t => t.intWord ty opBfx d a b
def execBfi (d a b : Reg) (ty : IntTy) (s : State) : Out :=
  teamWord (.bfi d a b ty) s fun t => t.intWord ty opBfi d a b
def execMov (d a : Reg) (ty : IntTy) (s : State) : Out :=
  teamWord (.mov d a ty) s fun t => t.intWord ty opMov d a a

/-- SEL (R401). -/
def execSel (d : VReg) (a b : Reg) (p : PReg) (s : State) : Out :=
  teamWord (.sel d a b p) s fun t =>
    t.wordLanes.foldl (init := t) fun t' l =>
      t'.setLane32 d.val l (if (t.pread p.val).getLsbD l then t.src a l else t.src b l)

/-- ICMP (R359). -/
def execIcmp (c : ICond) (p : PReg) (a b : Reg) (ty : IntTy) (s : State) : Out :=
  teamWord (.icmp c p a b ty) s fun t =>
    t.pwrite p.val t.wordLanes fun l =>
      if ty.is64 then icmpHolds c ty.signed (t.src64 a l) (t.src64 b l)
      else icmpHolds c ty.signed (t.src a l) (t.src b l)

/-- The immediate ICMP: 32 bits against the sign-extended immediate (R359). -/
def execIcmpImm (c : ICondImm) (p : PReg) (a : Reg) (imm : Fin 1024) (s : State) : Out :=
  teamWord (.icmpImm c p a imm) s fun t =>
    t.pwrite p.val t.wordLanes fun l =>
      icmpHolds (immCond c).1 (immCond c).2 (t.src a l) (BitVec.ofInt 32 (simm 10 imm.val))

/-- The address that LEA forms in a lane (R373). -/
def leaValue (t : Team) (a b : Reg) (ty : IntTy) (l : Nat) : DWord :=
  t.src64 a l + (if ty.is64 then t.src64 b l else extend ty (t.src b l))

/-- LEA (R373). -/
def execLea (d a b : Reg) (ty : IntTy) (s : State) : Out :=
  teamWord (.lea d a b ty) s fun t =>
    match d with
    | .s n => t.swrite n.val (leaValue t a b ty 0)
    | .v n => t.wordLanes.foldl (fun t' l => t'.setLane64 n.val l (leaValue t a b ty l)) t

/-! ### Immediate words -/

def execIaddImm (d a : Reg) (imm : Fin 1024) (s : State) : Out :=
  teamWord (.iaddImm d a imm) s fun t => t.immWord opAdd d a (simm 10 imm.val)
def execAndImm (d a : Reg) (imm : Fin 1024) (s : State) : Out :=
  teamWord (.andImm d a imm) s fun t => t.immWord opAnd d a (simm 10 imm.val)
def execOrImm (d a : Reg) (imm : Fin 1024) (s : State) : Out :=
  teamWord (.orImm d a imm) s fun t => t.immWord opOr d a (simm 10 imm.val)
def execXorImm (d a : Reg) (imm : Fin 1024) (s : State) : Out :=
  teamWord (.xorImm d a imm) s fun t => t.immWord opXor d a (simm 10 imm.val)
def execShlImm (d a : Reg) (count : Fin 64) (s : State) : Out :=
  teamWord (.shlImm d a count) s fun t => t.immWord opShl d a count.val
def execShrImm (d a : Reg) (count : Fin 64) (s : State) : Out :=
  teamWord (.shrImm d a count) s fun t => t.immWord opShr d a count.val
def execSarImm (d a : Reg) (count : Fin 64) (s : State) : Out :=
  teamWord (.sarImm d a count) s fun t => t.immWord opSar d a count.val

/-- MOVI (R382). -/
def execMovi (d : Reg) (imm : Fin 131072) (s : State) : Out :=
  teamWord (.movi d imm) s fun t =>
    match d with
    | .s n => t.swrite n.val (BitVec.ofNat 64 imm.val)
    | .v n => t.wordLanes.foldl (fun t' l => t'.setLane32 n.val l (BitVec.ofNat 32 imm.val)) t

/-- MOVU ORs into bits 31:16 (R382). -/
def execMovu (d : Reg) (imm : Fin 65536) (s : State) : Out :=
  teamWord (.movu d imm) s fun t =>
    match d with
    | .s n => t.swrite n.val (t.sread n.val ||| BitVec.ofNat 64 (imm.val * 2 ^ 16))
    | .v n =>
      t.wordLanes.foldl
        (fun t' l => t'.setLane32 n.val l (t.lane n.val l ||| BitVec.ofNat 32 (imm.val * 2 ^ 16))) t

end Sys2Proof.Machine
end

