-- ==== Sys2Proof/Machine/SpecialRegs.lean ====
section
/-! DEFINITION. SRD and SWR (R57, R58, R153, R316, R317, R404, R405). -/

namespace Sys2Proof.Machine

/-! ### Temperature registers (R316 to R319, R323)

Sensors are numbered: compute dies die pair * 16 + i (0 to 63), cache dies 64 + die pair * 8 + i, stacks
96 + stack. -/

def sensor (s : State) (n : Nat) : Word := sget 0 s.sensors n

/-- The reading of a valid sensor, signed (Table 18-4). -/
def sensorTemp (w : Word) : Option Int :=
  if w.msb then some (w.setWidth 16).toInt else none

/-- The hotter of two sensor words; an invalid one reads 0 (Table 18-4). -/
def hotter (x y : Word) : Word :=
  match sensorTemp x, sensorTemp y with
  | some a, some b => if a < b then y else x
  | some _, none => x
  | _, _ => y

/-- The hottest of n sensors from one on. -/
def hottest (s : State) (n k : Nat) : Word :=
  (List.range k).foldl (fun w i => hotter w (sensor s (n + i))) 0

def Thermal.blank : Thermal := ⟨0, false, false, 0, false⟩
def getThermal (s : State) (d : Nat) : Thermal := sget .blank s.thermal d

/-- The refresh field of a stack (Table 18-5): 0, 1, 2 for 1x, 2x, 4x, 3 where activations are stopped. -/
def refreshField (s : State) (stack : Nat) : Nat :=
  if s.stackStopped.getLsbD stack then 3 else sget 0 s.refreshMult stack

/-- TSENS40 + d (Table 18-5). -/
def thermalWord (s : State) (d : Nat) : Word :=
  let t := getThermal s d
  BitVec.ofNat 32 (t.step + (if t.warn then 4 else 0) + (if t.step != 0 then 8 else 0) +
    refreshField s (2 * d) * 16 + refreshField s (2 * d + 1) * 64 + (if t.safeClk then 256 else 0))

/-- TSENSn as a core of die pair d reads it (Table 18-3). -/
def tsens (s : State) (d n : Nat) : Word :=
  if n < 16 then sensor s (d * 16 + n)
  else if n < 24 then sensor s (64 + d * 8 + (n - 16))
  else if n < 32 then sensor s (96 + (n - 24))
  else if n < 36 then hottest s ((n - 32) * 16) 16
  else if n < 40 then hottest s (64 + (n - 36) * 8) 8
  else thermalWord s (n - 40)

/-! ### The values that SRD reads -/

/-- FEAT0 (Table 3-11). -/
def feat0 : Word := BitVec.ofNat 32 (0x10100000 + Config.steppingNumber * 2 ^ 24)

/-- BSTAT (Table 8-7). -/
def bstat (t : Team) : Word :=
  let idx := t.entered.map bIndex
  BitVec.ofNat 32 (idx.foldl min (idx.headD 0) + t.entered.length * 256 +
    (if t.benter.isSome then 2048 else 0) +
    (if t.entered.isEmpty then 0 else t.enteredMode.code) * 4096 + t.raceIndex * 2 ^ 24)

/-- The value of special register n for the team, on lane l in pass q; wide registers give 64 bits (R404). -/
def specialReg (s : State) (t : Team) (n l q : Nat) : DWord :=
  match n with
  | 0 => BitVec.ofNat 64 l
  | 1 => BitVec.ofNat 64 t.teamId
  | 2 => BitVec.ofNat 64 t.lanes
  | 3 => BitVec.ofNat 64 t.core
  | 4 => match t.cohort with
    | some ck => BitVec.ofNat 64 (ck % 65536)
    | none => 0xFFFFFFFF
  | 5 =>
    if t.passMajor || q == (passesOf t.active).headD 0 then s.clock
    else s.clock + Config.passTick s.issueCount q
  | 8 => zext32 t.fpflags
  | 9 => t.trapInfo
  | 10 => t.trapPc
  | 11 => zext32 (bstat t)
  | 16 => zext32 feat0
  | _ => if 64 ≤ n then zext32 (tsens s (t.core / 128) (n - 64)) else 0

/-- Registers that a vector SRD does not read the same in every pass: LANEID, each lane's own, and CLOCK (R404). -/
def passReg (n : Nat) : Bool := n == 0 || n == 5

/-- What a vector SRD reads for lane l: in a later pass of the word, what the first pass read (R404). -/
def srdLane (s : State) (t : Team) (n l : Nat) : DWord :=
  let now := specialReg s t n l (l / 32)
  if passReg n || !t.laterPass then now else ((t.clause.bind fun c => sfind c.reads c.idx).getD now)

/-- The value that a vector SRD reads in the first pass is kept for the later ones (R404). -/
def keepRead (s : State) (n : Nat) (t : Team) : Team :=
  if t.passMajor && !t.laterPass && !passReg n then
    { t with clause := t.clause.map fun c => { c with reads := sput c.reads c.idx (specialReg s t n 0 t.pass) } }
  else t

/-- SRD (R404). -/
def execSrd (d : Reg) (n : Fin 1024) (s : State) : Out :=
  issue (.srd d n) s fun s => s.modTm fun t =>
    (match d with
      | .s k => t.swrite k.val (specialReg s t n.val 0 t.pass)
      | .v k =>
        t.wordLanes.foldl (init := keepRead s n.val t) fun t' l =>
          let x := srdLane s t n.val l
          if srWide n.val then t'.setLane64 k.val l x else t'.setLane32 k.val l (lo32 x)).finish

/-- SWR: FPFLAGS takes bits 4:0 of the scalar (R405). -/
def execSwr (a : SReg) (n : Fin 1024) (s : State) : Out :=
  teamWord (.swr a n) s fun t => { t with fpflags := BitVec.ofNat 32 ((t.sread a.val).toNat % 32) }

end Sys2Proof.Machine
end

