-- ==== Sys2Proof/Machine/Thermal.lean ====
section
/-! DEFINITION. Temperature (R225, R316 to R323): readings, refresh multipliers, clock steps, and the trip. -/

namespace Sys2Proof.Machine

/-- A temperature in units of 1/16 °C (Table 18-4). -/
def celsius (n : Int) : Int := 16 * n

/-- Sensors of the device: 64 of compute dies, 32 of cache dies, 8 of stacks. -/
def sensorCount : Nat := 104

/-- A reading as a register holds it: all bits zero where it is not valid (Table 18-4). -/
def readingWord (w : Word) : Word := if w.msb then w &&& 0x8000FFFF else 0

/-- In safe function the compute-die sensors of die pairs 1 to 3 are not valid (R319). -/
def sensorOn (s : State) (n : Nat) : Bool := !(s.boot.stage == 1 && 16 ≤ n && n < 64)

/-- The key of a bound of a stack's multiplier. -/
def coolKey (stack bound : Nat) : Nat := stack * 2 + bound

/-- The bounds between the multipliers (R323). -/
def refreshBound (b : Nat) : Int := celsius (if b == 0 then 85 else 95)

/-- Milliseconds for which a reading must have stayed below a bound (R323). -/
def coolTime : Nat := 32

/-- The multiplier for a temperature (R323): 0, 1, 2 for 1x, 2x, 4x. -/
def refreshWant (t : Int) : Nat := if t ≤ refreshBound 0 then 0 else if t ≤ refreshBound 1 then 1 else 2

/-- Running units in a stack that has stopped: their commands set the thermal bit (R225). -/
def RowCmd.heat (stack : Nat) (r : RowCmd) : RowCmd :=
  let hot := r.path == .dram && !r.stopped && r.units.any fun u =>
    u.2.started && !u.2.finished && ((r.dstPa[u.1]?).map fun g => stackOf g.pa == stack).getD false
  if hot then { r with bits := r.bits ||| rbThermal } else r

/-- Set or clear a bit of a mask of stacks. -/
def setStack (m : BitVec 8) (k : Nat) (on : Bool) : BitVec 8 :=
  if on then m ||| BitVec.ofNat 8 (2 ^ k) else m &&& ~~~(BitVec.ofNat 8 (2 ^ k))

/-- A stack takes note of its new reading (R225, R323). -/
def noteStack (s : State) (k : Nat) : State :=
  match sensorTemp (sensor s (96 + k)) with
  | none => s
  | some t =>
    let count := fun (m : Sparse Nat) (b : Nat) =>
      sset 0 m (coolKey k b) (if t + celsius 2 ≤ refreshBound b then sget 0 m (coolKey k b) + 1 else 0)
    let stopped := if celsius 105 < t then true else if t < celsius 100 then false else s.stackStopped.getLsbD k
    { s with
      refreshMult := sset 0 s.refreshMult k (max (sget 0 s.refreshMult k) (refreshWant t))
      refreshCool := count (count s.refreshCool 0) 1
      stackStopped := setStack s.stackStopped k stopped
      rowQueue := if stopped then s.rowQueue.map (RowCmd.heat k) else s.rowQueue }

/-- TSENS_REFRESH (R316): the readings of every sensor, in the numbering of the model. What waits for a stack issues
again when it is no longer stopped (R225). -/
def execTsensRefresh (values : List Word) (s : State) : Out :=
  let read := fun (m : Sparse Word) (n : Nat) =>
    sset 0 m n (if sensorOn s n then readingWord (values.getD n 0) else 0)
  let t := (List.range 8).foldl noteStack { s with sensors := (List.range sensorCount).foldl read s.sensors }
  .next (if t.stackStopped == s.stackStopped then t else wakeWhere t fun x => x.wait == .hold)

/-- REFRESH_MULTIPLIER_FALL (R323): the reading has stayed at least 2 °C below the bound for 32 ms. -/
def execRefreshMultiplierFall (stack : Fin 8) (s : State) : Out :=
  let m := sget 0 s.refreshMult stack.val
  .next (if m == 0 || sget 0 s.refreshCool (coolKey stack.val (m - 1)) < coolTime then s
    else { s with refreshMult := sset 0 s.refreshMult stack.val (m - 1) })

/-! ### Clock steps (R318 to R320) -/

/-- The hottest compute-die or cache-die sensor of a die pair. -/
def hottestDp (s : State) (d : Nat) : Word := hotter (hottest s (d * 16) 16) (hottest s (64 + d * 8) 8)

/-- Evaluations in a row below 104 °C after which the step falls (R318). -/
def coolEvals : Nat := 10

/-- One evaluation at temperature h: the step, the warning, the count; a step change pauses issue where the clock
changes. -/
def Thermal.evaluate (t : Thermal) (h : Int) (runs : Bool) : Thermal :=
  let cool := if h < celsius 104 then min coolEvals (t.cool + 1) else 0
  let step := if celsius 112 ≤ h && t.step < 3 then t.step + 1
    else if cool == coolEvals && 0 < t.step then t.step - 1
    else t.step
  { t with
    step := step, cool := cool, warn := decide (celsius 108 ≤ h)
    paused := t.paused || (step != t.step && runs && !t.safeClk) }

def setThermal (s : State) (d : Nat) (t : Thermal) : State := { s with thermal := sset .blank s.thermal d t }

/-- THERMAL_EVALUATION: from the safe stage on (R319). A die pair without a valid sensor keeps its step. -/
def execThermalEvaluation (dp : Fin 4) (s : State) : Out :=
  .next (if s.boot.stage != 1 && s.boot.stage != 2 then s
    else
      match sensorTemp (hottestDp s dp.val) with
      | none => s
      | some h => setThermal s dp.val ((getThermal s dp.val).evaluate h (s.boot.stage == 2)))

/-- THROTTLE_PAUSE_END (R320). -/
def execThrottlePauseEnd (dp : Fin 4) (s : State) : Out :=
  .next (setThermal s dp.val { getThermal s dp.val with paused := false })

/-! ### Loss of power and the trip (R312, R321) -/

/-- Everything that is lost with power is at its reset value; what is fused, and the model's own counters, stay. -/
def coldState (s : State) (p : Power) : State :=
  { State.reset with
    power := p
    fuses := s.fuses
    expanders := s.expanders
    boot := { State.reset.boot with startups := s.boot.startups, rollback := s.boot.rollback }
    free := s.free
    agenda := s.agenda }

/-- Some sensor has reached 122 °C. -/
def tripReached (s : State) : Bool :=
  (List.range sensorCount).any fun n =>
    match sensorTemp (sensor s n) with
    | some t => decide (celsius 122 ≤ t)
    | none => false

/-- THERMAL_TRIP (R321): every clock stops, and all work and memory contents are lost. -/
def execThermalTrip (s : State) : Out := .next (if tripReached s then coldState s .tripped else s)

end Sys2Proof.Machine
end

