-- ==== Sys2Proof/Machine/Startup.lean ====
section
/-! DEFINITION. Start-up (R312 to R315, R319), keys (R324, R325) and the attestation report (R326). -/

namespace Sys2Proof.Machine

/-! ### Start-up -/

/-- The units of safe function (Table 18-1, R314): cores 0 to 31, stacks 0 and 1, no CXL port. -/
def safeUnits (f : Units) : Units :=
  { f with
    cores := f.cores &&& BitVec.ofNat 512 (2 ^ 32 - 1)
    stackEn := f.stackEn &&& 3
    ports := f.ports &&& 0xFFFFF0
    cxl := f.cxl.map fun _ => 0 }

/-- A copy of the firmware passes: its signature verifies, and its security version is not below the fused counter
(R313). -/
def copyPasses (rollback : Nat) (c : Option FwCopy) : Bool := c.any fun x => rollback ≤ x.version

/-- The error field when neither copy passes (Table 18-2): rollback where a signature verifies, else both rejected. -/
def rejectError (a b : Option FwCopy) : Nat := if a.isSome || b.isSome then 3 else 2

/-- The boot ROM's result: stage, error, and the copy that runs (R313). -/
def bootResult (rollback : Nat) (a b : Option FwCopy) (selfTest : Bool) : Nat × Nat × FwCopy :=
  let run := fun (x : Option FwCopy) (e : Nat) => if selfTest then (1, e, x.getD ⟨0, 0⟩) else (3, 4, x.getD ⟨0, 0⟩)
  if copyPasses rollback a then run a 0
  else if copyPasses rollback b then run b 1
  else (3, rejectError a b, ⟨0, 0⟩)

/-- POWER_GOOD: a cold start, up to safe function or recovery. It happens to a device without power, or to one that is
in the ROM stage. -/
def execPowerGood (copyA copyB : Option FwCopy) (selfTest : Bool) (s : State) : Out :=
  .next (if s.power == .on && s.boot.stage != 0 then s
    else
      let c := coldState s .on
      let r := bootResult s.boot.rollback copyA copyB selfTest
      let c : State := { c with boot := { c.boot with
        stage := r.1, error := r.2.1, secVersion := r.2.2.version, digest := r.2.2.digest
        startups := s.boot.startups + 1 } }
      if r.1 == 1 then
        setThermal { c with units := safeUnits c.fuses } 0 { getThermal c 0 with safeClk := true }
      else c)

/-- POWER_OFF (R312). -/
def execPowerOff (s : State) : Out := .next (if s.power == .off then s else coldState s .off)

/-- What is mapped of an expander of a capacity: at most 2 TiB, in units of 1 GiB (R303). -/
def mappedSize (capacity : Nat) : Nat := min (2 ^ 41) capacity / 2 ^ 30 * 2 ^ 30

/-- The CXL ports that have trained, with their expanders' capacities, as bits of PORT_EN. -/
def trainedPorts (expanders : List (Option Nat)) : BitVec 24 :=
  (List.range 4).foldl (fun m k => if ((expanders[k]?).getD none).isSome then m ||| BitVec.ofNat 24 (2 ^ k) else m) 0

/-- The units of full function: a port that fails training is disabled (R303). -/
def fullUnits (f : Units) (expanders : List (Option Nat)) : Units :=
  let ports := f.ports &&& (0xFFFFF0 ||| trainedPorts expanders)
  { f with
    ports := ports
    cxl := (List.range 4).map fun k =>
      if ports.getLsbD k then mappedSize (((expanders[k]?).getD none).getD 0) else 0 }

/-- FULL_FUNCTION (R303, R315, R319): the CXL ports have trained, the discovery registers take their full values, and die
pair 0 changes clock. -/
def execFullFunction (s : State) : Out :=
  .next (if s.boot.stage != 1 then s
    else
      let u := fullUnits s.fuses s.expanders
      setThermal { s with boot := { s.boot with stage := 2 }, units := u, cxlDown := ~~~(u.ports.setWidth 4) } 0
        { getThermal s 0 with safeClk := false, paused := true })

/-! ### Keys (R324, R325) -/

/-- Key slots. -/
def keySlots : Nat := 4096

/-- n bytes of a list, zero beyond its end. -/
def padded (n : Nat) (l : List Byte) : List Byte := (List.range n).map fun i => l.getD i 0

/-- KEY_CMD after an operation on a slot: 1 load, 2 clear; it is not busy. -/
def keyStatus (slot op : Nat) (error : Bool) : DWord :=
  BitVec.ofNat 64 (slot + op * 2 ^ 12 + (if error then 2 ^ 62 else 0))

/-- Lines of a slot that p picks are written back under the slot's key, and carry no key until they are read again. -/
def dropKey (s : State) (slot : Nat) (p : L2Line → Bool) : State :=
  (s.l2.filter fun e => e.2.key == slot && p e.2).foldl (init := s) fun s e =>
    let s := writeSectors (viewKey s (e.1 * 256) 0) e.1
    l2Set s e.1 { l2Get s e.1 with present := false, used := 0 }

/-- Where a slot takes another key, what a clean unit of L2 reads from memory is still the ciphertext of the old one: the unit's
shadow says so, and it is read so once the line has left (R324). -/
def keepCipher (old : Option (BitVec 512)) (s : State) (u : Nat) : State :=
  if (l2Get s (u / 4)).dirty.getLsbD (u % 4) || (sfind s.shadows u).isSome then s
  else { s with shadows := sput s.shadows u (old, BitVec.ofNat 512 (memRead s (u * 64) 64)) }

/-- The lines of a slot that the L2 holds, as its key changes. -/
def keepCiphers (s : State) (slot : Nat) : State :=
  (s.l2.filter fun e => e.2.key == slot && e.2.used != 0).foldl (init := s) fun s e =>
    (List.range 4).foldl (fun s i => keepCipher (keyMaterial s slot) s (e.1 * 4 + i)) s

/-- The contents of a slot. -/
def setKey (s : State) (slot : Nat) (k : Option (BitVec 512)) : State :=
  { s with sec := { s.sec with keys := sset none s.sec.keys slot k } }

/-- The load of a slot. -/
def keyLoad (s : State) (n : Nat) : State :=
  match if n == 0 then none else Config.unwrap s.boot.startups (padded 1088 s.sec.kemCt) (padded 72 s.sec.keyData) with
  | none => { s with sec := { s.sec with keyCmd := keyStatus n 1 true } }
  | some k =>
    let s := setKey (keepCiphers (dropKey s n fun x => x.used == 0) n) n (some k)
    { s with sec := { s.sec with keyCmd := keyStatus n 1 false } }

/-- KEY_LOAD: KEY_DATA is unwrapped under the session key of KEM_CT; a load to slot 0 or a blob that fails sets the
error bit and changes nothing. What memory holds of an earlier key stays as it was stored. -/
def execKeyLoad (slot : Fin 4096) (s : State) : Out := .next (keyLoad s slot.val)

/-- The clear of a slot. -/
def keyClear (s : State) (n : Nat) : State :=
  let s := if n == 0 then s else setKey (dropKey s n fun _ => true) n none
  { s with sec := { s.sec with keyCmd := keyStatus n 2 false } }

/-- KEY_CLEAR: the lines of the slot are written back and invalidated, and the slot is emptied. -/
def execKeyClear (slot : Fin 4096) (s : State) : Out := .next (keyClear s slot.val)

/-! ### Discovery registers and attestation (Table 15-4, Table 18-7) -/

/-- The pseudo-channels of enabled slices, eight for each, as bits (R289). -/
def slicePchs (slices : BitVec 256) : Nat :=
  ofBytes ((List.range 256).map fun n => if slices.getLsbD n then 0xFF else 0)

/-- The bytes of CORE_EN to PORT_EN: a disabled slice disables its eight pseudo-channels (R289). -/
def discoveryBytes (u : Units) : List Byte :=
  toBytes 64 u.cores.toNat ++ toBytes 32 u.slices.toNat ++ toBytes 32 u.stackEn.toNat ++
    toBytes 256 (u.pchs.toNat &&& slicePchs u.slices) ++ toBytes 8 u.ports.toNat

/-- The report's bytes before its signature. -/
def reportBody (s : State) (nonce : BitVec 256) : List Byte :=
  toBytes 32 nonce.toNat ++ toBytes 32 s.boot.digest.toNat ++
    toBytes 4 s.boot.secVersion ++ toBytes 1 (feat0.toNat / 2 ^ 24) ++ toBytes 1 s.boot.stage ++
    toBytes 2 s.fabric.id ++ toBytes 32 (sha3 (discoveryBytes s.units)).toNat ++ toBytes 8 0 ++
    padded 1184 (Config.kemKey s.boot.startups)

/-- ATTESTATION_REPORT (R326). -/
def execAttestationReport (nonce : BitVec 256) (s : State) : Out :=
  let body := reportBody s nonce
  .next { s with sec := { s.sec with
    nonce := nonce, report := body ++ padded 2420 (Config.sign s.boot.startups body) } }

end Sys2Proof.Machine
end

