-- ==== Sys2Proof/Machine/Manage.lean ====
section
/-! DEFINITION. The management register space (R5, R6, R277, R287 to R289, R296, R305 to R311, R312, R325): what a write
changes, and what reads give. -/

namespace Sys2Proof.Machine

/-! ### Writes -/

/-- The debug registers are reachable through the port alone (R305). -/
def debugOffset (off : Nat) : Bool := 0x230000 ≤ off && off < 0x240000

/-- Bytes off to off + 7 of a buffer of n bytes replaced. -/
def putBuffer (n : Nat) (l : List Byte) (off : Nat) (v : DWord) : List Byte :=
  (List.range n).map fun i => if off ≤ i && i < off + 8 then BitVec.ofNat 8 (v.toNat >>> (8 * (i - off))) else l.getD i 0

/-- Set or clear bkpt_en of a partition (Table 17-1). -/
def setBkptEn (s : State) (k : Nat) (on : Bool) : State :=
  let l := s.dbg.bkptEn.filter (· != k)
  { s with dbg := { s.dbg with bkptEn := if on then k :: l else l } }

/-- A ring base is 4 KiB aligned (Table 14-5). DESIGN CHOICE: a write drops bits 11:0, which the spec does not say (log
entry 99). -/
def ringBase (v : DWord) : DWord := BitVec.ofNat 64 (v.toNat / 4096 * 4096)

/-- DBG_PART as written (Table 17-1): bkpt_en, and stop and resume. Where both are written, the stop ends at once (log
entry 99). -/
def writePart (s : State) (k : Nat) (v : DWord) : State :=
  let s := setBkptEn s k (v.getLsbD 3)
  let s := if v.getLsbD 0 then stopPart s k else s
  if v.getLsbD 1 then resumePart s k else s

/-- KEY_CMD as written (R325): operations 1 and 2 act on the slot; others do nothing (log entry 99). -/
def writeKeyCmd (s : State) (v : DWord) : State :=
  let n := field v.toNat 0 12
  match field v.toNat 12 2 with
  | 1 => keyLoad s n
  | 2 => keyClear s n
  | _ => s

/-- An 8-byte write at an aligned offset: the launch aperture, whose 4,096 contexts fill the offsets below 0x20_0000 (R232;
log entry 99), or a register. ATT_NONCE is written as a whole by ATTESTATION_REPORT; read-only registers and reserved
offsets are left alone. -/
def mgmtWrite (s : State) (off : Nat) (v : DWord) : State :=
  if off < 0x200000 then postAperture s off v
  else if off == 0x200000 then { s with rings := { s.rings with reqBase := ringBase v } }
  else if off == 0x200010 then
    let s := { s with rings := { s.rings with reqHead := v.toNat % 4096 } }
    fillRing s.reqs s
  else if off == 0x200018 then { s with rings := { s.rings with rspBase := ringBase v } }
  else if off == 0x200020 then { s with rings := { s.rings with rspTail := v.toNat % 4096 } }
  else if off == 0x210488 then { s with fabric := { s.fabric with id := v.toNat % 4096 } }
  else if 0x230000 ≤ off && off < 0x234000 then writePart s ((off - 0x230000) / 8) v
  else if 0x234000 ≤ off && off < 0x234020 then
    phaseStep s ((off - 0x234000) / 8) (field v.toNat 16 12) (field v.toNat 0 16)
  else if 0x238000 ≤ off && off < 0x239000 then setEng s ((off - 0x238000) / 8) (v.setWidth 9)
  else if off == 0x23C000 then { s with dbg := { s.dbg with traceOn := v.getLsbD 0 } }
  else if off == 0x240100 then psetWrite s v
  else if off == 0x240200 then writeKeyCmd s v
  else if 0x240208 ≤ off && off < 0x240250 then
    { s with sec := { s.sec with keyData := putBuffer 72 s.sec.keyData (off - 0x240208) v } }
  else if 0x241000 ≤ off && off < 0x241440 then
    { s with sec := { s.sec with kemCt := putBuffer 1088 s.sec.kemCt (off - 0x241000) v } }
  else s

/-- MGMT_REGISTER_WRITE: by the host or a debugger through its port. -/
def execMgmtRegisterWrite (off : Nat) (value : DWord) (byPort : Bool) (s : State) : Out :=
  .next (if off % 8 != 0 || (debugOffset off && !byPort) then s else mgmtWrite s off value)

/-! ### Reads -/

/-- Bytes i to i + 7 of a list as a register. -/
def dwordAt (l : List Byte) (i : Nat) : DWord := BitVec.ofNat 64 (ofBytes ((List.range 8).map fun j => l.getD (i + j) 0))

/-- DBG_PART (Table 17-1). -/
def dbgPart (s : State) (k : Nat) : DWord :=
  BitVec.ofNat 64 ((if s.dbg.halted.contains k then 16 else 0) + (if s.dbg.bkptEn.contains k then 8 else 0))

/-- BOOT_STAT (Table 18-2). -/
def bootStat (s : State) : DWord :=
  BitVec.ofNat 64 (s.boot.secVersion % 2 ^ 16 * 2 ^ 16 + s.boot.error * 2 ^ 8 + s.boot.stage)

/-- The register at an aligned offset; what is not named reads zero. DESIGN CHOICE: KEY_DATA and KEM_CT, to which R325
gives no access code, read zero (log entry 99). -/
def mgmtRead (s : State) (off : Nat) (byPort : Bool) : DWord :=
  if debugOffset off && !byPort then 0
  else if off < 0x200000 then queueStatus s (apertureQueue off).1 (apertureQueue off).2
  else if off == 0x200000 then s.rings.reqBase
  else if off == 0x200008 then BitVec.ofNat 64 s.rings.reqTail
  else if off == 0x200010 then BitVec.ofNat 64 s.rings.reqHead
  else if off == 0x200018 then s.rings.rspBase
  else if off == 0x200020 then BitVec.ofNat 64 s.rings.rspTail
  else if off == 0x200028 then BitVec.ofNat 64 s.rings.rspHead
  else if 0x210000 ≤ off && off < 0x210188 then dwordAt (discoveryBytes s.units) (off - 0x210000)
  else if 0x2101A0 ≤ off && off < 0x2101C0 then BitVec.ofNat 64 (s.units.cxl.getD ((off - 0x2101A0) / 8) 0)
  else if 0x210200 ≤ off && off < 0x210400 then
    let k := (off - 0x210200) / 4
    BitVec.ofNat 64 ((sget 0 s.errCounters k).toNat + (sget 0 s.errCounters (k + 1)).toNat * 2 ^ 32)
  else if off == 0x210400 then if s.routeErr then 1 else 0
  else if off == 0x210480 then s.fabric.down.setWidth 64
  else if off == 0x210488 then BitVec.ofNat 64 s.fabric.id
  else if off == 0x210490 then BitVec.ofNat 64 s.fabric.stale
  else if 0x220000 ≤ off && off < 0x228000 then sget 0 s.fatal ((off - 0x220000) / 8)
  else if 0x230000 ≤ off && off < 0x234000 then dbgPart s ((off - 0x230000) / 8)
  else if 0x234000 ≤ off && off < 0x234020 then if sget false s.dbg.stepDone ((off - 0x234000) / 8) then 1 else 0
  else if 0x238000 ≤ off && off < 0x239000 then (sget 0 s.dbg.engStop ((off - 0x238000) / 8)).setWidth 64
  else if off == 0x23C000 then BitVec.ofNat 64 s.dbg.traceLost
  else if off == 0x240000 then bootStat s
  else if off == 0x240100 then psetWord s
  else if off == 0x240200 then s.sec.keyCmd
  else if 0x242000 ≤ off && off < 0x242020 then dwordAt (toBytes 32 s.sec.nonce.toNat) (off - 0x242000)
  else if 0x243000 ≤ off && off < 0x243E84 then dwordAt s.sec.report (off - 0x243000)
  else 0

/-- The package is halted (R301, R310): every partition and every engine bit of every core is set. -/
def packageHalted (s : State) : Bool :=
  ((List.range 2048).all s.dbg.halted.contains) &&
    (List.range 512).all fun c => sget 0 s.dbg.engStop c == BitVec.allOnes 9

/-- A team's image as the port reads it, while the team is halted in a stopped partition (R305, R308). -/
def portImage (s : State) (u : Nat) : Option (List (Nat × List Byte)) :=
  let t := s.getTeam u
  if t.state == .halted && t.resident && s.dbg.halted.contains (t.core * 4 + t.part) then some t.saveImage else none

end Sys2Proof.Machine
end

