-- ==== Sys2Proof/Machine/Dispatch.lean ====
section
/-! DEFINITION. One arm for each constructor of Instr. -/

namespace Sys2Proof.Machine

def exec (i : Instr) (s : State) : Host.Outcome State Fault Refusal :=
  match i with
  | .nop => Sys2Proof.Machine.execNop s
  | .bra off => Sys2Proof.Machine.execBra off s
  | .brx p c off => Sys2Proof.Machine.execBrx p c off s
  | .call off => Sys2Proof.Machine.execCall off s
  | .ret => Sys2Proof.Machine.execRet s
  | .split p => Sys2Proof.Machine.execSplit p s
  | .flip => Sys2Proof.Machine.execFlip s
  | .merge => Sys2Proof.Machine.execMerge s
  | .prune p => Sys2Proof.Machine.execPrune p s
  | .exit => Sys2Proof.Machine.execExit s
  | .trap imm => Sys2Proof.Machine.execTrap imm s
  | .rett a => Sys2Proof.Machine.execRett a s
  | .bkpt tag => Sys2Proof.Machine.execBkpt tag s
  | .srd d n => Sys2Proof.Machine.execSrd d n s
  | .swr a n => Sys2Proof.Machine.execSwr a n s
  | .iadd d a b ty => Sys2Proof.Machine.execIadd d a b ty s
  | .isub d a b ty => Sys2Proof.Machine.execIsub d a b ty s
  | .imul d a b ty => Sys2Proof.Machine.execImul d a b ty s
  | .imulh d a b ty => Sys2Proof.Machine.execImulh d a b ty s
  | .imad d a b ty => Sys2Proof.Machine.execImad d a b ty s
  | .imin d a b ty => Sys2Proof.Machine.execImin d a b ty s
  | .imax d a b ty => Sys2Proof.Machine.execImax d a b ty s
  | .iabs d a ty => Sys2Proof.Machine.execIabs d a ty s
  | .and d a b ty => Sys2Proof.Machine.execAnd d a b ty s
  | .or d a b ty => Sys2Proof.Machine.execOr d a b ty s
  | .xor d a b ty => Sys2Proof.Machine.execXor d a b ty s
  | .shl d a b ty => Sys2Proof.Machine.execShl d a b ty s
  | .shr d a b ty => Sys2Proof.Machine.execShr d a b ty s
  | .sar d a b ty => Sys2Proof.Machine.execSar d a b ty s
  | .popc d a ty => Sys2Proof.Machine.execPopc d a ty s
  | .clz d a ty => Sys2Proof.Machine.execClz d a ty s
  | .brev d a ty => Sys2Proof.Machine.execBrev d a ty s
  | .bfx d a b ty => Sys2Proof.Machine.execBfx d a b ty s
  | .bfi d a b ty => Sys2Proof.Machine.execBfi d a b ty s
  | .sel d a b p => Sys2Proof.Machine.execSel d a b p s
  | .icmp c p a b ty => Sys2Proof.Machine.execIcmp c p a b ty s
  | .lea d a b ty => Sys2Proof.Machine.execLea d a b ty s
  | .mov d a ty => Sys2Proof.Machine.execMov d a ty s
  | .iaddImm d a imm => Sys2Proof.Machine.execIaddImm d a imm s
  | .andImm d a imm => Sys2Proof.Machine.execAndImm d a imm s
  | .orImm d a imm => Sys2Proof.Machine.execOrImm d a imm s
  | .xorImm d a imm => Sys2Proof.Machine.execXorImm d a imm s
  | .shlImm d a count => Sys2Proof.Machine.execShlImm d a count s
  | .shrImm d a count => Sys2Proof.Machine.execShrImm d a count s
  | .sarImm d a count => Sys2Proof.Machine.execSarImm d a count s
  | .icmpImm c p a imm => Sys2Proof.Machine.execIcmpImm c p a imm s
  | .movi d imm => Sys2Proof.Machine.execMovi d imm s
  | .movu d imm => Sys2Proof.Machine.execMovu d imm s
  | .fadd d a b ty => Sys2Proof.Machine.execFadd d a b ty s
  | .fsub d a b ty => Sys2Proof.Machine.execFsub d a b ty s
  | .fmul d a b ty => Sys2Proof.Machine.execFmul d a b ty s
  | .ffma d a b ty => Sys2Proof.Machine.execFfma d a b ty s
  | .fmin d a b ty => Sys2Proof.Machine.execFmin d a b ty s
  | .fmax d a b ty => Sys2Proof.Machine.execFmax d a b ty s
  | .fcmp c p a b ty => Sys2Proof.Machine.execFcmp c p a b ty s
  | .frcp d a look ty => Sys2Proof.Machine.execFrcp d a look ty s
  | .frsq d a look ty => Sys2Proof.Machine.execFrsq d a look ty s
  | .fex2 d a look ty => Sys2Proof.Machine.execFex2 d a look ty s
  | .flg2 d a look ty => Sys2Proof.Machine.execFlg2 d a look ty s
  | .ftanh d a look ty => Sys2Proof.Machine.execFtanh d a look ty s
  | .cvt d a code m => Sys2Proof.Machine.execCvt d a code m s
  | .packmx d a fmt => Sys2Proof.Machine.execPackmx d a fmt s
  | .unpkmx d a fmt => Sys2Proof.Machine.execUnpkmx d a fmt s
  | .planePack d a => Sys2Proof.Machine.execPlanePack d a s
  | .planeUnpack d a j => Sys2Proof.Machine.execPlaneUnpack d a j s
  | .shfl mode pair d a b => Sys2Proof.Machine.execShfl mode pair d a b s
  | .vote mode pair p a => Sys2Proof.Machine.execVote mode pair p a s
  | .matchLanes d p a ty => Sys2Proof.Machine.execMatchLanes d p a ty s
  | .tred op ty d a => Sys2Proof.Machine.execTred op ty d a s
  | .tscan op excl ty d a => Sys2Proof.Machine.execTscan op excl ty d a s
  | .plog op pd pa pb => Sys2Proof.Machine.execPlog op pd pa pb s
  | .pcnt d p => Sys2Proof.Machine.execPcnt d p s
  | .pmovToVector d p => Sys2Proof.Machine.execPmovToVector d p s
  | .pmovToPredicate p a => Sys2Proof.Machine.execPmovToPredicate p a s
  | .pmovWord d p w => Sys2Proof.Machine.execPmovWord d p w s
  | .ldB t m look => Sys2Proof.Machine.execLdB t m look s
  | .ldH t m look => Sys2Proof.Machine.execLdH t m look s
  | .ldW t m look => Sys2Proof.Machine.execLdW t m look s
  | .ldD t m look => Sys2Proof.Machine.execLdD t m look s
  | .ldQ t m look => Sys2Proof.Machine.execLdQ t m look s
  | .stB t m look => Sys2Proof.Machine.execStB t m look s
  | .stH t m look => Sys2Proof.Machine.execStH t m look s
  | .stW t m look => Sys2Proof.Machine.execStW t m look s
  | .stD t m look => Sys2Proof.Machine.execStD t m look s
  | .stQ t m look => Sys2Proof.Machine.execStQ t m look s
  | .ldlW t m look => Sys2Proof.Machine.execLdlW t m look s
  | .ldlQ t m look => Sys2Proof.Machine.execLdlQ t m look s
  | .stlW t m look => Sys2Proof.Machine.execStlW t m look s
  | .stlQ t m look => Sys2Proof.Machine.execStlQ t m look s
  | .ldcW t m c => Sys2Proof.Machine.execLdcW t m c s
  | .ldcQ t m c => Sys2Proof.Machine.execLdcQ t m c s
  | .ldu t m look => Sys2Proof.Machine.execLdu t m look s
  | .stu t m look => Sys2Proof.Machine.execStu t m look s
  | .ldAcq t m sc d => Sys2Proof.Machine.execLdAcq t m sc d s
  | .stRel t m sc d => Sys2Proof.Machine.execStRel t m sc d s
  | .atom op t m => Sys2Proof.Machine.execAtom op t m s
  | .red op t m => Sys2Proof.Machine.execRed op t m s
  | .atoml op t m => Sys2Proof.Machine.execAtoml op t m s
  | .fence sc acq rel => Sys2Proof.Machine.execFence sc acq rel s
  | .waitv ne sc t m => Sys2Proof.Machine.execWaitv ne sc t m s
  | .await a v => Sys2Proof.Machine.execAwait a v s
  | .aset a v => Sys2Proof.Machine.execAset a v s
  | .xfer chan tmpl f => Sys2Proof.Machine.execXfer chan tmpl f s
  | .xferReg chan sr f => Sys2Proof.Machine.execXferReg chan sr f s
  | .xptr sd sa acq sc => Sys2Proof.Machine.execXptr sd sa acq sc s
  | .rowcpy sd sa sc f => Sys2Proof.Machine.execRowcpy sd sa sc f s
  | .rowfil sd sa sc f => Sys2Proof.Machine.execRowfil sd sa sc f s
  | .rowand sd sa sb sc f => Sys2Proof.Machine.execRowand sd sa sb sc f s
  | .rowor sd sa sb sc f => Sys2Proof.Machine.execRowor sd sa sb sc f s
  | .rownot sd sa sc f => Sys2Proof.Machine.execRownot sd sa sc f s
  | .rowmaj sd sa sb sc f => Sys2Proof.Machine.execRowmaj sd sa sb sc f s
  | .rowxor sd sa sb sc f => Sys2Proof.Machine.execRowxor sd sa sb sc f s
  | .rowstat sd acq sc => Sys2Proof.Machine.execRowstat sd acq sc s
  | .rowstatPoll sd acq sc => Sys2Proof.Machine.execRowstatPoll sd acq sc s
  | .capt kd se sm => Sys2Proof.Machine.execCapt kd se sm s
  | .captRef kd se sm => Sys2Proof.Machine.execCaptRef kd se sm s
  | .captLane se sm => Sys2Proof.Machine.execCaptLane se sm s
  | .apply kd => Sys2Proof.Machine.execApply kd s
  | .applyLane vh => Sys2Proof.Machine.execApplyLane vh s
  | .kdup kd ks => Sys2Proof.Machine.execKdup kd ks s
  | .kdrop kd => Sys2Proof.Machine.execKdrop kd s
  | .kld kd se => Sys2Proof.Machine.execKld kd se s
  | .kst kd se => Sys2Proof.Machine.execKst kd se s
  | .kqry kd se => Sys2Proof.Machine.execKqry kd se s
  | .tarm sa sb k st => Sys2Proof.Machine.execTarm sa sb k st s
  | .tsig sa st => Sys2Proof.Machine.execTsig sa st s
  | .qapply sa k st => Sys2Proof.Machine.execQapply sa k st s
  | .qapplyLane sa vh st => Sys2Proof.Machine.execQapplyLane sa vh st s
  | .launch sa sb st => Sys2Proof.Machine.execLaunch sa sb st s
  | .join sa w st => Sys2Proof.Machine.execJoin sa w st s
  | .leave => Sys2Proof.Machine.execLeave s
  | .barv b => Sys2Proof.Machine.execBarv b s
  | .bara b => Sys2Proof.Machine.execBara b s
  | .barw b => Sys2Proof.Machine.execBarw b s
  | .cohq sd b => Sys2Proof.Machine.execCohq sd b s
  | .bdeclList sl sh prio st => Sys2Proof.Machine.execBdeclList sl sh prio st s
  | .bdeclRec sl sh prio st => Sys2Proof.Machine.execBdeclRec sl sh prio st s
  | .benter sh st mode n1 => Sys2Proof.Machine.execBenter sh st mode n1 s
  | .bexit sh st => Sys2Proof.Machine.execBexit sh st s
  | .bdrop sh st => Sys2Proof.Machine.execBdrop sh st s
  | .bqry sh sd => Sys2Proof.Machine.execBqry sh sd s
  | .matt sa sb st => Sys2Proof.Machine.execMatt sa sb st s
  | .mdet st => Sys2Proof.Machine.execMdet st s
  | .mwb slot rec idx => Sys2Proof.Machine.execMwb slot rec idx s
  | .mlw slot => Sys2Proof.Machine.execMlw slot s
  | .mma tile stamp rec slot m1 => Sys2Proof.Machine.execMma tile stamp rec slot m1 s
  | .msta fmt ieee tile rec => Sys2Proof.Machine.execMsta fmt ieee tile rec s
  | .mclr tile int => Sys2Proof.Machine.execMclr tile int s
  | .mfmt f j srec => Sys2Proof.Machine.execMfmt f j srec s
  | .mbar b op => Sys2Proof.Machine.execMbar b op s
  | .mend => Sys2Proof.Machine.execMend s
  | .clauseHeader => Sys2Proof.Machine.execClauseHeader s
  | .drainEnd uid => Sys2Proof.Machine.execDrainEnd uid s
  | .resultCommit uid k lanes => Sys2Proof.Machine.execResultCommit uid k lanes s
  | .teamRetirement uid => Sys2Proof.Machine.execTeamRetirement uid s
  | .taskDequeue ctx q => Sys2Proof.Machine.execTaskDequeue ctx q s
  | .launchAperturePost off block => Sys2Proof.Machine.execLaunchAperturePost off block s
  | .ballastCancel off => Sys2Proof.Machine.execBallastCancel off s
  | .launchHeadRead ctx q => Sys2Proof.Machine.execLaunchHeadRead ctx q s
  | .teamPlacement dp => Sys2Proof.Machine.execTeamPlacement dp s
  | .launchCompletionStamp ctx q => Sys2Proof.Machine.execLaunchCompletionStamp ctx q s
  | .contextSwitch w => Sys2Proof.Machine.execContextSwitch w s
  | .swapOut w => Sys2Proof.Machine.execSwapOut w s
  | .ballastSwapOut w => Sys2Proof.Machine.execBallastSwapOut w s
  | .ballastGating avg gate => Sys2Proof.Machine.execBallastGating avg gate s
  | .psetWrite value => Sys2Proof.Machine.execPsetWrite value s
  | .stratusReply req r => Sys2Proof.Machine.execStratusReply req r s
  | .tlbInvalidation cores ctx lo hi => Sys2Proof.Machine.execTlbInvalidation cores ctx lo hi s
  | .pageMigration ctx va ph => Sys2Proof.Machine.execPageMigration ctx va ph s
  | .heatSweep ctx => Sys2Proof.Machine.execHeatSweep ctx s
  | .hostPageResponse record writes => Sys2Proof.Machine.execHostPageResponse record writes s
  | .cxlLinkDown port => Sys2Proof.Machine.execCxlLinkDown port s
  | .cxlCompletionTimeout uid k => Sys2Proof.Machine.execCxlCompletionTimeout uid k s
  | .uncorrectableError ctxs cause pa bad => Sys2Proof.Machine.execUncorrectableError ctxs cause pa bad s
  | .routeTableWrite port entry value => Sys2Proof.Machine.execRouteTableWrite port entry value s
  | .mirroredStoreDelivery k => Sys2Proof.Machine.execMirroredStoreDelivery k s
  | .mirroredDeliveryNack k => Sys2Proof.Machine.execMirroredDeliveryNack k s
  | .mirroredDeliveryTimeout k => Sys2Proof.Machine.execMirroredDeliveryTimeout k s
  | .balzalFlitReplay port failed => Sys2Proof.Machine.execBalzalFlitReplay port failed s
  | .fabricRequest src seq ctx off op rel => Sys2Proof.Machine.execFabricRequest src seq ctx off op rel s
  | .fabricResponse target seq r => Sys2Proof.Machine.execFabricResponse target seq r s
  | .fabricPendingResponse target seq => Sys2Proof.Machine.execFabricPendingResponse target seq s
  | .fabricRetransmit target seq => Sys2Proof.Machine.execFabricRetransmit target seq s
  | .fabricContribution src seq ctx off kind data scale => Sys2Proof.Machine.execFabricContribution src seq ctx off kind data scale s
  | .fabricHaltState pkg halted => Sys2Proof.Machine.execFabricHaltState pkg halted s
  | .hostMemoryAccess pa a => Sys2Proof.Machine.execHostMemoryAccess pa a s
  | .deferredStoreEntry core chan => Sys2Proof.Machine.execDeferredStoreEntry core chan s
  | .channelStallTimeout uid => Sys2Proof.Machine.execChannelStallTimeout uid s
  | .copyHead core chan => Sys2Proof.Machine.execCopyHead core chan s
  | .copyConditionMet core chan => Sys2Proof.Machine.execCopyConditionMet core chan s
  | .copyUnit core chan => Sys2Proof.Machine.execCopyUnit core chan s
  | .copyCompletion core chan => Sys2Proof.Machine.execCopyCompletion core chan s
  | .rowCommandAccept core => Sys2Proof.Machine.execRowCommandAccept core s
  | .rowPrestep cmd unit => Sys2Proof.Machine.execRowPrestep cmd unit s
  | .rowStep cmd unit => Sys2Proof.Machine.execRowStep cmd unit s
  | .rowFallbackUnit cmd => Sys2Proof.Machine.execRowFallbackUnit cmd s
  | .rowCommandComplete cmd => Sys2Proof.Machine.execRowCommandComplete cmd s
  | .bankActivation bank => Sys2Proof.Machine.execBankActivation bank s
  | .bankRefresh bank => Sys2Proof.Machine.execBankRefresh bank s
  | .captureWindowEnd => Sys2Proof.Machine.execCaptureWindowEnd s
  | .bundleFillComplete core ctx idx => Sys2Proof.Machine.execBundleFillComplete core ctx idx s
  | .bundleEvictionComplete core ctx idx => Sys2Proof.Machine.execBundleEvictionComplete core ctx idx s
  | .directoryGrant core uid => Sys2Proof.Machine.execDirectoryGrant core uid s
  | .bundleEntry uid => Sys2Proof.Machine.execBundleEntry uid s
  | .waitvReread uid => Sys2Proof.Machine.execWaitvReread uid s
  | .galeGrant core => Sys2Proof.Machine.execGaleGrant core s
  | .mwbComplete core stream => Sys2Proof.Machine.execMwbComplete core stream s
  | .mmaChunk core checksumOk => Sys2Proof.Machine.execMmaChunk core checksumOk s
  | .partitionStop core part => Sys2Proof.Machine.execPartitionStop core part s
  | .partitionResume core part => Sys2Proof.Machine.execPartitionResume core part s
  | .phaseStep dp ctx cohort => Sys2Proof.Machine.execPhaseStep dp ctx cohort s
  | .dbgEngChannelStop core chan => Sys2Proof.Machine.execDbgEngChannelStop core chan s
  | .dbgEngStreamStop core k => Sys2Proof.Machine.execDbgEngStreamStop core k s
  | .dbgEngRowStop core => Sys2Proof.Machine.execDbgEngRowStop core s
  | .dbgEngResume core bit => Sys2Proof.Machine.execDbgEngResume core bit s
  | .keyLoad slot => Sys2Proof.Machine.execKeyLoad slot s
  | .keyClear slot => Sys2Proof.Machine.execKeyClear slot s
  | .attestationReport nonce => Sys2Proof.Machine.execAttestationReport nonce s
  | .powerGood copyA copyB selfTest => Sys2Proof.Machine.execPowerGood copyA copyB selfTest s
  | .fullFunction => Sys2Proof.Machine.execFullFunction s
  | .tsensRefresh values => Sys2Proof.Machine.execTsensRefresh values s
  | .refreshMultiplierFall stack => Sys2Proof.Machine.execRefreshMultiplierFall stack s
  | .thermalEvaluation dp => Sys2Proof.Machine.execThermalEvaluation dp s
  | .throttlePauseEnd dp => Sys2Proof.Machine.execThrottlePauseEnd dp s
  | .thermalTrip => Sys2Proof.Machine.execThermalTrip s
  | .mgmtRegisterWrite off value byPort => Sys2Proof.Machine.execMgmtRegisterWrite off value byPort s
  | .illegalInstructionWord w => Sys2Proof.Machine.execIllegalInstructionWord w s
  | .streamOpcodeError core stream w => Sys2Proof.Machine.execStreamOpcodeError core stream w s
  | .powerOff => Sys2Proof.Machine.execPowerOff s
  | .contextCreation ctx d => Sys2Proof.Machine.execContextCreation ctx d s
  | .contextDestruction ctx => Sys2Proof.Machine.execContextDestruction ctx s
  | .contextDeclaredFatal ctx cause => Sys2Proof.Machine.execContextDeclaredFatal ctx cause s

end Sys2Proof.Machine
end

