-- ==== Sys2Proof/Machine/Schedule.lean ====
section
/-! DEFINITION. Whose turn it is (R78, R115, R116, R240): the agenda names the next move (log entry 21), and when it is
empty the machine goes on by itself. -/

namespace Sys2Proof.Machine

/-- CLOCK runs on, and the counter of free values advances (log entries 2 and 7). -/
def tick (s : State) : State :=
  { s with clock := s.clock + Config.clockTick s.free, free := s.free + 1 }

/-- What a move comes to: an instruction to run, a state, nothing that the agenda names, or a stop. -/
inductive Turn where
  | run (i : Instr) (s : State)
  | done (s : State)
  | idle (s : State)
  | stop (f : Fault)
  deriving Repr

/-! ### Teams -/

/-- The team could issue: READY, with lanes, on a die pair that is not paused (R78, R320). -/
def Team.canIssue (s : State) (t : Team) : Bool :=
  t.state == .ready && t.full != 0 && !(sget .blank s.thermal (t.core / 128)).paused

/-- Another team of the partition is READY (R240). -/
def otherReady (s : State) (t : Team) : Bool :=
  s.teams.any fun e => e.2.uid != t.uid && e.2.partKey == t.partKey && e.2.cls != 7 && e.2.state == .ready

/-- The partition may choose the team: a ballast team only while no other team of its partition is READY
and the power controller does not gate it (R240). -/
def Team.mayIssue (s : State) (t : Team) : Bool :=
  t.canIssue s && (t.cls != 7 || !(otherReady s t || s.pset.gated))

/-- The place of a team in the choice of R78: longest without issuing first, ties by slot. -/
def Team.rank (t : Team) : Nat := t.lastIssue * 2 ^ 16 + t.partKey * 12 + t.slot

/-- The partition chooses the team: of its teams that may issue, none has gone longer without issuing (R78). -/
def Team.chosen (s : State) (t : Team) : Bool :=
  t.mayIssue s && s.teams.all fun e => !(e.2.partKey == t.partKey && e.2.mayIssue s) || decide (t.rank ≤ e.2.rank)

/-- The turn of team u. -/
def teamTurn (s : State) (u : Nat) : Turn :=
  let t := s.getTeam u
  if t.chosen s then .run t.nextInstr { s with cur := u } else .done s

/-- The READY team that has gone longest without issuing (R78). -/
def longest (s : State) : Option Nat :=
  (s.teams.foldl (init := (none : Option (Nat × Nat))) fun best e =>
    if e.2.mayIssue s then
      match best with
      | some b => if e.2.rank < b.2 then some (e.1, e.2.rank) else best
      | none => some (e.1, e.2.rank)
    else best).map (·.1)

/-! ### Streams -/

/-- The fetch of a stream's next word at its home slice (R115, R377). -/
def fetchStream (s : State) (core : Nat) (x : Stream) : EngAcc × State :=
  if inAperture x.pc 4 || inFabric x.pc then (.fatal, s)
  else
    match onePage s core streamTlbs x.ctx x.pc 4 .fetch with
    | (.fatal, s) => (.fatal, s)
    | (.bad pa, s) => (.bad pa, s)
    | (.held, s) => (.held, s)
    | (.fault ps, s) => (.wait ps false, s)
    | (.migrating ps, s) => (.wait ps true, s)
    | (.ok pas, s) =>
      match engineRace s false (lineOf (pas.headD 0)) with
      | some i => (.race i, s)
      | none =>
        match homeStop s core true false pas with
        | some .noRoute => (.fatal, s)
        | some (.bad pa) => (.bad pa, s)
        | some .held => (.held, s)
        | some (.lost at_) => (.wait (pagesAt x.pc at_) false, s)
        | none => (.ok pas, homeFetchAll s false pas)

/-- Words that are fetched ahead of the one that runs, at most (R379). -/
def aheadWords : Nat := 8

/-- The word that the bytes at some addresses give. -/
def streamBytes (s : State) (pas : List Nat) : Word := BitVec.ofNat 32 (ofBytes (homeBytes s pas))

/-- No word is fetched ahead beyond a word that ends the stream. -/
def endsStream (w : Word) : Bool :=
  match streamInstr 0 0 w with
  | .mend | .streamOpcodeError _ _ _ => true
  | _ => false

/-- Words beyond the next one, up to 8 of them in all, as far as their fetch meets nothing to wait for and no error (R379;
log entry 75). -/
def prefetch (core ck : Nat) : Nat → State → State
  | 0, s => s
  | n + 1, s =>
    match findStream s core ck with
    | none => s
    | some x =>
      if aheadWords ≤ x.ahead.length || x.ahead.any endsStream then s
      else
        match fetchStream s core { x with pc := x.pc + BitVec.ofNat 64 (4 * x.ahead.length) } with
        | (.ok pas, s) =>
          prefetch core ck n (modStream s core ck fun x => { x with ahead := x.ahead ++ [streamBytes s pas] })
        | _ => s

/-- The stream with its next words fetched (R379), or with what the fetch of the next one comes to (R115, R132). -/
def fetchAhead (s : State) (core : Nat) (x : Stream) : State :=
  match x.ahead with
  | _ :: _ => prefetch core x.cohort aheadWords s
  | [] =>
    if x.waitReqs.any fun r => r.2 == x.pc then s
    else
      match fetchStream s core x with
      | (.ok pas, s) =>
        prefetch core x.cohort aheadWords (modStream s core x.cohort fun x => { x with ahead := [streamBytes s pas] })
      | (.wait ps m, s) => streamPark s core x.cohort x.pc ps .fetch m
      | (a, s) => streamStop s core x.cohort x.ctx x.pc false a

/-- What a stream does when it starts no word: the running MMA or MSTA goes on, with the array grant (R116, R118). -/
def runningTurn (s : State) (core : Nat) (x : Stream) : Turn :=
  match x.mma, x.msta with
  | some _, _ => if x.granted then .run (.mmaChunk core true) s else .run (.galeGrant core) s
  | none, some m =>
    if x.granted then .run (.msta m.fmt m.ieee m.tile (Fin.ofNat 256 m.recNo)) s else .run (.galeGrant core) s
  | none, none => .done s

/-- What a stream does with its fetched word: it starts when it may, an MWB beside earlier words that run; a word that
needs the array waits for the grant (R116, R118). -/
def wordTurn (s : State) (core k : Nat) (x : Stream) (w : Word) : Turn :=
  let i := streamInstr core k w
  if x.mayStart s i then
    if needsGrant i && !x.granted then .run (.galeGrant core) s else .run i s
  else runningTurn s core x

/-- The turn of the k-th stream of a core, in the order of attaching. -/
def streamTurn (s : State) (core k : Nat) : Turn :=
  match (getEngine s core).streams[k]? with
  | none => .done s
  | some x =>
    if !x.canRun && !x.atBarrier then .done s
    else if x.failing.isSome then
      if x.running then runningTurn { s with curStream := (core, x.cohort) } core x else .done (settleStream s core x.cohort)
    else
      let s := fetchAhead { s with curStream := (core, x.cohort) } core x
      match findStream s core x.cohort with
      | none => .done s
      | some x =>
        match x.ahead with
        | [] => if x.canRun then runningTurn s core x else .done s
        | w :: _ => if x.canRun || x.atBarrier then wordTurn s core k x w else .done s

/-! ### Moves -/

/-- A step of the table without an encoding that the agenda may name. -/
def isEvent (i : Instr) : Bool :=
  match i with
  | .illegalInstructionWord _ | .streamOpcodeError _ _ _ | .clauseHeader => false
  | i => (encode i).isNone

/-- The k-th result of a team arrives, with its lines (R276, R306). -/
def Team.arrive (k : Nat) (t : Team) : Team :=
  match t.pending[k]? with
  | some p =>
    if p.blocked then t
    else { t with pending := t.pending.set k { p with arrived := true } }.came p.onWay
  | none => t

/-- The arrival of a pending result; what waits for it goes on (R178). -/
def arrive (s : State) (u k : Nat) : State := retryTeam (s.modTeam u (Team.arrive k)) u

/-- Clean bytes of a 64-byte line of a first-level cache are dropped for a parity error, to be fetched again (R287). -/
def parityL1 (s : State) (core line : Nat) : State :=
  countError (dropBytes s core ((l1Bytes s core).filter fun e => e.1 / 64 == line && !e.2.dirty)) 7

/-- An uncorrectable error in a clean L2 line: it is fetched again (R287). -/
def refetchL2 (s : State) (line : Nat) : State :=
  let x := l2Get s line
  if x.dirty != 0 then s else countError (rereadLine s line) 8

/-- The tile translation engine runs ahead for copy channel n, or for stream n - 4 (R203). -/
def runAhead (s : State) (core n : Nat) : State := if n < 4 then copyAhead s core n else streamAhead s core (n - 4)

/-- The port takes the first stamp of the trace queue (R311). -/
def traceOut (s : State) : State := { s with dbg := { s.dbg with trace := s.dbg.trace.tail } }

/-- Structures of Table 15-3 whose corrected errors have a counter. -/
def errStructures : Nat := 16

/-- A move of the agenda. -/
def perform (s : State) : Move → Turn
  | .occur i => if isEvent i then .run i s else .done s
  | .issue u => teamTurn s u
  | .stream core k => streamTurn s core k
  | .replaceL1 core line =>
    .done (if dirtyHeld s core && heldLine s true (line / 4) then s else l1Replace s core line)
  | .evictL2 line => .done (if lru s line == some line then evictL2 s line else s)
  | .dropTlb n => .done { s with tlbs := dropNth s.tlbs n }
  | .arrive u k => .done (arrive s u k)
  | .corrected k => .done (if k < errStructures then countError s k else s)
  | .parityTlb n => .done (countError { s with tlbs := dropNth s.tlbs n } 6)
  | .parityL1 core line => .done (parityL1 s core line)
  | .refetchL2 line => .done (refetchL2 s line)
  | .ahead core n => .done (runAhead s core n)
  | .traceOut => .done (traceOut s)

/-- The next move. Without power only what the agenda names can happen (R312, R321). -/
def turn (s : State) : Turn :=
  match s.agenda with
  | m :: rest =>
    let s := { s with agenda := rest }
    if s.power == .on then perform s m
    else
      match m with
      | .occur (.powerGood a b t) => .run (.powerGood a b t) s
      | .occur .powerOff => .run .powerOff s
      | _ => .done s
  | [] => if s.power == .on then .idle s else .stop .noClock

/-! ### Placing one instruction (host interface; log entry 22) -/

/-- The clause class that admits an opcode (Table 3-2). -/
def classOf (op : Nat) : Nat :=
  if op ≤ 0x0C then 4 else if op ≤ 0x4F then 1 else if op ≤ 0x6F then 2 else if op ≤ 0x7F then 3
  else if op ≤ 0xBF then 5 else 1

/-- A team of 32 lanes in a clause of one word. -/
def probeTeam (uid : Nat) (w : Word) : Team :=
  let t := { Team.blank with
    uid := uid, ctx := 1, lanes := 32, nreg := 102, state := .ready
    full := fullMask 32, active := fullMask 32, pc := 0x1000 }
  t.enterClause 0x1000 (classOf (w.toNat / 2 ^ 24)) [w]

/-- A stream at word w. -/
def probeStream (w : Word) : Stream where
  order := 0
  cohort := 65536
  ctx := 1
  start := 0x1000
  pc := 0x1000
  ahead := [w]
  state := .running
  barMask := 0
  tileMask := 3
  slotBase := 0
  slotCount := 16
  afmt := .e4m3
  j := 0
  srec := 0
  arr := []
  wait := .none
  waitReqs := []
  mma := none
  msta := none
  mwbs := []
  undo := []
  failing := none
  stamps := []
  stampSeq := 0
  errCode := 0
  errPc := 0
  stopped := false
  granted := true
  savedFrom := .running
  savedTile0 := .zero
  savedTile1 := .zero
  savedSlots := []
  savedLatched := none

/-- The state whose next step runs word w: in a stream for a stream word, in a clause otherwise. -/
def placeWord (s : State) (w : Word) : State :=
  let s := { s with power := .on }
  if 0xC0 ≤ w.toNat / 2 ^ 24 && w.toNat / 2 ^ 24 < 0xE0 then
    let e := getEngine s 0
    { setEngine s 0 { e with streams := probeStream w :: e.streams } with
      agenda := .stream 0 0 :: s.agenda }
  else
    { s.setTeam s.nextUid (probeTeam s.nextUid w) with
      nextUid := s.nextUid + 1
      agenda := .issue s.nextUid :: s.agenda }

end Sys2Proof.Machine
end

