-- ==== Sys2Proof/Machine/Idle.lean ====
section
/-! DEFINITION. What follows every step, and how the machine goes on when the agenda names nothing (log entry 21). -/

namespace Sys2Proof.Machine

/-! ### After a step -/

/-- The team is PARKED or SWAPPED, or was so when it was halted. -/
def Team.away (t : Team) : Bool :=
  let st := if t.state == .halted then t.haltedFrom else t.state
  st == .parked || st == .swapped

/-- A task's control block follows its team (R261): PARKED when the team parks or is swapped, RUNNING when it goes
on. -/
def noteParks (before s : State) : State :=
  s.teams.foldl (init := s) fun s e =>
    match sfind before.teams e.1 with
    | none => s
    | some b => if b.away == e.2.away then s else noteTask s e.1 (if e.2.away then 4 else 3)

/-- Loads that are to be made again, and the traps of those that have failed, follow as soon as their teams admit them
(R54, R274, R276). -/
def retryLost (s : State) : State :=
  (s.teams.filter fun e => e.2.pending.any fun p => !p.lost.isEmpty).foldl (fun s e => replayLost s e.1) s

/-- What follows every move: contexts that have read failed data end (R288), what a slice held back is tried again
(R218, R225), as are lost loads and the stamps of cohorts that are dissolved (R73), streams stop and go on as DBG_ENG says (R310), and the L2 keeps to its ways (R138). -/
def tidy (s : State) : State := trimL2 (syncStops (retryLost (dissolveAll (retryHeld (failReads s)))))

/-- What every step leads to beside its own effect. -/
def after (before s : State) : State := tidy (noteParks before (noteSteps before s))

/-! ### Moves that the state suggests -/

/-- What one team may go on to. -/
def teamMoves (s : State) (u : Nat) (t : Team) : List Turn :=
  let ev := fun i : Instr => Turn.run i s
  (match t.wait with
    | .drain _ _ _ _ => [ev (.drainEnd u)]
    | .waitv => [ev (.waitvReread u)]
    | .benter => [ev (.directoryGrant t.core u), ev (.bundleEntry u)]
    | _ => []) ++
  (if t.reenter then [ev (.directoryGrant t.core u), ev (.bundleEntry u)] else []) ++
  (if t.state == .ready then []
    else (List.range t.pending.length).flatMap fun k =>
      ev (.resultCommit u k (BitVec.allOnes 32)) ::
        (if (t.pending[k]?).any fun p => p.onWay.isEmpty then [] else [.done (arrive s u k)])) ++
  (if t.full == 0 then [ev (.teamRetirement u)] else [])

/-- What the bundles of a pool may go on to. -/
def poolMoves (s : State) (k : Nat) (p : Pool) : List Turn :=
  p.bundles.flatMap fun b =>
    match b.2.state with
    | .filling => [.run (.bundleFillComplete (k / 4096) (k % 4096) b.1) s]
    | .evicting => [.run (.bundleEvictionComplete (k / 4096) (k % 4096) b.1) s]
    | _ => []

/-- What a channel may go on to. -/
def channelMoves (s : State) (k : Nat) (c : Channel) : List Turn :=
  let core := k % 2048 / 4
  let chan := k % 4
  (match c.queue with
    | [] => []
    | x :: _ =>
      match x.state with
      | .queued => [.run (.copyHead core chan) s]
      | .acquiring => [.run (.copyConditionMet core chan) s]
      | .running => [.run (.copyUnit core chan) s]
      | .completing => [.run (.copyCompletion core chan) s]) ++
  (if c.deferred.isEmpty then [] else [.run (.deferredStoreEntry core chan) s])

/-- What a row command may go on to. -/
def rowMoves (s : State) (r : RowCmd) : List Turn :=
  if r.queued then [.run (.rowCommandAccept r.core) s]
  else
    ((List.range r.width).map fun u => .run (.rowPrestep r.id u) s) ++
    (r.units.map fun u => .run (.rowStep r.id u.1) s) ++
    [.run (.rowFallbackUnit r.id) s, .run (.rowCommandComplete r.id) s]

/-- What the streams of a core may go on to. -/
def engineMoves (s : State) (core : Nat) (e : Engine) : List Turn :=
  ((List.range e.streams.length).map fun k => streamTurn s core k) ++
  (List.range e.streams.length).map fun k => .run (.mwbComplete core k) s

/-- What the work of a context may go on to. -/
def contextMoves (s : State) (ctx : Nat) (c : Context) : List Turn :=
  (c.queues.map fun q => .run (.launchHeadRead ctx q.1) s) ++
  (c.runs.map fun r => .run (.launchCompletionStamp ctx r.q) s) ++
  c.ready.map fun q => .run (.taskDequeue ctx q.1) s

/-- What the fabric may go on to within the package: waiting requests, and requests of the package to itself with
their responses (R297). -/
def fabricMoves (s : State) : List Turn :=
  (s.fabric.waiting.map fun q => .run (.fabricRequest q.src q.seq q.ctx q.off q.op false) s) ++
  (s.fabric.outstanding.filter fun q => q.target == s.fabric.id).flatMap fun q =>
    let ctx := match q.who with | .team u => (s.getTeam u).ctx | .copy _ _ c => c
    match findDone s q.target q.seq with
    | none => [.run (.fabricRequest q.target q.seq ctx q.off q.op false) s]
    | some d => [.run (.fabricResponse q.target q.seq d.resp) s]

/-- The running context of a die pair has nothing placed and nothing to place there: its slice ends (log entry 100). -/
def dpIdle (s : State) (d : Nat) : Bool :=
  match sget none s.running d with
  | none => true
  | some c => (placedClasses s d c).isEmpty && (workClasses s d c).isEmpty && !agentsWait s d c

/-- Switches of a die pair's context, and placements. -/
def distributorMoves (s : State) (d : Nat) : List Turn :=
  [.run (.contextSwitch ⟨d, dpIdle s d, []⟩) s, .run (.teamPlacement d) s]

/-- The moves of the device's own agents. -/
def agentMoves (s : State) : List Turn :=
  s.teams.flatMap (fun e => teamMoves s e.1 e.2) ++
  s.pools.flatMap (fun e => poolMoves s e.1 e.2) ++
  (List.range s.mirrors.length).map (fun k => .run (.mirroredStoreDelivery k) s) ++
  s.channels.flatMap (fun e => channelMoves s e.1 e.2) ++
  s.rowQueue.flatMap (rowMoves s) ++
  s.banks.map (fun e => .run (.bankActivation e.1) s) ++
  s.engines.flatMap (fun e => engineMoves s e.1 e.2) ++
  fabricMoves s ++
  s.ctxs.flatMap (fun e => contextMoves s e.1 e.2) ++
  (if s.dbg.trace.isEmpty then [] else [.done (traceOut s)]) ++
  (List.range 4).flatMap (distributorMoves s)

/-- The turn of the team that R78 chooses. -/
def issueMove (s : State) : List Turn := ((longest s).map (teamTurn s)).toList

/-! ### Going on -/

/-- The state a move leads to. -/
def Turn.next? : Turn → Option State
  | .run i s => match exec i s with | .next t => some t | _ => none
  | .done s => some s
  | .idle s => some s
  | .stop _ => none

/-- The move changes the machine, apart from who acts and what the L2 has used. -/
def changed (s t : State) : Bool :=
  decide ({ t with cur := s.cur, curStream := s.curStream, l2 := s.l2, l2Time := s.l2Time } ≠ s)

/-- The first move that changes something. -/
def firstChange (s : State) : List Turn → State
  | [] => s
  | m :: r =>
    match m.next? with
    | some t => if changed s t then after s t else firstChange s r
    | none => firstChange s r

/-- The machine goes on by itself: the issuing team and the other agents take turns at coming first. -/
def goOn (s : State) : State :=
  firstChange s (if s.free % 2 == 0 then issueMove s ++ agentMoves s else agentMoves s ++ issueMove s)

/-- The outcome of a move. -/
def Turn.outcome : Turn → Out
  | .run i s =>
    match exec i s with
    | .next t => .next (after s t)
    | o => o
  | .done s => .next (tidy s)
  | .idle s => .next (goOn s)
  | .stop f => .fault f

end Sys2Proof.Machine
end

