-- ==== Sys2Proof/Machine/Step.lean ====
section
/-! DEFINITION. One step of the machine, and placing an instruction where the next step finds it. -/

namespace Sys2Proof.Machine

/-- One step: the clock runs on, and the next move is made. -/
def step (s : State) : Host.Outcome State Fault Refusal := (turn (tick s)).outcome

/-- The state whose next step runs the instruction whose bits are w (log entry 22). -/
def State.withFetchWord (s : State) (_nbits w : Nat) : State := placeWord s (BitVec.ofNat 32 w)

end Sys2Proof.Machine
end

