-- ==== Sys2Proof/Safety.lean ====
section
/-! DEFINITION. What counts as a safe run: no step of it stops; and the words in which the statements about single
instructions are written: when a word issues, and what it leaves as it was. -/

namespace Sys2Proof.Safety

open Sys2Proof.Machine

/-- The step from s answers a next state. -/
def Goes (s : State) : Prop := ∃ t, step s = .next t

/-- Nothing stops the first n steps from s. -/
def SafeFor : Nat → State → Prop
  | 0, _ => True
  | n + 1, s => ∃ t, step s = .next t ∧ SafeFor n t

/-- Memory keeps its canonical form. -/
def MemoryOk (s : State) : Prop := Memory.wf s.mem = true

/-- Memory and the tables of both cache levels keep their canonical form, so that equal contents are equal data. -/
def StoresOk (s : State) : Prop := MemoryOk s ∧ canon none s.l1 = true ∧ canon L2Line.blank s.l2 = true

/-! ### When a word of a team has its own effect -/

/-- Word i of the current team is not a word that runs once in a later pass (R62), and no pending result must commit
before it (R53). -/
def Due (i : Instr) (s : State) : Prop :=
  (i.once && s.tm.laterPass) = false ∧
    s.tm.mustCommit (touchedRegs s.tm i) i.sregs s.tm.touchPass = 0

/-- Word i of the current team issues and has its own effect: it is due, and no trap of R44 stands against it. -/
def Issues (i : Instr) (s : State) : Prop := Due i s ∧ staticTrap i s.tm = none

/-- The state in which a word has its effect: its issue is counted (R78) and the scalars it finds are kept for its later
passes (R62). -/
def issued (s : State) : State := s.noteIssue.modTm Team.snap

/-! ### What a word leaves as it was -/

/-- Every register of the team but vector register n (a team register number, counted from the frame), w registers
wide. -/
def OtherVectors (n w : Nat) (a b : Team) : Prop :=
  ∀ g l, l < 1024 → ¬ (a.frame + n ≤ g ∧ g < a.frame + n + w) → b.vget g l = a.vget g l

/-- Everything of a team but its vector, scalar and predicate registers, FPFLAGS, and where it stands: its program
counter, its clause, the word's unfinished lanes with the sources kept for them, its fabric requests and the bytes it waits
for, its open spans, its turn. -/
def Team.rest (t : Team) : Team :=
  { t with
    v := [], s := [], p := [], fpflags := 0, pc := 0, clause := none, only := none, held := none, unfin := 0
    fatalPages := [], hostFail := [], waitv := none, pending := [], lastIssue := 0, resume := none
    fabric := [], atPort := [] }

/-- Nothing of the machine but the team table and the count of issued words differs: every byte of memory and of every
cache, every context, engine, channel, queue and register outside the teams is as it was. -/
def SameMachine (s t : State) : Prop :=
  { t with teams := s.teams, issueCount := s.issueCount } = s

/-- No team but the current one differs. -/
def SameOthers (s t : State) : Prop := ∀ u, u ≠ s.cur → sfind t.teams u = sfind s.teams u

/-- A word touches only its team's registers, FPFLAGS and place. -/
def OnlyTeam (s t : State) : Prop :=
  SameMachine s t ∧ SameOthers s t ∧ Team.rest t.tm = Team.rest s.tm

end Sys2Proof.Safety
end

