-- ==== Sys2Proof/Certificates/Slice0/Obligations.lean ====
section
/-! DEFINITION. The statements for the provers. -/

open Sys2Proof Sys2Proof.Machine Sys2Proof.Safety

namespace Sys2Proof.Statements

/-! ### Results in registers -/

/-- Vector register n (of the team's frame) holds f l in every lane l that the word acts on; its other lanes are as they
were. -/
def InLanes (s t : State) (n : Nat) (f : Nat → Word) : Prop :=
  ∀ l, l < 1024 → t.tm.lane n l = if l ∈ s.tm.wordLanes then f l else s.tm.lane n l

/-- The same for the pair n, n + 1 (R48). -/
def InPairs (s t : State) (n : Nat) (f : Nat → DWord) : Prop :=
  ∀ l, l < 1024 → t.tm.lane64 n l = if l ∈ s.tm.wordLanes then f l else s.tm.lane64 n l

/-- Predicate p holds f l in every lane the word acts on and is otherwise as it was; a write to p7 is ignored (R80). -/
def InPredicate (s t : State) (p : PReg) (f : Nat → Bool) : Prop :=
  if p.val = 7 then t.tm.p = s.tm.p
  else
    (∀ l, l < 1024 → (sget 0 t.tm.p p.val).getLsbD l =
      if l ∈ s.tm.wordLanes then f l else (sget 0 s.tm.p p.val).getLsbD l) ∧
    ∀ q, q ≠ p.val → sget 0 t.tm.p q = sget 0 s.tm.p q

/-- The word changes no register but d, w registers wide (R68), no predicate, no flag, nothing else of the team but its
place, and nothing outside the team: no byte of memory, no other team. -/
def OnlyDest (s t : State) (d : Reg) (w : Nat) : Prop :=
  OnlyTeam s t ∧ t.tm.p = s.tm.p ∧ t.tm.fpflags = s.tm.fpflags ∧
    match d with
    | .v n => t.tm.s = s.tm.s ∧ OtherVectors n.val w s.tm t.tm
    | .s n => t.tm.v = s.tm.v ∧ ∀ m, m ≠ n.val → sget 0 t.tm.s m = sget 0 s.tm.s m

/-- Only predicates and FPFLAGS of the team change. -/
def OnlyPredicates (s t : State) : Prop := OnlyTeam s t ∧ t.tm.v = s.tm.v ∧ t.tm.s = s.tm.s

/-! ### Integer words -/

/-- An integer operation over w bits: signed type, x, y and the old destination z. -/
abbrev Op := (w : Nat) → Bool → BitVec w → BitVec w → BitVec w → BitVec w

/-- R327's delivery of r: at the width of the type in each lane, or extended to 64 bits in a scalar (R47). -/
def Delivers (s t : State) (ty : IntTy) (f : Op) (d a b : Reg) : Prop :=
  match d with
  | .v n =>
    if ty.is64 then
      InPairs s t n.val fun l => f 64 ty.signed (s.tm.src64 a l) (s.tm.src64 b l) (s.tm.lane64 n.val l)
    else InLanes s t n.val fun l => f 32 ty.signed (s.tm.src a l) (s.tm.src b l) (s.tm.lane n.val l)
  | .s n =>
    sget 0 t.tm.s n.val =
      if ty.is64 then f 64 ty.signed (s.tm.src64 a 0) (s.tm.src64 b 0) (s.tm.sread n.val)
      else
        let r := f 32 ty.signed (s.tm.src a 0) (s.tm.src b 0) ((s.tm.sread n.val).setWidth 32)
        if ty.signed then r.signExtend 64 else r.setWidth 64

/-- The word with two sources completes and delivers f. -/
def Completes2 (mk : Reg → Reg → Reg → IntTy → Instr) (f : Op) : Prop :=
  ∀ s d a b ty, Issues (mk d a b ty) s → ∃ t, exec (mk d a b ty) s = .next t ∧ Delivers s t ty f d a b

/-- The word with one source completes and delivers f. -/
def Completes1 (mk : Reg → Reg → IntTy → Instr) (f : Op) : Prop :=
  ∀ s d a ty, Issues (mk d a ty) s → ∃ t, exec (mk d a ty) s = .next t ∧ Delivers s t ty f d a a

/-- The immediate form completes: 32 bits in lanes, 64 bits on the scalar pipe (R47). -/
def DeliversImm (s t : State) (f : Op) (d a : Reg) (imm : Int) : Prop :=
  match d with
  | .v n => InLanes s t n.val fun l => f 32 true (s.tm.src a l) (BitVec.ofInt 32 imm) 0
  | .s n => sget 0 t.tm.s n.val = f 64 true (s.tm.src64 a 0) (BitVec.ofInt 64 imm) 0

/-- A 10-bit immediate sign-extended. -/
def imm10 (n : Fin 1024) : Int := (BitVec.ofNat 10 n.val).toInt

def CompletesImm (mk : Reg → Reg → Fin 1024 → Instr) (f : Op) : Prop :=
  ∀ s d a n, Issues (mk d a n) s → ∃ t, exec (mk d a n) s = .next t ∧ DeliversImm s t f d a (imm10 n)

def CompletesShift (mk : Reg → Reg → Fin 64 → Instr) (f : Op) : Prop :=
  ∀ s d a n, Issues (mk d a n) s → ∃ t, exec (mk d a n) s = .next t ∧ DeliversImm s t f d a n.val

/-- The bits of y[5:0]: the shift count. -/
def count {w : Nat} (y : BitVec w) : Nat := (y.setWidth 6).toNat

def addOp : Op := fun _ _ x y _ => x + y
def subOp : Op := fun _ _ x y _ => x - y
def mulOp : Op := fun _ _ x y _ => x * y
def madOp : Op := fun _ _ x y z => x * y + z
def mulhOp : Op := fun w sg x y _ =>
  if sg then (x.signExtend (2 * w) * y.signExtend (2 * w)).extractLsb' w w
  else (x.setWidth (2 * w) * y.setWidth (2 * w)).extractLsb' w w
def minOp : Op := fun _ sg x y _ =>
  if sg then (if x.toInt ≤ y.toInt then x else y) else (if x.toNat ≤ y.toNat then x else y)
def maxOp : Op := fun _ sg x y _ =>
  if sg then (if y.toInt ≤ x.toInt then x else y) else (if y.toNat ≤ x.toNat then x else y)
def absOp : Op := fun _ _ x _ _ => if x.toInt < 0 then 0 - x else x
def andOp : Op := fun _ _ x y _ => x &&& y
def orOp : Op := fun _ _ x y _ => x ||| y
def xorOp : Op := fun _ _ x y _ => x ^^^ y
def shlOp : Op := fun _ _ x y _ => x <<< count y
def shrOp : Op := fun _ _ x y _ => x >>> count y
def sarOp : Op := fun _ _ x y _ => x.sshiftRight (count y)
def popcOp : Op := fun w _ x _ _ => BitVec.ofNat w ((List.range w).countP fun i => x.getLsbD i)
def clzOp : Op := fun _ _ x _ _ => x.clz
def brevOp : Op := fun _ _ x _ _ => x.reverse
def movOp : Op := fun _ _ x _ _ => x

end Sys2Proof.Statements

open Sys2Proof.Statements

/-- R327, R358, R328, R384, R400 and the entries that cite R327: the integer words with two sources complete with the
result the entry gives, in lanes, in pairs and on the scalar pipe. BFX and BFI are stated bit by bit below. -/
def Obligations.IntegerWordsDeliver : Prop :=
  Completes2 .iadd addOp ∧ Completes2 .isub subOp ∧ Completes2 .imul mulOp ∧ Completes2 .imulh mulhOp ∧
  Completes2 .imad madOp ∧ Completes2 .imin minOp ∧ Completes2 .imax maxOp ∧ Completes2 .and andOp ∧
  Completes2 .or orOp ∧ Completes2 .xor xorOp ∧ Completes2 .shl shlOp ∧ Completes2 .shr shrOp ∧
  Completes2 .sar sarOp ∧
  Completes1 .iabs absOp ∧ Completes1 .popc popcOp ∧ Completes1 .clz clzOp ∧ Completes1 .brev brevOp ∧
  Completes1 .mov movOp

namespace Sys2Proof.Statements

/-- R338: the position of a field, and its length: 0 when the field is empty, else cut at bit w - 1. -/
def fieldPos {w : Nat} (y : BitVec w) : Nat := (y.setWidth 6).toNat
def fieldLen {w : Nat} (y : BitVec w) : Nat :=
  let len := (y.extractLsb' 8 6).toNat
  if fieldPos y < w then min len (w - fieldPos y) else 0

/-- R339, bit by bit: bits of the field, then its sign for a signed type, else 0. -/
def IsBfx (w : Nat) (sg : Bool) (x y r : BitVec w) : Prop :=
  ∀ i, i < w → r.getLsbD i =
    if i < fieldLen y then x.getLsbD (fieldPos y + i)
    else sg && decide (0 < fieldLen y) && x.getLsbD (fieldPos y + fieldLen y - 1)

/-- R340, bit by bit: the low bits of x inside the field, the old destination outside. -/
def IsBfi (w : Nat) (x y z r : BitVec w) : Prop :=
  ∀ i, i < w → r.getLsbD i =
    if fieldPos y ≤ i ∧ i < fieldPos y + fieldLen y then x.getLsbD (i - fieldPos y) else z.getLsbD i

end Sys2Proof.Statements

/-- R338 to R340: BFX and BFI complete, and every bit of the result is the one the field specification names. -/
def Obligations.BitFieldWordsDeliver : Prop :=
  ∃ bfx bfi : Op,
    (∀ w sg x y z, w = 32 ∨ w = 64 → IsBfx w sg x y (bfx w sg x y z)) ∧
    (∀ w sg x y z, w = 32 ∨ w = 64 → IsBfi w x y z (bfi w sg x y z)) ∧
    Completes2 .bfx bfx ∧ Completes2 .bfi bfi

/-- R358, R382, R384, R328, R400: the immediate words and MOVI and MOVU complete with the result the entry gives. -/
def Obligations.ImmediateWordsDeliver : Prop :=
  CompletesImm .iaddImm addOp ∧ CompletesImm .andImm andOp ∧ CompletesImm .orImm orOp ∧ CompletesImm .xorImm xorOp ∧
  CompletesShift .shlImm shlOp ∧ CompletesShift .shrImm shrOp ∧ CompletesShift .sarImm sarOp ∧
  (∀ s d n, Issues (.movi d n) s → ∃ t, exec (.movi d n) s = .next t ∧
    match d with
    | .v r => InLanes s t r.val fun _ => (BitVec.ofNat 17 n.val).setWidth 32
    | .s r => sget 0 t.tm.s r.val = (BitVec.ofNat 17 n.val).setWidth 64) ∧
  (∀ s d n, Issues (.movu d n) s → ∃ t, exec (.movu d n) s = .next t ∧
    match d with
    | .v r => InLanes s t r.val fun l => s.tm.lane r.val l ||| (BitVec.ofNat 16 n.val).setWidth 32 <<< 16
    | .s r => sget 0 t.tm.s r.val = s.tm.sread r.val ||| (BitVec.ofNat 16 n.val).setWidth 64 <<< 16)

namespace Sys2Proof.Statements

/-- An integer comparison (Table 20-12). -/
def compares (c : ICond) (sg : Bool) {w : Nat} (x y : BitVec w) : Bool :=
  match c with
  | .eq => decide (x = y)
  | .ne => decide (x ≠ y)
  | .lt => if sg then decide (x.toInt < y.toInt) else decide (x.toNat < y.toNat)
  | .le => if sg then decide (x.toInt ≤ y.toInt) else decide (x.toNat ≤ y.toNat)
  | .gt => if sg then decide (y.toInt < x.toInt) else decide (y.toNat < x.toNat)
  | .ge => if sg then decide (y.toInt ≤ x.toInt) else decide (y.toNat ≤ x.toNat)

/-- The comparison an immediate condition code stands for (Table 20-12). -/
def comparesImm (c : ICondImm) (x y : Word) : Bool :=
  match c with
  | .eq => compares .eq true x y
  | .ne => compares .ne true x y
  | .lt => compares .lt true x y
  | .le => compares .le true x y
  | .gt => compares .gt true x y
  | .ge => compares .ge true x y
  | .ltu => compares .lt false x y
  | .leu => compares .le false x y
  | .gtu => compares .gt false x y
  | .geu => compares .ge false x y

/-- LEA's offset (R373). -/
def leaOffset (t : Team) (b : Reg) (ty : IntTy) (l : Nat) : DWord :=
  match ty with
  | .s32 => (t.src b l).signExtend 64
  | .u32 => (t.src b l).setWidth 64
  | .s64 | .u64 => t.src64 b l

end Sys2Proof.Statements

/-- R359, R373, R401: ICMP writes the comparison to the predicate bits of the lanes it acts on, SEL selects by a predicate,
LEA adds an extended offset to a 64-bit base. -/
def Obligations.ComparisonSelectionAndAddressWords : Prop :=
  (∀ s c p a b ty, Issues (.icmp c p a b ty) s → ∃ t, exec (.icmp c p a b ty) s = .next t ∧ OnlyPredicates s t ∧
    t.tm.fpflags = s.tm.fpflags ∧
    InPredicate s t p fun l =>
      if ty.is64 then compares c ty.signed (s.tm.src64 a l) (s.tm.src64 b l)
      else compares c ty.signed (s.tm.src a l) (s.tm.src b l)) ∧
  (∀ s c p a n, Issues (.icmpImm c p a n) s → ∃ t, exec (.icmpImm c p a n) s = .next t ∧ OnlyPredicates s t ∧
    t.tm.fpflags = s.tm.fpflags ∧
    InPredicate s t p fun l => comparesImm c (s.tm.src a l) ((BitVec.ofNat 10 n.val).signExtend 32)) ∧
  (∀ s d a b p, Issues (.sel d a b p) s → ∃ t, exec (.sel d a b p) s = .next t ∧ OnlyDest s t (.v d) 1 ∧
    InLanes s t d.val fun l => if (s.tm.pread p.val).getLsbD l then s.tm.src a l else s.tm.src b l) ∧
  (∀ s d a b ty, Issues (.lea d a b ty) s → ∃ t, exec (.lea d a b ty) s = .next t ∧ OnlyDest s t d 2 ∧
    match d with
    | .v n => InPairs s t n.val fun l => s.tm.src64 a l + leaOffset s.tm b ty l
    | .s n => sget 0 t.tm.s n.val = s.tm.src64 a 0 + leaOffset s.tm b ty 0)

namespace Sys2Proof.Statements

/-- The width of a destination in registers. -/
def width (ty : IntTy) : Nat := if ty.is64 then 2 else 1

def Frames2 (mk : Reg → Reg → Reg → IntTy → Instr) : Prop :=
  ∀ s t d a b ty, Issues (mk d a b ty) s → exec (mk d a b ty) s = .next t → OnlyDest s t d (width ty)

def Frames1 (mk : Reg → Reg → IntTy → Instr) : Prop :=
  ∀ s t d a ty, Issues (mk d a ty) s → exec (mk d a ty) s = .next t → OnlyDest s t d (width ty)

def FramesImm {n : Nat} (mk : Reg → Reg → Fin n → Instr) : Prop :=
  ∀ s t d a k, Issues (mk d a k) s → exec (mk d a k) s = .next t → OnlyDest s t d 1

end Sys2Proof.Statements

/-- R327: an integer word changes its destination alone: no other register, no predicate, no flag ("never touch
FPFLAGS"), no byte of memory, no other team. -/
def Obligations.IntegerWordsChangeOnlyTheirDestination : Prop :=
  (Frames2 .iadd ∧ Frames2 .isub ∧ Frames2 .imul ∧ Frames2 .imulh ∧ Frames2 .imad ∧ Frames2 .imin ∧ Frames2 .imax ∧
    Frames2 .and ∧ Frames2 .or ∧ Frames2 .xor ∧ Frames2 .shl ∧ Frames2 .shr ∧ Frames2 .sar ∧ Frames2 .bfx ∧
    Frames2 .bfi) ∧
  (Frames1 .iabs ∧ Frames1 .popc ∧ Frames1 .clz ∧ Frames1 .brev ∧ Frames1 .mov) ∧
  (FramesImm .iaddImm ∧ FramesImm .andImm ∧ FramesImm .orImm ∧ FramesImm .xorImm ∧ FramesImm .shlImm ∧
    FramesImm .shrImm ∧ FramesImm .sarImm) ∧
  (∀ s t d n, Issues (.movi d n) s → exec (.movi d n) s = .next t → OnlyDest s t d 1) ∧
  (∀ s t d n, Issues (.movu d n) s → exec (.movu d n) s = .next t → OnlyDest s t d 1)

namespace Sys2Proof.Statements

/-! ### Floating-point words -/

/-- Every element of the type, lowest first, through f; the flags of all of them (R90, R92). -/
def eachElement (ty : FTy) (f : FFmt → Nat → Nat → Nat → Nat × Flags) (a b d : Word) : Word × Flags :=
  match ty with
  | .f32 =>
    let r := f fmtF32 a.toNat b.toNat d.toNat
    (BitVec.ofNat 32 r.1, r.2)
  | .bf16x2 =>
    let lo := f fmtBf16 (lo16 a) (lo16 b) (lo16 d)
    let hi := f fmtBf16 (hi16 a) (hi16 b) (hi16 d)
    (halves lo.1 hi.1, lo.2 ||| hi.2)
  | .f16x2 =>
    let lo := f fmtF16 (lo16 a) (lo16 b) (lo16 d)
    let hi := f fmtF16 (hi16 a) (hi16 b) (hi16 d)
    (halves lo.1 hi.1, lo.2 ||| hi.2)

/-- FPFLAGS takes the flags of every lane the word acts on, and keeps the old ones (R92). -/
def FlagsOf (s t : State) (g : Nat → Flags) : Prop :=
  ∀ i, i < 32 → t.tm.fpflags.getLsbD i =
    (s.tm.fpflags.getLsbD i || s.tm.wordLanes.any fun l => (g l).getLsbD i)

/-- The word changes vector register n alone, and FPFLAGS. -/
def OnlyVector (s t : State) (n w : Nat) : Prop :=
  OnlyTeam s t ∧ t.tm.p = s.tm.p ∧ t.tm.s = s.tm.s ∧ OtherVectors n w s.tm t.tm

def CompletesFloat (s : State) (i : Instr) (d : VReg) (r : Nat → Word × Flags) : Prop :=
  Issues i s → ∃ t, exec i s = .next t ∧ OnlyVector s t d.val 1 ∧ InLanes s t d.val (fun l => (r l).1) ∧
    FlagsOf s t fun l => (r l).2

/-- The type and rounding mode of an arithmetic word (Table 3-5). -/
def elementType : FArith → FTy
  | .f32 _ => .f32
  | .bf16x2 => .bf16x2
  | .f16x2 => .f16x2
def rounding : FArith → Rnd
  | .f32 m => m
  | _ => .rn

end Sys2Proof.Statements

namespace Sys2Proof.Statements

/-! ### Floating-point results by their exact values (R90, R91, R353, R354, R356) -/

/-- What a code stands for: a NaN, an infinity, or a number with its sign, which a zero has too. -/
inductive Num where
  | nan
  | inf (neg : Bool)
  | fin (neg : Bool) (v : ℚ)

/-- The fields of a code (Table 6-1): sign, exponent, fraction, and the code without its sign. -/
def codeNeg (f : FFmt) (c : Nat) : Bool := c.testBit (f.e + f.f)
def codeExp (f : FFmt) (c : Nat) : Nat := c / 2 ^ f.f % 2 ^ f.e
def codeFrac (f : FFmt) (c : Nat) : Nat := c % 2 ^ f.f
def codeMag (f : FFmt) (c : Nat) : Nat := c % 2 ^ (f.e + f.f)

/-- A magnitude code with a sign; infinity and the canonical quiet NaN of an IEEE format (Table 6-1). -/
def withSign (f : FFmt) (neg : Bool) (k : Nat) : Nat := (if neg then 2 ^ (f.e + f.f) else 0) + k
def infinity (f : FFmt) : Nat := (2 ^ f.e - 1) * 2 ^ f.f
def quietNan (f : FFmt) : Nat := infinity f + 2 ^ (f.f - 1)

/-- The number of magnitude code k; the exponent goes on past the largest of the format. -/
def magnitude (f : FFmt) (k : Nat) : ℚ :=
  if k / 2 ^ f.f = 0 then (k : ℚ) * 2 ^ (1 - (f.bias : ℤ) - f.f)
  else ((2 ^ f.f + k % 2 ^ f.f : ℕ) : ℚ) * 2 ^ ((k / 2 ^ f.f : ℕ) - (f.bias : ℤ) - f.f)

/-- The code is a NaN: those of Table 6-4 too. -/
def codeNan (f : FFmt) (c : Nat) : Bool :=
  if f.hasInf then codeExp f c == 2 ^ f.e - 1 && codeFrac f c != 0
  else f.hasNan && codeMag f c == 2 ^ (f.e + f.f) - 1

/-- A signalling NaN: the first bit of its fraction is clear. -/
def codeSig (f : FFmt) (c : Nat) : Bool := f.hasInf && codeNan f c && !(codeFrac f c).testBit (f.f - 1)

def numOf (f : FFmt) (c : Nat) : Num :=
  let m := magnitude f (codeMag f c)
  if codeNan f c then .nan
  else if f.hasInf && codeMag f c == infinity f then .inf (codeNeg f c)
  else .fin (codeNeg f c) (if codeNeg f c then -m else m)

/-- The mode rounds a magnitude of this sign away from zero. -/
def away (md : Rnd) (neg : Bool) : Bool :=
  match md with
  | .ru => !neg
  | .rd => neg
  | _ => false

/-- k is the rounding of the magnitude a in a mode: to nearest with ties to even, away from zero, or toward it. -/
def Nearest (f : FFmt) (md : Rnd) (neg : Bool) (a : ℚ) (k : Nat) : Prop :=
  if md = .rn then
    ∀ j, j ≠ k → |magnitude f k - a| < |magnitude f j - a| ∨ (|magnitude f k - a| = |magnitude f j - a| ∧ k % 2 = 0)
  else if away md neg = true then a ≤ magnitude f k ∧ ∀ j, j < k → magnitude f j < a
  else magnitude f k ≤ a ∧ ∀ j, k < j → a < magnitude f j

/-- The magnitude a is tiny after rounding: rounded as if the exponent had no lower limit, it is below the least normal
number. step is the spacing there. -/
def Tiny (f : FFmt) (md : Rnd) (neg : Bool) (a : ℚ) : Prop :=
  let least : ℚ := 2 ^ (1 - (f.bias : ℤ))
  let step : ℚ := 2 ^ (-(f.bias : ℤ) - f.f)
  if md = .rn then a < least - step / 2 else if away md neg = true then a ≤ least - step else a < least

/-- v, other than 0, rounded once (R91, R353): overflow gives infinity, or the largest finite number where the mode rounds
the other way, with of and nx; else nx where the result differs from v, and uf where it is tiny too. -/
def RoundsTo (f : FFmt) (md : Rnd) (v : ℚ) (r : Nat × Flags) : Prop :=
  let neg := decide (v < 0)
  ∃ k, Nearest f md neg |v| k ∧
    if f.maxFin < k then r = (withSign f neg (if md = .rn ∨ away md neg = true then infinity f else f.maxFin), 5)
    else
      r.1 = withSign f neg k ∧ (r.2.getLsbD 0 = true ↔ magnitude f k ≠ |v|) ∧
        (r.2.getLsbD 1 = true ↔ magnitude f k ≠ |v| ∧ Tiny f md neg |v|) ∧ r.2 &&& 28 = 0

/-- A canonical NaN, with nv for a signalling input. -/
def NanResult (f : FFmt) (sig : Bool) (r : Nat × Flags) : Prop := r = (quietNan f, if sig then 16 else 0)

/-- The sum of two numbers: opposite infinities are invalid, an exact zero is +0, or -0 in mode rd, or the common sign of
two zeros. -/
def SumOf (f : FFmt) (md : Rnd) (sig : Bool) (x y : Num) (r : Nat × Flags) : Prop :=
  match x, y with
  | .nan, _ | _, .nan => NanResult f sig r
  | .inf m, .inf n => r = if m = n then (withSign f m (infinity f), 0) else (quietNan f, 16)
  | .inf m, .fin _ _ | .fin _ _, .inf m => r = (withSign f m (infinity f), 0)
  | .fin m v, .fin n w =>
    (v + w ≠ 0 → RoundsTo f md (v + w) r) ∧
      (v + w = 0 → r = (withSign f (if v = 0 ∧ m = n then m else decide (md = .rd)) 0, 0))

/-- The exact product; none for 0 and an infinity. -/
def productOf (x y : Num) : Option Num :=
  match x, y with
  | .nan, _ | _, .nan => some .nan
  | .inf m, .inf n => some (.inf (m != n))
  | .inf m, .fin n v | .fin n v, .inf m => if v = 0 then none else some (.inf (m != n))
  | .fin m v, .fin n w => some (.fin (m != n) (v * w))

/-- A value rounded, with nv for a signalling input. -/
def ValueOf (f : FFmt) (md : Rnd) (sig : Bool) (x : Num) (r : Nat × Flags) : Prop :=
  match x with
  | .nan => NanResult f sig r
  | .inf n => r = (withSign f n (infinity f), 0)
  | .fin n v => (v ≠ 0 → RoundsTo f md v r) ∧ (v = 0 → r = (withSign f n 0, 0))

/-- Codes without NaNs in their order, for comparisons, where -0 equals +0, and for minimum and maximum, where it is
below. -/
def orderKey (f : FFmt) (c : Nat) : ℤ := if codeNeg f c then -(codeMag f c : ℤ) else codeMag f c
def totalKey (f : FFmt) (c : Nat) : ℤ := if codeNeg f c then -(codeMag f c : ℤ) - 1 else codeMag f c

/-- minimumNumber and maximumNumber (R356). -/
def ExtremeOf (f : FFmt) (isMax : Bool) (x y : Nat) (r : Nat × Flags) : Prop :=
  r.2 = (if codeSig f x || codeSig f y then 16 else 0) ∧
    r.1 =
      if codeNan f x then (if codeNan f y then quietNan f else y)
      else if codeNan f y then x
      else if isMax then (if totalKey f x < totalKey f y then y else x)
      else (if totalKey f y < totalKey f x then y else x)

/-- The conditions of Table 20-8, with their flag. -/
def ConditionOf (f : FFmt) (c : FCond) (x y : Nat) (r : Bool × Flags) : Prop :=
  let nan := codeNan f x || codeNan f y
  let sig := codeSig f x || codeSig f y
  let kx := orderKey f x
  let ky := orderKey f y
  r = match c with
    | .eq => (!nan && kx == ky, if sig then 16 else 0)
    | .ne => (nan || kx != ky, if sig then 16 else 0)
    | .lt => (!nan && decide (kx < ky), if nan then 16 else 0)
    | .le => (!nan && decide (kx ≤ ky), if nan then 16 else 0)
    | .gt => (!nan && decide (ky < kx), if nan then 16 else 0)
    | .ge => (!nan && decide (ky ≤ kx), if nan then 16 else 0)
    | .num => (!nan, if sig then 16 else 0)
    | .nan => (nan, if sig then 16 else 0)

/-- The element operations are those of the standard: the exact result rounded once, the special values and zero signs of
R353, R354 and R356, and the flags. -/
def FloatsAreExact : Prop :=
  ∀ f ∈ [fmtF32, fmtF16, fmtBf16], ∀ x < 2 ^ (f.e + f.f + 1), ∀ y < 2 ^ (f.e + f.f + 1), ∀ md,
    let sig := codeSig f x || codeSig f y
    SumOf f md sig (numOf f x) (numOf f y) (fAdd f md x y) ∧
    SumOf f md sig (numOf f x) (match numOf f y with | .nan => .nan | .inf n => .inf !n | .fin n v => .fin (!n) (-v))
      (fSub f md x y) ∧
    (match productOf (numOf f x) (numOf f y) with
      | some p => ValueOf f md sig p (fMul f md x y)
      | none => fMul f md x y = (quietNan f, 16)) ∧
    (∀ z < 2 ^ (f.e + f.f + 1),
      match productOf (numOf f x) (numOf f y) with
      | some p => SumOf f md (sig || codeSig f z) p (numOf f z) (fFma f md x y z)
      | none => fFma f md x y z = (quietNan f, 16)) ∧
    (∀ isMax, ExtremeOf f isMax x y (fMinMax f isMax x y)) ∧
    ∀ c, ConditionOf f c x y (fCmp f c x y)

end Sys2Proof.Statements

/-- R90 to R92, R353, R354, R356: FADD, FSUB, FMUL, FFMA, FMIN and FMAX complete: every element of every lane is the result
of the element's operation, FPFLAGS takes the flags of all of them, and nothing else changes. FCMP completes: it sets the
predicate bit of each lane it acts on where the condition holds for every element. The operations are those of the
standard: the exact value rounded once in the word's mode, with its special values, its zero signs and its flags. -/
def Obligations.FloatingPointWordsDeliver : Prop :=
  FloatsAreExact ∧
  (∀ (s : State) (d : VReg) (a b : Reg),
    let on := fun (ty : FTy) (f : FFmt → Nat → Nat → Nat → Nat × Flags) l =>
      eachElement ty f (s.tm.src a l) (s.tm.src b l) (s.tm.lane d.val l)
    (∀ ty, CompletesFloat s (.fadd d a b ty) d (on (elementType ty) fun f x y _ => fAdd f (rounding ty) x y)) ∧
    (∀ ty, CompletesFloat s (.fsub d a b ty) d (on (elementType ty) fun f x y _ => fSub f (rounding ty) x y)) ∧
    (∀ ty, CompletesFloat s (.fmul d a b ty) d (on (elementType ty) fun f x y _ => fMul f (rounding ty) x y)) ∧
    (∀ ty, CompletesFloat s (.ffma d a b ty) d (on (elementType ty) fun f x y z => fFma f (rounding ty) x y z)) ∧
    (∀ ty, CompletesFloat s (.fmin d a b ty) d (on ty fun f x y _ => fMinMax f false x y)) ∧
    (∀ ty, CompletesFloat s (.fmax d a b ty) d (on ty fun f x y _ => fMinMax f true x y))) ∧
  (∀ (s : State) (c : FCond) (p : PReg) (a b : Reg) (ty : FTy),
    let r := fun l => match ty with
      | .f32 => fCmp fmtF32 c (s.tm.src a l).toNat (s.tm.src b l).toNat
      | .bf16x2 =>
        let lo := fCmp fmtBf16 c (lo16 (s.tm.src a l)) (lo16 (s.tm.src b l))
        let hi := fCmp fmtBf16 c (hi16 (s.tm.src a l)) (hi16 (s.tm.src b l))
        (lo.1 && hi.1, lo.2 ||| hi.2)
      | .f16x2 =>
        let lo := fCmp fmtF16 c (lo16 (s.tm.src a l)) (lo16 (s.tm.src b l))
        let hi := fCmp fmtF16 c (hi16 (s.tm.src a l)) (hi16 (s.tm.src b l))
        (lo.1 && hi.1, lo.2 ||| hi.2)
    Issues (.fcmp c p a b ty) s → ∃ t, exec (.fcmp c p a b ty) s = .next t ∧ OnlyPredicates s t ∧
      InPredicate s t p (fun l => (r l).1) ∧ FlagsOf s t fun l => (r l).2)

/-- R52, R93, R357: a transcendental word completes: it issues, and the result of each lane it acts on waits, with a
span of the word's L words, to commit to d. -/
def Obligations.TranscendentalWordsWaitForTheirSpan : Prop :=
  ∀ (s : State) (d : VReg) (a : Reg) (look : Fin 16) (ty : FTy), s.tm.only = none → s.tm.held = none →
    let Waits := fun (i : Instr) (g : Trans) =>
      Issues i s → ∃ t, exec i s = .next t ∧ t.tm.v = s.tm.v ∧ t.tm.fpflags = s.tm.fpflags ∧
        ∀ l, l ∈ s.tm.wordLanes → ∃ p, p ∈ t.tm.pending ∧ p.pass = l / 32 ∧ p.span = look.val ∧
          (vkey (s.tm.frame + d.val) l, (transLane g ty (s.tm.src a l)).1) ∈ p.vals
    Waits (.frcp d a look ty) .rcp ∧ Waits (.frsq d a look ty) .rsq ∧ Waits (.fex2 d a look ty) .ex2 ∧
    Waits (.flg2 d a look ty) .lg2 ∧ Waits (.ftanh d a look ty) .tanh

namespace Sys2Proof.Statements

/-- The 32 datapath lanes of the pass of lane l, inactive ones as 0 (R385, R387). -/
def passOf (s : State) (a : Reg) (l : Nat) : List Word :=
  (List.range 32).map fun i =>
    if s.tm.active.getLsbD (l / 32 * 32 + i) then s.tm.src a (l / 32 * 32 + i) else 0

/-! ### Conversions by their exact values (R96 to R99, R351) -/

/-- k is v rounded to an integer in a mode. -/
def NearestInt (md : Rnd) (v : ℚ) (k : ℤ) : Prop :=
  match md with
  | .rn => ∀ j : ℤ, j ≠ k → |(k : ℚ) - v| < |(j : ℚ) - v| ∨ (|(k : ℚ) - v| = |(j : ℚ) - v| ∧ k % 2 = 0)
  | .rd => (k : ℚ) ≤ v ∧ v < k + 1
  | .ru => v ≤ k ∧ (k : ℚ) - 1 < v
  | .rz => if 0 ≤ v then (k : ℚ) ≤ v ∧ v < k + 1 else v ≤ k ∧ (k : ℚ) - 1 < v

/-- Conversion to an integer from lo to hi, as a code of w bits: a value outside gives the nearest end, a NaN 0, with nv
alone; else nx where the result differs. -/
def IntOf (md : Rnd) (w : Nat) (lo hi : ℤ) (x : Num) (r : Nat × Flags) : Prop :=
  match x with
  | .nan => r = (0, 16)
  | .inf n => r = ((BitVec.ofInt w (if n then lo else hi)).toNat, 16)
  | .fin _ v => ∃ k, NearestInt md v k ∧
      r = if k < lo then ((BitVec.ofInt w lo).toNat, 16) else if hi < k then ((BitVec.ofInt w hi).toNat, 16)
        else ((BitVec.ofInt w k).toNat, if (k : ℚ) = v then 0 else 1)

/-- Conversion to a narrow format (Table 6-5, R351): what lies beyond the largest finite number saturates, or gives
infinity, or E4M3's NaN of either sign; there is no uf. -/
def NarrowOf (f : FFmt) (satur sig : Bool) (x : Num) (r : Nat × Flags) : Prop :=
  let Beyond := fun n : Bool =>
    if satur then r = (withSign f n f.maxFin, 5)
    else if f.hasInf then r = (withSign f n (infinity f), 5) else codeNan f r.1 = true ∧ r.2 = 5
  match x with
  | .nan => if f.hasNan then codeNan f r.1 = true ∧ r.2 = (if sig then 16 else 0) else r = (0, 16)
  | .inf n => if f.hasInf && !satur then r = (withSign f n (infinity f), 0) else Beyond n
  | .fin n v => ∃ k, Nearest f .rn n |v| k ∧
      if f.maxFin < k then Beyond n
      else r = (withSign f n k, if magnitude f k = |v| then 0 else 1)

/-- An integral number in binary32, in a mode (code 26). -/
def IntegralOf (md : Rnd) (sig : Bool) (x : Num) (r : Nat × Flags) : Prop :=
  match x with
  | .nan => NanResult fmtF32 sig r
  | .inf n => r = (withSign fmtF32 n (infinity fmtF32), 0)
  | .fin n v => r.2 = 0 ∧ ∃ k : ℤ, NearestInt md v k ∧ numOf fmtF32 r.1 = .fin n k

/-- An integer as a number. -/
def intNum (k : ℤ) : Num := .fin (decide (k < 0)) k

/-- Table 20-5, from the 64-bit view of the source. -/
def ConversionOf (code : Fin 27) (md : Rnd) (x : DWord) (r : Nat × Flags) : Prop :=
  let w : Word := x.setWidth 32
  let From := fun (f : FFmt) (c : Nat) (P : Bool → Num → Nat × Flags → Prop) => P (codeSig f c) (numOf f c) r
  let Each := fun (f g : FFmt) =>
    ∃ lo hi, ValueOf g .rn (codeSig f (lo16 w)) (numOf f (lo16 w)) lo ∧
      ValueOf g .rn (codeSig f (hi16 w)) (numOf f (hi16 w)) hi ∧ r = (hi.1 * 2 ^ 16 + lo.1, lo.2 ||| hi.2)
  match code.val with
  | 0 => From fmtF32 w.toNat fun _ => IntOf md 32 (-2 ^ 31) (2 ^ 31 - 1)
  | 1 => From fmtF32 w.toNat fun _ => IntOf md 32 0 (2 ^ 32 - 1)
  | 2 => ValueOf fmtF32 md false (intNum w.toInt) r
  | 3 => ValueOf fmtF32 md false (intNum w.toNat) r
  | 4 => From fmtF32 w.toNat fun _ => IntOf md 64 (-2 ^ 63) (2 ^ 63 - 1)
  | 5 => From fmtF32 w.toNat fun _ => IntOf md 64 0 (2 ^ 64 - 1)
  | 6 => ValueOf fmtF32 md false (intNum x.toInt) r
  | 7 => ValueOf fmtF32 md false (intNum x.toNat) r
  | 8 => From fmtF32 w.toNat (ValueOf fmtF16 md)
  | 9 => From fmtF32 w.toNat (ValueOf fmtBf16 md)
  | 10 => From fmtF16 (lo16 w) (ValueOf fmtF32 .rn)
  | 11 => From fmtF16 (hi16 w) (ValueOf fmtF32 .rn)
  | 12 => From fmtBf16 (lo16 w) (ValueOf fmtF32 .rn)
  | 13 => From fmtBf16 (hi16 w) (ValueOf fmtF32 .rn)
  | 14 => Each fmtF16 fmtBf16
  | 15 => Each fmtBf16 fmtF16
  | 16 => From fmtF32 w.toNat (NarrowOf fmtE4M3 true)
  | 17 => From fmtF32 w.toNat (NarrowOf fmtE4M3 false)
  | 18 => From fmtF32 w.toNat (NarrowOf fmtE5M2 true)
  | 19 => From fmtF32 w.toNat (NarrowOf fmtE5M2 false)
  | 20 => From fmtF32 w.toNat (NarrowOf fmtE2M1 true)
  | 21 => From fmtF32 w.toNat fun _ => IntOf .rn 8 (-128) 127
  | 22 => From fmtE4M3 (w.toNat % 2 ^ 8) (ValueOf fmtF32 .rn)
  | 23 => From fmtE5M2 (w.toNat % 2 ^ 8) (ValueOf fmtF32 .rn)
  | 24 => From fmtE2M1 (w.toNat % 2 ^ 4) (ValueOf fmtF32 .rn)
  | 25 => ValueOf fmtF32 .rn false (intNum (BitVec.ofNat 8 w.toNat).toInt) r
  | _ => From fmtF32 w.toNat (IntegralOf md)

/-- The format of an MX element that is not an integer, and emax (R99). -/
def elementFormat : MxFmt → FFmt
  | .e5m2 => fmtE5M2
  | .fp4 => fmtE2M1
  | _ => fmtE4M3
def emax : MxFmt → ℤ
  | .e4m3 => 8
  | .e5m2 => 15
  | .fp4 => 2
  | .int8 => 0

/-- An element of a block of scale x, from its exact value: its code, with nx where it is inexact. -/
def ElementOf (fmt : MxFmt) (x : Nat) (v : Num) (r : Nat × Flags) : Prop :=
  match fmt, v with
  | .int8, .fin _ v =>
    ∃ k, NearestInt .rn (v / 2 ^ ((x : ℤ) - 127 - 6)) k ∧
      let k' : ℤ := max (-128) (min 127 k)
      r.1 = (BitVec.ofInt 8 k').toNat ∧ (r.2 = if (k' : ℚ) = v / 2 ^ ((x : ℤ) - 127 - 6) then 0 else 1)
  | fmt, .fin n v =>
    let f := elementFormat fmt
    ∃ k, Nearest f .rn n (|v| / 2 ^ ((x : ℤ) - 127)) k ∧ r.1 = withSign f n (min k f.maxFin) ∧
      (r.2 = if magnitude f (min k f.maxFin) = |v| / 2 ^ ((x : ℤ) - 127) then 0 else 1)
  | _, .inf n => r = (withSign fmtE5M2 n (infinity fmtE5M2), 0)
  | _, .nan => False

/-- R99: the block of some values: its scale, and in each lane the element with its flag. -/
def BlockOf (fmt : MxFmt) (vs : List Num) (x : Nat) (es : Nat → Nat × Flags) : Prop :=
  let spoilt := (∃ v ∈ vs, v = .nan) ∨ (fmt ≠ .e5m2 ∧ ∃ n, .inf n ∈ vs)
  (spoilt → x = 255 ∧ ∀ i < vs.length, es i = (0, 0)) ∧
    (¬spoilt →
      (((∀ n v, .fin n v ∈ vs → v = 0) ∧ x = 0) ∨
        ∃ n v, .fin n v ∈ vs ∧ v ≠ 0 ∧ (∀ m w, .fin m w ∈ vs → |w| ≤ |v|) ∧
          ∃ l : ℤ, (2 : ℚ) ^ l ≤ |v| ∧ |v| < 2 ^ (l + 1) ∧ (x : ℤ) = max 0 (min 254 (l - emax fmt + 127))) ∧
      ∀ i v, vs[i]? = some v → ElementOf fmt x v (es i))

/-- R385: PACKMX's result in each lane of a pass, from the 32 source words: scale and code; nx for the lane's own element,
nv for a signalling NaN or an infinity that spoils the block. -/
def PacksTo (fmt : MxFmt) (xs : List Word) (r : (Nat → Option Word) × (Nat → Flags)) : Prop :=
  let vs := xs.map fun w => numOf fmtF32 w.toNat
  ∃ x es, BlockOf fmt vs x es ∧ ∀ i < xs.length, r.1 i = some (BitVec.ofNat 32 (x * 2 ^ 8 + (es i).1)) ∧
    ∀ b, (r.2 i).getLsbD b = true ↔ ((es i).2.getLsbD b = true ∨
      (b = 4 ∧ ((∃ w ∈ xs, codeSig fmtF32 w.toNat = true) ∨ (fmt ≠ .e5m2 ∧ ∃ n, .inf n ∈ vs))))

/-- R415: UNPKMX's result in a lane. -/
def UnpacksTo (fmt : MxFmt) (w : Word) (r : Word × Flags) : Prop :=
  let x : Nat := w.toNat / 2 ^ 8 % 2 ^ 8
  let width : Nat := if fmt = .fp4 then 2 ^ 4 else 2 ^ 8
  let c : Nat := w.toNat % width
  let v := if fmt = .int8 then
      let k : ℤ := (BitVec.ofNat 8 c).toInt
      Num.fin (decide (k < 0)) ((k : ℚ) / 2 ^ 6)
    else numOf (elementFormat fmt) c
  if x = 255 then r = (0x7FC00000, 0)
  else
    match v with
    | .nan => r = (0x7FC00000, 0)
    | .inf n => ValueOf fmtF32 .rn false (.inf n) (r.1.toNat, r.2)
    | .fin n v => ValueOf fmtF32 .rn false (.fin n (v * 2 ^ ((x : ℤ) - 127))) (r.1.toNat, r.2)

end Sys2Proof.Statements

/-- R350, R351, R385, R387, R415: CVT, PACKMX, UNPKMX and PLANE complete. Each conversion of CVT, the blocks that PACKMX
forms (R99) and the numbers that UNPKMX gives are the exact values rounded once, with the special values and flags of
their tables. PLANE pack gives lanes 0 to 7 of a pass the planes 7 to 0 of its 32 lanes; PLANE unpack rebuilds each lane's
value from the first j lanes, as a signed number. A narrow format sets no uf, since R351 names no other exception. -/
def Obligations.ConversionWordsDeliver : Prop :=
  (∀ code m x, ConversionOf code m x (cvt code.val m x)) ∧
  (∀ fmt xs, xs.length = 32 → PacksTo fmt xs (packBlock fmt xs)) ∧
  (∀ fmt w, UnpacksTo fmt w (unpackLane fmt w)) ∧
  (∀ s d a code m, Issues (.cvt d a code m) s → ∃ t, exec (.cvt d a code m) s = .next t ∧
    let r := fun l => cvt code.val m
      (if code.val = 6 ∨ code.val = 7 then s.tm.src64 a l else (s.tm.src a l).setWidth 64)
    FlagsOf s t (fun l => (r l).2) ∧
    if code.val = 4 ∨ code.val = 5 then
      OnlyVector s t d.val 2 ∧ InPairs s t d.val fun l => BitVec.ofNat 64 (r l).1
    else OnlyVector s t d.val 1 ∧ InLanes s t d.val fun l => BitVec.ofNat 32 (r l).1) ∧
  (∀ s d a fmt, Issues (.packmx d a fmt) s → ∃ t, exec (.packmx d a fmt) s = .next t ∧ OnlyVector s t d.val 1 ∧
    (InLanes s t d.val fun l => ((packBlock fmt (passOf s a l)).1 (l % 32)).getD 0) ∧
    FlagsOf s t fun l => (packBlock fmt (passOf s a l)).2 (l % 32)) ∧
  (∀ s d a fmt, Issues (.unpkmx d a fmt) s → ∃ t, exec (.unpkmx d a fmt) s = .next t ∧ OnlyVector s t d.val 1 ∧
    InLanes s t d.val (fun l => (unpackLane fmt (s.tm.src a l)).1) ∧
    FlagsOf s t fun l => (unpackLane fmt (s.tm.src a l)).2) ∧
  (∀ s d a, Issues (.planePack d a) s → ∃ t, exec (.planePack d a) s = .next t ∧ OnlyDest s t (.v d) 1 ∧
    ∀ l, l ∈ s.tm.wordLanes →
      if l % 32 < 8 then
        ∀ i, i < 32 → (t.tm.lane d.val l).getLsbD i = (((passOf s a l)[i]?).getD 0).getLsbD (7 - l % 32)
      else t.tm.lane d.val l = s.tm.lane d.val l) ∧
  (∀ s d a j, 2 ≤ j.val → j.val ≤ 8 → Issues (.planeUnpack d a j) s →
    ∃ t, exec (.planeUnpack d a j) s = .next t ∧ OnlyDest s t (.v d) 1 ∧
      ∀ l, l ∈ s.tm.wordLanes → ∀ i, i < 32 →
        (t.tm.lane d.val l).getLsbD i = (((passOf s a l)[j.val - 1 - min i (j.val - 1)]?).getD 0).getLsbD (l % 32))

namespace Sys2Proof.Statements

/-! ### Cross-lane words -/

/-- The active lanes of the team, ascending. -/
def activeLanes (s : State) : List Nat := (List.range 1024).filter fun l => s.tm.active.getLsbD l

/-- A lane's key: 32 bits, or a pair. -/
def keyOf (s : State) (pair : Bool) (a : Reg) (l : Nat) : DWord :=
  if pair then s.tm.src64 a l else (s.tm.src a l).setWidth 64

/-- SHFL's source lane, where there is one (R402). -/
def shuffleFrom (mode : ShflMode) (l : Nat) (c : Word) : Option Nat :=
  match mode with
  | .idx => some (c.setWidth 10).toNat
  | .up => if c.toNat ≤ l then some (l - c.toNat) else none
  | .down => some (l + c.toNat)
  | .xor => some (l ^^^ (c.setWidth 10).toNat)

/-- The lane that SHFL reads: the source if it is active, else the lane itself. -/
def shuffled (s : State) (mode : ShflMode) (l : Nat) (c : Word) : Nat :=
  match shuffleFrom mode l c with
  | some m => if m ∈ activeLanes s then m else l
  | none => l

/-- The outcome of VOTE over all active lanes (R416). -/
def vote (mode : VoteMode) (vals : List DWord) : Prop :=
  match mode with
  | .any => ∃ v ∈ vals, v ≠ 0
  | .all => ∀ v ∈ vals, v ≠ 0
  | .none => ∀ v ∈ vals, v = 0
  | .uni => ∀ v ∈ vals, ∀ w ∈ vals, v = w

end Sys2Proof.Statements

/-- R386, R388, R389, R402, R416, R376: the cross-lane words other than reductions complete; every source is read before
any result is written, over every active lane of the team. -/
def Obligations.CrossLaneWordsDeliver : Prop :=
  (∀ s mode pair d a b, Issues (.shfl mode pair d a b) s → ∃ t, exec (.shfl mode pair d a b) s = .next t ∧
    if pair then OnlyDest s t (.v d) 2 ∧ InPairs s t d.val fun l => s.tm.src64 a (shuffled s mode l (s.tm.src b l))
    else OnlyDest s t (.v d) 1 ∧ InLanes s t d.val fun l => s.tm.src a (shuffled s mode l (s.tm.src b l))) ∧
  (∀ s mode pair p a, Issues (.vote mode pair p a) s → ∃ t, exec (.vote mode pair p a) s = .next t ∧
    OnlyPredicates s t ∧ t.tm.fpflags = s.tm.fpflags ∧
    ∃ b : Bool, (b = true ↔ vote mode ((activeLanes s).map (keyOf s pair a))) ∧ InPredicate s t p fun _ => b) ∧
  (∀ s d p a ty, Issues (.matchLanes d p a ty) s → ∃ t, exec (.matchLanes d p a ty) s = .next t ∧ OnlyTeam s t ∧
    t.tm.s = s.tm.s ∧ t.tm.fpflags = s.tm.fpflags ∧ OtherVectors d.val 1 s.tm t.tm ∧
    (InLanes s t d.val fun l =>
      BitVec.ofNat 32 ((activeLanes s).countP fun m => keyOf s ty.is64 a m = keyOf s ty.is64 a l)) ∧
    InPredicate s t p fun l =>
      decide (l ∈ activeLanes s ∧ ∀ m, m < l → m ∈ activeLanes s → keyOf s ty.is64 a m ≠ keyOf s ty.is64 a l)) ∧
  (∀ s op pd pa pb, Issues (.plog op pd pa pb) s → ∃ t, exec (.plog op pd pa pb) s = .next t ∧ OnlyPredicates s t ∧
    t.tm.fpflags = s.tm.fpflags ∧
    InPredicate s t pd fun l =>
      let x := (s.tm.pread pa.val).getLsbD l
      let y := (s.tm.pread pb.val).getLsbD l
      match op with
      | .and => x && y
      | .or => x || y
      | .xor => Bool.xor x y
      | .andn => x && !y
      | .not => !x) ∧
  (∀ s d p, Issues (.pcnt d p) s → ∃ t, exec (.pcnt d p) s = .next t ∧ OnlyDest s t d 1 ∧
    let n := (activeLanes s).countP fun l => (s.tm.pread p.val).getLsbD l
    match d with
    | .v r => InLanes s t r.val fun _ => BitVec.ofNat 32 n
    | .s r => sget 0 t.tm.s r.val = BitVec.ofNat 64 n) ∧
  (∀ s d p, Issues (.pmovToVector d p) s → ∃ t, exec (.pmovToVector d p) s = .next t ∧ OnlyDest s t (.v d) 1 ∧
    InLanes s t d.val fun l => if (s.tm.pread p.val).getLsbD l then 1 else 0) ∧
  (∀ s p a, Issues (.pmovToPredicate p a) s → ∃ t, exec (.pmovToPredicate p a) s = .next t ∧ OnlyPredicates s t ∧
    t.tm.fpflags = s.tm.fpflags ∧ InPredicate s t p fun l => decide (s.tm.src a l ≠ 0)) ∧
  (∀ s d p w, Issues (.pmovWord d p w) s → ∃ t, exec (.pmovWord d p w) s = .next t ∧ OnlyDest s t (.s d) 1 ∧
    sget 0 t.tm.s d.val = ((s.tm.pread p.val).extractLsb' (32 * w.val) 32).setWidth 64)

namespace Sys2Proof.Statements

/-- Node i at level h of the tree of R94 over the given leaves. -/
def node (r : Reducer) (leaf : Nat → Nat) : Nat → Nat → Nat
  | 0, i => leaf i
  | h + 1, i => (r.comb (node r leaf h (2 * i)) (node r leaf h (2 * i + 1))).1

/-- The flags that the additions of those nodes raise, at every level (R92, R413). -/
def nodeFlags (r : Reducer) (leaf : Nat → Nat) (b : Nat) : Prop :=
  ∃ h i, h < 10 ∧ i < 2 ^ (9 - h) ∧ (r.comb (node r leaf h (2 * i)) (node r leaf h (2 * i + 1))).2.getLsbD b = true

/-- The largest nodes that exactly cover lanes start to n - 1, in ascending lane order, below level h (R95). -/
def cover (n : Nat) : Nat → Nat → List (Nat × Nat)
  | 0, _ => []
  | h + 1, start =>
    if n.testBit h then (h, start / 2 ^ h) :: cover n h (start + 2 ^ h) else cover n h start

/-- The values of those nodes combined from left to right; the identity for no lane. -/
def prefixValue (r : Reducer) (leaf : Nat → Nat) (n : Nat) : Nat :=
  match (cover n 11 0).map fun e => node r leaf e.1 e.2 with
  | [] => r.ident
  | x :: l => l.foldl (fun acc y => (r.comb acc y).1) x

/-- A further addition that combines them raises the flag (R95). -/
def prefixFlags (r : Reducer) (leaf : Nat → Nat) (n b : Nat) : Prop :=
  ∃ pre y post, (cover n 11 0).map (fun e => node r leaf e.1 e.2) = pre ++ y :: post ∧ pre ≠ [] ∧
    (r.comb ((pre.tail).foldl (fun acc y => (r.comb acc y).1) (pre.headD 0)) y).2.getLsbD b = true

/-- The leaves of an element position: the value of an active lane, else the identity (R94). -/
def leafOf (s : State) (pair : Bool) (a : Reg) (lo w ident : Nat) (l : Nat) : Nat :=
  if s.tm.active.getLsbD l then (keyOf s pair a l).toNat / 2 ^ lo % 2 ^ w else ident

/-- A reduction over one element position. -/
def reduced (s : State) (pair : Bool) (a : Reg) (lo w : Nat) (r : Reducer) (n : Nat) : Nat :=
  prefixValue r (leafOf s pair a lo w r.ident) n

/-- The result of a reduction of the lanes 0 to n l - 1 in each lane l, type by type. -/
def Reduces (s t : State) (op : RedOp) (ty : RTy) (d : VReg) (a : Reg) (n : Nat → Nat) : Prop :=
  match ty with
  | .int ity =>
    if ity.is64 then
      InPairs s t d.val fun l => BitVec.ofNat 64 (reduced s true a 0 64 (intReducer op 64 ity.signed) (n l))
    else InLanes s t d.val fun l => BitVec.ofNat 32 (reduced s false a 0 32 (intReducer op 32 ity.signed) (n l))
  | .flt .f32 => InLanes s t d.val fun l => BitVec.ofNat 32 (reduced s false a 0 32 (fltReducer op fmtF32) (n l))
  | .flt .bf16x2 => InLanes s t d.val fun l =>
      BitVec.ofNat 32 (reduced s false a 0 16 (fltReducer op fmtBf16) (n l) +
        reduced s false a 16 16 (fltReducer op fmtBf16) (n l) * 2 ^ 16)
  | .flt .f16x2 => InLanes s t d.val fun l =>
      BitVec.ofNat 32 (reduced s false a 0 16 (fltReducer op fmtF16) (n l) +
        reduced s false a 16 16 (fltReducer op fmtF16) (n l) * 2 ^ 16)

/-- The element positions of a floating-point type: lowest bit and format. -/
def positions : FTy → List (Nat × Nat × FFmt)
  | .f32 => [(0, 32, fmtF32)]
  | .bf16x2 => [(0, 16, fmtBf16), (16, 16, fmtBf16)]
  | .f16x2 => [(0, 16, fmtF16), (16, 16, fmtF16)]

/-- FPFLAGS after a reduction (R92, R413): a float type adds the flags of every node of its trees, and of the further
additions of each lane the word acts on; an integer type none. -/
def ReduceFlags (s t : State) (op : RedOp) (ty : RTy) (a : Reg) (n : Nat → Nat) : Prop :=
  match ty with
  | .int _ => t.tm.fpflags = s.tm.fpflags
  | .flt fty => ∀ b, b < 32 → (t.tm.fpflags.getLsbD b = true ↔ (s.tm.fpflags.getLsbD b = true ∨
      ∃ p ∈ positions fty,
        let r := fltReducer op p.2.2
        let leaf := leafOf s false a p.1 p.2.1 r.ident
        nodeFlags r leaf b ∨ ∃ l ∈ s.tm.wordLanes, prefixFlags r leaf (n l) b))

/-- The destination of a reduction in registers. -/
def reduceWidth : RTy → Nat
  | .int ty => width ty
  | .flt _ => 1

end Sys2Proof.Statements

/-- R94, R95, R413: TRED and TSCAN complete: each lane they act on receives the root of the fixed tree over the 1,024
lanes, or the combination of the tree's nodes that exactly cover the lanes up to it (inclusive) or below it (exclusive).
FPFLAGS takes the flags of every node and of every further addition of a float type. For an integer sum that is the sum of
the values of all active lanes, modulo 2^32 or 2^64, or of those up to the lane's own or below it. That a scan over one lane
gives its leaf as it is, is log entry 114 (DESIGN CHOICE). -/
def Obligations.ReductionsFollowTheFixedTree : Prop :=
  ((∀ s op ty d a, Issues (.tred op ty d a) s → ∃ t, exec (.tred op ty d a) s = .next t ∧
    OnlyVector s t d.val (reduceWidth ty) ∧ (Reduces s t op ty d a fun _ => 1024) ∧
    ReduceFlags s t op ty a fun _ => 1024) ∧
  (∀ s op excl ty d a, Issues (.tscan op excl ty d a) s → ∃ t, exec (.tscan op excl ty d a) s = .next t ∧
    OnlyVector s t d.val (reduceWidth ty) ∧ (Reduces s t op ty d a fun l => if excl then l else l + 1) ∧
    ReduceFlags s t op ty a fun l => if excl then l else l + 1)) ∧
  (∀ (s : State) (ty : IntTy) (d : VReg) (a : Reg),
    let sum32 := fun P : Nat → Bool => ((activeLanes s).filter P).foldl (fun x l => x + s.tm.src a l) (0 : Word)
    let sum64 := fun P : Nat → Bool => ((activeLanes s).filter P).foldl (fun x l => x + s.tm.src64 a l) (0 : DWord)
    let Sums := fun (t : State) (P : Nat → Nat → Bool) =>
      if ty.is64 then InPairs s t d.val fun l => sum64 (P l) else InLanes s t d.val fun l => sum32 (P l)
    (∀ t, Issues (.tred .add (.int ty) d a) s → exec (.tred .add (.int ty) d a) s = .next t → Sums t fun _ _ => true) ∧
    (∀ t, Issues (.tscan .add false (.int ty) d a) s → exec (.tscan .add false (.int ty) d a) s = .next t →
      Sums t fun l m => decide (m ≤ l)) ∧
    (∀ t, Issues (.tscan .add true (.int ty) d a) s → exec (.tscan .add true (.int ty) d a) s = .next t →
      Sums t fun l m => decide (m < l)))

namespace Sys2Proof.Statements

/-! ### Control words -/

/-- The word changes no register, predicate or flag, nothing else of the team but its place, nothing outside the team. -/
def OnlyPlace (s t : State) : Prop :=
  OnlyTeam s t ∧ t.tm.v = s.tm.v ∧ t.tm.s = s.tm.s ∧ t.tm.p = s.tm.p ∧ t.tm.fpflags = s.tm.fpflags

/-- The same with the call stack, the frame and the scratch that the stack spills into left free (R70). -/
def OnlyCalls (s t : State) : Prop :=
  let f := fun x : Team => { Team.rest x with frame := 0, callHw := [], callDepth := 0, scratch := [] }
  SameMachine s t ∧ SameOthers s t ∧ f t.tm = f s.tm ∧ t.tm.v = s.tm.v ∧ t.tm.s = s.tm.s ∧ t.tm.p = s.tm.p ∧
    t.tm.fpflags = s.tm.fpflags

/-- The same with the masks left free. -/
def OnlyMasks (s t : State) : Prop :=
  let f := fun x : Team => { Team.rest x with full := 0, active := 0, maskStack := [] }
  SameMachine s t ∧ SameOthers s t ∧ f t.tm = f s.tm ∧ t.tm.v = s.tm.v ∧ t.tm.s = s.tm.s ∧ t.tm.p = s.tm.p ∧
    t.tm.fpflags = s.tm.fpflags

/-- R51: the target of a branch word at pc: pc + 4 times the signed offset. -/
def target (pc : DWord) (bits off : Nat) : DWord := pc + BitVec.ofInt 64 (4 * (BitVec.ofNat bits off).toInt)

/-- BRX's condition (R65). -/
def Taken (s : State) (p : PReg) : BrCond → Prop
  | .any => ∃ l ∈ activeLanes s, (s.tm.pread p.val).getLsbD l = true
  | .all => ∀ l ∈ activeLanes s, (s.tm.pread p.val).getLsbD l = true
  | .none => ∀ l ∈ activeLanes s, (s.tm.pread p.val).getLsbD l = false

/-- The frame argument of CALL and APPLY (R67): bits 6:0 of s23, a multiple of 6 to 96, within the registers. -/
def frameShift (s : State) : Nat := (s.tm.sread 23).toNat % 128
def FrameFits (s : State) : Prop :=
  frameShift s % 6 = 0 ∧ frameShift s ≤ 96 ∧ s.tm.frame + frameShift s + 6 ≤ s.tm.nreg

/-- A frame can be pushed (R70): at most 4,095, and the spill slot of the oldest of 16 lies in the scratch. -/
def CanPush (s : State) : Prop :=
  s.tm.callDepth < 4095 ∧ (s.tm.callHw.length < 16 ∨ 16 * (s.tm.callDepth - 15) ≤ s.tm.scratchSize)

/-- The state with entry e pushed: the hardware entries, and the oldest of 16 in its slot (R70). -/
def Pushed (s t : State) (e : CallEntry) : Prop :=
  t.tm.callDepth = s.tm.callDepth + 1 ∧
  if s.tm.callHw.length < 16 then t.tm.callHw = e :: s.tm.callHw ∧ t.tm.scratch = s.tm.scratch
  else
    t.tm.callHw = e :: s.tm.callHw.dropLast ∧
    ∀ o, s.tm.callHw.getLast? = some o →
      t.tm.scratch = (s.tm.scratchPut (s.tm.scratchSize - 16 * (s.tm.callDepth - 15)) (toBytes 16 o.image)).scratch

/-- R69: a return that is no illegal instruction. -/
def ReturnAllowed (s : State) (e : CallEntry) : Prop :=
  0 < s.tm.callDepth ∧ s.tm.callHw.head? = some e ∧ ¬(s.tm.inHandler = true ∧ s.tm.callDepth = s.tm.trapDepth) ∧
    s.tm.maskStack.length = e.maskDepth ∧ e.frame % 6 = 0 ∧ e.frame + 6 ≤ s.tm.nreg ∧ (e.count = 0 ∨ e.cls < 6)

end Sys2Proof.Statements

/-- R383, R342, R344, R346, R394, R65, R67 to R70: NOP, BRA, BRX, CALL and RET complete: where they go, the frame they
shift, the entry they push or pop; they change nothing else. -/
def Obligations.BranchesAndCallsGoWhereTheyName : Prop :=
  (∀ s, Issues .nop s → ∃ t, exec .nop s = .next t ∧ OnlyPlace s t ∧ t.tm.pc = s.tm.finish.pc) ∧
  (∀ s off, Issues (.bra off) s → ∃ t, exec (.bra off) s = .next t ∧ OnlyPlace s t ∧
    t.tm.pc = target s.tm.pc 24 off.val ∧ t.tm.clause = none) ∧
  (∀ s p c off, Issues (.brx p c off) s → ∃ t, exec (.brx p c off) s = .next t ∧ OnlyPlace s t ∧
    (Taken s p c → t.tm.pc = target s.tm.pc 19 off.val ∧ t.tm.clause = none) ∧
    (¬Taken s p c → t.tm.pc = s.tm.finish.pc)) ∧
  (∀ s off, Issues (.call off) s → FrameFits s → CanPush s → ∃ t, exec (.call off) s = .next t ∧ OnlyCalls s t ∧
    t.tm.pc = target s.tm.pc 24 off.val ∧ t.tm.clause = none ∧ t.tm.frame = s.tm.frame + frameShift s ∧
    Pushed s t ⟨s.tm.pc + 4, s.tm.frame, s.tm.maskStack.length, 0, 0⟩) ∧
  (∀ s e, Issues .ret s → ReturnAllowed s e → ¬(s.tm.callDepth = 1 ∧ s.tm.taskFrame = true) →
    (∀ a, s.tm.apply = some a → a.running = true → a.depth ≠ s.tm.callDepth) →
    ∃ t, exec .ret s = .next t ∧ OnlyCalls s t ∧ t.tm.pc = e.ret ∧ t.tm.clause = none ∧ t.tm.frame = e.frame ∧
      t.tm.callDepth = s.tm.callDepth - 1 ∧ t.tm.resume = (if e.count = 0 then none else some (e.count, e.cls)) ∧
      (s.tm.callDepth ≤ s.tm.callHw.length → t.tm.callHw = s.tm.callHw.tail) ∧
      (s.tm.callHw.length = 16 → 16 < s.tm.callDepth →
        t.tm.callHw = s.tm.callHw.tail ++
          [.ofImage (s.tm.scratchGet (s.tm.scratchSize - 16 * (s.tm.callDepth - 16)) 16)]))

/-- R64, R66, R73, R352, R380, R391, R403: the words that manage the active mask complete with the masks the rules give.
A team that EXIT leaves without lanes is in no cohort; it is STALLED until it retires (log entry 85, DEDUCED). -/
def Obligations.MaskWordsSelectLanes : Prop :=
  (∀ s p, Issues (.split p) s → s.tm.maskStack.length < 16 → ∃ t, exec (.split p) s = .next t ∧ OnlyMasks s t ∧
    t.tm.full = s.tm.full ∧ t.tm.active = s.tm.active &&& s.tm.pread p.val ∧
    t.tm.maskStack = ⟨s.tm.active, s.tm.active &&& ~~~(s.tm.pread p.val)⟩ :: s.tm.maskStack) ∧
  (∀ s e r, Issues .flip s → s.tm.maskStack = e :: r → ∃ t, exec .flip s = .next t ∧ OnlyMasks s t ∧
    t.tm.full = s.tm.full ∧ t.tm.active = e.other &&& s.tm.full ∧
    t.tm.maskStack = ⟨e.outer, s.tm.active &&& s.tm.full⟩ :: r) ∧
  (∀ s e r, Issues .merge s → s.tm.maskStack = e :: r → ∃ t, exec .merge s = .next t ∧ OnlyMasks s t ∧
    t.tm.full = s.tm.full ∧ t.tm.active = e.outer &&& s.tm.full ∧ t.tm.maskStack = r) ∧
  (∀ s p e r, Issues (.prune p) s → s.tm.maskStack = e :: r → ∃ t, exec (.prune p) s = .next t ∧ OnlyMasks s t ∧
    t.tm.full = s.tm.full ∧ t.tm.active = s.tm.active &&& ~~~(s.tm.pread p.val) ∧
    t.tm.maskStack = ⟨e.outer, e.other &&& ~~~(s.tm.pread p.val)⟩ :: r) ∧
  (∀ s, Issues .exit s → s.tm.apply = none → ∃ t, exec .exit s = .next t ∧
    t.tm.full = s.tm.full &&& ~~~s.tm.active ∧ t.tm.active = 0 ∧
    t.tm.maskStack = s.tm.maskStack.map (fun e => ⟨e.outer &&& ~~~s.tm.active, e.other &&& ~~~s.tm.active⟩) ∧
    (s.tm.full &&& ~~~s.tm.active ≠ 0 → OnlyMasks s t ∧ t.tm.pc = s.tm.finish.pc) ∧
    (s.tm.full &&& ~~~s.tm.active = 0 → t.tm.cohort = none ∧ t.tm.clause = none ∧ t.tm.state = .stalled ∧ t.tm.s = s.tm.s))

namespace Sys2Proof.Statements

/-! ### Traps -/

/-- The current team can enter its context's trap handler (R281, R282). -/
def CanTrap (s : State) : Prop :=
  s.tm.inHandler = false ∧ s.tm.blocked = false ∧ (getCtx s s.tm.ctx).trapEntry ≠ 0 ∧ CanPush s

/-- R279, R281: the team has taken a trap: TRAPINFO and TRAPPC, the saved active mask and place, one frame, the full mask
active, and the context's trap entry as the program counter; every open span has ended, and nothing outside the team
has changed. -/
def Trapped (s t : State) (code q : Nat) (hi : Word) (addr : DWord) : Prop :=
  SameMachine s t ∧ SameOthers s t ∧ t.tm.inHandler = true ∧
  t.tm.trapInfo = BitVec.ofNat 64 (code + q * 256 + hi.toNat * 2 ^ 32) ∧ t.tm.trapPc = addr ∧
  t.tm.savedActive = s.tm.active ∧ t.tm.full = s.tm.full ∧ t.tm.active = s.tm.full ∧ t.tm.maskStack = s.tm.maskStack ∧
  t.tm.pc = (getCtx s s.tm.ctx).trapEntry ∧ t.tm.clause = none ∧ t.tm.frame = s.tm.frame ∧
  Pushed s t ⟨addr, s.tm.frame, s.tm.maskStack.length, 0, 0⟩ ∧ t.tm.trapDepth = s.tm.callDepth + 1 ∧
  t.tm.trapMaskDepth = s.tm.maskStack.length ∧ t.tm.k = s.tm.k ∧ ∀ p ∈ t.tm.pending, p.more = true

end Sys2Proof.Statements

/-- R412, R341, R307, R281: TRAP takes trap 0x10 at its own address with its word; BKPT takes trap 0x11, or, where the
partition's bkpt_en is set, stops the partition with the team past the word. -/
def Obligations.TrapAndBreakpointWordsTakeTheirTrap : Prop :=
  (∀ s imm, Issues (.trap imm) s → CanTrap s → ∃ t, exec (.trap imm) s = .next t ∧
    Trapped s t 0x10 0 (.ofNat 32 (0x0A000000 + imm.val)) s.tm.pc) ∧
  (∀ s tag, Issues (.bkpt tag) s → ¬ s.tm.partKey ∈ s.dbg.bkptEn → CanTrap s → ∃ t, exec (.bkpt tag) s = .next t ∧
    Trapped s t 0x11 0 (.ofNat 32 (0x0C000000 + tag.val)) s.tm.pc) ∧
  (∀ s tag, Issues (.bkpt tag) s → s.tm.partKey ∈ s.dbg.bkptEn → ∃ t, exec (.bkpt tag) s = .next t ∧
    t.tm.pc = s.tm.finish.pc ∧ t.tm.v = s.tm.v ∧ t.tm.s = s.tm.s ∧ t.tm.p = s.tm.p ∧
    s.tm.partKey ∈ t.dbg.halted ∧ t.mem = s.mem ∧
    ∀ u x, sfind t.teams u = some x → x.partKey = s.tm.partKey →
      x.state = .halted ∨ x.state = .swapped ∨ x.state = .retired)

/-- R283, R395: RETT in the handler, at the frame of the trap, pops the frame and restores the active mask; a replay goes
on at the trapped word (with the clause as it stood), a skip past it, and fail ends the team: every lane exits. A trap
that admits no replay (Table 15-1) fails on replay. A skip of a trap at a header goes past the clause, or past a word that is
no header; at a header that a fatal fault kept from being read it fails (R56). -/
def Obligations.ReturnFromTrapResumes : Prop :=
  ∀ s a e, Issues (.rett a) s → s.tm.inHandler = true → s.tm.callDepth = s.tm.trapDepth →
    s.tm.maskStack.length = s.tm.trapMaskDepth → s.tm.callHw.head? = some e → s.tm.apply = none →
    s.tm.savedActive &&& s.tm.full ≠ 0 →
    (∀ g, s.tm.savedApply = some g → g.running = true → g.group &&& s.tm.full ≠ 0) →
    let code := s.tm.trapInfo.toNat % 256
    let atHeader := s.tm.late = none ∧ s.tm.savedClause = none ∧ s.tm.savedRead = none ∧ s.tm.savedResume = none
    let read := (fetchAt (issued s) (issued s).tm s.tm.trapPc).1
    let fatal := a = .fail ∨ (a = .replay ∧ code ∈ [0x0A, 0x0C, 0x0E, 0x10, 0x11, 0x12, 0x13]) ∨
      (a = .skip ∧ atHeader ∧ (code ∈ [0x12, 0x13] ∨ (code ≠ 1 ∧ read = .fatal)))
    let past (w : Word) : DWord := if w.toNat / 2 ^ 28 = 15 then .ofNat 64 (4 * (field w.toNat 24 4 + 1)) else 4
    ∃ t, exec (.rett a) s = .next t ∧
      ((a = .skip → atHeader → code ∉ [1, 0x12, 0x13] → (∃ w, read = .ok w) ∨ read = .fatal) → t.tm.inHandler = false) ∧
      (fatal → t.tm.full = 0 ∧ t.tm.active = 0) ∧
      (a = .skip → atHeader → code = 1 →
        t.tm.pc = s.tm.trapPc + past (s.tm.trapInfo.extractLsb' 32 32) ∧ t.tm.clause = none) ∧
      (∀ w, a = .skip → atHeader → code ∉ [1, 0x12, 0x13] → read = .ok w →
        t.tm.pc = s.tm.trapPc + past w ∧ t.tm.clause = none) ∧
      (¬fatal → a = .replay →
        SameMachine s t ∧ SameOthers s t ∧ t.tm.v = s.tm.v ∧ t.tm.s = s.tm.s ∧ t.tm.p = s.tm.p ∧
        t.tm.full = s.tm.full ∧ t.tm.active = s.tm.savedActive &&& s.tm.full ∧ t.tm.frame = e.frame ∧
        t.tm.callDepth = s.tm.callDepth - 1 ∧
        (s.tm.savedClause = none → t.tm.pc = s.tm.trapPc ∧ t.tm.clause = none ∧ t.tm.resume = s.tm.savedResume) ∧
        (∀ c, s.tm.savedClause = some c → c.cls = 0 ∨ c.cls = 2 → c.idx ≠ c.limit →
          t.tm.clause = some c ∧ t.tm.only = s.tm.savedOnly ∧ t.tm.pc = c.base + BitVec.ofNat 64 (4 * c.idx)) ∧
        (∀ c, s.tm.savedClause = some c → c.cls ≠ 0 → c.cls ≠ 2 → c.idx < c.words.length → ∃ c',
          t.tm.clause = some c' ∧ c'.cls = c.cls ∧ c'.words = c.words.drop c.idx ∧ c'.idx = 0 ∧
          t.tm.pc = c.base + BitVec.ofNat 64 (4 * c.idx))) ∧
      (∀ c, a = .skip → s.tm.late = none → s.tm.savedClause = some c → c.cls = 0 ∨ c.cls = 2 → c.idx + 1 < c.limit →
        t.tm.active = s.tm.savedActive &&& s.tm.full ∧ t.tm.frame = e.frame ∧
        t.tm.callDepth = s.tm.callDepth - 1 ∧ t.tm.pc = c.base + BitVec.ofNat 64 (4 * (c.idx + 1)) ∧
        t.tm.clause = some { c with idx := c.idx + 1 })

/-- R404, R405, R57, Table 3-10: SRD delivers the special register it names, SWR sets FPFLAGS from bits 4:0; neither
changes anything else. In a later pass of a word, a register other than LANEID and CLOCK reads as in its first pass. Which
register each number names is said beside. -/
def Obligations.SpecialRegisterWordsReadAndWrite : Prop :=
  (∀ s d n, Issues (.srd d n) s → ∃ t, exec (.srd d n) s = .next t ∧ OnlyDest s t d (if srWide n.val then 2 else 1) ∧
    match d with
    | .s k => sget 0 t.tm.s k.val = specialReg (issued s) (issued s).tm n.val 0 s.tm.pass
    | .v k =>
      let Reads := fun x : Nat → DWord =>
        if srWide n.val then InPairs s t k.val x else InLanes s t k.val fun l => (x l).setWidth 32
      (n.val = 0 ∨ n.val = 5 ∨ s.tm.laterPass = false →
        Reads fun l => specialReg (issued s) (issued s).tm n.val l (l / 32)) ∧
      (n.val ≠ 0 → n.val ≠ 5 → ∀ c, s.tm.clause = some c →
        (s.tm.laterPass = true → ∀ x, sfind c.reads c.idx = some x → Reads fun _ => x) ∧
        (s.tm.laterPass = false → s.tm.passMajor = true → ∀ c', t.tm.clause = some c' →
          sfind c'.reads c.idx = some (specialReg (issued s) (issued s).tm n.val 0 s.tm.pass)))) ∧
  (∀ s a n, Issues (.swr a n) s → ∃ t, exec (.swr a n) s = .next t ∧ OnlyTeam s t ∧ t.tm.v = s.tm.v ∧
    t.tm.s = s.tm.s ∧ t.tm.p = s.tm.p ∧ t.tm.fpflags = BitVec.ofNat 32 ((s.tm.sread a.val).toNat % 32)) ∧
  (∀ (s : State) (t : Team) (l q : Nat),
    specialReg s t 0 l q = .ofNat 64 l ∧ specialReg s t 1 l q = .ofNat 64 t.teamId ∧
    specialReg s t 2 l q = .ofNat 64 t.lanes ∧ specialReg s t 3 l q = .ofNat 64 t.core ∧
    (∀ c, t.cohort = some c → specialReg s t 4 l q = .ofNat 64 (c % 65536)) ∧
    (t.cohort = none → specialReg s t 4 l q = 0xFFFFFFFF) ∧
    (t.passMajor = true → specialReg s t 5 l q = s.clock) ∧
    specialReg s t 8 l q = t.fpflags.setWidth 64 ∧ specialReg s t 9 l q = t.trapInfo ∧
    specialReg s t 10 l q = t.trapPc ∧
    (specialReg s t 11 l q).getLsbD 11 = t.benter.isSome ∧ (specialReg s t 16 l q).toNat / 2 ^ 16 % 256 = 0x10 ∧
    (∀ n, 0 < n → n < 4 → specialReg s t (16 + n) l q = 0) ∧
    ∀ n, n < 16 → specialReg s t (64 + n) l q = (sget 0 s.sensors (t.core / 128 * 16 + n)).setWidth 64)

/-- R44, R46, R48, R57, R63, R281: a word of a team that may not issue takes its trap, with its own address and word and
without any effect: SWR outside a handler illegal-instruction (1), a field that names registers the team has not, or
not aligned, illegal-register (2), a word that needs convergence in a diverged team scalar-divergence (4), in this
order. -/
def Obligations.WordsThatMayNotIssueTrap : Prop :=
  (∀ (i : Instr) (s : State) (c : Nat), (encode i).isSome = true → i.opcode < 0xC0 → (i.once && s.tm.laterPass) = false →
    staticTrap i s.tm = some c → CanTrap s → ∃ t, exec i s = .next t ∧ Trapped s t c 0 i.word s.tm.pc) ∧
  (∀ (i : Instr) (t : Team),
    let outside := (∃ a n, i = .swr a n) ∧ t.inHandler = false
    let missing := ∃ r ∈ i.vregs, r.1 % r.2 ≠ 0 ∨ t.nreg - t.frame < r.1 + r.2
    (staticTrap i t = some 1 ↔ outside) ∧ (staticTrap i t = some 2 ↔ ¬outside ∧ missing) ∧
    (staticTrap i t = some 4 ↔ ¬outside ∧ ¬missing ∧ i.converged = true ∧ t.active ≠ t.full) ∧
    (staticTrap i t = none ↔ ¬outside ∧ ¬missing ∧ (i.converged = true → t.active = t.full)))

/-- R55, R281: a word of a clause that is no team instruction of its clause takes the illegal-instruction trap, an
extension opcode the emulation trap. -/
def Obligations.WordsWithoutMeaningTrap : Prop :=
  ∀ (s : State) (w : Word), CanTrap s → ∃ t, exec (.illegalInstructionWord w) s = .next t ∧
    Trapped s t (if 0xE0 ≤ w.toNat / 2 ^ 24 ∧ w.toNat / 2 ^ 24 ≤ 0xEF then 3 else 1) 0 w s.tm.pc

/-- R281, R282: a trap in a handler, or one whose frame cannot be pushed, because the call depth is 4,095 or the spill slot
it needs lies below the scratchpad, ends the team: every lane exits; and so does a trap of a context without a trap entry.
Here for a TRAP word and for a word that is no instruction. -/
def Obligations.TrapsThatCannotBeTakenEndTheTeam : Prop :=
  ∀ s : State, s.tm.blocked = false →
    s.tm.inHandler = true ∨ (getCtx s s.tm.ctx).trapEntry = 0 ∨ ¬CanPush s →
    (∀ imm, Issues (.trap imm) s → ∃ t, exec (.trap imm) s = .next t ∧ t.tm.full = 0 ∧ t.tm.active = 0 ∧
      t.tm.inHandler = false ∧ t.tm.clause = none ∧ t.tm.v = s.tm.commitAll.v) ∧
    (∀ w, ∃ t, exec (.illegalInstructionWord w) s = .next t ∧ t.tm.full = 0 ∧ t.tm.active = 0 ∧
      t.tm.inHandler = false ∧ t.tm.clause = none)

/-! ### Encoding -/

/-- Words written out from the encoding tables (Tables 3-4 to 3-9) decode to the instruction they stand for. -/
def Obligations.WordsOfTheSpecDecode : Prop :=
  decodeWord 0x00000000 = .ok .nop ∧
  -- BRA, opcode 0x01: offset -2 words
  decodeWord 0x01FFFFFE = .ok (.bra ⟨0xFFFFFE, by decide⟩) ∧
  -- BRX, 0x02: p2 (23:21), all = 1 (20:19), offset 3
  decodeWord 0x02480003 = .ok (.brx 2 .all 3) ∧
  -- IADD, 0x10: d = v5 (23:17), a = s1 = 105 (16:10), b = v2 (9:3), s32
  decodeWord 0x100BA410 = .ok (.iadd (.v 5) (.s 1) (.v 2) .s32) ∧
  -- BFX, 0x21: d = v6, a = v2, b = v3, s32
  decodeWord 0x210C0818 = .ok (.bfx (.v 6) (.v 2) (.v 3) .s32) ∧
  -- ICMP immediate, 0x2D: ne = 1 (23:20), p1 (19:17), a = v24, 0
  decodeWord 0x2D126000 = .ok (.icmpImm .ne 1 (.v 24) 0) ∧
  -- MOVU, 0x2F: d = v27, 0x4B00
  decodeWord 0x2F364B00 = .ok (.movu (.v 27) 0x4B00) ∧
  -- FADD, 0x30: d = v1, a = v2, b = v3, f32 (4)
  decodeWord 0x3002081C = .ok (.fadd 1 (.v 2) (.v 3) (.f32 .rn)) ∧
  -- SHFL, 0x40: down = 2, d = v6, a = v2, b = s4 = 108
  decodeWord 0x400C0B62 = .ok (.shfl .down false 6 (.v 2) (.s 4)) ∧
  -- LDU, 0x60: t = v3, x = v0, s = s6
  decodeWord 0x600600C0 = .ok (.ldu (.v 3) ⟨.v 0, .s 6, false⟩ 0) ∧
  -- JOIN, 0x90: sa = s6 (23:19), window 2, st = s5
  decodeWord 0x90300045 = .ok (.join 6 2 5) ∧
  -- MMA, 0xC2 (Table 7-5): record 4 (23:16), tile 0 (15), stamp (14), first slot 0 (12:9), M - 1 = 95
  decodeWord 0xC204405F = .ok (.mma false true 4 0 95)

/-- R55: a reserved opcode, an extension opcode and a header in a body are refused by name, and a word with a reserved
field set is refused (R45). -/
def Obligations.WordsOutsideTheMapAreRefused : Prop :=
  (∀ w : Word, 0xE0 ≤ w.toNat / 2 ^ 24 → w.toNat / 2 ^ 24 ≤ 0xEF →
    decodeWord w = .error (.extension (w.toNat / 2 ^ 24 - 0xE0))) ∧
  (∀ w : Word, 0xF0 ≤ w.toNat / 2 ^ 24 → decodeWord w = .error .headerInBody) ∧
  (∀ w : Word,
    let op := w.toNat / 2 ^ 24
    op = 0x0F ∨ op = 0x27 ∨ (0x48 ≤ op ∧ op ≤ 0x4F) ∨ (0x6B ≤ op ∧ op ≤ 0x6F) ∨ (0x72 ≤ op ∧ op ≤ 0x77) ∨ op = 0x87 ∨
      (0x8C ≤ op ∧ op ≤ 0x8F) ∨ op = 0x96 ∨ op = 0x97 ∨ (0x9D ≤ op ∧ op ≤ 0x9F) ∨ (0xA2 ≤ op ∧ op ≤ 0xBF) ∨
      (0xC8 ≤ op ∧ op ≤ 0xDF) → decodeWord w = .error .reservedOpcode) ∧
  (∀ w : Word, w.toNat / 2 ^ 24 = 0 → w ≠ 0 → decodeWord w = .error .badField) ∧
  (∀ w : Word, w.toNat / 2 ^ 24 = 0x2F → w.getLsbD 16 = true → decodeWord w = .error .badField)

/-- R45 to R51: every well-formed instruction that has a word is read back from it, with every operand. -/
def Obligations.DecodingReadsBackEveryEncoding : Prop :=
  ∀ (i : Instr) (w : Nat), i.wf = true → encode i = some w → w < 2 ^ 32 ∧ decodeWord (BitVec.ofNat 32 w) = .ok i

/-- R45: a word that decodes is the word of the instruction it stands for, bit for bit, and that instruction is
well-formed: no two words stand for one instruction. -/
def Obligations.EncodingGivesBackEveryWord : Prop :=
  ∀ (w : Word) (i : Instr), decodeWord w = .ok i → i.wf = true ∧ encode i = some w.toNat

/-! ### Steps -/

namespace Sys2Proof.Statements

/-- The machine with its clock run on and the head of the agenda taken. -/
def taken (s : State) (rest : List Move) : State :=
  { s with clock := s.clock + Config.clockTick s.free, free := s.free + 1, agenda := rest }

/-- A step from s runs instruction i in state b, then lets tasks and phase steps follow (R261, R309). -/
def Runs (s b : State) (i : Instr) : Prop :=
  (∀ t, exec i b = .next t → step s = .next (after b t)) ∧ ∀ f, exec i b = .fault f → step s = .fault f

/-- The team that its partition chooses (R78, R320): READY, with lanes, on a die pair that is not paused, no ballast, and
of the teams of its partition that could issue none has gone longer without issuing. -/
def Ready (s : State) (t : Team) : Prop :=
  t.state = .ready ∧ t.full ≠ 0 ∧ (sget .blank s.thermal (t.core / 128)).paused = false ∧ t.cls ≠ 7 ∧
    ∀ e ∈ s.teams, e.2.partKey = t.partKey → e.2.mayIssue s = true → t.rank ≤ e.2.rank

/-- Nothing waits in the machine for the end of a step: no phase step, no engine stop, no read of failed data, nothing
that a slice held back, no lost load, no cohort that is being dissolved, and no set of the L2 over its 16 ways. -/
def Quiet (s : State) : Prop :=
  s.dbg.stepCohort = [] ∧ s.dbg.engStop = [] ∧ s.badReads = [] ∧ (∀ w ∈ s.stampWaits, w.req ≠ none) ∧
    (∀ n ∈ s.tcbNotes, n.req ≠ none) ∧ (∀ e ∈ s.taskEnds, e.req ≠ none) ∧
    (∀ e ∈ s.teams, ∀ p ∈ e.2.pending, p.lost = []) ∧ s.heatWaits = [] ∧ (∀ c ∈ s.cohorts, c.2.members ≠ []) ∧
    ∀ e ∈ s.l2, (setLines s e.1).length ≤ 16

end Sys2Proof.Statements

/-- A step runs the decoded instruction (R39, R44, R78): a team's next word as its clause class admits it, a header
between clauses, a word without meaning as the illegal-instruction step; and a step of the table that has no encoding.
What follows it leaves the state alone where nothing waits for the end of a step and no team has come or gone. A step also
runs the next word of a matrix stream, once it is fetched, may start and, where it needs the array, is granted (R113, R117,
R118), after words beyond it have been fetched ahead (R379; log entry 75). -/
def Obligations.StepRunsTheDecodedWord : Prop :=
  ((∀ s u rest c w i, s.power = .on → s.agenda = .issue u :: rest → Ready s (s.getTeam u) →
    (s.getTeam u).clause = some c → c.words[c.idx]? = some w →
    (decodeWord w = .ok i → admits c.cls i = true → Runs s { taken s rest with cur := u } i) ∧
    (decodeWord w = .ok i → admits c.cls i = false →
      Runs s { taken s rest with cur := u } (.illegalInstructionWord w)) ∧
    (∀ e, decodeWord w = .error e → Runs s { taken s rest with cur := u } (.illegalInstructionWord w))) ∧
  (∀ s u rest, s.power = .on → s.agenda = .issue u :: rest → Ready s (s.getTeam u) → (s.getTeam u).clause = none →
    Runs s { taken s rest with cur := u } .clauseHeader) ∧
  (∀ s i rest, s.power = .on → s.agenda = .occur i :: rest → encode i = none → i ≠ .clauseHeader →
    (∀ w, i ≠ .illegalInstructionWord w) → (∀ c k w, i ≠ .streamOpcodeError c k w) → Runs s (taken s rest) i) ∧
  (∀ b t : State, Quiet t →
    (∀ e ∈ t.teams, ∀ x, sfind b.teams e.1 = some x → x.away = e.2.away) → after b t = t)) ∧
  (∀ s core k rest x w r i, s.power = .on → s.agenda = .stream core k :: rest →
    (getEngine s core).streams[k]? = some x → findStream s core x.cohort = some x → x.ahead = w :: r →
    (x.canRun = true ∨ x.atBarrier = true) → x.mayStart s (streamInstr core k w) = true →
    (needsGrant (streamInstr core k w) = true → x.granted = true) →
    let b := prefetch core x.cohort aheadWords { taken s rest with curStream := (core, x.cohort) }
    (decodeWord w = .ok i → 0xC0 ≤ i.opcode → Runs s b i) ∧
    ((∀ i, decodeWord w = .ok i → i.opcode < 0xC0) → Runs s b (.streamOpcodeError core k w)))

/-- No instruction stops the machine: each answers a next state, in every state. -/
def Obligations.EveryInstructionAnswersANextState : Prop := ∀ (i : Instr) (s : State), ∃ t, exec i s = .next t

/-- A step stops only where the package has no power, or has tripped, and nothing is left for the outside world to do
(R312, R321). -/
def Obligations.StepStopsOnlyWithoutPower : Prop :=
  ∀ s : State, (∀ t, step s ≠ .next t) ↔ (s.power ≠ .on ∧ s.agenda = [])

/-- The machine after reset (Table 18-1, R312, R299): the ROM stage, CLOCK 0, no team, cohort, context, stream or
environment, an empty translation buffer; FAB_RTO 16, the launch and host rings empty. The fields that the spec gives
no reset value hold what the log entries of INVENTORY.md name. -/
def Obligations.ResetLeavesTheRomStage : Prop :=
  let s := State.reset
  s.power = .on ∧ s.boot.stage = 0 ∧ s.boot.error = 0 ∧ s.clock = 0 ∧ s.teams = [] ∧ s.cohorts = [] ∧ s.ctxs = [] ∧
  s.engines = [] ∧ s.envs = [] ∧ s.tlbs = [] ∧ s.mem = [] ∧ s.l1 = [] ∧ s.l2 = [] ∧ s.units = Units.none ∧
  s.pset.enable = false ∧ s.fabric.rto = 16 ∧ s.dbg.halted = [] ∧ s.routeErr = false ∧ s.agenda = []

/-- Memory and the tables of the caches are in their canonical form at reset. -/
def Obligations.ResetMemoryIsCanonical : Prop := StoresOk State.reset

/-- Every step keeps memory and the tables of the caches in their canonical form: equal contents are equal data. -/
def Obligations.StepsKeepMemoryCanonical : Prop := ∀ s t : State, StoresOk s → step s = .next t → StoresOk t

namespace Sys2Proof.Statements

/-! ### Memory words -/

/-- Each lane's bytes wait, as words of registers d, d + 1, … of the team's frame, to commit (R52, R365). -/
def WaitsInLanes (s t : State) (kind : PendKind) (look d : Nat) (res : List (Nat × List Byte)) : Prop :=
  ∀ l bs, (l, bs) ∈ res → ∀ j w, (wordsOf bs)[j]? = some w →
    ∃ p ∈ t.tm.pending, p.kind = kind ∧ p.pass = l / 32 ∧ p.span = look ∧ (vkey (s.tm.frame + d + j) l, w) ∈ p.vals

/-- A load of n bytes into r whose lanes meet no fault: it completes, and what each lane has read waits, with the span
the word gives. before is what the word does first. -/
def Loads (i : Instr) (r : Reg) (m : MemOp) (n look : Nat) (how : Site) (fab aligned : Bool)
    (before : State → State) : Prop :=
  ∀ s, Issues i s → s.tm.only = none → s.tm.held = none →
    let b := before (issued s)
    let x := loadLanes b.tm how fab aligned n m (b.tm.memLanes r) b
    x.2.2 = [] → ∃ t, exec i s = .next t ∧ t.tm.pc = s.tm.finish.pc ∧ t.mem = x.1.mem ∧ t.l1 = x.1.l1 ∧
      x.2.1.map (·.1) = s.tm.memLanes r ∧
      match r with
      | .v d => WaitsInLanes s t .load look d.val x.2.1
      | .s d => ∀ l bs rest, x.2.1 = (l, bs) :: rest → ∃ p ∈ t.tm.pending, p.kind = .load ∧ p.span = look ∧
          p.svals = [(d.val, BitVec.ofNat 64 (ofBytes bs))]

/-- A store of n bytes whose lanes meet no fault, after before (a release): it completes with its lanes' stores
performed in ascending order. -/
def Stores (i : Instr) (r : Reg) (m : MemOp) (n : Nat) (how : Site) (slots fab aligned : Bool)
    (before : State → Option State) : Prop :=
  ∀ s b, Issues i s → before (issued s) = some b →
    let x := eachLane (b.tm.memLanes r) (fun s l =>
      if aligned && (memAddr b.tm m l).toNat % n != 0 then (.error [.code 0x07], s)
      else storeLane b.tm r how slots fab n (memAddr b.tm m l) s l) b
    x.2.2 = [] → ∃ t, exec i s = .next t ∧ t.tm.pc = s.tm.finish.pc ∧ t.mem = x.1.mem ∧ t.l1 = x.1.l1 ∧
      t.channels = x.1.channels

/-! ### Lanes that fault (R89, R272, R279, R280) -/

/-- A memory word whose lanes fs are unfinished, x being the state that its lanes leave: where each has a trap kind, one
trap is taken, of the kind of the lowest lane, with the unfinished lanes of its pass, and the mask of them all is kept for
the replay; where one waits for a page, the team is parked at the word with their mask and a request for each page, whose
record may go to the host's ring; trap kinds wait. once says that the word runs once per team. -/
def FaultsTaken (s x t : State) (once : Bool) (fs : List (Nat × LaneFault)) : Prop :=
  let lanes := fs.map (·.1)
  ((∀ f ∈ fs, ∃ c, f.2 = .code c) → CanTrap x → ∃ low c rest, fs.filter (fun f => f.1 == low) = (low, .code c) :: rest ∧
    (∀ l ∈ lanes, low ≤ l) ∧ ∃ m : Mask, (∀ l, l < 1024 → m.getLsbD l = decide (l ∈ lanes)) ∧
      t.tm.savedOnly = some m ∧
      Trapped x t c (if once then 0 else low / 32) (if once then 0 else maskWord m (low / 32)) s.tm.pc) ∧
  ((∃ f ∈ fs, f.2.translation = true) → (∀ f ∈ fs, ∀ pa, f.2 ≠ .bad pa) →
    t.tm.state = .parked ∧ t.tm.wait = .fault ∧ t.tm.pc = s.tm.pc ∧ t.l1 = x.l1 ∧
    (∀ a, a / 2 ^ 44 ≠ 2 → memGet t a = memGet x a) ∧ (∀ l, l < 1024 → t.tm.unfin.getLsbD l = decide (l ∈ lanes)) ∧
    ∀ f ∈ fs, ∀ p k, f.2 = .page p k → ∃ n ∈ t.tm.waitReqs, ∃ q ∈ t.reqs, q.id = n ∧ q.page = p ∧ q.kind = k)

/-- The same for a load and for a store of n bytes, as Loads and Stores have them. -/
def LoadFaults (i : Instr) (r : Reg) (m : MemOp) (n : Nat) (how : Site) (fab aligned : Bool)
    (before : State → State) : Prop :=
  ∀ s, Issues i s →
    let b := before (issued s)
    let x := loadLanes b.tm how fab aligned n m (b.tm.memLanes r) b
    x.2.2 ≠ [] → ∃ t, exec i s = .next t ∧ FaultsTaken s x.1 t r.isScalar x.2.2

def StoreFaults (i : Instr) (r : Reg) (m : MemOp) (n : Nat) (how : Site) (slots fab aligned : Bool)
    (before : State → Option State) : Prop :=
  ∀ s b, Issues i s → before (issued s) = some b →
    let x := eachLane (b.tm.memLanes r) (fun s l =>
      if aligned && (memAddr b.tm m l).toNat % n != 0 then (.error [.code 0x07], s)
      else storeLane b.tm r how slots fab n (memAddr b.tm m l) s l) b
    x.2.2 ≠ [] → ∃ t, exec i s = .next t ∧ FaultsTaken s x.1 t r.isScalar x.2.2

end Sys2Proof.Statements

/-- R266 to R268, R271, R275: an access that translates is covered by a leaf, held by a translation buffer or reached by the
walk: its address is the leaf's frame plus the offset, a write needs W and no migration, a fetch needs X, the address is
backed, and its key is loaded. Whatever a translation ends in, it changes no byte of memory but those of the leaf entry
that the walk reaches, where it counts heat, and those of lines tagged with another key than 0, under which the walk
reads its tables (R324); where no line has such a tag, no first-level cache and no team changes. -/
def Obligations.TranslationNeedsALeafThatAdmitsTheAccess : Prop :=
  (∀ s core tlbs ctx va k pa key s', translate s core tlbs ctx va k = (.ok pa key, s') →
    canonical va = true ∧ ∃ size e,
      ((∃ x ∈ s.tlbs, x.core = core ∧ x.ctx = ctx ∧ x.tlb ∈ tlbs ∧ x.covers va = true ∧ x.size = size ∧ x.leaf = e) ∨
        ∃ addr, walkCtx s ctx va = .leaf addr size e ∧ e.getLsbD 0 = true ∧ e.getLsbD 3 = true) ∧
      pa = pteFrame e + va.toNat % size ∧ (k = .write → e.getLsbD 1 = true ∧ e.getLsbD 5 = false) ∧
      (k = .fetch → e.getLsbD 2 = true) ∧ backed s pa = true ∧ (key ≠ 0 → (sget none s.sec.keys key).isSome = true)) ∧
  (∀ s core tlbs ctx va k r s', translate s core tlbs ctx va k = (r, s') →
    ((∀ line, lineKey s line = 0) → s'.l1 = s.l1 ∧ s'.teams = s.teams) ∧
    ∀ a, memGet s' a = memGet s a ∨ lineKey s (lineOf a) ≠ 0 ∨ ∃ addr size e, walkCtx s ctx va = .leaf addr size e ∧ addr ≤ a ∧ a < addr + 8) ∧
  (∀ s core tlbs ctx va k, canonical va = false → (translate s core tlbs ctx va k).1 = .fatal)

/-- R136, R163, R169, R365, R406: one lane of a plain load reads, of each byte, the first-level copy, else the home slice;
where a byte of the 64-byte sector is missing, the sector is fetched and the home slice read, but for dirty bytes and those of
entered bundles. A load served at the home slice reads the core's own dirty byte, else the home slice, and leaves no older
copy behind. Neither changes a byte of memory, a dirty byte, or a team that does not wait for a word, but that the team
notes the bytes that come from an expander (R276). One lane of a store
leaves its data at its addresses as the core reads them, a store performed at the home slice there too, and every other byte
as it was. R366: before that the checks of a lane come in their order: a non-canonical address and a fatal translation are the
fatal memory fault (0x12), absent pages are waited for, where no fatal reply (0x12) and no failure of the host (0x13) is
known of them, and a race is kind 0x09. -/
def Obligations.LanesReadAndWriteTheirBytes : Prop :=
  (∀ s t ea n acc site,
    let x := globalCheck s t ea n acc site
    let k := if acc = .load then ReqKind.read else .write
    let y := translateBytes s t.core (teamTlbs t) t.ctx ea n k
    (canonical ea = false → x = (.fail [.code 0x12], s)) ∧
    (canonical ea = true → t.awaitsRows = false → inAperture ea n = false → inFabric ea = false →
      (y.1 = .fatal → x.1 = .fail [.code 0x12]) ∧
      (∀ ps, y.1 = .fault ps ∨ y.1 = .migrating ps → x.1 = .fail
        (if ∃ p ∈ ps, p ∈ t.fatalPages then [.code 0x12] else if ∃ p ∈ ps, p ∈ t.hostFail then [.code 0x13]
          else ps.map fun p => if y.1 = .fault ps then .page p k else .migrating p)) ∧
      (∀ pas idx, y.1 = .ok pas → raceOf y.2 t acc (site == .far) pas = some idx → x.1 = .fail [.code 0x09] ∧
        ∀ u, sfind x.2.teams u = if u = t.uid then some { y.2.getTeam u with raceIndex := idx } else sfind y.2.teams u))) ∧
  (∀ s t ea n how fab l pas s1, globalCheck s t ea n .load how = (.ok pas, s1) →
    let kept := fun pa (b : L1Byte) => b.dirty || inBundle s1 t.core (lineOf pa) ||
      (how == .plain && !(pas.any fun q => q / 64 == pa / 64 && (l1Get s1 t.core q).isNone))
    ∃ s2, loadLane t how fab n ea s l = (.ok (pas.map fun pa =>
        match l1Get s1 t.core pa with
        | some b => if kept pa b then b.val else memGet s1 pa
        | none => memGet s1 pa), s2) ∧
      s2.mem = s1.mem ∧ (∀ u, (s1.getTeam u).waitv = none → s2.getTeam u = { s1.getTeam u with
        atPort := (s1.getTeam u).atPort ++ if u = t.uid then (portBytes s t.core how pas).map fun pa => (l, pa) else [] }) ∧
      (∀ a b, l1Get s1 t.core a = some b → b.dirty = true → l1Get s2 t.core a = some b) ∧
      (how ≠ .plain → ∀ pa b, pa ∈ pas → l1Get s2 t.core pa = some b →
        b.dirty = true ∨ inBundle s1 t.core (lineOf pa) = true) ∧
      ∀ a, coreByte s2 t.core a = coreByte s1 t.core a ∨ coreByte s2 t.core a = memGet s1 a) ∧
  (∀ s t r how slots fab n ea l pas s1, n ∈ [1, 2, 4, 8, 16] → globalCheck s t ea n .store how = (.ok pas, s1) →
    pas.Nodup → ∃ s2, storeLane t r how slots fab n ea s l = (.ok (), s2) ∧
      (∀ i, i < n → ∀ pa, pas[i]? = some pa → (t.storeData r n l)[i]? = some (coreByte s2 t.core pa) ∧
        (how ≠ .plain → s1.pools = [] → (t.storeData r n l)[i]? = some (memGet s2 pa))) ∧
      (∀ a, a ∉ pas → coreByte s2 t.core a = coreByte s1 t.core a ∧ memGet s2 a = memGet s1 a) ∧
      (how = .plain → s2.mem = s1.mem))

/-- R365, R368 to R370, R372: the load words complete when no lane meets a fault; what each lane has read waits in the
team's pending results: with the word's span, an LD.acq with none and after its acquire, an LDC for its counter. Where
lanes meet faults, a misaligned LD.acq among them (0x07), the word takes them as R89 and R280 say. That what waits is what
the word has read at its issue is log entry 30 (DESIGN CHOICE); that LDU in the fabric window is performed as LD is, is
entry 112 (DEDUCED). -/
def Obligations.LoadWordsComplete : Prop :=
  (∀ t m (look : Fin 16),
    Loads (.ldB t m look) t m 1 look.val .plain true false id ∧ Loads (.ldH t m look) t m 2 look.val .plain true false id ∧
    Loads (.ldW t m look) t m 4 look.val .plain true false id ∧ Loads (.ldD t m look) t m 8 look.val .plain true false id ∧
    Loads (.ldu t m look) t m 4 look.val .home true false id ∧
    LoadFaults (.ldB t m look) t m 1 .plain true false id ∧ LoadFaults (.ldH t m look) t m 2 .plain true false id ∧
    LoadFaults (.ldW t m look) t m 4 .plain true false id ∧ LoadFaults (.ldD t m look) t m 8 .plain true false id ∧
    LoadFaults (.ldu t m look) t m 4 .home true false id) ∧
  (∀ (t : VReg) m (look : Fin 16), Loads (.ldQ t m look) (.v t) m 16 look.val .plain true false id ∧
    LoadFaults (.ldQ t m look) (.v t) m 16 .plain true false id) ∧
  (∀ t m sc d, Loads (.ldAcq t m sc d) t m (if d then 8 else 4) 0 (if sc.far then .far else .plain) true true
    fun s => acquireAt sc.far s s.cur) ∧
  (∀ t m sc d, LoadFaults (.ldAcq t m sc d) t m (if d then 8 else 4) (if sc.far then .far else .plain) true true
    fun s => acquireAt sc.far s s.cur) ∧
  (∀ (n : Nat) (mk : VReg → MemOp → CReg → Instr), (mk = .ldcW ∧ n = 4) ∨ (mk = .ldcQ ∧ n = 16) → ∀ s d m c,
    Issues (mk d m c) s →
    let x := loadLanes (issued s).tm .plain false false n m s.tm.wordLanes (issued s)
    x.2.2 ≠ [] → ∃ t, exec (mk d m c) s = .next t ∧ FaultsTaken s x.1 t false x.2.2) ∧
  (∀ (n : Nat) (mk : VReg → MemOp → CReg → Instr), (mk = .ldcW ∧ n = 4) ∨ (mk = .ldcQ ∧ n = 16) → ∀ s d m c,
    Issues (mk d m c) s → (∀ p ∈ s.tm.pending, p.more = false) →
    let x := loadLanes (issued s).tm .plain false false n m s.tm.wordLanes (issued s)
    x.2.2 = [] → ∃ t, exec (mk d m c) s = .next t ∧ t.tm.pc = s.tm.finish.pc ∧ t.mem = x.1.mem ∧
      ∃ p ∈ t.tm.pending, p.kind = .ldc c.val ∧ p.span = 0 ∧ p.more = false ∧
        ∀ l bs, (l, bs) ∈ x.2.1 → ∀ j w, (wordsOf bs)[j]? = some w → (vkey (s.tm.frame + d.val + j) l, w) ∈ p.vals)

/-- R406 to R408, R410: the store words complete when no lane meets a fault, with every lane's store performed, an ST.rel
after its release. Where lanes meet faults, a misaligned ST.rel among them (0x07), the word takes them as R89 and R280 say.
That a store is performed when its word completes is log entry 30 (DESIGN CHOICE: R136 and R406 let it be some c-cycles
later); that STU in the fabric window is performed as ST is, is entry 112 (DEDUCED). -/
def Obligations.StoreWordsComplete : Prop :=
  (∀ t m look,
    Stores (.stB t m look) t m 1 .plain false true false some ∧ Stores (.stH t m look) t m 2 .plain false true false some ∧
    Stores (.stW t m look) t m 4 .plain true true false some ∧ Stores (.stD t m look) t m 8 .plain true true false some ∧
    Stores (.stu t m look) t m 4 .home false true false some ∧
    StoreFaults (.stB t m look) t m 1 .plain false true false some ∧
    StoreFaults (.stH t m look) t m 2 .plain false true false some ∧
    StoreFaults (.stW t m look) t m 4 .plain true true false some ∧
    StoreFaults (.stD t m look) t m 8 .plain true true false some ∧
    StoreFaults (.stu t m look) t m 4 .home false true false some) ∧
  (∀ (t : VReg) m look, Stores (.stQ t m look) (.v t) m 16 .plain false true false some ∧
    StoreFaults (.stQ t m look) (.v t) m 16 .plain false true false some) ∧
  (∀ t m sc d, Stores (.stRel t m sc d) t m (if d then 8 else 4) (if sc.far then .far else .plain) false true true
    (releaseFirst sc.relTo (sc == .coh))) ∧
  (∀ t m sc d, StoreFaults (.stRel t m sc d) t m (if d then 8 else 4) (if sc.far then .far else .plain) false true true
    (releaseFirst sc.relTo (sc == .coh)))

namespace Sys2Proof.Statements

/-- Every lane of a local word lies in a range of the team (R371), and no result to a register that it reaches through
the register window is due (R83). -/
def LocalFits (s : State) (m : MemOp) (n : Nat) : Prop :=
  (∀ l ∈ s.tm.wordLanes, localOf s.tm (memAddr s.tm m l) n ≠ .bad) ∧ s.tm.mustCommit (windowRegs s.tm m n) [] none = 0

/-- The team after the lanes of an STL have written, ascending (R409). -/
def localStores (s : State) (d : VReg) (m : MemOp) (n : Nat) : Team :=
  s.tm.wordLanes.foldl (init := s.tm) fun x l => localWrite x (stlData s.tm d n l) (localOf s.tm (memAddr s.tm m l) n)

/-- The mirrored stores that leave the team (R294). -/
def localMirrors (s : State) (d : VReg) (m : MemOp) (n : Nat) : List MirrorPkt :=
  s.tm.wordLanes.flatMap fun l =>
    match localOf s.tm (memAddr s.tm m l) n with
    | .window off => mirrorPackets s s.tm off (stlData s.tm d n l)
    | _ => []

def LocalLoads (mk : VReg → MemOp → Fin 16 → Instr) (n : Nat) : Prop :=
  ∀ s d m look, Issues (mk d m look) s → s.tm.only = none → s.tm.held = none → LocalFits s m n →
    ∃ t, exec (mk d m look) s = .next t ∧ OnlyPlace s t ∧ t.tm.pc = s.tm.finish.pc ∧
      WaitsInLanes s t .load look.val d.val
        (s.tm.wordLanes.map fun l => (l, localRead s.tm n (localOf s.tm (memAddr s.tm m l) n)))

def LocalStores (mk : VReg → MemOp → Fin 16 → Instr) (n : Nat) : Prop :=
  ∀ s d m look, Issues (mk d m look) s → s.tm.uid = s.cur → LocalFits s m n →
    ((∃ l ∈ s.tm.wordLanes, ∃ off, localOf s.tm (memAddr s.tm m l) n = .window off) → mirrorCut s s.tm = false) →
    ∃ t, exec (mk d m look) s = .next t ∧ t.tm.pc = s.tm.finish.pc ∧ SameOthers s t ∧ t.mem = s.mem ∧ t.l1 = s.l1 ∧
      t.tm.s = s.tm.s ∧ t.tm.p = s.tm.p ∧ t.tm.v = (localStores s d m n).v ∧
      t.tm.scratch = (localStores s d m n).scratch ∧ t.tm.window = (localStores s d m n).window ∧
      t.mirrors = s.mirrors ++ localMirrors s d m n

/-- The places of local words (R72, R82, R135, R371): the scratchpad from 0, the mirrored window from 0x0100_0000, the
register window from 0x0200_0000. -/
def PlacesOf (t : Team) (ea : DWord) (n : Nat) : Prop :=
  let a := ea.toNat
  (a % n ≠ 0 → localOf t ea n = .bad) ∧
  (a % n = 0 → a + n ≤ t.scratchSize → localOf t ea n = .scratch a) ∧
  (a % n = 0 → t.scratchSize < a + n → 0x01000000 ≤ a → a + n ≤ 0x01000000 + t.windowSize →
    localOf t ea n = .window (a - 0x01000000)) ∧
  (localOf t ea n ≠ .bad → a + n ≤ t.scratchSize ∨ (0x01000000 ≤ a ∧ a + n ≤ 0x01000000 + t.windowSize) ∨
    (0x02000000 ≤ a ∧ a + n ≤ 0x02000000 + (t.lanes + 31) / 32 * t.nreg * 128))

end Sys2Proof.Statements

/-- R371, R409, R135, R72, R82: LDL and STL complete when every lane lies in a range of the team: LDL's bytes wait in its
lanes, STL's data, all read first, is at its places, and a store to the mirrored window is on its way to the other
members, where the routes allow it (R292); memory is untouched. That STL's data is all read first is log entry 41
(DEDUCED), and that the route must lead both ways is entry 107 (DEDUCED). -/
def Obligations.LocalWordsReachTheTeamsOwnMemory : Prop :=
  LocalLoads .ldlW 4 ∧ LocalLoads .ldlQ 16 ∧ LocalStores .stlW 4 ∧ LocalStores .stlQ 16 ∧
  ∀ t ea n, PlacesOf t ea n

namespace Sys2Proof.Statements

/-- Table 9-2: the new value of the word, from its old value, the comparand c and the data d. -/
def atomicResult (op : AtomOp) (old c d : DWord) : DWord :=
  let o : Word := old.setWidth 32
  let x : Word := d.setWidth 32
  let low : Word → DWord := fun w => w.setWidth 64
  match op with
  | .add => low (o + x)
  | .add64 => old + d
  | .mins => low (if x.toInt < o.toInt then x else o)
  | .maxs => low (if o.toInt < x.toInt then x else o)
  | .minu => low (if x.toNat < o.toNat then x else o)
  | .maxu => low (if o.toNat < x.toNat then x else o)
  | .and => low (o &&& x)
  | .or => low (o ||| x)
  | .xor => low (o ^^^ x)
  | .exch => low x
  | .exch64 => d
  | .cas => low (if o = c.setWidth 32 then x else o)
  | .cas64 => if old = c then d else old
  | .fadd => BitVec.ofNat 64 (fAdd fmtF32 .rn o.toNat x.toNat).1
  | .faddbf => low (halves (fAdd fmtBf16 .rn (lo16 o) (lo16 x)).1 (fAdd fmtBf16 .rn (hi16 o) (hi16 x)).1)

/-- The byte that an atomic of the core finds: its own dirty byte, else the home slice's (R168). -/
def atomicFinds (s : State) (core pa : Nat) : Byte :=
  match l1Get s core pa with
  | some b => if b.dirty then b.val else memGet s pa
  | none => memGet s pa

/-- One lane of ATOML: the old bytes are read, the new value is written (R334). -/
def localAtomic (s : State) (op : AtomOp) (v : VReg) (m : MemOp) (acc : Team × List (Nat × List Byte)) (l : Nat) :
    Team × List (Nat × List Byte) :=
  let a := (memAddr s.tm m l).toNat
  let n := atomSize op
  let old := (List.range n).map fun i => sget 0 acc.1.scratch (a + i)
  let x := s.tm.atomData op v.val l
  (acc.1.scratchPut a (toBytes n (atomicResult op (BitVec.ofNat 64 (ofBytes old)) x.1 x.2).toNat), acc.2 ++ [(l, old)])

end Sys2Proof.Statements

/-- R166 to R168, R333, R334, R393: ATOM and RED complete when no lane meets a fault; each lane's atomic is one
indivisible read and write at the home slice, of which ATOM's old value waits for its lane. ATOML does the same in the
team's scratchpad. Where lanes of ATOM or RED meet faults, misaligned ones among them (0x07), the word takes them as R89 and
R280 say. The float operations add by fAdd, to nearest even; that this is the exact sum rounded once is said of it at
FloatingPointWordsDeliver. -/
def Obligations.AtomicWordsReadAndWriteOnce : Prop :=
  (∀ op old c d, atomNew op old c d = atomicResult op old c d) ∧
  (∀ s op d m acc i, (i = .atom op d m ∧ acc = .atomic) ∨ (i = .red op d m ∧ acc = .red) → Issues i s →
    let x := eachLane s.tm.wordLanes (atomLane (issued s).tm acc op d.val m) (issued s)
    (∀ t l, (memAddr t m l).toNat % atomSize op ≠ 0 → atomLane t acc op d.val m s l = (.error [.code 0x07], s)) ∧
    (x.2.2 ≠ [] → ∃ t, exec i s = .next t ∧ FaultsTaken s x.1 t false x.2.2)) ∧
  (∀ s core op c d (pas : List Nat), pas.Nodup → pas.length = atomSize op →
    let old := pas.map (atomicFinds s core)
    ∃ s', homeAtomic s core op c d pas = (old, s') ∧
      (∀ i pa : Nat, pas[i]? = some pa →
        (toBytes pas.length (atomicResult op (BitVec.ofNat 64 (ofBytes old)) c d).toNat)[i]? = some (memGet s' pa)) ∧
      ∀ a, a ∉ pas → memGet s' a = memGet s a) ∧
  (∀ s op d m, Issues (.atom op d m) s → s.tm.only = none → s.tm.held = none →
    let x := eachLane s.tm.wordLanes (atomLane (issued s).tm .atomic op d.val m) (issued s)
    x.2.2 = [] → ∃ t, exec (.atom op d m) s = .next t ∧ t.tm.pc = s.tm.finish.pc ∧ t.mem = x.1.mem ∧
      WaitsInLanes s t .atomic 0 d.val x.2.1) ∧
  (∀ s op d m, Issues (.red op d m) s →
    let x := eachLane s.tm.wordLanes (atomLane (issued s).tm .red op d.val m) (issued s)
    x.2.2 = [] → ∃ t, exec (.red op d m) s = .next t ∧ t.tm.pc = s.tm.finish.pc ∧ t.mem = x.1.mem) ∧
  (∀ s op d m, Issues (.atoml op d m) s → s.tm.only = none → s.tm.held = none → s.tm.uid = s.cur →
    (∀ l ∈ s.tm.wordLanes, (memAddr s.tm m l).toNat % atomSize op = 0 ∧
      (memAddr s.tm m l).toNat + atomSize op ≤ s.tm.scratchSize) →
    let f := s.tm.wordLanes.foldl (localAtomic s op d m) (s.tm, [])
    ∃ t, exec (.atoml op d m) s = .next t ∧ t.tm.pc = s.tm.finish.pc ∧ SameMachine s t ∧ SameOthers s t ∧
      t.tm.v = s.tm.v ∧ t.tm.s = s.tm.s ∧ t.tm.scratch = f.1.scratch ∧ WaitsInLanes s t .atomic 0 d.val f.2)

/-- R137, R139, R170, R171, R331, R417: a release fence at cohort scope or above leaves every dirty byte of the core,
outside the bundles it holds entered, at its home slice; an acquire fence leaves no byte there that is not dirty; a fence at a
narrower scope changes neither. It waits for the team's loads that are to be read yet (log entry 109, DEDUCED) and for a
ROWSTAT that acquires (R184; log entry 103, DEDUCED). WAITV ends when every lane's word compares, AWAIT when the counter has reached the value,
ASET sets the counter. -/
def Obligations.FencesAndWaitsOrderAccesses : Prop :=
  (∀ s sc acq rel, Issues (.fence sc acq rel) s → canon none s.l1 = true → s.rowQueue = [] → s.mirrors = [] →
    s.tm.awaitsRows = false → s.tm.unread = false →
    ∃ t, exec (.fence sc acq rel) s = .next t ∧ t.tm.pc = s.tm.finish.pc ∧ t.tm.s = s.tm.s ∧ t.tm.p = s.tm.p ∧
      (sc.far = true → rel = true →
        (∀ e ∈ l1Bytes s s.tm.core, e.2.dirty = true → memGet t e.1 = e.2.val) ∧
        ∀ a, (∀ e ∈ l1Bytes s s.tm.core, e.2.dirty = true → e.1 ≠ a) → memGet t a = memGet s a) ∧
      (sc.far = true → acq = true → ∀ e ∈ l1Bytes t s.tm.core, e.2.dirty = true) ∧
      (rel = false → t.mem = s.mem) ∧ (sc.far = false → OnlyPlace s t)) ∧
  (∀ s ne sc d m, Issues (.waitv ne sc d m) s → s.tm.waitv = none → s.tm.only = none →
    let x := eachLane (lanesOf s.tm.active) (waitvLane (issued s).tm sc.far m) (issued s)
    let word := fun pa => readWordAt x.1 s.tm.core (sc == .core) pa
    x.2.2 = [] → (∀ l pa, (l, pa) ∈ x.2.1 → (word pa = s.tm.lane d.val l ↔ ne = false)) →
    ∃ t, exec (.waitv ne sc d m) s = .next t ∧ t.tm.pc = s.tm.finish.pc ∧ t.tm.waitv = none ∧ t.tm.s = s.tm.s ∧
      ∀ l pa, (l, pa) ∈ x.2.1 → t.tm.lane d.val l = word pa) ∧
  (∀ s a v, Issues (.await a v) s →
    let n := match v with | .s k => (s.tm.sread k.val).toNat % 2 ^ 16 | .imm k => k.val
    (((sget 0 s.tm.a a.val - BitVec.ofNat 16 n).toNat < 2 ^ 15 → ∃ t, exec (.await a v) s = .next t ∧ OnlyPlace s t ∧
      t.tm.pc = s.tm.finish.pc) ∧
    (2 ^ 15 ≤ (sget 0 s.tm.a a.val - BitVec.ofNat 16 n).toNat → s.tm.state = .ready →
      ∃ t, exec (.await a v) s = .next t ∧ t.tm.state = .parked ∧ t.tm.wait = .await a.val n ∧ t.tm.pc = s.tm.pc ∧
        t.mem = s.mem))) ∧
  (∀ s a v, Issues (.aset a v) s →
    let n := match v with | .s k => (s.tm.sread k.val).toNat % 2 ^ 16 | .imm k => k.val
    ∃ t, exec (.aset a v) s = .next t ∧ t.tm.pc = s.tm.finish.pc ∧ SameMachine s t ∧ SameOthers s t ∧
      t.tm.v = s.tm.v ∧ t.tm.s = s.tm.s ∧ t.tm.p = s.tm.p ∧ sget 0 t.tm.a a.val = BitVec.ofNat 16 n ∧
      ∀ b, b ≠ a.val → sget 0 t.tm.a b = sget 0 s.tm.a b)

namespace Sys2Proof.Statements

/-! ### Copies -/

/-- XFER of template n with flags f on channel chan of the team's core (R192 to R196, R198): into the queue, or, when it
is full, onto the deferred stores; with the release flag at a far scope, the core's dirty bytes are at home. -/
def Transfers (i : Instr) (chan : Fin 4) (n : State → Nat) (f : EFlags) : Prop :=
  ∀ s, Issues i s → dirtyHeld s s.tm.core = false → (f.rel = true → s.tm.awaitsRows = false ∧ s.tm.unread = false) →
    let k := chanKey s.tm.ctx s.tm.core chan.val
    let c := getChan s k
    let data : Word := BitVec.ofNat 32 (n s % 4096 + f.code * 4096)
    (c.queue.length < 16 → c.deferred = [] → ∃ t, exec i s = .next t ∧ t.tm.pc = s.tm.finish.pc ∧
      t.tm.s = s.tm.s ∧ (getChan t k).seq = c.seq + 1 ∧ (getChan t k).deferred = [] ∧
      ∃ q x, (getChan t k).queue = q ++ [x] ∧ q.length = c.queue.length ∧ (f.rel = false → q = c.queue ∧ t.mem = s.mem) ∧
        x.seq = c.seq + 1 ∧ x.order = s.nextRow ∧ x.ctx = s.tm.ctx ∧ x.uid = s.cur ∧ x.data = data ∧
        x.state = .queued) ∧
    (16 ≤ c.queue.length ∨ c.deferred ≠ [] → (∀ d ∈ s.tm.deferred, d.1 ≠ k) → ∃ t, exec i s = .next t ∧
      t.tm.pc = s.tm.finish.pc ∧ (getChan t k).deferred = c.deferred ++ [(s.cur, data, s.nextRow)] ∧
      (getChan t k).queue.length = c.queue.length ∧ t.tm.deferred = s.tm.deferred ++ [(k, data)]) ∧
    (16 ≤ c.queue.length ∨ c.deferred ≠ [] → (∃ d ∈ s.tm.deferred, d.1 = k) → s.tm.state = .ready →
      ∃ t, exec i s = .next t ∧ t.tm.state = .stalled ∧ t.tm.wait = .deferred k ∧ t.tm.pc = s.tm.pc ∧
        t.channels = s.channels)

end Sys2Proof.Statements

/-- R192 to R196, R198, R199, R420, R422: XFER enters the channel's queue with the next sequence number, or waits behind a
full one, or, a second time, stalls the team; XPTR's result is the channel's write pointer, and with the acquire flag it is
an observation that comes after an earlier one (R184 note 6), for which it waits (log entry 103, DEDUCED). -/
def Obligations.CopyWordsPostCommands : Prop :=
  (∀ chan tmpl f, Transfers (.xfer chan tmpl f) chan (fun _ => tmpl.val) f) ∧
  (∀ chan sr f, Transfers (.xferReg chan sr f) chan (fun s => (s.tm.sread sr.val).toNat) f) ∧
  (∀ s sd sa sc, Issues (.xptr sd sa true sc) s → s.tm.awaitsRows = true → s.tm.state = .ready →
    ∃ t, exec (.xptr sd sa true sc) s = .next t ∧ t.tm.state = .stalled ∧ t.tm.pc = s.tm.pc ∧ t.mem = s.mem ∧ t.l1 = s.l1) ∧
  (∀ s sd sa acq sc, Issues (.xptr sd sa acq sc) s → s.tm.only = none → s.tm.held = none →
    (acq = true → s.tm.awaitsRows = false) → ∃ t, exec (.xptr sd sa acq sc) s = .next t ∧ t.tm.pc = s.tm.finish.pc ∧ t.mem = s.mem ∧ t.channels = s.channels ∧
      (acq = true → sc ≠ .core → ∀ e ∈ l1Bytes t s.tm.core, e.2.dirty = true) ∧
      ∃ p ∈ t.tm.pending, p.kind = .status ∧ p.span = 0 ∧
        p.svals = [(sd.val, (getChan s (chanKey s.tm.ctx s.tm.core ((s.tm.sread sa.val).toNat % 4))).ptr)])

namespace Sys2Proof.Statements

/-- A row command of operation op is posted (R209, R210, R396): its operands are read, it goes to the end of the queue,
and the team counts it as outstanding. -/
def PostsRow (i : Instr) (op : RowOp) (d a : SReg) (srcs : List Nat) (c : SReg) (f : EFlags) : Prop :=
  ∀ s, Issues i s → dirtyHeld s s.tm.core = false → (f.rel = true → s.tm.awaitsRows = false ∧ s.tm.unread = false) →
    (s.rowQueue.filter fun r => r.core == s.tm.core && r.ctx == s.tm.ctx && !r.accepted).length < 16 →
    ∃ t r, exec i s = .next t ∧ t.tm.pc = s.tm.finish.pc ∧ t.tm.s = s.tm.s ∧ t.rowQueue = s.rowQueue ++ [r] ∧
      t.nextRow = s.nextRow + 1 ∧ t.tm.rowOut = s.tm.rowOut + 1 ∧ (f.rel = false → t.mem = s.mem) ∧
      r.id = s.nextRow ∧ r.uid = s.tm.uid ∧ r.ctx = s.tm.ctx ∧ r.core = s.tm.core ∧ r.op = op ∧
      r.dst = s.tm.sread d.val ∧ r.srcs = srcs.map s.tm.sread ∧ r.pattern = s.tm.sread a.val ∧
      r.control = s.tm.sread c.val ∧ r.flags = f ∧ r.accepted = false ∧ r.stopped = false ∧ r.bits = 0

end Sys2Proof.Statements

/-- R209, R210, R227, R396 to R399: the row words post their command; ROWSTAT's wait form leaves a result that is ready
once the team's commands so far have completed, and with the acquire flag acquires then (R176); its poll form leaves one
that says what has completed, and with the acquire flag acquires when nothing is outstanding; a wait that commits reports
the counts and the bits gathered (Table 11-5) and clears them. That the team's accesses, and a poll that acquires, wait for
a ROWSTAT that is to acquire is log entry 103 (DEDUCED). -/
def Obligations.RowWordsPostCommands : Prop :=
  (∀ d a c f,
    PostsRow (.rowcpy d a c f) .cpy d a [a.val] c f ∧ PostsRow (.rowfil d a c f) .fil d a [] c f ∧
    PostsRow (.rownot d a c f) .not d a [a.val] c f) ∧
  (∀ d a b c f,
    PostsRow (.rowand d a b c f) .and d a [a.val, b.val] c f ∧ PostsRow (.rowor d a b c f) .or d a [a.val, b.val] c f ∧
    PostsRow (.rowxor d a b c f) .xor d a [a.val, b.val] c f ∧
    PostsRow (.rowmaj d a b c f) .maj d a [a.val, b.val, b.val + 1] c f) ∧
  (∀ s sd acq sc, Issues (.rowstat sd acq sc) s → ∃ t, exec (.rowstat sd acq sc) s = .next t ∧
    t.tm.pc = s.tm.finish.pc ∧ t.mem = s.mem ∧ t.tm.s = s.tm.s ∧
    ∃ p ∈ t.tm.pending, p.kind = .rowWait sd.val s.nextRow (if acq then some sc else none) ∧ p.span = 0 ∧
      (p.arrived = true ↔ ∀ r ∈ s.rowQueue, r.uid = s.cur → s.nextRow ≤ r.id) ∧
      (acq = true → p.arrived = true → sc.far = true → ∀ e ∈ l1Bytes t s.tm.core, e.2.dirty = true) ∧
      (acq = true → p.arrived = false → t.tm.awaitsRows = true)) ∧
  (∀ s sd sc, Issues (.rowstatPoll sd true sc) s → s.tm.awaitsRows = true → s.tm.state = .ready →
    ∃ t, exec (.rowstatPoll sd true sc) s = .next t ∧ t.tm.state = .stalled ∧ t.tm.pc = s.tm.pc ∧ t.mem = s.mem ∧
      t.l1 = s.l1) ∧
  (∀ s sd acq sc, Issues (.rowstatPoll sd acq sc) s → s.tm.only = none → s.tm.held = none →
    (acq = true → s.tm.awaitsRows = false) →
    let x := s.tm.commitStats
    ∃ t, exec (.rowstatPoll sd acq sc) s = .next t ∧ t.tm.pc = s.tm.finish.pc ∧ t.mem = s.mem ∧
      t.tm.rowOut = s.tm.rowOut ∧ t.tm.rowDone = x.rowDone ∧ t.tm.rowBits = x.rowBits ∧
      (acq = true → sc.far = true → s.tm.rowOut = 0 → ∀ e ∈ l1Bytes t s.tm.core, e.2.dirty = true) ∧
      (acq = false ∨ sc.far = false ∨ s.tm.rowOut ≠ 0 → t.l1 = s.l1) ∧
      ((∀ p ∈ s.tm.pending, p.isRowWait = true → p.arrived = false) → x.rowDone = s.tm.rowDone ∧ x.rowBits = s.tm.rowBits) ∧
      ∃ p ∈ t.tm.pending, p.kind = .status ∧ p.span = 0 ∧ ∃ w, p.svals = [(sd.val, w)] ∧
        w.extractLsb' 48 16 = BitVec.ofNat 16 s.tm.rowOut ∧ w.extractLsb' 32 16 = BitVec.ofNat 16 x.rowDone ∧
        w.extractLsb' 0 8 = x.rowBits ∧ w.extractLsb' 8 24 = 0) ∧
  (∀ (x : Team) (p : Pending) (d upto : Nat) (acq : Option EScope), p.kind = .rowWait d upto acq → p.svals = [] →
    let y := x.commitOne p
    y.rowDone = 0 ∧ y.rowBits = 0 ∧ y.rowOut = x.rowOut ∧
      (sget 0 y.s d).extractLsb' 48 16 = BitVec.ofNat 16 x.rowOut ∧
      (sget 0 y.s d).extractLsb' 32 16 = BitVec.ofNat 16 x.rowDone ∧ (sget 0 y.s d).extractLsb' 0 8 = x.rowBits)

namespace Sys2Proof.Statements

/-- The head of a channel's queue after a step: command x, and the commands after it. -/
def HeadIs (t : State) (k : Nat) (rest : List CopyCmd) (p : CopyCmd → Prop) : Prop :=
  ∃ x q, (getChan t k).queue = x :: q ∧ q.map CopyCmd.seq = rest.map CopyCmd.seq ∧ p x

/-- The ready queue of a context holds the entry (R258). -/
def InReady (t : State) (ctx q : Nat) (p : ReadyEntry → Prop) : Prop := ∃ x ∈ (getReady t ctx q).entries, p x

/-- The exact sum of two elements. -/
def sumNum (x y : Num) : Num :=
  match x, y with
  | .nan, _ | _, .nan => .nan
  | .inf m, .inf n => if m = n then .inf m else .nan
  | .inf m, .fin _ _ | .fin _ _, .inf m => .inf m
  | .fin _ v, .fin _ w => .fin (decide (v + w < 0)) (v + w)

/-- R109: the block of scale x and elements r that two MXFP8 blocks of one element format come to. The scale is the least
that brings every finite sum within the largest finite element, 254 where none does. -/
def CombinesBlocks (fmt : MxFmt) (xa : Nat) (a : List Nat) (xb : Nat) (b : List Nat) (x : Nat) (r : List Nat) : Prop :=
  let f := elementFormat fmt
  let scaled := fun (n : Num) (k : Nat) => match n with | .fin m v => Num.fin m (v * 2 ^ ((k : ℤ) - 127)) | y => y
  let sums := (a.zip b).map fun e => sumNum (scaled (numOf f e.1) xa) (scaled (numOf f e.2) xb)
  let Within := fun k : Nat => ∀ n v, Num.fin n v ∈ sums → |v| ≤ magnitude f f.maxFin * 2 ^ ((k : ℤ) - 127)
  if xa = 255 ∨ xb = 255 then x = 255 ∧ r = a.map fun _ => 0
  else
    x ≤ 254 ∧ (∀ k, k < x → ¬Within k) ∧ (x < 254 → Within x) ∧ r.length = sums.length ∧
      ∀ (i : Nat) y c, sums[i]? = some y → r[i]? = some c →
        match y with
        | .nan => codeNan f c = true
        | .inf n => c = withSign f n (infinity f)
        | .fin n v =>
          (v = 0 → codeMag f c = 0) ∧
          (v ≠ 0 → ∃ k, Nearest f .rn n (|v| / 2 ^ ((x : ℤ) - 127)) k ∧
            c = withSign f n (if f.maxFin < k then (if fmt = .e4m3 then f.maxFin else infinity f) else k))

/-- R191: the bytes and the scale that a reduction makes of the destination unit d and the source unit x. -/
def ReducesTo (kind : Nat) (d : List Byte) (ds : Byte) (x : List Byte) (xs : Byte) (new : List Byte × Byte) : Prop :=
  (kind = 1 → new.1 = toBytes 4 (fAdd fmtF32 .rn (ofBytes d) (ofBytes x)).1) ∧
  (kind = 2 → new.1 = toBytes 2 (fAdd fmtBf16 .rn (ofBytes d) (ofBytes x)).1) ∧
  (kind = 3 ∨ kind = 4 → CombinesBlocks (if kind = 3 then .e4m3 else .e5m2) ds.toNat (d.map BitVec.toNat) xs.toNat
    (x.map BitVec.toNat) new.2.toNat (new.1.map BitVec.toNat))

/-- The parts of a unit that are in memory hold some bytes; one in the fabric window is its target's. -/
def Lies (t : State) (p : Place) (bs : List Byte) : Prop :=
  match p with
  | .mem pas => ∀ (i : Nat) a b, pas[i]? = some a → bs[i]? = some b → memGet t a = b
  | .remote _ => True

/-- The addresses of a part in memory. -/
def placed : Place → List Nat
  | .mem pas => pas
  | .remote _ => []

/-- The two parts of a unit of record r: its elements at the index e, and where the record has a block format its scale
byte (R188); the elements' part has number n and asks the fabric op, the scale's op'. -/
def PartsOf (s : State) (k core chan : Nat) (c : CopyCmd) (r : TRec) (e n : Nat) (reads writes : Bool) (op : FabOp)
    (op' : Option FabOp) (p q : Place) (t : State) : Prop :=
  ∃ s1, partAt s k core chan c n (unitAddr r e) (unitBytes (recFmt r)) reads writes op = (.ok p, s1) ∧
    match scaleAddr r e, op' with
    | some a, some o => partAt s1 k core chan c (n + 1) a 1 reads writes o = (.ok q, t)
    | _, _ => q = .remote [] ∧ t = s1

/-- R200: the status with which a command completes. -/
def ClosureStatus (s : State) (c : CopyCmd) (status : Nat) : Prop :=
  let h := tClosure c.tmpl
  (c.status ≠ 0 ∨ h = 0 → status = c.status) ∧
  (c.status = 0 → h ≠ 0 →
    (∀ x, checkHandle s c.ctx h = .error x → status = 5) ∧
    ∀ e, checkHandle s c.ctx h = .ok e → status =
      if 65535 ≤ e.count then 6
      else if 4096 ≤ postedCount (getReady s c.ctx (c.tmpl.extractLsb' 26 4).toNat) then 7 else 0)

/-- The head is freed; where the command names a closure and has status 0, the closure is posted with one more reference,
and else nothing is. s1 is the state that the stamp's check leaves. -/
def Closes (s1 t : State) (k : Nat) (c : CopyCmd) (rest : List CopyCmd) (status : Nat) : Prop :=
  let h := tClosure c.tmpl
  let q := (c.tmpl.extractLsb' 26 4).toNat
  let cfg : DWord := if tCloseCfg c.tmpl = 0 then BitVec.ofNat 64 (6 * 2 ^ 14 + q)
    else BitVec.ofNat 64 ((tCloseCfg c.tmpl).toNat / 16 * 16 + q)
  (getChan t k).queue.map CopyCmd.seq = rest.map CopyCmd.seq ∧
  (status ≠ 0 ∨ h = 0 → t.envs = s1.envs ∧ t.ctxs = s1.ctxs) ∧
  (status = 0 → h ≠ 0 → ∀ e, liveEnv s1 h = some e → liveEnv t h = some { e with count := e.count + 1 } ∧
    InReady t c.ctx q fun x => ∃ seq, x = .closure h cfg (cfg.toNat / 2 ^ 21 % 256) seq)

end Sys2Proof.Statements

/-- R109, R188, R190, R191, R194 to R198, R200, R202, R297: the steps of a copy channel. The head's template is read and the
command runs, or acquires first, or stops with status 1; a condition that has compared, with no earlier release outstanding
that its acquire names, lets it run; a unit moves its bytes, and the scale byte of a block format, or reduces them into the
destination, and the write pointer moves; a part in the fabric window is a request, and then its answer; a completion
checks its closure, writes its stamp, posts the closure and frees the entry; a deferred store enters the queue; a team that
a full channel stalls while its head acquires takes the channel-stall trap. -/
def Obligations.CopyStepsMoveUnits : Prop :=
  (∀ kind d ds x xs, (kind = 1 → d.length = 4 ∧ x.length = 4) → (kind = 2 → d.length = 2 ∧ x.length = 2) →
    (kind = 3 ∨ kind = 4 → d.length = 32 ∧ x.length = 32) → ReducesTo kind d ds x xs (combine kind d ds x xs)) ∧
  (∀ s core chan k c rest ctx, headCmd s core chan = some (k, c) → (getChan s k).queue = c :: rest → c.state = .queued →
    getCtx s c.ctx = ctx →
    (sfind ctx.templates (c.data.toNat % 4096) = none → ∃ t, exec (.copyHead core chan) s = .next t ∧
      HeadIs t k rest fun x => x.state = .completing ∧ x.status = 1) ∧
    (∀ t0 a b, sfind ctx.templates (c.data.toNat % 4096) = some t0 →
      let tm := withOverride t0 c.data
      sfind ctx.tensors (tm.toNat % 256) = some a → sfind ctx.tensors (tm.toNat / 256 % 256) = some b →
      templateOk c.data tm a b = true → ∃ t, exec (.copyHead core chan) s = .next t ∧ t.mem = s.mem ∧
        (getChan t k).ptr = BitVec.ofNat 64 (c.seq.toNat % 2 ^ 24 * 2 ^ 40) ∧
        HeadIs t k rest fun x => x.tmpl = tm ∧ x.srcRec = a ∧ x.dstRec = b ∧ x.unit = c.unit ∧
          x.state = if tm.getLsbD 23 || tm.getLsbD 24 then .acquiring else .running)) ∧
  (∀ s core chan k c rest, headCmd s core chan = some (k, c) → (getChan s k).queue = c :: rest → c.state = .acquiring →
    c.acquireWaits s = false → c.tmpl.getLsbD 24 = false ∨ c.met = true → ∃ t, exec (.copyConditionMet core chan) s = .next t ∧
      HeadIs t k rest fun x => x = { c with state := .running }) ∧
  (∀ s k core chan c part va n reads writes op,
    let x := engineCheck s core [.ahead] c.ctx va n reads writes
    let y := partAt s k core chan c part va n reads writes op
    (∀ pas s1, x = (.ok pas, s1) → y = (.ok (.mem pas), s1)) ∧
    (∀ s1, x = (.fatal, s1) → y = (.stop 3, s1)) ∧
    (∀ idx s1, x = (.race idx, s1) → y = (.race idx, s1)) ∧
    (∀ target off s1 q rest, x = (.fabric target off, s1) → (getChan s1 k).queue = q :: rest →
      (∀ f, q.fab.find? (fun f => f.lane == part) = some f →
        (f.reply = none → y = (.wait, s1)) ∧ (∀ bs, f.reply = some (.data bs) → y = (.ok (.remote bs), s1)) ∧
        (f.reply = some .fail → y = (.stop 3, s1)) ∧ (f.reply = some .outside → y = (.stop 1, s1)) ∧
        (∀ i, f.reply = some (.race i) → y = (.race i, s1))) ∧
      (q.fab.find? (fun f => f.lane == part) = none →
        (s1.boot.stage ≠ 2 → y = (.stop 3, s1)) ∧
        (s1.boot.stage = 2 → y.1 = .wait ∧ y.2.mem = s1.mem ∧
          let seq := sget 0 s1.fabric.nextSeq target
          y.2.fabric.outstanding = s1.fabric.outstanding ++ [⟨target, seq, .copy core chan q.ctx, op, off, 0⟩] ∧
          (getChan y.2 k).queue = { q with fab := q.fab ++ [⟨part, target, seq, none⟩] } :: rest)))) ∧
  (∀ s core chan k c rest, headCmd s core chan = some (k, c) → (getChan s k).queue = c :: rest → c.state = .running →
    let es := tSrc c.tmpl c.unit
    let ed := tDst c.tmpl c.unit
    let kind := tReduce c.tmpl
    (es < 0 ∨ (recSize c.srcRec : ℤ) ≤ es ∨ ed < 0 ∨ (recSize c.dstRec : ℤ) ≤ ed → ∃ t,
      exec (.copyUnit core chan) s = .next t ∧ t.mem = s.mem ∧ HeadIs t k rest fun x => x.state = .completing ∧ x.status = 2) ∧
    (∀ p q p' q' s1 s2, 0 ≤ es → es < recSize c.srcRec → 0 ≤ ed → ed < recSize c.dstRec →
      PartsOf s k core chan c c.srcRec es.toNat 0 true false (.load (unitBytes (recFmt c.srcRec))) (some (.load 1)) p q s1 →
      let away := inFabric (unitAddr c.dstRec ed.toNat) = true
      let xs := p.read s1
      let sc := (q.read s1).headD 0
      let op := if kind = 0 then FabOp.store xs
        else .reduce kind xs ((scaleAddr c.dstRec ed.toNat).map fun a => (a.toNat % 2 ^ 36, sc))
      PartsOf s1 k core chan c c.dstRec ed.toNat 2 (kind != 0) true op
        (if kind ≠ 0 ∧ away then none else some (.store (q.read s1))) p' q' s2 →
      (placed p').Nodup → (∀ a ∈ placed q', a ∉ placed p') → ∃ t new, exec (.copyUnit core chan) s = .next t ∧
        (if kind = 0 ∨ away then new = (xs, sc) else new = combine kind (p'.read s2) ((q'.read s2).headD 0) xs sc) ∧
        Lies t p' new.1 ∧ Lies t q' [new.2] ∧ (∀ a, a ∉ placed p' → a ∉ placed q' → memGet t a = memGet s2 a) ∧
        (getChan t k).ptr = pointer c.seq (c.unit + 1) (tUnits c.tmpl) ∧
        HeadIs t k rest fun x => x.unit = c.unit + 1 ∧ x.fab = [] ∧
          x.state = if tUnits c.tmpl ≤ c.unit + 1 then .completing else .running)) ∧
  (∀ s core chan k c rest, headCmd s core chan = some (k, c) → (getChan s k).queue = c :: rest →
    c.state = .completing → ∃ status, ClosureStatus s c status ∧
    (tStamp c.tmpl = 0 ∨ (tStamp c.tmpl).toNat % 8 ≠ 0 → ∃ t, exec (.copyCompletion core chan) s = .next t ∧
      t.mem = s.mem ∧ Closes s t k c rest status) ∧
    (∀ pas s1, tStamp c.tmpl ≠ 0 → (tStamp c.tmpl).toNat % 8 = 0 →
      engineCheck s core [.ahead] c.ctx (tStamp c.tmpl) 8 false true = (.ok pas, s1) → pas.Nodup → pas.length = 8 →
      ∃ t, exec (.copyCompletion core chan) s = .next t ∧ Closes s1 t k c rest status ∧
        (∀ i a : Nat, pas[i]? = some a →
          memGet t a = BitVec.ofNat 8 ((c.seq.toNat + status * 2 ^ 48) / 2 ^ (8 * i))) ∧
        ∀ a, a ∉ pas → memGet t a = memGet s1 a)) ∧
  (∀ s core chan k u data order rest, liveKey s core chan = some k → chan < 4 →
    (getChan s k).deferred = (u, data, order) :: rest →
    (getChan s k).queue.length < 16 → ∃ t, exec (.deferredStoreEntry core chan) s = .next t ∧ t.mem = s.mem ∧
      (getChan t k).deferred = rest ∧ (getChan t k).seq = (getChan s k).seq + 1 ∧
      ∃ x, (getChan t k).queue = (getChan s k).queue ++ [x] ∧ x.uid = u ∧ x.data = data ∧ x.order = order ∧
        x.state = .queued ∧ x.seq = (getChan s k).seq + 1) ∧
  (∀ s uid k c rest, (s.getTeam uid).wait = .deferred k → (s.getTeam uid).state = .stalled →
    (getChan s k).queue = c :: rest → c.state = .acquiring → ctxOn s (s.getTeam uid).core (s.getTeam uid).ctx = true →
    (s.getTeam uid).unfin = 0 → CanTrap { s with cur := uid } →
    ∃ t, exec (.channelStallTimeout uid) s = .next t ∧
      Trapped { s with cur := uid } { t with cur := uid } 0x0F 0 0 (s.getTeam uid).pc)

namespace Sys2Proof.Statements

/-- The row that R210 gives for the sources' rows. -/
def rowResult (op : RowOp) (pattern : DWord) (rows : List Row) : Row :=
  let x := rows.headD 0
  match op with
  | .cpy => x
  | .fil => BitVec.ofNat 8192 (ofBytes ((List.range 128).flatMap fun _ => toBytes 8 pattern.toNat))
  | .not => ~~~x
  | .and => rows.tail.foldl (· &&& ·) x
  | .or => rows.tail.foldl (· ||| ·) x
  | .xor => rows.tail.foldl (· ^^^ ·) x
  | .maj =>
    let y := (rows[1]?).getD 0
    let z := (rows[2]?).getD 0
    (x &&& y) ||| (y &&& z) ||| (x &&& z)

end Sys2Proof.Statements

/-- Table 11-4, R210, R215: run from compute rows of any contents, the microprogram of every operation leaves at the
destination unit the operation over its source units, bit for bit, and no other byte of memory changed. -/
def Obligations.MicroprogramsComputeTheOperation : Prop :=
  ∀ (s : State) (r : RowCmd) (unit : Nat) (u : RowUnit) (g : Seg) (n : Nat),
    r.dstPa[unit]? = some g → g.len = 1024 →
    (r.op = .and ∨ r.op = .or ∨ r.op = .xor → 1 ≤ n) →
    let rows := (List.range (match r.op with | .cpy | .not => 1 | .fil => 0 | .maj => 3 | _ => n)).map
      fun k => readRow s r unit u (.src k)
    let x := (microprogram r.op r.pattern n).foldl (fun x m => microStep x.1 r unit x.2 m) (s, u)
    BitVec.ofNat 8192 (memRead x.1 g.pa 1024) = rowResult r.op r.pattern rows ∧
      ∀ a, ¬(g.pa ≤ a ∧ a < g.pa + 1024) → memGet x.1 a = memGet s a

/-- R211 to R217, R219, R220, R222, R226, R227: the steps of the row engine. The command at the head of its core's queue
is translated and then accepted at one slice after the other, an invalid one stops with its bit; before it begins it waits
for entered bundles and stops on a race with any source; a pre-step readies its unit, which starts once the write-backs
are in memory, with the path chosen; a step of the microprogram or a fallback unit has its effect; a completion leaves the
queue and reaches the team's counts; a bank serves the accesses to a row, none of which is held for its capture, and
refreshes; the capture window ends, its lines written back. That the race check covers every source before the command
begins, and when it may begin, are log entry 102's (DESIGN CHOICE). -/
def Obligations.RowStepsRunTheCommands : Prop :=
  (∀ s core r, rowHead s core = some r → findRow s r.id = some r → (sget 0 s.dbg.engStop core).getLsbD 8 = false →
    (r.bad = true → ∃ t x, exec (.rowCommandAccept core) s = .next t ∧ findRow t r.id = some x ∧ x.stopped = true ∧
      x.accepted = true ∧ x.bits = r.bits ||| 2 ∧ t.mem = s.mem) ∧
    (∀ ds ss s1 s2 b1 b2, r.bad = false → r.dstPa = [] →
      translateUnits s core r.ctx r.id .write r.width r.dst = (some ds, b1, s1) →
      translateSources s1 core r.ctx r.id r.width r.sources = (some ss, b2, s2) →
      let q := { r with dstPa := ds, srcPa := ss }
      ∃ t, exec (.rowCommandAccept core) s = .next t ∧ t.mem = s2.mem ∧
        findRow t r.id = some { q with toAccept := q.slices s2 }) ∧
    (∀ n rest, r.bad = false → r.dstPa ≠ [] → r.toAccept = n :: rest →
      (sliceFree s n = false → exec (.rowCommandAccept core) s = .next s) ∧
      (sliceFree s n = true → s.pools = [] → ∃ t, exec (.rowCommandAccept core) s = .next t ∧ t.mem = s.mem ∧
        findRow t r.id = some { r with
          toAccept := rest, places := r.places ++ [(n, s.nextPlace)], accepted := r.accepted || rest.isEmpty }))) ∧
  (∀ s cmd unit r g, findRow s cmd = some r → r.dstPa[unit]? = some g → r.accepted = true → r.toAccept = [] →
    r.stopped = false → sfind r.units unit = none → prestepWaits s r = false → unitHot s (r.segs unit) = false →
    (r.begun = false → r.dstEntered s = true → ∃ t, exec (.rowPrestep cmd unit) s = .next t ∧ t.mem = s.mem ∧
      findRow t cmd = some { r with bits := r.bits ||| 16 }) ∧
    (∀ idx, r.begun = false → r.dstEntered s = false → r.sourceRace s = some idx →
      ∃ t x, exec (.rowPrestep cmd unit) s = .next t ∧ t.mem = s.mem ∧ findRow t cmd = some x ∧ x.stopped = true ∧
        x.bits = r.bits ||| 8 ∧ ∀ tm, sfind s.teams r.uid = some tm →
          (t.getTeam r.uid).racePending = true ∧ (t.getTeam r.uid).raceIndex = idx) ∧
    (s.pools = [] → ∃ t x, exec (.rowPrestep cmd unit) s = .next t ∧ findRow t cmd = some x ∧ x.path = r.path ∧
      x.stopped = false ∧ x.bits = r.bits ∧ x.begun = true ∧
      (sfind x.units unit).map RowUnit.started = some false ∧ (sfind x.units unit).map RowUnit.finished = some false)) ∧
  (∀ s cmd unit r u g, findRow s cmd = some r → sfind r.units unit = some u → r.dstPa[unit]? = some g →
    r.stopped = false → u.started = false → u.finished = false →
    (writesWait s (r.segs unit) = true → exec (.rowStep cmd unit) s = .next s) ∧
    (writesWait s (r.segs unit) = false → ∃ t x, exec (.rowStep cmd unit) s = .next t ∧ t.mem = s.mem ∧
      findRow t cmd = some x ∧ sfind x.units unit = some { u with started := true } ∧
      (r.path ≠ .undecided → x.path = r.path ∧ x.stopped = false ∧ x.bits = r.bits) ∧
      (r.path = .undecided →
        (r.eligible s = true → x.path = .dram ∧ x.stopped = false ∧ x.bits = r.bits) ∧
        (r.eligible s = false → r.nofb = true → x.stopped = true ∧ x.bits = r.bits ||| 32) ∧
        (r.eligible s = false → r.nofb = false → x.path = .fallback ∧ x.stopped = false ∧ x.bits = r.bits)))) ∧
  (∀ s cmd unit r u g m, findRow s cmd = some r → sfind r.units unit = some u → r.dstPa[unit]? = some g →
    (microprogram r.op r.pattern r.sources.length)[u.step]? = some m → r.stopped = false → r.path = .dram →
    u.started = true → u.finished = false → mayStep s r unit g = true →
    (∀ row, readsRow r unit m = some row → ∀ ln ∈ rowLines row,
      isBad s (ln * 256) = false ∧ engineRace s false ln = none) →
    ∃ t, exec (.rowStep cmd unit) s = .next t ∧
      t.mem = (microStep s r unit u m).1.mem ∧ ∃ x, findRow t cmd = some x ∧
      sfind x.units unit = some { (microStep s r unit u m).2 with
        step := u.step + 1, finished := (microprogram r.op r.pattern r.sources.length).length ≤ u.step + 1 }) ∧
  (∀ s cmd r u g, findRow s cmd = some r → sfind r.units r.fallbackNext = some u → r.dstPa[r.fallbackNext]? = some g →
    r.stopped = false → r.path = .fallback → u.started = true → ctxOn s r.core r.ctx = true →
    (sget 0 s.dbg.engStop r.core).getLsbD 8 = false → g.bytes.Nodup →
    let srcs := r.srcPa.filterMap fun l => l[r.fallbackNext]?
    let b := srcs.foldl (fun s g => homeFetchAll (viewSeg s g) false g.bytes) s
    readRace s srcs = none → fallbackStop s srcs = none → ∃ t, exec (.rowFallbackUnit cmd) s = .next t ∧
      (∀ i, i < 1024 → (rowBytes r.op r.pattern (srcs.map fun g => g.bytes.map (memGet b)))[i]? =
        some (memGet t (g.addr i))) ∧
      (∀ a, a ∉ g.bytes → memGet t a = memGet (viewSeg b g) a) ∧
      ((∀ line, lineKey s line = 0) → (∀ q ∈ g :: srcs, q.key = 0 ∧ q.nextKey = 0) →
        ∀ a, memGet b a = memGet s a ∧ memGet (viewSeg b g) a = memGet s a) ∧
      ∃ x, findRow t cmd = some x ∧ x.fallbackNext = r.fallbackNext + 1 ∧
        (sfind x.units r.fallbackNext).map RowUnit.finished = some true) ∧
  (∀ s cmd r, findRow s cmd = some r → r.done = true → (sfind s.teams r.uid).isSome = true → s.teams.all (fun e =>
      match e.2.wait with | .barArrive _ _ => false | _ => true) = true →
    ∃ t, exec (.rowCommandComplete cmd) s = .next t ∧ t.mem = s.mem ∧
      t.rowQueue = s.rowQueue.filter (fun q => q.id != cmd) ∧
      (t.getTeam r.uid).rowOut = (s.getTeam r.uid).rowOut - 1 ∧
      (t.getTeam r.uid).rowDone = min 65535 ((s.getTeam r.uid).rowDone + 1) ∧
      (t.getTeam r.uid).rowBits = (s.getTeam r.uid).rowBits |||
        (if r.path = .fallback ∧ r.stopped = false then r.bits ||| 64 else r.bits)) ∧
  (∀ s bank row served, servedBy (microAt s bank) (bankWork s bank) = some (row, served) →
    s.stackStopped.getLsbD (bank / 16 / 256 % 8) = false ∨ s.captured.contains row = true →
    rowWaits s row = false ∧ ∃ t, exec (.bankActivation bank) s = .next t ∧ t.mem = s.mem ∧
      (getBank t bank).pendingAcc = unserved (getBank s bank).pendingAcc served ∧
      (getBank t bank).window = unserved (getBank s bank).window served ∧
      (getBank t bank).refreshOwed = (if served.any (·.urgent) ∧ (getBank s bank).refreshOwed < 8
        then (getBank s bank).refreshOwed else 0) ∧
      sget 0 t.rowActs row = sget 0 s.rowActs row + if s.captured.contains row then 0 else 1) ∧
  (∀ s bank, ∃ t, exec (.bankRefresh bank) s = .next t ∧ t.mem = s.mem ∧
    (getBank t bank).pendingAcc = (getBank s bank).pendingAcc ∧
    ((getBank t bank).refreshOwed = 0 ∨
      ((getBank t bank).refreshOwed = (getBank s bank).refreshOwed + 1 ∧ (getBank s bank).refreshOwed < 8 ∧
        (microAt s bank = true ∨ ∃ a ∈ (getBank s bank).pendingAcc, a.urgent = true)))) ∧
  (∀ s, ∃ t, exec .captureWindowEnd s = .next t ∧ t.mem = s.mem ∧ t.captured = [] ∧ t.rowActs = [] ∧
    ∀ row ∈ s.captured, ∀ ln ∈ rowLines row, portDown s (ln * 256) = false → (l2Get t ln).dirty = 0)

namespace Sys2Proof.Statements

/-! ### Closures and tasks -/

/-- The word leaves status v in scalar n, no other scalar and no k register changed, and the team after it. -/
def StatusIs (s t : State) (n : SReg) (v : DWord) : Prop :=
  t.tm.pc = s.tm.finish.pc ∧ sget 0 t.tm.s n.val = v ∧ (∀ m, m ≠ n.val → sget 0 t.tm.s m = sget 0 s.tm.s m) ∧
    t.tm.k = s.tm.k ∧ t.tm.p = s.tm.p

/-- The environment at a slot of a core. -/
def envAt (s : State) (core slot : Nat) : Option Env := sfind s.envs (core * 4096 + slot)

/-- The team and the generations of its core are such that handles keep their fields apart (Table 13-1). -/
def HandleFields (s : State) : Prop := s.tm.core < 512 ∧ s.tm.ctx < 4096 ∧ ∀ k, slotGen s k < 65536

/-- The fields of a handle (Table 13-1). -/
def Names (h : DWord) (gen core slot ctx : Nat) : Prop :=
  h.toNat / 2 ^ 48 = gen ∧ h.toNat / 2 ^ 39 % 512 = core ∧ h.toNat / 2 ^ 27 % 4096 = slot ∧
    h.toNat / 2 ^ 15 % 4096 = ctx ∧ h.toNat % 2 ^ 15 = 0

/-- Captured scalars (R243): the low, then the high half of each, ascending. -/
def capturedScalars (s : State) (map : DWord) : List Word :=
  ((List.range 16).filter fun i => map.getLsbD i).flatMap fun i =>
    [(s.tm.sread i).setWidth 32, (s.tm.sread i).extractLsb' 32 32]

/-- The environment that CAPT makes (R243, R246, Table 13-2). -/
def Made (s : State) (e : Env) (entry map : DWord) (ref : Bool) (words : List Word) : Prop :=
  e.state = .live ∧ e.entry = entry ∧ e.ctx = s.tm.ctx ∧ e.count = 1 ∧ e.ref = ref ∧ e.words = words ∧
    e.slots = max 1 ((words.length + 11) / 12) ∧ e.vcount = map.toNat / 2 ^ 23 % 8 ∧ e.vbase = map.toNat / 2 ^ 16 % 128 ∧
    e.smask = BitVec.ofNat 16 map.toNat

/-- R246's checks on the capture map and the entry address: none of them traps. -/
def CaptureFits (s : State) (map entry : DWord) (ref lane : Bool) : Prop :=
  let n := map.toNat / 2 ^ 23 % 8
  let room := s.tm.nreg - s.tm.frame
  map.toNat < 2 ^ 33 ∧ n ≤ 4 ∧ ¬(ref = true ∧ lane = true) ∧ (ref = false → lane = false → n = 0) ∧
    canonical entry = true ∧ entry.toNat % 4 = 0 ∧ (n ≠ 0 → map.toNat / 2 ^ 16 % 128 + n ≤ room) ∧
    (lane = true → map.toNat / 2 ^ 26 % 128 % 2 = 0 ∧ map.toNat / 2 ^ 26 % 128 + 2 ≤ room)

/-- The handle of a new environment at slot a of the team's core; where the fields keep their ranges they are those of
Table 13-1. -/
def NewHandle (s : State) (h : DWord) (a : Nat) : Prop :=
  h = mkHandle (slotGen s (envKey s.tm.core a)) s.tm.core a s.tm.ctx ∧
    (HandleFields s → a < 4096 → Names h (slotGen s (envKey s.tm.core a)) s.tm.core a s.tm.ctx)

/-- Slots a to a + n - 1 of a store are free of the runs in it, each with its first slot and its length (R242). -/
def FreeRun (taken : List (Nat × Nat)) (n a : Nat) : Prop := a + n ≤ 4096 ∧ ∀ e ∈ taken, e.1 + e.2 ≤ a ∨ a + n ≤ e.1

/-- a is the lowest free run of n slots; none where there is none. -/
def LowestFree (taken : List (Nat × Nat)) (n : Nat) (a : Option Nat) : Prop :=
  (∀ x, a = some x → FreeRun taken n x ∧ ∀ y, y < x → ¬FreeRun taken n y) ∧ (a = none → ∀ y, ¬FreeRun taken n y)

/-- The runs of a core's environments. -/
def takenRuns (s : State) (core : Nat) : List (Nat × Nat) := (coreEnvs s core).map fun e => (e.1, e.2.slots)

/-- CAPT or CAPT.ref completes: a new environment in the lowest free run of slots and its handle in kd; 0 where no run is
free. No byte of memory and no other register changes. -/
def Captures (i : Instr) (kd : KReg) (se sm : SReg) (ref : Bool) (refs : State → DWord → List Word) : Prop :=
  ∀ s, Issues i s →
    let map := s.tm.sread sm.val
    let entry := s.tm.sread se.val
    let words := capturedScalars s map ++ refs s map
    let size := max 1 ((words.length + 11) / 12)
    let old := s.tm.kread kd.val
    CaptureFits s map entry ref false → s.tm.mustCommit [] (maskRegs (BitVec.ofNat 16 map.toNat)) none = 0 →
    ∃ t, exec i s = .next t ∧ t.tm.pc = s.tm.finish.pc ∧ t.mem = s.mem ∧ t.tm.s = s.tm.s ∧ t.tm.v = s.tm.v ∧
      (∀ k, k ≠ kd.val → sget 0 t.tm.k k = sget 0 s.tm.k k) ∧
      ∃ run, LowestFree (takenRuns s s.tm.core) size run ∧
      (run = none → sget 0 t.tm.k kd.val = 0 ∧ (old = 0 → t.envs = s.envs)) ∧
      ∀ a, run = some a → NewHandle s (sget 0 t.tm.k kd.val) a ∧
        (old = 0 ∨ envKey (hCore old) (hSlot old) ≠ envKey s.tm.core a →
          ∃ e, envAt t s.tm.core a = some e ∧ Made s e entry map ref words)

end Sys2Proof.Statements

/-- R243, R245, R246, R347: CAPT, CAPT.ref and CAPT.lane complete wherever R246's checks do not trap: they make
environments with what they capture, count 1, and deliver their handles, 0 exactly where no run of slots is free. CAPT.lane
gives the active lanes, ascending, each the lowest run that the lanes before it have left. -/
def Obligations.CaptureWordsMakeEnvironments : Prop :=
  (∀ kd se sm, Captures (.capt kd se sm) kd se sm false fun _ _ => []) ∧
  (∀ kd se sm, Captures (.captRef kd se sm) kd se sm true fun s map =>
    (List.range (map.toNat / 2 ^ 23 % 8)).flatMap fun k =>
      [BitVec.ofNat 32 ((s.tm.frame + map.toNat / 2 ^ 16 % 128 + k) % 2 ^ 16 + s.tm.tag % 2 ^ 16 * 2 ^ 16),
       BitVec.ofNat 32 (s.tm.callDepth % 2 ^ 16)]) ∧
  (∀ s se sm, Issues (.captLane se sm) s →
    let map := s.tm.sread sm.val
    let entry := s.tm.sread se.val
    let hd := map.toNat / 2 ^ 26 % 128
    let vbase := map.toNat / 2 ^ 16 % 128
    let n := map.toNat / 2 ^ 23 % 8
    let touched := [s.tm.frame + hd, s.tm.frame + hd + 1] ++ (List.range n).map fun k => s.tm.frame + vbase + k
    let size := max 1 (((capturedScalars s map).length + n + 11) / 12)
    CaptureFits s map entry false true →
    s.tm.mustCommit touched (maskRegs (BitVec.ofNat 16 map.toNat)) none = 0 →
    ∃ t, exec (.captLane se sm) s = .next t ∧ t.tm.pc = s.tm.finish.pc ∧ t.mem = s.mem ∧ t.tm.s = s.tm.s ∧
      OtherVectors hd 2 s.tm t.tm ∧ (∀ l, l < 1024 → l ∉ activeLanes s → t.tm.lane64 hd l = s.tm.lane64 hd l) ∧
      ∃ runs : List (Option Nat), runs.length = (activeLanes s).length ∧
        ∀ (i : Nat) l a, (activeLanes s)[i]? = some l → runs[i]? = some a →
          LowestFree (takenRuns s s.tm.core ++ ((runs.take i).filterMap id).map fun x => (x, size)) size a ∧
          (a = none → t.tm.lane64 hd l = 0) ∧
          ∀ x, a = some x → NewHandle s (t.tm.lane64 hd l) x ∧ ∃ e, envAt t s.tm.core x = some e ∧
            Made s e entry map false (capturedScalars s map ++
              (List.range n).map fun k => s.tm.lane (vbase + k) l))

namespace Sys2Proof.Statements

/-- The handle may be applied by the team as it stands (R247): it names a live environment, the frame argument fits, so do
the vector captures, by-reference captures resolve, and a frame can be pushed. -/
def Applicable (s : State) (h : DWord) (e : Env) : Prop :=
  checkHandle s s.tm.ctx h = .ok e ∧ FrameFits s ∧ CanPush s ∧
    s.tm.frame + frameShift s + e.vbase + e.vcount ≤ s.tm.nreg ∧
    (e.ref = true → resolveRef s s.tm.core h e = .ok ())

/-- The team runs the closure (R247): at its entry, with the frame shifted, the captured scalars and, in the lanes given,
the captured vectors in place. -/
def RunsClosure (s t : State) (e : Env) (lanes : Nat → Prop) : Prop :=
  t.tm.pc = e.entry ∧ t.tm.clause = none ∧ t.tm.frame = s.tm.frame + frameShift s ∧ t.mem = s.mem ∧
    (∀ r i, (maskRegs e.smask)[i]? = some r → sget 0 t.tm.s r = e.scalar i) ∧
    (∀ r, e.smask.getLsbD r = false → sget 0 t.tm.s r = sget 0 s.tm.s r) ∧
    (∀ k l, k < e.vcount → lanes l → l < 1024 → t.tm.lane (e.vbase + k) l = captured s s.tm e k l)

end Sys2Proof.Statements

/-- R67, R247 to R249: APPLY enters the closure with a frame that returns to the next word; APPLY.lane starts with the
lanes that share the handle of the lowest active lane. -/
def Obligations.ApplyWordsEnterTheClosure : Prop :=
  (∀ s kd e, Issues (.apply kd) s → s.tm.pending = [] → Applicable s (s.tm.kread kd.val) e →
    ∃ t, exec (.apply kd) s = .next t ∧ RunsClosure s t e (fun l => l ∈ activeLanes s) ∧ t.tm.active = s.tm.active ∧
      Pushed s t ⟨s.tm.pc + 4, s.tm.frame, s.tm.maskStack.length, s.tm.wordsLeft.1, s.tm.wordsLeft.2⟩) ∧
  (∀ s vh c l0 rest e, Issues (.applyLane vh) s → s.tm.apply = none → s.tm.clause = some c → s.tm.pending = [] →
    s.tm.active &&& s.tm.full = s.tm.active → activeLanes s = l0 :: rest →
    (∀ l ∈ activeLanes s, s.tm.lane64 vh.val l ≠ 0 ∧ hCtx (s.tm.lane64 vh.val l) = s.tm.ctx) →
    Applicable s (s.tm.lane64 vh.val l0) e →
    let same := fun l => l ∈ activeLanes s ∧ s.tm.lane64 vh.val l = s.tm.lane64 vh.val l0
    ∃ t a, exec (.applyLane vh) s = .next t ∧ RunsClosure s t e same ∧
      (∀ l, l < 1024 → (t.tm.active.getLsbD l = true ↔ same l)) ∧ t.tm.apply = some a ∧ a.running = true ∧
      a.handle = s.tm.lane64 vh.val l0 ∧ a.orig = s.tm.active ∧
      t.tm.callHw.head? = some ⟨c.base + BitVec.ofNat 64 (4 * c.idx), s.tm.frame, s.tm.maskStack.length,
        c.words.length - c.idx, c.cls⟩)

namespace Sys2Proof.Statements

/-- Register kd holds handle h, the other k registers and every scalar are as they were, and the team goes on. -/
def HoldsHandle (s t : State) (kd : KReg) (h : DWord) : Prop :=
  t.tm.pc = s.tm.finish.pc ∧ sget 0 t.tm.k kd.val = h ∧ (∀ k, k ≠ kd.val → sget 0 t.tm.k k = sget 0 s.tm.k k) ∧
    t.tm.s = s.tm.s

end Sys2Proof.Statements

/-- R250, R251, R361 to R363, R375, Table 13-6: KDUP and KLD complete with a null handle, or one that passes its checks and
below the count limit, and take one more reference; KDROP completes in every state, gives one up and frees the environment
with its last one; KST completes where its access meets no fault, writes the handle and counts nothing; KQRY reports. -/
def Obligations.HandleWordsCountReferences : Prop :=
  (∀ s kd ks, Issues (.kdup kd ks) s →
    let old := s.tm.kread kd.val
    let h := s.tm.kread ks.val
    (h = 0 ∨ ∃ e, checkHandle s s.tm.ctx h = .ok e ∧ e.count < 65535) →
    ∃ t, exec (.kdup kd ks) s = .next t ∧ HoldsHandle s t kd h ∧ t.mem = s.mem ∧
      ∀ e, checkHandle s s.tm.ctx h = .ok e → (old = 0 → liveEnv t h = some { e with count := e.count + 1 }) ∧
        (old = h → 1 ≤ e.count → liveEnv t h = some e)) ∧
  (∀ s kd, Issues (.kdrop kd) s →
    let h := s.tm.kread kd.val
    let named := if h ≠ 0 ∧ hCtx h = s.tm.ctx then namedEnv s h else none
    ∃ t, exec (.kdrop kd) s = .next t ∧ HoldsHandle s t kd 0 ∧ t.mem = s.mem ∧
      (named = none → t.envs = s.envs ∧ t.envGens = s.envGens) ∧
      (∀ e, named = some e → 1 < e.count → namedEnv t h = some { e with count := e.count - 1 }) ∧
      ∀ e, named = some e → e.count ≤ 1 → namedEnv t h = none ∧
        ∀ i, i < e.slots → slotGen t (envKey (hCore h) (hSlot h) + i) =
          (let g := slotGen s (envKey (hCore h) (hSlot h) + i); if g = 65535 then 1 else g + 1)) ∧
  (∀ s kd se pas s1, Issues (.kld kd se) s →
    kAccess (issued s) (s.tm.sources.sread se.val) .load = (.ok pas, s1) →
    let h : DWord := BitVec.ofNat 64 (ofBytes (coreRead s1 s.tm.core pas).1)
    (h = 0 ∨ ∃ e, checkHandle s s.tm.ctx h = .ok e ∧ e.count < 65535) →
    ∃ t, exec (.kld kd se) s = .next t ∧ HoldsHandle s t kd h ∧ t.mem = s1.mem ∧
      ∀ e, checkHandle s s.tm.ctx h = .ok e → s.tm.kread kd.val = 0 →
        liveEnv t h = some { e with count := e.count + 1 }) ∧
  (∀ s kd se pas s1, Issues (.kst kd se) s →
    kAccess (issued s) (s.tm.sources.sread se.val) .store = (.ok pas, s1) → ∃ t, exec (.kst kd se) s = .next t ∧
      t.tm.pc = s.tm.finish.pc ∧ t.tm.k = s.tm.k ∧ t.envs = s.envs ∧
      (s.pools = [] → pas.Nodup → ∀ i pa : Nat, pas[i]? = some pa →
        memGet t pa = (s.tm.kread kd.val).extractLsb' (8 * i) 8) ∧
      ∀ a, a ∉ pas → memGet t a = memGet s1 a) ∧
  (∀ s kd se, Issues (.kqry kd se) s →
    let h := s.tm.kread kd.val
    let free := freeSlots s s.tm.core
    ∃ t, exec (.kqry kd se) s = .next t ∧ OnlyDest s t (.s se) 1 ∧
      (h = 0 → sget 0 t.tm.s se.val = BitVec.ofNat 64 (2 * 2 ^ 48 + free * 2 ^ 35)) ∧
      (h ≠ 0 → (∀ e, checkHandle s s.tm.ctx h ≠ .ok e) →
        sget 0 t.tm.s se.val = BitVec.ofNat 64 (2 ^ 48 + free * 2 ^ 35)) ∧
      ∀ e, h ≠ 0 → checkHandle s s.tm.ctx h = .ok e → sget 0 t.tm.s se.val =
        BitVec.ofNat 64 (free * 2 ^ 35 + (e.slots - 1) * 2 ^ 18 + (if e.ref then 2 ^ 17 else 0) +
          (if hCore h = s.tm.core then 0 else 2 ^ 16) + e.count))

namespace Sys2Proof.Statements

/-- Nothing stands in the way of a release by the current team: no line of its dirty bytes is held (R218), no acquiring
wait for row commands is open (R184), and its loads have been read. -/
def MayRelease (s : State) : Prop := dirtyHeld s s.tm.core = false ∧ s.tm.awaitsRows = false ∧ s.tm.unread = false


end Sys2Proof.Statements

/-- R232 to R234, R256 to R258, R262, R364, R392, R411: the task words complete with their status; TARM arms the control
block, TSIG counts one signal, and either makes a block without dependencies READY; QAPPLY and QAPPLY.lane post their
closures; LAUNCH appends its block to the queue. -/
def Obligations.TaskWordsPostWork : Prop :=
  (∀ s sa sb k st pa s1 e, Issues (.tarm sa sb k st) s → MayRelease s →
    let a := s.tm.sources.sread sa.val
    let h := s.tm.kread k.val
    let n := (s.tm.sources.sread sb.val).toNat % 2 ^ 32
    a.toNat % 128 = 0 → checkHandle s s.tm.ctx h = .ok e → tcbAccess (l1Release (issued s) s.tm.core) a = (.ok pa, s1) →
    (tcbOk s1 pa = true → ¬(1 ≤ tcbState s1 pa ∧ tcbState s1 pa ≤ 4) → e.count < 65535 →
      ∃ t, exec (.tarm sa sb k st) s = .next t ∧ StatusIs s t st 0 ∧ memRead t pa 8 = h.toNat ∧
        memRead t (pa + 8) 4 = n ∧ tcbState t pa = (if n = 0 then 2 else 1) ∧
        liveEnv t h = some { e with count := e.count + 1 } ∧
        (n = 0 → InReady t s.tm.ctx (tcbQueue s1 pa) fun x => ∃ seq, x = .tcb a.toNat (tcbPrio s1 pa) seq)) ∧
    (tcbOk s1 pa = true → 1 ≤ tcbState s1 pa → tcbState s1 pa ≤ 4 → ∃ t, exec (.tarm sa sb k st) s = .next t ∧
      StatusIs s t st 1 ∧ t.mem = s1.mem)) ∧
  (∀ s sa st pa s1, Issues (.tsig sa st) s → MayRelease s →
    let a := s.tm.sources.sread sa.val
    a.toNat % 128 = 0 → tcbAccess (l1Release (issued s) s.tm.core) a = (.ok pa, s1) →
    (tcbState s1 pa ≠ 1 → ∃ t, exec (.tsig sa st) s = .next t ∧ StatusIs s t st 1 ∧ t.mem = s1.mem) ∧
    (tcbState s1 pa = 1 → 1 ≤ memRead s1 (pa + 8) 4 → ∃ t, exec (.tsig sa st) s = .next t ∧ StatusIs s t st 0 ∧
      memRead t (pa + 8) 4 = memRead s1 (pa + 8) 4 - 1 ∧
      tcbState t pa = (if memRead s1 (pa + 8) 4 = 1 then 2 else 1) ∧
      (memRead s1 (pa + 8) 4 = 1 →
        InReady t s.tm.ctx (tcbQueue s1 pa) fun x => ∃ seq, x = .tcb a.toNat (tcbPrio s1 pa) seq))) ∧
  (∀ s sa k st, Issues (.qapply sa k st) s → MayRelease s →
    let cfg := s.tm.sread sa.val
    let h := s.tm.kread k.val
    let q := cfg.toNat % 16
    (cfgOk cfg = false → ∃ t, exec (.qapply sa k st) s = .next t ∧ StatusIs s t st 2 ∧ t.ctxs = s.ctxs) ∧
    (∀ e, cfgOk cfg = true → checkHandle s s.tm.ctx h = .ok e → postedCount (getReady s s.tm.ctx q) < 4096 →
      e.count < 65535 → ∃ t, exec (.qapply sa k st) s = .next t ∧ StatusIs s t st 0 ∧
        liveEnv t h = some { e with count := e.count + 1 } ∧
        InReady t s.tm.ctx q fun x => ∃ seq, x = .closure h cfg (cfg.toNat / 2 ^ 21 % 256) seq)) ∧
  (∀ s sa vh st, Issues (.qapplyLane sa vh st) s → MayRelease s →
    let cfg := s.tm.sread sa.val
    let q := cfg.toNat % 16
    cfgOk cfg = true → (∀ l ∈ activeLanes s, ∃ e, checkHandle s s.tm.ctx (s.tm.lane64 vh.val l) = .ok e) →
    postedCount (getReady s s.tm.ctx q) + (activeLanes s).length ≤ 4096 →
    ∃ t, exec (.qapplyLane sa vh st) s = .next t ∧ StatusIs s t st 0 ∧ t.envs = s.envs ∧
      ∀ l ∈ activeLanes s, InReady t s.tm.ctx q fun x =>
        ∃ seq, x = .closure (s.tm.lane64 vh.val l) cfg (cfg.toNat / 2 ^ 21 % 256) seq) ∧
  (∀ s sa sb st, Issues (.launch sa sb st) s → MayRelease s →
    let a := s.tm.sread sa.val
    let q := (s.tm.sread sb.val).toNat
    (a.toNat % 256 ≠ 0 ∨ 63 < q → ∃ t, exec (.launch sa sb st) s = .next t ∧ StatusIs s t st 2 ∧ t.ctxs = s.ctxs) ∧
    (a.toNat % 256 = 0 → q ≤ 63 → 256 ≤ (getQueue s s.tm.ctx q).entries.length →
      ∃ t, exec (.launch sa sb st) s = .next t ∧ StatusIs s t st 1 ∧ t.ctxs = s.ctxs) ∧
    (a.toNat % 256 = 0 → q ≤ 63 → (getQueue s s.tm.ctx q).entries.length < 256 →
      ∃ t, exec (.launch sa sb st) s = .next t ∧ StatusIs s t st 0 ∧
        (getQueue t s.tm.ctx q).nextSeq = (getQueue s s.tm.ctx q).nextSeq + 1 ∧
        (getQueue t s.tm.ctx q).entries = (getQueue s s.tm.ctx q).entries ++
          [⟨a, (getQueue s s.tm.ctx q).nextSeq + 1, false⟩]))

namespace Sys2Proof.Statements

/-! ### Cohorts and barriers -/

/-- A participant of a cohort, whose uid the current team has, with nothing in the way of its release (R173, R218). -/
def MayArrive (s : State) (ck : Nat) (c : Cohort) : Prop :=
  s.tm.cohort = some ck ∧ getCohort s ck = some c ∧ (∃ i, (i, s.cur) ∈ c.members) ∧ canRelease s s.cur .home true = true

/-- With the current team's arrival, everyone expected at the barrier has arrived (R75). -/
def LastToArrive (s : State) (x : Barrier) : Prop := ∀ u ∈ x.expected, u ∈ x.arrived ++ [s.cur]

/-- No other participant waits to arrive at barrier b in the next phase. -/
def NoneQueued (s : State) (ck b : Nat) (c : Cohort) : Prop :=
  (∀ m ∈ c.members, m.2 ≠ s.cur → ∀ w, (s.getTeam m.2).wait ≠ .barArrive b w) ∧
    ∀ e ∈ streamsOf s ck, ∀ w, e.2.wait ≠ .barArrive b w

/-- The current team has arrived and the phase goes on: the barrier of t has one more arrival and everything else of x. -/
def Arrived (s t : State) (ck b : Nat) (c : Cohort) : Prop :=
  let x := c.bar b
  sget 0 t.tm.arr b = x.ph + 1 ∧
  ∃ c', getCohort t ck = some c' ∧ c'.members = c.members ∧ (c'.bar b).ph = x.ph ∧
    (c'.bar b).arrived = x.arrived ++ [s.cur] ∧ (c'.bar b).expected = x.expected ∧ ∀ k, k ≠ b → c'.bar k = c.bar k

/-- The current team's arrival has completed the phase: the next one is open and empty, the flags are those of the phase,
and the members that wait for it go on. -/
def Completed (s t : State) (ck b : Nat) (c : Cohort) : Prop :=
  let x := c.bar b
  sget 0 t.tm.arr b = x.ph + 1 ∧
  (∃ c', getCohort t ck = some c' ∧ c'.members = c.members ∧ (c'.bar b).ph = x.ph + 1 ∧ (c'.bar b).arrived = [] ∧
    (∀ m ∈ c.members, m.2 ∈ (c'.bar b).expected) ∧ (c'.bar b).torn = (x.tornNext || c.tornPending.contains s.cur) ∧
    (c'.bar b).streamErr = x.errNext ∧ s.cur ∉ c'.tornPending) ∧
  ∀ m ∈ c.members, m.2 ≠ s.cur → (s.getTeam m.2).wait = .barWait b →
    (x.ph + 1 - sget 0 (s.getTeam m.2).arr b).toNat < 2 ^ 15 → (s.getTeam m.2).reenter = false →
    (t.getTeam m.2).wait = .none ∧ (t.getTeam m.2).pc = (s.getTeam m.2).finish.pc

/-- Every byte the core has written is at its home slice (R76, Table 8-1). -/
def Released (s t : State) : Prop :=
  canon none s.l1 = true → ∀ e ∈ l1Bytes s s.tm.core, e.2.dirty = true → memGet t e.1 = e.2.val

end Sys2Proof.Statements

/-- R71, R72, R74, R360, R374, R349: JOIN's outcomes in the order of R71, with the member index, the zero window and the
phases that a member takes; LEAVE takes the team out of its cohort, which stays while others are in it; with the last member
it is dissolved: its streams are detached and its id is free, but while stamps of its streams are to be written it keeps the
id and the streams stand still, and a JOIN of that id waits (log entry 111, DESIGN CHOICE); COHQ's word. -/
def Obligations.CohortWordsJoinLeaveAndReport : Prop :=
  (∀ s sa w st, Issues (.join sa w st) s → s.tm.uid = s.cur →
    let id := (s.tm.sread sa.val).toNat % 65536
    let ck := cohKey s.tm.ctx id
    let pair := s.tm.core / 128
    let fails := fun v : DWord => ∃ t, exec (.join sa w st) s = .next t ∧ StatusIs s t st v ∧
      t.cohorts = s.cohorts ∧ t.tm.cohort = s.tm.cohort ∧ t.mem = s.mem
    let member := fun (t : State) (i : Nat) => t.tm.cohort = some ck ∧ t.tm.memberIdx = i ∧ t.tm.window = [] ∧
      t.tm.windowSize = 1024 * w.val ∧ t.mem = s.mem
    (s.tm.cohort ≠ none → fails 5) ∧
    (∀ c, s.tm.cohort = none → getCohort s ck = some c → c.members = [] → s.tm.state = .ready →
      ∃ t, exec (.join sa w st) s = .next t ∧ t.tm.state = .stalled ∧ t.tm.pc = s.tm.pc ∧ t.cohorts = s.cohorts ∧
        t.mem = s.mem) ∧
    (s.tm.cohort = none → (∀ c, getCohort s ck = some c → c.members ≠ []) →
      (id = 0xFFFF ∨ ∃ c, getCohort s ck = some c ∧ c.window ≠ w.val) → fails 4) ∧
    (∀ c, s.tm.cohort = none → id ≠ 0xFFFF → getCohort s ck = some c → c.members ≠ [] → c.window = w.val →
      (c.dp ≠ pair → fails 3) ∧
      (c.dp = pair → 64 ≤ c.members.length → fails 2) ∧
      (c.dp = pair → c.members.length < 64 → ∃ t i, exec (.join sa w st) s = .next t ∧ StatusIs s t st 0 ∧
        member t i ∧ (∀ b, b < 16 → sget 0 t.tm.arr b = (c.bar b).ph + 1) ∧
        i < 64 ∧ (∀ m ∈ c.members, m.1 ≠ i) ∧ (∀ j, j < i → ∃ m ∈ c.members, m.1 = j) ∧
        getCohort t ck = some { c with members := c.members ++ [(i, s.cur)] })) ∧
    (s.tm.cohort = none → id ≠ 0xFFFF → getCohort s ck = none →
      (512 ≤ (s.cohorts.filter fun c => c.2.dp == pair).length → fails 6) ∧
      ((s.cohorts.filter fun c => c.2.dp == pair).length < 512 → ∃ t c, exec (.join sa w st) s = .next t ∧
        StatusIs s t st 1 ∧ member t 0 ∧ (∀ b, b < 16 → sget 0 t.tm.arr b = 0) ∧ getCohort t ck = some c ∧
        c.members = [(0, s.cur)] ∧ c.ctx = s.tm.ctx ∧ c.id = id ∧ c.dp = pair ∧ c.window = w.val ∧
        ∀ b, b < 16 → (c.bar b).ph = 0 ∧ (c.bar b).expected = [s.cur] ∧ (c.bar b).arrived = []))) ∧
  (∀ s, Issues .leave s → s.tm.cohort = none →
    ∃ t, exec .leave s = .next t ∧ OnlyPlace s t ∧ t.tm.pc = s.tm.finish.pc) ∧
  (∀ s ck c, Issues .leave s → s.tm.cohort = some ck → getCohort s ck = some c →
    ∃ t, exec .leave s = .next t ∧ t.tm.pc = s.tm.finish.pc ∧ t.tm.cohort = none ∧ t.tm.window = [] ∧
      t.tm.windowSize = 0 ∧ t.tm.s = s.tm.s ∧ (∀ m ∈ t.mirrors, s.cur ∉ m.targets) ∧
      ((∃ m ∈ c.members, m.2 ≠ s.cur) → ∃ c', getCohort t ck = some c' ∧
        c'.members = c.members.filter fun m => m.2 != s.cur) ∧
      ((∀ m ∈ c.members, m.2 = s.cur) → t.mem = s.mem ∧
        (stampsLeft s ck = false → getCohort t ck = none ∧
          (rising s.engines = true → ∀ core, findStream t core ck = none)) ∧
        (stampsLeft s ck = true → (∃ c', getCohort t ck = some c' ∧ c'.members = []) ∧
          ∀ core x, findStream t core ck = some x → (x.state = .parked ∨ x.state = .saved) ∧ x.mma = none ∧
            x.msta = none ∧ x.mwbs = []))) ∧
  (∀ s sd b, Issues (.cohq sd b) s → ∃ t w, exec (.cohq sd b) s = .next t ∧ OnlyDest s t (.s sd) 1 ∧
    t.tm.pc = s.tm.finish.pc ∧ sget 0 t.tm.s sd.val = w ∧ (s.tm.cohort = none → w = 0xFFFF) ∧
    ∀ ck c, s.tm.cohort = some ck → getCohort s ck = some c → c.members.length < 128 → s.tm.memberIdx < 64 →
      c.id < 65536 →
      w.extractLsb' 48 16 = (c.bar b.val).ph ∧ w.extractLsb' 32 16 = sget 0 s.tm.arr b.val ∧
      w.getLsbD 31 = (c.bar b.val).torn ∧ w.getLsbD 30 = (c.bar b.val).streamErr ∧ w.getLsbD 29 = true ∧
      w.extractLsb' 22 7 = BitVec.ofNat 7 c.members.length ∧ w.extractLsb' 16 6 = BitVec.ofNat 6 s.tm.memberIdx ∧
      w.extractLsb' 0 16 = BitVec.ofNat 16 c.id)

/-- R74 to R76, R335: BARA arrives, BARW waits, BARV does both; the arrival of the last expected participant completes the
phase and the members that wait for it go on; a team in no cohort takes the illegal-instruction trap. -/
def Obligations.BarrierWordsArriveAndWait : Prop :=
  (∀ s (b : BReg) i, i ∈ ([.bara b, .barv b, .barw b] : List Instr) → Issues i s → s.tm.cohort = none → CanTrap s →
    ∃ t, exec i s = .next t ∧ Trapped s t 1 0 i.word s.tm.pc) ∧
  (∀ s (b : BReg) ck c, MayArrive s ck c → sget 0 s.tm.arr b.val = (c.bar b.val).ph →
    (LastToArrive s (c.bar b.val) → NoneQueued s ck b.val c →
      (Issues (.bara b) s → ∃ t, exec (.bara b) s = .next t ∧ t.tm.pc = s.tm.finish.pc ∧ t.tm.s = s.tm.s ∧
        Completed s t ck b.val c ∧ Released s t) ∧
      (Issues (.barv b) s → ∃ t, exec (.barv b) s = .next t ∧ t.tm.pc = s.tm.finish.pc ∧ t.tm.s = s.tm.s ∧
        Completed s t ck b.val c ∧ Released s t ∧ (s.tm.reenter = false → t.tm.wait = .none))) ∧
    (¬LastToArrive s (c.bar b.val) →
      (Issues (.bara b) s → ∃ t, exec (.bara b) s = .next t ∧ t.tm.pc = s.tm.finish.pc ∧ t.tm.s = s.tm.s ∧
        Arrived s t ck b.val c ∧ Released s t) ∧
      (Issues (.barv b) s → s.tm.state = .ready → ∃ t, exec (.barv b) s = .next t ∧ t.tm.pc = s.tm.pc ∧
        t.tm.s = s.tm.s ∧ Arrived s t ck b.val c ∧ Released s t ∧ t.tm.state = .parked ∧
        t.tm.wait = .barWait b.val))) ∧
  (∀ s (b : BReg) ck c i, i = .bara b ∨ i = .barv b → Issues i s → s.tm.cohort = some ck → getCohort s ck = some c →
    (c.bar b.val).done = false → sget 0 s.tm.arr b.val = (c.bar b.val).ph + 1 → s.tm.state = .ready →
    ∃ t, exec i s = .next t ∧ t.tm.state = .stalled ∧ t.tm.pc = s.tm.pc ∧ t.cohorts = s.cohorts ∧ t.mem = s.mem) ∧
  (∀ s (b : BReg) ck c, Issues (.barw b) s → s.tm.cohort = some ck → getCohort s ck = some c →
    (c.bar b.val).done = false →
    ((((c.bar b.val).ph - sget 0 s.tm.arr b.val).toNat < 2 ^ 15) → ∃ t, exec (.barw b) s = .next t ∧
      t.tm.pc = s.tm.finish.pc ∧ t.cohorts = s.cohorts ∧ t.mem = s.mem ∧ t.tm.s = s.tm.s ∧
      ∀ e ∈ l1Bytes t s.tm.core, e.2.dirty = true) ∧
    (2 ^ 15 ≤ ((c.bar b.val).ph - sget 0 s.tm.arr b.val).toNat → s.tm.state = .ready →
      ∃ t, exec (.barw b) s = .next t ∧ t.tm.state = .parked ∧ t.tm.wait = .barWait b.val ∧ t.tm.pc = s.tm.pc ∧
        t.cohorts = s.cohorts ∧ t.mem = s.mem))

/-- R173, R294, R295: a mirrored store that arrives is written into the window of every team it names that is still a
member; one that fails leaves every window as it was, and the sender's next arrival makes its phase torn. -/
def Obligations.MirroredStoresArriveOrTear : Prop :=
  (∀ s k m, s.mirrors[k]? = some m →
    (∀ (j : Nat) x, j < k → s.mirrors[j]? = some x →
      x.sender ≠ m.sender ∨ ∀ u ∈ x.targets, u ∉ m.targets) →
    ∃ t, exec (.mirroredStoreDelivery k) s = .next t ∧ t.mirrors = s.mirrors.take k ++ s.mirrors.drop (k + 1) ∧
      (∀ u ∈ m.targets, (s.getTeam u).cohort = some m.cohort →
        (∀ (i : Nat) x, m.data[i]? = some x → sget 0 (t.getTeam u).window (m.off + i) = x) ∧
        ∀ a, ¬(m.off ≤ a ∧ a < m.off + m.data.length) →
          sget 0 (t.getTeam u).window a = sget 0 (s.getTeam u).window a) ∧
      ∀ u, u ∉ m.targets ∨ (s.getTeam u).cohort ≠ some m.cohort → (t.getTeam u).window = (s.getTeam u).window) ∧
  (∀ s k m c i, i = .mirroredDeliveryNack k ∨ i = .mirroredDeliveryTimeout k → s.mirrors[k]? = some m →
    getCohort s m.cohort = some c → (∃ j, (j, m.sender) ∈ c.members) →
    (∀ b w, (s.getTeam m.sender).wait ≠ .barArrive b w) →
    ∃ t, exec i s = .next t ∧ t.mirrors = s.mirrors.take k ++ s.mirrors.drop (k + 1) ∧
      (∃ c', getCohort t m.cohort = some c' ∧ m.sender ∈ c'.tornPending ∧ c'.members = c.members ∧ c'.bars = c.bars) ∧
      (∀ u, (t.getTeam u).window = (s.getTeam u).window) ∧ t.mem = s.mem)

namespace Sys2Proof.Statements

/-! ### Bundles -/

/-- The fields of a bundle handle (Table 8-2). -/
def NamesBundle (h : DWord) (gen core ctx idx : Nat) : Prop :=
  h.toNat / 2 ^ 48 = gen ∧ h.toNat / 2 ^ 39 % 512 = core ∧ h.toNat / 2 ^ 27 % 4096 = ctx ∧
    h.toNat / 2 ^ 19 % 256 = idx ∧ h.toNat % 2 ^ 19 = 0

/-- The pool's table keeps one entry for each descriptor. -/
def PoolOk (s : State) (k : Nat) : Prop := ∀ p, getPool s k = some p → rising p.bundles = true

/-- The bundle that a pool holds at a descriptor. -/
def bundleAt (s : State) (k i : Nat) : Option Bundle := (getPool s k).bind fun p => sfind p.bundles i

/-- The word leaves status v and handle h, whatever else it does to pools. -/
def Declares (s t : State) (sh st : SReg) (v h : DWord) : Prop :=
  t.tm.pc = s.tm.finish.pc ∧ sget 0 t.tm.s st.val = v ∧ sget 0 t.tm.s sh.val = h ∧
    (∀ m, m ≠ sh.val → m ≠ st.val → sget 0 t.tm.s m = sget 0 s.tm.s m) ∧
    (s.tm.waitv = none → t.tm.v = s.tm.v) ∧ t.tm.p = s.tm.p

/-- R144: the outcome of a declaration of the lines ls by word i, of priority prio. -/
def DeclaresLines (s : State) (i : Instr) (sh st : SReg) (prio : Nat) (ls : Nat → Prop) (n : Nat) : Prop :=
  (s.tm.bundleCap = 0 ∨ getPool s s.tm.poolKey = none → ∃ t, exec i s = .next t ∧ Declares s t sh st 1 0) ∧
  (∀ p, s.tm.bundleCap ≠ 0 → getPool s s.tm.poolKey = some p →
    (p.cap < n → ∃ t, exec i s = .next t ∧ Declares s t sh st 1 0 ∧ t.pools = s.pools) ∧
    (n ≤ p.cap → 256 ≤ p.bundles.length → ∃ t, exec i s = .next t ∧ Declares s t sh st 3 0 ∧ t.pools = s.pools) ∧
    (n ≤ p.cap → p.bundles.length < 256 → s.tm.core < 512 → s.tm.ctx < 4096 → (∀ j, p.gen j < 65536) →
      ∃ t h j b, exec i s = .next t ∧ Declares s t sh st 0 h ∧ NamesBundle h (p.gen j) s.tm.core s.tm.ctx j ∧
        j < 256 ∧ (∀ e ∈ p.bundles, e.1 ≠ j) ∧ (∀ m, m < j → ∃ e ∈ p.bundles, e.1 = m) ∧
        bundleAt t s.tm.poolKey j = some b ∧ b.prio = prio ∧ b.order = p.nextOrder ∧
        (b.state = .waiting ∨ b.state = .filling) ∧ b.enterers = [] ∧ b.fillFailed = false ∧
        b.lines.length = n ∧ ∀ ln, ln ∈ b.lines.map Prod.fst ↔ ls ln))

/-- A line that a unit of the record's walk touches, or its scale byte (R143). -/
def RecordLine (r : TRec) (ln : Nat) : Prop :=
  ∃ e, e < recSize r ∧ ((∃ i, i < unitBytes (recFmt r) ∧ ln = ((unitAddr r e).toNat + i) % 2 ^ 64 / 256) ∨
    ∃ a, scaleAddr r e = some a ∧ ln = a.toNat / 256)

/-- The team holds no entry, and no epoch has a record of its writes (R148). -/
def HoldsNoEntry (s : State) : Prop :=
  s.tm.entered = [] ∧ ∀ p, getPool s s.tm.poolKey = some p → ∀ e ∈ p.bundles, ∀ w ∈ e.2.writers, w.2 ≠ s.tm.uid

/-- The virtual lines of some bundles. -/
def LinesOf (bs : Bundle → Prop) (ls : List Nat) : Prop :=
  ls.Nodup ∧ ∀ ln, ln ∈ ls ↔ ∃ b, bs b ∧ ln ∈ b.lines.map Prod.fst

/-- Table 8-5's codes. -/
def stateCode : BState → Nat
  | .declared => 0 | .waiting => 1 | .filling => 2 | .resident => 3 | .entered => 4 | .evicting => 5

/-- Table 3-6's mode codes. -/
def modeCode : BMode → Nat
  | .read => 0 | .own => 1 | .share => 2

end Sys2Proof.Statements

/-- R141, R143, R144, R336, R337: BDECL.rec declares the lines of a tensor record, BDECL.list those of an extent list
(Table 8-4), which is read whole, a fault parking or trapping the team, before it is checked; a malformed record or list
gets status 2, a bundle that never fits status 1, a 257th descriptor status 3. -/
def Obligations.DeclarationsMakeBundles : Prop :=
  (∀ s sl sh prio st, Issues (.bdeclRec sl sh prio st) s → sh ≠ st →
    let found := sfind (getCtx s s.tm.ctx).tensors (s.tm.sread sl.val).toNat
    (found = none ∨ (∃ r, found = some r ∧ (recInvalid r = true ∨ recFmt r = 10)) →
      ∃ t, exec (.bdeclRec sl sh prio st) s = .next t ∧ Declares s t sh st 2 0 ∧ t.pools = s.pools) ∧
    (∀ r (ls : List Nat), found = some r → recInvalid r = false → recFmt r ≠ 10 → ls.Nodup → (∀ ln, ln ∈ ls ↔ RecordLine r ln) →
      DeclaresLines s (.bdeclRec sl sh prio st) sh st prio.val (RecordLine r) ls.length)) ∧
  (∀ s sl sh prio st s1, Issues (.bdeclList sl sh prio st) s → sh ≠ st →
    (listLines (issued s) (issued s).tm (s.tm.sources.sread sl.val) = (.ok .malformed, s1) →
      ∃ t, exec (.bdeclList sl sh prio st) s = .next t ∧ Declares s t sh st 2 0) ∧
    (∀ ls, listLines (issued s) (issued s).tm (s.tm.sources.sread sl.val) = (.ok (.lines ls), s1) →
      DeclaresLines s (.bdeclList sl sh prio st) sh st prio.val (· ∈ ls) ls.length)) ∧
  (∀ s sl sh prio st fs s1, Issues (.bdeclList sl sh prio st) s →
    listLines (issued s) (issued s).tm (s.tm.sources.sread sl.val) = (.error fs, s1) → fs ≠ [] →
    ∃ t, exec (.bdeclList sl sh prio st) s = .next t ∧ FaultsTaken s s1 t true (fs.map fun f => (0, f))) ∧
  (∀ s t (base : DWord) fs s1, loadLane t .plain false 16 base s 0 = (.error fs, s1) →
    listLines s t base = (.error fs, s1)) ∧
  (∀ s t (base : DWord) bs s1, loadLane t .plain false 16 base s 0 = (.ok bs, s1) →
    let n := ofBytes bs % 32
    (∀ fs s2, listEntries s1 t base 0 n = (.error fs, s2) → listLines s t base = (.error fs, s2)) ∧
    (∀ es s2, listEntries s1 t base 0 n = (.ok es, s2) → es.length = n ∧
      let count := fun e => e / 2 ^ 64 % 2 ^ 32
      let good := fun e => e / 2 ^ 96 % 2 ^ 32 = 0 ∧ 1 ≤ count e ∧ count e ≤ 4096 ∧ e % 256 = 0
      let fits := base.toNat % 16 = 0 ∧ ofBytes bs / 32 % 2 ^ 123 = 0 ∧ 0 < n ∧ n ≤ 16 ∧ ∀ e ∈ es, good e
      (¬fits → listLines s t base = (.ok .malformed, s2)) ∧
      (fits → ∃ ls, listLines s t base = (.ok (.lines ls), s2) ∧ ls.Nodup ∧
        ∀ ln, ln ∈ ls ↔ ∃ e ∈ es, ∃ i, i < count e ∧ ln = e % 2 ^ 64 / 256 + i)))

/-- R148, R152, R153, R336: BENTER waits with its set, or ends at once with status 2 or 1; BEXIT ends an entry, BDROP drops
a bundle that nobody has entered, BQRY reports Table 8-6. -/
def Obligations.BundleWordsEnterExitDropAndReport : Prop :=
  (∀ s sh st mode n, Issues (.benter sh st mode n) s →
    let named := fun h : DWord => ∃ i, i ≤ n.val ∧ h = s.tm.sread (sh.val + i)
    (s.tm.entered ≠ [] → CanTrap s → ∃ t, exec (.benter sh st mode n) s = .next t ∧
      Trapped s t 0x0A 0 (Instr.benter sh st mode n).word s.tm.pc) ∧
    (HoldsNoEntry s → s.tm.awaitsRows = false → (∃ h, named h ∧ findBundle s s.tm h = none) →
      ∃ t, exec (.benter sh st mode n) s = .next t ∧ StatusIs s t st 2 ∧ t.pools = s.pools) ∧
    (∀ p ls, HoldsNoEntry s → s.tm.awaitsRows = false → getPool s s.tm.poolKey = some p →
      (∀ h, named h → ∃ x, findBundle s s.tm h = some x) →
      LinesOf (fun b => ∃ h i, named h ∧ findBundle s s.tm h = some (i, b)) ls →
      (p.cap < ls.length → ∃ t, exec (.benter sh st mode n) s = .next t ∧ StatusIs s t st 1 ∧ t.pools = s.pools) ∧
      (ls.length ≤ p.cap → s.tm.state = .ready → ∃ t hs, exec (.benter sh st mode n) s = .next t ∧
        t.tm.state = .parked ∧ t.tm.wait = .benter ∧ t.tm.benter = some (hs, mode, st.val) ∧ hs.Nodup ∧
        (∀ h, h ∈ hs ↔ named h) ∧ t.tm.pc = s.tm.pc ∧ t.tm.s = s.tm.s ∧ t.mem = s.mem ∧
        ∀ h i b, named h → findBundle s s.tm h = some (i, b) → ∃ b', bundleAt t s.tm.poolKey i = some b' ∧
          b'.lines = b.lines ∧ b'.state ≠ .declared))) ∧
  (∀ s sh st, Issues (.bexit sh st) s → s.tm.uid = s.cur →
    (findBundle s s.tm (s.tm.sread sh.val) = none →
      ∃ t, exec (.bexit sh st) s = .next t ∧ StatusIs s t st 2 ∧ t.pools = s.pools) ∧
    ∀ i b, findBundle s s.tm (s.tm.sread sh.val) = some (i, b) →
      (s.cur ∉ b.enterers → ∃ t, exec (.bexit sh st) s = .next t ∧ StatusIs s t st 5 ∧ t.pools = s.pools) ∧
      (s.cur ∈ b.enterers → b.mode = .read ∨ (MayRelease s ∧
          ∀ w ∈ b.writers, w.2 = s.cur → heldLine s true (lineOf w.1) = false) → ∃ t b',
        exec (.bexit sh st) s = .next t ∧ StatusIs s t st 0 ∧ t.tm.entered = s.tm.entered.filter (fun h => bIndex h != i) ∧
        bundleAt t s.tm.poolKey i = some b' ∧ b'.enterers = b.enterers.filter (fun u => u != s.cur) ∧
        b'.lines = b.lines ∧ ((∀ u ∈ b.enterers, u = s.cur) → b'.state = .resident ∨ b'.state = .evicting) ∧
        (b.mode = .read → t.mem = s.mem) ∧ (b.mode ≠ .read → Released s t))) ∧
  (∀ s sh st, Issues (.bdrop sh st) s → s.tm.benter = none → s.tm.reenter = false →
    (findBundle s s.tm (s.tm.sread sh.val) = none →
      ∃ t, exec (.bdrop sh st) s = .next t ∧ StatusIs s t st 2 ∧ t.pools = s.pools) ∧
    ∀ i b, findBundle s s.tm (s.tm.sread sh.val) = some (i, b) →
      (b.enterers ≠ [] → ∃ t, exec (.bdrop sh st) s = .next t ∧ StatusIs s t st 6 ∧ t.pools = s.pools) ∧
      (b.enterers = [] → b.state = .waiting ∨ b.state = .declared → ∃ t, exec (.bdrop sh st) s = .next t ∧
        StatusIs s t st 0 ∧ t.mem = s.mem ∧ bundleAt t s.tm.poolKey i = none ∧
        ∀ p p', getPool s s.tm.poolKey = some p → getPool t s.tm.poolKey = some p' →
          p'.gen i = if p.gen i = 65535 then 1 else p.gen i + 1) ∧
      (b.enterers = [] → b.state ≠ .waiting → b.state ≠ .declared → ∃ t, exec (.bdrop sh st) s = .next t ∧
        StatusIs s t st 0 ∧ t.mem = s.mem ∧ bundleAt t s.tm.poolKey i = some { b with
          dropping := true, state := if b.state = .resident then .evicting else b.state })) ∧
  (∀ s sh sd, Issues (.bqry sh sd) s → ∃ t w, exec (.bqry sh sd) s = .next t ∧ OnlyDest s t (.s sd) 1 ∧
    t.tm.pc = s.tm.finish.pc ∧ sget 0 t.tm.s sd.val = w ∧
    (findBundle s s.tm (s.tm.sread sh.val) = none → w = 7) ∧
    ∀ i b, findBundle s s.tm (s.tm.sread sh.val) = some (i, b) → b.enterers.length < 64 → b.prio < 8 →
      b.lines.length < 8192 →
      w.extractLsb' 0 4 = BitVec.ofNat 4 (stateCode b.state) ∧
      w.extractLsb' 4 2 = BitVec.ofNat 2 (if b.enterers = [] then 0 else modeCode b.mode) ∧
      w.extractLsb' 6 6 = BitVec.ofNat 6 b.enterers.length ∧ w.extractLsb' 12 3 = BitVec.ofNat 3 b.prio ∧
      w.getLsbD 15 = b.fillFailed ∧ w.extractLsb' 16 13 = BitVec.ofNat 13 b.lines.length ∧ w.extractLsb' 29 35 = 0)

namespace Sys2Proof.Statements

/-- Team u waits to enter set hs in a mode, on a die pair that runs its context, and every bundle of the set is RESIDENT
or ENTERED (R150). -/
def WaitsFor (s : State) (u : Nat) (hs : List DWord) (mode : BMode) (st : Nat) : Prop :=
  let t := s.getTeam u
  t.uid = u ∧ t.benter = some (hs, mode, st) ∧ t.reenter = false ∧ ctxOn s t.core t.ctx = true ∧
    ∀ h ∈ hs, ∃ i b, findBundle s t h = some (i, b) ∧ (b.state = .resident ∨ b.state = .entered)

/-- A physical line of the set. -/
def SetLine (s : State) (u : Nat) (hs : List DWord) (ln : Nat) : Prop :=
  ∃ h ∈ hs, ∃ i b, findBundle s (s.getTeam u) h = some (i, b) ∧ b.hasLine ln = true

/-- The line has been granted to team u. -/
def Granted (s : State) (u ln : Nat) : Prop := ∃ g ∈ s.grants, g.uid = u ∧ g.line = ln

end Sys2Proof.Statements

/-- R145, R147, R150, R154, R171, R418, R419: a fill makes its bundle RESIDENT, or DECLARED with fill_failed; an eviction leaves
no byte of the bundle's own lines in the first-level cache and their dirty bytes at home; the directory grants a set's
lines in ascending order; an entry makes the set ENTERED and ends the BENTER with status 0; a WAITV whose words have all compared goes on: at cohort scope and above the
slice reads a word at each write of its line, at core scope the core's store is read, after a fill where it lacks the word. -/
def Obligations.BundleStepsFillEvictGrantAndEnter : Prop :=
  (∀ s core ctx idx b, bundleAt s (poolKey core ctx) idx = some b → b.state = .filling → b.dropping = false →
    ctxOn s core ctx = true → ctx < 4096 → PoolOk s (poolKey core ctx) →
    (∀ ls s1, fillLines s core ctx idx (b.lines.map Prod.fst) = (.ok ls, s1) → fillWaits s1 core ls = false →
      ∃ t b', exec (.bundleFillComplete core ctx idx) s = .next t ∧ bundleAt t (poolKey core ctx) idx = some b' ∧
        b'.lines = ls ∧ b'.enterers = b.enterers ∧ (b'.state = .resident ∨ b'.state = .evicting) ∧ t.mem = s1.mem) ∧
    (∀ s1, fillLines s core ctx idx (b.lines.map Prod.fst) = (.fatal, s1) →
      ∃ t b', exec (.bundleFillComplete core ctx idx) s = .next t ∧ bundleAt t (poolKey core ctx) idx = some b' ∧
        b'.state = .declared ∧ b'.fillFailed = true ∧ t.mem = s1.mem ∧
        ∀ u hs mode st, (sfind s.teams u).isSome = true → (s.getTeam u).poolKey = poolKey core ctx →
          (s.getTeam u).reenter = false → (s.getTeam u).benter = some (hs, mode, st) → st < 24 →
          (∃ h ∈ hs, bIndex h = idx) →
          (t.getTeam u).benter = none ∧ sget 0 (t.getTeam u).s st = 4 ∧
            (t.getTeam u).pc = (s.getTeam u).finish.pc)) ∧
  (∀ s core ctx idx b, bundleAt s (poolKey core ctx) idx = some b → b.state = .evicting → ctx < 4096 →
    PoolOk s (poolKey core ctx) → (∀ ln ∈ b.phys, heldLine s true ln = false ∧ ln < 2 ^ 38) →
    ∃ t, exec (.bundleEvictionComplete core ctx idx) s = .next t ∧
      (b.dropping = true → bundleAt t (poolKey core ctx) idx = none) ∧
      (b.dropping = false → ∃ b', bundleAt t (poolKey core ctx) idx = some b' ∧ b'.lines = b.lines ∧
        b'.state ≠ .evicting ∧ b'.state ≠ .resident ∧ b'.state ≠ .entered) ∧
      ∀ ln ∈ b.phys, (∀ p, getPool s (poolKey core ctx) = some p → ∀ e ∈ p.bundles, e.1 ≠ idx →
          e.2.present = false ∨ e.2.hasLine ln = false) →
        ∀ i, i < 256 → l1Get t core (ln * 256 + i) = none ∧
          ∀ x, l1Get s core (ln * 256 + i) = some x → x.dirty = true → memGet t (ln * 256 + i) = x.val) ∧
  (∀ s u hs mode st ln, WaitsFor s u hs mode st → SetLine s u hs ln → ¬Granted s u ln →
    (∀ n, n < ln → SetLine s u hs n → Granted s u n) → heldLine s false ln = false →
    grantOk s (s.getTeam u).core mode ln = true →
    let core := (s.getTeam u).core
    (mode = .read ∨ stillHeld s (fun c => c != core) ln = false →
      exec (.directoryGrant core u) s =
        .next { s with grants := s.grants ++ [⟨ln, core, u, mode != .read⟩] }) ∧
    (mode ≠ .read → stillHeld s (fun c => c != core) ln = true → ∃ t, exec (.directoryGrant core u) s = .next t ∧
      t.grants = s.grants ∧ t.mem = s.mem ∧ ∀ k i b, bundleAt s k i = some b → k / 4096 ≠ core → b.state = .resident →
        b.hasLine ln = true → bundleAt t k i = some { b with state := .evicting })) ∧
  (∀ s u hs mode st (lines : List Nat), WaitsFor s u hs mode st → lines.Nodup → (∀ ln, ln ∈ lines ↔ SetLine s u hs ln) →
    (∀ ln ∈ lines, Granted s u ln ∧ heldLine s false ln = false) →
    (∀ b ∈ bundlesOf s (s.getTeam u).core, b.2.2.state = .entered → (∃ v ∈ b.2.2.enterers, v ≠ u) →
      (∃ ln ∈ lines, b.2.2.hasLine ln = true) → b.2.2.mode = mode ∧ mode ≠ .own) →
    (∀ ln ∈ lines, ∀ ls : List Nat, ls.Nodup → (∀ x ∈ ls, (x ∈ lines ∨ x ∈ pinnedLines s) ∧
      homeSlice s (x * 256) = homeSlice s (ln * 256)) → ls.length ≤ 12) → st < 24 →
    ∃ t, exec (.bundleEntry u) s = .next t ∧ (t.getTeam u).entered = hs ∧ (t.getTeam u).enteredMode = mode ∧
      (t.getTeam u).benter = none ∧ sget 0 (t.getTeam u).s st = 0 ∧ (t.getTeam u).pc = (s.getTeam u).finish.pc ∧
      ∀ h ∈ hs, ∃ i b, findBundle t (t.getTeam u) h = some (i, b) ∧ b.state = .entered ∧ b.mode = mode ∧ u ∈ b.enterers) ∧
  (∀ s u w, (s.getTeam u).wait = .waitv → (s.getTeam u).waitv = some w → (w.lanes.map Prod.fst).Nodup →
    (∀ e ∈ w.lanes, e.1 < 1024) →
    let t := s.getTeam u
    let ends := fun t' : State => exec (.waitvReread u) s = .next t' ∧ (t'.getTeam u).pc = t.finish.pc ∧
      (t'.getTeam u).waitv = none ∧ (t.reenter = false → (t'.getTeam u).wait = .none)
    (w.sc.far = true → (∀ e ∈ w.lanes, w.satisfied.getLsbD e.1 = true) → ∃ t', ends t' ∧
      (∀ e ∈ l1Bytes t' t.core, e.2.dirty = true) ∧ (t'.getTeam u).v = t.v ∧ t'.mem = s.mem) ∧
    (w.sc = .core → (∀ e ∈ s.teams, e.2.waitv.isSome = true → e = (u, t)) → (∀ e ∈ w.lanes,
        w.satisfied.getLsbD e.1 = false → heldLine s false (lineOf e.2) = false) →
      let left := w.lanes.filter fun e => !w.satisfied.getLsbD e.1
      let s1 := (missingWords s t.core (left.map fun e => lineOf e.2)).foldl (fun s pa => fillSector s t.core pa) s
      let word := fun pa => readWordAt s1 t.core true pa
      (∀ e ∈ left, word e.2 = t.vget w.t e.1 ↔ w.ne = false) → ∃ t', ends t' ∧ t'.mem = s.mem ∧
        ∀ e ∈ left, (t'.getTeam u).vget w.t e.1 = word e.2)) ∧
  (∀ s bs u w (e : Nat × Nat), (sfind s.teams u).isSome = true → (s.getTeam u).waitv = some w → w.sc ≠ .core →
    (w.lanes.map Prod.fst).Nodup → e ∈ w.lanes → e.1 < 1024 → w.satisfied.getLsbD e.1 = false →
    (∃ b ∈ bs, lineOf b.1 = lineOf e.2) → heldLine s false (lineOf e.2) = false →
    let s1 := homeWrite s bs
    let word := readWordAt s1 (s.getTeam u).core false e.2
    (word = (s.getTeam u).vget w.t e.1 ↔ w.ne = false) → (∃ w1, (s1.getTeam u).waitv = some w1 ∧
      w1.satisfied.getLsbD e.1 = true) ∧ (s1.getTeam u).vget w.t e.1 = word)

namespace Sys2Proof.Statements

/-! ### The matrix engine -/

/-- Attaching fails: the status, and no engine or cohort changes. -/
def NotAttached (s : State) (i : Instr) (st : SReg) (v : DWord) : Prop :=
  ∃ t, exec i s = .next t ∧ StatusIs s t st v ∧ t.engines = s.engines ∧ t.cohorts = s.cohorts

/-- A tile or a slot of the configuration word (Table 7-2) is held by an attached stream. -/
def Wanted (e : Engine) (cfg : DWord) : Prop :=
  ∃ x ∈ e.streams, x.state ≠ .saved ∧ ((∃ i, i < 2 ∧ x.tileMask.getLsbD i = true ∧ cfg.getLsbD i = true) ∨
    ∃ n, cfg.toNat / 16 % 16 ≤ n ∧ n < cfg.toNat / 16 % 16 + cfg.toNat / 256 % 16 + 1 ∧ x.slotBase ≤ n ∧
      n < x.slotBase + x.slotCount)

/-- Table 7-3's status 4. -/
def BadConfig (start cfg : DWord) : Prop :=
  cfg.extractLsb' 32 32 ≠ 0 ∨ cfg.extractLsb' 12 4 ≠ 0 ∨ cfg.extractLsb' 2 2 ≠ 0 ∨
    15 < cfg.toNat / 16 % 16 + cfg.toNat / 256 % 16 ∨ start.toNat % 4 ≠ 0

/-- The tiles and the slots of a stream are empty. -/
def Emptied (e : Engine) (x : Stream) : Prop :=
  (x.tileMask.getLsbD 0 = true → e.tile0 = .zero) ∧ (x.tileMask.getLsbD 1 = true → e.tile1 = .zero) ∧
    ∀ n, x.slotBase ≤ n → n < x.slotBase + x.slotCount → sfind e.slots n = none

/-- Word i is the turn of stream x, which may start it (R116, R118). -/
def Turn (s : State) (i : Instr) (x : Stream) : Prop :=
  findStream s s.curStream.1 s.curStream.2 = some x ∧ x.mayStart s i = true ∧ (needsGrant i = true → x.granted = true)

/-- No word of the stream is under way. -/
def Still (x : Stream) : Prop := x.canRun = true ∧ x.mma = none ∧ x.msta = none ∧ x.mwbs = []

/-- The stream of a core and a cohort after a step. -/
def StreamIs (t : State) (core ck : Nat) (p : Stream → Prop) : Prop := ∃ y, findStream t core ck = some y ∧ p y

/-- R132: the stream is in ERROR with the code and the word's address; nothing of it is under way. -/
def Errs (t : State) (core ck code : Nat) (at_ : DWord) : Prop :=
  StreamIs t core ck fun y => y.state = .error ∧ y.errCode = code ∧ y.errPc = at_ ∧ y.mma = none ∧ y.mwbs = [] ∧
    y.granted = false

/-- A word of the stream whose turn it is completes: its step leaves what p says, or the error code says so. -/
def Completes (s : State) (i : Instr) (x : Stream) (p : State → Stream → Prop) : Prop :=
  ∃ t, exec i s = .next t ∧ StreamIs t s.curStream.1 s.curStream.2 fun y => y.pc = x.pc + 4 ∧ p t y

/-- R120, R132: the word stops the stream at once where no other word is under way, or else after their end. -/
def Fails (s : State) (i : Instr) (x : Stream) (code : Nat) : Prop :=
  (Still x → ∃ t, exec i s = .next t ∧ Errs t s.curStream.1 s.curStream.2 code x.pc) ∧
  (¬Still x → (∀ m, x.mma = some m → m.word ≠ x.pc) → (∀ m, x.msta = some m → m.word ≠ x.pc) →
    (∀ m ∈ x.mwbs, m.word ≠ x.pc) → ∃ t, exec i s = .next t ∧ StreamIs t s.curStream.1 s.curStream.2 fun y =>
      y.failing = some (code, x.pc) ∧ y.pc = x.pc ∧ y.mma = x.mma ∧ y.msta = x.msta ∧ y.mwbs = x.mwbs)

/-- The stream holds slot n, tile t. -/
def Holds (x : Stream) (n : Nat) : Prop := x.slotBase ≤ n ∧ n < x.slotBase + x.slotCount
def HoldsTile (x : Stream) (t : Bool) : Prop := x.tileMask.getLsbD (if t then 1 else 0) = true

end Sys2Proof.Statements

/-- R113, R114, R126, R376, R377, Tables 7-2 and 7-3: MATT gives the lowest status that applies and attaches the stream where
none does; MDET detaches it, with status 0, or 2 and the error of a stream in ERROR, or 1 where none is attached. That a
SAVED stream counts neither for status 2 nor for status 3 is the model's choice (log entry 92). -/
def Obligations.StreamsAttachAndDetach : Prop :=
  (∀ s i, Issues i s → s.tm.cohort = none → CanTrap s → ((∃ sa sb st, i = .matt sa sb st) ∨ ∃ st, i = .mdet st) →
    ∃ t, exec i s = .next t ∧ Trapped s t 1 0 i.word s.tm.pc) ∧
  (∀ s sa sb st ck c, Issues (.matt sa sb st) s → s.tm.cohort = some ck → getCohort s ck = some c →
    let e := getEngine s s.tm.core
    let start := s.tm.sread sa.val
    let cfg := s.tm.sread sb.val
    let i := Instr.matt sa sb st
    let one := ∃ x ∈ e.streams, x.cohort = ck
    let four := 4 ≤ (e.streams.filter fun x => x.state != .saved).length
    (one → NotAttached s i st 1) ∧ (¬one → four → NotAttached s i st 2) ∧
    (¬one → ¬four → Wanted e cfg → NotAttached s i st 3) ∧
    (¬one → ¬four → ¬Wanted e cfg → BadConfig start cfg → NotAttached s i st 4) ∧
    (¬one → ¬four → ¬Wanted e cfg → ¬BadConfig start cfg → ∃ t, exec i s = .next t ∧ StatusIs s t st 0 ∧
      t.mem = s.mem ∧ (∀ x ∈ e.streams, x ∈ (getEngine t s.tm.core).streams) ∧
      StreamIs t s.tm.core ck fun y => y.state = .running ∧ y.pc = start ∧ y.start = start ∧ y.ctx = s.tm.ctx ∧
        y.tileMask = BitVec.ofNat 2 cfg.toNat ∧ y.slotBase = cfg.toNat / 16 % 16 ∧
        y.slotCount = cfg.toNat / 256 % 16 + 1 ∧ y.barMask = BitVec.ofNat 16 (cfg.toNat / 2 ^ 16) ∧
        y.afmt = .e4m3 ∧ y.j = 0 ∧ y.srec = 0 ∧ Emptied (getEngine t s.tm.core) y ∧
        ∀ b, b < 16 → sget 0 y.arr b = (c.bar b).ph + (if y.barMask.getLsbD b then 0 else 1) ∧
          ∃ c', getCohort t ck = some c' ∧ (c'.bar b).ph = (c.bar b).ph ∧
            (c'.bar b).expected = (c.bar b).expected ++ if y.barMask.getLsbD b then [2 ^ 40 + s.tm.core] else [])) ∧
  (∀ s st ck, Issues (.mdet st) s → s.tm.cohort = some ck → s.tm.wait = .none →
    (findStream s s.tm.core ck = none → ∃ t, exec (.mdet st) s = .next t ∧ StatusIs s t st 1 ∧ t.engines = s.engines) ∧
    (∀ x s1, findStream s s.tm.core ck = some x →
      retireFor s.tm.core x x.stamps (modStream (issued s) s.tm.core ck Stream.stopAll) = (none, s1) →
      ∃ t, exec (.mdet st) s = .next t ∧ findStream t s.tm.core ck = none ∧ Emptied (getEngine t s.tm.core) x ∧
        StatusIs s t st (if x.state = .error then
          BitVec.ofNat 64 (2 + x.errCode * 2 ^ 8 + (x.errPc - x.start).toNat % 2 ^ 48 * 2 ^ 16) else 0)))

namespace Sys2Proof.Statements

/-- What the block of a slot is when it is latched (R110, R119): the image with the planes read and its checksum column,
zero weights for a slot that was never loaded, or none where j exceeds the stored planes. -/
def Latches (e : Engine) (x : Stream) (slot : Nat) (l : Option Latched) : Prop :=
  let bs := sget [] e.slots slot
  match parseImage bs with
  | none => l = some ⟨slot, false, [], 0, x.cohort, checkColumn .zero 0⟩
  | some g =>
    (g.fmt ≠ .bp8 → l = some ⟨slot, false, bs, 0, x.cohort, checkColumn g 0⟩) ∧
    (g.fmt = .bp8 → g.planes < x.j → l = none) ∧
    (g.fmt = .bp8 → x.j ≤ g.planes → let j := if x.j = 0 then g.planes else x.j
      l = some ⟨slot, false, bs, j, x.cohort, checkColumn g j⟩)

/-- R122's formats: the record format of afmt (Table 10-2). -/
def actFormat : AFmt → Nat
  | .e4m3 => 6 | .e5m2 => 7 | .fp4 => 8 | .int8 => 9 | .bf16 => 2 | .f16 => 1

/-- R123's formats. -/
def outFormat : MstaFmt → Nat
  | .f32 => 3 | .bf16 => 2 | .f16 => 1 | .e4m3 => 6 | .e5m2 => 7 | .fp4 => 8 | .int8 => 9 | .s32 => 4 | .raw => 5

/-- The next 32 rows of a running MSTA m are written (R123), from state s0 on, and the tile stays; the word ends with
its last rows. -/
def WritesPart (i : Instr) (s s0 : State) (x : Stream) (m : MstaRun) (r : TRec) (pc : DWord) : Prop :=
  ∀ pas s1, 32 * m.part < recExtent r 1 → x.stamps = [] → x.failing = none →
    let core := s.curStream.1
    let e := getEngine s core
    let w := (chunkRows (recExtent r 1) m.part).flatMap (mstaRow r m.fmt m.ieee (e.tile m.tile))
    checkParts s0 core x.ctx true (w.flatMap fun p => cut p.1 p.2.length) = (.ok pas, s1) → pas.Nodup →
    ∃ t, exec i s = .next t ∧ (getEngine t core).tile m.tile = e.tile m.tile ∧
      (∀ (k : Nat) a b, pas[k]? = some a → (w.flatMap fun p => p.2)[k]? = some b → memGet t a = b) ∧
      (∀ a, a ∉ pas → memGet t a = memGet s1 a) ∧
      StreamIs t core s.curStream.2 fun y => y.pc = pc ∧
        if recExtent r 1 ≤ 32 * (m.part + 1) then y.msta = none ∧ y.granted = false
        else y.msta = some { m with part := m.part + 1 }

/-- The MX formats of MSTA. -/
def isMx : MstaFmt → Bool
  | .e4m3 | .e5m2 | .fp4 | .int8 => true
  | _ => false

end Sys2Proof.Statements

/-- R117 to R125, R132: the words of a stream complete, or stop it with the error code that the rules give. MFMT sets the
formats, MBAR arrives and waits, MEND detaches, MWB starts its image, MLW latches, MCLR clears, MMA starts, MSTA writes its
next 32 rows. The model's choices: where words of the stream are under way, one that fails stops it when they have ended (log
entry 92), and of the codes of MSTA 4 comes before 5 and 5 before 3 (log entry 117). -/
def Obligations.StreamWordsRunOrStop : Prop :=
  (∀ s x f j srec, Turn s (.mfmt f j srec) x →
    (j.val = 1 → Fails s (.mfmt f j srec) x 9) ∧
    (j.val ≠ 1 → Completes s (.mfmt f j srec) x fun t y => y.afmt = f ∧ y.j = j.val ∧ y.srec = srec.val ∧
      y.state = .running ∧ t.mem = s.mem)) ∧
  (∀ s x b op c, Turn s (.mbar b op) x → getCohort s x.cohort = some c → c.members ≠ [] →
    let u := streamId s.curStream.1
    let bar := c.bar b.val
    let last := ∀ v ∈ bar.expected, v ∈ bar.arrived ++ [u]
    let quiet := (∀ m ∈ c.members, ∀ w, (s.getTeam m.2).wait ≠ .barArrive b.val w) ∧
      ∀ e ∈ streamsOf s x.cohort, e.1 ≠ s.curStream.1 → ∀ w, e.2.wait ≠ .barArrive b.val w
    (op.val = 0 ∨ (op.val ≠ 2 ∧ x.barMask.getLsbD b.val = false) → Fails s (.mbar b op) x 6) ∧
    (op.val = 1 ∨ op.val = 3 → x.barMask.getLsbD b.val = true → sget 0 x.arr b.val = bar.ph → x.waitReqs = [] →
      (last → quiet → Completes s (.mbar b op) x fun t y => sget 0 y.arr b.val = bar.ph + 1 ∧ y.state = .running ∧
        ∃ c', getCohort t x.cohort = some c' ∧ (c'.bar b.val).ph = bar.ph + 1 ∧ (c'.bar b.val).arrived = []) ∧
      (¬last → op.val = 1 → Completes s (.mbar b op) x fun t y => sget 0 y.arr b.val = bar.ph + 1 ∧
        y.state = .running ∧ t.mem = s.mem ∧ ∃ c', getCohort t x.cohort = some c' ∧ (c'.bar b.val).ph = bar.ph ∧
          (c'.bar b.val).arrived = bar.arrived ++ [u]) ∧
      (¬last → op.val = 3 → ∃ t, exec (.mbar b op) s = .next t ∧ StreamIs t s.curStream.1 s.curStream.2 fun y =>
        y.state = .parked ∧ y.wait = .barWait b.val ∧ y.pc = x.pc + 4 ∧ sget 0 y.arr b.val = bar.ph + 1)) ∧
    (op.val = 2 → bar.done = false → x.waitReqs = [] →
      ((bar.ph - sget 0 x.arr b.val).toNat < 2 ^ 15 → Completes s (.mbar b op) x fun t _ => t.mem = s.mem ∧
        t.cohorts = s.cohorts) ∧
      (2 ^ 15 ≤ (bar.ph - sget 0 x.arr b.val).toNat → ∃ t, exec (.mbar b op) s = .next t ∧
        StreamIs t s.curStream.1 s.curStream.2 fun y =>
          y.state = .parked ∧ y.wait = .barWait b.val ∧ y.pc = x.pc + 4))) ∧
  (∀ s x s1, Turn s .mend x → retireStamps s.curStream.1 x x.stamps s = (.done, s1) →
    ∃ t, exec .mend s = .next t ∧ findStream t s.curStream.1 s.curStream.2 = none ∧
      Emptied (getEngine t s.curStream.1) x) ∧
  (∀ s x slot rec idx, Turn s (.mwb slot rec idx) x →
    let r := getRec s x.ctx rec.val
    (¬Holds x slot.val → Fails s (.mwb slot rec idx) x 4) ∧
    (Holds x slot.val → r = none ∨ (∃ q, r = some q ∧ recBroken q = true) → Fails s (.mwb slot rec idx) x 5) ∧
    (∀ q, Holds x slot.val → r = some q → recBroken q = false → Completes s (.mwb slot rec idx) x fun t y =>
      t.mem = s.mem ∧ y.state = x.state ∧ y.wait = x.wait ∧
        y.mwbs = x.mwbs ++ [⟨x.pc, slot.val, BitVec.ofInt 64 (recBase q + idx.val * recStride q 0), none⟩])) ∧
  (∀ s x slot l, Turn s (.mlw slot) x → Latches (getEngine s s.curStream.1) x slot.val l →
    (¬Holds x slot.val → Fails s (.mlw slot) x 4) ∧ (Holds x slot.val → l = none → Fails s (.mlw slot) x 9) ∧
    (∀ b, Holds x slot.val → l = some b → Completes s (.mlw slot) x fun t _ => t.mem = s.mem ∧
      (getEngine t s.curStream.1).latched = some b)) ∧
  (∀ s x tile int, Turn s (.mclr tile int) x →
    (¬HoldsTile x tile → Fails s (.mclr tile int) x 4) ∧
    (∀ s1, HoldsTile x tile → retireStamps s.curStream.1 x (x.stamps.filter fun p => p.tile == tile) s = (.done, s1) →
      Completes s (.mclr tile int) x fun t _ => (getEngine t s.curStream.1).tile tile = ⟨int, false, []⟩ ∧
        t.mem = s1.mem)) ∧
  (∀ s x tile stamp rec slot m1, Turn s (.mma tile stamp rec slot m1) x →
    let i := Instr.mma tile stamp rec slot m1
    let noRecord := getRec s x.ctx rec.val = none ∨ (∃ r, getRec s x.ctx rec.val = some r ∧ recInvalid r = true) ∨
      (stamp = true ∧ ∀ q, getRec s x.ctx x.srec = some q → recInvalid q = true)
    (noRecord → Fails s i x 5) ∧
    (∀ r, ¬noRecord → getRec s x.ctx rec.val = some r →
      let n := (recExtent r 0 + 127) / 128
      let e := getEngine s s.curStream.1
      let held := HoldsTile x tile ∧ ∀ k, k < n → Holds x (slot.val + k)
      let fits := recExtent r 0 % 32 = 0 ∧ m1.val + 1 ≤ recExtent r 1
      let pair := recFmt r = actFormat x.afmt ∧ ((e.tile tile).int = true → x.afmt = .int8 ∧
        ∀ k, k < n → ∀ g, parseImage (sget [] e.slots (slot.val + k)) = some g → g.fmt = .bp8 ∨ g.fmt = .mx .int8)
      (¬held → Fails s i x 4) ∧ (held → ¬fits → Fails s i x 5) ∧ (held → fits → ¬pair → Fails s i x 3) ∧
      (held → fits → pair → Completes s i x fun t y => t.mem = s.mem ∧ ∃ m, y.mma = some m ∧ m.word = x.pc ∧
        m.tile = tile ∧ m.stamp = stamp ∧ m.recNo = rec.val ∧ m.slot = slot.val ∧ m.rows = m1.val + 1 ∧ m.kstep = 0 ∧
        m.chunk = 0 ∧ m.issue = s.clock ∧ m.before = e.tile tile))) ∧
  (∀ s x fmt ieee tile rec, Turn s (.msta fmt ieee tile rec) x →
    let i := Instr.msta fmt ieee tile rec
    let e := getEngine s s.curStream.1
    (¬HoldsTile x tile → Fails s i x 4) ∧
    (HoldsTile x tile → getRec s x.ctx rec.val = none → Fails s i x 5) ∧
    (∀ r, HoldsTile x tile → getRec s x.ctx rec.val = some r →
      let bad := 128 < recExtent r 0 ∨ 512 < recExtent r 1 ∨ (isMx fmt = true ∧ recExtent r 0 % 32 ≠ 0) ∨
        recInvalid r = true
      let pair := recFmt r = outFormat fmt ∧ (fmt = .s32 → (e.tile tile).int = true)
      (bad → Fails s i x 5) ∧ (¬bad → ¬pair → Fails s i x 3) ∧
      (¬bad → pair → let m : MstaRun := ⟨x.pc, fmt, ieee, tile, rec.val, 0⟩
        WritesPart i s (modStream s s.curStream.1 x.cohort fun x => { x.skip with msta := some m }) x m r (x.pc + 4)))) ∧
  (∀ s x m r fmt ieee tile rec, findStream s s.curStream.1 s.curStream.2 = some x → x.msta = some m → x.canRun = true →
    x.granted = true → getRec s x.ctx m.recNo = some r → WritesPart (.msta fmt ieee tile rec) s s x m r x.pc)

namespace Sys2Proof.Statements

/-! ### Elements of tiles, and sums, by their exact values (R99, R102, R106, R107, R123) -/

/-- What an exact value of the model stands for. -/
def numV : FVal → Num
  | .nan _ => .nan
  | .inf n => .inf n
  | .fin n m x => .fin n ((if n then -(m : ℚ) else m) * 2 ^ x)

/-- An element of a tile (R102). -/
def tileNum (t : Tile) (m n : Nat) : Num :=
  if t.int then intNum (t.get m n).toInt else numOf fmtAcc (t.get m n).toNat

/-- The code that MSTA writes for an element: the value rounded to nearest, what lies beyond the largest finite number as
ovf says, an infinity as it is, the canonical NaN. -/
def StoredCode (f : FFmt) (ieee : Bool) (x : Num) (c : Nat) : Prop :=
  match x with
  | .nan => c = quietNan f
  | .inf n => c = withSign f n (infinity f)
  | .fin n v => ∃ k, Nearest f .rn n |v| k ∧
      c = withSign f n (if f.maxFin < k then (if ieee then infinity f else f.maxFin) else k)

/-- The bytes of an MX block's element codes: two MXFP4 elements in a byte. -/
def codeBytes (fmt : MxFmt) (code : Nat → Nat) : List Byte :=
  if fmt = .fp4 then (List.range 16).map fun i => BitVec.ofNat 8 (code (2 * i) + 16 * code (2 * i + 1))
  else (List.range 32).map fun i => BitVec.ofNat 8 (code i)

/-- The block formats of MSTA. -/
def blockFormats : List (MstaFmt × MxFmt) := [(.e4m3, .e4m3), (.e5m2, .e5m2), (.fp4, .fp4), (.int8, .int8)]

/-- Element i of a block without its scale. -/
def elementNum (b : Block) (i : Nat) : Option Num :=
  match b.specials[i]?, b.ints[i]? with
  | some (some v), some _ => some (numV v)
  | some none, some k => some (intNum k)
  | _, _ => none

/-- The product of the i-th elements of two blocks is x, none for 0 and an infinity. -/
def ProductIs (a b : Block) (i : Nat) (x : Option Num) : Prop :=
  ∃ y z, elementNum a i = some y ∧ elementNum b i = some z ∧ productOf y z = x

/-- The term that two blocks give (R106, R107). -/
def TermOf (a b : Block) (x : Num) : Prop :=
  let sum : ℤ := ((a.ints.zip b.ints).map fun p => p.1 * p.2).sum
  let nan := a.scale = 255 ∨ b.scale = 255 ∨ (∃ i, ProductIs a b i none ∨ ProductIs a b i (some .nan)) ∨
    ((∃ i, ProductIs a b i (some (.inf true))) ∧ ∃ i, ProductIs a b i (some (.inf false)))
  (nan → x = .nan) ∧
  (¬nan → (∀ n i, ProductIs a b i (some (.inf n)) → x = .inf n) ∧
    ((∀ n i, ¬ProductIs a b i (some (.inf n))) →
      x = .fin (decide (sum < 0)) ((sum : ℚ) * 2 ^ (a.x + b.x + (a.scale : ℤ) + (b.scale : ℤ) - 254))))

end Sys2Proof.Statements

/-- R99, R102, R106 to R108, R110, R116, R117, R120, R122, R123, R129, R131: the steps of the matrix engine. The grant goes
round; an image that has been read is placed or is an error, and where other words run, the stream fails after them (log
entry 92, DESIGN CHOICE); a chunk adds its products, or fails its compare and runs once more, and a second mismatch is
fatal to the context; that an error of the array is an input of the step is log entry 93 (DESIGN CHOICE). A word that is no
stream word stops the stream. Elements convert as R123 says in every format, and sums saturate or round as R102 says; a
negative sum that rounds to zero keeps its sign (log entry 115, DESIGN CHOICE). -/
def Obligations.MatrixEngineStepsComputeTiles : Prop :=
  (∀ s core x, let e := getEngine s core
    x ∈ e.streams → x.wantsGrant s = true → (∀ y ∈ e.streams, y.granted = false) →
    (∀ y ∈ e.streams, y.cohort = x.cohort → y = x) → (∀ y ∈ e.streams, y.order < 2 ^ 64) →
    (∀ y ∈ e.streams, y.wantsGrant s = true → y ≠ x →
      (e.lastGrant < x.order ∧ (y.order ≤ e.lastGrant ∨ x.order < y.order)) ∨
        (x.order ≤ e.lastGrant ∧ y.order ≤ e.lastGrant ∧ x.order < y.order)) →
    ∃ t, exec (.galeGrant core) s = .next t ∧ t.mem = s.mem ∧ (getEngine t core).lastGrant = x.order ∧
      ∀ y ∈ (getEngine t core).streams, y.granted = true ↔ y.cohort = x.cohort) ∧
  (∀ s core k x m img s1, (getEngine s core).streams[k]? = some x → findStream s core x.cohort = some x →
    nextMwb s x [] x.mwbs = some m → x.canRun = true ∨ x.atBarrier = true → x.failing = none →
    (m.read = some img ∧ s1 = s) ∨ (m.read = none ∧ readImage s core x.ctx m.image = (.ok img, s1)) →
    let rest := x.mwbs.filter fun y => y.word != m.word
    (m.read = none → mwbFree s1 x m = false → ∃ t, exec (.mwbComplete core k) s = .next t ∧ t.mem = s1.mem ∧
      (getEngine t core).slots = (getEngine s core).slots ∧ StreamIs t core x.cohort fun y => y.pc = x.pc ∧
        y.mwbs = x.mwbs.map fun y => if y.word = m.word then { y with read := some img } else y) ∧
    (m.read ≠ none ∨ mwbFree s1 x m = true →
      (∀ bs g, img = some bs → parseImage bs = some g →
        ∃ t, exec (.mwbComplete core k) s = .next t ∧ t.mem = s1.mem ∧ sget [] (getEngine t core).slots m.slot = bs ∧
          (∀ n, n ≠ m.slot → sget [] (getEngine t core).slots n = sget [] (getEngine s core).slots n) ∧
          (∀ l, (getEngine s core).latched = some l → (getEngine t core).latched =
            some (if l.slot = m.slot then { l with stale := true } else l)) ∧
          StreamIs t core x.cohort fun y => y.mwbs = rest ∧ y.pc = x.pc) ∧
      ((∀ bs, img = some bs → parseImage bs = none) → (∀ r, x.mma = some r → r.word ≠ m.word) →
        (∀ r, x.msta = some r → r.word ≠ m.word) →
        ∃ t, exec (.mwbComplete core k) s = .next t ∧ (getEngine t core).slots = (getEngine s core).slots ∧
          (rest = [] → x.mma = none → x.msta = none → x.canRun = true → Errs t core x.cohort 2 m.word) ∧
          (rest ≠ [] ∨ x.mma ≠ none ∨ x.msta ≠ none ∨ x.canRun = false → StreamIs t core x.cohort fun y =>
            y.mwbs = rest ∧ y.failing = some (2, m.word) ∧ y.mma = x.mma ∧ y.msta = x.msta)))) ∧
  (∀ s core x m r l s1 pas, let e := getEngine s core
    e.streams.find? (fun y => y.granted && y.canRun && y.mma.isSome) = some x → findStream s core x.cohort = some x →
    x.mma = some m → getRec s x.ctx m.recNo = some r → latchStep s core x m = some (l, s1) →
    let k := recExtent r 0
    let n := min 4 (k / 32 - 4 * m.kstep)
    let rows := chunkRows m.rows m.chunk
    let m1 := { m with latched := some l.planes }
    ∀ s2 intact, checkParts (modStream s1 core x.cohort fun x => { x with mma := some m1 }) core x.ctx false
      (rows.flatMap fun row => actParts r row (4 * m.kstep) n) = (.ok pas, s2) →
    let passes := chunkPasses l (e.tile m.tile).int x.afmt n rows (pas.map (memGet s2)) intact
    (passes = false → m.failed = false → ∃ t, exec (.mmaChunk core intact) s = .next t ∧
      (getEngine t core).tile0 = e.tile0 ∧ (getEngine t core).tile1 = e.tile1 ∧ StreamIs t core x.cohort fun y =>
        y.mma = some { m1 with failed := true, reruns := m.reruns + 1 }) ∧
    (passes = false → m.failed = true → ∃ t, exec (.mmaChunk core intact) s = .next t ∧
      (∃ cause : Byte, sfind t.fatal x.ctx = some (BitVec.ofNat 64 (cause.toNat + 2 ^ 63))) ∧
      (∀ u ∈ t.teams, u.2.ctx ≠ x.ctx) ∧ ∀ y ∈ (getEngine t core).streams, y.ctx ≠ x.ctx) ∧
    (passes = true → x.failing = none → l.img.cols.length ≤ 128 → ∃ t, exec (.mmaChunk core intact) s = .next t ∧
      t.mem = s2.mem ∧
      (getEngine t core).tile (!m.tile) = e.tile (!m.tile) ∧ ((getEngine t core).tile m.tile).int = (e.tile m.tile).int ∧
      (∀ (i row col : Nat), rows[i]? = some row → col < l.img.cols.length →
        ((getEngine t core).tile m.tile).get row col = (accumulate (e.tile m.tile).int ((e.tile m.tile).get row col)
          ((actBlocks x.afmt (((pas.map (memGet s2)).drop (i * (n * actLen x.afmt))).take (n * actLen x.afmt)) n).zipIdx.map
            fun a => (a.1, l.img.block l.planes col a.2))).1) ∧
      (∀ row col, col < 128 → row ∉ rows ∨ l.img.cols.length ≤ col →
        ((getEngine t core).tile m.tile).get row col = (e.tile m.tile).get row col) ∧
      StreamIs t core x.cohort fun y =>
        if 32 * (m.chunk + 1) < m.rows then ∃ m', y.mma = some m' ∧ m'.kstep = m.kstep ∧ m'.chunk = m.chunk + 1
        else if m.kstep + 1 < (k + 127) / 128 then ∃ m', y.mma = some m' ∧ m'.kstep = m.kstep + 1 ∧ m'.chunk = 0
        else y.mma = none ∧ y.granted = false ∧ (m.stamp = true → y.stampSeq = x.stampSeq + 1))) ∧
  (∀ slot owner (bs : List Byte) g j (int : Bool) a (acts : List Byte) n error, parseImage bs = some g → n ≤ 4 →
    acts.length = n * actLen a →
    (rowPasses (blockFrom slot owner bs g j) int (actBlocks a acts n) error = true ↔ error % 65521 = 0)) ∧
  (∀ (int : Bool) (acc : BitVec 40) (a b : Block),
    let v := acc.toInt + ((a.ints.zip b.ints).map fun p => p.1 * p.2).sum
    (accumulate true acc [(a, b)]).1.toInt = max (-(2 ^ 39)) (min (2 ^ 39 - 1) v) ∧
    ((accumulate true acc [(a, b)]).2 = true ↔ v < -(2 ^ 39) ∨ 2 ^ 39 - 1 < v) ∧
    (∃ x fl, TermOf a b x ∧
      SumOf fmtAcc .rn false (numOf fmtAcc acc.toNat) x ((accumulate false acc [(a, b)]).1.toNat, fl)) ∧
    ∀ p q, (accumulate int acc (p ++ q)).1 = (accumulate int (accumulate int acc p).1 q).1) ∧
  (∀ (t : Tile) (ieee : Bool) (m n : Nat),
    mstaElem .raw ieee t m n = toBytes 8 (t.get m n).toNat ∧
    (t.int = true → mstaElem .s32 ieee t m n =
      toBytes 4 (BitVec.ofInt 32 (max (-(2 ^ 31)) (min (2 ^ 31 - 1) (t.get m n).toInt))).toNat) ∧
    (∃ c, StoredCode fmtF32 ieee (tileNum t m n) c ∧ mstaElem .f32 ieee t m n = toBytes 4 c) ∧
    (∃ c, StoredCode fmtBf16 ieee (tileNum t m n) c ∧ mstaElem .bf16 ieee t m n = toBytes 2 c) ∧
    ∃ c, StoredCode fmtF16 ieee (tileNum t m n) c ∧ mstaElem .f16 ieee t m n = toBytes 2 c) ∧
  (∀ (r : TRec) (fmt : MstaFmt) (ieee : Bool) (t : Tile) (m n : Nat), n < recExtent r 0 →
    (∀ g, (fmt, g) ∉ blockFormats) →
    (unitAddr r (n + recExtent r 0 * m), mstaElem fmt ieee t m n) ∈ mstaRow r fmt ieee t m) ∧
  (∀ (r : TRec) (fmt : MstaFmt) (g : MxFmt) (ieee : Bool) (t : Tile) (m b : Nat), (fmt, g) ∈ blockFormats →
    b < recExtent r 0 / 32 → let u := b + recExtent r 0 / 32 * m
    ∃ x es, BlockOf g ((List.range 32).map fun i => tileNum t m (32 * b + i)) x es ∧
      (unitAddr r u, codeBytes g fun i => (es i).1) ∈ mstaRow r fmt ieee t m ∧
      ∀ a, scaleAddr r u = some a → (a, [BitVec.ofNat 8 x]) ∈ mstaRow r fmt ieee t m) ∧
  (∀ s core k w x, (getEngine s core).streams[k]? = some x → findStream s core x.cohort = some x → Still x →
    x.failing = none → ∃ t, exec (.streamOpcodeError core k w) s = .next t ∧
      Errs t core x.cohort (if isStreamOp (w.toNat / 2 ^ 24) = true then 8 else 1) x.pc)

namespace Sys2Proof.Statements

/-! ### Steps of teams -/

/-- The team as a fetch that has succeeded leaves it: no page is waited for. -/
def fetched (s : State) : State :=
  s.modTm fun t => { t with only := none, held := none, unfin := 0, fatalPages := [], hostFail := [] }

/-- The team stands at the first word of a clause of class cls with the words ws at base (R42): every pass with an active
lane runs in classes 0 and 2. -/
def AtClause (t : State) (base : DWord) (cls : Nat) (ws : List Word) : Prop :=
  t.tm.pc = base ∧ ∃ c, t.tm.clause = some c ∧ c.base = base ∧ c.cls = cls ∧ c.words = ws ∧ c.idx = 0 ∧
    c.first = true ∧ c.limit = ws.length ∧
    (cls = 0 ∨ cls = 2 → ∀ q, q ∈ c.passes ↔ q < 32 ∧ ∃ l, l / 32 = q ∧ t.tm.active.getLsbD l = true)

/-- The drain bits of a header cover the results of a kind (Table 3-3). -/
def drains (w : Word) : PendKind → Bool
  | .load | .atomic | .ldc _ => w.getLsbD 20
  | .trans => w.getLsbD 17
  | _ => false

/-- A valid header (Table 3-1). -/
def GoodHeader (w : Word) : Prop :=
  w.extractLsb' 28 4 = 15 ∧ w.extractLsb' 24 4 ≠ 0 ∧ (w.extractLsb' 21 3).toNat ≤ 5 ∧ w.extractLsb' 0 17 = 0 ∧
    (w.extractLsb' 21 3 = 4 → w.extractLsb' 24 4 = 1)

/-- The results besides the k-th, p, when that one has come: so have its lines, which are on their way for none of them any
more (log entry 109). -/
def otherResults (l : List Pending) (k : Nat) (p : Pending) : List Pending :=
  (l.take k ++ l.drop (k + 1)).map fun q =>
    if p.arrived then q else { q with port := q.port.filter fun e => p.port.all fun f => lineOf f.2 != lineOf e.2 }

/-- No engine command of the team is under way (Table 3-3). -/
def EngineDone (s : State) (t : Team) : Prop :=
  t.rowOut = 0 ∧ t.deferred = [] ∧ ∀ c ∈ s.channels, c.1 / 2048 = t.ctx → ∀ x ∈ c.2.queue, x.uid ≠ t.uid

/-- The references that a retiring team drops: its k-registers', and that of the entry that it runs. -/
def ownReferences (x : Team) : List DWord :=
  x.k.map Prod.snd ++ match x.origin with | .entry h => [h] | _ => []

/-- From s to t the environment that h names has one reference less; without one left it is gone, and its slots have
taken their next generations. A handle that names none changes nothing. -/
def OneReferenceLess (s t : State) (h : DWord) : Prop :=
  (h = 0 ∨ namedEnv s h = none → t.envs = s.envs ∧ t.envGens = s.envGens) ∧
    ∀ e, h ≠ 0 → namedEnv s h = some e →
      (1 < e.count → namedEnv t h = some { e with count := e.count - 1 } ∧ t.envGens = s.envGens) ∧
      (e.count ≤ 1 → namedEnv t h = none ∧ ∀ i, i < e.slots →
        let g := slotGen s (envKey (hCore h) (hSlot h) + i)
        slotGen t (envKey (hCore h) (hSlot h) + i) = if g = 65535 then 1 else g + 1)

end Sys2Proof.Statements

/-- R39 to R44, R53, R67, R73, R156, R250, R330, R352: a header starts its clause, or takes the illegal-instruction trap,
or, where a race exception is pending, that trap; a return resumes its words without a header. A drain ends when the
engines are done. A result that commits writes its registers, and its lines have come (log entry 109, DEDUCED). A team without lanes, which has left its cohort, and with
nothing under way retires, and its references are dropped. A clause is fetched whole at its header (log entry 18, DEDUCED),
and a misaligned clause traps with the word at its address (log entry 89, DEDUCED). -/
def Obligations.TeamStepsFetchDrainCommitAndRetire : Prop :=
  (∀ s w s1, s.tm.resume = none → s.tm.racePending = false ∨ s.tm.inHandler = true → s.tm.pc.toNat % 4 = 0 →
    fetchAll s s.tm s.tm.pc 1 = (.ok [w], s1) →
    (¬GoodHeader w → CanTrap s1 → ∃ t, exec .clauseHeader s = .next t ∧ Trapped s1 t 0x01 0 w s1.tm.pc) ∧
    (∀ s2 ws s3, GoodHeader w → s2 = (fetched s1).modTm (fun t => t.commitWhere fun p => drains w p.kind) →
      (∀ p ∈ s2.tm.pending, drains w p.kind = true → p.more = true ∧ p.lost = []) →
      (w.getLsbD 18 = true → EngineDone s2 s2.tm) →
      fetchAll s2 s2.tm (s2.tm.pc + 4) (w.extractLsb' 24 4).toNat = (.ok ws, s3) →
      let cls := (w.extractLsb' 21 3).toNat
      s3.tm.active ≠ 0 → (cls = 0 ∨ cls = 2 → ∀ x ∈ ws, decodeTraps cls (fetched s3).tm x = false) →
      ∃ t, exec .clauseHeader s = .next t ∧ AtClause t (s3.tm.pc + 4) cls ws ∧ t.tm.s = s3.tm.s ∧ t.tm.v = s3.tm.v ∧
        t.mem = s3.mem)) ∧
  (∀ s n cls ws s1, s.tm.resume = some (n, cls) → s.tm.pc.toNat % 4 = 0 → fetchAll s s.tm s.tm.pc n = (.ok ws, s1) → ws ≠ [] →
    s1.tm.active ≠ 0 → (cls = 0 ∨ cls = 2 → ∀ x ∈ ws, decodeTraps cls { (fetched s1).tm with resume := none } x = false) →
    ∃ t, exec .clauseHeader s = .next t ∧ AtClause t s1.tm.pc cls ws ∧ t.tm.resume = none ∧ t.tm.s = s1.tm.s ∧
      t.mem = s1.mem) ∧
  (∀ s, s.tm.resume = none → s.tm.racePending = true → CanTrap s →
    ∃ t, exec .clauseHeader s = .next t ∧ Trapped s t 0x09 0 0 s.tm.pc ∧ t.tm.racePending = false) ∧
  (∀ s ws s1, s.tm.resume = none → s.tm.racePending = false ∨ s.tm.inHandler = true → s.tm.pc.toNat % 4 ≠ 0 →
    fetchAll s s.tm s.tm.pc 1 = (.ok ws, s1) → CanTrap s1 →
    ∃ t, exec .clauseHeader s = .next t ∧ Trapped s1 t 0x01 0 (ws.headD 0) s1.tm.pc) ∧
  (∀ s u a b c d, let x := s.getTeam u
    x.wait = .drain a b c d → EngineDone s x → x.state = .stalled → x.reenter = false →
    ∃ t, exec (.drainEnd u) s = .next t ∧ (t.getTeam u).state = .ready ∧ (t.getTeam u).wait = .none ∧
      (t.getTeam u).pc = x.pc ∧ t.mem = s.mem) ∧
  (∀ s u (k : Nat) lanes p, let x := s.getTeam u
    x.pending[k]? = some p → x.state ≠ .halted → p.span = 0 → p.blocked = false →
    (∀ (j : Nat) q, j < k → x.pending[j]? = some q → p.overlaps q = false) →
    (p.vals.map Prod.fst).Nodup → (p.svals.map Prod.fst).Nodup → (x.wait = .none ∨ x.wait = .commit) →
    x.reenter = false →
    (p.kind = .load ∨ p.kind = .trans ∨ p.kind = .atomic ∨ p.kind = .status → ∃ t,
      exec (.resultCommit u k lanes) s = .next t ∧ t.mem = s.mem ∧ let y := t.getTeam u
      y.pending = otherResults x.pending k p ∧ y.pc = x.pc ∧ y.wait = .none ∧
      (∀ e ∈ p.vals, sget 0 y.v e.1 = e.2) ∧ (∀ g, g ∉ p.vals.map Prod.fst → sget 0 y.v g = sget 0 x.v g) ∧
      (∀ e ∈ p.svals, sget 0 y.s e.1 = e.2) ∧ (∀ g, g ∉ p.svals.map Prod.fst → sget 0 y.s g = sget 0 x.s g) ∧
      y.fpflags = x.fpflags ||| p.flags.setWidth 32) ∧
    (∀ c, p.kind = .ldc c → p.more = false → p.svals = [] → ∃ t, exec (.resultCommit u k lanes) s = .next t ∧
      t.mem = s.mem ∧ let y := t.getTeam u
      (∀ e ∈ p.vals, lanes.getLsbD (e.1 % 32) = true → sget 0 y.v e.1 = e.2) ∧
      (∀ g, (∀ e ∈ p.vals, e.1 = g → lanes.getLsbD (g % 32) = false) → sget 0 y.v g = sget 0 x.v g) ∧
      ((∀ e ∈ p.vals, lanes.getLsbD (e.1 % 32) = true) → y.aread c = x.aread c + 1 ∧
        y.pending = otherResults x.pending k p) ∧
      ((∃ e ∈ p.vals, lanes.getLsbD (e.1 % 32) = false) → y.a = x.a ∧ y.pending.length = x.pending.length))) ∧
  (∀ s u, let x := s.getTeam u
    x.full = 0 → x.state ≠ .retired → x.state ≠ .halted → x.busy s = false → dirtyHeld s x.core = false →
    x.entered = [] →
    x.cohort = none → ∃ t, exec (.teamRetirement u) s = .next t ∧ sfind t.teams u = none ∧
      (∀ ctx q seq r, x.origin = .launch ctx q seq → r ∈ (getCtx s ctx).runs → r.q = q → r.seq = seq →
        { r with retired := r.retired + 1 } ∈ (getCtx t ctx).runs) ∧
      (∀ h, (∀ ctx tcb, x.origin ≠ .task ctx tcb) → (∀ h', x.origin ≠ .entry h') →
        x.k.map Prod.snd = [h] → OneReferenceLess s t h) ∧
      (∀ h, x.k = [] → x.origin = .entry h → OneReferenceLess s t h) ∧
      ((∀ ctx tcb, x.origin ≠ .task ctx tcb) → let t0 := (ownReferences x).foldl dropRef s
        t.envs = t0.envs ∧ t.envGens = t0.envGens))

namespace Sys2Proof.Statements

/-! ### The distributor -/

/-- A new team that starts at entry (R60, R80): its place, its masks, and registers that hold zero but for some scalars. -/
def Starts (t : State) (u core part : Nat) (n : Need) (entry : DWord) (scalars : Sparse DWord) : Prop :=
  ∃ y, sfind t.teams u = some y ∧ y.uid = u ∧ y.core = core ∧ y.part = part ∧ y.ctx = n.ctx ∧ y.cls = n.cls ∧
    y.lanes = n.lanes ∧ y.nreg = n.nreg ∧ y.scratchSize = n.scratch ∧ y.bundleCap = n.cap ∧ y.state = .ready ∧
    y.pc = entry ∧ y.v = [] ∧ y.p = [] ∧ y.k = [] ∧ y.a = [] ∧ y.scratch = [] ∧ y.fpflags = 0 ∧ y.callDepth = 0 ∧
    y.maskStack = [] ∧ y.active = y.full ∧ (∀ l, y.full.getLsbD l = true ↔ l < n.lanes ∧ l < 1024) ∧
    ∀ k, sget 0 y.s k = sget 0 scalars k

/-- The stamp of a context is written where its address is aligned and translates (R234). -/
def Stamped (s1 t : State) (ctx : Nat) (va value : DWord) : Prop :=
  ∀ pa s2, va ≠ 0 → va.toNat % 8 = 0 → reach s1 ctx va .write false = (.at_ pa, s2) →
    ∀ i, i < 8 → memGet t (pa + i) = BitVec.ofNat 8 (value.toNat / 2 ^ (8 * i))

/-- The TEAMIDs of a plane in traversal order. -/
def teamIds (order swizzle x y : Nat) : List Nat := (planeOrder order swizzle x y).map fun p => p.1 + x * p.2

end Sys2Proof.Statements

/-- R229 to R240, R258, R259, R262, R284: posting and cancelling; the head is read and started or refused; a team is placed
in traversal order with its scalars loaded, or a swapped one returns; a launch whose teams have retired is stamped; a task
is dequeued; the running context of a die pair changes; a team is swapped out; PSET and the gate. The traversal orders
are those of R237's example. The model's choices: offsets inside an image are log entry 29, the images' places 96, the
turn of tasks among the queues 98, the end of a slice as an input 100, a switch without a running context 55, a switch in
one step 56, the cancelling of queued blocks 57. -/
def Obligations.DistributorStepsPostPlaceAndComplete : Prop :=
  (∀ s off block, let ctx := off / 512
    let q := off % 512 / 8
    off % 8 = 0 → (sfind s.ctxs ctx).isSome = true → serving s = true → let x := getQueue s ctx q
    (block ≠ 0 → x.entries.length < 256 → ∃ t, exec (.launchAperturePost off block) s = .next t ∧ t.mem = s.mem ∧
      getQueue t ctx q = { x with entries := x.entries ++ [⟨block, x.nextSeq + 1, false⟩], nextSeq := x.nextSeq + 1 }) ∧
    (block ≠ 0 → 256 ≤ x.entries.length → ∃ t, exec (.launchAperturePost off block) s = .next t ∧ t.mem = s.mem ∧
      getQueue t ctx q = { x with discarded := min 65535 (x.discarded + 1) }) ∧
    (∀ i, i = .launchAperturePost off 0 ∨ i = .ballastCancel off → ∃ t, exec i s = .next t ∧ t.mem = s.mem ∧
      (getQueue t ctx q).entries = x.entries.map (fun e => { e with cancel := true }) ∧
      ∀ r ∈ (getCtx s ctx).runs, r.q = q → r.ballast = true → { r with cancel := true } ∈ (getCtx t ctx).runs)) ∧
  (∀ s ctx q e rest pa s1, (getQueue s ctx q).entries = e :: rest → headRun s ctx q = none →
    serving s = true → reach s ctx e.block .read true = (.at_ pa, s1) →
    let r := startRun q e (BitVec.ofNat 2048 (memRead s1 pa 256))
    (r.valid = true → r.holdable s1 ctx = true → ∃ t, exec (.launchHeadRead ctx q) s = .next t ∧ t.mem = s1.mem ∧
      (getCtx t ctx).runs = (getCtx s ctx).runs ++ [r] ∧ r.placed = 0 ∧ r.retired = 0 ∧ r.cursor = r.coreFirst) ∧
    (∀ v, (r.valid = false ∧ v = 1) ∨ (r.valid = true ∧ r.holdable s1 ctx = false ∧ v = 2) →
      ∃ t, exec (.launchHeadRead ctx q) s = .next t ∧ (getQueue t ctx q).entries = rest ∧
        Stamped s1 t ctx r.stampAddr (BitVec.ofNat 64 (e.seq % 2 ^ 48 + v * 2 ^ 48)))) ∧
  (∀ s dp ctx r core part, sget none s.running dp = some ctx → r.cls < 8 →
    (∀ c, c < r.cls → serveClass s dp ctx c = none) → returning s dp ctx r.cls = [] →
    turnOf s dp ctx r.cls = some r.q → (placing s dp ctx r.cls).find? (fun x => x.1.q == r.q) = some (r, core, part) →
    let p := r.point r.placed
    ∃ t, exec (.teamPlacement dp) s = .next t ∧ t.mem = s.mem ∧ t.nextUid = s.nextUid + 1 ∧
      Starts t s.nextUid core part (r.need ctx) r.entry
        [(20, BitVec.ofNat 64 (p.1 + p.2.1 * 2 ^ 20 + p.2.2 * 2 ^ 40)), (21, r.blockVa), (22, BitVec.ofNat 64 (r.fld 64 64))] ∧
      (∀ y, sfind t.teams s.nextUid = some y → y.teamId = p.1 + r.dimX * (p.2.1 + r.dimY * p.2.2)) ∧
      (r ∈ (getCtx s ctx).runs → ∃ x ∈ (getCtx t ctx).runs, x.q = r.q ∧ x.seq = r.seq ∧ x.placed = r.placed + 1 ∧
        x.cursor = if core + 1 < r.coreFirst + r.coreCount then core + 1 else r.coreFirst)) ∧
  (∀ s dp ctx c u core part rest, sget none s.running dp = some ctx → c < 8 →
    (∀ d, d < c → serveClass s dp ctx d = none) → returning s dp ctx c = (u, core, part) :: rest →
    (s.getTeam u).uid = u → (s.getTeam u).state = .swapped → (s.getTeam u).waitv = none →
    ∃ t, exec (.teamPlacement dp) s = .next t ∧ (t.getTeam u).state = .ready ∧ (t.getTeam u).core = core ∧
      (t.getTeam u).part = part ∧ (t.getTeam u).pc = (s.getTeam u).pc ∧ (t.getTeam u).v = (s.getTeam u).v ∧
      (t.getTeam u).s = (s.getTeam u).s) ∧
  (∀ s ctx q r, (getCtx s ctx).runs.find? (fun r => r.q == q && r.over) = some r →
    (∀ c ∈ r.cores, dirtyHeld s c = false) → let s0 := carryToHost (r.cores.foldl l1Release s)
    (r.ballast = false ∨ r.cancel = true → ∃ t, exec (.launchCompletionStamp ctx q) s = .next t ∧
      Stamped s0 t ctx r.stampAddr (BitVec.ofNat 64 (r.seq % 2 ^ 48)) ∧
      ∀ x ∈ (getCtx t ctx).runs, ¬(x.q = q ∧ x.seq = r.seq)) ∧
    (r.ballast = true → r.cancel = false → (getQueue s ctx q).entries.length < 256 → ∃ t e,
      exec (.launchCompletionStamp ctx q) s = .next t ∧
      Stamped s0 t ctx r.stampAddr (BitVec.ofNat 64 (r.seq % 2 ^ 48)) ∧
      (getQueue t ctx q).entries = (getQueue s ctx q).entries ++ [e] ∧ e.block = r.blockVa ∧
      e.seq = (getQueue s ctx q).nextSeq + 1)) ∧
  (∀ s ctx q h cfg prio seq rest core part e, let dp := readyDp s ctx q
    let r := getReady s ctx q
    let s0 := passTurn s dp 1 (64 + q % 16)
    sget none s.running dp = some ctx → (serveClass s dp ctx 0).isSome = false → returning s dp ctx 1 = [] →
    turnOf s dp ctx 1 = some (64 + q % 16) →
    r.entries = .closure h cfg prio seq :: rest → readyPlace s0 dp (cfgNeed ctx cfg) r = some (core, part) →
    h ≠ 0 → hCtx h = ctx → 6 ≤ (cfgNeed ctx cfg).nreg → liveEnv s h = some e → e.vcount = 0 → e.ref = false → e.smask = 0 →
    ∃ t y, exec (.taskDequeue ctx q) s = .next t ∧ (getReady t ctx q).entries = rest ∧ sfind t.teams s.nextUid = some y ∧
      y.origin = .entry h ∧ y.core = core ∧ y.part = part ∧ y.pc = e.entry ∧ y.callDepth = 1 ∧ sget 0 y.s 20 = 0 ∧
      sget 0 y.s 21 = seq.setWidth 64) ∧
  (∀ s ctx q a prio seq rest pa s1 core part e, let dp := readyDp s ctx q
    let r := getReady s ctx q
    sget none s.running dp = some ctx → (serveClass s dp ctx 0).isSome = false → returning s dp ctx 1 = [] →
    turnOf s dp ctx 1 = some (64 + q % 16) → r.entries = .tcb a prio seq :: rest →
    reach (passTurn s dp 1 (64 + q % 16)) ctx (BitVec.ofNat 64 a) .write true = (.at_ pa, s1) →
    readyPlace s1 dp (tcbNeed s1 ctx pa) r = some (core, part) →
    tcbClosure s1 pa ≠ 0 → hCtx (tcbClosure s1 pa) = ctx → 6 ≤ (tcbNeed s1 ctx pa).nreg →
    liveEnv s1 (tcbClosure s1 pa) = some e → e.vcount = 0 → e.ref = false → e.smask = 0 →
    ∃ t y, exec (.taskDequeue ctx q) s = .next t ∧ sfind t.teams s1.nextUid = some y ∧ y.origin = .task ctx a ∧
      y.core = core ∧ y.part = part ∧ y.pc = e.entry ∧ y.callDepth = 1 ∧ sget 0 y.s 20 = BitVec.ofNat 64 a ∧
      sget 0 y.s 21 = seq.setWidth 64 ∧ (memGet t (pa + 12)).toNat % 8 = 3) ∧
  (∀ s dp c sliceEnd saves, nextContext s dp sliceEnd = some c →
    c ∈ skeys s.ctxs ∧ sget none s.running dp ≠ some c ∧ (∀ d ∈ skeys s.ctxs, ctxClass s dp c ≤ ctxClass s dp d) ∧
    (sget none s.running dp = none → dp < 4 → ∃ t, exec (.contextSwitch ⟨dp, sliceEnd, saves⟩) s = .next t ∧
      sget none t.running dp = some c ∧ t.teams = s.teams ∧ t.mem = s.mem) ∧
    (sliceEnd = false → ∀ cur, sget none s.running dp = some cur → ctxClass s dp c < 7 ∧
      ∀ k ∈ workClasses s dp cur ++ placedClasses s dp cur, ctxClass s dp c < k) ∧
    (∀ cur, sget none s.running dp = some cur → canLeave s dp cur = true → savesOk s dp cur saves = true → ∃ t,
      exec (.contextSwitch ⟨dp, sliceEnd, saves⟩) s = .next t ∧ sget none t.running dp = some c ∧
      ∀ u x, sfind s.teams u = some x → x.ctx = cur → x.core / 128 = dp → x.resident = true → x.state ≠ .halted →
        x.benter = none → x.waitv = none → (∀ c v, x.wait ≠ .await c v) →
        (t.getTeam u).state = .swapped ∧ (t.getTeam u).pc = x.pc ∧ (t.getTeam u).active = x.active ∧
        (t.getTeam u).p = x.p)) ∧
  (∀ s u save, let x := s.getTeam u
    x.uid = u → coreOpen s x.core x.ctx = true → save % 4096 = 0 → imageFree s u save = true → s.pools = [] → x.waitv = none →
    (∀ c v, x.wait ≠ .await c v) →
    let saved := fun t : State => let y := t.getTeam u
      y.state = .swapped ∧ y.pc = x.pc ∧ y.image = some save ∧
        (∀ n, n < 24 → memRead t (save + 64 + 8 * n) 8 = (sget 0 y.s n).toNat) ∧
        memRead t save 8 = (match x.clause with | some c => c.base - BitVec.ofNat 64 (4 * (c.skipped + 1)) | none => x.pc).toNat
    (x.state = .parked → (getCtx s x.ctx).swapThreshold.toNat ≤ (s.clock - x.parkedSince).toNat →
      (∃ n ∈ waitingNeeds s x.ctx x.core, poolFits s x.core n.1 = true ∧
        ∀ p ∈ partsOf n.2, fitsPart s x.core n.1 true p = false) →
      ∃ t, exec (.swapOut ⟨u, save⟩) s = .next t ∧ saved t ∧ (t.getTeam u).wait = x.wait) ∧
    (x.state = .ready → x.blocked = false → x.cls = 7 → x.clause = none → x.resume = none →
      (∃ n ∈ waitingNeeds s x.ctx x.core, n.1.cls ≠ 7 ∧ wantsSlot s x.core n.1 n.2 = true) →
      ∃ t, exec (.ballastSwapOut ⟨u, save⟩) s = .next t ∧ saved t)) ∧
  (∀ s avg gate, (∀ e ∈ s.thermal, e.2.step = 0) → exec (.ballastGating avg gate) s = .next { s with pset :=
    { setpoint := (match s.pset.next with | some n => n.1 | none => s.pset.setpoint)
      enable := (match s.pset.next with | some n => n.2 | none => s.pset.enable)
      avg := avg, next := none
      gated := gate && (match s.pset.next with | some n => n.2 | none => s.pset.enable) } }) ∧
  (∀ s value, exec (.psetWrite value) s =
    .next { s with pset := { s.pset with next := some (value.setWidth 12, value.getLsbD 31) } }) ∧
  (teamIds 0 1 4 4 = [0, 4, 1, 5, 2, 6, 3, 7, 8, 12, 9, 13, 10, 14, 11, 15] ∧
    teamIds 2 0 4 4 = [0, 1, 4, 5, 2, 3, 6, 7, 8, 9, 12, 13, 10, 11, 14, 15] ∧
    teamIds 3 0 4 4 = [0, 1, 5, 4, 8, 12, 13, 9, 10, 14, 15, 11, 7, 6, 2, 3])

namespace Sys2Proof.Statements

/-! ### Stratus and the expanders -/

/-- Nothing but teams and streams waits for Stratus, and no load is to be made again. -/
def Unasked (s : State) : Prop :=
  s.taskEnds = [] ∧ s.stampWaits = [] ∧ s.tcbNotes = [] ∧ s.fabric.waiting = [] ∧
    ∀ e ∈ s.teams, ∀ p ∈ e.2.pending, p.lost = []

/-- No word of memory is watched through a translation: no team waits in WAITV, no copy for its condition. -/
def Unwatched (s : State) : Prop :=
  (∀ e ∈ s.teams, e.2.wait ≠ .waitv) ∧ ∀ e ∈ s.channels, ∀ c ∈ e.2.queue, c.condPa = none

/-- Everything but the TLBs and the row commands. -/
def SameButTlbs (s t : State) : Prop := { t with tlbs := s.tlbs, rowQueue := s.rowQueue } = s

/-- Team u is parked for the answer of request id, and for nothing else. -/
def WaitsOn (s : State) (u id : Nat) : Prop :=
  let x := s.getTeam u
  (sfind s.teams u).isSome = true ∧ x.wait = .fault ∧ x.state = .parked ∧ x.waitReqs = [id] ∧ x.fabric = [] ∧
    x.benter = none ∧ x.reenter = false

/-- Team u goes on with its word: its unfinished lanes act again (R274, R278). -/
def Resumed (s t : State) (u : Nat) (fatal hostFail : List Nat) : Prop :=
  let x := s.getTeam u
  let y := t.getTeam u
  y.state = .ready ∧ y.wait = .none ∧ y.waitReqs = [] ∧ y.pc = x.pc ∧ y.fatalPages = x.fatalPages ++ fatal ∧
    y.hostFail = x.hostFail ++ hostFail ∧ y.only = if x.unfin = 0 then x.only else some x.unfin

/-- An 8-byte value stands at a. -/
def Holds8 (t : State) (a : Nat) (v : DWord) : Prop := ∀ i, i < 8 → memGet t (a + i) = BitVec.ofNat 8 (v.toNat / 2 ^ (8 * i))

/-- No TLB entry of a context overlaps a range. -/
def NoEntry (t : State) (ctx lo hi : Nat) : Prop := ∀ x ∈ t.tlbs, ¬(x.ctx = ctx ∧ x.base < hi ∧ lo < x.base + x.size)

/-- The lane's load of an unfinished result has no data: the lane is lost and its team parks (R276). -/
def LaneLost (t : State) (u : Nat) (l : Nat) : Prop :=
  (t.getTeam u).state = .parked ∧ (t.getTeam u).wait = .fault ∧ ∃ q ∈ (t.getTeam u).pending, l ∈ q.lost

end Sys2Proof.Statements

/-- R270 to R278, R288: what Stratus, the host and the expanders do. A reply, and a response of the host, lets the teams that
wait for its request go on, knowing of a fatal page; an invalidation removes the entries it names; a migration marks its
leaf, and then copies the page and replaces the leaf; a sweep lowers the heat; a port that goes down, or a completion that
does not come, leaves loads without data; an uncorrectable error ends its contexts. Read by inference: the units and the condition
words that an invalidation makes translate again (log entry 105), and the lanes that a lost port leaves without data, whose
team parks at its next word (log entry 66). -/
def Obligations.StratusStepsAnswerMigrateAndFail : Prop :=
  (∀ s id r q u, Unasked s → s.reqs.find? (fun q => q.id == id && !q.migrating) = some q → WaitsOn s u id →
    (r = .fatal → ∃ t, exec (.stratusReply id r) s = .next t ∧ Resumed s t u [q.page] []) ∧
    (∀ ws, r = .map ws → s.cxlDown = 0 → (writeTables s ws).isSome = true → ∃ t, exec (.stratusReply id r) s = .next t ∧
      Resumed s t u [] [] ∧
      (∀ w ∈ ws, (∀ x ∈ ws, x ≠ w → x.addr / 8 ≠ w.addr / 8) → Holds8 t (w.addr / 8 * 8) w.value) ∧
      ((∀ w ∈ ws, lineKey s (lineOf w.addr) = 0) →
        ∀ a, (∀ w ∈ ws, a / 8 ≠ w.addr / 8) → memGet t a = memGet s a))) ∧
  (∀ s (cores : BitVec 512) ctx lo hi, let under := rowsUnderWay s (fun c => cores.getLsbD c) ctx lo hi
    (under = true ∨ Unwatched s → ∃ t, exec (.tlbInvalidation cores ctx lo hi) s = .next t ∧ SameButTlbs s t ∧
      t.rowQueue = (if under then s.rowQueue else s.rowQueue.map fun r =>
        if cores.getLsbD r.core && r.ctx == ctx && r.unbegun s && r.meets lo hi then
          { r with accepted := false, dstPa := [], srcPa := [], toAccept := [], places := [] } else r) ∧
      ∀ x, x ∈ t.tlbs ↔ x ∈ s.tlbs ∧
        ¬(cores.getLsbD x.core = true ∧ x.ctx = ctx ∧ x.base < hi ∧ lo < x.base + x.size)) ∧
    (∀ k ch c rest pas s1, under = false → s.rowQueue = [] → (∀ e ∈ s.teams, e.2.wait ≠ .waitv) →
      s.channels = [(k, ch)] → ch.queue = c :: rest → k / 2048 = ctx → cores.getLsbD (k % 2048 / 4) = true →
      c.condPa ≠ none → (tCond c.tmpl).toNat < hi → lo < (tCond c.tmpl).toNat + 4 →
      engineCheck { s with tlbs := s.tlbs.filter fun x =>
        !(cores.getLsbD x.core && x.ctx == ctx && x.base < hi && lo < x.base + x.size) }
        (k % 2048 / 4) [.ahead] c.ctx (tCond c.tmpl) 4 true false = (.ok pas, s1) →
      ∃ t c', exec (.tlbInvalidation cores ctx lo hi) s = .next t ∧ (getChan t k).queue = c' :: rest ∧
        c'.condPa = some (pas.headD 0))) ∧
  (∀ s ctx (va : DWord) addr n e, walkCtx s ctx va = .leaf addr n e → (sfind s.ctxs ctx).isSome = true →
    framePinned s (pteFrame e) n = false → addr % 8 = 0 →
    let base := va.toNat / n * n
    let as := if e.getLsbD 4 then (List.range 16).map fun i => addr / 128 * 128 + 8 * i else [addr]
    let apart := fun a : Nat => ∀ x ∈ as, a < x ∨ x + 8 ≤ a
    migrationHeld s as (pteFrame e) n = false →
    (e.getLsbD 5 = false → Unwatched s → (∀ x ∈ as, lineKey s (lineOf x) = 0) → ∃ t, exec (.pageMigration ctx va .start) s = .next t ∧
      (∀ x ∈ as, Holds8 t x (BitVec.ofNat 64 (memRead s x 8) ||| 32)) ∧ (∀ a, apart a → memGet t a = memGet s a) ∧
      NoEntry t ctx base (base + n)) ∧
    (∀ leaf, e.getLsbD 5 = true → migLeafOk s e leaf n = true → s.l1 = [] → s.pools = [] → s.reqs = [] →
      (∀ ln, lineKey s ln = 0) → s.shadows = [] → leafKey e = 0 → leafKey leaf = 0 →
      let old := pteFrame e
      let new := pteFrame leaf
      old + n ≤ new ∨ new + n ≤ old → (∀ i, i < n → apart (old + i) ∧ apart (new + i)) →
      ∃ t, exec (.pageMigration ctx va (.finish leaf)) s = .next t ∧ (∀ x ∈ as, Holds8 t x leaf) ∧
        NoEntry t ctx base (base + n) ∧ (∀ i, i < n → memGet t (new + i) = memGet s (old + i)) ∧
        ∀ a, apart a → a < new ∨ new + n ≤ a → memGet t a = memGet s a)) ∧
  (∀ s ctx, (sfind s.ctxs ctx).isSome = true → let r := leavesOf s (getCtx s ctx).root [5, 4, 3, 2, 1]
    (∀ a ∈ r.1, a % 8 = 0 ∧ heldLine s true (lineOf a) = false) →
    ∃ t, exec (.heatSweep ctx) s = .next t ∧ t.tlbs = s.tlbs ∧
      (∀ a ∈ r.1, Holds8 t a (coolLeaf (BitVec.ofNat 64 (memRead r.2 a 8)))) ∧
      ∀ b, (∀ a ∈ r.1, b / 8 * 8 ≠ a) → memGet t b = memGet r.2 b) ∧
  (∀ e : DWord, (coolLeaf e).extractLsb' 7 2 = (if e.extractLsb' 7 2 = 0 then 0 else e.extractLsb' 7 2 - 1) ∧
    (coolLeaf e).extractLsb' 9 2 = (if e.extractLsb' 9 2 = 0 then 0 else e.extractLsb' 9 2 - 1) ∧
    ∀ i, i < 7 ∨ 11 ≤ i → (coolLeaf e).getLsbD i = e.getLsbD i) ∧
  (∀ s record writes, s.rings.rspHead = s.rings.rspTail → exec (.hostPageResponse record writes) s = .next s) ∧
  (∀ s record writes q u, Unasked s → s.rings.rspHead ≠ s.rings.rspTail →
    s.reqs.find? (fun q => q.host == some (rspTag record) && !q.queued && q.ctx == rspCtx record) = some q →
    WaitsOn s u q.id → let next := (s.rings.rspHead + 1) % 4096
    (rspOk s record = false → ∃ t, exec (.hostPageResponse record writes) s = .next t ∧ t.rings.rspHead = next ∧
      Resumed s t u [] [q.page]) ∧
    (rspOk s record = true →
      let s0 := { putHost s (s.rings.rspBase.toNat + 32 * s.rings.rspHead) (toBytes 32 record.toNat) with
        rings := { s.rings with rspHead := next } }
      writeTables s0 writes = some (tableWrites s0 writes) →
      leafInstalled (tableWrites s0 writes) q.ctx q.page record = true →
      ∃ t, exec (.hostPageResponse record writes) s = .next t ∧ t.rings.rspHead = next ∧ Resumed s t u [] [] ∧
        t.mem = (tableWrites s0 writes).mem)) ∧
  (∀ s (port : Fin 4) u, let x := s.getTeam u
    let s1 := { s with cxlDown := s.cxlDown ||| BitVec.ofNat 4 (2 ^ port.val) }
    ∃ t, exec (.cxlLinkDown port) s = .next t ∧ (∀ p : Fin 4, t.cxlDown.getLsbD p.val = true ↔
        p = port ∨ s.cxlDown.getLsbD p.val = true) ∧
      (∀ p e, (sfind s.teams u).isSome = true → x.state = .ready → x.wait = .none → x.fabric = [] →
        (∀ q ∈ x.pending, q.lost = []) → p ∈ x.pending → p.arrived = false → e ∈ p.port → portDown s1 e.2 = true →
        e.1 ∈ p.eas.map Prod.fst → LaneLost t u e.1)) ∧
  (∀ s u (k : Nat) p e, let x := s.getTeam u
    x.state = .ready → x.wait = .none → x.fabric = [] → (∀ q ∈ x.pending, q.lost = []) → x.pending[k]? = some p → p.arrived = false →
    e ∈ p.port → e.1 ∈ p.eas.map Prod.fst → ∃ t, exec (.cxlCompletionTimeout u k) s = .next t ∧ LaneLost t u e.1) ∧
  (∀ s ctxs cause (pa : BitVec 40) bad, ∃ t, exec (.uncorrectableError ctxs cause pa bad) s = .next t ∧
    (∀ c, (sfind s.ctxs c).isSome = true → c ∈ ctxs ∨ ctxs = [] → sfind t.fatal c =
        some (BitVec.ofNat 64 (cause.toNat + pa.toNat * 2 ^ 8 + 2 ^ 63)) ∧ ∀ e ∈ t.teams, e.2.ctx ≠ c) ∧
    (bad = true → pa.toNat / 256 ∈ t.badFrames) ∧ ∀ l ∈ s.badFrames, l ∈ t.badFrames)

namespace Sys2Proof.Statements

/-! ### Networks -/

/-- A fabric request that the target performs when it arrives (R299): it is admitted, not known, and not too old. -/
def Fresh (s : State) (q : FabIn) : Prop :=
  s.boot.stage = 2 ∧ q.admitted = true ∧ ownRequest s q = true ∧ findDone s q.src q.seq = none ∧
    (∀ x ∈ s.fabric.waiting, ¬(x.src = q.src ∧ x.seq = q.seq)) ∧ staleSeq s q.src q.seq = false ∧
    (sfind s.ctxs q.ctx).isSome = true

/-- The proxy may access n bytes of q's window at off (R297). -/
def Checked (s : State) (q : FabIn) (off n : Nat) (k : ReqKind) (reads : Bool) (pas : List Nat) (s1 : State) : Prop :=
  proxyCheck s q (exportVa s q.ctx off) n k reads = (.ok pas, s1) ∧ pas.length = n ∧ pas.Nodup

/-- The target has recorded the response. -/
def Recorded (t : State) (q : FabIn) (r : FabReply) : Prop := (findDone t q.src q.seq).map FabDone.resp = some r

/-- The bytes at some addresses. -/
def BytesAt (t : State) (pas : List Nat) (bs : List Byte) : Prop :=
  ∀ (i : Nat) a b, pas[i]? = some a → bs[i]? = some b → memGet t a = b

end Sys2Proof.Statements

/-- R287, R292, R293, R296 to R302: route tables take permitted routes only; a port goes down after 16 failed replays of a
flit; a fabric request is performed once and its response is recorded; contributions are combined when every member has
given its own; a response resolves its request, a resend counts, and the ninth time the request fails; halt states are
kept; the host reads and writes HBM. That a contribution's response is recorded when it has been taken, before its round is
combined, is read by inference (log entry 69). -/
def Obligations.NetworkStepsPerformOnceAndResolve : Prop :=
  (∀ s port entry value, port < 512 → entry < 512 →
    (routeOk port value = true → exec (.routeTableWrite port entry value) s =
      .next { s with routes := sput s.routes (port * 512 + entry) ((value.setWidth 102).setWidth 128) }) ∧
    (routeOk port value = false → exec (.routeTableWrite port entry value) s = .next { s with routeErr := true })) ∧
  (∀ port value, routeOk port value = true → ∃ x nx y ny z, routeTurns value = List.replicate nx x ++
    List.replicate ny y ++ z ∧ (x = 0 ∨ x = 1) ∧ (y = 2 ∨ y = 3) ∧ (z = [] ∨ z = [4] ∨ z = [5]) ∧
    nx + ny + z.length ≤ 32) ∧
  (∀ s (port : Fin 12), s.fabric.down.getLsbD port.val = false →
    let n := sget 0 s.fabric.replays port.val
    (∃ t, exec (.balzalFlitReplay port false) s = .next t ∧ sget 0 t.fabric.replays port.val = 0 ∧
      t.fabric.down = s.fabric.down ∧
      (sget 0 s.errCounters 12 ≠ BitVec.allOnes 32 → sget 0 t.errCounters 12 = sget 0 s.errCounters 12 + 1)) ∧
    ∃ t, exec (.balzalFlitReplay port true) s = .next t ∧
      (t.fabric.down.getLsbD port.val = true ↔ 16 ≤ n + 1) ∧ (n + 1 < 16 → sget 0 t.fabric.replays port.val = n + 1) ∧
      ∀ p : Fin 12, p ≠ port → t.fabric.down.getLsbD p.val = s.fabric.down.getLsbD p.val) ∧
  (∀ s src seq ctx off rel n pas s1, let q : FabIn := ⟨src, seq, ctx, off, .load n⟩
    Fresh s q → Checked s q off n .read true pas s1 → ∃ t, exec (.fabricRequest src seq ctx off (.load n) rel) s = .next t ∧
      Recorded t q (.data (pas.map (memGet s1))) ∧ t.mem = s1.mem) ∧
  (∀ s src seq ctx off rel d pas s1, let q : FabIn := ⟨src, seq, ctx, off, .store d⟩
    Fresh s q → Checked s q off d.length .write false pas s1 →
    ∃ t, exec (.fabricRequest src seq ctx off (.store d) rel) s = .next t ∧ Recorded t q (.data []) ∧
      BytesAt t pas d ∧ ∀ a, a ∉ pas → memGet t a = memGet s1 a) ∧
  (∀ s src seq ctx off rel op c d pas s1, let q : FabIn := ⟨src, seq, ctx, off, .atom op c d⟩
    Fresh s q → Checked s q off (atomSize op) .write true pas s1 →
    ∃ t, exec (.fabricRequest src seq ctx off (.atom op c d) rel) s = .next t ∧
      Recorded t q (.data (pas.map (memGet s1))) ∧
      BytesAt t pas (toBytes pas.length
        (atomicResult op (BitVec.ofNat 64 (ofBytes (pas.map (memGet s1)))) c d).toNat) ∧
      ∀ a, a ∉ pas → memGet t a = memGet s1 a) ∧
  (∀ s src seq ctx off op rel x, (∀ n, op ≠ .load n) → findDone s src seq = some x →
    exec (.fabricRequest src seq ctx off op rel) s = .next s) ∧
  (∀ s src seq ctx off kind d pas s1 g x, let q : FabIn := ⟨src, seq, ctx, off, .reduce kind d none⟩
    Fresh s q → Checked s q off d.length .write true pas s1 → pas ≠ [] →
    reductionGroup s ctx (pageOf (exportVa s ctx off)) = some (g, x) →
    reductionGroup s1 ctx (pageOf (exportVa s1 ctx off)) = some (g, x) → s1.fabric = s.fabric → src < 4096 →
    let k := sget 0 s.fabric.counts (pas.headD 0 * 4096 + src)
    let given := (s.fabric.rounds.find? fun r => r.group == g && r.pas.headD 0 == pas.headD 0 && r.round == k).getD
      ⟨g, pas, [], kind, k, []⟩
    ∃ t, exec (.fabricContribution src seq ctx off kind d none) s = .next t ∧
      (src ∉ x.members → Recorded t q .outside ∧ t.mem = s1.mem) ∧
      (src ∈ x.members → Recorded t q (.data []) ∧ sget 0 t.fabric.counts (pas.headD 0 * 4096 + src) = k + 1 ∧
        ((∃ m ∈ x.members, m ≠ src ∧ ∀ e ∈ given.given, e.1 ≠ m) → t.mem = s1.mem ∧
          ∃ r ∈ t.fabric.rounds, r.round = k ∧ (src, d, 0) ∈ r.given) ∧
        (∀ v, (∀ m ∈ x.members, m = src ∨ ∃ e ∈ given.given, e.1 = m) → given.pas = pas → given.scalePa = [] →
          let r := { given with given := given.given ++ [(src, d, (0 : Byte))] }
          combineTree given.kind r.given.length r.values = some v →
          BytesAt t pas (combine given.kind (pas.map (memGet s1)) 0 v.1 v.2).1 ∧
            ∀ a, a ∉ pas → memGet t a = memGet s1 a))) ∧
  (∀ s target seq q, findReq s target seq = some q →
    (∀ u r l, q.who = .team u → (sfind s.teams u).isSome = true → replyFits q.op r = true →
      target ≠ s.fabric.id ∨ (findDone s target seq).map FabDone.resp = some r → (s.getTeam u).pending = [] →
      l ∈ (s.getTeam u).fabric → l.target = target → l.seq = seq → ∃ t, exec (.fabricResponse target seq r) s = .next t ∧
        { l with reply := some r } ∈ (t.getTeam u).fabric ∧ t.mem = s.mem ∧
        (∀ y ∈ t.fabric.outstanding, ¬(y.target = target ∧ y.seq = seq)) ∧
        ((s.getTeam u).wait = .fault → (s.getTeam u).state = .parked → (s.getTeam u).waitReqs = [] →
          (s.getTeam u).reenter = false →
          (∀ y ∈ (s.getTeam u).fabric, y.reply.isSome = true ∨ (y.target = target ∧ y.seq = seq)) →
          (t.getTeam u).state = .ready)) ∧
    exec (.fabricPendingResponse target seq) s = .next s ∧
    (target ∈ s.fabric.halted → exec (.fabricRetransmit target seq) s = .next s) ∧
    (target ∉ s.fabric.halted → q.resends < 8 → ∃ t, exec (.fabricRetransmit target seq) s = .next t ∧
      findReq t target seq = some { q with resends := q.resends + 1 } ∧ t.mem = s.mem) ∧
    (∀ u l, target ∉ s.fabric.halted → 8 ≤ q.resends → q.who = .team u → (sfind s.teams u).isSome = true →
      (s.getTeam u).pending = [] → l ∈ (s.getTeam u).fabric → l.target = target → l.seq = seq →
      ∃ t, exec (.fabricRetransmit target seq) s = .next t ∧ { l with reply := some .fail } ∈ (t.getTeam u).fabric)) ∧
  (∀ s pkg h, pkg < 4096 → ∃ t, exec (.fabricHaltState pkg h) s = .next t ∧ (pkg ∈ t.fabric.halted ↔ h = true) ∧
    (∀ p, p ≠ pkg → (p ∈ t.fabric.halted ↔ p ∈ s.fabric.halted)) ∧ t.mem = s.mem) ∧
  (∀ s pa d, pa + d.length ≤ 2 ^ 39 → s.boot.stage = 1 ∨ s.boot.stage = 2 → (∀ i, i < d.length →
      backed s (pa + i) = true ∧ lineKey s (lineOf (pa + i)) = 0) →
    let pas := (List.range d.length).map (pa + ·)
    (sliceStop s false true pas = none → ∃ t, exec (.hostMemoryAccess pa (.write d)) s = .next t ∧
      (∀ (i : Nat) b, d[i]? = some b → memGet t (pa + i) = b) ∧
      ∀ a, a < pa ∨ pa + d.length ≤ a → memGet t a = memGet s a) ∧
    (sliceStop s true false pas = none → ∃ t, exec (.hostMemoryAccess pa (.read d.length)) s = .next t ∧
      t.mem = s.mem ∧ t.teams = s.teams))

namespace Sys2Proof.Statements

/-! ### Debugger, start-up, temperature, contexts -/

/-- Nothing but the debugger's registers changes. -/
def OnlyDebug (s t : State) : Prop := { t with dbg := s.dbg } = s

/-- The write that sets bit k of a core's DBG_ENG (R310). -/
def engineStop (core k : Nat) : Instr :=
  if k < 4 then .dbgEngChannelStop core k
  else if k < 8 then .dbgEngStreamStop core (k - 4)
  else .dbgEngRowStop core

/-- Nothing but temperatures and what follows from them changes. -/
def OnlyHeat (s t : State) : Prop :=
  { t with
    sensors := s.sensors, refreshMult := s.refreshMult, refreshCool := s.refreshCool
    stackStopped := s.stackStopped, rowQueue := s.rowQueue, thermal := s.thermal } = s

/-- Nothing works, and memory, keys, environments, contexts and registers are as after reset. -/
def Cleared (t : State) : Prop :=
  t.mem = State.reset.mem ∧ t.l1 = [] ∧ t.l2 = [] ∧ t.teams = [] ∧ t.ctxs = [] ∧ t.envs = [] ∧ t.channels = [] ∧
    t.rowQueue = [] ∧ t.rings = State.reset.rings ∧ t.sec = State.reset.sec ∧ t.dbg = State.reset.dbg ∧
    t.fabric = State.reset.fabric

/-- A firmware copy verifies and passes the rollback test (R313). -/
def Passes (s : State) (c : Option FwCopy) (v : FwCopy) : Prop := c = some v ∧ s.boot.rollback ≤ v.version

/-- Sensors of a die pair whose readings its evaluation takes (R318). -/
def DieSensor (d n : Nat) : Prop := (16 * d ≤ n ∧ n < 16 * d + 16) ∨ (64 + 8 * d ≤ n ∧ n < 64 + 8 * d + 8)

/-- Offsets whose writes do something. -/
def Written (off : Nat) : Prop :=
  off < 0x200000 ∨ off ∈ [0x200000, 0x200010, 0x200018, 0x200020, 0x210488, 0x23C000, 0x240100, 0x240200] ∨
    (0x230000 ≤ off ∧ off < 0x234020) ∨ (0x238000 ≤ off ∧ off < 0x239000) ∨ (0x240208 ≤ off ∧ off < 0x240250) ∨
    (0x241000 ≤ off ∧ off < 0x241440)

/-- The setup that Stratus may give a context (R238, R266, R281). -/
def SetupOk (s : State) (ctx : Nat) (d : CtxSetup) : Prop :=
  (s.boot.stage = 1 ∨ s.boot.stage = 2) ∧ ctx < 4096 ∧ s.ctxs.length < 64 ∧ sfind s.ctxs ctx = none ∧
    d.root % 4096 = 0 ∧ d.root < 2 ^ 39 ∧ frameOk s d.root 4096 = true ∧
    canonical d.trapEntry = true ∧ d.trapEntry.toNat % 4 = 0 ∧ 2 ^ 12 ≤ d.swapThreshold.toNat ∧
    d.swapThreshold.toNat ≤ 2 ^ 24

end Sys2Proof.Statements

/-- R306, R309, R310: a partition stops with its resident teams HALTED and goes on as it was; a phase step lets the halted
members of one cohort run until their next arrival, those that are swapped out once they are placed (log entry 104, read by
inference); DBG_ENG stops and resumes a core's engines: a stopped stream gives the array up, which interrupts its MMA (R116,
R131), and a stopped channel with no part of a unit under way in the fabric (R202), or row command, makes no step. -/
def Obligations.DebugStepsStopAndResume : Prop :=
  (∀ s core part, core < 512 → part < 4 → let k := core * 4 + part
    ∃ t, exec (.partitionStop core part) s = .next t ∧ { t with dbg := s.dbg, teams := s.teams } = s ∧
      (∀ j, j ∈ t.dbg.halted ↔ j = k ∨ j ∈ s.dbg.halted) ∧
      ∀ u, (sfind s.teams u).isSome = true → let x := s.getTeam u
        t.getTeam u = if x.partKey = k ∧ x.state ≠ .halted ∧ x.state ≠ .swapped ∧ x.state ≠ .retired then
          { x with state := .halted, haltedFrom := x.state, stepping := false } else x) ∧
  (∀ s core part, let k := core * 4 + part
    k ∈ s.dbg.halted → ∃ t, exec (.partitionResume core part) s = .next t ∧
      { t with dbg := s.dbg, teams := s.teams } = s ∧ (∀ j, j ∈ t.dbg.halted ↔ j ≠ k ∧ j ∈ s.dbg.halted) ∧
      ∀ u, (sfind s.teams u).isSome = true → let x := s.getTeam u
        (x.partKey ≠ k ∨ x.state ≠ .halted → t.getTeam u = x) ∧
        (x.partKey = k → x.state = .halted → x.wait ≠ .commit → (∀ c v, x.wait ≠ .await c v) →
          (t.getTeam u).state = x.haltedFrom ∧ (t.getTeam u).pc = x.pc ∧ (t.getTeam u).wait = x.wait ∧
          (x.pending = [] →
            t.getTeam u = { x with state := x.haltedFrom, haltedFrom := .ready, stepping := false }))) ∧
  (∀ s dp ctx cohort c, let ck := cohKey ctx cohort
    getCohort s ck = some c → c.dp = dp → ∃ t, exec (.phaseStep dp ctx cohort) s = .next t ∧
      { t with dbg := s.dbg, teams := s.teams } = s ∧
      ∀ u, (sfind s.teams u).isSome = true → let x := s.getTeam u
        let away := x.state = .swapped ∨ (x.state = .halted ∧ x.haltedFrom = .swapped)
        (x.cohort ≠ some ck ∨ (x.state ≠ .halted ∧ x.state ≠ .swapped) → t.getTeam u = x) ∧
        (x.cohort = some ck → away → t.getTeam u = { x with stepping := true }) ∧
        (x.cohort = some ck → x.state = .halted ∨ x.state = .swapped →
          (t.getTeam u).stepping = true ∧ sget false t.dbg.stepDone dp = false) ∧
        (x.cohort = some ck → x.state = .halted → ¬away → x.wait ≠ .commit → (∀ c v, x.wait ≠ .await c v) →
          (t.getTeam u).state = x.haltedFrom ∧ (t.getTeam u).pc = x.pc)) ∧
  (∀ before s u b, s.dbg.stepCohort ≠ [] → sfind before.teams u = some b → (sfind s.teams u).isSome = true →
    let x := s.getTeam u
    x.stepping = true → x.cohort = b.cohort → x.arr ≠ b.arr → x.state ≠ .halted → x.state ≠ .swapped →
    x.state ≠ .retired → (noteSteps before s).getTeam u = if x.partKey ∈ s.dbg.halted then
      { x with state := .halted, haltedFrom := x.state, stepping := false } else { x with stepping := false }) ∧
  (∀ s core (k : Nat), core < 512 → k < 9 → (∀ j x, j < 4 → nthStream s core j = some x →
      x.stopped = ((sget 0 s.dbg.engStop core).getLsbD (4 + j) && (x.stopped || x.msta.isNone))) → (∃ t, exec (engineStop core k) s = .next t ∧
      (∀ c b, (sget 0 t.dbg.engStop c).getLsbD b = ((c == core && b == k) || (sget 0 s.dbg.engStop c).getLsbD b)) ∧
      ((k < 4 ∨ k = 8) → OnlyDebug s t) ∧ t.mem = s.mem ∧ t.teams = s.teams ∧
      ∀ x, 4 ≤ k → k < 8 → nthStream s core (k - 4) = some x → x.msta = none →
        ((getEngine s core).streams.map Stream.cohort).Nodup → (x.granted = true → x.stopped = false) →
        nthStream t core (k - 4) = some { x with
          stopped := true, granted := false
          mma := if x.granted then x.mma.map fun m => { m with interrupts := m.interrupts + 1 } else x.mma }) ∧
    ∃ t, exec (.dbgEngResume core k) s = .next t ∧
      (∀ c b, (sget 0 t.dbg.engStop c).getLsbD b = (!(c == core && b == k) && (sget 0 s.dbg.engStop c).getLsbD b)) ∧
      ((k < 4 ∨ k = 8) → OnlyDebug s t) ∧ t.mem = s.mem ∧ t.teams = s.teams ∧
      ∀ x, 4 ≤ k → k < 8 → nthStream s core (k - 4) = some x →
        ((getEngine s core).streams.map Stream.cohort).Nodup →
        nthStream t core (k - 4) = some { x with stopped := false }) ∧
  (∀ s core (k : Nat), k < 4 → (sget 0 s.dbg.engStop core).getLsbD k = true →
    (∀ key c, liveKey s core k = some key → (getChan s key).queue.head? = some c → c.fab = []) →
    exec (.copyUnit core k) s = .next s) ∧
  (∀ s cmd unit r, findRow s cmd = some r → (sget 0 s.dbg.engStop r.core).getLsbD 8 = true →
    exec (.rowPrestep cmd unit) s = .next s ∧ exec (.rowStep cmd unit) s = .next s ∧
      exec (.rowFallbackUnit cmd) s = .next s)

/-- R312 to R315, R318 to R321, R323 to R326: start-up with the stage and the error that its checks give, full function, loss
of power and the trip; readings, refresh multipliers and clock steps; keys and the attestation report. Read by inference: the
error codes of start-up (log entry 73), 32 readings for 32 ms (5), the count of evaluations (76), no pause in safe function
(77). The model's choices: what the expanders offer as an input (4), unwrapping and the signature as free values (10). -/
def Obligations.StartupTemperatureAndSecuritySteps : Prop :=
  (∀ s a b selfTest, s.power ≠ .on ∨ s.boot.stage = 0 → ∃ t, exec (.powerGood a b selfTest) s = .next t ∧
    t.power = .on ∧ Cleared t ∧ t.fuses = s.fuses ∧
    (∀ v, Passes s a v ∨ ((∀ w, ¬Passes s a w) ∧ Passes s b v) → t.boot.secVersion = v.version ∧
      t.boot.digest = v.digest ∧ t.boot.stage = (if selfTest = true then 1 else 3) ∧
      (selfTest = true → t.boot.error = if a.any (fun w => s.boot.rollback ≤ w.version) then 0 else 1) ∧
      (selfTest = false → t.boot.error = 4)) ∧
    ((∀ w, ¬Passes s a w ∧ ¬Passes s b w) → t.boot.stage = 3 ∧
      t.boot.error = if a = none ∧ b = none then 2 else 3) ∧
    (t.boot.stage = 1 → (getThermal t 0).safeClk = true ∧
      (∀ i, t.units.cores.getLsbD i = (decide (i < 32) && s.fuses.cores.getLsbD i)) ∧
      ∀ i, t.units.stackEn.getLsbD i = (decide (i < 2) && s.fuses.stackEn.getLsbD i))) ∧
  (∀ s a b selfTest, s.power = .on → s.boot.stage ≠ 0 → exec (.powerGood a b selfTest) s = .next s) ∧
  (∀ s, s.boot.stage = 1 → ∃ t, exec .fullFunction s = .next t ∧
    t.boot = { s.boot with stage := 2 } ∧ { t.units with ports := s.fuses.ports, cxl := s.fuses.cxl } = s.fuses ∧
    (∀ k : Fin 24, t.units.ports.getLsbD k.val = (s.fuses.ports.getLsbD k.val &&
      (decide (4 ≤ k.val) || ((s.expanders[k.val]?).getD none).isSome))) ∧
    (∀ k : Fin 4, t.cxlDown.getLsbD k.val = !t.units.ports.getLsbD k.val) ∧
    (∀ k c, k < 4 → t.units.ports.getLsbD k = true → s.expanders[k]? = some (some c) →
      t.units.cxl[k]? = some (min (2 ^ 41) c / 2 ^ 30 * 2 ^ 30)) ∧ getThermal t 0 = { getThermal s 0 with safeClk := false, paused := true } ∧
    (∀ d, d ≠ 0 → getThermal t d = getThermal s d) ∧ t.teams = s.teams ∧ t.mem = s.mem ∧ t.agenda = s.agenda) ∧
  (∀ s, s.power ≠ .off → ∃ t, exec .powerOff s = .next t ∧ t.power = .off ∧ Cleared t ∧ t.boot.stage = 0) ∧
  (∀ s, let hot := ∃ n x, n < 104 ∧ sensorTemp (sensor s n) = some x ∧ celsius 122 ≤ x
    (hot → ∃ t, exec .thermalTrip s = .next t ∧ t.power = .tripped ∧ Cleared t) ∧
    (¬hot → exec .thermalTrip s = .next s)) ∧
  (∀ s values, ∃ t, exec (.tsensRefresh values) s = .next t ∧ OnlyHeat s { t with teams := s.teams } ∧
    t.thermal = s.thermal ∧ (t.stackStopped = s.stackStopped → t.teams = s.teams) ∧
    (∀ n, n < 104 → sensor t n = if (s.boot.stage = 1 ∧ 16 ≤ n ∧ n < 64) ∨ (values.getD n 0).getLsbD 31 = false then 0
      else values.getD n 0 &&& 0x8000FFFF) ∧
    ∀ k, k < 8 → let m := sget 0 s.refreshMult k
      (sensorTemp (sensor t (96 + k)) = none → sget 0 t.refreshMult k = m ∧
        t.stackStopped.getLsbD k = s.stackStopped.getLsbD k) ∧
      ∀ x, sensorTemp (sensor t (96 + k)) = some x →
        (x ≤ celsius 85 → sget 0 t.refreshMult k = m) ∧
        (celsius 85 < x → x ≤ celsius 95 → sget 0 t.refreshMult k = max m 1) ∧
        (celsius 95 < x → sget 0 t.refreshMult k = max m 2) ∧
        (celsius 105 < x → t.stackStopped.getLsbD k = true) ∧ (x < celsius 100 → t.stackStopped.getLsbD k = false) ∧
        (celsius 100 ≤ x → x ≤ celsius 105 → t.stackStopped.getLsbD k = s.stackStopped.getLsbD k)) ∧
  (∀ s (k : Fin 8), let m := sget 0 s.refreshMult k.val
    let cool := sget 0 s.refreshCool (coolKey k.val (m - 1))
    (0 < m → 32 ≤ cool → ∃ t, exec (.refreshMultiplierFall k) s = .next t ∧ OnlyHeat s t ∧
      ∀ j, sget 0 t.refreshMult j = if j = k.val then m - 1 else sget 0 s.refreshMult j) ∧
    (m = 0 ∨ cool < 32 → exec (.refreshMultiplierFall k) s = .next s)) ∧
  (∀ s (d : Fin 4) h, s.boot.stage = 1 ∨ s.boot.stage = 2 → sensorTemp (hottestDp s d.val) = some h →
    let x := getThermal s d.val
    let cool := if h < celsius 104 then min 10 (x.cool + 1) else 0
    ∃ t, exec (.thermalEvaluation d) s = .next t ∧ OnlyHeat s t ∧
      (∀ j, j ≠ d.val → getThermal t j = getThermal s j) ∧ let y := getThermal t d.val
      y.step = (if celsius 112 ≤ h ∧ x.step < 3 then x.step + 1 else if cool = 10 ∧ 0 < x.step then x.step - 1 else x.step) ∧
      y.cool = cool ∧ (y.warn = true ↔ celsius 108 ≤ h) ∧ y.safeClk = x.safeClk ∧
      (y.paused = true ↔ x.paused = true ∨ (y.step ≠ x.step ∧ s.boot.stage = 2 ∧ x.safeClk = false))) ∧
  (∀ s d h, sensorTemp (hottestDp s d) = some h → (∃ n, DieSensor d n ∧ sensorTemp (sensor s n) = some h) ∧
    ∀ n x, DieSensor d n → sensorTemp (sensor s n) = some x → x ≤ h) ∧
  (∀ s (d : Fin 4), ∃ t, exec (.throttlePauseEnd d) s = .next t ∧ OnlyHeat s t ∧
    getThermal t d.val = { getThermal s d.val with paused := false } ∧ ∀ j, j ≠ d.val → getThermal t j = getThermal s j) ∧
  (∀ s (slot : Fin 4096), let k := Config.unwrap s.boot.startups (padded 1088 s.sec.kemCt) (padded 72 s.sec.keyData)
    let refused := ∃ w, exec (.keyLoad slot) s = .next { s with sec := { s.sec with keyCmd := w } } ∧
      w.extractLsb' 0 12 = BitVec.ofNat 12 slot.val ∧ w.extractLsb' 12 2 = 1 ∧ w.getLsbD 62 = true ∧ w.getLsbD 63 = false
    (slot.val = 0 → refused) ∧
    (slot.val ≠ 0 → match k with
      | none => refused
      | some key => ∃ t, exec (.keyLoad slot) s = .next t ∧
        (∀ n, sget none t.sec.keys n = if n = slot.val then some key else sget none s.sec.keys n) ∧
        t.sec.keyCmd.getLsbD 62 = false ∧ t.ctxs = s.ctxs)) ∧
  (∀ s (slot : Fin 4096), slot.val ≠ 0 → canon L2Line.blank s.l2 = true → s.l1 = [] →
    (∀ ln, lineKey s ln = slot.val → ln * 256 / 2 ^ 44 ≠ 2 ∧ portDown s (ln * 256) = false ∧
      capturedAt s (ln * 256) = false) → ∃ t, exec (.keyClear slot) s = .next t ∧
      (∀ n, sget none t.sec.keys n = if n = slot.val then none else sget none s.sec.keys n) ∧
      t.sec.keyCmd.getLsbD 62 = false ∧ (∀ ln, lineKey t ln ≠ slot.val) ∧
      (∀ ln, lineKey s ln = slot.val → (l2Get t ln).present = false ∧ (l2Get t ln).dirty = 0) ∧
      (∀ ln, lineKey s ln ≠ slot.val → l2Get t ln = l2Get s ln) ∧
      ∀ a, lineKey s (lineOf a) ≠ slot.val → memGet t a = memGet s a) ∧
  (∀ s nonce, ∃ body, exec (.attestationReport nonce) s = .next { s with sec := { s.sec with
      nonce := nonce, report := body ++ padded 2420 (Config.sign s.boot.startups body) } } ∧ body.length = 0x510 ∧
    body.take 0x20 = toBytes 32 nonce.toNat ∧
    (body.drop 0x20).take 0x20 = toBytes 32 s.boot.digest.toNat ∧
    (body.drop 0x48).take 0x20 = toBytes 32 (sha3 (discoveryBytes s.units)).toNat ∧
    (body.drop 0x40).take 4 = toBytes 4 s.boot.secVersion ∧ (body.drop 0x45).take 1 = toBytes 1 s.boot.stage ∧
    (body.drop 0x46).take 2 = toBytes 2 s.fabric.id ∧ (body.drop 0x68).take 8 = List.replicate 8 0 ∧
    body.drop 0x70 = padded 1184 (Config.kemKey s.boot.startups))

/-- R5, R266, R276, R278, R281, R288, R305: which management register a write changes; a context is created with the setup
that Stratus gives it, and its destruction or a fatal error discards its work. The model's choices: the ring bases drop bits
11:0, KEY_DATA and KEM_CT are kept, and the aperture is the first 2 MiB (log entry 99); the creation of a context carries its
setup (log entry 62). The trace enable is read by inference (log entry 63). -/
def Obligations.ManagementAndContextSteps : Prop :=
  (∀ s off v byPort, (off % 8 ≠ 0 ∨ (0x230000 ≤ off ∧ off < 0x240000 ∧ byPort = false) ∨ ¬Written off) →
    exec (.mgmtRegisterWrite off v byPort) s = .next s) ∧
  (∀ s (v : DWord) byPort,
    (∃ b, exec (.mgmtRegisterWrite 0x200000 v byPort) s = .next { s with rings := { s.rings with reqBase := b } } ∧
      b = v &&& ~~~4095) ∧
    (∃ b, exec (.mgmtRegisterWrite 0x200018 v byPort) s = .next { s with rings := { s.rings with rspBase := b } } ∧
      b = v &&& ~~~4095) ∧
    (∃ t, exec (.mgmtRegisterWrite 0x200010 v byPort) s = .next t ∧ t.rings.reqHead = v.toNat % 4096 ∧
      ((∀ q ∈ s.reqs, q.queued = false) → t = { s with rings := { s.rings with reqHead := v.toNat % 4096 } })) ∧
    exec (.mgmtRegisterWrite 0x200020 v byPort) s = .next { s with rings := { s.rings with rspTail := v.toNat % 4096 } } ∧
    exec (.mgmtRegisterWrite 0x210488 v byPort) s = .next { s with fabric := { s.fabric with id := v.toNat % 4096 } } ∧
    exec (.mgmtRegisterWrite 0x23C000 v true) s = .next { s with dbg := { s.dbg with traceOn := v.getLsbD 0 } }) ∧
  (∀ s k (v : DWord), k < 2048 → ∃ t, exec (.mgmtRegisterWrite (0x230000 + 8 * k) v true) s = .next t ∧
    (∀ j, j ∈ t.dbg.bkptEn ↔ if j = k then v.getLsbD 3 = true else j ∈ s.dbg.bkptEn) ∧
    (v.getLsbD 0 = false → v.getLsbD 1 = false → OnlyDebug s t ∧ t.dbg.halted = s.dbg.halted) ∧
    (v.getLsbD 0 = true → v.getLsbD 1 = false → k ∈ t.dbg.halted ∧
      exec (.partitionStop (k / 4) (k % 4)) { s with dbg := { s.dbg with bkptEn := t.dbg.bkptEn } } = .next t) ∧
    (v.getLsbD 0 = false → v.getLsbD 1 = true → k ∉ t.dbg.halted ∧
      exec (.partitionResume (k / 4) (k % 4)) { s with dbg := { s.dbg with bkptEn := t.dbg.bkptEn } } = .next t)) ∧
  (∀ s (v : DWord), (∀ dp, dp < 4 → exec (.mgmtRegisterWrite (0x234000 + 8 * dp) v true) s =
      exec (.phaseStep dp (v.extractLsb' 16 12).toNat (v.extractLsb' 0 16).toNat) s) ∧
    (∀ core, core < 512 → ∃ t, exec (.mgmtRegisterWrite (0x238000 + 8 * core) v true) s = .next t ∧
      sget 0 t.dbg.engStop core = v.extractLsb' 0 9 ∧ t.mem = s.mem ∧ t.teams = s.teams) ∧
    ∀ byPort, (∀ off, off < 0x200000 → off % 8 = 0 →
        exec (.mgmtRegisterWrite off v byPort) s = exec (.launchAperturePost off v) s) ∧
      exec (.mgmtRegisterWrite 0x240100 v byPort) s = exec (.psetWrite v) s ∧
      ∀ n : Fin 4096, v.extractLsb' 0 12 = BitVec.ofNat 12 n.val →
        (v.extractLsb' 12 2 = 1 → exec (.mgmtRegisterWrite 0x240200 v byPort) s = exec (.keyLoad n) s) ∧
        (v.extractLsb' 12 2 = 2 → exec (.mgmtRegisterWrite 0x240200 v byPort) s = exec (.keyClear n) s)) ∧
  (∀ s k (v : DWord) byPort, (k < 9 → ∃ l, exec (.mgmtRegisterWrite (0x240208 + 8 * k) v byPort) s =
        .next { s with sec := { s.sec with keyData := l } } ∧ l.length = 72 ∧ ∀ i, i < 72 →
      l.getD i 0 = if i / 8 = k then v.extractLsb' (8 * (i % 8)) 8 else s.sec.keyData.getD i 0) ∧
    (k < 136 → ∃ l, exec (.mgmtRegisterWrite (0x241000 + 8 * k) v byPort) s =
        .next { s with sec := { s.sec with kemCt := l } } ∧ l.length = 1088 ∧ ∀ i, i < 1088 →
      l.getD i 0 = if i / 8 = k then v.extractLsb' (8 * (i % 8)) 8 else s.sec.kemCt.getD i 0)) ∧
  (∀ s ctx d, SetupOk s ctx d → ∃ t c, exec (.contextCreation ctx d) s = .next t ∧ sfind t.ctxs ctx = some c ∧
    c.root = d.root ∧ c.trapEntry = d.trapEntry ∧ c.swapThreshold = d.swapThreshold ∧ c.exportBase = d.exportBase ∧
    (∀ i, i < 256 → sfind c.tensors i = d.tensors[i]?) ∧ (∀ i, i < 4096 → sfind c.templates i = d.templates[i]?) ∧
    c.queues = [] ∧ c.runs = [] ∧ c.ready = [] ∧
    { t with ctxs := s.ctxs, fabric := s.fabric, sweepPeriod := s.sweepPeriod } = s ∧
    ∀ j, j ≠ ctx → sfind t.ctxs j = sfind s.ctxs j) ∧
  (∀ s ctx d, ¬SetupOk s ctx d → exec (.contextCreation ctx d) s = .next s) ∧
  (∀ s ctx, (sfind s.ctxs ctx).isSome = true → ∃ t, exec (.contextDestruction ctx) s = .next t ∧
    sfind t.ctxs ctx = none ∧ (∀ e ∈ t.teams, e.2.ctx ≠ ctx) ∧ (∀ e ∈ t.cohorts, e.2.ctx ≠ ctx) ∧
    (∀ q ∈ t.running, q.2 ≠ some ctx) ∧ t.mem = s.mem ∧ (∀ j, j ≠ ctx → sfind t.ctxs j = sfind s.ctxs j) ∧
    ∀ u, (s.getTeam u).ctx ≠ ctx → t.getTeam u = s.getTeam u) ∧
  (∀ s ctx cause, (sfind s.ctxs ctx).isSome = true → ∃ t, exec (.contextDeclaredFatal ctx cause) s = .next t ∧
    sfind t.fatal ctx = some (BitVec.ofNat 64 (cause.toNat + 2 ^ 63)) ∧ (∀ e ∈ t.teams, e.2.ctx ≠ ctx) ∧
    (∀ e ∈ t.cohorts, e.2.ctx ≠ ctx) ∧ (∀ e ∈ t.rowQueue, e.ctx ≠ ctx) ∧
    ∀ r pa s1, (getCtx s ctx).runs = [r] → (getCtx s ctx).queues = [] → r.stampAddr ≠ 0 → r.stampAddr.toNat % 8 = 0 →
      reach s ctx r.stampAddr .write false = (.at_ pa, s1) → ∀ i, i < 8 →
        memGet t (pa + i) = BitVec.ofNat 8 ((launchStamp r.seq 3).toNat / 2 ^ (8 * i)))
end

