-- ==== Sys2Proof/Laws/Sparse.lean ====
section
/-! SUPPORT. The laws of sparse tables: a read after a write, and that every operation keeps the
canonical form. -/

namespace Sys2Proof.Machine

variable {β : Type}

theorem sfind_sput (m : Sparse β) (k j : Nat) (v : β) :
    sfind (sput m k v) j = if j = k then some v else sfind m j := by
  induction m with
  | nil => by_cases h : j = k <;> simp [sput, sfind, h]
  | cons e r ih =>
    obtain ⟨i, w⟩ := e
    by_cases h1 : k < i
    · by_cases h : j = k <;> simp [sput, sfind, h1, h]
    · by_cases h2 : k = i
      · subst h2
        by_cases h : j = k <;> simp [sput, sfind, h]
      · by_cases h3 : j = i
        · subst h3
          have : ¬ j = k := fun e => h2 e.symm
          simp [sput, sfind, h1, h2, this]
        · simp [sput, sfind, h1, h2, h3, ih]

theorem sfind_sdel (m : Sparse β) (k j : Nat) :
    sfind (sdel m k) j = if j = k then none else sfind m j := by
  induction m with
  | nil => simp [sdel, sfind]
  | cons e r ih =>
    obtain ⟨i, w⟩ := e
    by_cases h : k = i
    · subst h
      by_cases h2 : j = k
      · subst h2; simpa [sdel] using ih
      · simpa [sdel, sfind, h2] using ih
    · by_cases h2 : j = i
      · subst h2
        have : ¬ j = k := fun e => h e.symm
        simp [sdel, sfind, h, this]
      · simp [sdel, sfind, h, h2, ih]

@[simp] theorem sget_sput (d : β) (m : Sparse β) (k j : Nat) (v : β) :
    sget d (sput m k v) j = if j = k then v else sget d m j := by
  unfold sget; rw [sfind_sput]; split <;> rfl

@[simp] theorem sget_sset [DecidableEq β] (d : β) (m : Sparse β) (k j : Nat) (v : β) :
    sget d (sset d m k v) j = if j = k then v else sget d m j := by
  unfold sset
  by_cases h : v = d
  · rw [if_pos h]; unfold sget; rw [sfind_sdel]
    by_cases h2 : j = k <;> simp [h2, h]
  · rw [if_neg h, sget_sput]

theorem above_sput (m : Sparse β) (i k : Nat) (v : β) (h : above i m = true) (hk : i < k) :
    above i (sput m k v) = true := by
  induction m with
  | nil => simpa [sput, above] using hk
  | cons e r ih =>
    obtain ⟨j, w⟩ := e
    simp only [above, List.all_cons, Bool.and_eq_true, decide_eq_true_eq] at h ih ⊢
    unfold sput
    split
    · simp [hk, h.1, h.2]
    · split
      · simp [hk, h.2]
      · simp only [List.all_cons, Bool.and_eq_true, decide_eq_true_eq]
        exact ⟨h.1, ih h.2⟩

theorem above_sdel (m : Sparse β) (i k : Nat) (h : above i m = true) :
    above i (sdel m k) = true := by
  induction m with
  | nil => simp [sdel, above]
  | cons e r ih =>
    obtain ⟨j, w⟩ := e
    simp only [above, List.all_cons, Bool.and_eq_true, decide_eq_true_eq] at h ih ⊢
    unfold sdel
    split
    · exact ih h.2
    · simp only [List.all_cons, Bool.and_eq_true, decide_eq_true_eq]
      exact ⟨h.1, ih h.2⟩

theorem above_trans (m : Sparse β) (i k : Nat) (h : above k m = true) (hk : i ≤ k) :
    above i m = true := by
  simp only [above, List.all_eq_true, decide_eq_true_eq] at h ⊢
  intro e he; exact Nat.lt_of_le_of_lt hk (h e he)

theorem rising_sput (m : Sparse β) (k : Nat) (v : β) (h : rising m = true) :
    rising (sput m k v) = true := by
  induction m with
  | nil => simp [sput, rising, above]
  | cons e r ih =>
    obtain ⟨j, w⟩ := e
    simp only [rising, Bool.and_eq_true] at h
    unfold sput
    split
    · rename_i hk
      simp only [rising, Bool.and_eq_true]
      refine ⟨?_, h.1, h.2⟩
      have h' := above_trans r k j h.1 (Nat.le_of_lt hk)
      simp only [above, List.all_cons, Bool.and_eq_true, decide_eq_true_eq] at h' ⊢
      exact ⟨hk, h'⟩
    · split
      · rename_i hk
        subst hk
        simp only [rising, Bool.and_eq_true]
        exact ⟨h.1, h.2⟩
      · rename_i h1 h2
        simp only [rising, Bool.and_eq_true]
        exact ⟨above_sput r j k v h.1 (by omega), ih h.2⟩

theorem rising_sdel (m : Sparse β) (k : Nat) (h : rising m = true) : rising (sdel m k) = true := by
  induction m with
  | nil => simp [sdel, rising]
  | cons e r ih =>
    obtain ⟨j, w⟩ := e
    simp only [rising, Bool.and_eq_true] at h
    unfold sdel
    split
    · exact ih h.2
    · simp only [rising, Bool.and_eq_true]
      exact ⟨above_sdel r j k h.1, ih h.2⟩

theorem all_sput (m : Sparse β) (k : Nat) (v : β) (f : Nat × β → Bool) (h : m.all f = true)
    (hv : f (k, v) = true) : (sput m k v).all f = true := by
  induction m with
  | nil => simpa [sput] using hv
  | cons e r ih =>
    obtain ⟨j, w⟩ := e
    simp only [List.all_cons, Bool.and_eq_true] at h
    unfold sput
    split
    · simp [hv, h.1, h.2]
    · split
      · rw [List.all_cons, hv, h.2]; rfl
      · rw [List.all_cons, h.1, ih h.2]; rfl

theorem all_sdel (m : Sparse β) (k : Nat) (f : Nat × β → Bool) (h : m.all f = true) :
    (sdel m k).all f = true := by
  induction m with
  | nil => simp [sdel]
  | cons e r ih =>
    obtain ⟨j, w⟩ := e
    simp only [List.all_cons, Bool.and_eq_true] at h
    unfold sdel
    split
    · exact ih h.2
    · rw [List.all_cons, h.1, ih h.2]; rfl

/-- Writing one entry keeps the canonical form. -/
theorem canon_sset [DecidableEq β] (d : β) (m : Sparse β) (k : Nat) (v : β)
    (h : canon d m = true) : canon d (sset d m k v) = true := by
  simp only [canon, Bool.and_eq_true] at h ⊢
  unfold sset
  split
  · exact ⟨rising_sdel m k h.1, all_sdel m k _ h.2⟩
  · rename_i hv
    exact ⟨rising_sput m k v h.1, all_sput m k v _ h.2 (by simpa using hv)⟩

end Sys2Proof.Machine
end

