-- ==== Sys2Proof/Laws/State.lean ====
section
/-! SUPPORT. What each update of the state and of a team leaves, field by field. -/

namespace Sys2Proof.Machine

/-! ### The team table -/

@[simp] theorem getTeam_setTeam (s : State) (u w : Nat) (t : Team) :
    (s.setTeam u t).getTeam w = if w = u then t else s.getTeam w := by
  simp only [State.getTeam, State.setTeam, sfind_sput]; split <;> rfl

@[simp] theorem tm_setTm (s : State) (t : Team) : (s.setTm t).tm = t := by
  simp [State.tm, State.setTm, State.setTeam, State.getTeam, sfind_sput]

@[simp] theorem sput_sput {β : Type} (m : Sparse β) (k : Nat) (v w : β) :
    sput (sput m k v) k w = sput m k w := by
  induction m with
  | nil => simp [sput]
  | cons e r ih =>
    obtain ⟨j, x⟩ := e
    by_cases h1 : k < j
    · simp [sput, h1]
    · by_cases h2 : k = j
      · simp [sput, h2]
      · simp [sput, h1, h2, ih]

@[simp] theorem setTm_setTm (s : State) (t t' : Team) : (s.setTm t).setTm t' = s.setTm t' := by
  simp [State.setTm, State.setTeam]

@[simp] theorem modTm_eq (s : State) (t : Team) (f : Team → Team) : (s.setTm t).modTm f = s.setTm (f t) := by
  simp [State.modTm]

@[simp] theorem setTm_cur (s : State) (t : Team) : (s.setTm t).cur = s.cur := rfl
@[simp] theorem modTm_cur (s : State) (f : Team → Team) : (s.modTm f).cur = s.cur := rfl
@[simp] theorem tm_modTm (s : State) (f : Team → Team) : (s.modTm f).tm = f s.tm := tm_setTm s _

/-! ### setTeam -/

@[simp] theorem setTeam_power (s : State) (u : Nat) (t : Team) : (s.setTeam u t).power = s.power := rfl
@[simp] theorem setTeam_boot (s : State) (u : Nat) (t : Team) : (s.setTeam u t).boot = s.boot := rfl
@[simp] theorem setTeam_clock (s : State) (u : Nat) (t : Team) : (s.setTeam u t).clock = s.clock := rfl
@[simp] theorem setTeam_fuses (s : State) (u : Nat) (t : Team) : (s.setTeam u t).fuses = s.fuses := rfl
@[simp] theorem setTeam_expanders (s : State) (u : Nat) (t : Team) : (s.setTeam u t).expanders = s.expanders := rfl
@[simp] theorem setTeam_units (s : State) (u : Nat) (t : Team) : (s.setTeam u t).units = s.units := rfl
@[simp] theorem setTeam_sensors (s : State) (u : Nat) (t : Team) : (s.setTeam u t).sensors = s.sensors := rfl
@[simp] theorem setTeam_thermal (s : State) (u : Nat) (t : Team) : (s.setTeam u t).thermal = s.thermal := rfl
@[simp] theorem setTeam_refreshMult (s : State) (u : Nat) (t : Team) : (s.setTeam u t).refreshMult = s.refreshMult := rfl
@[simp] theorem setTeam_refreshCool (s : State) (u : Nat) (t : Team) : (s.setTeam u t).refreshCool = s.refreshCool := rfl
@[simp] theorem setTeam_pset (s : State) (u : Nat) (t : Team) : (s.setTeam u t).pset = s.pset := rfl
@[simp] theorem setTeam_mem (s : State) (u : Nat) (t : Team) : (s.setTeam u t).mem = s.mem := rfl
@[simp] theorem setTeam_shadows (s : State) (u : Nat) (t : Team) : (s.setTeam u t).shadows = s.shadows := rfl
@[simp] theorem setTeam_l2 (s : State) (u : Nat) (t : Team) : (s.setTeam u t).l2 = s.l2 := rfl
@[simp] theorem setTeam_l1 (s : State) (u : Nat) (t : Team) : (s.setTeam u t).l1 = s.l1 := rfl
@[simp] theorem setTeam_tlbs (s : State) (u : Nat) (t : Team) : (s.setTeam u t).tlbs = s.tlbs := rfl
@[simp] theorem setTeam_badFrames (s : State) (u : Nat) (t : Team) : (s.setTeam u t).badFrames = s.badFrames := rfl
@[simp] theorem setTeam_cur (s : State) (u : Nat) (t : Team) : (s.setTeam u t).cur = s.cur := rfl
@[simp] theorem setTeam_curStream (s : State) (u : Nat) (t : Team) : (s.setTeam u t).curStream = s.curStream := rfl
@[simp] theorem setTeam_issueCount (s : State) (u : Nat) (t : Team) : (s.setTeam u t).issueCount = s.issueCount := rfl
@[simp] theorem setTeam_nextUid (s : State) (u : Nat) (t : Team) : (s.setTeam u t).nextUid = s.nextUid := rfl
@[simp] theorem setTeam_nextTag (s : State) (u : Nat) (t : Team) : (s.setTeam u t).nextTag = s.nextTag := rfl
@[simp] theorem setTeam_cohorts (s : State) (u : Nat) (t : Team) : (s.setTeam u t).cohorts = s.cohorts := rfl
@[simp] theorem setTeam_pools (s : State) (u : Nat) (t : Team) : (s.setTeam u t).pools = s.pools := rfl
@[simp] theorem setTeam_grants (s : State) (u : Nat) (t : Team) : (s.setTeam u t).grants = s.grants := rfl
@[simp] theorem setTeam_envs (s : State) (u : Nat) (t : Team) : (s.setTeam u t).envs = s.envs := rfl
@[simp] theorem setTeam_envGens (s : State) (u : Nat) (t : Team) : (s.setTeam u t).envGens = s.envGens := rfl
@[simp] theorem setTeam_channels (s : State) (u : Nat) (t : Team) : (s.setTeam u t).channels = s.channels := rfl
@[simp] theorem setTeam_rowQueue (s : State) (u : Nat) (t : Team) : (s.setTeam u t).rowQueue = s.rowQueue := rfl
@[simp] theorem setTeam_nextRow (s : State) (u : Nat) (t : Team) : (s.setTeam u t).nextRow = s.nextRow := rfl
@[simp] theorem setTeam_banks (s : State) (u : Nat) (t : Team) : (s.setTeam u t).banks = s.banks := rfl
@[simp] theorem setTeam_rowActs (s : State) (u : Nat) (t : Team) : (s.setTeam u t).rowActs = s.rowActs := rfl
@[simp] theorem setTeam_captured (s : State) (u : Nat) (t : Team) : (s.setTeam u t).captured = s.captured := rfl
@[simp] theorem setTeam_stackStopped (s : State) (u : Nat) (t : Team) : (s.setTeam u t).stackStopped = s.stackStopped := rfl
@[simp] theorem setTeam_engines (s : State) (u : Nat) (t : Team) : (s.setTeam u t).engines = s.engines := rfl
@[simp] theorem setTeam_ctxs (s : State) (u : Nat) (t : Team) : (s.setTeam u t).ctxs = s.ctxs := rfl
@[simp] theorem setTeam_running (s : State) (u : Nat) (t : Team) : (s.setTeam u t).running = s.running := rfl
@[simp] theorem setTeam_rr (s : State) (u : Nat) (t : Team) : (s.setTeam u t).rr = s.rr := rfl
@[simp] theorem setTeam_reqs (s : State) (u : Nat) (t : Team) : (s.setTeam u t).reqs = s.reqs := rfl
@[simp] theorem setTeam_taskEnds (s : State) (u : Nat) (t : Team) : (s.setTeam u t).taskEnds = s.taskEnds := rfl
@[simp] theorem setTeam_stampWaits (s : State) (u : Nat) (t : Team) : (s.setTeam u t).stampWaits = s.stampWaits := rfl
@[simp] theorem setTeam_nextReq (s : State) (u : Nat) (t : Team) : (s.setTeam u t).nextReq = s.nextReq := rfl
@[simp] theorem setTeam_rings (s : State) (u : Nat) (t : Team) : (s.setTeam u t).rings = s.rings := rfl
@[simp] theorem setTeam_sweepPeriod (s : State) (u : Nat) (t : Team) : (s.setTeam u t).sweepPeriod = s.sweepPeriod := rfl
@[simp] theorem setTeam_cxlDown (s : State) (u : Nat) (t : Team) : (s.setTeam u t).cxlDown = s.cxlDown := rfl
@[simp] theorem setTeam_routes (s : State) (u : Nat) (t : Team) : (s.setTeam u t).routes = s.routes := rfl
@[simp] theorem setTeam_routeErr (s : State) (u : Nat) (t : Team) : (s.setTeam u t).routeErr = s.routeErr := rfl
@[simp] theorem setTeam_mirrors (s : State) (u : Nat) (t : Team) : (s.setTeam u t).mirrors = s.mirrors := rfl
@[simp] theorem setTeam_fabric (s : State) (u : Nat) (t : Team) : (s.setTeam u t).fabric = s.fabric := rfl
@[simp] theorem setTeam_fatal (s : State) (u : Nat) (t : Team) : (s.setTeam u t).fatal = s.fatal := rfl
@[simp] theorem setTeam_errCounters (s : State) (u : Nat) (t : Team) : (s.setTeam u t).errCounters = s.errCounters := rfl
@[simp] theorem setTeam_dbg (s : State) (u : Nat) (t : Team) : (s.setTeam u t).dbg = s.dbg := rfl
@[simp] theorem setTeam_sec (s : State) (u : Nat) (t : Team) : (s.setTeam u t).sec = s.sec := rfl
@[simp] theorem setTeam_free (s : State) (u : Nat) (t : Team) : (s.setTeam u t).free = s.free := rfl
@[simp] theorem setTeam_l2Time (s : State) (u : Nat) (t : Team) : (s.setTeam u t).l2Time = s.l2Time := rfl
@[simp] theorem setTeam_badReads (s : State) (u : Nat) (t : Team) : (s.setTeam u t).badReads = s.badReads := rfl
@[simp] theorem setTeam_nextPlace (s : State) (u : Nat) (t : Team) : (s.setTeam u t).nextPlace = s.nextPlace := rfl
@[simp] theorem setTeam_tcbNotes (s : State) (u : Nat) (t : Team) : (s.setTeam u t).tcbNotes = s.tcbNotes := rfl
@[simp] theorem setTeam_agenda (s : State) (u : Nat) (t : Team) : (s.setTeam u t).agenda = s.agenda := rfl
@[simp] theorem setTeam_heatWaits (s : State) (u : Nat) (t : Team) : (s.setTeam u t).heatWaits = s.heatWaits := rfl

/-! ### memSet -/

@[simp] theorem memSet_power (s : State) (pa : Nat) (b : Byte) : (memSet s pa b).power = s.power := rfl
@[simp] theorem memSet_boot (s : State) (pa : Nat) (b : Byte) : (memSet s pa b).boot = s.boot := rfl
@[simp] theorem memSet_clock (s : State) (pa : Nat) (b : Byte) : (memSet s pa b).clock = s.clock := rfl
@[simp] theorem memSet_fuses (s : State) (pa : Nat) (b : Byte) : (memSet s pa b).fuses = s.fuses := rfl
@[simp] theorem memSet_expanders (s : State) (pa : Nat) (b : Byte) : (memSet s pa b).expanders = s.expanders := rfl
@[simp] theorem memSet_units (s : State) (pa : Nat) (b : Byte) : (memSet s pa b).units = s.units := rfl
@[simp] theorem memSet_sensors (s : State) (pa : Nat) (b : Byte) : (memSet s pa b).sensors = s.sensors := rfl
@[simp] theorem memSet_thermal (s : State) (pa : Nat) (b : Byte) : (memSet s pa b).thermal = s.thermal := rfl
@[simp] theorem memSet_refreshMult (s : State) (pa : Nat) (b : Byte) : (memSet s pa b).refreshMult = s.refreshMult := rfl
@[simp] theorem memSet_refreshCool (s : State) (pa : Nat) (b : Byte) : (memSet s pa b).refreshCool = s.refreshCool := rfl
@[simp] theorem memSet_pset (s : State) (pa : Nat) (b : Byte) : (memSet s pa b).pset = s.pset := rfl
@[simp] theorem memSet_l2 (s : State) (pa : Nat) (b : Byte) : (memSet s pa b).l2 = s.l2 := rfl
@[simp] theorem memSet_l1 (s : State) (pa : Nat) (b : Byte) : (memSet s pa b).l1 = s.l1 := rfl
@[simp] theorem memSet_tlbs (s : State) (pa : Nat) (b : Byte) : (memSet s pa b).tlbs = s.tlbs := rfl
@[simp] theorem memSet_badFrames (s : State) (pa : Nat) (b : Byte) : (memSet s pa b).badFrames = s.badFrames := rfl
@[simp] theorem memSet_cur (s : State) (pa : Nat) (b : Byte) : (memSet s pa b).cur = s.cur := rfl
@[simp] theorem memSet_curStream (s : State) (pa : Nat) (b : Byte) : (memSet s pa b).curStream = s.curStream := rfl
@[simp] theorem memSet_issueCount (s : State) (pa : Nat) (b : Byte) : (memSet s pa b).issueCount = s.issueCount := rfl
@[simp] theorem memSet_nextUid (s : State) (pa : Nat) (b : Byte) : (memSet s pa b).nextUid = s.nextUid := rfl
@[simp] theorem memSet_nextTag (s : State) (pa : Nat) (b : Byte) : (memSet s pa b).nextTag = s.nextTag := rfl
@[simp] theorem memSet_teams (s : State) (pa : Nat) (b : Byte) : (memSet s pa b).teams = s.teams := rfl
@[simp] theorem memSet_cohorts (s : State) (pa : Nat) (b : Byte) : (memSet s pa b).cohorts = s.cohorts := rfl
@[simp] theorem memSet_pools (s : State) (pa : Nat) (b : Byte) : (memSet s pa b).pools = s.pools := rfl
@[simp] theorem memSet_grants (s : State) (pa : Nat) (b : Byte) : (memSet s pa b).grants = s.grants := rfl
@[simp] theorem memSet_envs (s : State) (pa : Nat) (b : Byte) : (memSet s pa b).envs = s.envs := rfl
@[simp] theorem memSet_envGens (s : State) (pa : Nat) (b : Byte) : (memSet s pa b).envGens = s.envGens := rfl
@[simp] theorem memSet_channels (s : State) (pa : Nat) (b : Byte) : (memSet s pa b).channels = s.channels := rfl
@[simp] theorem memSet_rowQueue (s : State) (pa : Nat) (b : Byte) : (memSet s pa b).rowQueue = s.rowQueue := rfl
@[simp] theorem memSet_nextRow (s : State) (pa : Nat) (b : Byte) : (memSet s pa b).nextRow = s.nextRow := rfl
@[simp] theorem memSet_banks (s : State) (pa : Nat) (b : Byte) : (memSet s pa b).banks = s.banks := rfl
@[simp] theorem memSet_rowActs (s : State) (pa : Nat) (b : Byte) : (memSet s pa b).rowActs = s.rowActs := rfl
@[simp] theorem memSet_captured (s : State) (pa : Nat) (b : Byte) : (memSet s pa b).captured = s.captured := rfl
@[simp] theorem memSet_stackStopped (s : State) (pa : Nat) (b : Byte) : (memSet s pa b).stackStopped = s.stackStopped := rfl
@[simp] theorem memSet_engines (s : State) (pa : Nat) (b : Byte) : (memSet s pa b).engines = s.engines := rfl
@[simp] theorem memSet_ctxs (s : State) (pa : Nat) (b : Byte) : (memSet s pa b).ctxs = s.ctxs := rfl
@[simp] theorem memSet_running (s : State) (pa : Nat) (b : Byte) : (memSet s pa b).running = s.running := rfl
@[simp] theorem memSet_rr (s : State) (pa : Nat) (b : Byte) : (memSet s pa b).rr = s.rr := rfl
@[simp] theorem memSet_reqs (s : State) (pa : Nat) (b : Byte) : (memSet s pa b).reqs = s.reqs := rfl
@[simp] theorem memSet_taskEnds (s : State) (pa : Nat) (b : Byte) : (memSet s pa b).taskEnds = s.taskEnds := rfl
@[simp] theorem memSet_stampWaits (s : State) (pa : Nat) (b : Byte) : (memSet s pa b).stampWaits = s.stampWaits := rfl
@[simp] theorem memSet_nextReq (s : State) (pa : Nat) (b : Byte) : (memSet s pa b).nextReq = s.nextReq := rfl
@[simp] theorem memSet_rings (s : State) (pa : Nat) (b : Byte) : (memSet s pa b).rings = s.rings := rfl
@[simp] theorem memSet_sweepPeriod (s : State) (pa : Nat) (b : Byte) : (memSet s pa b).sweepPeriod = s.sweepPeriod := rfl
@[simp] theorem memSet_cxlDown (s : State) (pa : Nat) (b : Byte) : (memSet s pa b).cxlDown = s.cxlDown := rfl
@[simp] theorem memSet_routes (s : State) (pa : Nat) (b : Byte) : (memSet s pa b).routes = s.routes := rfl
@[simp] theorem memSet_routeErr (s : State) (pa : Nat) (b : Byte) : (memSet s pa b).routeErr = s.routeErr := rfl
@[simp] theorem memSet_mirrors (s : State) (pa : Nat) (b : Byte) : (memSet s pa b).mirrors = s.mirrors := rfl
@[simp] theorem memSet_fabric (s : State) (pa : Nat) (b : Byte) : (memSet s pa b).fabric = s.fabric := rfl
@[simp] theorem memSet_fatal (s : State) (pa : Nat) (b : Byte) : (memSet s pa b).fatal = s.fatal := rfl
@[simp] theorem memSet_errCounters (s : State) (pa : Nat) (b : Byte) : (memSet s pa b).errCounters = s.errCounters := rfl
@[simp] theorem memSet_dbg (s : State) (pa : Nat) (b : Byte) : (memSet s pa b).dbg = s.dbg := rfl
@[simp] theorem memSet_sec (s : State) (pa : Nat) (b : Byte) : (memSet s pa b).sec = s.sec := rfl
@[simp] theorem memSet_free (s : State) (pa : Nat) (b : Byte) : (memSet s pa b).free = s.free := rfl
@[simp] theorem memSet_l2Time (s : State) (pa : Nat) (b : Byte) : (memSet s pa b).l2Time = s.l2Time := rfl
@[simp] theorem memSet_badReads (s : State) (pa : Nat) (b : Byte) : (memSet s pa b).badReads = s.badReads := rfl
@[simp] theorem memSet_nextPlace (s : State) (pa : Nat) (b : Byte) : (memSet s pa b).nextPlace = s.nextPlace := rfl
@[simp] theorem memSet_tcbNotes (s : State) (pa : Nat) (b : Byte) : (memSet s pa b).tcbNotes = s.tcbNotes := rfl
@[simp] theorem memSet_agenda (s : State) (pa : Nat) (b : Byte) : (memSet s pa b).agenda = s.agenda := rfl
@[simp] theorem memSet_heatWaits (s : State) (pa : Nat) (b : Byte) : (memSet s pa b).heatWaits = s.heatWaits := rfl

/-! ### l1Set -/

@[simp] theorem l1Set_power (s : State) (c pa : Nat) (x : Option L1Byte) : (l1Set s c pa x).power = s.power := rfl
@[simp] theorem l1Set_boot (s : State) (c pa : Nat) (x : Option L1Byte) : (l1Set s c pa x).boot = s.boot := rfl
@[simp] theorem l1Set_clock (s : State) (c pa : Nat) (x : Option L1Byte) : (l1Set s c pa x).clock = s.clock := rfl
@[simp] theorem l1Set_fuses (s : State) (c pa : Nat) (x : Option L1Byte) : (l1Set s c pa x).fuses = s.fuses := rfl
@[simp] theorem l1Set_expanders (s : State) (c pa : Nat) (x : Option L1Byte) : (l1Set s c pa x).expanders = s.expanders := rfl
@[simp] theorem l1Set_units (s : State) (c pa : Nat) (x : Option L1Byte) : (l1Set s c pa x).units = s.units := rfl
@[simp] theorem l1Set_sensors (s : State) (c pa : Nat) (x : Option L1Byte) : (l1Set s c pa x).sensors = s.sensors := rfl
@[simp] theorem l1Set_thermal (s : State) (c pa : Nat) (x : Option L1Byte) : (l1Set s c pa x).thermal = s.thermal := rfl
@[simp] theorem l1Set_refreshMult (s : State) (c pa : Nat) (x : Option L1Byte) : (l1Set s c pa x).refreshMult = s.refreshMult := rfl
@[simp] theorem l1Set_refreshCool (s : State) (c pa : Nat) (x : Option L1Byte) : (l1Set s c pa x).refreshCool = s.refreshCool := rfl
@[simp] theorem l1Set_pset (s : State) (c pa : Nat) (x : Option L1Byte) : (l1Set s c pa x).pset = s.pset := rfl
@[simp] theorem l1Set_mem (s : State) (c pa : Nat) (x : Option L1Byte) : (l1Set s c pa x).mem = s.mem := rfl
@[simp] theorem l1Set_shadows (s : State) (c pa : Nat) (x : Option L1Byte) : (l1Set s c pa x).shadows = s.shadows := rfl
@[simp] theorem l1Set_l2 (s : State) (c pa : Nat) (x : Option L1Byte) : (l1Set s c pa x).l2 = s.l2 := rfl
@[simp] theorem l1Set_tlbs (s : State) (c pa : Nat) (x : Option L1Byte) : (l1Set s c pa x).tlbs = s.tlbs := rfl
@[simp] theorem l1Set_badFrames (s : State) (c pa : Nat) (x : Option L1Byte) : (l1Set s c pa x).badFrames = s.badFrames := rfl
@[simp] theorem l1Set_cur (s : State) (c pa : Nat) (x : Option L1Byte) : (l1Set s c pa x).cur = s.cur := rfl
@[simp] theorem l1Set_curStream (s : State) (c pa : Nat) (x : Option L1Byte) : (l1Set s c pa x).curStream = s.curStream := rfl
@[simp] theorem l1Set_issueCount (s : State) (c pa : Nat) (x : Option L1Byte) : (l1Set s c pa x).issueCount = s.issueCount := rfl
@[simp] theorem l1Set_nextUid (s : State) (c pa : Nat) (x : Option L1Byte) : (l1Set s c pa x).nextUid = s.nextUid := rfl
@[simp] theorem l1Set_nextTag (s : State) (c pa : Nat) (x : Option L1Byte) : (l1Set s c pa x).nextTag = s.nextTag := rfl
@[simp] theorem l1Set_teams (s : State) (c pa : Nat) (x : Option L1Byte) : (l1Set s c pa x).teams = s.teams := rfl
@[simp] theorem l1Set_cohorts (s : State) (c pa : Nat) (x : Option L1Byte) : (l1Set s c pa x).cohorts = s.cohorts := rfl
@[simp] theorem l1Set_pools (s : State) (c pa : Nat) (x : Option L1Byte) : (l1Set s c pa x).pools = s.pools := rfl
@[simp] theorem l1Set_grants (s : State) (c pa : Nat) (x : Option L1Byte) : (l1Set s c pa x).grants = s.grants := rfl
@[simp] theorem l1Set_envs (s : State) (c pa : Nat) (x : Option L1Byte) : (l1Set s c pa x).envs = s.envs := rfl
@[simp] theorem l1Set_envGens (s : State) (c pa : Nat) (x : Option L1Byte) : (l1Set s c pa x).envGens = s.envGens := rfl
@[simp] theorem l1Set_channels (s : State) (c pa : Nat) (x : Option L1Byte) : (l1Set s c pa x).channels = s.channels := rfl
@[simp] theorem l1Set_rowQueue (s : State) (c pa : Nat) (x : Option L1Byte) : (l1Set s c pa x).rowQueue = s.rowQueue := rfl
@[simp] theorem l1Set_nextRow (s : State) (c pa : Nat) (x : Option L1Byte) : (l1Set s c pa x).nextRow = s.nextRow := rfl
@[simp] theorem l1Set_banks (s : State) (c pa : Nat) (x : Option L1Byte) : (l1Set s c pa x).banks = s.banks := rfl
@[simp] theorem l1Set_rowActs (s : State) (c pa : Nat) (x : Option L1Byte) : (l1Set s c pa x).rowActs = s.rowActs := rfl
@[simp] theorem l1Set_captured (s : State) (c pa : Nat) (x : Option L1Byte) : (l1Set s c pa x).captured = s.captured := rfl
@[simp] theorem l1Set_stackStopped (s : State) (c pa : Nat) (x : Option L1Byte) : (l1Set s c pa x).stackStopped = s.stackStopped := rfl
@[simp] theorem l1Set_engines (s : State) (c pa : Nat) (x : Option L1Byte) : (l1Set s c pa x).engines = s.engines := rfl
@[simp] theorem l1Set_ctxs (s : State) (c pa : Nat) (x : Option L1Byte) : (l1Set s c pa x).ctxs = s.ctxs := rfl
@[simp] theorem l1Set_running (s : State) (c pa : Nat) (x : Option L1Byte) : (l1Set s c pa x).running = s.running := rfl
@[simp] theorem l1Set_rr (s : State) (c pa : Nat) (x : Option L1Byte) : (l1Set s c pa x).rr = s.rr := rfl
@[simp] theorem l1Set_reqs (s : State) (c pa : Nat) (x : Option L1Byte) : (l1Set s c pa x).reqs = s.reqs := rfl
@[simp] theorem l1Set_taskEnds (s : State) (c pa : Nat) (x : Option L1Byte) : (l1Set s c pa x).taskEnds = s.taskEnds := rfl
@[simp] theorem l1Set_stampWaits (s : State) (c pa : Nat) (x : Option L1Byte) : (l1Set s c pa x).stampWaits = s.stampWaits := rfl
@[simp] theorem l1Set_nextReq (s : State) (c pa : Nat) (x : Option L1Byte) : (l1Set s c pa x).nextReq = s.nextReq := rfl
@[simp] theorem l1Set_rings (s : State) (c pa : Nat) (x : Option L1Byte) : (l1Set s c pa x).rings = s.rings := rfl
@[simp] theorem l1Set_sweepPeriod (s : State) (c pa : Nat) (x : Option L1Byte) : (l1Set s c pa x).sweepPeriod = s.sweepPeriod := rfl
@[simp] theorem l1Set_cxlDown (s : State) (c pa : Nat) (x : Option L1Byte) : (l1Set s c pa x).cxlDown = s.cxlDown := rfl
@[simp] theorem l1Set_routes (s : State) (c pa : Nat) (x : Option L1Byte) : (l1Set s c pa x).routes = s.routes := rfl
@[simp] theorem l1Set_routeErr (s : State) (c pa : Nat) (x : Option L1Byte) : (l1Set s c pa x).routeErr = s.routeErr := rfl
@[simp] theorem l1Set_mirrors (s : State) (c pa : Nat) (x : Option L1Byte) : (l1Set s c pa x).mirrors = s.mirrors := rfl
@[simp] theorem l1Set_fabric (s : State) (c pa : Nat) (x : Option L1Byte) : (l1Set s c pa x).fabric = s.fabric := rfl
@[simp] theorem l1Set_fatal (s : State) (c pa : Nat) (x : Option L1Byte) : (l1Set s c pa x).fatal = s.fatal := rfl
@[simp] theorem l1Set_errCounters (s : State) (c pa : Nat) (x : Option L1Byte) : (l1Set s c pa x).errCounters = s.errCounters := rfl
@[simp] theorem l1Set_dbg (s : State) (c pa : Nat) (x : Option L1Byte) : (l1Set s c pa x).dbg = s.dbg := rfl
@[simp] theorem l1Set_sec (s : State) (c pa : Nat) (x : Option L1Byte) : (l1Set s c pa x).sec = s.sec := rfl
@[simp] theorem l1Set_free (s : State) (c pa : Nat) (x : Option L1Byte) : (l1Set s c pa x).free = s.free := rfl
@[simp] theorem l1Set_l2Time (s : State) (c pa : Nat) (x : Option L1Byte) : (l1Set s c pa x).l2Time = s.l2Time := rfl
@[simp] theorem l1Set_badReads (s : State) (c pa : Nat) (x : Option L1Byte) : (l1Set s c pa x).badReads = s.badReads := rfl
@[simp] theorem l1Set_nextPlace (s : State) (c pa : Nat) (x : Option L1Byte) : (l1Set s c pa x).nextPlace = s.nextPlace := rfl
@[simp] theorem l1Set_tcbNotes (s : State) (c pa : Nat) (x : Option L1Byte) : (l1Set s c pa x).tcbNotes = s.tcbNotes := rfl
@[simp] theorem l1Set_agenda (s : State) (c pa : Nat) (x : Option L1Byte) : (l1Set s c pa x).agenda = s.agenda := rfl
@[simp] theorem l1Set_heatWaits (s : State) (c pa : Nat) (x : Option L1Byte) : (l1Set s c pa x).heatWaits = s.heatWaits := rfl

/-! ### l2Set -/

@[simp] theorem l2Set_power (s : State) (line : Nat) (x : L2Line) : (l2Set s line x).power = s.power := rfl
@[simp] theorem l2Set_boot (s : State) (line : Nat) (x : L2Line) : (l2Set s line x).boot = s.boot := rfl
@[simp] theorem l2Set_clock (s : State) (line : Nat) (x : L2Line) : (l2Set s line x).clock = s.clock := rfl
@[simp] theorem l2Set_fuses (s : State) (line : Nat) (x : L2Line) : (l2Set s line x).fuses = s.fuses := rfl
@[simp] theorem l2Set_expanders (s : State) (line : Nat) (x : L2Line) : (l2Set s line x).expanders = s.expanders := rfl
@[simp] theorem l2Set_units (s : State) (line : Nat) (x : L2Line) : (l2Set s line x).units = s.units := rfl
@[simp] theorem l2Set_sensors (s : State) (line : Nat) (x : L2Line) : (l2Set s line x).sensors = s.sensors := rfl
@[simp] theorem l2Set_thermal (s : State) (line : Nat) (x : L2Line) : (l2Set s line x).thermal = s.thermal := rfl
@[simp] theorem l2Set_refreshMult (s : State) (line : Nat) (x : L2Line) : (l2Set s line x).refreshMult = s.refreshMult := rfl
@[simp] theorem l2Set_refreshCool (s : State) (line : Nat) (x : L2Line) : (l2Set s line x).refreshCool = s.refreshCool := rfl
@[simp] theorem l2Set_pset (s : State) (line : Nat) (x : L2Line) : (l2Set s line x).pset = s.pset := rfl
@[simp] theorem l2Set_mem (s : State) (line : Nat) (x : L2Line) : (l2Set s line x).mem = s.mem := rfl
@[simp] theorem l2Set_shadows (s : State) (line : Nat) (x : L2Line) : (l2Set s line x).shadows = s.shadows := rfl
@[simp] theorem l2Set_l1 (s : State) (line : Nat) (x : L2Line) : (l2Set s line x).l1 = s.l1 := rfl
@[simp] theorem l2Set_tlbs (s : State) (line : Nat) (x : L2Line) : (l2Set s line x).tlbs = s.tlbs := rfl
@[simp] theorem l2Set_badFrames (s : State) (line : Nat) (x : L2Line) : (l2Set s line x).badFrames = s.badFrames := rfl
@[simp] theorem l2Set_cur (s : State) (line : Nat) (x : L2Line) : (l2Set s line x).cur = s.cur := rfl
@[simp] theorem l2Set_curStream (s : State) (line : Nat) (x : L2Line) : (l2Set s line x).curStream = s.curStream := rfl
@[simp] theorem l2Set_issueCount (s : State) (line : Nat) (x : L2Line) : (l2Set s line x).issueCount = s.issueCount := rfl
@[simp] theorem l2Set_nextUid (s : State) (line : Nat) (x : L2Line) : (l2Set s line x).nextUid = s.nextUid := rfl
@[simp] theorem l2Set_nextTag (s : State) (line : Nat) (x : L2Line) : (l2Set s line x).nextTag = s.nextTag := rfl
@[simp] theorem l2Set_teams (s : State) (line : Nat) (x : L2Line) : (l2Set s line x).teams = s.teams := rfl
@[simp] theorem l2Set_cohorts (s : State) (line : Nat) (x : L2Line) : (l2Set s line x).cohorts = s.cohorts := rfl
@[simp] theorem l2Set_pools (s : State) (line : Nat) (x : L2Line) : (l2Set s line x).pools = s.pools := rfl
@[simp] theorem l2Set_grants (s : State) (line : Nat) (x : L2Line) : (l2Set s line x).grants = s.grants := rfl
@[simp] theorem l2Set_envs (s : State) (line : Nat) (x : L2Line) : (l2Set s line x).envs = s.envs := rfl
@[simp] theorem l2Set_envGens (s : State) (line : Nat) (x : L2Line) : (l2Set s line x).envGens = s.envGens := rfl
@[simp] theorem l2Set_channels (s : State) (line : Nat) (x : L2Line) : (l2Set s line x).channels = s.channels := rfl
@[simp] theorem l2Set_rowQueue (s : State) (line : Nat) (x : L2Line) : (l2Set s line x).rowQueue = s.rowQueue := rfl
@[simp] theorem l2Set_nextRow (s : State) (line : Nat) (x : L2Line) : (l2Set s line x).nextRow = s.nextRow := rfl
@[simp] theorem l2Set_banks (s : State) (line : Nat) (x : L2Line) : (l2Set s line x).banks = s.banks := rfl
@[simp] theorem l2Set_rowActs (s : State) (line : Nat) (x : L2Line) : (l2Set s line x).rowActs = s.rowActs := rfl
@[simp] theorem l2Set_captured (s : State) (line : Nat) (x : L2Line) : (l2Set s line x).captured = s.captured := rfl
@[simp] theorem l2Set_stackStopped (s : State) (line : Nat) (x : L2Line) : (l2Set s line x).stackStopped = s.stackStopped := rfl
@[simp] theorem l2Set_engines (s : State) (line : Nat) (x : L2Line) : (l2Set s line x).engines = s.engines := rfl
@[simp] theorem l2Set_ctxs (s : State) (line : Nat) (x : L2Line) : (l2Set s line x).ctxs = s.ctxs := rfl
@[simp] theorem l2Set_running (s : State) (line : Nat) (x : L2Line) : (l2Set s line x).running = s.running := rfl
@[simp] theorem l2Set_rr (s : State) (line : Nat) (x : L2Line) : (l2Set s line x).rr = s.rr := rfl
@[simp] theorem l2Set_reqs (s : State) (line : Nat) (x : L2Line) : (l2Set s line x).reqs = s.reqs := rfl
@[simp] theorem l2Set_taskEnds (s : State) (line : Nat) (x : L2Line) : (l2Set s line x).taskEnds = s.taskEnds := rfl
@[simp] theorem l2Set_stampWaits (s : State) (line : Nat) (x : L2Line) : (l2Set s line x).stampWaits = s.stampWaits := rfl
@[simp] theorem l2Set_nextReq (s : State) (line : Nat) (x : L2Line) : (l2Set s line x).nextReq = s.nextReq := rfl
@[simp] theorem l2Set_rings (s : State) (line : Nat) (x : L2Line) : (l2Set s line x).rings = s.rings := rfl
@[simp] theorem l2Set_sweepPeriod (s : State) (line : Nat) (x : L2Line) : (l2Set s line x).sweepPeriod = s.sweepPeriod := rfl
@[simp] theorem l2Set_cxlDown (s : State) (line : Nat) (x : L2Line) : (l2Set s line x).cxlDown = s.cxlDown := rfl
@[simp] theorem l2Set_routes (s : State) (line : Nat) (x : L2Line) : (l2Set s line x).routes = s.routes := rfl
@[simp] theorem l2Set_routeErr (s : State) (line : Nat) (x : L2Line) : (l2Set s line x).routeErr = s.routeErr := rfl
@[simp] theorem l2Set_mirrors (s : State) (line : Nat) (x : L2Line) : (l2Set s line x).mirrors = s.mirrors := rfl
@[simp] theorem l2Set_fabric (s : State) (line : Nat) (x : L2Line) : (l2Set s line x).fabric = s.fabric := rfl
@[simp] theorem l2Set_fatal (s : State) (line : Nat) (x : L2Line) : (l2Set s line x).fatal = s.fatal := rfl
@[simp] theorem l2Set_errCounters (s : State) (line : Nat) (x : L2Line) : (l2Set s line x).errCounters = s.errCounters := rfl
@[simp] theorem l2Set_dbg (s : State) (line : Nat) (x : L2Line) : (l2Set s line x).dbg = s.dbg := rfl
@[simp] theorem l2Set_sec (s : State) (line : Nat) (x : L2Line) : (l2Set s line x).sec = s.sec := rfl
@[simp] theorem l2Set_free (s : State) (line : Nat) (x : L2Line) : (l2Set s line x).free = s.free := rfl
@[simp] theorem l2Set_l2Time (s : State) (line : Nat) (x : L2Line) : (l2Set s line x).l2Time = s.l2Time := rfl
@[simp] theorem l2Set_badReads (s : State) (line : Nat) (x : L2Line) : (l2Set s line x).badReads = s.badReads := rfl
@[simp] theorem l2Set_nextPlace (s : State) (line : Nat) (x : L2Line) : (l2Set s line x).nextPlace = s.nextPlace := rfl
@[simp] theorem l2Set_tcbNotes (s : State) (line : Nat) (x : L2Line) : (l2Set s line x).tcbNotes = s.tcbNotes := rfl
@[simp] theorem l2Set_agenda (s : State) (line : Nat) (x : L2Line) : (l2Set s line x).agenda = s.agenda := rfl
@[simp] theorem l2Set_heatWaits (s : State) (line : Nat) (x : L2Line) : (l2Set s line x).heatWaits = s.heatWaits := rfl

/-! ### setCtx -/

@[simp] theorem setCtx_power (s : State) (c : Nat) (x : Context) : (setCtx s c x).power = s.power := rfl
@[simp] theorem setCtx_boot (s : State) (c : Nat) (x : Context) : (setCtx s c x).boot = s.boot := rfl
@[simp] theorem setCtx_clock (s : State) (c : Nat) (x : Context) : (setCtx s c x).clock = s.clock := rfl
@[simp] theorem setCtx_fuses (s : State) (c : Nat) (x : Context) : (setCtx s c x).fuses = s.fuses := rfl
@[simp] theorem setCtx_expanders (s : State) (c : Nat) (x : Context) : (setCtx s c x).expanders = s.expanders := rfl
@[simp] theorem setCtx_units (s : State) (c : Nat) (x : Context) : (setCtx s c x).units = s.units := rfl
@[simp] theorem setCtx_sensors (s : State) (c : Nat) (x : Context) : (setCtx s c x).sensors = s.sensors := rfl
@[simp] theorem setCtx_thermal (s : State) (c : Nat) (x : Context) : (setCtx s c x).thermal = s.thermal := rfl
@[simp] theorem setCtx_refreshMult (s : State) (c : Nat) (x : Context) : (setCtx s c x).refreshMult = s.refreshMult := rfl
@[simp] theorem setCtx_refreshCool (s : State) (c : Nat) (x : Context) : (setCtx s c x).refreshCool = s.refreshCool := rfl
@[simp] theorem setCtx_pset (s : State) (c : Nat) (x : Context) : (setCtx s c x).pset = s.pset := rfl
@[simp] theorem setCtx_mem (s : State) (c : Nat) (x : Context) : (setCtx s c x).mem = s.mem := rfl
@[simp] theorem setCtx_shadows (s : State) (c : Nat) (x : Context) : (setCtx s c x).shadows = s.shadows := rfl
@[simp] theorem setCtx_l2 (s : State) (c : Nat) (x : Context) : (setCtx s c x).l2 = s.l2 := rfl
@[simp] theorem setCtx_l1 (s : State) (c : Nat) (x : Context) : (setCtx s c x).l1 = s.l1 := rfl
@[simp] theorem setCtx_tlbs (s : State) (c : Nat) (x : Context) : (setCtx s c x).tlbs = s.tlbs := rfl
@[simp] theorem setCtx_badFrames (s : State) (c : Nat) (x : Context) : (setCtx s c x).badFrames = s.badFrames := rfl
@[simp] theorem setCtx_cur (s : State) (c : Nat) (x : Context) : (setCtx s c x).cur = s.cur := rfl
@[simp] theorem setCtx_curStream (s : State) (c : Nat) (x : Context) : (setCtx s c x).curStream = s.curStream := rfl
@[simp] theorem setCtx_issueCount (s : State) (c : Nat) (x : Context) : (setCtx s c x).issueCount = s.issueCount := rfl
@[simp] theorem setCtx_nextUid (s : State) (c : Nat) (x : Context) : (setCtx s c x).nextUid = s.nextUid := rfl
@[simp] theorem setCtx_nextTag (s : State) (c : Nat) (x : Context) : (setCtx s c x).nextTag = s.nextTag := rfl
@[simp] theorem setCtx_teams (s : State) (c : Nat) (x : Context) : (setCtx s c x).teams = s.teams := rfl
@[simp] theorem setCtx_cohorts (s : State) (c : Nat) (x : Context) : (setCtx s c x).cohorts = s.cohorts := rfl
@[simp] theorem setCtx_pools (s : State) (c : Nat) (x : Context) : (setCtx s c x).pools = s.pools := rfl
@[simp] theorem setCtx_grants (s : State) (c : Nat) (x : Context) : (setCtx s c x).grants = s.grants := rfl
@[simp] theorem setCtx_envs (s : State) (c : Nat) (x : Context) : (setCtx s c x).envs = s.envs := rfl
@[simp] theorem setCtx_envGens (s : State) (c : Nat) (x : Context) : (setCtx s c x).envGens = s.envGens := rfl
@[simp] theorem setCtx_channels (s : State) (c : Nat) (x : Context) : (setCtx s c x).channels = s.channels := rfl
@[simp] theorem setCtx_rowQueue (s : State) (c : Nat) (x : Context) : (setCtx s c x).rowQueue = s.rowQueue := rfl
@[simp] theorem setCtx_nextRow (s : State) (c : Nat) (x : Context) : (setCtx s c x).nextRow = s.nextRow := rfl
@[simp] theorem setCtx_banks (s : State) (c : Nat) (x : Context) : (setCtx s c x).banks = s.banks := rfl
@[simp] theorem setCtx_rowActs (s : State) (c : Nat) (x : Context) : (setCtx s c x).rowActs = s.rowActs := rfl
@[simp] theorem setCtx_captured (s : State) (c : Nat) (x : Context) : (setCtx s c x).captured = s.captured := rfl
@[simp] theorem setCtx_stackStopped (s : State) (c : Nat) (x : Context) : (setCtx s c x).stackStopped = s.stackStopped := rfl
@[simp] theorem setCtx_engines (s : State) (c : Nat) (x : Context) : (setCtx s c x).engines = s.engines := rfl
@[simp] theorem setCtx_running (s : State) (c : Nat) (x : Context) : (setCtx s c x).running = s.running := rfl
@[simp] theorem setCtx_rr (s : State) (c : Nat) (x : Context) : (setCtx s c x).rr = s.rr := rfl
@[simp] theorem setCtx_reqs (s : State) (c : Nat) (x : Context) : (setCtx s c x).reqs = s.reqs := rfl
@[simp] theorem setCtx_taskEnds (s : State) (c : Nat) (x : Context) : (setCtx s c x).taskEnds = s.taskEnds := rfl
@[simp] theorem setCtx_stampWaits (s : State) (c : Nat) (x : Context) : (setCtx s c x).stampWaits = s.stampWaits := rfl
@[simp] theorem setCtx_nextReq (s : State) (c : Nat) (x : Context) : (setCtx s c x).nextReq = s.nextReq := rfl
@[simp] theorem setCtx_rings (s : State) (c : Nat) (x : Context) : (setCtx s c x).rings = s.rings := rfl
@[simp] theorem setCtx_sweepPeriod (s : State) (c : Nat) (x : Context) : (setCtx s c x).sweepPeriod = s.sweepPeriod := rfl
@[simp] theorem setCtx_cxlDown (s : State) (c : Nat) (x : Context) : (setCtx s c x).cxlDown = s.cxlDown := rfl
@[simp] theorem setCtx_routes (s : State) (c : Nat) (x : Context) : (setCtx s c x).routes = s.routes := rfl
@[simp] theorem setCtx_routeErr (s : State) (c : Nat) (x : Context) : (setCtx s c x).routeErr = s.routeErr := rfl
@[simp] theorem setCtx_mirrors (s : State) (c : Nat) (x : Context) : (setCtx s c x).mirrors = s.mirrors := rfl
@[simp] theorem setCtx_fabric (s : State) (c : Nat) (x : Context) : (setCtx s c x).fabric = s.fabric := rfl
@[simp] theorem setCtx_fatal (s : State) (c : Nat) (x : Context) : (setCtx s c x).fatal = s.fatal := rfl
@[simp] theorem setCtx_errCounters (s : State) (c : Nat) (x : Context) : (setCtx s c x).errCounters = s.errCounters := rfl
@[simp] theorem setCtx_dbg (s : State) (c : Nat) (x : Context) : (setCtx s c x).dbg = s.dbg := rfl
@[simp] theorem setCtx_sec (s : State) (c : Nat) (x : Context) : (setCtx s c x).sec = s.sec := rfl
@[simp] theorem setCtx_free (s : State) (c : Nat) (x : Context) : (setCtx s c x).free = s.free := rfl
@[simp] theorem setCtx_l2Time (s : State) (c : Nat) (x : Context) : (setCtx s c x).l2Time = s.l2Time := rfl
@[simp] theorem setCtx_badReads (s : State) (c : Nat) (x : Context) : (setCtx s c x).badReads = s.badReads := rfl
@[simp] theorem setCtx_nextPlace (s : State) (c : Nat) (x : Context) : (setCtx s c x).nextPlace = s.nextPlace := rfl
@[simp] theorem setCtx_tcbNotes (s : State) (c : Nat) (x : Context) : (setCtx s c x).tcbNotes = s.tcbNotes := rfl
@[simp] theorem setCtx_agenda (s : State) (c : Nat) (x : Context) : (setCtx s c x).agenda = s.agenda := rfl
@[simp] theorem setCtx_heatWaits (s : State) (c : Nat) (x : Context) : (setCtx s c x).heatWaits = s.heatWaits := rfl

end Sys2Proof.Machine
end

