-- ==== Sys2Proof/Laws/Issue.lean ====
section
/-! SUPPORT. The issue of a word: the three ways it can go, and what the end of a word leaves. -/

namespace Sys2Proof.Machine

open Sys2Proof.Safety

/-! ### noteIssue, snap -/

@[simp] theorem noteIssue_tm (s : State) : s.noteIssue.tm = { s.tm with lastIssue := s.issueCount + 1 } := by
  simp [State.noteIssue, State.modTm, State.setTm, State.setTeam, State.tm, State.getTeam, sfind_sput]

@[simp] theorem noteIssue_cur (s : State) : s.noteIssue.cur = s.cur := rfl

/-- noteIssue changes nothing but the current team's turn and the count. -/
theorem noteIssue_same (s : State) : { s.noteIssue with teams := s.teams, issueCount := s.issueCount } = s := rfl

/-- The team in the state in which a word has its effect. -/
def issuedTm (s : State) : Team := ({ s.tm with lastIssue := s.issueCount + 1 } : Team).snap

@[simp] theorem issued_tm (s : State) : (issued s).tm = issuedTm s := by simp [issued, issuedTm]
@[simp] theorem issued_cur (s : State) : (issued s).cur = s.cur := rfl

theorem settle_due (t : Team) (vr sr : List Nat) (q : Option Nat) (h : t.mustCommit vr sr q = 0) :
    t.settle vr sr q = some t := by
  simp [Team.settle, h]

/-- A word that issues has its effect in the issued state. -/
theorem issue_eq (i : Instr) (s : State) (k : State → State) (h : Issues i s) :
    issue i s k = .next (k (issued s)) := by
  obtain ⟨⟨h1, h2⟩, h3⟩ := h
  have h1' : (i.once && s.noteIssue.tm.laterPass) = false := by rw [noteIssue_tm]; exact h1
  have h3' : staticTrap i s.noteIssue.tm = none := by rw [noteIssue_tm]; exact h3
  have h2' : s.noteIssue.tm.settle (touchedRegs s.noteIssue.tm i) i.sregs s.noteIssue.tm.touchPass
      = some s.noteIssue.tm := settle_due _ _ _ _ (by rw [noteIssue_tm]; exact h2)
  simp only [issue, h1', h3', h2']
  rfl

/-- A word that a trap of R44 stands against takes it. -/
theorem issue_trap (i : Instr) (s : State) (k : State → State) (c : Nat)
    (h1 : (i.once && s.tm.laterPass) = false) (h : staticTrap i s.tm = some c) :
    issue i s k = .next (trapWord s.noteIssue c i) := by
  have h1' : (i.once && s.noteIssue.tm.laterPass) = false := by rw [noteIssue_tm]; exact h1
  have h3' : staticTrap i s.noteIssue.tm = some c := by rw [noteIssue_tm]; exact h
  simp only [issue, h1', h3']
  rfl

/-- A word that runs once does nothing in a later pass. -/
theorem issue_later (i : Instr) (s : State) (k : State → State) (h : (i.once && s.tm.laterPass) = true) :
    issue i s k = .next (s.noteIssue.modTm Team.finish) := by
  have h1' : (i.once && s.noteIssue.tm.laterPass) = true := by rw [noteIssue_tm]; exact h
  simp only [issue, h1']
  rfl

/-- Whatever the state, issuing a word answers a next state. -/
theorem issue_next (i : Instr) (s : State) (k : State → State) : ∃ t, issue i s k = .next t := by
  simp only [issue]; repeat' split
  all_goals exact ⟨_, rfl⟩

theorem teamWord_eq (i : Instr) (s : State) (f : Team → Team) (h : Issues i s) :
    teamWord i s f = .next ((issued s).setTm (f (issuedTm s)).finish) := by
  rw [teamWord, issue_eq i s _ h]; simp [State.modTm]

theorem controlWord_ok (i : Instr) (s : State) (f : Team → Except Nat Team) (t : Team) (h : Issues i s)
    (hf : f (issuedTm s).countSpan = .ok t) : controlWord i s f = .next ((issued s).setTm t) := by
  rw [controlWord, issue_eq i s _ h]; simp [hf]

theorem controlWord_error (i : Instr) (s : State) (f : Team → Except Nat Team) (c : Nat) (h : Issues i s)
    (hf : f (issuedTm s).countSpan = .error c) : controlWord i s f = .next (trapWord (issued s) c i) := by
  rw [controlWord, issue_eq i s _ h]; simp [hf]

/-! ### What the end of a word leaves -/

/-- atWord and advance move the team; they change no register. -/
theorem advance_rest (t : Team) : Team.rest t.advance = Team.rest t := by
  simp only [Team.advance]; repeat' split
  all_goals rfl

theorem finish_rest (t : Team) : Team.rest t.finish = Team.rest t := by
  simp [Team.finish, advance_rest]; rfl

@[simp] theorem advance_v (t : Team) : t.advance.v = t.v := by
  simp only [Team.advance]; repeat' split
  all_goals rfl
@[simp] theorem advance_s (t : Team) : t.advance.s = t.s := by
  simp only [Team.advance]; repeat' split
  all_goals rfl
@[simp] theorem advance_p (t : Team) : t.advance.p = t.p := by
  simp only [Team.advance]; repeat' split
  all_goals rfl
@[simp] theorem advance_fpflags (t : Team) : t.advance.fpflags = t.fpflags := by
  simp only [Team.advance]; repeat' split
  all_goals rfl
@[simp] theorem finish_v (t : Team) : t.finish.v = t.v := by simp [Team.finish]; rfl
@[simp] theorem finish_s (t : Team) : t.finish.s = t.s := by simp [Team.finish]; rfl
@[simp] theorem finish_p (t : Team) : t.finish.p = t.p := by simp [Team.finish]; rfl
@[simp] theorem finish_fpflags (t : Team) : t.finish.fpflags = t.fpflags := by simp [Team.finish]; rfl

@[simp] theorem snap_v (t : Team) : t.snap.v = t.v := by
  simp only [Team.snap]; repeat' split
  all_goals rfl
@[simp] theorem snap_s (t : Team) : t.snap.s = t.s := by
  simp only [Team.snap]; repeat' split
  all_goals rfl
@[simp] theorem snap_p (t : Team) : t.snap.p = t.p := by
  simp only [Team.snap]; repeat' split
  all_goals rfl
@[simp] theorem snap_fpflags (t : Team) : t.snap.fpflags = t.fpflags := by
  simp only [Team.snap]; repeat' split
  all_goals rfl
theorem snap_rest (t : Team) : Team.rest t.snap = Team.rest t := by
  simp only [Team.snap]; repeat' split
  all_goals rfl

end Sys2Proof.Machine
end

