-- ==== Sys2Proof/Laws/Lanes.lean ====
section
/-! SUPPORT. Reads of vector, scalar and predicate registers after writes to them. -/

namespace Sys2Proof.Machine

theorem vkey_inj {g l g' l' : Nat} (h : l < 1024) (h' : l' < 1024) : vkey g l = vkey g' l' ↔ g = g' ∧ l = l' := by
  unfold vkey; omega

/-! ### Masks -/

theorem getLsbD_laneBit (l j : Nat) (hj : j < 1024) : (laneBit l).getLsbD j = decide (j = l) := by
  rw [laneBit, BitVec.getLsbD_ofNat, Nat.testBit_two_pow]
  simp [hj, eq_comm]

theorem getLsbD_setLane (m : Mask) (l j : Nat) (b : Bool) (hj : j < 1024) :
    (setLane m l b).getLsbD j = if j = l then b else m.getLsbD j := by
  unfold setLane
  by_cases h : j = l
  · subst h; cases b
    · simp only [Bool.false_eq_true, if_false, BitVec.getLsbD_and, BitVec.getLsbD_not, getLsbD_laneBit _ _ hj]; simp
    · simp only [if_true, BitVec.getLsbD_or, getLsbD_laneBit _ _ hj]; simp
  · cases b
    · simp only [Bool.false_eq_true, if_false, BitVec.getLsbD_and, BitVec.getLsbD_not, getLsbD_laneBit _ _ hj, h]
      simp [hj]
    · simp only [if_true, BitVec.getLsbD_or, getLsbD_laneBit _ _ hj, h]; simp

theorem getLsbD_foldl_setLane (ls : List Nat) (f : Nat → Bool) (m : Mask) (j : Nat) (hj : j < 1024) :
    (ls.foldl (fun m l => setLane m l (f l)) m).getLsbD j = if j ∈ ls then f j else m.getLsbD j := by
  induction ls generalizing m with
  | nil => simp
  | cons a r ih =>
    rw [List.foldl_cons, ih, getLsbD_setLane _ _ _ _ hj]
    by_cases h : j ∈ r
    · simp [h]
    · by_cases h2 : j = a
      · subst h2; simp
      · simp [h, h2]

theorem mem_lanesOfWord {m : Mask} {q l : Nat} : l ∈ lanesOfWord m q ↔ l / 32 = q ∧ m.getLsbD l = true := by
  simp only [lanesOfWord, List.mem_filter, List.mem_map, List.mem_range]
  constructor
  · rintro ⟨⟨a, ha, rfl⟩, hm⟩; exact ⟨by omega, hm⟩
  · rintro ⟨rfl, hm⟩; exact ⟨⟨l % 32, by omega, by omega⟩, hm⟩

theorem mem_lanesOfWord_lt {m : Mask} {q l : Nat} (h : l ∈ lanesOfWord m q) : l < 1024 := by
  have := (mem_lanesOfWord.mp h).2
  by_contra hn
  simp [BitVec.getLsbD_of_ge _ _ (by omega : 1024 ≤ l)] at this

theorem lanesOf_lt {m : Mask} {l : Nat} (h : l ∈ lanesOf m) : l < 1024 := by
  simp only [lanesOf, List.mem_flatMap] at h
  obtain ⟨q, -, hl⟩ := h
  exact mem_lanesOfWord_lt hl

theorem wordLanes_lt {t : Team} {l : Nat} (h : l ∈ t.wordLanes) : l < 1024 := by
  unfold Team.wordLanes at h
  split at h
  · exact mem_lanesOfWord_lt h
  · exact lanesOf_lt h

@[simp] theorem snap_wordLanes (t : Team) : t.snap.wordLanes = t.wordLanes := by
  unfold Team.snap
  split
  · next c hc =>
    split
    · simp [Team.wordLanes, Team.passMajor, Team.cls4, Team.pass, Team.acting, hc]
    · rfl
  · rfl

/-! ### Vector registers -/

theorem vget_vset (t : Team) (g l g' l' : Nat) (x : Word) (h : l < 1024) (h' : l' < 1024) :
    (t.vset g l x).vget g' l' = if g' = g ∧ l' = l then x else t.vget g' l' := by
  simp only [Team.vget, Team.vset, sget_sset, vkey_inj h' h]

theorem vget_foldl_setLane32 (ls : List Nat) (f : Nat → Word) (t : Team) (n g l : Nat) (hl : l < 1024)
    (hs : ∀ a ∈ ls, a < 1024) :
    (ls.foldl (fun t' a => t'.setLane32 n a (f a)) t).vget g l =
      if g = t.frame + n ∧ l ∈ ls then f l else t.vget g l := by
  induction ls generalizing t with
  | nil => simp
  | cons a r ih =>
    rw [List.foldl_cons, ih _ (fun b hb => hs b (List.mem_cons_of_mem _ hb)), Team.setLane32,
      vget_vset _ _ _ _ _ _ (hs a List.mem_cons_self) hl]
    have hf : (t.vset (t.frame + n) a (f a)).frame = t.frame := rfl
    rw [hf]
    by_cases h1 : g = t.frame + n
    · subst h1
      by_cases h2 : l ∈ r
      · simp [h2]
      · by_cases h3 : l = a
        · subst h3; simp
        · simp [h2, h3]
    · simp [h1]

theorem vget_foldl_setLane64 (ls : List Nat) (f : Nat → DWord) (t : Team) (n g l : Nat) (hl : l < 1024)
    (hs : ∀ a ∈ ls, a < 1024) :
    (ls.foldl (fun t' a => t'.setLane64 n a (f a)) t).vget g l =
      if l ∈ ls then
        if g = t.frame + n then lo32 (f l) else if g = t.frame + n + 1 then hi32 (f l) else t.vget g l
      else t.vget g l := by
  induction ls generalizing t with
  | nil => simp
  | cons a r ih =>
    have ha := hs a List.mem_cons_self
    have hf : (t.setLane64 n a (f a)).frame = t.frame := rfl
    have hv : (t.setLane64 n a (f a)).vget g l =
        if l = a then if g = t.frame + n then lo32 (f l) else if g = t.frame + n + 1 then hi32 (f l) else t.vget g l
        else t.vget g l := by
      rw [Team.setLane64, vget_vset _ _ _ _ _ _ ha hl, vget_vset _ _ _ _ _ _ ha hl]
      by_cases h3 : l = a
      · subst h3
        by_cases h1 : g = t.frame + n
        · simp [h1]
        · simp [h1]
      · simp [h3]
    rw [List.foldl_cons, ih _ (fun b hb => hs b (List.mem_cons_of_mem _ hb)), hf, hv]
    by_cases h2 : l ∈ r
    · simp only [h2, if_true, List.mem_cons, or_true]
      split_ifs <;> rfl
    · by_cases h3 : l = a
      · subst h3; simp only [h2, if_false, if_true, List.mem_cons, true_or]
      · simp [h2, h3]

theorem pair64_halves (x : DWord) : pair64 (lo32 x) (hi32 x) = x := by
  simp only [pair64, lo32, hi32]
  apply BitVec.eq_of_getLsbD_eq
  intro i hi
  simp only [BitVec.getLsbD_append, BitVec.getLsbD_setWidth, BitVec.getLsbD_ushiftRight]
  by_cases h : i < 32
  · simp [h]
  · have : 32 + (i - 32) = i := by omega
    simp [h, this]; omega

@[simp] theorem foldl_setLane32_rest (ls : List Nat) (f : Nat → Word) (t : Team) (n : Nat) :
    Safety.Team.rest (ls.foldl (fun t' a => t'.setLane32 n a (f a)) t) = Safety.Team.rest t := by
  induction ls generalizing t with
  | nil => rfl
  | cons a r ih => rw [List.foldl_cons, ih]; rfl

@[simp] theorem foldl_setLane64_rest (ls : List Nat) (f : Nat → DWord) (t : Team) (n : Nat) :
    Safety.Team.rest (ls.foldl (fun t' a => t'.setLane64 n a (f a)) t) = Safety.Team.rest t := by
  induction ls generalizing t with
  | nil => rfl
  | cons a r ih => rw [List.foldl_cons, ih]; rfl

theorem foldl_setLane_other {α : Type} (g : Team → α) (ls : List Nat) (step : Team → Nat → Team) (t : Team)
    (h : ∀ t l, g (step t l) = g t) : g (ls.foldl step t) = g t := by
  induction ls generalizing t with
  | nil => rfl
  | cons a r ih => rw [List.foldl_cons, ih, h]

/-! ### Scalars and predicates -/

theorem sget_s_swrite (t : Team) (n m : Nat) (x : DWord) : sget 0 (t.swrite n x).s m = if m = n then x else sget 0 t.s m := by
  simp [Team.swrite]

theorem sget_p_pwrite (t : Team) (p : Nat) (ls : List Nat) (f : Nat → Bool) (q j : Nat) (hj : j < 1024) (hp : p ≠ 7) :
    (sget 0 (t.pwrite p ls f).p q).getLsbD j =
      if q = p ∧ j ∈ ls then f j else (sget 0 t.p q).getLsbD j := by
  simp only [Team.pwrite, beq_iff_eq, hp, if_false, sget_sset]
  by_cases h : q = p
  · subst h; simp [getLsbD_foldl_setLane _ _ _ _ hj]
  · simp [h]

end Sys2Proof.Machine
end

