-- ==== Sys2Proof/Laws/Integer.lean ====
section
/-! SUPPORT. What the integer words leave in their destination, and that they change nothing else. -/

namespace Sys2Proof.Machine

open Sys2Proof.Safety

/-! ### Sources in the issued state -/

@[simp] theorem snap_frame (t : Team) : t.snap.frame = t.frame := by
  simp only [Team.snap]; repeat' split
  all_goals rfl

@[simp] theorem snap_lane (t : Team) (n l : Nat) : t.snap.lane n l = t.lane n l := by
  simp [Team.lane, Team.vget]

@[simp] theorem snap_lane64 (t : Team) (n l : Nat) : t.snap.lane64 n l = t.lane64 n l := by
  simp [Team.lane64]

/-- The scalars kept for later passes do not change what the word itself reads. -/
theorem snap_scalars (t : Team) : t.snap.scalars = t.scalars := by
  simp only [Team.snap]; split
  · rename_i c hc
    split
    · rename_i h
      have hf : c.first = true := by simp only [Bool.and_eq_true] at h; exact h.1.2
      simp [Team.scalars, hc, hf]
    · rfl
  · rfl

@[simp] theorem snap_sread (t : Team) (n : Nat) : t.snap.sread n = t.sread n := by
  rw [Team.sread, snap_scalars]; rfl

@[simp] theorem snap_src (t : Team) (r : Reg) (l : Nat) : t.snap.src r l = t.src r l := by
  cases r <;> simp [Team.src]

@[simp] theorem snap_src64 (t : Team) (r : Reg) (l : Nat) : t.snap.src64 r l = t.src64 r l := by
  cases r <;> simp [Team.src64]

@[simp] theorem snap_active (t : Team) : t.snap.active = t.active := by
  simp only [Team.snap]; repeat' split
  all_goals rfl
@[simp] theorem snap_full (t : Team) : t.snap.full = t.full := by
  simp only [Team.snap]; repeat' split
  all_goals rfl
@[simp] theorem snap_pread (t : Team) (p : Nat) : t.snap.pread p = t.pread p := by
  simp [Team.pread]

theorem issuedTm_lane (s : State) (n l : Nat) : (issuedTm s).lane n l = s.tm.lane n l := by
  rw [issuedTm, snap_lane]; rfl
theorem issuedTm_lane64 (s : State) (n l : Nat) : (issuedTm s).lane64 n l = s.tm.lane64 n l := by
  rw [issuedTm, snap_lane64]; rfl
theorem issuedTm_sread (s : State) (n : Nat) : (issuedTm s).sread n = s.tm.sread n := by
  rw [issuedTm, snap_sread]; rfl
theorem issuedTm_src (s : State) (r : Reg) (l : Nat) : (issuedTm s).src r l = s.tm.src r l := by
  rw [issuedTm, snap_src]; cases r <;> rfl
theorem issuedTm_src64 (s : State) (r : Reg) (l : Nat) : (issuedTm s).src64 r l = s.tm.src64 r l := by
  rw [issuedTm, snap_src64]; cases r <;> rfl
theorem issuedTm_wordLanes (s : State) : (issuedTm s).wordLanes = s.tm.wordLanes := by
  rw [issuedTm, snap_wordLanes]; rfl
theorem issuedTm_v (s : State) : (issuedTm s).v = s.tm.v := by rw [issuedTm, snap_v]
theorem issuedTm_s (s : State) : (issuedTm s).s = s.tm.s := by rw [issuedTm, snap_s]
theorem issuedTm_p (s : State) : (issuedTm s).p = s.tm.p := by rw [issuedTm, snap_p]
theorem issuedTm_fpflags (s : State) : (issuedTm s).fpflags = s.tm.fpflags := by rw [issuedTm, snap_fpflags]
theorem issuedTm_frame (s : State) : (issuedTm s).frame = s.tm.frame := by rw [issuedTm, snap_frame]
theorem issuedTm_active (s : State) : (issuedTm s).active = s.tm.active := by rw [issuedTm, snap_active]
theorem issuedTm_pread (s : State) (p : Nat) : (issuedTm s).pread p = s.tm.pread p := by
  rw [issuedTm, snap_pread]; rfl
theorem issuedTm_rest (s : State) : Safety.Team.rest (issuedTm s) = Safety.Team.rest s.tm := by
  rw [issuedTm, snap_rest]; rfl

/-! ### One team word: the rest of the machine -/

/-- A word that puts team t in the place of the current one touches only that team. -/
theorem onlyTeam_of (s : State) (t : Team) (h : Safety.Team.rest t = Safety.Team.rest s.tm) :
    Safety.OnlyTeam s ((issued s).setTm t) := by
  refine ⟨?_, ?_, by rw [tm_setTm]; exact h⟩
  · simp only [Safety.SameMachine, issued, State.modTm, State.setTm, State.setTeam, State.noteIssue]
  intro u hu
  simp only [issued, State.modTm, State.setTm, State.setTeam, State.noteIssue, sfind_sput, if_neg hu]

theorem frame_of_rest {a b : Team} (h : Safety.Team.rest a = Safety.Team.rest b) : a.frame = b.frame := by
  have := congrArg Team.frame h
  exact this

theorem finish_lane (t : Team) (n l : Nat) : t.finish.lane n l = t.lane n l := by
  have h : t.finish.frame = t.frame := frame_of_rest (finish_rest t)
  simp [Team.lane, Team.vget, h]
theorem finish_lane64 (t : Team) (n l : Nat) : t.finish.lane64 n l = t.lane64 n l := by
  simp [Team.lane64, finish_lane]

/-! ### Lanes written from a function -/

theorem lane_foldl_setLane32 (t : Team) (ls : List Nat) (f : Nat → Word) (n l : Nat) (hl : l < 1024)
    (hs : ∀ a ∈ ls, a < 1024) :
    (ls.foldl (fun t' a => t'.setLane32 n a (f a)) t).lane n l = if l ∈ ls then f l else t.lane n l := by
  have h' : (ls.foldl (fun t' a => t'.setLane32 n a (f a)) t).frame = t.frame :=
    frame_of_rest (foldl_setLane32_rest ls f t n)
  rw [Team.lane, h', vget_foldl_setLane32 _ _ _ _ _ _ hl hs]; simp [Team.lane]

theorem lane64_foldl_setLane64 (t : Team) (ls : List Nat) (f : Nat → DWord) (n l : Nat) (hl : l < 1024)
    (hs : ∀ a ∈ ls, a < 1024) :
    (ls.foldl (fun t' a => t'.setLane64 n a (f a)) t).lane64 n l = if l ∈ ls then f l else t.lane64 n l := by
  have h' : (ls.foldl (fun t' a => t'.setLane64 n a (f a)) t).frame = t.frame :=
    frame_of_rest (foldl_setLane64_rest ls f t n)
  simp only [Team.lane64, Team.lane, h', vget_foldl_setLane64 _ _ _ _ _ _ hl hs, ← Nat.add_assoc]
  by_cases h : l ∈ ls
  · simp [h, pair64_halves]
  · simp [h]

/-! ### intWord -/

theorem intWord_rest (t : Team) (ty : IntTy) (f : IntFn) (d a b : Reg) :
    Safety.Team.rest (t.intWord ty f d a b) = Safety.Team.rest t := by
  unfold Team.intWord
  cases d with
  | s n => rfl
  | v n => cases ty.is64 <;> simp

theorem lane_intWord (t : Team) (ty : IntTy) (f : IntFn) (n : Fin 104) (a b : Reg) (l : Nat) (hl : l < 1024)
    (h : ty.is64 = false) :
    (t.intWord ty f (.v n) a b).lane n.val l =
      if l ∈ t.wordLanes then f 32 ty.signed (t.src a l) (t.src b l) (t.lane n.val l) else t.lane n.val l := by
  simp only [Team.intWord, h, Bool.false_eq_true, if_false]
  rw [lane_foldl_setLane32 _ _ _ _ _ hl (fun _ => wordLanes_lt)]

theorem lane64_intWord (t : Team) (ty : IntTy) (f : IntFn) (n : Fin 104) (a b : Reg) (l : Nat) (hl : l < 1024)
    (h : ty.is64 = true) :
    (t.intWord ty f (.v n) a b).lane64 n.val l =
      if l ∈ t.wordLanes then f 64 ty.signed (t.src64 a l) (t.src64 b l) (t.lane64 n.val l) else t.lane64 n.val l := by
  simp only [Team.intWord, h, if_true]
  rw [lane64_foldl_setLane64 _ _ _ _ _ hl (fun _ => wordLanes_lt)]

theorem s_intWord (t : Team) (ty : IntTy) (f : IntFn) (n : Fin 24) (a b : Reg) :
    sget 0 (t.intWord ty f (.s n) a b).s n.val = t.scalarResult ty f n a b := by
  simp [Team.intWord, Team.swrite]

end Sys2Proof.Machine
end

