-- ==== Sys2Proof/Laws/Memory.lean ====
section
/-! SUPPORT. The laws of memory: what a read gives after each memory operation, and that each of them keeps memory
and the tables of both cache levels in their canonical form. -/

namespace Sys2Proof.Machine

open Sys2Proof.Safety

/-! ### Single entries -/

@[simp] theorem memGet_memSet (s : State) (pa a : Nat) (b : Byte) :
    memGet (memSet s pa b) a = if a = pa then b else memGet s a := by simp [memGet, memSet]


theorem memSet_ok (s : State) (pa : Nat) (b : Byte) (h : StoresOk s) : StoresOk (memSet s pa b) :=
  ⟨canon_sset _ _ _ _ h.1, h.2⟩

@[simp] theorem memGet_l1Set (s : State) (c pa a : Nat) (v : Option L1Byte) :
    memGet (l1Set s c pa v) a = memGet s a := rfl

theorem l1Get_l1Set (s : State) (c pa c' a : Nat) (v : Option L1Byte) :
    l1Get (l1Set s c pa v) c' a = if l1Key c' a = l1Key c pa then v else l1Get s c' a := by simp [l1Get, l1Set]

@[simp] theorem l1Get_l1Set_core (s : State) (c pa a : Nat) (v : Option L1Byte) :
    l1Get (l1Set s c pa v) c a = if a = pa then v else l1Get s c a := by
  rw [l1Get_l1Set]; simp [l1Key]

theorem l1Set_ok (s : State) (c pa : Nat) (v : Option L1Byte) (h : StoresOk s) : StoresOk (l1Set s c pa v) :=
  ⟨h.1, canon_sset _ _ _ _ h.2.1, h.2.2⟩


@[simp] theorem l2Get_l2Set (s : State) (n m : Nat) (x : L2Line) :
    l2Get (l2Set s n x) m = if m = n then x else l2Get s m := by simp [l2Get, l2Set]

theorem l2Set_ok (s : State) (n : Nat) (x : L2Line) (h : StoresOk s) : StoresOk (l2Set s n x) :=
  ⟨h.1, h.2.1, canon_sset _ _ _ _ h.2.2⟩

/-! ### Lists of bytes at the home slices -/

/-- What a list of writes leaves at an address: the last one to it. -/
theorem memGet_memSetAll (s : State) (bs : List (Nat × Byte)) (a : Nat) :
    memGet (memSetAll s bs) a = ((bs.reverse.find? fun e => e.1 == a).map (·.2)).getD (memGet s a) := by
  induction bs generalizing s with
  | nil => rfl
  | cons e r ih =>
    obtain ⟨pa, b⟩ := e
    rw [memSetAll, ih, List.reverse_cons, List.find?_append]
    cases h : r.reverse.find? fun e => e.1 == a with
    | some x => simp
    | none =>
      by_cases ha : pa = a
      · simp [ha]
      · have : ¬ a = pa := fun e => ha e.symm
        simp [ha, this]

/-- An address that no write names keeps its byte. -/
theorem memGet_memSetAll_other (s : State) (bs : List (Nat × Byte)) (a : Nat) (h : a ∉ bs.map (·.1)) :
    memGet (memSetAll s bs) a = memGet s a := by
  rw [memGet_memSetAll]
  have : bs.reverse.find? (fun e => e.1 == a) = none := by
    simp only [List.find?_eq_none, List.mem_reverse, beq_iff_eq]
    intro e he ha; exact h (ha ▸ List.mem_map_of_mem he)
  rw [this]; rfl

/-- With distinct addresses, each address holds the byte written to it. -/
theorem memGet_memSetAll_mem (s : State) (bs : List (Nat × Byte)) (a : Nat) (b : Byte) (hn : (bs.map (·.1)).Nodup)
    (h : (a, b) ∈ bs) : memGet (memSetAll s bs) a = b := by
  induction bs generalizing s with
  | nil => simp at h
  | cons e r ih =>
    obtain ⟨pa, x⟩ := e
    simp only [List.map_cons, List.nodup_cons] at hn
    rw [memSetAll]
    rcases List.mem_cons.mp h with h | h
    · cases h
      rw [memGet_memSetAll_other _ _ _ hn.1]; simp
    · exact ih _ hn.2 h

/-- The i-th of some bytes written to distinct addresses. -/
theorem memGet_memSetAll_zip (s : State) (pas : List Nat) (bs : List Byte) (hn : pas.Nodup) (hl : pas.length ≤ bs.length)
    (i pa : Nat) (h : pas[i]? = some pa) : bs[i]? = some (memGet (memSetAll s (pas.zip bs)) pa) := by
  have hi : i < pas.length := by
    rcases Nat.lt_or_ge i pas.length with h' | h'
    · exact h'
    · rw [List.getElem?_eq_none h'] at h; cases h
  have hb : i < bs.length := Nat.lt_of_lt_of_le hi hl
  have hpa : pas[i] = pa := by rw [List.getElem?_eq_getElem hi] at h; exact Option.some.inj h
  have hm : (pa, bs[i]) ∈ pas.zip bs := by
    have hz : i < (pas.zip bs).length := by simp [hi, hb]
    have : (pas.zip bs)[i] = (pa, bs[i]) := by simp [hpa]
    rw [← this]; exact List.getElem_mem hz
  rw [memGet_memSetAll_mem s _ pa _ (by rw [List.map_fst_zip hl]; exact hn) hm, List.getElem?_eq_getElem hb]

@[simp] theorem memSetAll_l1 (s : State) (bs : List (Nat × Byte)) : (memSetAll s bs).l1 = s.l1 := by
  induction bs generalizing s with
  | nil => rfl
  | cons e r ih => rw [memSetAll, ih, memSet_l1]

@[simp] theorem memSetAll_l2 (s : State) (bs : List (Nat × Byte)) : (memSetAll s bs).l2 = s.l2 := by
  induction bs generalizing s with
  | nil => rfl
  | cons e r ih => rw [memSetAll, ih, memSet_l2]

theorem memSetAll_ok (s : State) (bs : List (Nat × Byte)) (h : StoresOk s) : StoresOk (memSetAll s bs) := by
  induction bs generalizing s with
  | nil => exact h
  | cons e r ih => exact ih _ (memSet_ok _ _ _ h)

/-! ### The frame of a write: what a memory operation leaves alone -/

/-- The fields of the state that a memory operation does not touch: memory, caches with the order of their use, key
shadows, accesses waiting at banks, teams (waiting WAITVs read again) and channels (waiting conditions read again) are left
out. -/
def outside (s : State) : State :=
  { s with mem := [], shadows := [], l1 := [], l2 := [], l2Time := 0, banks := [], teams := [], channels := [] }

theorem outside_memSet (s : State) (pa : Nat) (b : Byte) : outside (memSet s pa b) = outside s := rfl

theorem outside_memSetAll (s : State) (bs : List (Nat × Byte)) : outside (memSetAll s bs) = outside s := by
  induction bs generalizing s with
  | nil => rfl
  | cons e r ih => rw [memSetAll, ih, outside_memSet]

theorem outside_l1Set (s : State) (c pa : Nat) (v : Option L1Byte) : outside (l1Set s c pa v) = outside s := rfl
theorem outside_l2Set (s : State) (n : Nat) (x : L2Line) : outside (l2Set s n x) = outside s := rfl

/-! ### markDirty, observe, homeWrite -/

@[simp] theorem markDirty_mem (s : State) (pa : Nat) : (markDirty s pa).mem = s.mem := by
  unfold markDirty; split <;> rfl
@[simp] theorem markDirty_l1 (s : State) (pa : Nat) : (markDirty s pa).l1 = s.l1 := by
  unfold markDirty; split <;> rfl
theorem outside_markDirty (s : State) (pa : Nat) : outside (markDirty s pa) = outside s := by
  unfold markDirty; split <;> rfl
theorem markDirty_ok (s : State) (pa : Nat) (h : StoresOk s) : StoresOk (markDirty s pa) := by
  unfold markDirty; split
  · exact l2Set_ok _ _ _ h
  · exact h

theorem foldl_markDirty (pas : List Nat) (s : State) :
    (pas.foldl markDirty s).mem = s.mem ∧ (pas.foldl markDirty s).l1 = s.l1 ∧
      outside (pas.foldl markDirty s) = outside s ∧ (StoresOk s → StoresOk (pas.foldl markDirty s)) := by
  induction pas generalizing s with
  | nil => exact ⟨rfl, rfl, rfl, id⟩
  | cons a r ih =>
    obtain ⟨h1, h2, h3, h4⟩ := ih (markDirty s a)
    rw [List.foldl_cons]
    exact ⟨h1.trans (markDirty_mem s a), h2.trans (markDirty_l1 s a), h3.trans (outside_markDirty s a),
      fun h => h4 (markDirty_ok s a h)⟩

theorem touchLine_ok (s : State) (n : Nat) (h : StoresOk s) : StoresOk (touchLine s n) := l2Set_ok _ _ _ h

theorem foldl_touchLine (ns : List Nat) (s : State) :
    (ns.foldl touchLine s).mem = s.mem ∧ (ns.foldl touchLine s).l1 = s.l1 ∧
      outside (ns.foldl touchLine s) = outside s ∧ (StoresOk s → StoresOk (ns.foldl touchLine s)) := by
  induction ns generalizing s with
  | nil => exact ⟨rfl, rfl, rfl, id⟩
  | cons a r ih =>
    obtain ⟨h1, h2, h3, h4⟩ := ih (touchLine s a)
    rw [List.foldl_cons]
    exact ⟨h1, h2, h3, fun h => h4 (touchLine_ok s a h)⟩

/-- The lines of a write are used, and their sectors are dirty. -/
def marked (s : State) (bs : List (Nat × Byte)) : State :=
  (bs.map (·.1)).foldl markDirty ((distinct (bs.map fun b => lineOf b.1)).foldl touchLine s)

theorem homeWrite_eq (s : State) (bs : List (Nat × Byte)) :
    homeWrite s bs = observe (memSetAll (marked s bs) bs) none (distinct (bs.map fun b => lineOf b.1)) := rfl

theorem marked_keeps (s : State) (bs : List (Nat × Byte)) :
    (marked s bs).mem = s.mem ∧ (marked s bs).l1 = s.l1 ∧ outside (marked s bs) = outside s ∧
      (StoresOk s → StoresOk (marked s bs)) := by
  obtain ⟨a1, a2, a3, a4⟩ := foldl_touchLine (distinct (bs.map fun b => lineOf b.1)) s
  obtain ⟨b1, b2, b3, b4⟩ := foldl_markDirty (bs.map (·.1)) ((distinct (bs.map fun b => lineOf b.1)).foldl touchLine s)
  exact ⟨b1.trans a1, b2.trans a2, b3.trans a3, fun h => b4 (a4 h)⟩

/-- observe changes teams and channels alone. -/
theorem observe_frame (s : State) (c : Option Nat) (lines : List Nat) :
    { observe s c lines with teams := s.teams, channels := s.channels } = s := by
  unfold observe
  split <;> (simp only []; split <;> rfl)

@[simp] theorem observe_mem (s : State) (c : Option Nat) (lines : List Nat) : (observe s c lines).mem = s.mem := by
  have h := congrArg State.mem (observe_frame s c lines); exact h
@[simp] theorem observe_l1 (s : State) (c : Option Nat) (lines : List Nat) : (observe s c lines).l1 = s.l1 := by
  have h := congrArg State.l1 (observe_frame s c lines); exact h
@[simp] theorem observe_l2 (s : State) (c : Option Nat) (lines : List Nat) : (observe s c lines).l2 = s.l2 := by
  have h := congrArg State.l2 (observe_frame s c lines); exact h
theorem outside_observe (s : State) (c : Option Nat) (lines : List Nat) : outside (observe s c lines) = outside s := by
  have h := congrArg outside (observe_frame s c lines); exact h
theorem observe_ok (s : State) (c : Option Nat) (lines : List Nat) (h : StoresOk s) : StoresOk (observe s c lines) := by
  unfold StoresOk MemoryOk at *; simpa using h

theorem memGet_homeWrite (s : State) (bs : List (Nat × Byte)) (a : Nat) :
    memGet (homeWrite s bs) a = memGet (memSetAll s bs) a := by
  rw [homeWrite_eq, show ∀ x c l, memGet (observe x c l) a = memGet x a from fun x c l => by simp [memGet]]
  rw [memGet_memSetAll, memGet_memSetAll]
  simp [memGet, (marked_keeps s bs).1]

/-- A write leaves every other byte as it was. -/
theorem memGet_homeWrite_other (s : State) (bs : List (Nat × Byte)) (a : Nat) (h : a ∉ bs.map (·.1)) :
    memGet (homeWrite s bs) a = memGet s a := by
  rw [memGet_homeWrite, memGet_memSetAll_other _ _ _ h]

theorem memGet_homeWrite_mem (s : State) (bs : List (Nat × Byte)) (a : Nat) (b : Byte) (hn : (bs.map (·.1)).Nodup)
    (h : (a, b) ∈ bs) : memGet (homeWrite s bs) a = b := by
  rw [memGet_homeWrite, memGet_memSetAll_mem _ _ _ _ hn h]

theorem memGet_homeWrite_zip (s : State) (pas : List Nat) (bs : List Byte) (hn : pas.Nodup) (hl : pas.length ≤ bs.length)
    (i pa : Nat) (h : pas[i]? = some pa) : bs[i]? = some (memGet (homeWrite s (pas.zip bs)) pa) := by
  rw [memGet_homeWrite, ← memGet_memSetAll_zip s pas bs hn hl i pa h]

@[simp] theorem homeWrite_l1 (s : State) (bs : List (Nat × Byte)) : (homeWrite s bs).l1 = s.l1 := by
  rw [homeWrite_eq]; simp [(marked_keeps s bs).2.1]

theorem outside_homeWrite (s : State) (bs : List (Nat × Byte)) : outside (homeWrite s bs) = outside s := by
  rw [homeWrite_eq, outside_observe, outside_memSetAll, (marked_keeps s bs).2.2.1]

theorem homeWrite_ok (s : State) (bs : List (Nat × Byte)) (h : StoresOk s) : StoresOk (homeWrite s bs) :=
  observe_ok _ _ _ (memSetAll_ok _ _ ((marked_keeps s bs).2.2.2 h))

/-! ### Write-back and dropping -/

@[simp] theorem cleanBytes_mem (s : State) (c : Nat) (bs : List (Nat × L1Byte)) : (cleanBytes s c bs).mem = s.mem := by
  induction bs generalizing s with
  | nil => rfl
  | cons e r ih => rw [cleanBytes, ih, l1Set_mem]
theorem outside_cleanBytes (s : State) (c : Nat) (bs : List (Nat × L1Byte)) : outside (cleanBytes s c bs) = outside s := by
  induction bs generalizing s with
  | nil => rfl
  | cons e r ih => rw [cleanBytes, ih, outside_l1Set]
theorem cleanBytes_ok (s : State) (c : Nat) (bs : List (Nat × L1Byte)) (h : StoresOk s) : StoresOk (cleanBytes s c bs) := by
  induction bs generalizing s with
  | nil => exact h
  | cons e r ih => exact ih _ (l1Set_ok _ _ _ _ h)

theorem outside_writeBack (s : State) (c : Nat) (bs : List (Nat × L1Byte)) : outside (writeBack s c bs) = outside s := by
  rw [writeBack, outside_homeWrite, outside_cleanBytes]
theorem writeBack_ok (s : State) (c : Nat) (bs : List (Nat × L1Byte)) (h : StoresOk s) : StoresOk (writeBack s c bs) :=
  homeWrite_ok _ _ (cleanBytes_ok _ _ _ h)

/-- What a write-back leaves at the home slices. -/
theorem memGet_writeBack (s : State) (c : Nat) (bs : List (Nat × L1Byte)) (a : Nat) :
    memGet (writeBack s c bs) a = memGet (memSetAll s ((bs.filter (·.2.dirty)).map fun e => (e.1, e.2.val))) a := by
  rw [writeBack, memGet_homeWrite, memGet_memSetAll, memGet_memSetAll]
  simp [memGet]

/-- A byte that no dirty one of the list names keeps its value at the home slice. -/
theorem memGet_writeBack_other (s : State) (c : Nat) (bs : List (Nat × L1Byte)) (a : Nat)
    (h : ∀ e ∈ bs, e.2.dirty = true → e.1 ≠ a) : memGet (writeBack s c bs) a = memGet s a := by
  rw [memGet_writeBack, memGet_memSetAll_other]
  intro hm
  obtain ⟨x, hx, rfl⟩ := List.mem_map.mp hm
  obtain ⟨e, he, rfl⟩ := List.mem_map.mp hx
  obtain ⟨he, hd⟩ := List.mem_filter.mp he
  exact h e he hd rfl

/-- With distinct addresses, each dirty byte of the list has reached its home slice. -/
theorem memGet_writeBack_mem (s : State) (c : Nat) (bs : List (Nat × L1Byte)) (e : Nat × L1Byte)
    (hn : (bs.map (·.1)).Nodup) (he : e ∈ bs) (hd : e.2.dirty = true) : memGet (writeBack s c bs) e.1 = e.2.val := by
  rw [memGet_writeBack]
  refine memGet_memSetAll_mem _ _ _ _ ?_ (List.mem_map.mpr ⟨e, List.mem_filter.mpr ⟨he, hd⟩, rfl⟩)
  rw [List.map_map]
  exact hn.sublist (List.filter_sublist.map _)

@[simp] theorem dropBytes_mem (s : State) (c : Nat) (bs : List (Nat × L1Byte)) : (dropBytes s c bs).mem = s.mem := by
  induction bs generalizing s with
  | nil => rfl
  | cons e r ih => rw [dropBytes, ih, l1Set_mem]

theorem memGet_dropBytes (s : State) (c : Nat) (bs : List (Nat × L1Byte)) (a : Nat) :
    memGet (dropBytes s c bs) a = memGet s a := by simp [memGet]

theorem outside_dropBytes (s : State) (c : Nat) (bs : List (Nat × L1Byte)) : outside (dropBytes s c bs) = outside s := by
  induction bs generalizing s with
  | nil => rfl
  | cons e r ih => rw [dropBytes, ih, outside_l1Set]

theorem dropBytes_ok (s : State) (c : Nat) (bs : List (Nat × L1Byte)) (h : StoresOk s) : StoresOk (dropBytes s c bs) := by
  induction bs generalizing s with
  | nil => exact h
  | cons e r ih => exact ih _ (l1Set_ok _ _ _ _ h)

theorem outside_collectBytes (s : State) (c : Nat) (bs : List (Nat × L1Byte)) :
    outside (collectBytes s c bs) = outside s := by rw [collectBytes, outside_dropBytes, outside_writeBack]
theorem collectBytes_ok (s : State) (c : Nat) (bs : List (Nat × L1Byte)) (h : StoresOk s) :
    StoresOk (collectBytes s c bs) := dropBytes_ok _ _ _ (writeBack_ok _ _ _ h)
theorem outside_l1Release (s : State) (c : Nat) : outside (l1Release s c) = outside s := outside_collectBytes ..
theorem l1Release_ok (s : State) (c : Nat) (h : StoresOk s) : StoresOk (l1Release s c) := collectBytes_ok _ _ _ h
@[simp] theorem l1Acquire_mem (s : State) (c : Nat) : (l1Acquire s c).mem = s.mem := dropBytes_mem ..
theorem outside_l1Acquire (s : State) (c : Nat) : outside (l1Acquire s c) = outside s := outside_dropBytes ..
theorem l1Acquire_ok (s : State) (c : Nat) (h : StoresOk s) : StoresOk (l1Acquire s c) := dropBytes_ok _ _ _ h

theorem outside_l1Collect (s : State) (c line : Nat) : outside (l1Collect s c line) = outside s :=
  outside_collectBytes ..
theorem l1Collect_ok (s : State) (c line : Nat) (h : StoresOk s) : StoresOk (l1Collect s c line) := collectBytes_ok _ _ _ h

/-- A fold keeps what each of its steps keeps. -/
theorem foldl_keeps {α β : Type} (P : β → Prop) (f : β → α → β) (l : List α) (b : β) (h : P b)
    (hf : ∀ b a, a ∈ l → P b → P (f b a)) : P (l.foldl f b) := by
  induction l generalizing b with
  | nil => exact h
  | cons a r ih =>
    exact ih _ (hf _ _ (List.mem_cons_self ..) h) fun b a ha => hf b a (List.mem_cons_of_mem _ ha)

/-- A fold leaves alone what each of its steps leaves alone. -/
theorem foldl_same {α β γ : Type} (g : β → γ) (f : β → α → β) (l : List α) (b : β) (hf : ∀ b a, a ∈ l → g (f b a) = g b) :
    g (l.foldl f b) = g b :=
  foldl_keeps (fun x => g x = g b) f l b rfl fun x a ha hx => (hf x a ha).trans hx

theorem outside_collectLine (s : State) (line : Nat) : outside (collectLine s line) = outside s :=
  foldl_same outside _ _ _ fun _ _ _ => outside_l1Collect ..
theorem collectLine_ok (s : State) (line : Nat) (h : StoresOk s) : StoresOk (collectLine s line) :=
  foldl_keeps StoresOk _ _ _ h fun _ _ _ => l1Collect_ok _ _ _

/-! ### Fills and reads -/

theorem foldl_fillByte (c : Nat) (as : List Nat) (s : State) :
    (as.foldl (fillByte c) s).mem = s.mem ∧ outside (as.foldl (fillByte c) s) = outside s ∧
      (StoresOk s → StoresOk (as.foldl (fillByte c) s)) ∧
      ∀ a, coreByte (as.foldl (fillByte c) s) c a = coreByte s c a ∨
        coreByte (as.foldl (fillByte c) s) c a = memGet s a := by
  induction as generalizing s with
  | nil => exact ⟨rfl, rfl, id, fun _ => .inl rfl⟩
  | cons x r ih =>
    rw [List.foldl_cons]
    obtain ⟨h1, h2, h3, h4⟩ := ih (fillByte c s x)
    have hs : fillByte c s x = s ∨ fillByte c s x = l1Set s c x (some ⟨memGet s x, false⟩) := by
      unfold fillByte; split
      · split
        · exact .inl rfl
        · exact .inr rfl
      · exact .inr rfl
    rcases hs with hs | hs
    · rw [hs] at h1 h2 h3 h4 ⊢; exact ⟨h1, h2, h3, h4⟩
    · rw [hs] at h1 h2 h3 h4 ⊢
      refine ⟨h1, h2, fun h => h3 (l1Set_ok _ _ _ _ h), fun a => ?_⟩
      have hx : coreByte (l1Set s c x (some ⟨memGet s x, false⟩)) c a = coreByte s c a ∨
          coreByte (l1Set s c x (some ⟨memGet s x, false⟩)) c a = memGet s a := by
        by_cases ha : a = x
        · subst ha; right; simp [coreByte]
        · left; simp [coreByte, ha]
      rcases h4 a with h | h
      · rw [h]; exact hx
      · exact .inr h

theorem fillSector_mem (s : State) (c pa : Nat) : (fillSector s c pa).mem = s.mem := by
  rw [fillSector, observe_mem, (foldl_fillByte ..).1]; rfl
theorem outside_fillSector (s : State) (c pa : Nat) : outside (fillSector s c pa) = outside s := by
  rw [fillSector, outside_observe, (foldl_fillByte ..).2.1]; rfl
theorem fillSector_ok (s : State) (c pa : Nat) (h : StoresOk s) : StoresOk (fillSector s c pa) := by
  rw [fillSector]
  exact observe_ok _ _ _ ((foldl_fillByte ..).2.2.1 (touchLine_ok _ _ h))

theorem refetch_mem (s : State) (c : Nat) (lines : List Nat) : (refetch s c lines).mem = s.mem := by
  rw [refetch, observe_mem]
  exact foldl_same State.mem _ _ _ fun _ _ _ => fillSector_mem ..
theorem outside_refetch (s : State) (c : Nat) (lines : List Nat) : outside (refetch s c lines) = outside s := by
  rw [refetch, outside_observe]
  exact foldl_same outside _ _ _ fun _ _ _ => outside_fillSector ..
theorem refetch_ok (s : State) (c : Nat) (lines : List Nat) (h : StoresOk s) : StoresOk (refetch s c lines) :=
  observe_ok _ _ _ (foldl_keeps StoresOk _ _ _ h fun _ _ _ => fillSector_ok _ _ _)

theorem outside_l1Replace (s : State) (c n : Nat) : outside (l1Replace s c n) = outside s := by
  rw [l1Replace, outside_refetch, outside_collectBytes]
theorem l1Replace_ok (s : State) (c n : Nat) (h : StoresOk s) : StoresOk (l1Replace s c n) :=
  refetch_ok _ _ _ (collectBytes_ok _ _ _ h)

theorem coreByte_observe (s : State) (lines : List Nat) (c a : Nat) :
    coreByte (observe s at_ lines) c a = coreByte s c a := by simp [coreByte, l1Get, memGet]

/-- A fill leaves a byte as the core read it, or lets the core see the byte at its home slice (R136). -/
theorem coreByte_fillSector (s : State) (c pa a : Nat) :
    coreByte (fillSector s c pa) c a = coreByte s c a ∨ coreByte (fillSector s c pa) c a = memGet s a := by
  rw [fillSector, coreByte_observe]
  exact (foldl_fillByte ..).2.2.2 a

/-- A dirty byte of the core is not changed by a fill. -/
theorem coreByte_fillSector_dirty (s : State) (c pa a : Nat) (b : L1Byte) (h : l1Get s c a = some b)
    (hd : b.dirty = true) : coreByte (fillSector s c pa) c a = b.val := by
  have key : ∀ (as : List Nat) (s : State), l1Get s c a = some b → l1Get (as.foldl (fillByte c) s) c a = some b := by
    intro as
    induction as with
    | nil => exact fun _ h => h
    | cons x r ih =>
      intro s h
      refine ih _ ?_
      by_cases hx : a = x
      · subst hx; simp [fillByte, h, hd]
      · unfold fillByte; split
        · split
          · exact h
          · simp [hx, h]
        · simp [hx, h]
  have := key ((List.range 64).map (pa / 64 * 64 + ·)) (touchLine s (lineOf pa)) h
  rw [fillSector, coreByte_observe]
  simp only [coreByte, this]

theorem coreRead_mem (s : State) (c : Nat) (pas : List Nat) : (coreRead s c pas).2.mem = s.mem :=
  foldl_same State.mem _ _ _ fun _ _ _ => by
    split
    · rfl
    · exact fillSector_mem ..
theorem outside_coreRead (s : State) (c : Nat) (pas : List Nat) : outside (coreRead s c pas).2 = outside s :=
  foldl_same outside _ _ _ fun _ _ _ => by
    split
    · rfl
    · exact outside_fillSector ..
theorem coreRead_ok (s : State) (c : Nat) (pas : List Nat) (h : StoresOk s) : StoresOk (coreRead s c pas).2 :=
  foldl_keeps StoresOk _ _ _ h fun b a _ hb => by
    split
    · exact hb
    · exact fillSector_ok _ _ _ hb

/-- A plain load gives, for each address, what the core read there before or the byte at its home slice. -/
theorem coreRead_byte (s : State) (c : Nat) (pas : List Nat) (a : Nat) :
    coreByte (coreRead s c pas).2 c a = coreByte s c a ∨ coreByte (coreRead s c pas).2 c a = memGet s a := by
  refine (foldl_keeps (fun x => x.mem = s.mem ∧ (coreByte x c a = coreByte s c a ∨ coreByte x c a = memGet s a))
    _ _ _ ⟨rfl, .inl rfl⟩ fun b x _ hb => ?_).2
  split
  · exact hb
  · refine ⟨(fillSector_mem ..).trans hb.1, ?_⟩
    rcases coreByte_fillSector b c x a with h | h
    · rw [h]; exact hb.2
    · right; rw [h]; simp [memGet, hb.1]

/-- The bytes of a plain load are what the core reads there afterwards. -/
theorem coreRead_fst (s : State) (c : Nat) (pas : List Nat) :
    (coreRead s c pas).1 = pas.map (coreByte (coreRead s c pas).2 c) := rfl

/-! ### Stores -/

theorem foldl_includeLine (c : Nat) (ls : List Nat) (s : State) :
    (ls.foldl (includeLine c) s).mem = s.mem ∧ (ls.foldl (includeLine c) s).l1 = s.l1 ∧
      outside (ls.foldl (includeLine c) s) = outside s ∧ (StoresOk s → StoresOk (ls.foldl (includeLine c) s)) := by
  induction ls generalizing s with
  | nil => exact ⟨rfl, rfl, rfl, id⟩
  | cons x r ih =>
    rw [List.foldl_cons]
    obtain ⟨h1, h2, h3, h4⟩ := ih (includeLine c s x)
    have hs : includeLine c s x = s ∨ includeLine c s x = touchLine s x := by
      unfold includeLine; split
      · exact .inl rfl
      · exact .inr rfl
    rcases hs with hs | hs
    · rw [hs] at h1 h2 h3 h4 ⊢; exact ⟨h1, h2, h3, h4⟩
    · rw [hs] at h1 h2 h3 h4 ⊢
      exact ⟨h1, h2, h3, fun h => h4 (touchLine_ok _ _ h)⟩

theorem coreWrite_mem (s : State) (c : Nat) (bs : List (Nat × Byte)) : (coreWrite s c bs).mem = s.mem := by
  simp only [coreWrite, observe_mem]
  exact (foldl_same State.mem (fun s b => l1Set s c b.1 (some ⟨b.2, true⟩)) bs _ fun _ _ _ => rfl).trans
    (foldl_includeLine ..).1
theorem outside_coreWrite (s : State) (c : Nat) (bs : List (Nat × Byte)) : outside (coreWrite s c bs) = outside s := by
  rw [coreWrite, outside_observe]
  exact (foldl_same outside (fun s b => l1Set s c b.1 (some ⟨b.2, true⟩)) bs _ fun _ _ _ => rfl).trans
    (foldl_includeLine ..).2.2.1
theorem coreWrite_ok (s : State) (c : Nat) (bs : List (Nat × Byte)) (h : StoresOk s) : StoresOk (coreWrite s c bs) :=
  observe_ok _ _ _ (foldl_keeps StoresOk _ _ _ ((foldl_includeLine ..).2.2.2 h) fun _ _ _ => l1Set_ok _ _ _ _)

/-- A plain store leaves every other byte as the core reads it. -/
theorem coreByte_coreWrite_other (s : State) (c : Nat) (bs : List (Nat × Byte)) (a : Nat) (h : a ∉ bs.map (·.1)) :
    coreByte (coreWrite s c bs) c a = coreByte s c a := by
  rw [coreWrite, coreByte_observe]
  refine (foldl_same (fun s => coreByte s c a) _ _ _ fun b e he => ?_).trans ?_
  · have : ¬ a = e.1 := fun hae => h (hae ▸ List.mem_map_of_mem he)
    simp [coreByte, this]
  · obtain ⟨h1, h2, -⟩ := foldl_includeLine c (distinct (bs.map fun b => lineOf b.1)) s
    simp only [coreByte, l1Get, memGet, h1, h2]

/-- A plain store of distinct bytes is what the core reads there afterwards. -/
theorem coreByte_coreWrite_mem (s : State) (c : Nat) (bs : List (Nat × Byte)) (a : Nat) (b : Byte)
    (hn : (bs.map (·.1)).Nodup) (h : (a, b) ∈ bs) : coreByte (coreWrite s c bs) c a = b := by
  rw [coreWrite, coreByte_observe]
  generalize (distinct (bs.map fun b => lineOf b.1)).foldl (includeLine c) s = s0
  induction bs generalizing s0 with
  | nil => simp at h
  | cons e r ih =>
    simp only [List.map_cons, List.nodup_cons] at hn
    rw [List.foldl_cons]
    rcases List.mem_cons.mp h with h | h
    · subst h
      have : ∀ s1 : State, coreByte (r.foldl (fun s b => l1Set s c b.1 (some ⟨b.2, true⟩)) s1) c a = coreByte s1 c a :=
        fun s1 => foldl_same (fun s => coreByte s c a) _ _ _ fun x y hy => by
          have : ¬ a = y.1 := fun hay => hn.1 (List.mem_map.mpr ⟨y, hy, hay.symm⟩)
          simp [coreByte, this]
      rw [this]; simp [coreByte]
    · exact ih hn.2 h _

theorem outside_throughWrite (s : State) (c : Nat) (bs : List (Nat × Byte)) : outside (throughWrite s c bs) = outside s := by
  rw [throughWrite, outside_observe, outside_homeWrite]
  exact foldl_same outside _ _ _ fun _ _ _ => by split <;> rfl
theorem throughWrite_ok (s : State) (c : Nat) (bs : List (Nat × Byte)) (h : StoresOk s) :
    StoresOk (throughWrite s c bs) :=
  observe_ok _ _ _ <| homeWrite_ok _ _ (foldl_keeps StoresOk _ _ _ h fun b a _ hb => by
    split
    · exact l1Set_ok _ _ _ _ hb
    · exact hb)

theorem memGet_throughWrite (s : State) (c : Nat) (bs : List (Nat × Byte)) (a : Nat) :
    memGet (throughWrite s c bs) a = memGet (memSetAll s bs) a := by
  rw [throughWrite, show ∀ x c l, memGet (observe x c l) a = memGet x a from fun x c l => by simp [memGet],
    memGet_homeWrite, memGet_memSetAll, memGet_memSetAll]
  congr 1
  exact foldl_same (fun s => memGet s a) _ _ _ fun _ _ _ => by split <;> rfl

/-! ### Atomics and engines -/

theorem outside_flushBytes (s : State) (c : Nat) (pas : List Nat) : outside (flushBytes s c pas) = outside s :=
  outside_writeBack ..
theorem flushBytes_ok (s : State) (c : Nat) (pas : List Nat) (h : StoresOk s) : StoresOk (flushBytes s c pas) :=
  writeBack_ok _ _ _ h

theorem dropClean_mem (s : State) (c : Nat) (pas : List Nat) : (dropClean s c pas).mem = s.mem :=
  foldl_same State.mem _ _ _ fun _ _ _ => by split <;> (try split) <;> rfl
theorem outside_dropClean (s : State) (c : Nat) (pas : List Nat) : outside (dropClean s c pas) = outside s :=
  foldl_same outside _ _ _ fun _ _ _ => by split <;> (try split) <;> rfl
theorem dropClean_ok (s : State) (c : Nat) (pas : List Nat) (h : StoresOk s) : StoresOk (dropClean s c pas) :=
  foldl_keeps StoresOk _ _ _ h fun b a _ hb => by
    split
    · split
      · exact hb
      · exact l1Set_ok _ _ _ _ hb
    · exact hb

theorem outside_engineWrite (s : State) (c : Nat) (bs : List (Nat × Byte)) : outside (engineWrite s c bs) = outside s := by
  rw [engineWrite, outside_refetch, outside_homeWrite, outside_dropClean]
theorem engineWrite_ok (s : State) (c : Nat) (bs : List (Nat × Byte)) (h : StoresOk s) : StoresOk (engineWrite s c bs) :=
  refetch_ok _ _ _ <| homeWrite_ok _ _ (dropClean_ok _ _ _ h)
theorem memGet_engineWrite (s : State) (c : Nat) (bs : List (Nat × Byte)) (a : Nat) :
    memGet (engineWrite s c bs) a = memGet (memSetAll s bs) a := by
  rw [engineWrite, show ∀ x l, memGet (refetch x c l) a = memGet x a from fun x l => by simp [memGet, refetch_mem],
    memGet_homeWrite, memGet_memSetAll, memGet_memSetAll]
  simp [memGet, dropClean_mem]

/-! ### Keys -/

theorem outside_shadows (s : State) (x : Sparse (Option (BitVec 512) × BitVec 512)) :
    outside { s with shadows := x } = outside s := rfl
theorem shadows_ok (s : State) (x : Sparse (Option (BitVec 512) × BitVec 512)) (h : StoresOk s) :
    StoresOk { s with shadows := x } := h

theorem viewUnit_l1 (old new : Option (BitVec 512)) (s : State) (u : Nat) : (viewUnit old new s u).l1 = s.l1 := by
  simp only [viewUnit]; split <;> simp
theorem viewUnit_teams (old new : Option (BitVec 512)) (s : State) (u : Nat) : (viewUnit old new s u).teams = s.teams := by
  have h : ∀ (bs : List (Nat × Byte)) (s : State), (memSetAll s bs).teams = s.teams := by
    intro bs; induction bs with
    | nil => intro s; rfl
    | cons e r ih => intro s; rw [memSetAll, ih]; rfl
  simp only [viewUnit]; split <;> simp [h]
theorem outside_viewUnit (old new : Option (BitVec 512)) (s : State) (u : Nat) :
    outside (viewUnit old new s u) = outside s := by
  simp only [viewUnit]; split
  · exact outside_memSetAll ..
  · rw [outside_shadows, outside_memSetAll]
theorem viewUnit_ok (old new : Option (BitVec 512)) (s : State) (u : Nat) (h : StoresOk s) :
    StoresOk (viewUnit old new s u) := by
  simp only [viewUnit]; split
  · exact memSetAll_ok _ _ h
  · exact shadows_ok _ _ (memSetAll_ok _ _ h)

theorem outside_bankAccess (s : State) (u w : Bool) (pa : Nat) : outside (bankAccess s u w pa) = outside s := by
  simp only [bankAccess]; split <;> rfl
theorem bankAccess_ok (s : State) (u w : Bool) (pa : Nat) (h : StoresOk s) : StoresOk (bankAccess s u w pa) := by
  simp only [bankAccess]; split
  · exact h
  · exact h
theorem outside_writeSectors (s : State) (line : Nat) : outside (writeSectors s line) = outside s := by
  simp only [writeSectors]; split
  · rfl
  · rw [outside_bankAccess, outside_l2Set]
theorem writeSectors_ok (s : State) (line : Nat) (h : StoresOk s) : StoresOk (writeSectors s line) := by
  simp only [writeSectors]; split
  · exact h
  · exact bankAccess_ok _ _ _ _ (l2Set_ok _ _ _ h)

theorem outside_rereadLine (s : State) (line : Nat) : outside (rereadLine s line) = outside s := by
  rw [rereadLine, outside_l2Set]
  exact foldl_same outside _ _ _ fun _ _ _ => by unfold rereadUnit; split; exacts [rfl, outside_viewUnit ..]
theorem rereadLine_ok (s : State) (line : Nat) (h : StoresOk s) : StoresOk (rereadLine s line) :=
  l2Set_ok _ _ _ <| foldl_keeps StoresOk _ _ _ h fun _ _ _ hb => by
    unfold rereadUnit; split; exacts [hb, viewUnit_ok _ _ _ _ hb]
theorem outside_leaveL2 (s : State) (line : Nat) : outside (leaveL2 s line) = outside s := outside_rereadLine ..
theorem leaveL2_ok (s : State) (line : Nat) (h : StoresOk s) : StoresOk (leaveL2 s line) :=
  l2Set_ok _ _ _ (rereadLine_ok _ _ h)

theorem outside_viewKey (s : State) (pa key : Nat) : outside (viewKey s pa key) = outside s := by
  simp only [viewKey]; split
  · rfl
  · rw [outside_l2Set, foldl_same outside _ _ _ fun _ _ _ => outside_viewUnit .., outside_writeSectors,
      outside_collectLine]
theorem viewKey_ok (s : State) (pa key : Nat) (h : StoresOk s) : StoresOk (viewKey s pa key) := by
  simp only [viewKey]; split
  · exact h
  · exact l2Set_ok _ _ _ (foldl_keeps StoresOk _ _ _ (writeSectors_ok _ _ (collectLine_ok _ _ h))
      fun _ _ _ => viewUnit_ok _ _ _ _)

theorem outside_viewBytes (s : State) (pas : List Nat) (key : Nat) : outside (viewBytes s pas key) = outside s :=
  foldl_same outside _ _ _ fun _ _ _ => outside_viewKey ..
theorem viewBytes_ok (s : State) (pas : List Nat) (key : Nat) (h : StoresOk s) : StoresOk (viewBytes s pas key) :=
  foldl_keeps StoresOk _ _ _ h fun _ _ _ => viewKey_ok _ _ _

theorem outside_homeFetch (s : State) (u : Bool) (pa : Nat) : outside (homeFetch s u pa) = outside s := by
  simp only [homeFetch]; split
  · rfl
  · rw [outside_bankAccess, outside_l2Set]; rfl
theorem homeFetch_ok (s : State) (u : Bool) (pa : Nat) (h : StoresOk s) : StoresOk (homeFetch s u pa) := by
  simp only [homeFetch]; split
  · exact touchLine_ok _ _ h
  · exact bankAccess_ok _ _ _ _ (l2Set_ok _ _ _ (touchLine_ok _ _ h))

end Sys2Proof.Machine
end

