-- ==== Sys2Proof/Tests/Slice0.lean ====
section
/-! SUPPORT. The model's own tests: ill-formed terms, words written out from the encoding tables, single steps, and for
each statement with hypotheses a state and operands that meet them. Expected results come from the spec's rules and
examples. -/

open Sys2Proof Sys2Proof.Machine Sys2Proof.Safety Sys2Proof.Statements

namespace Sys2Proof.Tests

set_option Elab.async false

/-! ### Ill-formed terms are refused -/

/-- One term for each check of WellFormed: SRD of an absent register, a scalar LANEID, SWR of another register, a scalar
destination with a vector source in each shape, IABS unsigned, a directed rounding that CVT does not admit, PLANE with 1
and 9 planes, PLOG.not with a second source, a scalar load with a vector index, RED.exch, FENCE without an order, WAITV
at team scope, ROWMAJ with a third source after s23, a declaration with one register twice, BENTER past s23. -/
def illFormed : List Instr :=
  [.srd (.v 0) 6, .srd (.s 0) 0, .swr 0 9, .iadd (.s 0) (.v 0) (.s 0) .s32, .iadd (.s 0) (.s 0) (.v 0) .s32,
   .mov (.s 0) (.v 0) .s32, .iaddImm (.s 0) (.v 0) 0, .iabs (.v 0) (.v 0) .u32, .cvt 0 (.v 0) 10 .rz,
   .planeUnpack 0 (.v 0) 1, .planeUnpack 0 (.v 0) 9, .plog .not 0 0 1, .ldW (.s 0) ⟨.v 0, .s 0, false⟩ 0,
   .red .exch 0 ⟨.v 0, .s 0, false⟩, .fence .dev false false, .waitv false .team 0 ⟨.v 0, .s 0, false⟩,
   .rowmaj 0 0 23 0 ⟨false, false, .core⟩, .bdeclList 0 1 0 1, .bdeclRec 0 1 0 1, .benter 23 0 .read 1]

theorem test_wellFormed_smoke : illFormed.all (fun i => !i.wf) = true := by decide +kernel

/-! ### Words written out bit by bit -/

/-- An M operand [sN + vM]. -/
def at_ (s : Fin 24) (v : Fin 104) : MemOp := ⟨.v v, .s s, false⟩

/-- Control, integer and floating-point words that the spec prints (spec 19 to 22). -/
def specWords1 : List (Word × Instr) :=
  [(0x00000000, .nop), (0x01000003, .bra 3), (0x01FFFFF0, .bra ⟨2 ^ 24 - 16, by decide⟩),
   (0x0227FFE7, .brx 1 .any ⟨2 ^ 19 - 25, by decide⟩), (0x02300003, .brx 1 .none 3), (0x02E80002, .brx 7 .all 2),
   (0x03000040, .call 64), (0x07000000, .merge), (0x08400000, .prune 2), (0x09000000, .exit), (0x0B000000, .rett .replay),
   (0x0B000001, .rett .skip), (0x0B000002, .rett .fail), (0x0C000005, .bkpt 5), (0x0D380000, .srd (.v 28) 0),
   (0x0DD20001, .srd (.s 1) 1), (0x0E01AC08, .swr 3 8), (0x10D7AF6A, .iadd (.s 3) (.s 3) (.s 5) .s64),
   (0x18D5AF63, .and (.s 2) (.s 3) (.s 4) .u64), (0x200E0800, .brev (.v 7) (.v 2) .s32), (0x1F060800, .clz (.v 3) (.v 2) .s32),
   (0x210C0818, .bfx (.v 6) (.v 2) (.v 3) .s32), (0x220C0818, .bfi (.v 6) (.v 2) (.v 3) .s32),
   (0x230C0C22, .sel 6 (.v 3) (.v 4) 2), (0x24261029, .icmp .lt 3 (.v 4) (.v 5) .u32),
   (0x2515B010, .lea (.v 10) (.s 4) (.v 2) .s32), (0x2609AC03, .mov (.v 4) (.s 3) .u64), (0x290A10FF, .andImm (.v 5) (.v 4) 255),
   (0x2A0A1001, .orImm (.v 5) (.v 4) 1), (0x2B0A13FF, .xorImm (.v 5) (.v 4) 1023), (0x2CEFDD3F, .shrImm (.s 15) (.s 15) 63),
   (0x2D126000, .icmpImm .ne 1 (.v 24) 0), (0x2E300008, .movi (.v 24) 8), (0x2F364B00, .movu (.v 27) 0x4B00),
   (0x3304000C, .ffma 2 (.v 0) (.v 1) (.f32 .rn)), (0x31060410, .fsub 3 (.v 1) (.v 2) (.f32 .rz)) ]

/-- Words that the spec prints: conversion, cross-lane, memory, engine. -/
def specWords2 : List (Word × Instr) :=
  [(0x320C102D, .fmul 6 (.v 4) (.v 5) .bf16x2), (0x3624102C, .fcmp .lt 2 (.v 4) (.v 5) .f32),
   (0x34060414, .fmin 3 (.v 1) (.v 2) .f32), (0x37060814, .frcp 3 (.v 2) 2 .f32), (0x3C04040F, .cvt 2 (.v 1) 0 .rz),
   (0x3D100807, .packmx 8 (.v 2) .e4m3), (0x3E122007, .unpkmx 9 (.v 8) .e4m3), (0x3F120807, .planePack 9 (.v 2)),
   (0x3F1424A7, .planeUnpack 10 (.v 9) 4), (0x400C0B62, .shfl .down false 6 (.v 2) (.s 4)),
   (0x41021400, .vote .any false 1 (.v 5)), (0x41340C00, .vote .uni false 2 (.v 3)), (0x420C1500, .matchLanes 6 2 (.v 5) .s32),
   (0x430C0804, .tred .add (.flt .f32) 6 (.v 2)), (0x430C0810, .tred .max (.int .s32) 6 (.v 2)),
   (0x440E0C20, .tscan .add true (.int .s32) 7 (.v 3)), (0x45060417, .plog .and 3 1 2), (0x47080807, .pmovToVector 4 2),
   (0x47061507, .pmovToPredicate 3 (.v 5)), (0x47E20A0F, .pmovWord 9 2 1), (0x52080444, .ldW (.v 4) (at_ 2 1) 2),
   (0x570C0480, .stW (.v 6) (at_ 4 1) 0), (0x580C1040, .stD (.v 6) (at_ 2 4) 0), (0x5B1823E0, .ldlQ 12 ⟨.v 8, .zero, false⟩ 0),
   (0x5C061FE0, .stlW 3 ⟨.v 7, .zero, false⟩ 0), (0x5D182100, .stlQ 12 (at_ 8 8) 0), (0x5E080042, .ldcW 4 (at_ 2 0) 1),
   (0x600600C0, .ldu (.v 3) (at_ 6 0) 0), (0x610600C0, .stu (.v 3) (at_ 6 0) 0), (0x62020050, .ldAcq (.v 1) (at_ 2 0) .dev false),
   (0x62040052, .ldAcq (.v 2) (at_ 2 0) .dev true), (0x63020050, .stRel (.v 1) (at_ 2 0) .dev false),
   (0x64020040, .atom .add 1 (at_ 2 0)), (0x651425A0, .red .add 10 (at_ 13 9)), (0x6506005A, .red .fadd 3 (at_ 2 0)),
   (0x660C1FF6, .atoml .cas 6 ⟨.v 7, .zero, false⟩), (0x69002041, .await 1 (.imm 4)), (0x6A002001, .aset 1 (.imm 0)),
   (0x704000C0, .xfer 1 0 ⟨false, true, .dev⟩), (0x70A00106, .xferReg 2 6 ⟨true, false, .core⟩),
   (0x7E188856, .rowxor 3 2 4 5 ⟨false, true, .dev⟩), (0x7F40000A, .rowstat 8 true .dev), (0x7F404000, .rowstatPoll 8 false .core) ]

/-- Words that the spec prints: closures, tasks, cohorts, bundles, streams. -/
def specWords3 : List (Word × Instr) :=
  [(0x80274000, .capt 1 7 8), (0x80474400, .captRef 2 7 8), (0x80074200, .captLane 7 8), (0x81200000, .apply 1),
   (0x81004200, .applyLane 8), (0x82410000, .kdup 2 1), (0x83200000, .kdrop 1), (0x84640000, .kld 3 4), (0x85640000, .kst 3 4),
   (0x86290000, .kqry 1 9), (0x8823C026, .tarm 4 15 1 6), (0x89180005, .tsig 3 5), (0x8A180045, .qapply 3 1 5),
   (0x8A182205, .qapplyLane 3 8 5), (0x8B190005, .launch 3 4 5), (0x90300045, .join 6 2 5), (0x91000000, .leave),
   (0x92000000, .barv 0), (0x93000003, .bara 3), (0x9400000F, .barw 15), (0x9501C003, .cohq 7 3), (0x98190085, .bdeclList 3 4 4 5),
   (0x981281E9, .bdeclRec 2 10 7 9), (0x99218000, .benter 4 6 .read 0), (0x9961800A, .benter 12 6 .share 2), (0x9A218000, .bexit 4 6),
   (0x9B218000, .bdrop 4 6), (0x9C21C000, .bqry 4 7), (0xA0088005, .matt 1 2 5), (0xA1000005, .mdet 5),
   (0xC0000500, .mwb 0 5 0), (0xC1030000, .mlw 3), (0xC204405F, .mma false true 4 0 95), (0xC3060000, .msta .f32 false false 6),
   (0xC306C400, .msta .bf16 true true 6), (0xC4010100, .mclr true true), (0xC5000007, .mfmt .e4m3 0 7), (0xC6010200, .mbar 1 2),
   (0xC6020100, .mbar 2 1), (0xC7000000, .mend)]

def decodes (l : List (Word × Instr)) : Bool := l.all fun x => decodeWord x.1 == .ok x.2 && encode x.2 == some x.1.toNat

theorem test_decode_words_1 : decodes specWords1 = true := by decide +kernel
theorem test_decode_words_2 : decodes specWords2 = true := by decide +kernel
theorem test_decode_words_3 : decodes specWords3 = true := by decide +kernel

/-! ### Small machines -/

/-- A page table that maps the first GiB to itself: root 0x1000, then 0x2000, then a 1 GiB leaf with the rights R, W and X
and full heat (Table 14-2). -/
def tables : Sparse Byte := [(0x1000, 1), (0x1001, 0x20), (0x2000, 1), (0x2001, 0x30), (0x3000, 0x8F), (0x3001, 7)]

/-- Context 1, with its trap entry at 0x4000. -/
def ctx1 : Context := ⟨0x1000, 0x4000, [], [], [], [], [], 2 ^ 16, 0, []⟩

/-- A clause of the class whose words start at 0x5004. -/
def clauseOf (cls : Nat) (ws : List Word) : Clause := ⟨0x5004, cls, ws, 0, ws.length, [0], [0], true, [], 0, []⟩

/-- Team 0 of context 1 on core 0: two lanes, at the first of three words of a clause. -/
def team0 (cls : Nat) : Team :=
  { Team.blank with
    ctx := 1, cls := 1, origin := .launch 1 0 1, lanes := 2, nreg := 102, scratchSize := 256, state := .ready
    pc := 0x5004, full := 3, active := 3
    clause := some (clauseOf cls [0, 0, 0]) }

/-- A device in full function that runs context 1 on die pair 0, with one team. -/
def world (t : Team) : State :=
  { State.reset with
    boot := ⟨2, 0, 1, 1, 0, 0⟩, units := .all, cxlDown := 0, mem := tables, ctxs := [(1, ctx1)], running := [(0, some 1)]
    teams := [(0, t)], nextUid := 1 }

/-- The state after an instruction; the state before it where there is none. -/
def ran (i : Instr) (s : State) : State :=
  match exec i s with
  | .next t => t
  | _ => s

/-- The team after a word, with the vector registers given in every lane, and the scalars given. -/
def afterWord (w : Word) (v : List (Nat × Word)) (sc : Sparse DWord) : Team :=
  let t := { team0 1 with s := sc, v := v.flatMap fun e => [(vkey e.1 0, e.2), (vkey e.1 1, e.2)] }
  match decodeWord w with
  | .ok i => (ran i (world t)).tm
  | .error _ => .blank

/-- Vector result rows: word, inputs, destination, expected value and expected FPFLAGS (nx 1, of 4, nv 16, R92). -/
def vectorRows : List (Word × List (Nat × Word) × Nat × Word × Word) :=
  [(0x210C0818, [(2, 0xA50), (3, 0x804)], 6, 0xFFFFFFA5, 0), (0x210C0819, [(2, 0xA50), (3, 0x804)], 6, 0xA5, 0),
   (0x210C0819, [(2, 0xF0000000), (3, 0x81C)], 6, 0xF, 0), (0x210C0818, [(2, 5), (3, 0x20)], 6, 0, 0),
   (0x220C0818, [(2, 0xFFFFFFFF), (3, 0x804), (6, 0x12345678)], 6, 0x12345FF8, 0),
   (0x220C0818, [(2, 0xFFFFFFFF), (3, 0x1C), (6, 0x12345678)], 6, 0x12345678, 0),
   (0x200E0800, [(2, 1)], 7, 0x80000000, 0), (0x1F060800, [(2, 0x100)], 3, 23, 0), (0x1F060800, [], 3, 32, 0),
   (0x130C0818, [(2, 0xFFFFFFFE), (3, 3)], 6, 0xFFFFFFFF, 0), (0x130C0819, [(2, 0xFFFFFFFE), (3, 3)], 6, 2, 0),
   (0x160C0818, [(2, 0xFFFFFFFF), (3, 1)], 6, 1, 0), (0x160C0819, [(2, 0xFFFFFFFF), (3, 1)], 6, 0xFFFFFFFF, 0),
   (0x170C0800, [(2, 0x80000000)], 6, 0x80000000, 0), (0x140C0818, [(2, 7), (3, 6), (6, 0xFFFFFFFE)], 6, 0x28, 0),
   (0x1E060800, [(2, 0xF000000F)], 3, 8, 0), (0x1B0A1000, [(4, 1), (0, 33)], 5, 0, 0), (0x1B0A1000, [(4, 1), (0, 64)], 5, 1, 0),
   (0x1D0C0818, [(2, 0x80000010), (3, 4)], 6, 0xF8000001, 0), (0x1C0C0819, [(2, 0x80000010), (3, 4)], 6, 0x08000001, 0),
   (0x2C060019, [(0, 3)], 3, 0x06000000, 0), (0x3C04040F, [(1, 0xC0300000)], 2, 0xFFFFFFFE, 1),
   (0x3C040407, [(1, 0xC0300000)], 2, 0xFFFFFFFD, 1), (0x3C040407, [(1, 0x4F32D05E)], 2, 0x7FFFFFFF, 16),
   (0x3C0A1A07, [(6, 0x3FA66666)], 5, 0x3A, 1), (0x3C0A1A07, [(6, 0x43FA0000)], 5, 0x7E, 5),
   (0x3C0A1A27, [(6, 0x43FA0000)], 5, 0x7F, 5), (0x3C0A1A87, [(6, 0x40A00000)], 5, 6, 1),
   (0x3C0A190F, [(6, 0x4788B800)], 5, 0x7BFF, 5), (0x3C0A1907, [(6, 0x4788B800)], 5, 0x7C00, 5),
   (0x3C0A1B47, [(6, 0x40200000)], 5, 0x40000000, 0), (0x34060414, [(1, 0x7FC00000), (2, 0x3F800000)], 3, 0x3F800000, 0),
   (0x3E122007, [(8, 0x7F7E)], 9, 0x43E00000, 0), (0x3E122007, [(8, 0xFE7E)], 9, 0x7F800000, 5)]

/-- The examples of spec 19 to 22, each in both lanes. -/
theorem test_vector_examples :
    vectorRows.all (fun r =>
      let t := afterWord r.1 r.2.1 []
      t.lane r.2.2.1 0 == r.2.2.2.1 && t.lane r.2.2.1 1 == r.2.2.2.1 && t.fpflags == r.2.2.2.2) = true := by
  decide +kernel

/-- Scalar examples of spec 20 and 22: IADD.s64 wraps, SHR of s15, MOV of 64 bits, LEA of a negative offset. -/
theorem test_scalar_examples :
    sget 0 (afterWord 0x10D7AF6A [] [(3, 2 ^ 63 - 1), (5, 1)]).s 3 = 0x8000000000000000 ∧
    sget 0 (afterWord 0x2CEFDD3F [] [(15, 0xFFFFFFFFFFFFFFFF)]).s 15 = 1 ∧
    (afterWord 0x2515B010 [(2, 0xFFFFFFF0)] [(4, 0x0000004000000000)]).lane64 10 1 = 0x0000003FFFFFFFF0 ∧
    (afterWord 0x2515B011 [(2, 0xFFFFFFF0)] [(4, 0x0000004000000000)]).lane64 10 1 = 0x00000040FFFFFFF0 := by
  decide +kernel

/-- A word leaves its other registers, and goes on to the next word. -/
theorem test_vector_frame :
    (afterWord 0x140C0818 [(2, 7), (3, 6), (7, 9)] [(1, 4)]).lane 7 0 = 9 ∧
      sget 0 (afterWord 0x140C0818 [(2, 7)] [(1, 4)]).s 1 = 4 ∧ (afterWord 0x140C0818 [] []).pc = 0x5008 := by
  decide +kernel

/-- R94's tree over 2^24, 1, 1 and 1 in four lanes: level 1 forms 2^24 (nx) and 2, level 2 forms 16,777,218. -/
theorem test_reduction_example :
    let t := { team0 1 with
      lanes := 4, full := 15, active := 15
      v := [(vkey 2 0, 0x4B800000), (vkey 2 1, 0x3F800000), (vkey 2 2, 0x3F800000), (vkey 2 3, 0x3F800000)] }
    let r := (ran (.tred .add (.flt .f32) 6 (.v 2)) (world t)).tm
    r.lane 6 0 = 0x4B800001 ∧ r.lane 6 3 = 0x4B800001 ∧ r.fpflags = 1 := by
  decide +kernel

/-- R93: the exact values of FEX2 of 0.5 and of -148, FLG2 of 3 and FTANH of 0.5, rounded toward zero (by hand from the
decimal expansions of 1.41421356..., 2^-148, 1.58496250... and 0.46211715...). -/
theorem test_elementary_codes :
    floorCode fmtF32 (exp2Val false (2 ^ 23) (-24)) = 0x3FB504F3 ∧ floorCode fmtF32 (exp2Val true (37 * 2 ^ 18) (-16)) = 2 ∧
      floorCode fmtF32 (log2Val (3 * 2 ^ 22) (-22)) = 0x3FCAE00D ∧
      floorCode fmtF32 (tanhVal false (2 ^ 23) (-24)) = 0x3EEC9A9E := by
  decide +kernel

/-- R415's example: PLANE of 0xB3 (-77) and 0x05, and back with four planes: -5 and 0. -/
theorem test_plane_example :
    let t := { team0 1 with lanes := 32, full := fullMask 32, active := fullMask 32, v := [(vkey 2 0, 0xB3), (vkey 2 1, 5)] }
    let r := ran (.planePack 9 (.v 2)) (world t)
    let q := ran (.planeUnpack 10 (.v 9) 4) r
    (List.range 8).map (r.tm.lane 9) = [1, 0, 1, 1, 0, 2, 1, 3] ∧ q.tm.lane 10 0 = 0xFFFFFFFB ∧ q.tm.lane 10 1 = 0 := by
  decide +kernel

/-! ### Words issue: the hypotheses of the statements about register words

Each theorem named test_hyp_… shows states and operands that meet the hypotheses of the statement named after it, clause
by clause. -/

/-- The word issues, and answers a next state. -/
def issuesB (s : State) (i : Instr) : Bool :=
  !(i.once && s.tm.laterPass) && s.tm.mustCommit (touchedRegs s.tm i) i.sregs s.tm.touchPass == 0 &&
    staticTrap i s.tm == none && match exec i s with | .next _ => true | _ => false

theorem issues_of {i : Instr} {s : State} (h : issuesB s i = true) : Issues i s := by
  simp only [issuesB, Bool.and_eq_true, Bool.not_eq_true', beq_iff_eq] at h
  exact ⟨⟨h.1.1.1, h.1.1.2⟩, h.1.2⟩

theorem issues_all {l : List Instr} {s : State} (h : l.all (issuesB s) = true) : ∀ i ∈ l, Issues i s :=
  fun i hi => issues_of (List.all_eq_true.mp h i hi)

/-- The team in a clause of each kind. -/
def w0 : State := world (team0 0)

/-- The forms of a three-register word: lanes, pairs at the highest registers, the scalar pipe at s0 and s23. -/
def forms3 (mk : Reg → Reg → Reg → IntTy → Instr) : List Instr :=
  [mk (.v 1) (.v 2) (.v 3) .s32, mk (.v 0) (.v 101) (.s 3) .u32, mk (.v 100) (.v 4) (.v 6) .u64, mk (.v 2) (.s 4) (.v 6) .s64,
   mk (.s 23) (.s 0) (.s 3) .s32, mk (.s 0) (.s 23) (.s 23) .u64]

def forms2 (mk : Reg → Reg → IntTy → Instr) : List Instr :=
  [mk (.v 1) (.v 101) .s32, mk (.v 100) (.v 4) .s64, mk (.s 23) (.s 0) .s32, mk (.s 0) (.s 23) .s64]

def formsImm (mk : Reg → Reg → Fin 1024 → Instr) : List Instr :=
  [mk (.v 1) (.v 101) 0, mk (.v 0) (.s 4) 1023, mk (.s 23) (.s 0) 512]

def formsShift (mk : Reg → Reg → Fin 64 → Instr) : List Instr :=
  [mk (.v 1) (.v 101) 0, mk (.v 0) (.s 4) 63, mk (.s 23) (.s 0) 32]

def integerWords : List Instr :=
  [Instr.iadd, .isub, .imul, .imulh, .imad, .imin, .imax, .and, .or, .xor, .shl, .shr, .sar, .bfx, .bfi].flatMap forms3 ++
    [Instr.iabs, .popc, .clz, .brev, .mov].flatMap forms2 ++
    [Instr.iaddImm, .andImm, .orImm, .xorImm].flatMap formsImm ++ [Instr.shlImm, .shrImm, .sarImm].flatMap formsShift ++
    [.movi (.v 101) 131071, .movi (.s 0) 0, .movu (.v 0) 65535, .movu (.s 23) 0]

theorem test_hyp_IntegerWords : ∀ i ∈ integerWords, Issues i w0 := issues_all (by decide +kernel)

def selectionWords : List Instr :=
  [.icmp .lt 1 (.v 2) (.v 3) .s32, .icmp .ge 7 (.v 2) (.s 3) .u64, .icmpImm .geu 0 (.v 1) 1023, .sel 1 (.v 2) (.s 3) 7,
   .lea (.v 100) (.v 4) (.v 3) .s32, .lea (.v 2) (.s 4) (.v 6) .u64, .lea (.s 23) (.s 0) (.s 3) .u32]

theorem test_hyp_ComparisonSelectionAndAddressWords : ∀ i ∈ selectionWords, Issues i w0 := issues_all (by decide +kernel)

def floatWords : List Instr :=
  [Instr.fadd, .fsub, .fmul, .ffma].flatMap (fun mk =>
    [mk 1 (.v 2) (.v 3) (.f32 .ru), mk 101 (.s 0) (.v 3) .bf16x2, mk 1 (.v 2) (.s 23) .f16x2]) ++
  [Instr.fmin, .fmax].flatMap (fun mk => [mk 1 (.v 2) (.v 3) .f32, mk 101 (.s 0) (.v 3) .bf16x2, mk 1 (.v 2) (.v 3) .f16x2]) ++
  [.fcmp .lt 2 (.v 4) (.v 5) .f32, .fcmp .num 7 (.s 4) (.v 5) .f16x2, .fcmp .eq 0 (.v 4) (.v 5) .bf16x2]

theorem test_hyp_FloatingPointWordsDeliver : ∀ i ∈ floatWords, Issues i w0 := issues_all (by decide +kernel)

def transWords : List Instr :=
  [Instr.frcp, .frsq, .fex2, .flg2, .ftanh].flatMap fun mk =>
    [mk 1 (.v 2) 0 .f32, mk 101 (.s 3) 15 .bf16x2, mk 0 (.v 0) 1 .f16x2]

theorem test_hyp_TranscendentalWordsWaitForTheirSpan :
    w0.tm.only = none ∧ w0.tm.held = none ∧ (∀ i ∈ transWords, Issues i w0) ∧ w0.tm.wordLanes = [0, 1] :=
  ⟨rfl, rfl, issues_all (by decide +kernel), by decide +kernel⟩

def conversionWords : List Instr :=
  ((List.range 27).map fun c => Instr.cvt 2 (.v 4) (Fin.ofNat 27 c) .rn) ++
    [.packmx 1 (.v 2) .int8, .unpkmx 1 (.v 2) .fp4, .planePack 1 (.v 2), .planeUnpack 1 (.v 2) 2, .planeUnpack 1 (.v 2) 8]

theorem test_hyp_ConversionWordsDeliver : ∀ i ∈ conversionWords, Issues i w0 := issues_all (by decide +kernel)

def crossLaneWords : List Instr :=
  [.shfl .down false 1 (.v 2) (.v 3), .shfl .idx true 100 (.v 2) (.s 3), .shfl .up false 1 (.v 1) (.v 1),
   .shfl .xor true 0 (.v 4) (.v 3), .vote .any false 1 (.v 2), .vote .uni true 7 (.v 4), .vote .all false 0 (.s 3),
   .vote .none false 0 (.v 0), .matchLanes 1 2 (.v 5) .s32, .matchLanes 1 7 (.v 6) .u64, .plog .and 1 1 7, .plog .not 7 0 0,
   .pcnt (.v 1) 2, .pcnt (.s 23) 7, .pmovToVector 1 7, .pmovToPredicate 7 (.v 1), .pmovToPredicate 0 (.s 1),
   .pmovWord 23 7 31]

theorem test_hyp_CrossLaneWordsDeliver : ∀ i ∈ crossLaneWords, Issues i w0 := issues_all (by decide +kernel)

def reductionWords : List Instr :=
  [RTy.int .s32, .int .u64, .flt .f32, .flt .bf16x2, .flt .f16x2].flatMap fun ty =>
    [.tred .add ty 2 (.v 4), .tred .min ty 100 (.v 100), .tscan .max false ty 2 (.v 4), .tscan .add true ty 2 (.s 4)]

theorem test_hyp_ReductionsFollowTheFixedTree : ∀ i ∈ reductionWords, Issues i w0 := issues_all (by decide +kernel)

def specialWords : List Instr := [.srd (.v 28) 0, .srd (.s 0) 1, .srd (.v 100) 5, .srd (.s 23) 107, .srd (.v 101) 4]

/-- The team in its handler, where SWR may issue (R57). -/
def handler : Team := { team0 4 with inHandler := true, trapDepth := 1, callDepth := 1 }

theorem test_hyp_SpecialRegisterWordsReadAndWrite :
    (∀ i ∈ specialWords, Issues i w0) ∧ Issues (.swr 3 8) (world handler) ∧ (team0 0).cohort = none ∧
      (team0 0).passMajor = true ∧ ({ team0 0 with cohort := some 65536 } : Team).cohort = some 65536 :=
  ⟨issues_all (by decide +kernel), issues_of (by decide +kernel), rfl, by decide +kernel, rfl⟩

/-- A later pass of a clause, whose first pass has read FPFLAGS as 5. -/
def laterTeam : Team :=
  { team0 0 with lanes := 64, clause := some { clauseOf 0 [0, 0] with all := [0, 1], passes := [1], first := false, reads := [(0, 5)] }
                 full := 2 ^ 64 - 1, active := 2 ^ 64 - 1, fpflags := 3 }

theorem test_srd_later_pass :
    (world laterTeam).tm.laterPass = true ∧ (world laterTeam).tm.passMajor = true ∧ issuesB (world laterTeam) (.srd (.v 28) 8) = true ∧
      (ran (.srd (.v 28) 8) (world laterTeam)).tm.lane 28 40 = 5 := by
  decide +kernel

/-! ### Control words, masks, traps -/

/-- A full call stack at the greatest depth that can still push, and s23 = 96. -/
def deep : Team :=
  { team0 4 with
    scratchSize := 65280, callDepth := 4094, s := [(23, 96)]
    callHw := (List.range 16).map fun i => ⟨BitVec.ofNat 64 (0x6000 + 4 * i), 0, 0, 0, 0⟩ }

/-- The team one call deep, and 17 deep. -/
def called : Team := { team0 4 with callDepth := 1, callHw := [⟨0x6000, 6, 0, 0, 0⟩] }
def called17 : Team := { deep with callDepth := 17 }

theorem test_hyp_BranchesAndCallsGoWhereTheyName :
    (∀ i ∈ [Instr.nop, .bra 3, .bra 16777215, .brx 1 .any 0, .brx 7 .all 524287, .brx 0 .none 1], Issues i w0) ∧
    (Taken w0 7 .all ∧ ¬Taken w0 1 .any ∧ Taken w0 1 .none) ∧
    (Issues (.call 5) w0 ∧ FrameFits w0 ∧ CanPush w0) ∧
    (Issues (.call 5) (world deep) ∧ FrameFits (world deep) ∧ CanPush (world deep)) ∧
    (Issues .ret (world called) ∧ ReturnAllowed (world called) ⟨0x6000, 6, 0, 0, 0⟩ ∧ called.taskFrame = false ∧
      called.apply = none ∧ called.callDepth ≤ called.callHw.length) ∧
    (Issues .ret (world called17) ∧ ReturnAllowed (world called17) ⟨0x6000, 0, 0, 0, 0⟩ ∧ called17.callHw.length = 16 ∧
      16 < called17.callDepth ∧ called17.apply = none) := by
  refine ⟨issues_all (by decide +kernel), ?_, ⟨issues_of (by decide +kernel), ?_, ?_⟩, ⟨issues_of (by decide +kernel), ?_, ?_⟩,
    ⟨issues_of (by decide +kernel), ?_, ?_⟩, ⟨issues_of (by decide +kernel), ?_, ?_⟩⟩ <;>
    (try simp only [Taken, activeLanes, FrameFits, frameShift, CanPush, ReturnAllowed]) <;> decide +kernel

/-- The top entry of a mask stack. -/
def splitTeam (n : Nat) : Team := { team0 4 with active := 1, maskStack := List.replicate n ⟨3, 2⟩ }

theorem test_hyp_MaskWordsSelectLanes :
    (Issues (.split 1) w0 ∧ Issues (.split 7) (world (splitTeam 15)) ∧ (splitTeam 15).maskStack.length < 16) ∧
    (∀ i ∈ [Instr.flip, .merge, .prune 1], Issues i (world (splitTeam 1))) ∧
    (splitTeam 1).maskStack = ⟨3, 2⟩ :: [] ∧
    (Issues .exit w0 ∧ w0.tm.apply = none ∧ w0.tm.full &&& ~~~w0.tm.active = 0) ∧
    (Issues .exit (world (splitTeam 1)) ∧ (splitTeam 1).full &&& ~~~(splitTeam 1).active ≠ 0) := by
  refine ⟨⟨issues_of (by decide +kernel), issues_of (by decide +kernel), by decide +kernel⟩, issues_all (by decide +kernel), rfl,
    ⟨issues_of (by decide +kernel), rfl, by decide +kernel⟩, issues_of (by decide +kernel), by decide +kernel⟩

/-- The machine with BKPT enabled on the team's partition. -/
def bkptOn : State := { w0 with dbg := { w0.dbg with bkptEn := [0] } }

theorem canTrap_w0 : CanTrap w0 := by
  simp only [CanTrap, CanPush]; decide +kernel

theorem test_hyp_TrapAndBreakpointWordsTakeTheirTrap :
    Issues (.trap 65535) w0 ∧ CanTrap w0 ∧ (Issues (.bkpt 5) w0 ∧ ¬ w0.tm.partKey ∈ w0.dbg.bkptEn) ∧
      (Issues (.bkpt 5) bkptOn ∧ bkptOn.tm.partKey ∈ bkptOn.dbg.bkptEn) :=
  ⟨issues_of (by decide +kernel), canTrap_w0, ⟨issues_of (by decide +kernel), by decide +kernel⟩,
    issues_of (by decide +kernel), by decide +kernel⟩

/-- A handler that has taken the trap of a code in a clause. -/
def trapped (code : DWord) (c : Option Clause) : State :=
  world { team0 4 with
    inHandler := true, trapDepth := 1, callDepth := 1, callHw := [⟨0x5004, 0, 0, 0, 0⟩], savedActive := 3
    trapInfo := code, trapPc := 0x5004, savedClause := c }

def rettHyp (a : RettAction) (s : State) : Bool :=
  issuesB s (.rett a) && s.tm.inHandler && s.tm.callDepth == s.tm.trapDepth && s.tm.maskStack.length == s.tm.trapMaskDepth &&
    s.tm.callHw.head? == some ⟨0x5004, 0, 0, 0, 0⟩ && s.tm.apply.isNone && s.tm.savedActive &&& s.tm.full != 0 && s.tm.late.isNone

/-- Replay with no clause, in a clause that stays (classes 0, 2), in one that is cut (1, 3, 4, 5); a trap without replay;
fail; skip inside a clause, with the clause's last word but one. -/
theorem test_hyp_ReturnFromTrapResumes :
    rettHyp .replay (trapped 4 none) = true ∧ rettHyp .replay (trapped 4 (some (clauseOf 0 [0]))) = true ∧
    rettHyp .replay (trapped 4 (some (clauseOf 2 [0, 0]))) = true ∧ rettHyp .replay (trapped 4 (some (clauseOf 5 [0]))) = true ∧
    rettHyp .replay (trapped 0x10 none) = true ∧ rettHyp .fail (trapped 4 none) = true ∧
    rettHyp .skip (trapped 4 (some (clauseOf 0 [0, 0]))) = true ∧ rettHyp .skip (trapped 4 (some (clauseOf 2 [0, 0, 0]))) = true ∧
    (trapped 4 none).tm.savedApply = none ∧
    ([1, 9, 0x12].all fun c => rettHyp .skip (trapped c none) && (trapped c none).tm.savedRead.isNone &&
      (trapped c none).tm.savedResume.isNone) = true ∧
    (fetchAt (issued (trapped 9 none)) (issued (trapped 9 none)).tm 0x5004).1 = .ok 0 := by
  decide +kernel

/-- A diverged team. -/
def diverged : State := world { team0 0 with active := 1 }

theorem test_hyp_WordsThatMayNotIssueTrap :
    CanTrap w0 ∧ staticTrap (.swr 3 8) w0.tm = some 1 ∧ staticTrap (.iadd (.v 1) (.v 0) (.v 0) .s64) w0.tm = some 2 ∧
      staticTrap (.iadd (.v 103) (.v 0) (.v 0) .s32) w0.tm = some 2 ∧
      CanTrap diverged ∧ staticTrap (.iadd (.s 1) (.s 0) (.s 0) .s32) diverged.tm = some 4 := by
  refine ⟨canTrap_w0, by decide +kernel, by decide +kernel, by decide +kernel, ?_, by decide +kernel⟩
  simp only [CanTrap, CanPush]; decide +kernel

theorem test_hyp_WordsWithoutMeaningTrap : CanTrap w0 := canTrap_w0

/-- A context without a trap entry; a team at the call stack's limit. -/
def noEntry : State := { w0 with ctxs := [(1, { ctx1 with trapEntry := 0 })] }
def deepest : State := world { deep with callDepth := 4095 }

/-- In a handler; without a trap entry; at the call stack's limit. -/
theorem test_hyp_TrapsThatCannotBeTakenEndTheTeam :
    ((world handler).tm.inHandler = true ∧ (world handler).tm.blocked = false ∧ Issues (.trap 0) (world handler)) ∧
    ((getCtx noEntry noEntry.tm.ctx).trapEntry = 0 ∧ noEntry.tm.blocked = false ∧ Issues (.trap 0) noEntry) ∧
    (4095 ≤ deepest.tm.callDepth ∧ deepest.tm.blocked = false ∧ Issues (.trap 0) deepest) :=
  ⟨⟨rfl, by decide +kernel, issues_of (by decide +kernel)⟩, ⟨by decide +kernel, by decide +kernel, issues_of (by decide +kernel)⟩,
    by decide +kernel, by decide +kernel, issues_of (by decide +kernel)⟩

/-! ### Encodings and steps -/

/-- Extension opcodes, headers, reserved opcodes at both ends of their ranges, NOP and MOVU with a reserved bit set. -/
theorem test_hyp_WordsOutsideTheMapAreRefused :
    decodeWord 0xE0000000 = .error (.extension 0) ∧ decodeWord 0xEFFFFFFF = .error (.extension 15) ∧
    decodeWord 0xF0000000 = .error .headerInBody ∧
    ([0x0F, 0x27, 0x48, 0x4F, 0x6B, 0x6F, 0x72, 0x77, 0x87, 0x8C, 0x8F, 0x96, 0x97, 0x9D, 0x9F, 0xA2, 0xBF, 0xC8, 0xDF].all
      fun op => decodeWord (BitVec.ofNat 32 (op * 2 ^ 24)) == .error .reservedOpcode) = true ∧
    decodeWord 0x00000001 = .error .badField ∧ decodeWord 0x2F370000 = .error .badField := by decide +kernel

/-- Well-formed instructions with words, and words that decode, are those of test_decode_words_1 to 3. -/
theorem test_hyp_DecodingReadsBackEveryEncoding :
    (Instr.iadd (.v 5) (.s 1) (.v 2) .s32).wf = true ∧ encode (.iadd (.v 5) (.s 1) (.v 2) .s32) = some 0x100BA410 := by
  decide +kernel

theorem test_hyp_EncodingGivesBackEveryWord :
    decodeWord 0x100BA410 = .ok (.iadd (.v 5) (.s 1) (.v 2) .s32) := by decide +kernel

/-- The team about to issue the word; a stream at a word. -/
def turnOf (c : Option Clause) : State := { world { team0 1 with clause := c } with agenda := [.issue 0] }

def threeWords : Option Clause := some (clauseOf 1 [0x100BA410, 0x04000000, 0xE0000000])

def streamTurnState : State :=
  { w0 with engines := [(0, { Engine.idle with streams := [probeStream 0xC5000007] })], agenda := [.stream 0 0] }

/-- Quiet, evaluated. -/
def quietMachine (s : State) : Bool :=
  s.dbg.stepCohort.isEmpty && s.dbg.engStop.isEmpty && s.badReads.isEmpty && s.stampWaits.all (·.req.isSome) &&
    s.tcbNotes.all (·.req.isSome) && s.taskEnds.all (·.req.isSome) &&
    s.teams.all (fun e => e.2.pending.all (·.lost.isEmpty)) && s.heatWaits.isEmpty &&
    s.cohorts.all (fun c => !c.2.members.isEmpty) && s.l2.all fun e => decide ((setLines s e.1).length ≤ 16)

theorem quietMachine_of {s : State} (h : quietMachine s = true) : Quiet s := by
  simp only [quietMachine, Bool.and_eq_true, List.isEmpty_iff, List.all_eq_true, decide_eq_true_eq] at h
  obtain ⟨⟨⟨⟨⟨⟨⟨⟨⟨h1, h2⟩, h3⟩, h4⟩, h5⟩, h6⟩, h7⟩, h8⟩, h9⟩, h10⟩ := h
  exact ⟨h1, h2, h3, fun w hw e => by simpa [e] using h4 w hw, fun w hw e => by simpa [e] using h5 w hw,
    fun w hw e => by simpa [e] using h6 w hw, h7, h8,
    fun c hc e => by simpa [e] using h9 c hc, h10⟩

theorem test_hyp_StepRunsTheDecodedWord :
    (turnOf none).power = .on ∧ (turnOf none).agenda = .issue 0 :: [] ∧
    (Ready (turnOf threeWords) ((turnOf threeWords).getTeam 0) ∧ ((turnOf threeWords).getTeam 0).clause = threeWords ∧
      decodeWord 0x100BA410 = .ok (.iadd (.v 5) (.s 1) (.v 2) .s32) ∧ admits 1 (.iadd (.v 5) (.s 1) (.v 2) .s32) = true ∧
      decodeWord 0x04000000 = .ok .ret ∧ admits 1 .ret = false ∧ decodeWord 0xE0000000 = .error (.extension 0)) ∧
    (Ready (turnOf none) ((turnOf none).getTeam 0) ∧ ((turnOf none).getTeam 0).clause = none) ∧
    (encode .captureWindowEnd = none) ∧
    (Quiet w0 ∧ ∀ e ∈ w0.teams, ∀ x, sfind w0.teams e.1 = some x → x.away = e.2.away) ∧
    (let x := probeStream 0xC5000007;
      (getEngine streamTurnState 0).streams[0]? = some x ∧ findStream streamTurnState 0 x.cohort = some x ∧ x.canRun = true ∧
        x.mayStart streamTurnState (.mfmt .e4m3 0 7) = true ∧ x.ahead = 0xC5000007 :: [] ∧ needsGrant (streamInstr 0 0 0xC5000007) = false ∧
        decodeWord 0xC5000007 = .ok (.mfmt .e4m3 0 7) ∧ 0xC0 ≤ (Instr.mfmt .e4m3 0 7).opcode) := by
  refine ⟨by decide +kernel, by decide +kernel, ?_, ?_, by decide +kernel, ⟨quietMachine_of (by decide +kernel), ?_⟩, by decide +kernel⟩
  · simp only [Ready]; decide +kernel
  · simp only [Ready]; decide +kernel
  · intro e he x hx
    obtain rfl : e = (0, team0 0) := by simpa [w0, world] using he
    exact congrArg Team.away (Option.some.inj (hx.symm.trans (by decide +kernel)))

theorem test_hyp_StepsKeepMemoryCanonical : StoresOk State.reset ∧ ∃ t, step State.reset = .next t := by
  refine ⟨?_, _, rfl⟩
  simp only [StoresOk, MemoryOk]; decide +kernel

/-- Without power and with nothing to do, a step stops; with a power-on named, it goes on. -/
theorem test_hyp_StepStopsOnlyWithoutPower :
    (step { State.reset with power := .off } = .fault .noClock) ∧
      ∃ t, step { State.reset with power := .off, agenda := [.occur (.powerGood (some ⟨0, 0⟩) none true)] } = .next t :=
  ⟨rfl, _, rfl⟩

/-! ### Memory words -/

/-- Lanes 0 and 1 address 0x8000 and 0x8010; s2 = 0x8000, v0 = 0 and 16, and a full clause of class 2. -/
def memTeam : Team := { team0 2 with s := [(2, 0x8000), (3, 0x8000)], v := [(vkey 0 1, 16)] }
def wm : State := world memTeam
def op0 : MemOp := at_ 2 0
/-- The scalar form's operand, and one without a base at the top of the first page. -/
def opS : MemOp := ⟨.s 3, .zero, true⟩

theorem test_hyp_TranslationNeedsALeafThatAdmitsTheAccess :
    [ReqKind.read, .write, .fetch].all (fun k =>
      (translate wm 0 [] 1 0x3FFFFFFF k).1 == .ok 0x3FFFFFFF 0 &&
        (translate { wm with tlbs := [⟨0, .second, 1, 0, 2 ^ 21, 0xF⟩] } 0 [.second] 1 0x1FFFFF k).1 == .ok 0x1FFFFF 0) = true ∧
      (translate wm 0 [] 1 (2 ^ 30) .read).1 = .fault 0x40000 ∧ canonical (2 ^ 56) = false := by decide +kernel

/-- The access is good: the addresses are distinct bytes. -/
def checks (s : State) (ea : DWord) (n : Nat) (k : Acc) (how : Site) : Bool :=
  match globalCheck s s.tm ea n k how with
  | (.ok pas, _) => pas.length == n && decide pas.Nodup
  | _ => false

theorem test_hyp_LanesReadAndWriteTheirBytes :
    ([1, 2, 4, 8, 16].all fun n => [Site.plain, .home, .far].all fun how => checks wm 0x8000 n .load how &&
      checks wm 0x8000 n .store how) = true ∧ wm.pools = [] := by decide +kernel

/-- The hypotheses of a load that completes. -/
def loadHyp (i : Instr) (r : Reg) (m : MemOp) (n : Nat) (how : Site) (fab aligned : Bool) (before : State → State)
    (s : State) : Bool :=
  let b := before (issued s)
  let x := loadLanes b.tm how fab aligned n m (b.tm.memLanes r) b
  issuesB s i && s.tm.only.isNone && s.tm.held.isNone && x.2.2.isEmpty && !x.2.1.isEmpty

theorem test_hyp_LoadWordsComplete :
    (loadHyp (.ldB (.v 4) op0 0) (.v 4) op0 1 .plain true false id wm &&
      loadHyp (.ldH (.v 4) op0 15) (.v 4) op0 2 .plain true false id wm &&
      loadHyp (.ldW (.v 101) op0 1) (.v 101) op0 4 .plain true false id wm &&
      loadHyp (.ldW (.s 23) opS 1) (.s 23) opS 4 .plain true false id wm &&
      loadHyp (.ldD (.v 4) op0 0) (.v 4) op0 8 .plain true false id wm &&
      loadHyp (.ldD (.s 0) opS 0) (.s 0) opS 8 .plain true false id wm &&
      loadHyp (.ldu (.v 4) op0 0) (.v 4) op0 4 .home false false id wm &&
      loadHyp (.ldQ 4 op0 0) (.v 4) op0 16 .plain true false id wm) = true ∧
    ([Scope.core, .coh, .dpr, .dev, .sys].all fun sc => [true, false].all fun d =>
      loadHyp (.ldAcq (.v 4) op0 sc d) (.v 4) op0 (if d then 8 else 4) (if sc.far then .far else .plain) true true
        (fun s => acquireAt sc.far s s.cur) wm) = true := by
  decide +kernel

theorem test_hyp_LoadWordsComplete_ldc :
    ([(Instr.ldcW 4 op0 1, 4), (.ldcQ 4 op0 15, 16)].all fun x =>
      issuesB wm x.1 && wm.tm.pending.all (fun p => !p.more) && (loadLanes (issued wm).tm .plain false false x.2 op0 wm.tm.wordLanes (issued wm)).2.2.isEmpty) =
      true := by
  decide +kernel

/-- The hypotheses of a store that completes. -/
def storeHyp (i : Instr) (r : Reg) (m : MemOp) (n : Nat) (how : Site) (slots fab aligned : Bool)
    (before : State → Option State) (s : State) : Bool :=
  match before (issued s) with
  | none => false
  | some b =>
    let x := eachLane (b.tm.memLanes r) (fun s l =>
      if aligned && (memAddr b.tm m l).toNat % n != 0 then (.error [.code 0x07], s)
      else storeLane b.tm r how slots fab n (memAddr b.tm m l) s l) b
    issuesB s i && x.2.2.isEmpty && !x.2.1.isEmpty

theorem test_hyp_StoreWordsComplete :
    (storeHyp (.stB (.v 4) op0 0) (.v 4) op0 1 .plain false true false some wm &&
      storeHyp (.stH (.v 4) op0 0) (.v 4) op0 2 .plain false true false some wm &&
      storeHyp (.stW (.s 23) opS 0) (.s 23) opS 4 .plain true true false some wm &&
      storeHyp (.stD (.v 100) op0 15) (.v 100) op0 8 .plain true true false some wm &&
      storeHyp (.stu (.v 4) op0 0) (.v 4) op0 4 .home false false false some wm &&
      storeHyp (.stQ 4 op0 0) (.v 4) op0 16 .plain false true false some wm) = true ∧
    ([Scope.team, .core, .coh, .dpr, .dev, .sys].all fun sc => [true, false].all fun d =>
      storeHyp (.stRel (.v 4) op0 sc d) (.v 4) op0 (if d then 8 else 4) (if sc.far then .far else .plain) false true true
        (releaseFirst sc.relTo (sc == .coh)) wm) = true := by
  decide +kernel

/-- A store and a load of the same word, lane by lane: the bytes come back through the pending result. -/
theorem test_store_then_load :
    let s := world { memTeam with v := [(vkey 0 1, 16), (vkey 4 0, 0x01020304), (vkey 4 1, 0x0A0B0C0D)] }
    let t := ran (.stW (.v 4) op0 0) s
    let u := ran (.ldW (.v 5) op0 3) t
    memGet t 0x8010 = 0 ∧ coreByte t 0 0x8010 = 0x0D ∧ coreByte t 0 0x8013 = 0x0A ∧
      (u.tm.pending.flatMap Pending.vals).contains (vkey 5 0, 0x01020304) = true := by
  decide +kernel

/-- A big-endian reading would give 0x04030201: a word's lowest byte stands at its lowest address (R4). -/
theorem test_stu_reaches_home :
    let s := world { memTeam with v := [(vkey 0 1, 16), (vkey 4 0, 0x01020304)] }
    let t := ran (.stu (.v 4) op0 0) s
    memGet t 0x8000 = 4 ∧ memGet t 0x8003 = 1 ∧ memGet t 0x8004 = 0 := by
  decide +kernel

/-- Local words: the scratchpad at its ends, a window, the register window. -/
def localTeam : Team := { team0 2 with windowSize := 1024, v := [(vkey 8 1, 240), (vkey 9 1, 252)] }
def wl : State := world localTeam
def opL (v : Fin 104) : MemOp := ⟨.v v, .zero, false⟩

theorem test_hyp_LocalWordsReachTheTeamsOwnMemory :
    (issuesB wl (.ldlW 4 (opL 9) 0) && issuesB wl (.ldlQ 4 (opL 8) 15) && issuesB wl (.stlW 4 (opL 9) 0) &&
      issuesB wl (.stlQ 4 (opL 8) 0)) = true ∧ wl.tm.only = none ∧ wl.tm.held = none ∧ wl.tm.uid = wl.cur ∧
    mirrorCut wl wl.tm = false ∧ LocalFits wl (opL 9) 4 ∧ LocalFits wl (opL 8) 16 ∧
    localOf localTeam 0 4 = .scratch 0 ∧ localOf localTeam 252 4 = .scratch 252 ∧ localOf localTeam 253 4 = .bad ∧
    localOf localTeam 256 4 = .bad ∧ localOf localTeam 0x01000000 16 = .window 0 ∧ localOf localTeam 0x010003F0 16 = .window 1008 ∧
    localOf localTeam 0x01000400 4 = .bad ∧ localOf localTeam 0x02000000 4 ≠ .bad ∧
    localOf localTeam (BitVec.ofNat 64 (0x02000000 + 102 * 128 - 4)) 4 ≠ .bad ∧
    localOf localTeam (BitVec.ofNat 64 (0x02000000 + 102 * 128)) 4 = .bad := by
  simp only [LocalFits]; decide +kernel

theorem test_stl_ldl :
    let s := world { localTeam with v := [(vkey 9 1, 252), (vkey 4 0, 7), (vkey 4 1, 8)] }
    let t := ran (.stlW 4 (opL 9) 0) s
    let u := ran (.ldlW 5 (opL 9) 0) t
    sget 0 t.tm.scratch 0 = 7 ∧ sget 0 t.tm.scratch 252 = 8 ∧ t.mem = s.mem ∧
      (u.tm.pending.flatMap Pending.vals).contains (vkey 5 1, 8) = true := by
  decide +kernel

def atomOps : List AtomOp :=
  [.add, .add64, .mins, .maxs, .minu, .maxu, .and, .or, .xor, .exch, .exch64, .cas, .cas64, .fadd, .faddbf]

theorem test_hyp_AtomicWordsReadAndWriteOnce :
    (atomOps.all fun op =>
      issuesB wm (.atom op 4 op0) && wm.tm.only.isNone && wm.tm.held.isNone &&
        (eachLane wm.tm.wordLanes (atomLane (issued wm).tm .atomic op 4 op0) (issued wm)).2.2.isEmpty &&
        (eachLane wm.tm.wordLanes (atomLane (issued wm).tm .red op 4 op0) (issued wm)).2.2.isEmpty &&
      (!redAdmits op || issuesB wm (.red op 4 op0)) &&
      issuesB wl (.atoml op 4 (opL 8)) && wl.tm.only.isNone && wl.tm.held.isNone && (wl.tm.wordLanes.all fun l => (memAddr wl.tm (opL 8) l).toNat % atomSize op == 0 &&
        (memAddr wl.tm (opL 8) l).toNat + atomSize op ≤ wl.tm.scratchSize)) = true ∧
    wl.tm.uid = wl.cur ∧ ([0x8000, 0x8001, 0x8002, 0x8003] : List Nat).Nodup ∧ atomSize .cas = 4 := by
  decide +kernel

/-- ATOM.add: memory has the sum, the old value waits. -/
theorem test_atom_add :
    let s := { world { memTeam with v := [(vkey 0 1, 16), (vkey 4 0, 5)] } with mem := tables ++ [(0x8000, 2)] }
    let t := ran (.atom .add 4 op0) s
    memGet t 0x8000 = 7 ∧ (t.tm.pending.flatMap Pending.vals).contains (vkey 4 0, 2) = true := by
  decide +kernel

/-- A WAITV whose words hold the lanes' values (zero), or other ones. -/
def waitHyp (ne : Bool) (sc : Scope) (s : State) : Bool :=
  let x := eachLane (lanesOf s.tm.active) (waitvLane (issued s).tm sc.far op0) (issued s)
  issuesB s (.waitv ne sc 4 op0) && s.tm.waitv.isNone && s.tm.only.isNone && x.2.2.isEmpty && x.2.1.length == 2 &&
    x.2.1.all fun e => (readWordAt x.1 s.tm.core (sc == .core) e.2 == s.tm.lane 4 e.1) == !ne

def counting (n : Nat) : State := world { team0 4 with a := [(1, BitVec.ofNat 16 n)], s := [(3, 4)] }

theorem test_hyp_FencesAndWaitsOrderAccesses :
    ([Scope.team, .core, .coh, .dpr, .dev, .sys].all fun sc => issuesB wm (.fence sc true false) &&
      issuesB wm (.fence sc false true) && issuesB wm (.fence sc true true)) = true ∧
    canon none wm.l1 = true ∧ wm.rowQueue = [] ∧ wm.mirrors = [] ∧ wm.tm.awaitsRows = false ∧
    waitHyp false .core wm = true ∧ waitHyp false .dev wm = true ∧
    waitHyp true .dev (world { memTeam with v := [(vkey 0 1, 16), (vkey 4 0, 5), (vkey 4 1, 1)] }) = true ∧
    ([counting 4, counting 32771].all fun s => issuesB s (.await 1 (.imm 4)) && issuesB s (.await 1 (.s 3)) &&
      (sget 0 s.tm.a 1 - 4).toNat < 2 ^ 15) = true ∧
    ([counting 3, counting 32772].all fun s => issuesB s (.await 1 (.imm 4)) && 2 ^ 15 ≤ (sget 0 s.tm.a 1 - 4).toNat &&
      s.tm.state == .ready) = true ∧
    (issuesB wm (.aset 15 (.imm 511)) && issuesB wm (.aset 0 (.s 23))) = true := by
  decide +kernel

/-- A release fence moves the core's dirty bytes home. -/
theorem test_fence_release :
    let s := { wm with l1 := [(l1Key 0 0x8000, some ⟨9, true⟩)] }
    memGet (ran (.fence .dev false true) s) 0x8000 = 9 ∧ memGet (ran (.fence .core false true) s) 0x8000 = 0 := by
  decide +kernel

/-! ### Copies -/

/-- A record of n binary32 elements at an address (Table 10-1). -/
def rec32 (base n : Nat) : BitVec 512 := BitVec.ofNat 512 (base + 3 * 2 ^ 60 + 4 * 2 ^ 128 + (n - 1) * 2 ^ 168)

/-- A template that copies n elements of record 0 to record 1, with a stamp at an address (Table 10-3). -/
def copyTmpl (n stamp : Nat) : BitVec 1024 :=
  BitVec.ofNat 1024 (1 * 2 ^ 8 + stamp * 2 ^ 256 + (n - 1) * 2 ^ 384 + 1 * 2 ^ 416 + 1 * 2 ^ 448)

def cmd0 (st : CopyState) (unit stamp : Nat) : CopyCmd :=
  { seq := 1, order := 0, ctx := 1, uid := 0, data := 0, state := st, tmpl := copyTmpl 4 stamp, srcRec := rec32 0x8000 4
    dstRec := rec32 0x9000 4, unit := unit, status := 0, condPa := none, met := false, fab := [] }

/-- Channel 0 of core 0 with the commands given. -/
def chanState (l : List CopyCmd) (deferred : List (Nat × Word × Nat)) (t : Team) : State :=
  { world t with
    ctxs := [(1, { ctx1 with tensors := [(0, rec32 0x8000 4), (1, rec32 0x9000 4)], templates := [(0, copyTmpl 4 0)] })]
    channels := [(2048, ⟨l, deferred, 1, 0⟩)] }

def engineTeam : Team := team0 3
def fullQueue (n : Nat) : List CopyCmd := List.replicate n (cmd0 .queued 0 0)

theorem test_hyp_CopyWordsPostCommands :
    (let s := chanState (fullQueue 15) [] engineTeam;
      issuesB s (.xfer 0 0 ⟨false, true, .dev⟩) = true ∧ issuesB s (.xferReg 0 6 ⟨true, false, .core⟩) = true ∧
        dirtyHeld s s.tm.core = false ∧ s.tm.awaitsRows = false ∧ (getChan s (chanKey 1 0 0)).queue.length < 16 ∧ (getChan s (chanKey 1 0 0)).deferred = []) ∧
    (let s := chanState (fullQueue 16) [] engineTeam;
      issuesB s (.xfer 0 4095 ⟨false, false, .core⟩) = true ∧ 16 ≤ (getChan s (chanKey 1 0 0)).queue.length ∧
        s.tm.deferred = []) ∧
    (let s := chanState (fullQueue 16) [(0, 0, 0)] { engineTeam with deferred := [(2048, 0)] };
      issuesB s (.xfer 0 0 ⟨false, false, .core⟩) = true ∧ (getChan s (chanKey 1 0 0)).deferred ≠ [] ∧
        (s.tm.deferred.any fun d => d.1 == chanKey 1 0 0) = true ∧ s.tm.state = .ready) ∧
    (issuesB (world engineTeam) (.xptr 1 2 true .dev) = true ∧ (world engineTeam).tm.only = none ∧
      (world engineTeam).tm.held = none) := by
  decide +kernel

/-- XFER takes the next sequence number; a full channel defers; a second one stalls. -/
theorem test_xfer :
    (getChan (ran (.xfer 0 7 ⟨false, false, .core⟩) (chanState [] [] engineTeam)) 2048).queue.map (fun c => (c.seq, c.data)) =
      [(2, 7)] ∧
    (ran (.xfer 0 0 ⟨false, false, .core⟩) (chanState (fullQueue 16) [] engineTeam)).tm.deferred = [(2048, 0)] ∧
    (ran (.xfer 0 0 ⟨false, false, .core⟩) (chanState (fullQueue 16) [(0, 0, 0)] { engineTeam with deferred := [(2048, 0)] })).tm.state =
      .stalled := by
  decide +kernel

def good (r : EngAcc × State) (n : Nat) : Bool :=
  match r.1 with
  | .ok pas => pas.length == n && decide pas.Nodup
  | _ => false

/-- The hypotheses of a unit that is copied. -/
def unitHyp (s : State) (c : CopyCmd) : Bool :=
  let es := tSrc c.tmpl c.unit
  let ed := tDst c.tmpl c.unit
  let a := engineCheck s 0 [.ahead] c.ctx (unitAddr c.srcRec es.toNat) (unitBytes (recFmt c.srcRec)) true false
  let b := engineCheck a.2 0 [.ahead] c.ctx (unitAddr c.dstRec ed.toNat) (unitBytes (recFmt c.dstRec)) false true
  headCmd s 0 0 == some (2048, c) && (getChan s 2048).queue.head? == some c && c.state == .running && tReduce c.tmpl == 0 &&
    !recBlock c.srcRec && !recBlock c.dstRec && 0 ≤ es && es < recSize c.srcRec && 0 ≤ ed && ed < recSize c.dstRec &&
    !inFabric (unitAddr c.dstRec ed.toNat) && good a 4 && good b 4

def stalled : Team := { engineTeam with wait := .deferred 2048, state := .stalled, clause := none, pc := 0x5004 }

theorem test_hyp_CopyStepsMoveUnits :
    (let c := cmd0 .queued 0 0;
      let s := chanState [{ c with data := 5 }] [] engineTeam;
      headCmd s 0 0 = some (2048, { c with data := 5 }) ∧ sfind (getCtx s 1).templates 5 = none) ∧
    (let c := cmd0 .queued 0 0;
      let s := chanState [c] [] engineTeam;
      headCmd s 0 0 = some (2048, c) ∧ (getChan s 2048).queue = c :: [] ∧ c.state = .queued ∧
        sfind (getCtx s 1).templates 0 = some (copyTmpl 4 0) ∧
        templateOk c.data (withOverride (copyTmpl 4 0) 0) (rec32 0x8000 4) (rec32 0x9000 4) = true) ∧
    (let c := cmd0 .acquiring 0 0;
      headCmd (chanState [c] [] engineTeam) 0 0 = some (2048, c) ∧ c.tmpl.getLsbD 24 = false ∧
        c.acquireWaits (chanState [c] [] engineTeam) = false) ∧
    (unitHyp (chanState [cmd0 .running 0 0] [] engineTeam) (cmd0 .running 0 0) = true ∧
      unitHyp (chanState [cmd0 .running 3 0] [] engineTeam) (cmd0 .running 3 0) = true) ∧
    (let c := cmd0 .completing 4 0;
      headCmd (chanState [c] [] engineTeam) 0 0 = some (2048, c) ∧ tClosure c.tmpl = 0 ∧ tStamp c.tmpl = 0) ∧
    (let c := cmd0 .completing 4 0xA000;
      headCmd (chanState [c] [] engineTeam) 0 0 = some (2048, c) ∧ tClosure c.tmpl = 0 ∧ tStamp c.tmpl = 0xA000 ∧
        good (engineCheck (chanState [c] [] engineTeam) 0 [.ahead] 1 0xA000 8 false true) 8 = true) ∧
    (let s := chanState (fullQueue 15) [(0, 7, 0)] { engineTeam with deferred := [(2048, 7)] };
      liveKey s 0 0 = some 2048 ∧ (getChan s 2048).deferred = (0, 7, 0) :: [] ∧ (getChan s 2048).queue.length < 16) ∧
    (let s := chanState (cmd0 .acquiring 0 0 :: fullQueue 15) [] stalled;
      (s.getTeam 0).wait = .deferred 2048 ∧ (s.getTeam 0).state = .stalled ∧ ctxOn s 0 1 = true ∧ (s.getTeam 0).unfin = 0 ∧
        s.tm.inHandler = false ∧ s.tm.blocked = false ∧ (getCtx s 1).trapEntry ≠ 0) := by
  decide +kernel

/-- A unit moves its four bytes and the write pointer (R198). -/
theorem test_copy_unit :
    let s := { chanState [cmd0 .running 3 0] [] engineTeam with mem := tables ++ [(0x800C, 0x11), (0x800F, 0x22)] }
    let t := ran (.copyUnit 0 0) s
    memGet t 0x900C = 0x11 ∧ memGet t 0x900F = 0x22 ∧ (getChan t 2048).ptr = 0x0000010000000004 ∧
      ((getChan t 2048).queue.map CopyCmd.state) = [.completing] := by
  decide +kernel

/-! ### Row commands -/

def unit0 (st : Nat) : RowUnit := ⟨true, st, 0, 0, 0, 0, 0, 0, false⟩

/-- ROWCPY of one unit from 0x8000 to 0x10000, as it is posted. -/
def row0 : RowCmd :=
  { id := 0, uid := 0, ctx := 1, core := 0, op := .cpy, dst := 0x10000, srcs := [0x8000], pattern := 0x8000, control := 0
    flags := ⟨false, false, .core⟩, toAccept := [], places := [], accepted := false, stopped := false, path := .undecided, bits := 0, dstPa := []
    srcPa := [], units := [], fallbackNext := 0 }

def seg (pa : Nat) : Seg := ⟨pa, 1024, 0, 0, 0⟩

/-- The same, accepted, with its units' places. -/
def rowAcc : RowCmd := { row0 with accepted := true, dstPa := [seg 0x10000], srcPa := [[seg 0x8000]] }

def rowState (l : List RowCmd) (t : Team) : State := { world t with rowQueue := l, nextRow := l.length }

def rowWords : List Instr :=
  let f : EFlags := ⟨false, true, .dev⟩
  [.rowcpy 3 2 5 f, .rowfil 3 2 5 f, .rownot 3 2 5 f, .rowand 3 2 4 5 f, .rowor 3 2 4 5 f, .rowxor 3 2 4 5 f,
   .rowmaj 3 2 22 5 ⟨true, false, .core⟩]

theorem test_hyp_RowWordsPostCommands :
    (let s := rowState (List.replicate 15 row0) engineTeam;
      rowWords.all (issuesB s) = true ∧ dirtyHeld s s.tm.core = false ∧
        s.tm.awaitsRows = false ∧
        (s.rowQueue.filter fun r => r.core == s.tm.core && r.ctx == s.tm.ctx && !r.accepted).length < 16) ∧
    (issuesB (rowState [row0] engineTeam) (.rowstat 8 true .dev) = true ∧
      issuesB (rowState [row0] engineTeam) (.rowstatPoll 8 false .core) = true ∧ engineTeam.only = none ∧
      engineTeam.held = none ∧ (engineTeam.pending.all fun p => !p.isRowWait || !p.arrived) = true) := by
  decide +kernel

/-- The command at the head of the queue translates. -/
def acceptHyp (s : State) (r : RowCmd) : Bool :=
  match translateUnits s 0 r.ctx r.id .write r.width r.dst with
  | (some _, _, s1) => (translateSources s1 0 r.ctx r.id r.width r.sources).1.isSome
  | _ => false

/-- The command is translated and waits at one slice. -/
def rowAt (n : Nat) : RowCmd := { rowAcc with accepted := false, toAccept := [n] }
def rowPlaced (id n : Nat) : RowCmd := { rowAcc with id := id, places := [(n, id)] }

def rowBad : RowCmd := { row0 with dst := 0x8000 }
def rowFar : RowCmd := { rowAcc with dst := 0x10001 }

theorem test_hyp_RowStepsRunTheCommands_1 :
    (let s := rowState [row0] engineTeam;
      rowHead s 0 = some row0 ∧ findRow s 0 = some row0 ∧ (sget 0 s.dbg.engStop 0).getLsbD 8 = false ∧ row0.bad = false ∧
        row0.dstPa = []) ∧
    (rowBad.bad = true ∧ rowHead (rowState [rowBad] engineTeam) 0 = some rowBad) ∧
    (let s := rowState [rowAt 3] engineTeam;
      rowHead s 0 = some (rowAt 3) ∧ (rowAt 3).dstPa ≠ [] ∧ (rowAt 3).toAccept = 3 :: [] ∧ sliceFree s 3 = true ∧ s.pools = []) ∧
    (let s := rowState ((List.range 32).map fun i => rowPlaced (i + 1) 3) engineTeam; sliceFree s 3 = false) ∧
    (let s := rowState [rowAcc] engineTeam;
      findRow s 0 = some rowAcc ∧ rowAcc.dstPa[0]? = some (seg 0x10000) ∧ sfind rowAcc.units 0 = none ∧
        rowAcc.accepted = true ∧ rowAcc.stopped = false ∧ prestepWaits s rowAcc = false ∧
        unitHot s (rowAcc.segs 0) = false ∧ s.pools = [] ∧ rowAcc.path = .undecided ∧ rowAcc.toAccept = [] ∧
        rowAcc.begun = false) ∧
    ({ rowAcc with dst := 0x2008000, dstPa := [seg 0x2008000] }.eligible (rowState [] engineTeam) = true) ∧
    (rowFar.eligible (rowState [rowFar] engineTeam) = false ∧ rowFar.nofb = false ∧
      { rowFar with control := 2 ^ 18 }.nofb = true ∧ { rowFar with control := 2 ^ 18 }.eligible (rowState [] engineTeam) = false) := by
  decide +kernel

set_option maxRecDepth 100000 in
theorem test_hyp_RowStepsRunTheCommands_accept : acceptHyp (rowState [row0] engineTeam) row0 = true := by decide +kernel

theorem test_hyp_RowStepsRunTheCommands_bytes : (seg 0x10000).bytes.Nodup := by
  have e : ∀ i, i < 1024 → (seg 0x10000).addr i = 0x10000 + i := fun i hi => if_pos hi
  refine List.Nodup.map_on (fun a ha b hb h => ?_) List.nodup_range
  rw [e a (List.mem_range.mp ha), e b (List.mem_range.mp hb)] at h
  omega

theorem test_hyp_RowStepsRunTheCommands_2 :
    (let r := { rowAcc with path := .dram, units := [(0, unit0 0)] };
      let s := rowState [r] engineTeam;
      (microprogram r.op r.pattern r.sources.length)[0]?.isSome = true ∧ mayStep s r 0 (seg 0x10000) = true ∧
        sfind r.units 0 = some (unit0 0) ∧ (unit0 0).finished = false ∧ r.stopped = false ∧
        (((microprogram r.op r.pattern r.sources.length)[0]?.bind (readsRow r 0)).all fun row =>
          (rowLines row).all fun ln => !isBad s (ln * 256)) = true) ∧
    (let r := { rowAcc with path := .fallback, units := [(0, unit0 0)] };
      sfind r.units r.fallbackNext = some (unit0 0) ∧ ctxOn (rowState [r] engineTeam) 0 1 = true ∧
        fallbackStop (rowState [r] engineTeam) (r.srcPa.filterMap fun l => l[r.fallbackNext]?) = none) ∧
    (let r := { rowAcc with units := [(0, { unit0 9 with finished := true })] };
      r.done = true ∧ (sfind (rowState [r] engineTeam).teams r.uid).isSome = true) ∧
    (let s := { w0 with banks := [(0, ⟨[⟨5, false, false, 0x8000⟩], [], 7⟩)] };
      (servedBy (microAt s 0) (bankWork s 0)).isSome = true ∧ (getBank s 0).refreshOwed < 8 ∧ s.stackStopped = 0) ∧
    (let r := { rowAcc with units := [(0, { unit0 0 with started := false })] };
      let s := rowState [r] engineTeam;
      findRow s 0 = some r ∧ r.stopped = false ∧ r.path = .undecided ∧ writesWait s (r.segs 0) = false ∧
        writesWait { s with banks := [(3, ⟨[⟨64, false, true, 0x10100⟩], [], 0⟩)] } (r.segs 0) = true) ∧
    (rowAcc.dstPa[0]? = some (seg 0x10000) ∧ (seg 0x10000).len = 1024) := by
  decide +kernel

/-- A core has entered a bundle with the line given, and the command is to make its first pre-step. -/
def rowMeets (line : Nat) : State :=
  { rowState [rowAcc] engineTeam with pools := [(poolKey 0 1, ⟨4, [(0, enteredAt)], [], 1, 0, none⟩)] }
where enteredAt : Bundle :=
  { state := .entered, prio := 3, order := 0, lines := [(line, line)], fillFailed := false, enterers := [0], mode := .own
    exitTime := none, reserved := [], dropping := false, recorded := false, writers := [] }

theorem test_hyp_RowStepsRunTheCommands_entered :
    (rowAcc.dstEntered (rowMeets 0x100) = true ∧ prestepWaits (rowMeets 0x100) rowAcc = false) ∧
    (rowAcc.dstEntered (rowMeets 0x80) = false ∧ rowAcc.sourceRace (rowMeets 0x80) = some 0 ∧
      prestepWaits (rowMeets 0x80) rowAcc = false ∧ unitHot (rowMeets 0x80) (rowAcc.segs 0) = false ∧
      (sfind (rowMeets 0x80).teams rowAcc.uid).isSome = true) := by
  decide +kernel

/-- A race on a source stops the command before it begins, with status bit 3, and the team's next header traps (R217). -/
theorem test_row_race :
    let t := ran (.rowPrestep 0 0) (rowMeets 0x80)
    (t.getTeam 0).racePending = true ∧ ((findRow t 0).map fun r => (r.stopped, r.bits)) = some (true, 8) := by
  decide +kernel

/-- ROWXOR's example (spec 21): word 0 of the sources 0x0F, 0x33, 0x55 gives 0x69. -/
theorem test_rowxor_example :
    rowResult .xor 0 [0x0F, 0x33, 0x55] = 0x69 ∧
      (microprogram .xor 0 3).length = 26 := by
  decide +kernel

/-! ### Closures and tasks -/

/-- An environment in slot 0 of core 0 with a count, and its handle (Table 13-1). -/
def env1 (count : Nat) : Env := ⟨.live, 1, 0x6000, 1, count, false, 0, 0, 0, []⟩
def h1 : DWord := mkHandle 1 0 0 1

def closTeam : Team :=
  { team0 5 with k := [(1, h1)], s := [(3, 0x9000), (4, 0x6000), (7, 0x6000), (8, 0)], v := [(vkey 8 0, h1.setWidth 32),
      (vkey 8 1, h1.setWidth 32), (vkey 9 0, (h1 >>> 32).setWidth 32), (vkey 9 1, (h1 >>> 32).setWidth 32)] }

/-- The team with that environment. -/
def closState (count : Nat) (t : Team) : State := { world t with envs := [(0, env1 count)] }
def wc : State := closState 1 closTeam

theorem handleFields_wc : HandleFields wc := ⟨by decide, by decide, fun _ => by show (1 : Nat) < 65536; decide⟩

/-- A store that is full. -/
def fullStore : State := { world closTeam with envs := [(0, { env1 1 with slots := 4096 })] }

theorem test_hyp_CaptureWordsMakeEnvironments :
    HandleFields wc ∧ HandleFields fullStore ∧
    ([Instr.capt 2 7 8, .captRef 2 7 8, .captLane 7 8].all (issuesB wc) = true) ∧
    wc.tm.pending = [] ∧
    wc.tm.mustCommit [] (maskRegs (mapSmask 0)) none = 0 ∧ lowestRun (coreEnvs wc 0) 1 = some 1 ∧ wc.tm.kread 2 = 0 ∧
    (lowestRun (coreEnvs fullStore 0) 1 = none ∧ issuesB fullStore (.capt 2 7 8) = true) := by
  refine ⟨handleFields_wc, ⟨by decide, by decide, fun _ => by show (1 : Nat) < 65536; decide⟩, ?_⟩
  decide +kernel

/-- The maps and entries of that state; and one that captures s0 and the registers v1 to v4. -/
theorem test_hyp_CaptureWordsMakeEnvironments_fits :
    CaptureFits wc (wc.tm.sread 8) (wc.tm.sread 7) false false ∧ CaptureFits wc (wc.tm.sread 8) (wc.tm.sread 7) true false ∧
    CaptureFits wc (wc.tm.sread 8) (wc.tm.sread 7) false true ∧ CaptureFits wc 0x02010001 0x6000 true false ∧
    CaptureFits wc 0x02010001 0x6000 false true := by
  refine ⟨?_, ?_, ?_, ?_, ?_⟩ <;> (dsimp only [CaptureFits]; decide +kernel)

/-- A captured environment: its handle names generation 1, core 0, slot 1, context 1. -/
theorem test_capt : (ran (.capt 2 7 8) wc).tm.kread 2 = 0x0001000008008000 := by decide +kernel

theorem test_hyp_ApplyWordsEnterTheClosure :
    (issuesB wc (.apply 1) = true ∧ wc.tm.pending = [] ∧ Applicable wc (wc.tm.kread 1) (env1 1)) ∧
    (issuesB wc (.applyLane 8) = true ∧ wc.tm.apply = none ∧ wc.tm.clause.isSome = true ∧
      wc.tm.active &&& wc.tm.full = wc.tm.active ∧ activeLanes wc = 0 :: [1] ∧
      (∀ l ∈ activeLanes wc, wc.tm.lane64 8 l ≠ 0 ∧ hCtx (wc.tm.lane64 8 l) = wc.tm.ctx) ∧
      Applicable wc (wc.tm.lane64 8 0) (env1 1)) := by
  simp only [Applicable, FrameFits, frameShift, CanPush, activeLanes]
  decide +kernel

/-- Handle words: an environment with count 1, 2, the greatest that admits another; a dangling handle; memory operands. -/
theorem test_hyp_HandleWordsCountReferences :
    ([1, 65534].all fun n => issuesB (closState n closTeam) (.kdup 2 1) && (closState n closTeam).tm.kread 2 == 0 &&
      checkHandle (closState n closTeam) 1 h1 matches .ok _) = true ∧
    (issuesB (closState 2 { closTeam with k := [(1, h1), (2, h1)] }) (.kdup 2 1) = true) ∧
    (issuesB (world closTeam) (.kdrop 1) = true ∧ liveEnv (world closTeam) h1 = none) ∧
    (issuesB wc (.kdrop 1) = true ∧ liveEnv wc h1 = some (env1 1) ∧ hCtx h1 = 1) ∧
    (issuesB (closState 2 closTeam) (.kdrop 1) = true ∧ liveEnv (closState 2 closTeam) h1 = some (env1 2)) ∧
    (issuesB wc (.kld 2 3) = true ∧ wc.tm.kread 2 = 0 ∧ issuesB wc (.kst 1 3) = true ∧ wc.pools = [] ∧
      (match kAccess (issued wc) 0x9000 .load, kAccess (issued wc) 0x9000 .store with
        | (.ok a, _), (.ok b, _) => a.length == 8 && decide b.Nodup
        | _, _ => false) = true) ∧
    (issuesB wc (.kqry 1 9) = true ∧ issuesB wc (.kqry 0 9) = true ∧ issuesB (world closTeam) (.kqry 1 9) = true) := by
  decide +kernel

/-- KLD of a handle that memory holds. -/
theorem test_kld :
    let s := { wc with mem := tables ++ [(0x9001, 0x80), (0x9006, 1)] }
    (ran (.kld 2 3) s).tm.kread 2 = h1 ∧ (sfind (ran (.kld 2 3) s).envs 0).map Env.count = some 2 := by
  decide +kernel

/-- A task control block at 0x9000 that is FREE (state 0), or WAITING with n signals to come (Table 13-3). -/
def tcbState0 (n : Nat) (st : Byte) : State :=
  { closState 1 { closTeam with s := [(3, 0x9000), (4, BitVec.ofNat 64 n), (5, 0x18000)] } with
    mem := tables ++ [(0x9008, BitVec.ofNat 8 n), (0x900C, st), (0x9011, 24)] }

def tcbHyp (s : State) (ok : State → Nat → Bool) : Bool :=
  match tcbAccess (l1Release (issued s) s.tm.core) (s.tm.sread 3) with
  | (.ok pa, s1) => pa == 0x9000 && ok s1 pa
  | _ => false

theorem test_hyp_TaskWordsPostWork_tcb :
    ([0, 2].all fun n => issuesB (tcbState0 n 0) (.tarm 3 4 1 6) &&
      tcbHyp (tcbState0 n 0) fun s pa => tcbOk s pa && tcbState s pa == 0) = true ∧
    (issuesB (tcbState0 1 1) (.tarm 3 4 1 6) = true ∧ tcbHyp (tcbState0 1 1) (fun s pa => tcbOk s pa && tcbState s pa == 1) = true) ∧
    (checkHandle (tcbState0 0 0) 1 h1 matches .ok _) = true ∧ dirtyHeld (tcbState0 0 0) 0 = false ∧
    (tcbState0 0 0).tm.awaitsRows = false ∧
    ([1, 2].all fun n => issuesB (tcbState0 n 1) (.tsig 3 6) &&
      tcbHyp (tcbState0 n 1) fun s pa => tcbState s pa == 1 && memRead s (pa + 8) 4 == n) = true ∧
    (issuesB (tcbState0 1 3) (.tsig 3 6) = true ∧ tcbHyp (tcbState0 1 3) (fun s pa => tcbState s pa != 1) = true) := by
  decide +kernel

/-- TSIG counts down, and the last signal puts the task into its ready queue (R258). -/
theorem test_tsig :
    (let t := ran (.tsig 3 6) (tcbState0 2 1);
      memGet t 0x9008 = 1 ∧ memGet t 0x900C = 1 ∧ t.tm.sread 6 = 0) ∧
    (let t := ran (.tsig 3 6) (tcbState0 1 1);
      t.tm.sread 6 = 0 ∧ (getReady t 1 0).entries = [.tcb 0x9000 0 1]) := by
  decide +kernel

/-- The configuration word of a closure team of one lane with six registers on queue 0 (R262), and a bad one. -/
def cfgState (cfg : DWord) (q : Nat) (n : Nat) : State :=
  { closState 1 { closTeam with s := [(3, cfg), (4, BitVec.ofNat 64 q)] } with
    ctxs := [(1, { ctx1 with
      queues := [(q, ⟨List.replicate n ⟨0x9000, 1, false⟩, 0, n⟩)] })] }

theorem test_hyp_TaskWordsPostWork_posts :
    (issuesB (cfgState 0x18000 0 0) (.qapply 3 1 6) = true ∧ cfgOk 0x18000 = true ∧
      postedCount (getReady (cfgState 0x18000 0 0) 1 0) < 4096 ∧ issuesB (cfgState 0 0 0) (.qapply 3 1 6) = true ∧ cfgOk 0 = false) ∧
    (issuesB (cfgState 0x18000 0 0) (.qapplyLane 3 8 6) = true ∧ activeLanes (cfgState 0x18000 0 0) = [0, 1] ∧
      ((activeLanes (cfgState 0x18000 0 0)).all fun l =>
        checkHandle (cfgState 0x18000 0 0) 1 ((cfgState 0x18000 0 0).tm.lane64 8 l) matches .ok _) = true) ∧
    (issuesB (cfgState 0x9000 63 255) (.launch 3 4 6) = true ∧ (getQueue (cfgState 0x9000 63 255) 1 63).entries.length = 255) ∧
    (issuesB (cfgState 0x9000 0 256) (.launch 3 4 6) = true ∧ (getQueue (cfgState 0x9000 0 256) 1 0).entries.length = 256) ∧
    (issuesB (cfgState 0x9001 0 0) (.launch 3 4 6) = true ∧ issuesB (cfgState 0x9000 64 0) (.launch 3 4 6) = true) := by
  simp only [activeLanes]
  decide +kernel

theorem test_launch :
    (ran (.launch 3 4 6) (cfgState 0x9000 63 255)).tm.sread 6 = 0 ∧ (ran (.launch 3 4 6) (cfgState 0x9000 0 256)).tm.sread 6 = 1 ∧
      (ran (.launch 3 4 6) (cfgState 0x9000 64 0)).tm.sread 6 = 2 := by
  decide +kernel

/-! ### Cohorts and barriers -/

/-- Cohort 5 of context 1 with a window of 2 KiB. -/
def coh (members : List (Nat × Nat)) (bars : Sparse Barrier) : Cohort := ⟨1, 5, 0, 2, members, bars, []⟩
def ck5 : Nat := cohKey 1 5

/-- Team 0 with cohort id n in s6; the cohorts given. -/
def joinState (id : Nat) (cohort : Option Nat) (cs : Sparse Cohort) : State :=
  { world { team0 5 with s := [(6, BitVec.ofNat 64 id)], cohort := cohort } with cohorts := cs }

def joinHyp (s : State) : Bool := issuesB s (.join 6 2 5) && s.tm.uid == s.cur

def tooMany : Sparse Cohort := (List.range 512).map fun i => (65536 + 100 + i, ⟨1, 100 + i, 0, 2, [(0, 9)], [], []⟩)

theorem test_hyp_CohortWordsJoinLeaveAndReport :
    joinHyp (joinState 5 (some ck5) []) = true ∧ joinHyp (joinState 0xFFFF none []) = true ∧
    (joinHyp (joinState 5 none [(ck5, { coh [(0, 1)] [] with window := 3 })]) = true) ∧
    (joinHyp (joinState 5 none [(ck5, coh [] [])]) = true ∧ (joinState 5 none [(ck5, coh [] [])]).tm.state = .ready) ∧
    (joinHyp (joinState 5 none [(ck5, { coh [(0, 1)] [] with dp := 1 })]) = true) ∧
    (joinHyp (joinState 5 none [(ck5, coh ((List.range 64).map fun i => (i, i + 1)) [])]) = true) ∧
    (joinHyp (joinState 5 none [(ck5, coh ((List.range 63).map fun i => (i, i + 1)) [])]) = true) ∧
    (joinHyp (joinState 5 none tooMany) = true ∧ ((joinState 5 none tooMany).cohorts.filter fun c => c.2.dp == 0).length = 512) ∧
    (joinHyp (joinState 5 none []) = true ∧ getCohort (joinState 5 none []) ck5 = none) ∧
    (issuesB w0 .leave = true ∧ w0.tm.cohort = none) ∧
    (issuesB (joinState 5 (some ck5) [(ck5, coh [(0, 0)] [])]) .leave = true ∧
      (coh [(0, 0)] []).members.all (fun m => m.2 == 0) = true ∧
      stampsLeft (joinState 5 (some ck5) [(ck5, coh [(0, 0)] [])]) ck5 = false ∧
      rising (joinState 5 (some ck5) [(ck5, coh [(0, 0)] [])]).engines = true) ∧
    (issuesB (joinState 5 (some ck5) [(ck5, coh [(0, 0), (1, 7)] [])]) (.cohq 7 15) = true) := by
  decide +kernel

/-- R71's outcomes: 1 with a new cohort, 0 with the lowest free index, 2 full, 3 other die pair, 4 wrong window, 5 member. -/
theorem test_join :
    (ran (.join 6 2 5) (joinState 5 none [])).tm.sread 5 = 1 ∧
    (let t := ran (.join 6 2 5) (joinState 5 none [(ck5, coh [(0, 8), (2, 9)] [])]); t.tm.sread 5 = 0 ∧ t.tm.memberIdx = 1) ∧
    (ran (.join 6 2 5) (joinState 5 none [(ck5, coh ((List.range 64).map fun i => (i, i + 1)) [])])).tm.sread 5 = 2 ∧
    (ran (.join 6 2 5) (joinState 5 none [(ck5, { coh [(0, 1)] [] with dp := 1 })])).tm.sread 5 = 3 ∧
    (ran (.join 6 2 5) (joinState 0xFFFF none [])).tm.sread 5 = 4 ∧
    (ran (.join 6 2 5) (joinState 5 (some ck5) [])).tm.sread 5 = 5 := by
  decide +kernel

/-- Teams 0 and 1 of cohort 5: barrier 3 in phase 7, with the arrivals given; team 1 waits as said. -/
def barState (arrived : List Nat) (myArr : BitVec 16) (w1 : Wait) : State :=
  let t := { team0 5 with cohort := some ck5, arr := [(3, myArr)] }
  let s := world t
  { s with
    teams := [(0, t), (1, { t with uid := 1, slot := 1, arr := [(3, 8)], wait := w1, state := .parked, clause := none })]
    cohorts := [(ck5, coh [(0, 0), (1, 1)] [(3, ⟨7, [0, 1], arrived, false, false, false, false⟩)])] }

theorem test_hyp_BarrierWordsArriveAndWait_1 :
    ([Instr.bara 3, .barv 3, .barw 3].all (issuesB w0) = true ∧ w0.tm.cohort = none) ∧
    (let s := barState [1] 7 (.barWait 3);
      issuesB s (.bara 3) = true ∧ issuesB s (.barv 3) = true ∧ s.tm.cohort = some ck5 ∧ canRelease s s.cur .home true = true ∧
        sget 0 s.tm.arr 3 = 7) ∧
    (let s := barState [] 7 .none; issuesB s (.bara 3) = true ∧ issuesB s (.barv 3) = true ∧ s.tm.state = .ready) ∧
    (let s := barState [0] 8 .none; issuesB s (.bara 3) = true ∧ issuesB s (.barv 3) = true ∧ sget 0 s.tm.arr 3 = 7 + 1) ∧
    (issuesB (barState [] 7 .none) (.barw 3) = true ∧ issuesB (barState [0] 8 .none) (.barw 3) = true ∧
      ((7 : BitVec 16) - 7).toNat < 2 ^ 15 ∧ 2 ^ 15 ≤ ((7 : BitVec 16) - 8).toNat) := by
  decide +kernel

theorem test_hyp_BarrierWordsArriveAndWait_2 :
    MayArrive (barState [1] 7 (.barWait 3)) ck5 (coh [(0, 0), (1, 1)] [(3, ⟨7, [0, 1], [1], false, false, false, false⟩)]) ∧
    LastToArrive (barState [1] 7 (.barWait 3)) ⟨7, [0, 1], [1], false, false, false, false⟩ ∧
    NoneQueued (barState [1] 7 (.barWait 3)) ck5 3 (coh [(0, 0), (1, 1)] []) ∧
    ¬LastToArrive (barState [] 7 .none) ⟨7, [0, 1], [], false, false, false, false⟩ := by
  refine ⟨⟨rfl, by decide +kernel, ⟨0, by decide +kernel⟩, by decide +kernel⟩, ?_, ⟨?_, ?_⟩, ?_⟩
  · simp only [LastToArrive]; decide +kernel
  · intro m hm h0 w
    simp only [coh, List.mem_cons, List.not_mem_nil, or_false] at hm
    rcases hm with rfl | rfl
    · exact absurd rfl h0
    · exact nofun
  · intro e he
    have : streamsOf (barState [1] 7 (.barWait 3)) ck5 = [] := by decide +kernel
    rw [this] at he; cases he
  · simp only [LastToArrive]; decide +kernel

/-- The last arrival opens the next phase and wakes the other member, past its BARW or BARV. -/
theorem test_barrier :
    let t := ran (.barv 3) (barState [1] 7 (.barWait 3))
    ((getCohort t ck5).map fun c => (c.bar 3).ph) = some 8 ∧ t.tm.pc = 0x5008 ∧ (t.getTeam 1).wait = .none ∧
      (ran (.barv 3) (barState [] 7 .none)).tm.state = .parked := by
  decide +kernel

def mirror0 : MirrorPkt := ⟨1, ck5, 0, [0], 16, [0xAA, 0xBB]⟩
def mirrorState : State := { barState [] 7 .none with mirrors := [mirror0] }

theorem test_hyp_MirroredStoresArriveOrTear :
    mirrorState.mirrors[0]? = some mirror0 ∧ (mirrorState.getTeam 0).cohort = some mirror0.cohort ∧
    (getCohort mirrorState ck5).isSome = true ∧
    (match (mirrorState.getTeam mirror0.sender).wait with | .barArrive _ _ => false | _ => true) = true := by
  decide +kernel

theorem test_mirror :
    sget 0 (ran (.mirroredStoreDelivery 0) mirrorState).tm.window 17 = 0xBB ∧
      ((getCohort (ran (.mirroredDeliveryNack 0) mirrorState) ck5).map Cohort.tornPending) = some [1] := by
  decide +kernel

/-! ### Bundles -/

def bnd (st : BState) (es : List Nat) (mode : BMode) : Bundle :=
  { state := st, prio := 3, order := 0, lines := [(0x80, 0x80)], fillFailed := false, enterers := es, mode := mode
    exitTime := none, reserved := [], dropping := false, recorded := false, writers := [] }

/-- The handle of descriptor 0 in context 1 on core 0 (Table 8-2). -/
def bh : DWord := mkBundle 1 0 1 0

def bundleTeam : Team :=
  { team0 5 with bundleCap := 4, s := [(2, 0x8000), (3, 0), (4, bh), (5, 0xA000), (7, 0)] }

def bundleState (t : Team) (bs : Sparse Bundle) (cap : Nat) : State :=
  { world t with pools := [(poolKey 0 1, ⟨cap, bs, [], 1, 0, none⟩)] }

def declState : State :=
  { bundleState bundleTeam [] 4 with
    ctxs := [(1, { ctx1 with tensors := [(0, rec32 0x8000 4), (1, rec32 0x8000 4 ||| 0x8000#512 <<< 60)] })]
    mem := tables ++ [(0xA000, 1), (0xA011, 0x80), (0xA018, 2)] }

/-- Extent list at 0xA000 with one entry: two lines from 0x8000 on (Table 8-4). -/
theorem test_hyp_DeclarationsMakeBundles :
    (issuesB declState (.bdeclRec 3 9 7 10) = true ∧ sfind (getCtx declState 1).tensors 0 = some (rec32 0x8000 4) ∧
      recInvalid (rec32 0x8000 4) = false ∧ recFmt (rec32 0x8000 4) ≠ 10 ∧ sfind (getCtx declState 1).tensors 9 = none) ∧
    (issuesB declState (.bdeclList 5 9 7 10) = true ∧ (0xA000 : DWord).toNat % 16 = 0 ∧
      (listLines (issued declState) (issued declState).tm 0xA000).1 matches .ok (.lines [0x80, 0x81])) ∧
    (issuesB declState (.bdeclList 2 9 7 10) = true ∧
      (listLines (issued declState) (issued declState).tm 0x8000).1 matches .ok .malformed) ∧
    (declState.tm.bundleCap ≠ 0 ∧ (getPool declState declState.tm.poolKey).isSome = true) ∧
    (world bundleTeam).pools = [] := by
  decide +kernel

/-- BDECL.list makes a bundle of two lines, waiting or filling. -/
theorem test_bdecl_list :
    let t := ran (.bdeclList 5 9 7 10) declState
    t.tm.sread 10 = 0 ∧ t.tm.sread 9 = bh ∧ ((bundleAt t (poolKey 0 1) 0).map fun b => b.lines.map Prod.fst) = some [0x80, 0x81] := by
  decide +kernel

/-- Bundle states for the words of R148, R152 and R153. -/
theorem test_hyp_BundleWordsEnterExitDropAndReport :
    (let s := bundleState { bundleTeam with entered := [bh] } [(0, bnd .entered [0] .read)] 4;
      issuesB s (.benter 4 6 .read 0) = true ∧ s.tm.entered ≠ [] ∧ s.tm.inHandler = false) ∧
    (let s := bundleState bundleTeam [] 4;
      issuesB s (.benter 4 6 .share 0) = true ∧ findBundle s s.tm bh = none ∧ s.tm.entered = [] ∧ s.tm.awaitsRows = false ∧
        s.pools.all (fun p => p.2.bundles.isEmpty) = true) ∧
    (let s := bundleState bundleTeam [(0, bnd .declared [] .read)] 0; issuesB s (.benter 4 6 .read 0) = true) ∧
    (let s := bundleState bundleTeam [(0, bnd .declared [] .read)] 1;
      issuesB s (.benter 4 6 .own 0) = true ∧ findBundle s s.tm bh = some (0, bnd .declared [] .read) ∧ s.tm.state = .ready ∧
        (bnd .declared [] .read).writers = []) ∧
    (let s := bundleState { bundleTeam with entered := [bh] } [(0, bnd .entered [0] .own)] 4;
      issuesB s (.bexit 4 6) = true ∧ s.tm.uid = s.cur ∧ dirtyHeld s s.tm.core = false ∧ s.tm.awaitsRows = false ∧ issuesB s (.bexit 7 6) = true ∧
        issuesB s (.bdrop 4 6) = true ∧ issuesB s (.bqry 4 7) = true) ∧
    (let s := bundleState bundleTeam [(0, bnd .entered [9] .read)] 4; issuesB s (.bexit 4 6) = true) ∧
    ([BState.declared, .waiting, .filling, .resident, .evicting].all fun st =>
      issuesB (bundleState bundleTeam [(0, bnd st [] .read)] 4) (.bdrop 4 6)) = true ∧ bundleTeam.benter = none ∧
      bundleTeam.reenter = false := by
  decide +kernel

/-- BQRY's word of an entered bundle (Table 8-6): state 4, mode 1, one team, priority 3, one line. -/
theorem test_bqry :
    (ran (.bqry 4 7) (bundleState bundleTeam [(0, bnd .entered [9] .own)] 4)).tm.sread 7 = 4 + 1 * 2 ^ 4 + 1 * 2 ^ 6 + 3 * 2 ^ 12 + 2 ^ 16 ∧
      (ran (.bqry 3 7) (bundleState bundleTeam [] 4)).tm.sread 7 = 7 := by
  decide +kernel

/-- Team 0 waits to enter the bundle in a mode; the grants are as given. -/
def waiting (st : BState) (mode : BMode) (g : List Grant) : State :=
  { bundleState { bundleTeam with benter := some ([bh], mode, 6), wait := .benter, state := .parked } [(0, bnd st [] mode)] 4 with
    grants := g }

theorem test_hyp_BundleStepsFillEvictGrantAndEnter_1 :
    (let s := waiting .filling .read [];
      bundleAt s (poolKey 0 1) 0 = some (bnd .filling [] .read) ∧ ctxOn s 0 1 = true ∧
        (match fillLines s 0 1 0 [0x80] with | (.ok ls, s1) => !fillWaits s1 0 ls | _ => false) = true) ∧
    (let s := { waiting .filling .read [] with ctxs := [(1, { ctx1 with root := 0x3000 })] };
      ((fillLines s 0 1 0 [0x80]).1 matches .fatal) = true ∧ bIndex bh = 0) ∧
    (let s := waiting .evicting .read [];
      bundleAt s (poolKey 0 1) 0 = some (bnd .evicting [] .read) ∧
        ((bnd .evicting [] .read).phys.all fun ln => !heldLine s true ln && ln < 2 ^ 38) = true) ∧
    (let s := waiting .resident .own [];
      heldLine s false 0x80 = false ∧ grantOk s 0 .own 0x80 = true ∧ stillHeld s (fun c => c != 0) 0x80 = false ∧
        findBundle s (s.getTeam 0) bh = some (0, bnd .resident [] .own)) ∧
    (let s := { waiting .resident .own [] with
        pools := [(poolKey 0 1, ⟨4, [(0, bnd .resident [] .own)], [], 1, 0, none⟩),
          (poolKey 1 1, ⟨4, [(0, bnd .resident [] .read)], [], 1, 0, none⟩)] };
      stillHeld s (fun c => c != 0) 0x80 = true) := by
  decide +kernel

theorem test_hyp_BundleStepsFillEvictGrantAndEnter_2 :
    WaitsFor (waiting .resident .own [⟨0x80, 0, 0, true⟩]) 0 [bh] .own 6 ∧
    SetLine (waiting .resident .own [⟨0x80, 0, 0, true⟩]) 0 [bh] 0x80 ∧
    Granted (waiting .resident .own [⟨0x80, 0, 0, true⟩]) 0 0x80 ∧ ¬Granted (waiting .resident .own []) 0 0x80 ∧
    (bundlesOf (waiting .resident .own []) 0).all (fun b => b.2.2.state != .entered) = true ∧
    pinnedLines (waiting .resident .own [⟨0x80, 0, 0, true⟩]) = [] := by
  refine ⟨⟨rfl, rfl, rfl, by decide +kernel, ?_⟩, ⟨bh, by simp, 0, bnd .resident [] .own, by decide +kernel⟩,
    ⟨⟨0x80, 0, 0, true⟩, by decide +kernel⟩, ?_, by decide +kernel, by decide +kernel⟩
  · intro h hh
    rcases List.mem_singleton.mp hh with rfl
    exact ⟨0, bnd .resident [] .own, by decide +kernel⟩
  · rintro ⟨g, hg, _⟩; cases hg

def waitvState (sc : Scope) : State :=
  world { team0 2 with state := .parked, wait := .waitv, waitv := some ⟨false, sc, 4, [(0, 0x8000), (1, 0x8010)], 0⟩ }

theorem test_hyp_BundleStepsFillEvictGrantAndEnter_3 :
    ([Scope.core, .dev].all fun sc => (match ((waitvState sc).getTeam 0).waitv with
      | some w => (w.lanes.map Prod.fst) == [0, 1] && w.lanes.all fun e =>
          readWordAt (waitvState sc) 0 (sc == .core) e.2 == ((waitvState sc).getTeam 0).vget 4 e.1
      | none => false)) = true ∧
    (waitvState .core).teams = [(0, (waitvState .core).getTeam 0)] ∧
    (let s1 := (missingWords (waitvState .core) 0 [0x80, 0x80]).foldl (fun s pa => fillSector s 0 pa) (waitvState .core);
      readWordAt s1 0 true 0x8000 = ((waitvState .core).getTeam 0).vget 4 0 ∧
        readWordAt s1 0 true 0x8010 = ((waitvState .core).getTeam 0).vget 4 1) ∧
    (let s1 := homeWrite (waitvState .dev) [(0x8000, 0)];
      readWordAt s1 0 false 0x8000 = ((waitvState .dev).getTeam 0).vget 4 0 ∧ heldLine (waitvState .dev) false 0x80 = false) := by
  decide +kernel

/-- The lanes have all been satisfied. -/
def waitedState : State := (waitvState .dev).modTeam 0 fun t => { t with waitv := t.waitv.map fun w => { w with satisfied := 3 } }

theorem test_waitv_reread :
    ((ran (.waitvReread 0) waitedState).getTeam 0).state = .ready ∧
    ((ran (.waitvReread 0) (waitvState .dev)).getTeam 0).state = .parked ∧
    ((ran (.waitvReread 0) (waitvState .core)).getTeam 0).state = .ready ∧
    ((homeWrite (waitvState .dev) [(0x8010, 0)]).getTeam 0).waitv.map WaitV.satisfied = some 3 := by
  decide +kernel

/-! ### Matrix streams -/

def turnB (s : State) (i : Instr) (x : Stream) : Bool :=
  findStream s s.curStream.1 s.curStream.2 == some x && x.mayStart s i && (!needsGrant i || x.granted)

theorem turn_of {s : State} {i : Instr} {x : Stream} (h : turnB s i x = true) : Turn s i x := by
  simp only [turnB, Bool.and_eq_true, beq_iff_eq, Bool.or_eq_true, Bool.not_eq_true'] at h
  exact ⟨h.1.1, h.1.2, fun hg => h.2.resolve_left (by simp [hg])⟩

/-- Still, evaluated. -/
def stillB (x : Stream) : Bool := x.canRun && x.mma.isNone && x.msta.isNone && x.mwbs.isEmpty

/-- MATT's configuration: both tiles, slots 0 to 7, barrier 3 (Table 7-2). -/
def cfg0 : DWord := 3 + 7 * 2 ^ 8 + 8 * 2 ^ 16

/-- The stream of cohort 5 on core 0, whose words start at 0x6000, with the grant. -/
def str0 : Stream := { newStream .idle 1 ck5 (coh [(0, 0)] []) 0x6000 cfg0 with granted := true }

/-- Core 0's engine with the streams and the slots given, in a context with the records given. -/
def gale (xs : List Stream) (slots : Sparse (List Byte)) (tens : Sparse TRec) : State :=
  { world { team0 3 with cohort := some ck5, s := [(1, 0x6000), (2, cfg0)] } with
    engines := [(0, ⟨xs, .zero, .zero, slots, none, 0, 1⟩)], cohorts := [(ck5, coh [(0, 0)] [])], curStream := (0, ck5)
    ctxs := [(1, { ctx1 with tensors := tens })] }

def gale0 : State := gale [str0] [] []

/-- The team's s1 and s2 name a start and a configuration. -/
def attState (xs : List Stream) (start cfg : DWord) : State :=
  let s := gale xs [] []
  { s with teams := [(0, { s.tm with s := [(1, start), (2, cfg)] })] }

def attHyp (s : State) : Bool := issuesB s (.matt 1 2 3) && s.tm.cohort == some ck5 && getCohort s ck5 == some (coh [(0, 0)] [])

def other (n : Nat) : Stream := { str0 with cohort := 100 + n, tileMask := 0, slotBase := 8 + n, slotCount := 1, granted := false }

theorem test_hyp_StreamsAttachAndDetach :
    (issuesB w0 (.matt 1 2 3) = true ∧ issuesB w0 (.mdet 3) = true ∧ w0.tm.cohort = none) ∧ CanTrap w0 ∧
    (attHyp (attState [str0] 0x6000 cfg0) = true ∧ str0.cohort = ck5) ∧
    (attHyp (attState ((List.range 4).map other) 0x6000 cfg0) = true ∧
      ((List.range 4).map other).all (fun x => x.cohort != ck5 && x.state != .saved) = true) ∧
    (attHyp (attState [other 0] 0x6000 (3 + 8 * 2 ^ 8)) = true ∧ (getEngine (attState [other 0] 0x6000 0) 0).streams = [other 0]) ∧
    ([(0x6000, 2 ^ 32), (0x6000, 2 ^ 12), (0x6000, 4), (0x6000, 8 * 2 ^ 4 + 8 * 2 ^ 8), (0x6002, cfg0)].all
      fun p => attHyp (attState [] p.1 p.2)) = true ∧
    (attHyp (attState [] 0x6000 cfg0) = true ∧ attHyp (attState [other 0] 0x6000 cfg0) = true ∧
      attHyp (attState [] 0x6000 (8 * 2 ^ 4 + 7 * 2 ^ 8)) = true) ∧
    (issuesB (attState [] 0 0) (.mdet 3) = true ∧ (attState [] 0 0).tm.wait = .none) ∧
    (issuesB gale0 (.mdet 3) = true ∧ findStream gale0 gale0.tm.core ck5 = some str0 ∧
      (retireFor 0 str0 str0.stamps (modStream (issued gale0) 0 ck5 Stream.stopAll)).1 = none) := by
  refine ⟨by decide +kernel, canTrap_w0, ?_⟩
  decide +kernel

/-- Table 7-3's statuses 1 to 4 and 0. -/
theorem test_matt :
    let st := fun s => (ran (.matt 1 2 3) s).tm.sread 3
    st (attState [str0] 0x6000 cfg0) = 1 ∧ st (attState ((List.range 4).map other) 0x6000 cfg0) = 2 ∧
      st (attState [other 0] 0x6000 (3 + 8 * 2 ^ 8)) = 3 ∧ st (attState [] 0x6000 (8 * 2 ^ 4 + 8 * 2 ^ 8)) = 4 ∧
      st (attState [] 0x6002 cfg0) = 4 ∧ st (attState [] 0x6000 (8 * 2 ^ 4 + 7 * 2 ^ 8)) = 0 := by
  decide +kernel

/-- MDET of a stream in ERROR gives 2 in bits 7:0, the code in 15:8 and the offset of its word in 63:16 (R114). -/
theorem test_mdet :
    (ran (.mdet 3) (gale [{ str0 with state := .error, errCode := 5, errPc := 0x6008 }] [] [])).tm.sread 3 = 0x80502 ∧
      (getEngine (ran (.mdet 3) gale0) 0).streams = [] ∧ (ran (.mdet 3) gale0).tm.sread 3 = 0 := by
  decide +kernel

/-- A BP8 image of one column with 8 kept values in 2 planes, and a dense MXINT8 image of one column: 2, 3, 0, ... (Table 6-6). -/
def bp8Img : List Byte :=
  toBytes 16 (2 * 2 ^ 13 + 2 ^ 17 + 4 * 2 ^ 20 + 0xC9 * 2 ^ 24 + 40 * 2 ^ 64) ++ toBytes 8 0xFF ++ toBytes 8 0x7F7F ++ toBytes 8 0x0F01
def intImg : List Byte :=
  toBytes 16 (3 * 2 ^ 20 + 0xC9 * 2 ^ 24 + 88 * 2 ^ 64) ++ toBytes 8 0x7F7F ++ toBytes 64 0x0302

theorem test_images : ((parseImage bp8Img).map fun g => (g.fmt, g.planes, g.keep, g.cols.length)) = some (.bp8, 2, 1, 1) ∧
    ((parseImage intImg).map fun g => (g.fmt, g.cols.length)) = some (.mx .int8, 1) ∧
    parseImage (intImg ++ [0]) = none ∧ parseImage (toBytes 16 0) = none := by
  decide +kernel

/-- A record: format, base, K and rows, with a stride of 1 in dimension 0 and scales 256 bytes on (Table 10-1). -/
def recOf (fmt base k m : Nat) : TRec :=
  BitVec.ofNat 512 (base + fmt * 2 ^ 60 + (if 6 ≤ fmt then 0x100 * 2 ^ 80 else 0) + (if fmt < 6 then 4 else 1) * 2 ^ 128 +
    (k - 1) * 2 ^ 168 + (m - 1) * 2 ^ 232)

def part0 : Cohort := coh [(0, 0)] [(3, ⟨7, [streamId 0], [], false, false, false, false⟩)]
def pair0 : Cohort := coh [(0, 0)] [(3, ⟨7, [0, streamId 0], [], false, false, false, false⟩)]

/-- A stream at barrier 3, whose phase is 7, of the cohort given. -/
def mbarX (arr : BitVec 16) : Stream := { str0 with arr := [(3, arr)] }
def mbarState (c : Cohort) (arr : BitVec 16) : State := { gale [mbarX arr] [] [] with cohorts := [(ck5, c)] }

theorem test_hyp_StreamWordsRunOrStop_1 :
    ([0, 1, 2, 8].all fun j => turnB gale0 (.mfmt .int8 j 255) str0) = true ∧
    (turnB gale0 (.mbar 3 0) str0 = true ∧ turnB gale0 (.mbar 4 1) str0 = true ∧ str0.barMask.getLsbD 4 = false ∧
      getCohort gale0 str0.cohort = some (coh [(0, 0)] []) ∧ (coh [(0, 0)] []).members ≠ []) ∧
    (let s := mbarState part0 7;
      turnB s (.mbar 3 1) (mbarX 7) = true ∧ turnB s (.mbar 3 3) (mbarX 7) = true ∧ getCohort s ck5 = some part0 ∧
        part0.members ≠ [] ∧ (mbarX 7).waitReqs = [] ∧ str0.barMask.getLsbD 3 = true ∧ sget 0 (mbarX 7).arr 3 = (part0.bar 3).ph ∧
        (∀ v ∈ (part0.bar 3).expected, v ∈ (part0.bar 3).arrived ++ [streamId 0]) ∧ (s.getTeam 0).wait = .none ∧
        streamsOf s ck5 = [(0, mbarX 7)]) ∧
    (let s := mbarState pair0 7;
      turnB s (.mbar 3 1) (mbarX 7) = true ∧ turnB s (.mbar 3 3) (mbarX 7) = true ∧ getCohort s ck5 = some pair0 ∧
        ¬∀ v ∈ (pair0.bar 3).expected, v ∈ (pair0.bar 3).arrived ++ [streamId 0]) ∧
    (turnB (mbarState pair0 7) (.mbar 3 2) (mbarX 7) = true ∧ turnB (mbarState pair0 8) (.mbar 3 2) (mbarX 8) = true ∧
      (pair0.bar 3).done = false ∧ ((7 : BitVec 16) - 7).toNat < 2 ^ 15 ∧ 2 ^ 15 ≤ ((7 : BitVec 16) - 8).toNat) ∧
    (turnB gale0 .mend str0 = true ∧ retireStamps 0 str0 str0.stamps gale0 = (.done, gale0)) := by
  decide +kernel

theorem test_mbar :
    let t := ran (.mbar 3 1) (mbarState part0 7)
    ((getCohort t ck5).map fun c => (c.bar 3).ph) = some 8 ∧ ((findStream t 0 ck5).map fun x => (x.pc, x.state)) = some (0x6004, .running) ∧
      ((findStream (ran (.mbar 3 3) (mbarState pair0 7)) 0 ck5).map fun x => (x.pc, x.state)) = some (0x6004, .parked) ∧
      ((findStream (ran (.mbar 4 1) gale0) 0 ck5).map fun x => (x.errCode, x.state)) = some (6, .error) := by
  decide +kernel

/-- 64 rows of two binary32 elements, eight bytes apart. -/
def rows64 : TRec := recOf 3 0x9000 2 64 ||| BitVec.ofNat 512 (8 * 2 ^ 192)

def recs : Sparse TRec :=
  [(0, recOf 9 0x8000 32 1), (1, 1 <<< 57), (2, recOf 5 0x9000 1 1), (3, recOf 9 0x8000 33 1), (4, recOf 3 0x9000 2 1),
   (5, recOf 10 0xB000 1 1), (6, rows64)]

/-- An MMA of one row of record 0, at its first chunk. -/
def runMma (stamp : Bool) : MmaRun := ⟨0x5FFC, false, stamp, 0, 0, 1, 0, 0, 0, 0, 0, 0, 0, false, none, .zero⟩

/-- The last member leaves while a stamp of its stream is to be written: the cohort keeps its id, and the stream stands still
(R73; log entry 111); without one it is dissolved. -/
theorem test_leave_stamps :
    let s := gale [{ str0 with stamps := [⟨false, 1, runMma true, 9, none, false, 0⟩] }] [] []
    stampsLeft s ck5 = true ∧ stampsLeft gale0 ck5 = false ∧
      ((getCohort (ran .leave s) ck5).map Cohort.members) = some [] ∧
      ((findStream (ran .leave s) 0 ck5).map Stream.state) = some .parked ∧
      getCohort (ran .leave gale0) ck5 = none := by
  decide +kernel

def xInt : Stream := { str0 with afmt := .int8 }
def gale1 : State :=
  let s := gale [xInt] [(0, intImg), (1, bp8Img)] recs
  { s with mem := tables ++ [(0x8000, 5), (0x8001, 7), (0x8100, 127)] }
/-- The same, with tile 0 in integer mode. -/
def gale2 : State :=
  { gale1 with engines := [(0, ⟨[xInt], { Tile.zero with int := true }, .zero, [(0, intImg), (1, bp8Img)], none, 0, 1⟩)] }

theorem test_hyp_StreamWordsRunOrStop_2 :
    ([Instr.mwb 8 0 0, .mwb 0 9 0, .mwb 0 1 0, .mwb 7 5 255, .mlw 8, .mlw 0, .mlw 1, .mlw 7, .mclr false true, .mclr true false,
      .mma false false 9 0 0, .mma false false 1 0 0, .mma false true 0 0 0, .mma false false 0 8 0, .mma false false 3 0 0,
      .mma false false 0 0 1, .mma true false 4 0 0, .mma false false 0 0 0, .msta .f32 false false 9, .msta .int8 false false 3,
      .msta .f32 true false 1, .msta .s32 false true 4, .msta .f32 false false 4, .msta .raw false true 2].all
        fun i => turnB gale1 i xInt) = true ∧
    (getRec gale1 1 9 = none ∧ getRec gale1 1 1 = some (1 <<< 57) ∧ recBroken (1 <<< 57) = true ∧
      getRec gale1 1 5 = some (recOf 10 0xB000 1 1) ∧ recBroken (recOf 10 0xB000 1 1) = false) ∧
    (parseImage (sget [] (getEngine gale1 0).slots 7) = none ∧ latchOf (getEngine gale1 0) { xInt with j := 3 } 1 none = none ∧
      turnB (gale [{ xInt with j := 3 }] [(1, bp8Img)] []) (.mlw 1) { xInt with j := 3 } = true ∧
      (parseImage bp8Img).isSome = true ∧ (parseImage intImg).isSome = true) ∧
    (turnB (gale [{ str0 with tileMask := 2 }] [] recs) (.mclr false true) { str0 with tileMask := 2 } = true ∧
      turnB (gale [{ str0 with tileMask := 2 }] [] recs) (.msta .f32 false false 4) { str0 with tileMask := 2 } = true) ∧
    (retireStamps 0 xInt (xInt.stamps.filter fun p => p.tile == false) gale1 = (.done, gale1)) ∧
    (stillB xInt = true ∧ xInt.stamps = [] ∧ xInt.failing = none) ∧
    (let x := { xInt with mma := some (runMma false) };
      turnB (gale [x] [] recs) (.mwb 8 0 0) x = true ∧ x.pc ≠ (runMma false).word) ∧
    (let m : MstaRun := ⟨0x5FFC, .f32, false, false, 6, 1⟩
      let x := { xInt with msta := some m }
      let s := gale [x] [] recs;
      findStream s 0 ck5 = some x ∧ x.canRun = true ∧ x.granted = true ∧ getRec s 1 6 = some (rows64) ∧
        32 * m.part < recExtent (rows64) 1 ∧ recExtent (rows64) 1 ≤ 32 * (m.part + 1) ∧
        (match (checkParts s 0 1 true (((chunkRows 64 1).flatMap (mstaRow (rows64) .f32 false Tile.zero)).flatMap
          fun q => cut q.1 q.2.length)).1 with
        | .ok pas => decide pas.Nodup
        | _ => false) = true) ∧
    (turnB gale2 (.mma false false 0 0 0) xInt = true ∧ turnB gale2 (.msta .s32 false false 4) xInt = true) ∧
    ([(MstaFmt.f32, false, 4), (.raw, true, 2)].all fun p =>
      let r := sget 0 recs p.2.2
      match (checkParts gale1 0 1 true (((chunkRows 1 0).flatMap (mstaRow r p.1 false Tile.zero)).flatMap
        fun q => cut q.1 q.2.length)).1 with
      | .ok pas => decide pas.Nodup
      | _ => false) = true := by
  decide +kernel

theorem test_hyp_MatrixEngineStepsComputeTiles :
    (let x := { str0 with granted := false, ahead := [0xC1000000] }
      let s := gale [x, other 0] [] []
      x.wantsGrant s = true ∧ (other 0).wantsGrant s = false ∧ x.order < 2 ^ 64) ∧
    (let x := { str0 with mwbs := [⟨0x5FFC, 2, 0xA000, none⟩] }
      let s := { gale [x] [] [] with mem := tables ++ (intImg.zipIdx.filterMap fun e => if e.1 = 0 then none else some (0xA000 + e.2, e.1)) }
      findStream s 0 x.cohort = some x ∧ x.canRun = true ∧ nextMwb s x [] x.mwbs = some ⟨0x5FFC, 2, 0xA000, none⟩ ∧
        mwbFree s x ⟨0x5FFC, 2, 0xA000, none⟩ = true ∧ x.failing = none ∧
        (match (readImage s 0 x.ctx 0xA000).1 with | .ok (some bs) => bs == intImg | _ => false) = true ∧
        (parseImage intImg).isSome = true ∧
        (match (readImage s 0 x.ctx 0xB000).1 with | .ok none => true | _ => false) = true) ∧
    (let w : MwbRun := ⟨0x6000, 0, 0xA000, none⟩
      let x := { xInt with mma := some (runMma false), mwbs := [w] }
      let s := gale [x] [(0, intImg)] recs
      nextMwb s x [] x.mwbs = some w ∧ mwbFree s x w = false ∧
        nextMwb s { x with mma := none } [] [{ w with read := some (some intImg) }] = some { w with read := some (some intImg) }) ∧
    (let m := runMma true
      let x := { xInt with mma := some m }
      let s := { gale2 with engines := [(0, ⟨[x], { Tile.zero with int := true }, .zero, [(0, intImg)], none, 0, 1⟩)] }
      (getEngine s 0).streams.find? (fun y => y.granted && y.canRun && y.mma.isSome) = some x ∧ findStream s 0 x.cohort = some x ∧
        getRec s x.ctx m.recNo = some (recOf 9 0x8000 32 1) ∧
        (match latchStep s 0 x m with
          | some (l, s1) => decide (l.img.cols.length ≤ 128) &&
              (match checkParts s1 0 x.ctx false
                ((chunkRows m.rows m.chunk).flatMap fun row => actParts (recOf 9 0x8000 32 1) row 0 1) with
              | (.ok pas, s2) => chunkPasses l true .int8 1 [0] (pas.map (memGet s2)) true &&
                  !chunkPasses l true .int8 1 [0] (pas.map (memGet s2)) false
              | _ => false)
          | none => false) = true ∧ m.failed = false ∧ x.failing = none) ∧
    ((parseImage intImg).isSome = true ∧ (List.replicate 33 (0 : Byte)).length = 1 * actLen .int8) ∧
    ((⟨true, false, []⟩ : Tile).int = true) ∧
    ((getEngine gale0 0).streams[0]? = some str0 ∧ findStream gale0 0 str0.cohort = some str0 ∧ str0.canRun = true ∧
      stillB str0 = true ∧ str0.failing = none) := by
  decide +kernel

/-- MXINT8 weights 2, 3 and activations 5, 7 in integer mode: 2 * 5 + 3 * 7 = 31; MSTA.s32 stores it. -/
theorem test_mma :
    let m := runMma false
    let e := fun x : Stream => (⟨[x], { Tile.zero with int := true }, .zero, [(0, intImg)], none, 0, 1⟩ : Engine)
    let t := ran (.mmaChunk 0 true) { gale2 with engines := [(0, e { xInt with mma := some m })] }
    ((getEngine t 0).tile false).get 0 0 = 31 ∧ mstaElem .s32 false ((getEngine t 0).tile false) 0 0 = [31, 0, 0, 0] ∧
      ((findStream t 0 ck5).map fun x => x.mma.isNone) = some true := by
  decide +kernel

/-! ### Steps of teams -/

/-- Memory cells of bytes from a base on. -/
def cells (base : Nat) (bs : List Byte) : Sparse Byte := bs.zipIdx.filterMap fun e => if e.1 = 0 then none else some (base + e.2, e.1)

/-- A team at a header at 0x5000, with the words given in memory. -/
def atHeader (t : Team) (ws : List Word) : State :=
  { world { t with pc := 0x5000, clause := none } with mem := tables ++ cells 0x5000 (ws.flatMap fun w => toBytes 4 w.toNat) }

def fetchB (s : State) (va : DWord) (n : Nat) (ws : List Word) : Bool :=
  match (fetchAll s s.tm va n).1 with
  | .ok l => l == ws
  | _ => false

/-- Results on their way: v2 in lane 0 and s3, and an LDC's v2 in lanes 0 and 1. -/
def pend1 (k : PendKind) : Pending := ⟨0x5000, 0, 0, 0, k, true, false, [(vkey 2 0, 7)], [(3, 9)], 0, [], [], [], none, false⟩
def pendLdc : Pending := ⟨0x5000, 0, 0, 0, .ldc 1, true, false, [(vkey 2 0, 7), (vkey 2 1, 8)], [], 0, [], [], [], none, false⟩

def gone : Team := { team0 5 with full := 0, active := 0 }

theorem test_hyp_TeamStepsFetchDrainCommitAndRetire_headers :
    (fetchB (atHeader (team0 1) [0]) 0x5000 1 [0] = true ∧ (atHeader (team0 1) [0]).tm.resume = none ∧
      CanTrap (atHeader (team0 1) [0])) ∧
    ([(0xF1000000, 0x140C0818), (0xF1200000, 0x21000000), (0xF1800000, 0x01000000), (0xF1140000, 0x140C0818)].all fun p =>
      let s := atHeader (team0 1) [p.1, p.2];
      fetchB s 0x5000 1 [p.1] && fetchB s 0x5004 1 [p.2] && s.tm.racePending == false && s.tm.active != 0 &&
        (p.1 != 0xF1000000 || !decodeTraps 0 s.tm p.2)) = true := by
  simp only [CanTrap, CanPush]
  decide +kernel

theorem test_goodHeader :
    (∀ w ∈ [0xF1000000, 0xF1200000, 0xF1800000, 0xF1140000, 0xFF000000], GoodHeader w) ∧
      ∀ w ∈ [0, 0xF0000000, 0xF2800000, 0xF1C00000], ¬GoodHeader w := by
  simp [GoodHeader]

theorem test_hyp_TeamStepsFetchDrainCommitAndRetire :
    (let s := atHeader { team0 0 with resume := some (1, 0) } [0x140C0818];
      fetchB s 0x5000 1 [0x140C0818] = true ∧ s.tm.resume = some (1, 0) ∧ decodeTraps 0 { s.tm with resume := none } 0x140C0818 = false) ∧
    (let s := atHeader { team0 0 with racePending := true } [0xF1200000];
      s.tm.resume = none ∧ s.tm.racePending = true ∧ s.tm.inHandler = false ∧ s.tm.callHw = [] ∧ s.tm.callDepth = 0 ∧
        (getCtx s 1).trapEntry ≠ 0) ∧
    (let s := world { team0 0 with wait := .drain true true true true, state := .stalled };
      (s.getTeam 0).wait = .drain true true true true ∧ (s.getTeam 0).rowOut = 0 ∧ (s.getTeam 0).deferred = [] ∧ s.channels = []) ∧
    (let s := world { team0 0 with pending := [pend1 .load] };
      (s.getTeam 0).pending[0]? = some (pend1 .load) ∧ ((pend1 .load).vals.map Prod.fst).Nodup) ∧
    (let s := world { team0 0 with pending := [pend1 .trans, pendLdc] };
      (s.getTeam 0).pending[0]? = some (pend1 .trans) ∧ (pend1 .trans).overlaps pendLdc = true ∧
        (world { team0 0 with pending := [pendLdc] }).tm.pending[0]? = some pendLdc ∧ (pendLdc.vals.map Prod.fst).Nodup) ∧
    (let s := atHeader { team0 1 with pending := [pend1 .load, pend1 .trans] } [0xF1100000];
      (s.tm.commitWhere fun p => drains 0xF1100000 p.kind).pending.all (fun p => !drains 0xF1100000 p.kind) = true ∧
        s.tm.pending.any (fun p => drains 0xF1100000 p.kind) = true) ∧
    (let s := (atHeader (team0 1) [0xF1000000, 0]).modTm fun t => { t with pc := 0x5002 };
      s.tm.pc.toNat % 4 ≠ 0 ∧ fetchB s 0x5002 1 [0xF100] = true ∧ s.tm.racePending = false ∧ s.tm.resume = none) ∧
    (let s := { world { gone with cohort := some ck5 } with cohorts := [(ck5, coh [(0, 0)] [])] };
      (s.getTeam 0).busy s = false ∧ (s.getTeam 0).cohort ≠ none ∧ (s.getTeam 0).waitReqs = [] ∧ s.cur = 0) ∧
    (let s := world gone; (s.getTeam 0).full = 0 ∧ (s.getTeam 0).busy s = false ∧ dirtyHeld s 0 = false ∧ gone.entered = [] ∧
      gone.k = [] ∧ gone.state = .ready) := by
  decide +kernel

/-- The header of spec 03: a two-word clause of class 1; word 0 is no header. -/
theorem test_header :
    (let t := ran .clauseHeader (atHeader (team0 1) [0xF2200000, 0x21000000, 0x22000000]);
      t.tm.pc = 0x5004 ∧ (t.tm.clause.map fun c => (c.cls, c.words)) = some (1, [0x21000000, 0x22000000])) ∧
    (ran .clauseHeader (atHeader (team0 1) [0])).tm.trapInfo = 1 ∧
    (ran .clauseHeader (atHeader { team0 0 with racePending := true } [0xF1200000])).tm.trapInfo = 9 := by
  decide +kernel

theorem test_commit :
    let s := world { team0 0 with pending := [pend1 .load, pendLdc] }
    (ran (.resultCommit 0 0 0) s).tm.lane 2 0 = 7 ∧ (ran (.resultCommit 0 0 0) s).tm.sread 3 = 9 ∧
      (ran (.resultCommit 0 0 2) (world { team0 0 with pending := [pendLdc] })).tm.lane 2 1 = 8 ∧
      (ran (.resultCommit 0 0 2) (world { team0 0 with pending := [pendLdc] })).tm.lane 2 0 = 0 ∧
      (ran (.teamRetirement 0) (world gone)).teams = [] := by
  decide +kernel

/-! ### The distributor -/

/-- A launch block: entry 0x5000, argument 77, stamp at 0x9000, the dimensions given, two lanes, six registers (Table 12-1). -/
def blockOf (q cls ballast x y stamp : Nat) : Nat :=
  0x5000 + 77 * 2 ^ 64 + stamp * 2 ^ 128 + (x - 1) * 2 ^ 192 + (y - 1) * 2 ^ 212 + 1 * 2 ^ 256 + 6 * 2 ^ 266 + cls * 2 ^ 281 +
    q * 2 ^ 284 + ballast * 2 ^ 290

def runOf (q cls ballast x y placed retired : Nat) : LaunchRun :=
  ⟨q, 1, 0x8000, BitVec.ofNat 2048 (blockOf q cls ballast x y 0x9000), 0, [], placed, retired, [0], false⟩

/-- Context 1 with the queue entries and runs given, and no team. -/
def dist (q : Nat) (entries : List LaunchEntry) (block : Nat) (runs : List LaunchRun) : State :=
  { w0 with
    teams := [], mem := tables ++ cells 0x8000 (toBytes 256 block)
    ctxs := [(1, { ctx1 with queues := [(q, ⟨entries, 0, 1⟩)], runs := runs })] }

def entry1 : LaunchEntry := ⟨0x8000, 1, false⟩

theorem test_hyp_Distributor_launches :
    ((sfind (dist 0 [] 0 []).ctxs 1).isSome = true ∧ (512 / 512 = 1 ∧ (1016 % 512 / 8 = 63)) ∧
      (getQueue (dist 63 (List.replicate 256 entry1) 0 []) 1 63).entries.length = 256) ∧
    (let s := dist 3 [entry1] (blockOf 3 2 0 4 4 0x9000) [];
      (getQueue s 1 3).entries = entry1 :: [] ∧ headRun s 1 3 = none ∧ serving s = true ∧ (reach s 1 0x8000 .read true).1 = .at_ 0x8000 ∧
        (let r := startRun 3 entry1 (BitVec.ofNat 2048 (memRead s 0x8000 256)); r.valid = true ∧ r.holdable s 1 = true)) ∧
    (let s := dist 3 [entry1] (blockOf 4 2 0 4 4 0x9000) [];
      (startRun 3 entry1 (BitVec.ofNat 2048 (memRead s 0x8000 256))).valid = false) ∧
    (let s := { dist 3 [entry1] (blockOf 3 2 0 4 4 0x9000) [] with units := { Units.all with cores := 0 } };
      let r := startRun 3 entry1 (BitVec.ofNat 2048 (memRead s 0x8000 256));
      r.valid = true ∧ r.holdable s 1 = false) ∧
    (let s := dist 3 [entry1] 0 [runOf 3 2 0 4 4 0 0];
      sget none s.running 0 = some 1 ∧ serveClass s 0 1 0 = none ∧ serveClass s 0 1 1 = none ∧ returning s 0 1 2 = [] ∧
        Machine.turnOf s 0 1 2 = some 3 ∧
        (placing s 0 1 2).find? (fun x => x.1.q == 3) = some (runOf 3 2 0 4 4 0 0, 0, 0)) ∧
    (let s := { dist 3 [] 0 [] with teams := [(0, { team0 0 with state := .swapped })] };
      returning s 0 1 1 = [(0, 0, 0)] ∧ serveClass s 0 1 0 = none ∧ (s.getTeam 0).waitv = none ∧ (s.getTeam 0).uid = 0) ∧
    (let s := dist 3 [] 0 [runOf 3 2 0 1 1 1 1];
      (getCtx s 1).runs.find? (fun r => r.q == 3 && r.over) = some (runOf 3 2 0 1 1 1 1) ∧ dirtyHeld s 0 = false ∧
        (runOf 3 2 0 1 1 1 1).ballast = false) ∧
    (let s := dist 3 [] 0 [runOf 3 7 1 1 1 1 1];
      (getCtx s 1).runs.find? (fun r => r.q == 3 && r.over) = some (runOf 3 7 1 1 1 1 1) ∧ (runOf 3 7 1 1 1 1 1).ballast = true ∧
        (getQueue s 1 3).entries.length < 256) := by
  decide +kernel

/-- The head is read, its first team placed with s20, s21 and s22 loaded, and the launch stamped with its number (R231, R234). -/
theorem test_launch_runs :
    let s := dist 3 [entry1] (blockOf 3 2 0 2 1 0x9000) []
    let a := ran (.launchHeadRead 1 3) s
    let b := ran (.teamPlacement 0) a
    let c := ran (.teamPlacement 0) b
    ((b.getTeam 1).pc, (b.getTeam 1).sread 20, (b.getTeam 1).sread 21, (b.getTeam 1).sread 22) = (0x5000, 0, 0x8000, 77) ∧
      ((c.getTeam 2).sread 20, (c.getTeam 2).core) = (1, 0) ∧ (getQueue c 1 3).entries = [] ∧
      memGet (ran (.launchCompletionStamp 1 3) (dist 3 [] 0 [runOf 3 2 0 1 1 1 1])) 0x9000 = 1 ∧
      memGet (ran (.launchHeadRead 1 3) (dist 3 [entry1] (blockOf 4 2 0 4 4 0x9000) [])) 0x9006 = 1 := by
  decide +kernel

/-- Ready queue 0 of context 1 holds a posted closure, or a control block at 0x9000 with one lane and six registers. -/
def readyState (e : ReadyEntry) : State :=
  { closState 1 closTeam with
    ctxs := [(1, { ctx1 with ready := [(0, ⟨[e], 1, 0, []⟩)] })]
    mem := tables ++ cells 0x9000 (toBytes 8 h1.toNat ++ toBytes 8 (2 ^ 32) ++ toBytes 8 (6 * 2 ^ 10)) }
def readyClosure : ReadyEntry := .closure h1 0x18000 0 9
def readyTcb : ReadyEntry := .tcb 0x9000 0 9

/-- A parked team for swapping, with another launch that does not fit on core 0 for want of rows. -/
def crowd (n : Nat) (cls : Nat) : Sparse Team :=
  (List.range n).map fun i => (i + 1, { team0 0 with uid := i + 1, part := i / 12, slot := i % 12, nreg := 6, cls := cls, lanes := 2, tbase := 102 + 6 * (i % 12) })

def swapState (t : Team) (teams : Sparse Team) : State :=
  { dist 3 [entry1] 0 [runOf 3 2 0 4 4 0 0] with teams := (0, t) :: teams }

def parked0 : Team := { team0 0 with state := .parked, wait := .fault, slot := 11 }
def ballast0 : Team := { team0 0 with cls := 7, clause := none }

theorem test_hyp_Distributor_tasks :
    (let s := readyState readyClosure;
      readyDp s 1 0 = 0 ∧ sget none s.running 0 = some 1 ∧ (serveClass s 0 1 0).isSome = false ∧ returning s 0 1 1 = [] ∧
        Machine.turnOf s 0 1 1 = some 64 ∧
        (getReady s 1 0).entries = readyClosure :: [] ∧ (readyPlace (passTurn s 0 1 64) 0 (cfgNeed 1 0x18000) (getReady s 1 0)).isSome = true ∧
        h1 ≠ 0 ∧ hCtx h1 = 1 ∧ 6 ≤ (cfgNeed 1 0x18000).nreg ∧ liveEnv s h1 = some (env1 1) ∧ (env1 1).vcount = 0 ∧
        (env1 1).ref = false ∧ (env1 1).smask = 0) ∧
    (let s := readyState readyTcb;
      (serveClass s 0 1 0).isSome = false ∧ returning s 0 1 1 = [] ∧ Machine.turnOf s 0 1 1 = some 64 ∧
        (reach (passTurn s 0 1 64) 1 0x9000 .write true).1 = .at_ 0x9000 ∧ (readyPlace s 0 (tcbNeed s 1 0x9000) (getReady s 1 0)).isSome = true ∧
        tcbClosure s 0x9000 = h1 ∧ 6 ≤ (tcbNeed s 1 0x9000).nreg ∧ liveEnv s h1 = some (env1 1)) := by
  decide +kernel

theorem test_hyp_Distributor_switches :
    (let s := { dist 3 [entry1] 0 [runOf 3 2 0 4 4 0 0] with running := [] };
      nextContext s 0 false = some 1 ∧ nextContext s 0 true = some 1 ∧ sget none s.running 0 = none) ∧
    (let s := dist 3 [entry1] 0 [runOf 3 2 0 4 4 0 0];
      let s := { s with ctxs := s.ctxs ++ [(2, ctx1)], running := [(0, some 2)] };
      nextContext s 0 false = some 1 ∧ nextContext s 0 true = some 1 ∧ canLeave s 0 2 = true ∧
        (let s := { s with teams := [(0, { team0 0 with ctx := 2, cls := 5, clause := none })] };
          nextContext s 0 false = some 1 ∧ nextContext s 0 true = some 1 ∧ canLeave s 0 2 = true ∧
            (s.getTeam 0).resident = true)) ∧
    (let s := swapState parked0 (crowd 48 1);
      (s.getTeam 0).uid = 0 ∧ coreOpen s 0 1 = true ∧ s.pools = [] ∧ (s.getTeam 0).waitv = none ∧
        { s with clock := 2 ^ 16 }.clock.toNat = 2 ^ 16 ∧ (getCtx s 1).swapThreshold.toNat = 2 ^ 16 ∧ parked0.parkedSince = 0 ∧
        ((waitingNeeds s 1 0).any fun n => poolFits s 0 n.1 && (partsOf n.2).all fun p => !fitsPart s 0 n.1 true p) = true) ∧
    (let s := swapState ballast0 (crowd 48 1);
      ((waitingNeeds s 1 0).any fun n => n.1.cls != 7 && wantsSlot s 0 n.1 n.2) = true ∧ coreOpen s 0 1 = true ∧
        ballast0.blocked = false) ∧
    (∀ e ∈ w0.thermal, e.2.step = 0) := by
  decide +kernel

/-- A dequeued task runs its closure with the block in s20 and the sequence number in s21, and its block says RUNNING (R259). -/
theorem test_dequeue :
    let t := ran (.taskDequeue 1 0) (readyState readyTcb)
    ((t.getTeam 1).pc, (t.getTeam 1).sread 20, (t.getTeam 1).sread 21, (t.getTeam 1).callDepth) = (0x6000, 0x9000, 9, 1) ∧
      memGet t 0x900C = 3 := by
  decide +kernel

theorem test_swap :
    ((swapTeam (swapState parked0 (crowd 48 1)) 0 1).getTeam 0).state = .swapped ∧
      ((ran (.swapOut ⟨0, 1⟩) { swapState parked0 (crowd 48 1) with clock := 2 ^ 16 }).getTeam 0).state = .parked ∧
      (ran (.psetWrite 0x80000123) w0).pset.next = some (0x123, true) := by
  decide +kernel

/-- Table 15-2's first rows of a team in the first word of its clause: the header's address, and the control word with word
index 1, HALTED in bit 35, tag 5 and state 4. -/
theorem test_image :
    let t := { team0 0 with state := .halted, tag := 5 }
    (t.imageRows.take 2).map (fun r => (r.1, ofBytes r.2)) = [(0, 0x5000), (8, 1 + 2 ^ 35 + 5 * 2 ^ 36 + 4 * 2 ^ 52)] := by
  decide +kernel

/-! ### Stratus, the host and the expanders -/

/-- Context 1's page 8 is mapped by a 4 KiB leaf at 0x5040, at the end of a walk of five tables (R266, R267). -/
def smallTables (leaf : DWord) : Sparse Byte :=
  [(0x1000, 1), (0x1001, 0x20), (0x2000, 1), (0x2001, 0x30), (0x3000, 1), (0x3001, 0x40), (0x4000, 1), (0x4001, 0x50)] ++
    cells 0x5040 (toBytes 8 leaf.toNat)

/-- A leaf that maps a frame with the rights R, W and X and full heat, and one that is being migrated. -/
def leafTo (frame : Nat) : DWord := BitVec.ofNat 64 (frame + 0x78F)

def small (leaf : DWord) (t : Team) : State := { world t with mem := smallTables leaf }

def quietB (s : State) : Bool :=
  s.taskEnds.isEmpty && s.stampWaits.isEmpty && s.tcbNotes.isEmpty && s.fabric.waiting.isEmpty &&
    s.teams.all fun e => e.2.pending.all fun p => p.lost.isEmpty

theorem quiet_of {s : State} (h : quietB s = true) : Unasked s := by
  simp only [quietB, Bool.and_eq_true, List.isEmpty_iff, List.all_eq_true] at h
  exact ⟨h.1.1.1.1, h.1.1.1.2, h.1.1.2, h.1.2, h.2⟩

theorem unwatched_of {s : State} (h : (s.teams.all fun e => e.2.wait != .waitv) = true)
    (g : (s.channels.all fun e => e.2.queue.all fun c => c.condPa.isNone) = true) : Unwatched s := by
  simp only [List.all_eq_true, bne_iff_ne, ne_eq, Option.isNone_iff_eq_none] at h g
  exact ⟨h, g⟩

/-- The request of team 0's core for page 8. -/
def req7 (host : Option Word) : FaultReq := ⟨7, 1, 0, [], 8, .read, host, false, false⟩

/-- Team 0 waits for request 7 for page 8; the host knows the request by a tag. -/
def asker : Team := { team0 2 with state := .parked, wait := .fault, waitReqs := [7], only := some 3, unfin := 1 }
def asked (host : Option Word) : State :=
  { small 0 asker with
    reqs := [req7 host], rings := ⟨0, 0, 0, 2 ^ 45, 1, 0, 0⟩ }

theorem waitsOn_asked (h : Option Word) : WaitsOn (asked h) 0 7 := ⟨rfl, rfl, rfl, rfl, rfl, rfl, rfl⟩

/-- The host's response: a 4 KiB page with write permission at a host frame, for tag 5 of context 1 (Table 14-4); a failure. -/
def goodRecord : BitVec 256 := BitVec.ofNat 256 ((2 ^ 45 + 0x6000) * 2 ^ 192 + 5 * 2 ^ 96 + 1 * 2 ^ 84 + 2 ^ 65)
def badRecord : BitVec 256 := BitVec.ofNat 256 (5 * 2 ^ 96 + 1 * 2 ^ 84 + 2 ^ 64)
def hostLeaf : DWord := leafTo (2 ^ 45 + 0x6000)

theorem test_hyp_Stratus_replies :
    Unasked (asked none) ∧ Unasked (asked (some 5)) ∧ WaitsOn (asked none) 0 7 ∧ WaitsOn (asked (some 5)) 0 7 ∧
    (asked none).reqs.find? (fun q => q.id == 7 && !q.migrating) = some (req7 none) ∧
    (asked none).cxlDown = 0 ∧ (asked none).rings.rspHead ≠ (asked none).rings.rspTail ∧ w0.rings.rspHead = w0.rings.rspTail ∧
    ([goodRecord, badRecord].all fun r => (asked (some 5)).reqs.find?
      (fun q => q.host == some (rspTag r) && !q.queued && q.ctx == rspCtx r) == some (req7 (some 5))) = true ∧
    rspOk (asked (some 5)) badRecord = false ∧ rspOk (asked (some 5)) goodRecord = true ∧
    (writeTables (asked none) [⟨0x5040, leafTo 0x8000⟩]).isSome = true ∧
    (writeTables { putHost (asked (some 5)) (2 ^ 45) (toBytes 32 goodRecord.toNat) with
      rings := { (asked (some 5)).rings with rspHead := 1 } } [⟨0x5040, hostLeaf⟩]).isSome = true ∧
    leafInstalled (tableWrites { putHost (asked (some 5)) (2 ^ 45) (toBytes 32 goodRecord.toNat) with
      rings := { (asked (some 5)).rings with rspHead := 1 } } [⟨0x5040, hostLeaf⟩]) 1 8 goodRecord = true := by
  refine ⟨quiet_of (by decide +kernel), quiet_of (by decide +kernel), waitsOn_asked _, waitsOn_asked _, ?_⟩
  decide +kernel

/-- A reply lets the team's unfinished lane act again, over the leaf that was installed. -/
theorem test_reply :
    let t := ran (.stratusReply 7 (.map [⟨0x5040, leafTo 0x8000⟩])) (asked none)
    (t.tm.state, t.tm.wait, t.tm.only) = (.ready, .none, some 1) ∧ memGet t 0x5040 = 0x8F ∧ t.reqs = [] ∧
      (ran (.stratusReply 7 .fatal) (asked none)).tm.fatalPages = [8] ∧
      (ran (.hostPageResponse badRecord []) (asked (some 5))).tm.hostFail = [8] := by
  decide +kernel

def loading (k : PendKind) : Team :=
  { team0 0 with pending := [⟨0x5004, 0, 0, 0, k, false, false, [(vkey 2 0, 7)], [], 0, [(0, 0x8000, 4)], [(0, 2 ^ 44 + 2 ^ 41)], [], none, false⟩] }

def walkB (s : State) (va : DWord) (a : Nat) (e : DWord) : Bool :=
  match walkCtx s 1 va with
  | .leaf x n y => x == a && n == 4096 && y == e
  | _ => false

theorem test_hyp_Stratus_pages :
    (walkB (small (leafTo 0x8000) (team0 0)) 0x8123 0x5040 (leafTo 0x8000) = true ∧
      framePinned (small (leafTo 0x8000) (team0 0)) 0x8000 4096 = false ∧ (leafTo 0x8000).getLsbD 5 = false ∧
      migrationHeld (small (leafTo 0x8000) (team0 0)) [0x5040] 0x8000 4096 = false ∧ (leafTo 0x8000).getLsbD 4 = false ∧
      (sfind w0.ctxs 1).isSome = true) ∧
    (let e := leafTo 0x8000 ||| 32;
      walkB (small e (team0 0)) 0x8FFF 0x5040 e = true ∧ framePinned (small e (team0 0)) (pteFrame e) 4096 = false ∧
        e.getLsbD 5 = true ∧ migLeafOk (small e (team0 0)) e (leafTo 0x20000) 4096 = true ∧ (small e (team0 0)).l1 = [] ∧
        (small e (team0 0)).pools = [] ∧ (small e (team0 0)).reqs = [] ∧ leafKey e = 0 ∧ leafKey (leafTo 0x20000) = 0 ∧
        (small e (team0 0)).l2 = [] ∧ migrationHeld (small e (team0 0)) [0x5040] (pteFrame e) 4096 = false) := by
  decide +kernel

/-- One channel of core 0 whose head waits for a condition word at 0x8004 (Table 10-3). -/
def condCmd : CopyCmd := { cmd0 .acquiring 0 0 with tmpl := copyTmpl 4 0 ||| BitVec.ofNat 1024 (2 ^ 24 + 0x8004 * 2 ^ 64), condPa := some 0x9004 }

theorem test_hyp_Stratus_invalidations :
    Unwatched w0 ∧ rowsUnderWay w0 (fun c => (1 : BitVec 512).getLsbD c) 1 0 0x9000 = false ∧
    (let r := { rowAcc with path := .dram, units := [(0, unit0 0)] };
      rowsUnderWay (rowState [r] engineTeam) (fun c => (1 : BitVec 512).getLsbD c) 1 0 0x9000 = true) ∧
    (let s := chanState [condCmd] [] engineTeam;
      s.rowQueue = [] ∧ s.channels = [(2048, ⟨[condCmd], [], 1, 0⟩)] ∧ 2048 / 2048 = 1 ∧ condCmd.condPa ≠ none ∧
        tCond condCmd.tmpl = 0x8004 ∧ good (engineCheck s 0 [.ahead] 1 (tCond condCmd.tmpl) 4 true false) 4 = true) := by
  refine ⟨unwatched_of (by decide +kernel) (by decide +kernel), ?_⟩
  decide +kernel

theorem pteFrame_aligned (e : DWord) : pteFrame e % 8 = 0 := by simp only [pteFrame]; omega

/-- A sweep finds leaves at multiples of 8 only, from an aligned table on. -/
theorem leavesOf_aligned : ∀ (levels : List Nat) (s : State) (table : Nat), table % 8 = 0 →
    ∀ a ∈ (leavesOf s table levels).1, a % 8 = 0
  | [], s, table, _ => by simp [leavesOf]
  | level :: rest, s, table, ht => by
    rw [leavesOf]
    refine List.foldlRecOn (motive := fun acc : List Nat × State => ∀ a ∈ acc.1, a % 8 = 0) _ _ (by simp) fun acc ih i _ => ?_
    dsimp only
    split
    · exact ih
    split
    · intro a ha
      dsimp only at ha
      split at ha
      · rcases List.mem_append.mp ha with ha | ha
        · exact ih a ha
        · simp only [List.mem_singleton] at ha; omega
      · exact ih a ha
    split
    · exact ih
    intro a ha
    rcases List.mem_append.mp ha with ha | ha
    · exact ih a ha
    · exact leavesOf_aligned rest _ _ (pteFrame_aligned _) a ha

theorem test_hyp_Stratus_sweep : (sfind w0.ctxs 1).isSome = true ∧
    ∀ a ∈ (leavesOf w0 (getCtx w0 1).root [5, 4, 3, 2, 1]).1, a % 8 = 0 ∧ heldLine w0 true (lineOf a) = false :=
  ⟨rfl, fun a ha => ⟨leavesOf_aligned _ _ _ (by decide +kernel) a ha, rfl⟩⟩

/-- A load toward port 1 is under way. -/
def remote : State := small (leafTo (2 ^ 44 + 2 ^ 41)) (loading .load)
def remoteDown : State := { remote with cxlDown := remote.cxlDown ||| 2 }

theorem test_hyp_Stratus_loads :
    portDown remoteDown (2 ^ 44 + 2 ^ 41) = true ∧ remote.tm.state = .ready ∧ remote.tm.wait = .none ∧ remote.tm.fabric.isEmpty = true ∧
    (match remote.tm.pending with
      | [p] => p.lost.isEmpty && !p.arrived && p.eas.map Prod.fst == [0] && p.port == [(0, 2 ^ 44 + 2 ^ 41)]
      | _ => false) = true := by
  decide +kernel

/-- R273's order: the leaf is marked; then the frame is copied and the leaf replaced. R271: a sweep lowers both heats. -/
theorem test_migration :
    memGet (ran (.pageMigration 1 0x8123 .start) (small (leafTo 0x8000) (team0 0))) 0x5040 = 0xAF ∧
    (let s := small (leafTo 0x8000 ||| 32) (team0 0);
      let t := ran (.pageMigration 1 0x8000 (.finish (leafTo 0x20000))) { s with mem := s.mem ++ [(0x8001, 9)] };
      memGet t 0x20001 = 9 ∧ memGet t 0x5042 = 2 ∧ memGet t 0x5040 = 0x8F) ∧
    coolLeaf 0x78F = 0x50F ∧ coolLeaf 0x28F = 0x00F := by
  decide +kernel

theorem test_errors :
    (let t := ran (.cxlLinkDown 1) remote; t.tm.state = .parked ∧ t.cxlDown = 2) ∧
    (let t := ran (.uncorrectableError [1] 0x42 0x1234 true) w0;
      t.teams = [] ∧ sfind t.fatal 1 = some 0x8000000000123442 ∧ t.badFrames = [0x12]) := by
  decide +kernel

/-! ### Networks -/

/-- One member group, two members, and the unit at 0x8000 with one contribution of 1.0 by package 6. -/
def groupState (given : List (Nat × List Byte × Byte)) : State :=
  { w0 with
    ctxs := [(1, { ctx1 with marks := [(8, 3)] })]
    fabric := { w0.fabric with
      groups := [(3, ⟨[5, 6], 0⟩)]
      rounds := if given.isEmpty then [] else [⟨3, [0x8000, 0x8001, 0x8002, 0x8003], [], 1, 0, given⟩] } }

def one32 : List Byte := [0, 0, 0x80, 0x3F]

def freshB (s : State) (q : FabIn) : Bool :=
  s.boot.stage == 2 && q.admitted && ownRequest s q && findDone s q.src q.seq == none && s.fabric.waiting.isEmpty &&
    !staleSeq s q.src q.seq && (sfind s.ctxs q.ctx).isSome

theorem fresh_of {s : State} {q : FabIn} (h : freshB s q = true) : Fresh s q := by
  simp only [freshB, Bool.and_eq_true, beq_iff_eq, List.isEmpty_iff, Bool.not_eq_true'] at h
  obtain ⟨⟨⟨⟨⟨⟨a, b⟩, c⟩, d⟩, e⟩, f⟩, g⟩ := h
  exact ⟨a, b, c, d, (by intro x hx; rw [e] at hx; cases hx), f, g⟩

def checkedB (s : State) (q : FabIn) (n : Nat) (k : ReqKind) (reads : Bool) : Bool :=
  match proxyCheck s q (exportVa s q.ctx q.off) n k reads with
  | (.ok pas, _) => pas.length == n && decide pas.Nodup
  | _ => false

def inOf (op : FabOp) : FabIn := ⟨5, 1, 1, 0x8000, op⟩

theorem test_hyp_Network_requests :
    ([FabOp.load 1, .load 64, .store one32, .atom .add 1 0, .atom .cas 1 2, .reduce 1 one32 none].all fun op =>
      freshB w0 (inOf op)) = true ∧
    checkedB w0 (inOf (.load 64)) 64 .read true = true ∧ checkedB w0 (inOf (.store one32)) 4 .write false = true ∧
    checkedB w0 (inOf (.atom .add 1 0)) 4 .write true = true ∧ checkedB w0 (inOf (.atom .cas 1 2)) 8 .write true = true ∧
    (findDone { w0 with fabric := { w0.fabric with done := [⟨5, 1, .data []⟩] } } 5 1).isSome = true ∧
    ([[], [(6, one32, 0)]].all fun l => freshB (groupState l) (inOf (.reduce 1 one32 none)) &&
      checkedB (groupState l) (inOf (.reduce 1 one32 none)) 4 .write true &&
      reductionGroup (groupState l) 1 (pageOf (exportVa (groupState l) 1 0x8000)) == some (3, ⟨[5, 6], 0⟩)) = true ∧
    freshB (groupState []) { inOf (.reduce 1 one32 none) with src := 7 } = true ∧
    combineTree 1 2 (Round.values ⟨3, [0x8000], [], 1, 0, [(6, one32, 0), (5, one32, 0)]⟩) = some ([0, 0, 0, 0x40], 0) := by
  decide +kernel

/-- A load answers the bytes, an add performs once, and the last contribution combines: 1.0 + 1.0 into 0 is 2.0. -/
theorem test_fabric :
    (let t := ran (.fabricRequest 5 1 1 0x8000 (.atom .add 0 3) true) w0;
      memGet t 0x8000 = 3 ∧ (findDone t 5 1).map FabDone.resp = some (.data [0, 0, 0, 0]) ∧
        memGet (ran (.fabricRequest 5 1 1 0x8000 (.atom .add 0 3) true) t) 0x8000 = 3) ∧
    (let t := ran (.fabricContribution 5 1 1 0x8000 1 one32 none) (groupState [(6, one32, 0)]);
      memGet t 0x8003 = 0x40 ∧ (findDone t 5 1).map FabDone.resp = some (.data [])) := by
  decide +kernel

/-- Team 0 waits for package 9's answer of request 1, resent n times. -/
def sender (n : Nat) (halted : List Nat) : State :=
  { world { team0 2 with state := .parked, wait := .fault, fabric := [⟨0, 9, 1, none⟩], unfin := 1 } with
    fabric := { w0.fabric with outstanding := [⟨9, 1, .team 0, .load 4, 0x100, n⟩], halted := halted } }

theorem test_hyp_Network_links :
    (routeOk 0 0 = true ∧ routeOk 511 (BitVec.ofNat 128 (2 ^ 102)) = true ∧ routeOk 511 (BitVec.ofNat 128 (2 + 2 ^ 96)) = false ∧ routeOk 0 (BitVec.ofNat 128 (2 ^ 96)) = true ∧
      routeOk 511 (BitVec.ofNat 128 (1 + 2 ^ 96)) = true) ∧
    ((∀ p : Fin 12, w0.fabric.down.getLsbD p.val = false) ∧ sget 0 w0.errCounters 12 = 0 ∧
      (∀ n ∈ [14, 15], sget 0 { w0.fabric with replays := [(11, n)] }.replays 11 = n)) ∧
    ([0, 7, 8].all fun n => findReq (sender n []) 9 1 == some ⟨9, 1, .team 0, .load 4, 0x100, n⟩ &&
      findReq (sender n [9]) 9 1 == some ⟨9, 1, .team 0, .load 4, 0x100, n⟩) = true ∧
    (replyFits (.load 4) (.data [0, 0, 0, 0]) = true ∧ replyFits (.load 4) .fail = true ∧ (9 : Nat) ≠ (sender 0 []).fabric.id ∧
      (sender 0 []).tm.pending = [] ∧ (⟨0, 9, 1, none⟩ : FabLane) ∈ (sender 0 []).tm.fabric ∧ (sender 0 []).tm.wait = .fault ∧
      (sender 0 []).tm.state = .parked ∧ (sender 0 []).tm.waitReqs = [] ∧ (sender 0 []).tm.reenter = false) ∧
    ((List.range 4).all fun i => backed w0 (0x8000 + i) && backed w0 (2 ^ 39 - 4 + i) &&
      lineKey w0 (lineOf (0x8000 + i)) == 0) = true ∧
    sliceStop w0 false true ((List.range 4).map (0x8000 + ·)) = none ∧ sliceStop w0 true false ((List.range 4).map (0x8000 + ·)) = none := by
  decide +kernel

theorem test_links :
    (ran (.balzalFlitReplay 11 true) { w0 with fabric := { w0.fabric with replays := [(11, 15)] } }).fabric.down = 0x800 ∧
    (ran (.balzalFlitReplay 11 true) { w0 with fabric := { w0.fabric with replays := [(11, 14)] } }).fabric.down = 0 ∧
    (ran (.fabricResponse 9 1 (.data [1, 2, 3, 4])) (sender 0 [])).tm.state = .ready ∧
    (ran (.fabricRetransmit 9 1) (sender 8 [])).tm.fabric = [⟨0, 9, 1, some .fail⟩] ∧
    (ran (.routeTableWrite 511 1 (BitVec.ofNat 128 (2 + 2 ^ 96))) w0).routeErr = true ∧
      sget 0 (ran (.routeTableWrite 0 1 (BitVec.ofNat 128 (2 ^ 96 + 2 ^ 102))) w0).routes 1 = BitVec.ofNat 128 (2 ^ 96) ∧
    memGet (ran (.hostMemoryAccess 0x8000 (.write [7, 8])) w0) 0x8001 = 8 := by
  decide +kernel

/-! ### Debugger, start-up, temperature, security -/

/-- Partition 0 is stopped, with a halted team at a header that is a member of cohort 5. -/
def haltedTeam : Team := { team0 2 with state := .halted, haltedFrom := .parked, wait := .fault, cohort := some ck5 }
def stoppedState : State :=
  { world haltedTeam with cohorts := [(ck5, coh [(0, 0)] [])], dbg := { w0.dbg with halted := [0] } }

/-- A stepped member of a cohort that has arrived at barrier 3. -/
def stepped (arr : BitVec 16) (halted : List Nat) : State :=
  { world { team0 2 with stepping := true, cohort := some ck5, arr := [(3, arr)] } with
    dbg := { w0.dbg with stepCohort := [(0, ck5)], halted := halted } }

/-- A member that is swapped out. -/
def swappedMember : State :=
  { world { team0 2 with state := .swapped, cohort := some ck5 } with cohorts := [(ck5, coh [(0, 0)] [])] }

def stoppedEngines : State := { rowState [rowAcc] engineTeam with dbg := { w0.dbg with engStop := [(0, 0x1FF)] } }

theorem test_hyp_DebugStepsStopAndResume :
    ((sfind w0.teams 0).isSome = true ∧ w0.tm.partKey = 0 ∧ w0.tm.state = .ready) ∧
    (0 ∈ stoppedState.dbg.halted ∧ (stoppedState.getTeam 0).partKey = 0 ∧ (stoppedState.getTeam 0).state = .halted ∧
      (stoppedState.getTeam 0).wait = .fault ∧ (stoppedState.getTeam 0).pending = [] ∧
      (stoppedState.getTeam 0).haltedFrom = .parked) ∧
    (getCohort stoppedState (cohKey 1 5) = some (coh [(0, 0)] []) ∧ (coh [(0, 0)] []).dp = 0 ∧
      (stoppedState.getTeam 0).cohort = some (cohKey 1 5) ∧ getCohort swappedMember (cohKey 1 5) = some (coh [(0, 0)] []) ∧
      (swappedMember.getTeam 0).state = .swapped ∧ (swappedMember.getTeam 0).cohort = some (cohKey 1 5)) ∧
    ([[], [0]].all fun l => (stepped 8 l).dbg.stepCohort != [] && ((stepped 8 l).getTeam 0).stepping &&
      ((stepped 8 l).getTeam 0).state == .ready && ((stepped 8 l).getTeam 0).arr != ((stepped 7 l).getTeam 0).arr &&
      ((stepped 8 l).getTeam 0).cohort == ((stepped 7 l).getTeam 0).cohort &&
      (l.contains ((stepped 8 l).getTeam 0).partKey == !l.isEmpty)) = true ∧
    (nthStream gale0 0 (4 - 4) = some str0 ∧ str0.msta = none ∧ (getEngine gale0 0).streams = [str0] ∧ str0.stopped = false ∧
      ([1, 2, 3].all fun j => (nthStream gale0 0 j).isNone) = true ∧ gale0.dbg.engStop = []) ∧
    ([0, 1, 2, 3, 8].all (sget 0 stoppedEngines.dbg.engStop 0).getLsbD = true ∧ findRow stoppedEngines rowAcc.id = some rowAcc ∧
      rowAcc.core = 0) := by
  decide +kernel

theorem test_debug :
    ((ran (.partitionStop 0 0) w0).tm.state, (ran (.partitionStop 0 0) w0).tm.haltedFrom) = (.halted, .ready) ∧
    (ran (.partitionResume 0 0) stoppedState).tm.state = .parked ∧
    (ran (.phaseStep 0 1 5) stoppedState).tm.stepping = true ∧ (noteSteps (stepped 7 [0]) (stepped 8 [0])).tm.state = .halted ∧
    (noteSteps (stepped 7 []) (stepped 8 [])).tm.state = .ready ∧ (ran (.phaseStep 0 1 5) swappedMember).tm.stepping = true ∧
    (ran (.dbgEngChannelStop 0 3) w0).dbg.engStop = [(0, 8)] ∧
    ((nthStream (ran (.dbgEngStreamStop 0 0) gale0) 0 0).map Stream.stopped) = some true := by
  decide +kernel

/-- Readings in sixteenths of a degree, valid in bit 31 (Table 18-4). -/
def reading (t : Int) : Word := BitVec.ofInt 32 t + 0x80000000

/-- Every sensor reads the same. -/
def atTemp (t : Int) : State := { w0 with sensors := (List.range 104).map fun n => (n, reading t) }
def started : State := { w0 with boot := { w0.boot with stage := 1 } }

theorem test_hyp_StartupTemperatureAndSecuritySteps :
    (State.reset.boot.stage = 0 ∧ w0.power = .on ∧ w0.boot.stage ≠ 0 ∧ started.boot.stage = 1) ∧
    (Passes State.reset (some ⟨0, 5⟩) ⟨0, 5⟩ ∧
      (∀ w, ¬Passes { State.reset with boot := { State.reset.boot with rollback := 1 } } (some ⟨0, 5⟩) w) ∧
      Passes { State.reset with boot := { State.reset.boot with rollback := 1 } } (some ⟨1, 0⟩) ⟨1, 0⟩) ∧
    (sensorTemp (sensor (atTemp (celsius 122)) 103) = some (celsius 122) ∧
      sensorTemp (sensor (atTemp (celsius 122 - 1)) 0) = some (celsius 122 - 1)) ∧
    (sensorTemp (hottestDp (atTemp (celsius 112)) 3) = some (celsius 112)) ∧
    ((0 : Nat) < sget 0 [(7, 2)] 7 ∧ 32 ≤ sget 0 [(coolKey 7 1, 32)] (coolKey 7 (2 - 1))) ∧
    (canon L2Line.blank w0.l2 = true ∧ w0.l1 = []) ∧ ([none, some (2 ^ 42 + 1)] : List (Option Nat))[1]? = some (some (2 ^ 42 + 1)) := by
  refine ⟨by decide +kernel, ⟨⟨rfl, by decide +kernel⟩, ?_, ⟨rfl, by decide +kernel⟩⟩, ?_⟩
  · rintro w ⟨h, h'⟩
    cases h
    exact absurd h' (by decide)
  · decide +kernel

/-- A line under key 5 in the L2. -/
def keyed : State := { w0 with l2 := [(0x80, ⟨5, true, 0, 0⟩)] }

theorem test_hyp_keyClear : canon L2Line.blank keyed.l2 = true ∧ keyed.l1 = [] ∧ lineKey keyed 0x80 = 5 ∧
    ∀ ln, lineKey keyed ln = 5 → ln * 256 / 2 ^ 44 ≠ 2 ∧ portDown keyed (ln * 256) = false ∧ capturedAt keyed (ln * 256) = false := by
  refine ⟨by decide +kernel, rfl, rfl, fun ln h => ?_⟩
  by_cases e : ln = 0x80
  · subst e; decide +kernel
  · rw [show lineKey keyed ln = 0 by simp [lineKey, keyed, sfind, e]] at h
    cases h

/-- Table 18-2's stages and errors; the trip at 122 °C; the step rises at 112 °C; the refresh multipliers of R323. -/
theorem test_startup :
    (let f := fun a b ok => (ran (.powerGood a b ok) State.reset).boot;
      let v := fun n : Nat => some (⟨n, 7⟩ : FwCopy);
      ((f (v 0) none true).stage, (f (v 0) none true).error) = (1, 0) ∧ ((f none (v 3) true).secVersion, (f none (v 3) true).error) = (3, 1) ∧
        ((f none none true).stage, (f none none true).error) = (3, 2) ∧ (f (v 0) none false).error = 4 ∧ (f (v 0) none true).digest = 7) ∧
    (ran .thermalTrip (atTemp (celsius 122))).power = .tripped ∧ (ran .thermalTrip (atTemp (celsius 122 - 1))).power = .on ∧
    ((getThermal (ran (.thermalEvaluation 3) (atTemp (celsius 112))) 3).step, (getThermal (ran (.thermalEvaluation 3) (atTemp (celsius 112 - 1))) 3).step) =
      (1, 0) ∧
    ((List.range 3).map fun i => sget 0 (ran (.tsensRefresh (List.replicate 104 (reading (celsius 85 + 160 * i + (i : Int))))) w0).refreshMult 7) =
      [0, 2, 2] ∧
    (let t := ran .fullFunction { started with expanders := [none, some (2 ^ 42 + 1), some (3 * 2 ^ 30 + 5)] };
      t.boot.stage = 2 ∧ t.units.ports.getLsbD 0 = false ∧ t.units.cxl[1]? = some (2 ^ 41) ∧ t.units.cxl[2]? = some (3 * 2 ^ 30)) ∧
    (ran (.psetWrite 0) w0).boot.stage = 2 := by
  decide +kernel

/-! ### Management registers and contexts -/

def setup : CtxSetup := ⟨0x2000, 0x4000, [5], [], 4096, 0, [], [], 0, 0, []⟩

theorem test_hyp_ManagementAndContextSteps :
    ((0x200004 : Nat) % 8 ≠ 0 ∧ (0x23FFF8 : Nat) < 0x240000 ∧ ¬Written 0x210008) ∧
    (w0.reqs = []) ∧
    SetupOk w0 2 setup ∧ SetupOk w0 4095 { setup with swapThreshold := 2 ^ 24 } ∧ ¬SetupOk w0 1 setup ∧ ¬SetupOk w0 4096 setup ∧
    (sfind w0.ctxs 1).isSome = true ∧
    (let s := dist 3 [] 0 [runOf 3 2 0 1 1 1 0];
      let s := { s with ctxs := [(1, { getCtx s 1 with queues := [] })] };
      (getCtx s 1).runs = [runOf 3 2 0 1 1 1 0] ∧ (getCtx s 1).queues = [] ∧ (runOf 3 2 0 1 1 1 0).stampAddr = 0x9000 ∧
        (reach s 1 0x9000 .write false).1 = .at_ 0x9000) := by
  refine ⟨⟨by decide, by decide, ?_⟩, rfl, ?_, ?_, ?_, ?_, by decide +kernel⟩
  · simp only [Written]; decide
  all_goals simp only [SetupOk]; decide +kernel

theorem test_management :
    (ran (.mgmtRegisterWrite 0x200000 0x12345FFF false) w0).rings.reqBase = 0x12345000 ∧
    (ran (.mgmtRegisterWrite 0x230008 8 true) w0).dbg.bkptEn = [1] ∧
    (ran (.mgmtRegisterWrite 0x230008 8 false) w0).dbg.bkptEn = [] ∧ (ran (.mgmtRegisterWrite 0x230000 1 true) w0).tm.state = .halted ∧
    (ran (.mgmtRegisterWrite 0x230000 2 true) stoppedState).dbg.halted = [] ∧
    (ran (.mgmtRegisterWrite 0x234000 0x10005 true) stoppedState).tm.stepping = true ∧
    sget 0 (ran (.mgmtRegisterWrite 0x238008 0x1FF true) w0).dbg.engStop 1 = 0x1FF ∧
    (ran (.mgmtRegisterWrite 0x240218 0x1122 false) w0).sec.keyData.getD 16 0 = 0x22 ∧
    (getQueue (ran (.mgmtRegisterWrite 0x218 0x8000 false) w0) 1 3).entries.length = 1 ∧
    (sfind (ran (.contextCreation 2 setup) w0).ctxs 2).map Context.root = some 0x2000 ∧
    (ran (.contextDestruction 1) w0).teams = [] ∧ sfind (ran (.contextDeclaredFatal 1 7) w0).fatal 1 = some 0x8000000000000007 := by
  decide +kernel

open Sys2Proof Sys2Proof.Machine Sys2Proof.Safety Sys2Proof.Statements

/-! ### Lanes that fault (R89, R272, R279, R280) -/

/-- Lane 0 addresses the end of the mapped GiB less an odd byte, lane 1 a page that is absent. -/
def oddTeam : Team := { team0 2 with s := [(2, 0x8001)], v := [(vkey 0 1, 16)] }
def absentTeam : Team := { team0 2 with s := [(2, 0x8000)], v := [(vkey 0 1, 0x40000000)] }

/-- Every fault is a trap kind and the trap can be taken, or a page is waited for. -/
def faultHyp (x : State) (fs : List (Nat × LaneFault)) : Bool :=
  !fs.isEmpty && ((fs.all fun f => (f.2 matches .code _)) || (fs.any fun f => f.2.translation) && fs.all fun f => !(f.2 matches .bad _)) &&
    !x.tm.inHandler && !x.tm.blocked && (getCtx x x.tm.ctx).trapEntry != 0 && x.tm.callHw.isEmpty

def loadFaultHyp (i : Instr) (r : Reg) (m : MemOp) (n : Nat) (how : Site) (aligned : Bool) (before : State → State) (s : State) : Bool :=
  let b := before (issued s)
  let x := loadLanes b.tm how true aligned n m (b.tm.memLanes r) b
  issuesB s i && faultHyp x.1 x.2.2

def storeFaultHyp (i : Instr) (r : Reg) (m : MemOp) (n : Nat) (how : Site) (slots aligned : Bool)
    (before : State → Option State) (s : State) : Bool :=
  match before (issued s) with
  | none => false
  | some b =>
    let x := eachLane (b.tm.memLanes r) (fun s l =>
      if aligned && (memAddr b.tm m l).toNat % n != 0 then (.error [.code 0x07], s)
      else storeLane b.tm r how slots true n (memAddr b.tm m l) s l) b
    issuesB s i && faultHyp x.1 x.2.2

theorem test_hyp_LoadWordsComplete_faults :
    ([(Instr.ldB (.v 4) op0 0, 1), (.ldH (.v 4) op0 0, 2), (.ldW (.v 4) op0 0, 4), (.ldD (.v 4) op0 0, 8), (.ldQ 4 op0 0, 16)].all
      fun p => loadFaultHyp p.1 (.v 4) op0 p.2 .plain false id (world absentTeam)) = true ∧
    loadFaultHyp (.ldu (.v 4) op0 0) (.v 4) op0 4 .home false id (world absentTeam) = true ∧
    ([oddTeam, absentTeam].all fun t => [Scope.core, .dev].all fun sc =>
      loadFaultHyp (.ldAcq (.v 4) op0 sc false) (.v 4) op0 4 (if sc.far then .far else .plain) true
        (fun s => acquireAt sc.far s s.cur) (world t)) = true ∧
    ([(Instr.ldcW 4 op0 1, 4), (.ldcQ 4 op0 1, 16)].all fun p =>
      let s := world absentTeam
      let x := loadLanes (issued s).tm .plain false false p.2 op0 s.tm.wordLanes (issued s)
      issuesB s p.1 && faultHyp x.1 x.2.2) = true := by
  decide +kernel

theorem test_hyp_StoreWordsComplete_faults :
    ([(Instr.stB (.v 4) op0 0, 1, false), (.stH (.v 4) op0 0, 2, false), (.stW (.v 4) op0 0, 4, true), (.stD (.v 4) op0 0, 8, true),
        (.stQ 4 op0 0, 16, false)].all
      fun p => storeFaultHyp p.1 (.v 4) op0 p.2.1 .plain p.2.2 false some (world absentTeam)) = true ∧
    storeFaultHyp (.stu (.v 4) op0 0) (.v 4) op0 4 .home false false some (world absentTeam) = true ∧
    ([oddTeam, absentTeam].all fun t => [Scope.core, .dev].all fun sc =>
      storeFaultHyp (.stRel (.v 4) op0 sc false) (.v 4) op0 4 (if sc.far then .far else .plain) false true
        (releaseFirst sc.relTo (sc == .coh)) (world t)) = true := by
  decide +kernel

theorem test_hyp_AtomicWordsReadAndWriteOnce_faults :
    ([oddTeam, absentTeam].all fun t => [Acc.atomic, .red].all fun a =>
      let s := world t
      let x := eachLane s.tm.wordLanes (atomLane (issued s).tm a .add 4 op0) (issued s)
      faultHyp x.1 x.2.2) = true ∧
    ([oddTeam, absentTeam].all fun t => issuesB (world t) (.atom .add 4 op0) && issuesB (world t) (.red .add 4 op0)) = true := by
  decide +kernel

/-- A misaligned LD.acq traps with kind 7 and both lanes in TRAPINFO; a store to a page that migrates parks the team with
both lanes unfinished. -/
theorem test_lane_faults :
    (ran (.ldAcq (.v 4) op0 .dev false) (world oddTeam)).tm.trapInfo = 7 + 3 * 2 ^ 32 ∧
    (let t := ran (.stW (.v 4) op0 0) (small (leafTo 0x8000 ||| 32) memTeam);
      t.tm.state = .parked ∧ t.tm.unfin = 3 ∧ t.reqs.map FaultReq.page = [8]) := by
  decide +kernel

/-- The checks of a lane: a non-canonical address, an absent page, one known as fatal or as failed at the host, and a race. -/
theorem test_hyp_LanesReadAndWriteTheirBytes_checks :
    canonical (2 ^ 60) = false ∧ (canonical 0x40000000 = true ∧ inAperture 0x40000000 4 = false ∧ inFabric 0x40000000 = false) ∧
    (translateBytes wm 0 (teamTlbs wm.tm) 1 0x40000000 4 .read).1 = .fault [0x40000] ∧
    (let s := bundleState memTeam [(0, bnd .entered [9] .own)] 4;
      raceOf s s.tm .load false [0x8000] = some 0) := by
  decide +kernel

/-- Deeper than the scratchpad has slots for: the oldest of 16 frames cannot be spilled. -/
def noSpill : State := world { deep with scratchSize := 0, callDepth := 16 }

theorem test_hyp_TrapsThatCannotBeTakenEndTheTeam_spill : ¬CanPush noSpill ∧ noSpill.tm.blocked = false ∧ Issues (.trap 0) noSpill := by
  refine ⟨?_, by decide +kernel, issues_of (by decide +kernel)⟩
  simp only [CanPush]; decide +kernel

/-! ### Observations that wait -/

/-- A ROWSTAT that is to acquire waits for a command of the team. -/
def acquiringTeam : Team := { engineTeam with pending := [⟨0x5000, 0, 0, 0, .rowWait 9 1 (some .dev), false, false, [], [], 0, [], [], [], none, false⟩] }
def acqState : State := { rowState [row0] acquiringTeam with nextRow := 1 }

theorem test_hyp_observations_wait :
    acqState.tm.awaitsRows = true ∧ acqState.tm.state = .ready ∧ issuesB acqState (.xptr 1 2 true .dev) = true ∧
      issuesB acqState (.rowstatPoll 8 true .dev) = true ∧ acqState.tm.rowOut = 0 ∧
      (issuesB (rowState [] engineTeam) (.rowstatPoll 8 true .dev) = true ∧ EScope.dev.far = true ∧
        (rowState [] engineTeam).tm.rowOut = 0 ∧ (rowState [] engineTeam).tm.awaitsRows = false) := by
  decide +kernel

/-- The second observation waits at its word (R184 note 6). -/
theorem test_observations_wait :
    (ran (.xptr 1 2 true .dev) acqState).tm.state = .stalled ∧ (ran (.xptr 1 2 false .dev) acqState).tm.state = .ready ∧
      (ran (.rowstatPoll 8 true .dev) acqState).tm.state = .stalled := by
  decide +kernel

/-! ### Reductions, parts and closures of copies -/

/-- A template that reduces: element i of record 0 is added to element i of record 1. -/
def redTmpl (kind : Nat) : BitVec 1024 := copyTmpl 4 0 ||| BitVec.ofNat 1024 (kind * 2 ^ 16)

theorem test_copy_reduce :
    tReduce (redTmpl 1) = 1 ∧
    (let s := { chanState [{ cmd0 .running 1 0 with tmpl := redTmpl 1 }] [] engineTeam with
        mem := tables ++ cells 0x8004 [0, 0, 0x80, 0x3F] ++ cells 0x9004 [0, 0, 0x80, 0x3F] };
      let t := ran (.copyUnit 0 0) s;
      (List.range 4).map (fun i => memGet t (0x9004 + i)) = [0, 0, 0, 0x40]) := by
  decide +kernel

/-- A part of a copy's unit in the fabric window, at package 5; the head has sent its request and has the answer. -/
def fabVa : DWord := 0x00FE005000001000
def withFab (f : List FabLane) : State :=
  let s := chanState [{ cmd0 .running 0 0 with fab := f }] [] engineTeam
  { s with boot := { s.boot with stage := 2 } }

def fabAnswers : List FabReply := [.data [1, 2, 3, 4], .fail, .outside, .race 7]

/-- The part asks, waits, and ends with each answer; a part in memory has its addresses; one that is not mapped waits, and
a non-canonical one is fatal. -/
theorem test_hyp_CopyStepsMoveUnits_parts :
    ((engineCheck (withFab []) 0 [.ahead] 1 fabVa 4 true false).1 matches .fabric 5 0x1000) ∧
    (partAt (withFab []) 2048 0 0 (cmd0 .running 0 0) 0 fabVa 4 true false (.load 4)).1 = .wait ∧
    ((none :: fabAnswers.map some).map fun r =>
      (partAt (withFab [⟨0, 5, 0, r⟩]) 2048 0 0 (cmd0 .running 0 0) 0 fabVa 4 true false (.load 4)).1) =
      [.wait, .ok (.remote [1, 2, 3, 4]), .stop 3, .stop 1, .race 7] ∧
    (partAt (withFab []) 2048 0 0 (cmd0 .running 0 0) 0 0x8000 4 true false (.load 4)).1 = .ok (.mem [0x8000, 0x8001, 0x8002, 0x8003]) ∧
    ((engineCheck (withFab []) 0 [.ahead] 1 (2 ^ 60) 4 true false).1 matches .fatal) = true := by
  decide +kernel

/-- The parts of a unit with records a and b: a reduction of binary32, a copy of MXFP8 blocks with their scales, and units
beyond a record. -/
def pairUnit (kind : Nat) (a b : TRec) (unit : Nat) : CopyCmd × State :=
  let c := { cmd0 .running unit 0 with tmpl := redTmpl kind, srcRec := a, dstRec := b }
  (c, chanState [c] [] engineTeam)

def partsGood (x : CopyCmd × State) : Bool :=
  let c := x.1
  let f := fun (r : TRec) (e : Nat) (s : State) => twoParts
    (fun s => partAt s 2048 0 0 c 0 (unitAddr r e) (unitBytes (recFmt r)) true true (.load 1))
    ((scaleAddr r e).map fun a s => partAt s 2048 0 0 c 1 a 1 true true (.load 1)) s
  let p := f c.srcRec (tSrc c.tmpl c.unit).toNat x.2
  let q := f c.dstRec (tDst c.tmpl c.unit).toNat p.2
  headCmd x.2 0 0 == some (2048, c) && (p.1 matches .ok (.mem _, _)) &&
    match q.1 with
    | .ok (.mem pas, y) => decide pas.Nodup && (placed y).all fun a => !pas.contains a
    | _ => false

theorem test_hyp_CopyStepsMoveUnits_units :
    partsGood (pairUnit 1 (rec32 0x8000 4) (rec32 0x9000 4) 3) = true ∧
    partsGood (pairUnit 0 (recOf 6 0x8000 32 1) (recOf 6 0x9000 32 1) 0) = true ∧
    partsGood (pairUnit 3 (recOf 6 0x8000 32 1) (recOf 6 0x9000 32 1) 0) = true ∧
    (recSize (pairUnit 0 (rec32 0x8000 2) (rec32 0x9000 4) 2).1.srcRec : ℤ) ≤ tSrc (redTmpl 0) 2 ∧
    (recSize (rec32 0x9000 3) : ℤ) ≤ tDst (redTmpl 0) 3 := by
  decide +kernel

/-- A completion with a closure: a live one, one that fails its checks, one at its limit. -/
def closing (count : Nat) (h : DWord) : State :=
  { chanState [{ cmd0 .completing 4 0 with tmpl := copyTmpl 4 0 ||| BitVec.ofNat 1024 (h.toNat * 2 ^ 320) }] [] engineTeam with
    envs := [(0, env1 count)] }

theorem test_hyp_CopyStepsMoveUnits_closures :
    (match (checkHandle (closing 1 h1) 1 h1).toOption with | some e => e.count == 1 | none => false) = true ∧
    (checkHandle (closing 1 h1) 1 (h1 + 0x0001000000000000)).toOption = none ∧
    (match (checkHandle (closing 65535 h1) 1 h1).toOption with | some e => e.count == 65535 | none => false) = true ∧
    postedCount (getReady (closing 1 h1) 1 0) < 4096 ∧
    ((getChan (closing 1 h1) 2048).queue.map fun c => (tClosure c.tmpl, c.status, c.state)) = [(h1, 0, .completing)] := by
  decide +kernel

/-- The closure is posted in the ready queue, with one reference more. -/
theorem test_copy_closure :
    let t := ran (.copyCompletion 0 0) (closing 1 h1)
    ((liveEnv t h1).map Env.count) = some 2 ∧ ((getReady t 1 0).entries.length) = 1 ∧ (getChan t 2048).queue = [] := by
  decide +kernel

/-! ### Captures -/

theorem test_hyp_CaptureWordsMakeEnvironments_runs :
    LowestFree (takenRuns wc 0) 1 (some 1) ∧ LowestFree (takenRuns fullStore 0) 1 none := by
  have h : takenRuns wc 0 = [(0, 1)] := by decide +kernel
  have g : takenRuns fullStore 0 = [(0, 4096)] := by decide +kernel
  rw [h, g]
  refine ⟨⟨?_, by simp⟩, by simp, fun _ y hy => ?_⟩
  · rintro x hx
    obtain rfl : 1 = x := Option.some.inj hx
    refine ⟨⟨by omega, by simp⟩, fun y hy ⟨_, hf⟩ => ?_⟩
    have := hf (0, 1) (by simp)
    omega
  · have := hy.2 (0, 4096) (by simp)
    have := hy.1
    dsimp only at *
    omega

/-- CAPT.lane gives the lanes their environments in ascending order; where the store is full, null handles. -/
theorem test_capt_lane :
    let lanes := fun s : State => let t := ran (.captLane 7 8) s; [t.tm.lane64 0 0, t.tm.lane64 0 1]
    lanes wc = [0x0001000008008000, 0x0001000010008000] ∧ lanes fullStore = [0, 0] := by
  decide +kernel

/-! ### Extent lists, launches and retirement -/

/-- A list in an absent page, and one whose entries run into it. -/
theorem test_hyp_DeclarationsMakeBundles_faults :
    let s := { declState with teams := [(0, { bundleTeam with s := [(5, 0x40000000)] })] }
    issuesB s (.bdeclList 5 9 7 10) = true ∧
      ((listLines (issued s) (issued s).tm 0x40000000).1 matches .error (_ :: _)) ∧
      ((loadLane (issued s).tm .plain false 16 0x40000000 (issued s) 0).1 matches .error (_ :: _)) ∧
      ((loadLane (issued declState).tm .plain false 16 0xA000 (issued declState) 0).1 matches .ok _) ∧
      (match loadLane (issued declState).tm .plain false 16 0xA000 (issued declState) 0 with
        | (.ok bs, s1) => (match (listEntries s1 (issued declState).tm 0xA000 0 (ofBytes bs % 32)).1 with | .ok [_] => true | _ => false)
        | _ => false) = true := by
  decide +kernel

/-- Places for the images of every resident team, whose lines no row command holds. -/
theorem test_hyp_Distributor_images :
    let s := swapState parked0 []
    imageFree s 0 0x100000 = true ∧ savesOk s 0 1 [(0, 0x100000)] = true ∧ savesOk s 0 1 [] = false := by
  decide +kernel

theorem test_hyp_TeamStepsFetchDrainCommitAndRetire_references :
    (let s := closState 2 { gone with k := [(1, h1)] };
      s.tm.k.map Prod.snd = [h1] ∧ s.tm.busy s = false ∧ dirtyHeld s 0 = false ∧ namedEnv s h1 = some (env1 2) ∧
        s.tm.cohort = none ∧ s.tm.origin = .launch 1 0 1) ∧
    (let s := closState 1 { gone with origin := .entry h1 };
      s.tm.k = [] ∧ s.tm.busy s = false ∧ namedEnv s h1 = some (env1 1)) := by
  decide +kernel

/-- The k-register's reference is given up with the team; the last one frees the environment. -/
theorem test_retire :
    (namedEnv (ran (.teamRetirement 0) (closState 2 { gone with k := [(1, h1)] })) h1).map Env.count = some 1 ∧
    namedEnv (ran (.teamRetirement 0) (closState 1 { gone with origin := .entry h1 })) h1 = none := by
  decide +kernel

/-- EXIT by the last lanes takes the team out of its cohort; a cohort with another member stays when one leaves. -/
theorem test_exit_leave :
    let s := joinState 5 (some ck5) [(ck5, coh [(0, 0), (1, 7)] [])]
    (ran .exit s).tm.cohort = none ∧ (ran .exit s).tm.state = .stalled ∧ issuesB s .leave = true ∧
      ((getCohort (ran .leave s) ck5).map Cohort.members) = some [(1, 7)] := by
  decide +kernel

/-! ### Elements of tiles -/

theorem test_hyp_MatrixEngineStepsComputeTiles_rerun :
    let m := { runMma true with failed := true }
    let x := { xInt with mma := some m }
    let s := { gale2 with engines := [(0, ⟨[x], { Tile.zero with int := true }, .zero, [(0, intImg)], none, 0, 1⟩)] }
    (getEngine s 0).streams.find? (fun y => y.granted && y.canRun && y.mma.isSome) = some x ∧ (latchStep s 0 x m).isSome = true ∧
      m.failed = true ∧ (ran (.mmaChunk 0 false) s).teams = [] := by
  decide +kernel

/-- 1.5 in an accumulator (R102), as MSTA writes it in each format, and an MXINT8 block of it and 31 zeros: scale 127, code
0x60 (R99). -/
theorem test_msta_formats :
    let t : Tile := { Tile.zero with acc := [(0, 0x3FC0000000)] }
    ([MstaFmt.f32, .bf16, .f16].map fun f => ofBytes (mstaElem f false t 0 0)) = [0x3FC00000, 0x3FC0, 0x3E00] ∧
      ((mstaRow (recOf 9 0x9000 32 1) .int8 false t 0).map fun p => (p.1, p.2.head?)) = [(0x9000, some 0x60), (0x9100, some 127)] := by
  decide +kernel

def one : Block := ⟨[1], 0, [none], 127⟩

/-- A sum in float mode rounds once: 2^31 + 1 needs 32 bits and stays; 2^32 + 1 does not (R102). -/
theorem test_accumulator_rounds :
    (accumulate false 0x4F00000000 [(one, one)]).1 = 0x4F00000001 ∧ (accumulate false 0x4F80000000 [(one, one)]).1 = 0x4F80000000 := by
  decide +kernel

end Sys2Proof.Tests
end

section
/-! SUPPORT. The management register space: what a write to each register does (R5, R277, R305, R325). -/

open Sys2Proof Sys2Proof.Machine Sys2Proof.Safety Sys2Proof.Statements

namespace Sys2Proof.Machine

/-! ### Fields of the value written -/

theorem field_toNat (v : DWord) (lo n : Nat) : field v.toNat lo n = (v.extractLsb' lo n).toNat :=
  (BitVec.extractLsb'_toNat lo n v).symm

theorem ringBase_eq (v : DWord) : ringBase v = v &&& ~~~4095 := by
  refine BitVec.eq_of_getLsbD_eq fun i hi => ?_
  have h : (4095 : DWord) = BitVec.ofNat 64 (2 ^ 12 - 1) := rfl
  change (BitVec.ofNat 64 (v.toNat / 2 ^ 12 * 2 ^ 12)).getLsbD i = _
  rw [h, BitVec.getLsbD_ofNat, BitVec.getLsbD_and, BitVec.getLsbD_not, BitVec.getLsbD_ofNat,
    Nat.testBit_two_pow_sub_one, Nat.testBit_mul_two_pow, Nat.testBit_div_two_pow]
  by_cases hb : i < 12
  · simp [hb, Nat.not_le.mpr hb]
  · simp [hi, hb, Nat.not_lt.mp hb, BitVec.testBit_toNat]

/-! ### Offsets -/

/-- A write that is aligned and, for a debug register, comes through the port, is performed (R5, R305). -/
theorem exec_mgmtRegisterWrite (s : State) (off : Nat) (v : DWord) (byPort : Bool) (ha : off % 8 = 0)
    (hd : 0x230000 ≤ off → off < 0x240000 → byPort = true) :
    exec (.mgmtRegisterWrite off v byPort) s = .next (mgmtWrite s off v) := by
  show execMgmtRegisterWrite off v byPort s = _
  rw [execMgmtRegisterWrite, if_neg]
  cases byPort with
  | true => simp [ha]
  | false => simpa [ha, debugOffset] using hd

theorem mgmtWrite_of_not_written (s : State) (off : Nat) (v : DWord) (h : ¬Written off) : mgmtWrite s off v = s := by
  simp only [Written, List.mem_cons, List.not_mem_nil, or_false, not_or] at h
  simp only [mgmtWrite, Bool.and_eq_true, decide_eq_true_eq, beq_iff_eq]
  simp (disch := omega) only [if_neg]

theorem exec_mgmtRegisterWrite_ignored (s : State) (off : Nat) (v : DWord) (byPort : Bool)
    (h : off % 8 ≠ 0 ∨ (0x230000 ≤ off ∧ off < 0x240000 ∧ byPort = false) ∨ ¬Written off) :
    exec (.mgmtRegisterWrite off v byPort) s = .next s := by
  show execMgmtRegisterWrite off v byPort s = _
  rw [execMgmtRegisterWrite]
  split
  · rfl
  · next hw =>
    rcases h with ha | ⟨hlo, hhi, hp⟩ | hn
    · simp [ha] at hw
    · simp [debugOffset, hlo, hhi, hp] at hw
    · rw [mgmtWrite_of_not_written s off v hn]

section Registers
variable (s : State) (v : DWord)

theorem mgmtWrite_aperture (off : Nat) (h : off < 0x200000) : mgmtWrite s off v = postAperture s off v := if_pos h

theorem mgmtWrite_dbgPart (k : Nat) (h : k < 2048) : mgmtWrite s (0x230000 + 8 * k) v = writePart s k v := by
  simp (disch := omega) [mgmtWrite, if_neg, if_pos]

theorem mgmtWrite_dbgPhase (dp : Nat) (h : dp < 4) : mgmtWrite s (0x234000 + 8 * dp) v =
    phaseStep s dp (v.extractLsb' 16 12).toNat (v.extractLsb' 0 16).toNat := by
  simp (disch := omega) [mgmtWrite, if_neg, if_pos, field_toNat]

theorem mgmtWrite_dbgEng (core : Nat) (h : core < 512) : mgmtWrite s (0x238000 + 8 * core) v =
    setEng s core (v.extractLsb' 0 9) := by
  have hv : v.setWidth 9 = v.extractLsb' 0 9 := BitVec.eq_of_toNat_eq rfl
  simp (disch := omega) [mgmtWrite, if_neg, if_pos, hv]

theorem mgmtWrite_keyData (k : Nat) (h : k < 9) : mgmtWrite s (0x240208 + 8 * k) v =
    { s with sec := { s.sec with keyData := putBuffer 72 s.sec.keyData (8 * k) v } } := by
  simp (disch := omega) [mgmtWrite, if_neg, if_pos]

theorem mgmtWrite_kemCt (k : Nat) (h : k < 136) : mgmtWrite s (0x241000 + 8 * k) v =
    { s with sec := { s.sec with kemCt := putBuffer 1088 s.sec.kemCt (8 * k) v } } := by
  simp (disch := omega) [mgmtWrite, if_neg, if_pos]

theorem mgmtWrite_pset : mgmtWrite s 0x240100 v = psetWrite s v := by
  simp [mgmtWrite]

theorem mgmtWrite_keyCmd : mgmtWrite s 0x240200 v = writeKeyCmd s v := by
  simp [mgmtWrite]

end Registers

/-! ### DBG_PART (Table 17-1) -/

theorem mem_setBkptEn (s : State) (k j : Nat) (on : Bool) :
    j ∈ (setBkptEn s k on).dbg.bkptEn ↔ if j = k then on = true else j ∈ s.dbg.bkptEn := by
  by_cases h : j = k <;> cases on <;> simp [setBkptEn, h]

theorem onlyDebug_setBkptEn (s : State) (k : Nat) (on : Bool) : OnlyDebug s (setBkptEn s k on) := rfl

theorem mem_halted_stopPart (s : State) (k : Nat) : k ∈ (stopPart s k).dbg.halted := by
  by_cases h : k ∈ s.dbg.halted <;> simp [stopPart, h]

theorem bkptEn_stopPart (s : State) (k : Nat) : (stopPart s k).dbg.bkptEn = s.dbg.bkptEn := rfl

theorem not_mem_halted_resumePart (s : State) (k : Nat) : k ∉ (resumePart s k).dbg.halted := by
  by_cases h : k ∈ s.dbg.halted <;> simp [resumePart, h]

theorem bkptEn_resumePart (s : State) (k : Nat) : (resumePart s k).dbg.bkptEn = s.dbg.bkptEn := by
  unfold resumePart; split <;> rfl

theorem bkptEn_writePart (s : State) (k : Nat) (v : DWord) :
    (writePart s k v).dbg.bkptEn = (setBkptEn s k (v.getLsbD 3)).dbg.bkptEn := by
  have hs : (if v.getLsbD 0 then stopPart (setBkptEn s k (v.getLsbD 3)) k else setBkptEn s k (v.getLsbD 3)).dbg.bkptEn =
      (setBkptEn s k (v.getLsbD 3)).dbg.bkptEn := by
    split
    · exact bkptEn_stopPart ..
    · rfl
  dsimp only [writePart]
  split
  · rw [bkptEn_resumePart, hs]
  · exact hs

/-- With neither stop nor resume, only bkpt_en changes. -/
theorem writePart_neither (s : State) (k : Nat) (v : DWord) (h0 : v.getLsbD 0 = false) (h1 : v.getLsbD 1 = false) :
    writePart s k v = setBkptEn s k (v.getLsbD 3) := by
  simp only [writePart, h0, h1, Bool.false_eq_true, if_false]

theorem writePart_stop (s : State) (k : Nat) (v : DWord) (h0 : v.getLsbD 0 = true) (h1 : v.getLsbD 1 = false) :
    writePart s k v = stopPart (setBkptEn s k (v.getLsbD 3)) k := by
  simp only [writePart, h0, h1, Bool.false_eq_true, if_false, if_true]

theorem writePart_resume (s : State) (k : Nat) (v : DWord) (h0 : v.getLsbD 0 = false) (h1 : v.getLsbD 1 = true) :
    writePart s k v = resumePart (setBkptEn s k (v.getLsbD 3)) k := by
  simp only [writePart, h0, h1, Bool.false_eq_true, if_false, if_true]

/-- The state in which a stop or resume acts: bkpt_en is written before it. -/
theorem with_bkptEn_writePart (s : State) (k : Nat) (v : DWord) :
    { s with dbg := { s.dbg with bkptEn := (writePart s k v).dbg.bkptEn } } = setBkptEn s k (v.getLsbD 3) := by
  rw [bkptEn_writePart]; rfl

/-- Partition k of the package is partition k % 4 of core k / 4 (Table 17-1). -/
theorem exec_partitionStop_divMod (s : State) (k : Nat) (h : k < 2048) :
    exec (.partitionStop (k / 4) (k % 4)) s = .next (stopPart s k) := by
  show execPartitionStop _ _ s = _
  have hk : k / 4 * 4 + k % 4 = k := by omega
  have hr : ¬(512 ≤ k / 4 ∨ 4 ≤ k % 4) := by omega
  simp [execPartitionStop, hk, hr]

theorem exec_partitionResume_divMod (s : State) (k : Nat) :
    exec (.partitionResume (k / 4) (k % 4)) s = .next (resumePart s k) := by
  show execPartitionResume _ _ s = _
  have hk : k / 4 * 4 + k % 4 = k := by omega
  rw [execPartitionResume, hk]

/-! ### DBG_ENG (R310) -/

theorem syncEngine_keeps {γ : Type} (g : State → γ) (s : State) (core : Nat)
    (hg : ∀ x c ck f, g (modStream x c ck f) = g x) : g (syncEngine s core) = g s := by
  refine foldl_same g _ _ s fun x k _ => ?_
  dsimp only
  split
  · rfl
  · split
    · rfl
    · exact hg ..

theorem setEng_eq (s : State) (core : Nat) (b : BitVec 9) (h : core < 512) : setEng s core b =
    syncEngine { s with dbg := { s.dbg with engStop := sset 0 s.dbg.engStop core b } } core :=
  if_neg (by omega)

theorem engStop_setEng (s : State) (core : Nat) (b : BitVec 9) (h : core < 512) :
    sget 0 (setEng s core b).dbg.engStop core = b := by
  rw [setEng_eq s core b h, syncEngine_keeps State.dbg _ _ fun _ _ _ _ => rfl]
  simp

theorem setEng_mem (s : State) (core : Nat) (b : BitVec 9) (h : core < 512) : (setEng s core b).mem = s.mem := by
  rw [setEng_eq s core b h, syncEngine_keeps State.mem _ _ fun _ _ _ _ => rfl]

theorem setEng_teams (s : State) (core : Nat) (b : BitVec 9) (h : core < 512) : (setEng s core b).teams = s.teams := by
  rw [setEng_eq s core b h, syncEngine_keeps State.teams _ _ fun _ _ _ _ => rfl]

/-! ### KEY_CMD, KEY_DATA and KEM_CT (R325) -/

theorem writeKeyCmd_load (s : State) (v : DWord) (h : v.extractLsb' 12 2 = 1) :
    writeKeyCmd s v = keyLoad s (v.extractLsb' 0 12).toNat := by
  simp [writeKeyCmd, field_toNat, h]

theorem writeKeyCmd_clear (s : State) (v : DWord) (h : v.extractLsb' 12 2 = 2) :
    writeKeyCmd s v = keyClear s (v.extractLsb' 0 12).toNat := by
  simp [writeKeyCmd, field_toNat, h]

theorem length_putBuffer (n : Nat) (l : List Byte) (off : Nat) (v : DWord) : (putBuffer n l off v).length = n := by
  simp [putBuffer]

theorem getD_putBuffer (n : Nat) (l : List Byte) (k : Nat) (v : DWord) (i : Nat) (h : i < n) :
    (putBuffer n l (8 * k) v).getD i 0 = if i / 8 = k then v.extractLsb' (8 * (i % 8)) 8 else l.getD i 0 := by
  by_cases hk : i / 8 = k
  · have hi : i - 8 * k = i % 8 := by omega
    have hr : 8 * k ≤ i ∧ i < 8 * k + 8 := by omega
    simp [putBuffer, h, hk, hi, hr, BitVec.extractLsb']
  · have hr : ¬(8 * k ≤ i ∧ i < 8 * k + 8) := by omega
    simp [putBuffer, h, hk, hr]

/-! ### The host rings (R277) -/

theorem appendRecord_reqHead (s : State) (q : FaultReq) (tag : Word) :
    (appendRecord s q tag).rings.reqHead = s.rings.reqHead := by
  rw [appendRecord]

theorem fillRing_reqHead (l : List FaultReq) (s : State) : (fillRing l s).rings.reqHead = s.rings.reqHead := by
  induction l generalizing s with
  | nil => rfl
  | cons q r ih =>
    unfold fillRing
    split
    · exact ih s
    · split
      · rfl
      · rw [ih, appendRecord_reqHead]

theorem fillRing_none_queued (l : List FaultReq) (s : State) (h : ∀ q ∈ l, q.queued = false) : fillRing l s = s := by
  induction l with
  | nil => rfl
  | cons q r ih =>
    obtain ⟨hq, hr⟩ := List.forall_mem_cons.mp h
    simp [fillRing, hq, ih hr]

/-! ### What the writes to each group of registers do -/

section Groups
variable (s : State) (v : DWord) (byPort : Bool)

theorem exec_mgmtRegisterWrite_rings :
    (∃ b, exec (.mgmtRegisterWrite 0x200000 v byPort) s = .next { s with rings := { s.rings with reqBase := b } } ∧
      b = v &&& ~~~4095) ∧
    (∃ b, exec (.mgmtRegisterWrite 0x200018 v byPort) s = .next { s with rings := { s.rings with rspBase := b } } ∧
      b = v &&& ~~~4095) ∧
    (∃ t, exec (.mgmtRegisterWrite 0x200010 v byPort) s = .next t ∧ t.rings.reqHead = v.toNat % 4096 ∧
      ((∀ q ∈ s.reqs, q.queued = false) → t = { s with rings := { s.rings with reqHead := v.toNat % 4096 } })) ∧
    exec (.mgmtRegisterWrite 0x200020 v byPort) s = .next { s with rings := { s.rings with rspTail := v.toNat % 4096 } } := by
  refine ⟨⟨ringBase v, ?_, ringBase_eq v⟩, ⟨ringBase v, ?_, ringBase_eq v⟩, ⟨_, ?_, fillRing_reqHead s.reqs _,
    fillRing_none_queued s.reqs _⟩, ?_⟩ <;>
  · rw [exec_mgmtRegisterWrite s _ v byPort rfl (by omega)]
    simp [mgmtWrite]

theorem exec_mgmtRegisterWrite_fabId : exec (.mgmtRegisterWrite 0x210488 v byPort) s =
    .next { s with fabric := { s.fabric with id := v.toNat % 4096 } } := by
  rw [exec_mgmtRegisterWrite s _ v byPort rfl (by omega)]
  simp [mgmtWrite]

theorem exec_mgmtRegisterWrite_trace : exec (.mgmtRegisterWrite 0x23C000 v true) s =
    .next { s with dbg := { s.dbg with traceOn := v.getLsbD 0 } } := by
  rw [exec_mgmtRegisterWrite s _ v true rfl fun _ _ => rfl]
  simp [mgmtWrite]

theorem exec_mgmtRegisterWrite_dbgPart (k : Nat) (h : k < 2048) :
    exec (.mgmtRegisterWrite (0x230000 + 8 * k) v true) s = .next (writePart s k v) := by
  rw [exec_mgmtRegisterWrite s _ v true (by omega) fun _ _ => rfl, mgmtWrite_dbgPart s v k h]

theorem exec_mgmtRegisterWrite_dbgPhase (dp : Nat) (h : dp < 4) : exec (.mgmtRegisterWrite (0x234000 + 8 * dp) v true) s =
    exec (.phaseStep dp (v.extractLsb' 16 12).toNat (v.extractLsb' 0 16).toNat) s := by
  rw [exec_mgmtRegisterWrite s _ v true (by omega) fun _ _ => rfl, mgmtWrite_dbgPhase s v dp h]
  rfl

theorem exec_mgmtRegisterWrite_dbgEng (core : Nat) (h : core < 512) :
    exec (.mgmtRegisterWrite (0x238000 + 8 * core) v true) s = .next (setEng s core (v.extractLsb' 0 9)) := by
  rw [exec_mgmtRegisterWrite s _ v true (by omega) fun _ _ => rfl, mgmtWrite_dbgEng s v core h]

theorem exec_mgmtRegisterWrite_aperture (off : Nat) (h : off < 0x200000) (ha : off % 8 = 0) :
    exec (.mgmtRegisterWrite off v byPort) s = exec (.launchAperturePost off v) s := by
  rw [exec_mgmtRegisterWrite s off v byPort ha (by omega), mgmtWrite_aperture s v off h]
  rfl

theorem exec_mgmtRegisterWrite_pset : exec (.mgmtRegisterWrite 0x240100 v byPort) s = exec (.psetWrite v) s := by
  rw [exec_mgmtRegisterWrite s _ v byPort rfl (by omega), mgmtWrite_pset]
  rfl

theorem exec_mgmtRegisterWrite_keyCmd : exec (.mgmtRegisterWrite 0x240200 v byPort) s = .next (writeKeyCmd s v) := by
  rw [exec_mgmtRegisterWrite s _ v byPort rfl (by omega), mgmtWrite_keyCmd]

theorem exec_mgmtRegisterWrite_keyLoad (n : Fin 4096) (hn : v.extractLsb' 0 12 = BitVec.ofNat 12 n.val)
    (h : v.extractLsb' 12 2 = 1) : exec (.mgmtRegisterWrite 0x240200 v byPort) s = exec (.keyLoad n) s := by
  rw [exec_mgmtRegisterWrite_keyCmd, writeKeyCmd_load s v h, hn, BitVec.toNat_ofNat, Nat.mod_eq_of_lt n.isLt]
  rfl

theorem exec_mgmtRegisterWrite_keyClear (n : Fin 4096) (hn : v.extractLsb' 0 12 = BitVec.ofNat 12 n.val)
    (h : v.extractLsb' 12 2 = 2) : exec (.mgmtRegisterWrite 0x240200 v byPort) s = exec (.keyClear n) s := by
  rw [exec_mgmtRegisterWrite_keyCmd, writeKeyCmd_clear s v h, hn, BitVec.toNat_ofNat, Nat.mod_eq_of_lt n.isLt]
  rfl

theorem exec_mgmtRegisterWrite_keyData (k : Nat) (h : k < 9) : exec (.mgmtRegisterWrite (0x240208 + 8 * k) v byPort) s =
    .next { s with sec := { s.sec with keyData := putBuffer 72 s.sec.keyData (8 * k) v } } := by
  rw [exec_mgmtRegisterWrite s _ v byPort (by omega) (by omega), mgmtWrite_keyData s v k h]

theorem exec_mgmtRegisterWrite_kemCt (k : Nat) (h : k < 136) : exec (.mgmtRegisterWrite (0x241000 + 8 * k) v byPort) s =
    .next { s with sec := { s.sec with kemCt := putBuffer 1088 s.sec.kemCt (8 * k) v } } := by
  rw [exec_mgmtRegisterWrite s _ v byPort (by omega) (by omega), mgmtWrite_kemCt s v k h]

end Groups

end Sys2Proof.Machine
end

section
/-! SUPPORT. Contexts: the setup that a creation takes (R266, R281), and what their end discards (R244, R288). -/

open Sys2Proof Sys2Proof.Machine Sys2Proof.Safety Sys2Proof.Statements

namespace Sys2Proof.Machine

/-! ### Creation -/

theorem sfind_zipIdx {α : Type} (l : List α) (b i : Nat) :
    sfind ((l.zipIdx b).map fun x => (x.2, x.1)) i = if b ≤ i then l[i - b]? else none := by
  induction l generalizing b with
  | nil => simp [sfind]
  | cons a r ih =>
    rw [List.zipIdx_cons, List.map_cons, sfind, ih]
    rcases Nat.lt_trichotomy i b with h | rfl | h
    · simp [Nat.ne_of_lt h, Nat.not_le.mpr h, show ¬b + 1 ≤ i by omega]
    · simp
    · have hi : i - b = i - (b + 1) + 1 := by omega
      simp [Nat.ne_of_gt h, Nat.le_of_lt h, Nat.succ_le_of_lt h, hi]

theorem sfind_numbered {α : Type} (n : Nat) (l : List α) (i : Nat) (h : i < n) : sfind (numbered n l) i = l[i]? := by
  rw [numbered, sfind_zipIdx, if_pos (Nat.zero_le i), Nat.sub_zero, List.getElem?_take_of_lt h]

theorem rootOk_iff (s : State) (a : Nat) :
    rootOk s a = true ↔ a % 4096 = 0 ∧ a < 2 ^ 39 ∧ frameOk s a 4096 = true := by
  simp [rootOk, and_assoc, Nat.div_eq_zero_iff]

theorem serving_iff (s : State) : serving s = true ↔ s.boot.stage = 1 ∨ s.boot.stage = 2 := by simp [serving]

/-- What CONTEXT_CREATION tests is what the statement asks of a setup. -/
theorem creation_accepted_iff (s : State) (ctx : Nat) (d : CtxSetup) :
    ¬(!serving s || ctxIds ≤ ctx || ctxLimit ≤ s.ctxs.length || (sfind s.ctxs ctx).isSome || !rootOk s d.root ||
      !trapEntryOk d.trapEntry || d.swapThreshold.toNat < 2 ^ 12 || 2 ^ 24 < d.swapThreshold.toNat) = true ↔
    SetupOk s ctx d := by
  simp only [Bool.or_eq_true, decide_eq_true_eq, not_or, not_le, not_lt]
  simp [SetupOk, ← serving_iff, rootOk_iff, trapEntryOk, ctxIds, ctxLimit, and_assoc]

/-- The state after a creation: the context, and what the setup gives the package (R296, R299, R300, R271). -/
theorem exec_contextCreation_of_setupOk (s : State) (ctx : Nat) (d : CtxSetup) (h : SetupOk s ctx d) :
    ∃ t, exec (.contextCreation ctx d) s = .next t ∧ t.ctxs = sput s.ctxs ctx (newContext d) ∧
      { t with ctxs := s.ctxs, fabric := s.fabric, sweepPeriod := s.sweepPeriod } = s := by
  have he : exec (.contextCreation ctx d) s = execContextCreation ctx d s := rfl
  rw [he, execContextCreation, if_neg ((creation_accepted_iff s ctx d).mpr h)]
  exact ⟨_, rfl, rfl, rfl⟩

theorem exec_contextCreation_of_not_setupOk (s : State) (ctx : Nat) (d : CtxSetup) (h : ¬SetupOk s ctx d) :
    exec (.contextCreation ctx d) s = .next s := by
  show execContextCreation ctx d s = _
  rw [execContextCreation, if_pos (not_not.mp ((creation_accepted_iff s ctx d).not.mpr h))]

/-! ### The work of a context is discarded (R244, R288) -/

theorem freeEnvs_keeps {γ : Type} (g : State → γ) (s : State) (ctx : Nat) (hg : ∀ x k e, g (freeEnv x k e) = g x) :
    g (freeEnvs s ctx) = g s :=
  foldl_same g _ _ s fun x e _ => hg x e.1 e.2

theorem discardWork_teams (s : State) (ctx : Nat) :
    (discardWork s ctx).teams = s.teams.filter fun t => t.2.ctx != ctx := by
  unfold discardWork
  dsimp only
  split <;> exact freeEnvs_keeps State.teams _ ctx fun _ _ _ => rfl

theorem discardWork_cohorts (s : State) (ctx : Nat) :
    (discardWork s ctx).cohorts = s.cohorts.filter fun c => c.2.ctx != ctx := by
  unfold discardWork
  dsimp only
  split <;> exact freeEnvs_keeps State.cohorts _ ctx fun _ _ _ => rfl

theorem discardWork_rowQueue (s : State) (ctx : Nat) :
    (discardWork s ctx).rowQueue = s.rowQueue.filter fun r => r.ctx != ctx := by
  unfold discardWork
  dsimp only
  split <;> exact freeEnvs_keeps State.rowQueue _ ctx fun _ _ _ => rfl

theorem discardWork_mem (s : State) (ctx : Nat) : (discardWork s ctx).mem = s.mem := by
  unfold discardWork
  dsimp only
  split <;> exact freeEnvs_keeps State.mem _ ctx fun _ _ _ => rfl

theorem sfind_discardWork_ctxs (s : State) (ctx j : Nat) (h : j ≠ ctx) :
    sfind (discardWork s ctx).ctxs j = sfind s.ctxs j := by
  unfold discardWork
  dsimp only
  split
  · rw [setCtx, sfind_sput, if_neg h, freeEnvs_keeps State.ctxs _ ctx fun _ _ _ => rfl]
  · rw [freeEnvs_keeps State.ctxs _ ctx fun _ _ _ => rfl]

theorem sfind_filter {β : Type} (m : Sparse β) (p : Nat × β → Bool) (k : Nat)
    (h : ∀ v, sfind m k = some v → p (k, v) = true) : sfind (m.filter p) k = sfind m k := by
  induction m with
  | nil => rfl
  | cons e r ih =>
    obtain ⟨j, w⟩ := e
    by_cases hk : k = j
    · subst hk
      have hp : p (k, w) = true := h w (by simp [sfind])
      simp [hp, sfind]
    · have ht : sfind (r.filter p) k = sfind r k := ih fun v hv => h v (by simpa [sfind, hk] using hv)
      cases hp : p (j, w) <;> simp [hp, sfind, hk, ht]

/-- A team of another context is as it was. -/
theorem getTeam_discardWork (s : State) (ctx u : Nat) (h : (s.getTeam u).ctx ≠ ctx) :
    (discardWork s ctx).getTeam u = s.getTeam u := by
  rw [State.getTeam, discardWork_teams, sfind_filter, State.getTeam]
  intro v hv
  simpa [State.getTeam, hv] using h

theorem discardWork_no_team (s : State) (ctx : Nat) : ∀ e ∈ (discardWork s ctx).teams, e.2.ctx ≠ ctx := by
  intro e he
  rw [discardWork_teams] at he
  simpa using (List.mem_filter.mp he).2

theorem discardWork_no_cohort (s : State) (ctx : Nat) : ∀ e ∈ (discardWork s ctx).cohorts, e.2.ctx ≠ ctx := by
  intro e he
  rw [discardWork_cohorts] at he
  simpa using (List.mem_filter.mp he).2

theorem discardWork_no_row (s : State) (ctx : Nat) : ∀ e ∈ (discardWork s ctx).rowQueue, e.ctx ≠ ctx := by
  intro e he
  rw [discardWork_rowQueue] at he
  simpa using (List.mem_filter.mp he).2

/-! ### Destruction -/

/-- The state without the stamps of a context that wait, from which its destruction discards its work (R244). -/
def dropStampWaits (s : State) (ctx : Nat) : State :=
  { s with stampWaits := s.stampWaits.filter fun w => w.ctx != ctx }

theorem exec_contextDestruction (s : State) (ctx : Nat) (h : (sfind s.ctxs ctx).isSome = true) :
    exec (.contextDestruction ctx) s = .next { discardWork (dropStampWaits s ctx) ctx with
      ctxs := sdel (discardWork (dropStampWaits s ctx) ctx).ctxs ctx
      running := (discardWork (dropStampWaits s ctx) ctx).running.filter fun r => r.2 != some ctx } := by
  show execContextDestruction ctx s = _
  rw [execContextDestruction, if_neg (by simpa [Option.isSome_iff_ne_none] using h)]
  rfl

/-! ### Stamps of a context-fatal error (R234, R288) -/

/-- The addresses of bytes written one after the other. -/
theorem map_fst_zipIdx (pa : Nat) (l : List Byte) :
    (l.zipIdx.map fun b => (pa + b.2, b.1)).map (·.1) = (List.range l.length).map (pa + ·) := by
  rw [List.range_eq_range', ← List.zipIdx_map_snd 0 l, List.map_map, List.map_map]
  rfl

/-- Byte i of a number written at the home slice. -/
theorem memGet_putNum (s : State) (pa n v i : Nat) (h : i < n) :
    memGet (putNum s pa n v) (pa + i) = BitVec.ofNat 8 (v / 2 ^ (8 * i)) := by
  refine memGet_homeWrite_mem s _ _ _ ?_ ?_
  · rw [map_fst_zipIdx]
    exact List.nodup_range.map fun a b h => Nat.add_left_cancel h
  · refine List.mem_map.mpr ⟨(BitVec.ofNat 8 (v / 2 ^ (8 * i)), i), ?_, rfl⟩
    rw [List.mk_mem_zipIdx_iff_getElem?]
    simp [toBytes, h, Nat.shiftRight_eq_div_pow]

theorem writeStamp_reached (s s1 : State) (ctx pa : Nat) (va value : DWord) (h0 : va ≠ 0) (ha : va.toNat % 8 = 0)
    (hr : reach s ctx va .write false = (.at_ pa, s1)) : writeStamp s ctx va value = putNum s1 pa 8 value.toNat := by
  have hc : ¬(va == 0 || va.toNat % 8 != 0) = true := by simp only [beq_eq_false_iff_ne.mpr h0, ha]; decide
  rw [writeStamp, if_neg hc, hr]

/-- With one placed launch and nothing queued, its stamp is all that is written. -/
theorem stampDiscarded_one (s : State) (ctx : Nat) (r : LaunchRun) (hr : (getCtx s ctx).runs = [r])
    (hq : (getCtx s ctx).queues = []) :
    stampDiscarded s ctx = writeStamp s ctx r.stampAddr (launchStamp r.seq 3) := by
  simp [stampDiscarded, hr, hq]

theorem exec_contextDeclaredFatal (s : State) (ctx : Nat) (cause : Byte) (h : (sfind s.ctxs ctx).isSome = true) :
    exec (.contextDeclaredFatal ctx cause) s = .next (contextFatal s ctx cause 0) := by
  show execContextDeclaredFatal ctx cause s = _
  rw [execContextDeclaredFatal, if_neg (by simpa [Option.isSome_iff_ne_none] using h)]

theorem contextFatal_eq (s : State) (ctx : Nat) (cause : Byte) (pa : Nat) : contextFatal s ctx cause pa =
    { discardWork (stampDiscarded s ctx) ctx with
      fatal := sput (discardWork (stampDiscarded s ctx) ctx).fatal ctx
        (BitVec.ofNat 64 (cause.toNat + pa % 2 ^ 40 * 2 ^ 8 + 2 ^ 63)) } := rfl

theorem contextFatal_no_team (s : State) (ctx : Nat) (cause : Byte) (pa : Nat) :
    ∀ e ∈ (contextFatal s ctx cause pa).teams, e.2.ctx ≠ ctx := by
  rw [contextFatal_eq]
  exact discardWork_no_team _ ctx

theorem contextFatal_no_cohort (s : State) (ctx : Nat) (cause : Byte) (pa : Nat) :
    ∀ e ∈ (contextFatal s ctx cause pa).cohorts, e.2.ctx ≠ ctx := by
  rw [contextFatal_eq]
  exact discardWork_no_cohort _ ctx

theorem contextFatal_no_row (s : State) (ctx : Nat) (cause : Byte) (pa : Nat) :
    ∀ e ∈ (contextFatal s ctx cause pa).rowQueue, e.ctx ≠ ctx := by
  rw [contextFatal_eq]
  exact discardWork_no_row _ ctx

theorem memGet_contextFatal (s : State) (ctx : Nat) (cause : Byte) (pa a : Nat) :
    memGet (contextFatal s ctx cause pa) a = memGet (stampDiscarded s ctx) a := by
  simp [memGet, contextFatal_eq, discardWork_mem]

theorem sfind_fatal_contextFatal (s : State) (ctx : Nat) (cause : Byte) :
    sfind (contextFatal s ctx cause 0).fatal ctx = some (BitVec.ofNat 64 (cause.toNat + 2 ^ 63)) := by
  simp [contextFatal_eq, sfind_sput]

end Sys2Proof.Machine
end

section
/-! SUPPORT. The statement on management registers and contexts (O60). -/

open Sys2Proof Sys2Proof.Machine Sys2Proof.Safety Sys2Proof.Statements

namespace Sys2Proof.Machine

/-- A created context has what its setup gives it, and no work (R186, R189, R258, R266, R281). -/
theorem newContext_fields (d : CtxSetup) :
    (newContext d).root = d.root ∧ (newContext d).trapEntry = d.trapEntry ∧
    (newContext d).swapThreshold = d.swapThreshold ∧ (newContext d).exportBase = d.exportBase ∧
    (∀ i, i < 256 → sfind (newContext d).tensors i = d.tensors[i]?) ∧
    (∀ i, i < 4096 → sfind (newContext d).templates i = d.templates[i]?) ∧
    (newContext d).queues = [] ∧ (newContext d).runs = [] ∧ (newContext d).ready = [] :=
  ⟨rfl, rfl, rfl, rfl, sfind_numbered 256 d.tensors, sfind_numbered 4096 d.templates, rfl, rfl, rfl⟩

/-- A destroyed context is gone with its work, and runs nowhere; memory and every other context and team stay (R244,
R278). -/
theorem contextDestruction_effect (s : State) (ctx : Nat) (h : (sfind s.ctxs ctx).isSome = true) :
    ∃ t, exec (.contextDestruction ctx) s = .next t ∧
    sfind t.ctxs ctx = none ∧ (∀ e ∈ t.teams, e.2.ctx ≠ ctx) ∧ (∀ e ∈ t.cohorts, e.2.ctx ≠ ctx) ∧
    (∀ q ∈ t.running, q.2 ≠ some ctx) ∧ t.mem = s.mem ∧ (∀ j, j ≠ ctx → sfind t.ctxs j = sfind s.ctxs j) ∧
    ∀ u, (s.getTeam u).ctx ≠ ctx → t.getTeam u = s.getTeam u := by
  refine ⟨_, exec_contextDestruction s ctx h, ?_, discardWork_no_team (dropStampWaits s ctx) ctx,
    discardWork_no_cohort (dropStampWaits s ctx) ctx, ?_, discardWork_mem (dropStampWaits s ctx) ctx, fun j hj => ?_,
    getTeam_discardWork (dropStampWaits s ctx) ctx⟩
  · rw [sfind_sdel, if_pos rfl]
  · intro q hq
    simpa using (List.mem_filter.mp hq).2
  · rw [sfind_sdel, if_neg hj]
    exact sfind_discardWork_ctxs (dropStampWaits s ctx) ctx j hj

/-- The stamp of the one launch of a context that is declared fatal has status 3 (R234, R288). -/
theorem memGet_contextFatal_stamp (s s1 : State) (ctx : Nat) (cause : Byte) (r : LaunchRun) (pa i : Nat)
    (hr : (getCtx s ctx).runs = [r]) (hq : (getCtx s ctx).queues = []) (h0 : r.stampAddr ≠ 0)
    (ha : r.stampAddr.toNat % 8 = 0) (hp : reach s ctx r.stampAddr .write false = (.at_ pa, s1)) (hi : i < 8) :
    memGet (contextFatal s ctx cause 0) (pa + i) = BitVec.ofNat 8 ((launchStamp r.seq 3).toNat / 2 ^ (8 * i)) := by
  rw [memGet_contextFatal, stampDiscarded_one s ctx r hr hq, writeStamp_reached s s1 ctx pa _ _ h0 ha hp,
    memGet_putNum s1 pa 8 _ i hi]

/-- Settles O60: each register by its equation of mgmtWrite, and the contexts by what a creation takes and what
discardWork leaves. -/
theorem managementAndContextSteps : Obligations.ManagementAndContextSteps := by
  unfold Obligations.ManagementAndContextSteps
  refine ⟨exec_mgmtRegisterWrite_ignored, ?registers, ?partitions, ?engines, ?buffers, ?creation,
    exec_contextCreation_of_not_setupOk, contextDestruction_effect, ?fatal⟩
  case registers =>
    intro s v byPort
    obtain ⟨hreq, hrsp, hhead, htail⟩ := exec_mgmtRegisterWrite_rings s v byPort
    exact ⟨hreq, hrsp, hhead, htail, exec_mgmtRegisterWrite_fabId s v byPort, exec_mgmtRegisterWrite_trace s v⟩
  case partitions =>
    intro s k v hk
    refine ⟨_, exec_mgmtRegisterWrite_dbgPart s v k hk, fun j => ?_, fun h0 h1 => ?_, fun h0 h1 => ?_, fun h0 h1 => ?_⟩
    · rw [bkptEn_writePart, mem_setBkptEn]
    · rw [writePart_neither s k v h0 h1]
      exact ⟨onlyDebug_setBkptEn s k _, rfl⟩
    · rw [with_bkptEn_writePart, writePart_stop s k v h0 h1]
      exact ⟨mem_halted_stopPart (setBkptEn s k _) k, exec_partitionStop_divMod _ k hk⟩
    · rw [with_bkptEn_writePart, writePart_resume s k v h0 h1]
      exact ⟨not_mem_halted_resumePart (setBkptEn s k _) k, exec_partitionResume_divMod _ k⟩
  case engines =>
    intro s v
    refine ⟨exec_mgmtRegisterWrite_dbgPhase s v, fun core hc => ?_, fun byPort => ?_⟩
    · exact ⟨_, exec_mgmtRegisterWrite_dbgEng s v core hc, engStop_setEng s core _ hc, setEng_mem s core _ hc,
        setEng_teams s core _ hc⟩
    · exact ⟨exec_mgmtRegisterWrite_aperture s v byPort, exec_mgmtRegisterWrite_pset s v byPort, fun n hn =>
        ⟨exec_mgmtRegisterWrite_keyLoad s v byPort n hn, exec_mgmtRegisterWrite_keyClear s v byPort n hn⟩⟩
  case buffers =>
    intro s k v byPort
    exact ⟨fun hk => ⟨_, exec_mgmtRegisterWrite_keyData s v byPort k hk, length_putBuffer .., getD_putBuffer 72 _ k v⟩,
      fun hk => ⟨_, exec_mgmtRegisterWrite_kemCt s v byPort k hk, length_putBuffer .., getD_putBuffer 1088 _ k v⟩⟩
  case creation =>
    intro s ctx d h
    obtain ⟨t, ht, hctxs, hrest⟩ := exec_contextCreation_of_setupOk s ctx d h
    obtain ⟨hroot, htrap, hswap, hexp, htens, htmpl, hqs, hruns, hready⟩ := newContext_fields d
    refine ⟨t, newContext d, ht, ?_, hroot, htrap, hswap, hexp, htens, htmpl, hqs, hruns, hready, hrest, fun j hj => ?_⟩
    · rw [hctxs, sfind_sput, if_pos rfl]
    · rw [hctxs, sfind_sput, if_neg hj]
  case fatal =>
    intro s ctx cause h
    refine ⟨_, exec_contextDeclaredFatal s ctx cause h, sfind_fatal_contextFatal s ctx cause,
      contextFatal_no_team s ctx cause 0, contextFatal_no_cohort s ctx cause 0, contextFatal_no_row s ctx cause 0, ?_⟩
    intro r pa s1 hr hq h0 ha hp i hi
    exact memGet_contextFatal_stamp s s1 ctx cause r pa i hr hq h0 ha hp hi

end Sys2Proof.Machine
end

section
/-! SUPPORT. Instruction words, field by field: each decoder reads a row of Table 3-4 and the encoder
writes it. -/

open Sys2Proof
namespace Sys2Proof

theorem finOf_eq_some {n x : Nat} {f : Fin n} : finOf n x = some f ↔ f.val = x := by
  unfold finOf; split <;> simp [Fin.ext_iff] <;> omega

theorem finOf_eq_none {n x : Nat} : finOf n x = none ↔ n ≤ x := by
  unfold finOf; split <;> simp <;> omega

theorem fld_lt (w lo n : Nat) : fld w lo n < 2 ^ n := Nat.mod_lt _ (Nat.two_pow_pos n)

theorem bitOf_lt (b : Bool) : bitOf b < 2 := by cases b <;> decide

theorem bitOf_eq {b : Bool} {x : Nat} (h : x < 2) : (x == 1) = b ↔ bitOf b = x := by
  cases b <;> simp [bitOf] <;> omega

theorem bitOf_fld (w lo : Nat) : bitOf (fld w lo 1 == 1) = fld w lo 1 := by
  have h : fld w lo 1 < 2 := Nat.mod_lt _ (by decide)
  simp only [bitOf, beq_iff_eq]; split <;> omega

theorem Reg.ofCode_eq_some {c : Nat} {r : Reg} : Reg.ofCode c = some r ↔ r.code = c := by
  unfold Reg.ofCode
  split
  · next h => rw [finOf_eq_some] at h; cases r <;> simp [Reg.code, Fin.ext_iff] <;> omega
  · next h =>
    rw [finOf_eq_none] at h
    cases r <;> simp [Reg.code, finOf_eq_some] <;> omega

theorem sOfFull_eq_some {c : Nat} {a : SReg} : sOfFull c = some a ↔ a.val + 104 = c := by
  unfold sOfFull; split <;> simp [finOf_eq_some]; all_goals omega

theorem Base.ofCode_eq_some {c : Nat} {b : Base} : Base.ofCode c = some b ↔ b.code = c := by
  unfold Base.ofCode
  split
  · next h => cases b <;> simp_all [Base.code]; omega
  · next h => cases b <;> simp_all [Base.code, finOf_eq_some]; omega

theorem IntTy.ofCode_eq_some {c : Nat} {t : IntTy} : IntTy.ofCode c = some t ↔ t.code = c := by
  constructor
  · intro h; unfold IntTy.ofCode at h; split at h <;> cases h <;> rfl
  · rintro rfl; cases t <;> rfl

theorem FTy.ofCode_eq_some {c : Nat} {t : FTy} : FTy.ofCode c = some t ↔ t.code = c := by
  constructor
  · intro h; unfold FTy.ofCode at h; split at h <;> cases h <;> rfl
  · rintro rfl; cases t <;> rfl

theorem FArith.ofCode_eq_some {c : Nat} {t : FArith} : FArith.ofCode c = some t ↔ t.code = c := by
  constructor
  · intro h; unfold FArith.ofCode at h; split at h <;> cases h <;> rfl
  · rintro rfl; rcases t with m | _ | _ <;> (try cases m) <;> rfl

theorem RedOp.ofCode_eq_some {c : Nat} {t : RedOp} : RedOp.ofCode c = some t ↔ t.code = c := by
  constructor
  · intro h; unfold RedOp.ofCode at h; split at h <;> cases h <;> rfl
  · rintro rfl; cases t <;> rfl

theorem Rnd.ofCode_eq_some {c : Nat} {t : Rnd} : Rnd.ofCode c = some t ↔ t.code = c := by
  constructor
  · intro h; unfold Rnd.ofCode at h; split at h <;> cases h <;> rfl
  · rintro rfl; cases t <;> rfl

theorem Scope.ofCode_eq_some {c : Nat} {t : Scope} : Scope.ofCode c = some t ↔ t.code = c := by
  constructor
  · intro h; unfold Scope.ofCode at h; split at h <;> cases h <;> rfl
  · rintro rfl; cases t <;> rfl

theorem EScope.ofCode_eq_some {c : Nat} {t : EScope} : EScope.ofCode c = some t ↔ t.code = c := by
  constructor
  · intro h; unfold EScope.ofCode at h; split at h <;> cases h <;> rfl
  · rintro rfl; cases t <;> rfl

theorem BrCond.ofCode_eq_some {c : Nat} {t : BrCond} : BrCond.ofCode c = some t ↔ t.code = c := by
  constructor
  · intro h; unfold BrCond.ofCode at h; split at h <;> cases h <;> rfl
  · rintro rfl; cases t <;> rfl

theorem ICond.ofCode_eq_some {c : Nat} {t : ICond} : ICond.ofCode c = some t ↔ t.code = c := by
  constructor
  · intro h; unfold ICond.ofCode at h; split at h <;> cases h <;> rfl
  · rintro rfl; cases t <;> rfl

theorem ICondImm.ofCode_eq_some {c : Nat} {t : ICondImm} : ICondImm.ofCode c = some t ↔ t.code = c := by
  constructor
  · intro h; unfold ICondImm.ofCode at h; split at h <;> cases h <;> rfl
  · rintro rfl; cases t <;> rfl

theorem FCond.ofCode_eq_some {c : Nat} {t : FCond} : FCond.ofCode c = some t ↔ t.code = c := by
  constructor
  · intro h; unfold FCond.ofCode at h; split at h <;> cases h <;> rfl
  · rintro rfl; cases t <;> rfl

theorem MxFmt.ofCode_eq_some {c : Nat} {t : MxFmt} : MxFmt.ofCode c = some t ↔ t.code = c := by
  constructor
  · intro h; unfold MxFmt.ofCode at h; split at h <;> cases h <;> rfl
  · rintro rfl; cases t <;> rfl

theorem ShflMode.ofCode_eq_some {c : Nat} {t : ShflMode} : ShflMode.ofCode c = some t ↔ t.code = c := by
  constructor
  · intro h; unfold ShflMode.ofCode at h; split at h <;> cases h <;> rfl
  · rintro rfl; cases t <;> rfl

theorem VoteMode.ofCode_eq_some {c : Nat} {t : VoteMode} : VoteMode.ofCode c = some t ↔ t.code = c := by
  constructor
  · intro h; unfold VoteMode.ofCode at h; split at h <;> cases h <;> rfl
  · rintro rfl; cases t <;> rfl

theorem PlogOp.ofCode_eq_some {c : Nat} {t : PlogOp} : PlogOp.ofCode c = some t ↔ t.code = c := by
  constructor
  · intro h; unfold PlogOp.ofCode at h; split at h <;> cases h <;> rfl
  · rintro rfl; cases t <;> rfl

theorem AtomOp.ofCode_eq_some {c : Nat} {t : AtomOp} : AtomOp.ofCode c = some t ↔ t.code = c := by
  constructor
  · intro h; unfold AtomOp.ofCode at h; split at h <;> cases h <;> rfl
  · rintro rfl; cases t <;> rfl

theorem RettAction.ofCode_eq_some {c : Nat} {t : RettAction} :
    RettAction.ofCode c = some t ↔ t.code = c := by
  constructor
  · intro h; unfold RettAction.ofCode at h; split at h <;> cases h <;> rfl
  · rintro rfl; cases t <;> rfl

theorem BMode.ofCode_eq_some {c : Nat} {t : BMode} : BMode.ofCode c = some t ↔ t.code = c := by
  constructor
  · intro h; unfold BMode.ofCode at h; split at h <;> cases h <;> rfl
  · rintro rfl; cases t <;> rfl

theorem AFmt.ofCode_eq_some {c : Nat} {t : AFmt} : AFmt.ofCode c = some t ↔ t.code = c := by
  constructor
  · intro h; unfold AFmt.ofCode at h; split at h <;> cases h <;> rfl
  · rintro rfl; cases t <;> rfl

theorem MstaFmt.ofCode_eq_some {c : Nat} {t : MstaFmt} : MstaFmt.ofCode c = some t ↔ t.code = c := by
  constructor
  · intro h; unfold MstaFmt.ofCode at h; split at h <;> cases h <;> rfl
  · rintro rfl; cases t <;> rfl

theorem IntTy.code_lt_four (t : IntTy) : t.code < 4 := by cases t <;> decide

theorem IntTy.code_lt (t : IntTy) : t.code < 8 := Nat.lt_trans t.code_lt_four (by decide)

theorem FTy.code_lt (t : FTy) : t.code < 8 := by cases t <;> decide

theorem FArith.code_lt (t : FArith) : t.code < 8 := by rcases t with m | _ | _ <;> (try cases m) <;> decide

theorem RedOp.code_lt (t : RedOp) : t.code < 4 := by cases t <;> decide

theorem Rnd.code_lt (t : Rnd) : t.code < 4 := by cases t <;> decide

theorem Scope.code_lt (t : Scope) : t.code < 8 := by cases t <;> decide

theorem EScope.code_lt (t : EScope) : t.code < 4 := by cases t <;> decide

theorem BrCond.code_lt (t : BrCond) : t.code < 4 := by cases t <;> decide

theorem ICond.code_lt (t : ICond) : t.code < 16 := by cases t <;> decide

theorem ICondImm.code_lt (t : ICondImm) : t.code < 16 := by cases t <;> decide

theorem FCond.code_lt (t : FCond) : t.code < 16 := by cases t <;> decide

theorem MxFmt.code_lt (t : MxFmt) : t.code < 8 := by cases t <;> decide

theorem ShflMode.code_lt (t : ShflMode) : t.code < 4 := by cases t <;> decide

theorem VoteMode.code_lt (t : VoteMode) : t.code < 16 := by cases t <;> decide

theorem PlogOp.code_lt (t : PlogOp) : t.code < 16 := by cases t <;> decide

theorem AtomOp.code_lt (t : AtomOp) : t.code < 16 := by cases t <;> decide

theorem RettAction.code_lt (t : RettAction) : t.code < 4 := by cases t <;> decide

theorem BMode.code_lt (t : BMode) : t.code < 4 := by cases t <;> decide

theorem AFmt.code_lt (t : AFmt) : t.code < 256 := by cases t <;> decide

theorem MstaFmt.code_lt (t : MstaFmt) : t.code < 16 := by cases t <;> decide

theorem Reg.code_lt (r : Reg) : r.code < 128 := by
  cases r <;> simp only [Reg.code] <;> omega

theorem Base.code_lt (b : Base) : b.code < 32 := by
  cases b <;> simp only [Base.code] <;> omega

theorem FTy.le_code (t : FTy) : 4 ≤ t.code := by cases t <;> decide

theorem MemOp.ofWord_eq_some {w : Nat} {m : MemOp} :
    MemOp.ofWord w = some m ↔ m.x.code = fld w 10 7 ∧ m.s.code = fld w 5 5 ∧ bitOf m.w = fld w 0 1 := by
  obtain ⟨x, s, b⟩ := m
  have hb : (fld w 0 1 == 1) = b ↔ bitOf b = fld w 0 1 := bitOf_eq (fld_lt w 0 1)
  unfold MemOp.ofWord
  rw [← Reg.ofCode_eq_some, ← Base.ofCode_eq_some, ← hb]
  split
  · next hx hs => simp [hx, hs]
  · next hno =>
    simp only [reduceCtorEq, false_iff]
    rintro ⟨hx, hs, -⟩
    exact hno _ _ hx hs

theorem EFlags.ofCode_eq_some {c : Nat} (hc : c < 16) {f : EFlags} :
    EFlags.ofCode c = some f ↔ f.code = c := by
  obtain ⟨acq, rel, sc⟩ := f
  have ha : (c / 8 % 2 == 1) = acq ↔ bitOf acq = c / 8 % 2 := bitOf_eq (by omega)
  have hr : (c / 4 % 2 == 1) = rel ↔ bitOf rel = c / 4 % 2 := bitOf_eq (by omega)
  have := bitOf_lt acq
  have := bitOf_lt rel
  have := sc.code_lt
  simp only [EFlags.ofCode, Option.map_eq_some_iff, EScope.ofCode_eq_some, EFlags.mk.injEq, ha, hr]
  constructor
  · rintro ⟨_, h, h', h'', rfl⟩
    simp only [EFlags.code]; omega
  · intro h
    simp only [EFlags.code] at h
    exact ⟨sc, by omega, by omega, by omega, rfl⟩

theorem RTy.ofCode_eq_some {c : Nat} {f : RTy} : RTy.ofCode c = some f ↔ f.code = c := by
  unfold RTy.ofCode
  split
  · next t ht =>
    rw [IntTy.ofCode_eq_some] at ht
    have := t.code_lt_four
    cases f with
    | int u =>
      rw [Option.some.injEq, RTy.int.injEq, RTy.code, ← ht, ← IntTy.ofCode_eq_some (t := u),
        IntTy.ofCode_eq_some.mpr rfl, Option.some.injEq]
    | flt u => have := u.le_code; simp [RTy.code]; omega
  · next hno =>
    cases f with
    | int u => simp [RTy.code, ← IntTy.ofCode_eq_some, hno]
    | flt u => simp [RTy.code, FTy.ofCode_eq_some]

theorem EFlags.code_lt (f : EFlags) : f.code < 16 := by
  have := bitOf_lt f.acq
  have := bitOf_lt f.rel
  have := f.scope.code_lt
  simp only [EFlags.code]; omega

theorem RTy.code_lt (t : RTy) : t.code < 8 := by
  cases t with
  | int t => exact t.code_lt
  | flt t => exact t.code_lt

/-- The parts of a count operand: its immediate (bits 12:4), mode (bit 13) and register (bits 23:19). -/
def CountSrc.image : CountSrc → Nat | .s _ => 0 | .imm n => n.val

def CountSrc.reg : CountSrc → Nat | .s n => n.val | .imm _ => 0

def CountSrc.mode : CountSrc → Nat | .s _ => 0 | .imm _ => 1

theorem CountSrc.ofWord_eq_some {w : Nat} {v : CountSrc} :
    CountSrc.ofWord w = some v ↔ v.image = fld w 4 9 ∧ v.mode = fld w 13 1 ∧ v.reg = fld w 19 5 := by
  have := fld_lt w 13 1
  unfold CountSrc.ofWord
  cases v <;> simp only [CountSrc.image, CountSrc.reg, CountSrc.mode, beq_iff_eq] <;> split <;>
    (try split) <;> simp [finOf_eq_some] <;> omega

/-- The word whose fields, from bit 0 up, have these widths and values. -/
def pack : List (Nat × Nat) → Nat
  | [] => 0
  | (n, x) :: r => x + 2 ^ n * pack r

/-- From bit lo up, w has fields of these widths and values. -/
def Reads (w : Nat) : Nat → List (Nat × Nat) → Prop
  | _, [] => True
  | lo, (n, x) :: r => fld w lo n = x ∧ Reads w (lo + n) r

/-- The number of bits of these fields. -/
def width (fs : List (Nat × Nat)) : Nat := (fs.map Prod.fst).sum

theorem pack_of_reads {w lo : Nat} {fs : List (Nat × Nat)} (h : Reads w lo fs) :
    pack fs = w / 2 ^ lo % 2 ^ width fs := by
  induction fs generalizing lo with
  | nil => simp [pack, width, Nat.mod_one]
  | cons f r ih =>
    obtain ⟨n, x⟩ := f
    obtain ⟨hx, hr⟩ := h
    simp only [pack, ih hr, ← hx, fld, width, List.map_cons, List.sum_cons, Nat.pow_add, Nat.mod_mul,
      Nat.div_div_eq_div_mul]

theorem reads_of_pack {w lo : Nat} {fs : List (Nat × Nat)} (hlt : ∀ f ∈ fs, f.2 < 2 ^ f.1)
    (h : w / 2 ^ lo = pack fs) : Reads w lo fs := by
  induction fs generalizing lo with
  | nil => trivial
  | cons f r ih =>
    obtain ⟨n, x⟩ := f
    have hx : x < 2 ^ n := hlt _ List.mem_cons_self
    simp only [pack] at h
    refine ⟨?_, ih (fun f hf => hlt f (List.mem_cons_of_mem _ hf)) ?_⟩
    · rw [fld, h, Nat.add_mul_mod_self_left, Nat.mod_eq_of_lt hx]
    · rw [Nat.pow_add, ← Nat.div_div_eq_div_mul, h, Nat.add_mul_div_left _ _ (Nat.two_pow_pos n),
        Nat.div_eq_of_lt hx, Nat.zero_add]

theorem pack_lt {fs : List (Nat × Nat)} (hlt : ∀ f ∈ fs, f.2 < 2 ^ f.1) : pack fs < 2 ^ width fs := by
  have h : Reads (pack fs) 0 fs := reads_of_pack hlt (by simp)
  rw [pack_of_reads h]
  exact Nat.mod_lt _ (Nat.two_pow_pos _)

/-- The rows of Table 3-4: an instruction, the decoder of its opcode, and its fields from bit 0 up. -/
inductive TableRow : Instr → (Nat → Option Instr) → List (Nat × Nat) → Prop
  | nop : TableRow .nop decNop [(24, 0), (8, 0x00)]
  | bra {off} : TableRow (.bra off) decBra [(24, off.val), (8, 0x01)]
  | brx {p c off} :
      TableRow (.brx p c off) decBrx [(19, off.val), (2, c.code), (3, p.val), (8, 0x02)]
  | call {off} : TableRow (.call off) decCall [(24, off.val), (8, 0x03)]
  | ret : TableRow .ret decRet [(24, 0), (8, 0x04)]
  | split {p} : TableRow (.split p) decSplit [(21, 0), (3, p.val), (8, 0x05)]
  | flip : TableRow .flip decFlip [(24, 0), (8, 0x06)]
  | merge : TableRow .merge decMerge [(24, 0), (8, 0x07)]
  | prune {p} : TableRow (.prune p) decPrune [(21, 0), (3, p.val), (8, 0x08)]
  | exit : TableRow .exit decExit [(24, 0), (8, 0x09)]
  | trap {imm} : TableRow (.trap imm) decTrap [(16, imm.val), (8, 0), (8, 0x0A)]
  | rett {a} : TableRow (.rett a) decRett [(2, a.code), (22, 0), (8, 0x0B)]
  | bkpt {tag} : TableRow (.bkpt tag) decBkpt [(16, tag.val), (8, 0), (8, 0x0C)]
  | srd {d n} : TableRow (.srd d n) decSrd [(10, n.val), (7, 0), (7, d.code), (8, 0x0D)]
  | swr {a n} : TableRow (.swr a n) decSwr [(10, n.val), (7, a.val + 104), (7, 0), (8, 0x0E)]
  | iadd {d a b ty} :
      TableRow (.iadd d a b ty) decIadd
        [(3, ty.code), (7, b.code), (7, a.code), (7, d.code), (8, 0x10)]
  | isub {d a b ty} :
      TableRow (.isub d a b ty) decIsub
        [(3, ty.code), (7, b.code), (7, a.code), (7, d.code), (8, 0x11)]
  | imul {d a b ty} :
      TableRow (.imul d a b ty) decImul
        [(3, ty.code), (7, b.code), (7, a.code), (7, d.code), (8, 0x12)]
  | imulh {d a b ty} :
      TableRow (.imulh d a b ty) decImulh
        [(3, ty.code), (7, b.code), (7, a.code), (7, d.code), (8, 0x13)]
  | imad {d a b ty} :
      TableRow (.imad d a b ty) decImad
        [(3, ty.code), (7, b.code), (7, a.code), (7, d.code), (8, 0x14)]
  | imin {d a b ty} :
      TableRow (.imin d a b ty) decImin
        [(3, ty.code), (7, b.code), (7, a.code), (7, d.code), (8, 0x15)]
  | imax {d a b ty} :
      TableRow (.imax d a b ty) decImax
        [(3, ty.code), (7, b.code), (7, a.code), (7, d.code), (8, 0x16)]
  | and {d a b ty} :
      TableRow (.and d a b ty) decAnd
        [(3, ty.code), (7, b.code), (7, a.code), (7, d.code), (8, 0x18)]
  | or {d a b ty} :
      TableRow (.or d a b ty) decOr [(3, ty.code), (7, b.code), (7, a.code), (7, d.code), (8, 0x19)]
  | xor {d a b ty} :
      TableRow (.xor d a b ty) decXor
        [(3, ty.code), (7, b.code), (7, a.code), (7, d.code), (8, 0x1A)]
  | shl {d a b ty} :
      TableRow (.shl d a b ty) decShl
        [(3, ty.code), (7, b.code), (7, a.code), (7, d.code), (8, 0x1B)]
  | shr {d a b ty} :
      TableRow (.shr d a b ty) decShr
        [(3, ty.code), (7, b.code), (7, a.code), (7, d.code), (8, 0x1C)]
  | sar {d a b ty} :
      TableRow (.sar d a b ty) decSar
        [(3, ty.code), (7, b.code), (7, a.code), (7, d.code), (8, 0x1D)]
  | bfx {d a b ty} :
      TableRow (.bfx d a b ty) decBfx
        [(3, ty.code), (7, b.code), (7, a.code), (7, d.code), (8, 0x21)]
  | bfi {d a b ty} :
      TableRow (.bfi d a b ty) decBfi
        [(3, ty.code), (7, b.code), (7, a.code), (7, d.code), (8, 0x22)]
  | lea {d a b ty} :
      TableRow (.lea d a b ty) decLea
        [(3, ty.code), (7, b.code), (7, a.code), (7, d.code), (8, 0x25)]
  | iabs {d a ty} :
      TableRow (.iabs d a ty) decIabs [(3, ty.code), (7, 0), (7, a.code), (7, d.code), (8, 0x17)]
  | popc {d a ty} :
      TableRow (.popc d a ty) decPopc [(3, ty.code), (7, 0), (7, a.code), (7, d.code), (8, 0x1E)]
  | clz {d a ty} :
      TableRow (.clz d a ty) decClz [(3, ty.code), (7, 0), (7, a.code), (7, d.code), (8, 0x1F)]
  | brev {d a ty} :
      TableRow (.brev d a ty) decBrev [(3, ty.code), (7, 0), (7, a.code), (7, d.code), (8, 0x20)]
  | mov {d a ty} :
      TableRow (.mov d a ty) decMov [(3, ty.code), (7, 0), (7, a.code), (7, d.code), (8, 0x26)]
  | sel {d a b p} :
      TableRow (.sel d a b p) decSel [(3, p.val), (7, b.code), (7, a.code), (7, d.val), (8, 0x23)]
  | icmp {c p a b ty} :
      TableRow (.icmp c p a b ty) decIcmp
        [(3, ty.code), (7, b.code), (7, a.code), (3, p.val), (4, c.code), (8, 0x24)]
  | iaddImm {d a imm} :
      TableRow (.iaddImm d a imm) decIaddImm [(10, imm.val), (7, a.code), (7, d.code), (8, 0x28)]
  | andImm {d a imm} :
      TableRow (.andImm d a imm) decAndImm [(10, imm.val), (7, a.code), (7, d.code), (8, 0x29)]
  | orImm {d a imm} :
      TableRow (.orImm d a imm) decOrImm [(10, imm.val), (7, a.code), (7, d.code), (8, 0x2A)]
  | xorImm {d a imm} :
      TableRow (.xorImm d a imm) decXorImm [(10, imm.val), (7, a.code), (7, d.code), (8, 0x2B)]
  | shlImm {d a count} :
      TableRow (.shlImm d a count) (fun w => decShlImm w <|> decShrImm w <|> decSarImm w)
        [(6, count.val), (4, 0), (7, a.code), (7, d.code), (8, 0x2C)]
  | shrImm {d a count} :
      TableRow (.shrImm d a count) (fun w => decShlImm w <|> decShrImm w <|> decSarImm w)
        [(6, count.val), (4, 4), (7, a.code), (7, d.code), (8, 0x2C)]
  | sarImm {d a count} :
      TableRow (.sarImm d a count) (fun w => decShlImm w <|> decShrImm w <|> decSarImm w)
        [(6, count.val), (4, 8), (7, a.code), (7, d.code), (8, 0x2C)]
  | icmpImm {c p a imm} :
      TableRow (.icmpImm c p a imm) decIcmpImm
        [(10, imm.val), (7, a.code), (3, p.val), (4, c.code), (8, 0x2D)]
  | movi {d imm} : TableRow (.movi d imm) decMovi [(17, imm.val), (7, d.code), (8, 0x2E)]
  | movu {d imm} : TableRow (.movu d imm) decMovu [(16, imm.val), (1, 0), (7, d.code), (8, 0x2F)]
  | fadd {d a b ty} :
      TableRow (.fadd d a b ty) decFadd
        [(3, ty.code), (7, b.code), (7, a.code), (7, d.val), (8, 0x30)]
  | fsub {d a b ty} :
      TableRow (.fsub d a b ty) decFsub
        [(3, ty.code), (7, b.code), (7, a.code), (7, d.val), (8, 0x31)]
  | fmul {d a b ty} :
      TableRow (.fmul d a b ty) decFmul
        [(3, ty.code), (7, b.code), (7, a.code), (7, d.val), (8, 0x32)]
  | ffma {d a b ty} :
      TableRow (.ffma d a b ty) decFfma
        [(3, ty.code), (7, b.code), (7, a.code), (7, d.val), (8, 0x33)]
  | fmin {d a b ty} :
      TableRow (.fmin d a b ty) decFmin
        [(3, ty.code), (7, b.code), (7, a.code), (7, d.val), (8, 0x34)]
  | fmax {d a b ty} :
      TableRow (.fmax d a b ty) decFmax
        [(3, ty.code), (7, b.code), (7, a.code), (7, d.val), (8, 0x35)]
  | fcmp {c p a b ty} :
      TableRow (.fcmp c p a b ty) decFcmp
        [(3, ty.code), (7, b.code), (7, a.code), (3, p.val), (4, c.code), (8, 0x36)]
  | frcp {d a look ty} :
      TableRow (.frcp d a look ty) decFrcp
        [(3, ty.code), (4, look.val), (3, 0), (7, a.code), (7, d.val), (8, 0x37)]
  | frsq {d a look ty} :
      TableRow (.frsq d a look ty) decFrsq
        [(3, ty.code), (4, look.val), (3, 0), (7, a.code), (7, d.val), (8, 0x38)]
  | fex2 {d a look ty} :
      TableRow (.fex2 d a look ty) decFex2
        [(3, ty.code), (4, look.val), (3, 0), (7, a.code), (7, d.val), (8, 0x39)]
  | flg2 {d a look ty} :
      TableRow (.flg2 d a look ty) decFlg2
        [(3, ty.code), (4, look.val), (3, 0), (7, a.code), (7, d.val), (8, 0x3A)]
  | ftanh {d a look ty} :
      TableRow (.ftanh d a look ty) decFtanh
        [(3, ty.code), (4, look.val), (3, 0), (7, a.code), (7, d.val), (8, 0x3B)]
  | cvt {d a code m} :
      TableRow (.cvt d a code m) decCvt
        [(3, 7), (2, m.code), (5, code.val), (7, a.code), (7, d.val), (8, 0x3C)]
  | packmx {d a fmt} :
      TableRow (.packmx d a fmt) decPackmx
        [(7, 7), (3, fmt.code), (7, a.code), (7, d.val), (8, 0x3D)]
  | unpkmx {d a fmt} :
      TableRow (.unpkmx d a fmt) decUnpkmx
        [(7, 7), (3, fmt.code), (7, a.code), (7, d.val), (8, 0x3E)]
  | planePack {d a} :
      TableRow (.planePack d a) (fun w => decPlanePack w <|> decPlaneUnpack w)
        [(10, 7), (7, a.code), (7, d.val), (8, 0x3F)]
  | planeUnpack {d a j} :
      TableRow (.planeUnpack d a j) (fun w => decPlanePack w <|> decPlaneUnpack w)
        [(3, 7), (4, j.val), (3, 1), (7, a.code), (7, d.val), (8, 0x3F)]
  | shfl {mode pair d a b} :
      TableRow (.shfl mode pair d a b) decShfl
        [(2, mode.code), (1, bitOf pair), (7, b.code), (7, a.code), (7, d.val), (8, 0x40)]
  | vote {mode pair p a} :
      TableRow (.vote mode pair p a) decVote
        [(1, 0), (1, bitOf pair), (8, 0), (7, a.code), (3, p.val), (4, mode.code), (8, 0x41)]
  | matchLanes {d p a ty} :
      TableRow (.matchLanes d p a ty) decMatchLanes
        [(3, ty.code), (4, 0), (3, p.val), (7, a.code), (7, d.val), (8, 0x42)]
  | tred {op ty d a} :
      TableRow (.tred op ty d a) decTred
        [(3, ty.code), (2, op.code), (5, 0), (7, a.code), (7, d.val), (8, 0x43)]
  | tscan {op excl ty d a} :
      TableRow (.tscan op excl ty d a) decTscan
        [(3, ty.code), (2, op.code), (1, bitOf excl), (4, 0), (7, a.code), (7, d.val), (8, 0x44)]
  | plog {op pd pa pb} :
      TableRow (.plog op pd pa pb) decPlog
        [(3, 7), (3, pb.val), (4, 0), (3, pa.val), (4, 0), (3, pd.val), (4, op.code), (8, 0x45)]
  | pcnt {d p} : TableRow (.pcnt d p) decPcnt [(10, 7), (3, p.val), (4, 0), (7, d.code), (8, 0x46)]
  | pmovToVector {d p} :
      TableRow (.pmovToVector d p) (fun w => decPmovToVector w <|> decPmovToPredicate w <|> decPmovWord w)
        [(10, 7), (3, p.val), (4, 0), (7, d.val), (8, 0x47)]
  | pmovToPredicate {p a} :
      TableRow (.pmovToPredicate p a) (fun w => decPmovToVector w <|> decPmovToPredicate w <|> decPmovWord w)
        [(10, 263), (7, a.code), (3, p.val), (4, 0), (8, 0x47)]
  | pmovWord {d p w} :
      TableRow (.pmovWord d p w) (fun w => decPmovToVector w <|> decPmovToPredicate w <|> decPmovWord w)
        [(3, 7), (5, w.val), (2, 2), (3, p.val), (4, 0), (7, d.val + 104), (8, 0x47)]
  | ldB {t m look} :
      TableRow (.ldB t m look) decLdB
        [(1, bitOf m.w), (4, look.val), (5, m.s.code), (7, m.x.code), (7, t.code), (8, 0x50)]
  | ldH {t m look} :
      TableRow (.ldH t m look) decLdH
        [(1, bitOf m.w), (4, look.val), (5, m.s.code), (7, m.x.code), (7, t.code), (8, 0x51)]
  | ldW {t m look} :
      TableRow (.ldW t m look) decLdW
        [(1, bitOf m.w), (4, look.val), (5, m.s.code), (7, m.x.code), (7, t.code), (8, 0x52)]
  | ldD {t m look} :
      TableRow (.ldD t m look) decLdD
        [(1, bitOf m.w), (4, look.val), (5, m.s.code), (7, m.x.code), (7, t.code), (8, 0x53)]
  | ldQ {t m look} :
      TableRow (.ldQ t m look) decLdQ
        [(1, bitOf m.w), (4, look.val), (5, m.s.code), (7, m.x.code), (7, t.val), (8, 0x54)]
  | stB {t m look} :
      TableRow (.stB t m look) decStB
        [(1, bitOf m.w), (4, look.val), (5, m.s.code), (7, m.x.code), (7, t.code), (8, 0x55)]
  | stH {t m look} :
      TableRow (.stH t m look) decStH
        [(1, bitOf m.w), (4, look.val), (5, m.s.code), (7, m.x.code), (7, t.code), (8, 0x56)]
  | stW {t m look} :
      TableRow (.stW t m look) decStW
        [(1, bitOf m.w), (4, look.val), (5, m.s.code), (7, m.x.code), (7, t.code), (8, 0x57)]
  | stD {t m look} :
      TableRow (.stD t m look) decStD
        [(1, bitOf m.w), (4, look.val), (5, m.s.code), (7, m.x.code), (7, t.code), (8, 0x58)]
  | stQ {t m look} :
      TableRow (.stQ t m look) decStQ
        [(1, bitOf m.w), (4, look.val), (5, m.s.code), (7, m.x.code), (7, t.val), (8, 0x59)]
  | ldlW {t m look} :
      TableRow (.ldlW t m look) decLdlW
        [(1, bitOf m.w), (4, look.val), (5, m.s.code), (7, m.x.code), (7, t.val), (8, 0x5A)]
  | ldlQ {t m look} :
      TableRow (.ldlQ t m look) decLdlQ
        [(1, bitOf m.w), (4, look.val), (5, m.s.code), (7, m.x.code), (7, t.val), (8, 0x5B)]
  | stlW {t m look} :
      TableRow (.stlW t m look) decStlW
        [(1, bitOf m.w), (4, look.val), (5, m.s.code), (7, m.x.code), (7, t.val), (8, 0x5C)]
  | stlQ {t m look} :
      TableRow (.stlQ t m look) decStlQ
        [(1, bitOf m.w), (4, look.val), (5, m.s.code), (7, m.x.code), (7, t.val), (8, 0x5D)]
  | ldu {t m look} :
      TableRow (.ldu t m look) decLdu
        [(1, bitOf m.w), (4, look.val), (5, m.s.code), (7, m.x.code), (7, t.code), (8, 0x60)]
  | stu {t m look} :
      TableRow (.stu t m look) decStu
        [(1, bitOf m.w), (4, look.val), (5, m.s.code), (7, m.x.code), (7, t.code), (8, 0x61)]
  | ldcW {t m c} :
      TableRow (.ldcW t m c) decLdcW
        [(1, bitOf m.w), (4, c.val), (5, m.s.code), (7, m.x.code), (7, t.val), (8, 0x5E)]
  | ldcQ {t m c} :
      TableRow (.ldcQ t m c) decLdcQ
        [(1, bitOf m.w), (4, c.val), (5, m.s.code), (7, m.x.code), (7, t.val), (8, 0x5F)]
  | ldAcq {t m sc d} :
      TableRow (.ldAcq t m sc d) decLdAcq
        [(1, bitOf m.w), (1, bitOf d), (3, sc.code), (5, m.s.code), (7, m.x.code), (7, t.code), (8, 0x62)]
  | stRel {t m sc d} :
      TableRow (.stRel t m sc d) decStRel
        [(1, bitOf m.w), (1, bitOf d), (3, sc.code), (5, m.s.code), (7, m.x.code), (7, t.code), (8, 0x63)]
  | atom {op t m} :
      TableRow (.atom op t m) decAtom
        [(1, bitOf m.w), (4, op.code), (5, m.s.code), (7, m.x.code), (7, t.val), (8, 0x64)]
  | red {op t m} :
      TableRow (.red op t m) decRed
        [(1, bitOf m.w), (4, op.code), (5, m.s.code), (7, m.x.code), (7, t.val), (8, 0x65)]
  | atoml {op t m} :
      TableRow (.atoml op t m) decAtoml
        [(1, bitOf m.w), (4, op.code), (5, m.s.code), (7, m.x.code), (7, t.val), (8, 0x66)]
  | fence {sc acq rel} :
      TableRow (.fence sc acq rel) decFence
        [(1, bitOf rel), (1, bitOf acq), (3, sc.code), (19, 0), (8, 0x67)]
  | waitv {ne sc t m} :
      TableRow (.waitv ne sc t m) decWaitv
        [(1, bitOf m.w), (1, bitOf ne), (3, sc.code), (5, m.s.code), (7, m.x.code), (7, t.val), (8, 0x68)]
  | await {a v} :
      TableRow (.await a v) decAwait
        [(4, a.val), (9, v.image), (1, v.mode), (5, 0), (5, v.reg), (8, 0x69)]
  | aset {a v} :
      TableRow (.aset a v) decAset
        [(4, a.val), (9, v.image), (1, v.mode), (5, 0), (5, v.reg), (8, 0x6A)]
  | xfer {chan tmpl f} :
      TableRow (.xfer chan tmpl f) (fun w => decXfer w <|> decXferReg w)
        [(5, 0), (4, f.code), (12, tmpl.val), (1, 0), (2, chan.val), (8, 0x70)]
  | xferReg {chan s f} :
      TableRow (.xferReg chan s f) (fun w => decXfer w <|> decXferReg w)
        [(5, s.val), (4, f.code), (13, 4096), (2, chan.val), (8, 0x70)]
  | xptr {sd sa acq sc} :
      TableRow (.xptr sd sa acq sc) decXptr
        [(2, sc.code), (1, 0), (1, bitOf acq), (10, 0), (5, sa.val), (5, sd.val), (8, 0x71)]
  | rowcpy {sd sa sc f} :
      TableRow (.rowcpy sd sa sc f) decRowcpy
        [(4, f.code), (5, sc.val), (5, 0), (5, sa.val), (5, sd.val), (8, 0x78)]
  | rowfil {sd sa sc f} :
      TableRow (.rowfil sd sa sc f) decRowfil
        [(4, f.code), (5, sc.val), (5, 0), (5, sa.val), (5, sd.val), (8, 0x79)]
  | rownot {sd sa sc f} :
      TableRow (.rownot sd sa sc f) decRownot
        [(4, f.code), (5, sc.val), (5, 0), (5, sa.val), (5, sd.val), (8, 0x7C)]
  | rowand {sd sa sb sc f} :
      TableRow (.rowand sd sa sb sc f) decRowand
        [(4, f.code), (5, sc.val), (5, sb.val), (5, sa.val), (5, sd.val), (8, 0x7A)]
  | rowor {sd sa sb sc f} :
      TableRow (.rowor sd sa sb sc f) decRowor
        [(4, f.code), (5, sc.val), (5, sb.val), (5, sa.val), (5, sd.val), (8, 0x7B)]
  | rowmaj {sd sa sb sc f} :
      TableRow (.rowmaj sd sa sb sc f) decRowmaj
        [(4, f.code), (5, sc.val), (5, sb.val), (5, sa.val), (5, sd.val), (8, 0x7D)]
  | rowxor {sd sa sb sc f} :
      TableRow (.rowxor sd sa sb sc f) decRowxor
        [(4, f.code), (5, sc.val), (5, sb.val), (5, sa.val), (5, sd.val), (8, 0x7E)]
  | rowstat {sd acq sc} :
      TableRow (.rowstat sd acq sc) (fun w => decRowstat w <|> decRowstatPoll w)
        [(2, sc.code), (1, 0), (1, bitOf acq), (15, 0), (5, sd.val), (8, 0x7F)]
  | rowstatPoll {sd acq sc} :
      TableRow (.rowstatPoll sd acq sc) (fun w => decRowstat w <|> decRowstatPoll w)
        [(2, sc.code), (1, 0), (1, bitOf acq), (15, 1024), (5, sd.val), (8, 0x7F)]
  | capt {kd se sm} :
      TableRow (.capt kd se sm) (fun w => decCapt w <|> decCaptRef w <|> decCaptLane w)
        [(11, 0), (5, sm.val), (5, se.val), (3, kd.val), (8, 0x80)]
  | captRef {kd se sm} :
      TableRow (.captRef kd se sm) (fun w => decCapt w <|> decCaptRef w <|> decCaptLane w)
        [(11, 1024), (5, sm.val), (5, se.val), (3, kd.val), (8, 0x80)]
  | captLane {se sm} :
      TableRow (.captLane se sm) (fun w => decCapt w <|> decCaptRef w <|> decCaptLane w)
        [(11, 512), (5, sm.val), (5, se.val), (3, 0), (8, 0x80)]
  | apply {kd} :
      TableRow (.apply kd) (fun w => decApply w <|> decApplyLane w)
        [(21, 0), (3, kd.val), (8, 0x81)]
  | applyLane {vh} :
      TableRow (.applyLane vh) (fun w => decApply w <|> decApplyLane w)
        [(11, 512), (7, vh.val), (6, 0), (8, 0x81)]
  | kdup {kd ks} :
      TableRow (.kdup kd ks) decKdup [(16, 0), (3, ks.val), (2, 0), (3, kd.val), (8, 0x82)]
  | kdrop {kd} : TableRow (.kdrop kd) decKdrop [(21, 0), (3, kd.val), (8, 0x83)]
  | kld {kd se} : TableRow (.kld kd se) decKld [(16, 0), (5, se.val), (3, kd.val), (8, 0x84)]
  | kst {kd se} : TableRow (.kst kd se) decKst [(16, 0), (5, se.val), (3, kd.val), (8, 0x85)]
  | kqry {kd se} : TableRow (.kqry kd se) decKqry [(16, 0), (5, se.val), (3, kd.val), (8, 0x86)]
  | tarm {sa sb k st} :
      TableRow (.tarm sa sb k st) decTarm
        [(5, st.val), (3, k.val), (6, 0), (5, sb.val), (5, sa.val), (8, 0x88)]
  | tsig {sa st} : TableRow (.tsig sa st) decTsig [(5, st.val), (14, 0), (5, sa.val), (8, 0x89)]
  | qapply {sa k st} :
      TableRow (.qapply sa k st) (fun w => decQapply w <|> decQapplyLane w)
        [(5, st.val), (1, 0), (3, k.val), (10, 0), (5, sa.val), (8, 0x8A)]
  | qapplyLane {sa vh st} :
      TableRow (.qapplyLane sa vh st) (fun w => decQapply w <|> decQapplyLane w)
        [(5, st.val), (1, 0), (7, vh.val), (6, 1), (5, sa.val), (8, 0x8A)]
  | launch {sa sb st} :
      TableRow (.launch sa sb st) decLaunch
        [(5, st.val), (9, 0), (5, sb.val), (5, sa.val), (8, 0x8B)]
  | join {sa w st} :
      TableRow (.join sa w st) decJoin [(5, st.val), (7, w.val), (7, 0), (5, sa.val), (8, 0x90)]
  | leave : TableRow .leave decLeave [(24, 0), (8, 0x91)]
  | barv {b} : TableRow (.barv b) decBarv [(4, b.val), (20, 0), (8, 0x92)]
  | bara {b} : TableRow (.bara b) decBara [(4, b.val), (20, 0), (8, 0x93)]
  | barw {b} : TableRow (.barw b) decBarw [(4, b.val), (20, 0), (8, 0x94)]
  | cohq {sd b} :
      TableRow (.cohq sd b) decCohq [(4, b.val), (10, 0), (5, sd.val), (5, 0), (8, 0x95)]
  | bdeclList {sl sh prio st} :
      TableRow (.bdeclList sl sh prio st) (fun w => decBdeclList w <|> decBdeclRec w)
        [(5, st.val), (3, prio.val), (6, 0), (5, sh.val), (5, sl.val), (8, 0x98)]
  | bdeclRec {sl sh prio st} :
      TableRow (.bdeclRec sl sh prio st) (fun w => decBdeclList w <|> decBdeclRec w)
        [(5, st.val), (3, prio.val), (6, 1), (5, sh.val), (5, sl.val), (8, 0x98)]
  | benter {sh st mode n1} :
      TableRow (.benter sh st mode n1) decBenter
        [(2, n1.val), (2, mode.code), (10, 0), (5, st.val), (5, sh.val), (8, 0x99)]
  | bexit {sh st} : TableRow (.bexit sh st) decBexit [(14, 0), (5, st.val), (5, sh.val), (8, 0x9A)]
  | bdrop {sh st} : TableRow (.bdrop sh st) decBdrop [(14, 0), (5, st.val), (5, sh.val), (8, 0x9B)]
  | bqry {sh sd} : TableRow (.bqry sh sd) decBqry [(14, 0), (5, sd.val), (5, sh.val), (8, 0x9C)]
  | matt {sa sb st} :
      TableRow (.matt sa sb st) decMatt [(5, st.val), (9, 0), (5, sb.val), (5, sa.val), (8, 0xA0)]
  | mdet {st} : TableRow (.mdet st) decMdet [(5, st.val), (19, 0), (8, 0xA1)]
  | mwb {slot rec idx} :
      TableRow (.mwb slot rec idx) decMwb [(8, idx.val), (8, rec.val), (8, slot.val), (8, 0xC0)]
  | mlw {slot} : TableRow (.mlw slot) decMlw [(16, 0), (8, slot.val), (8, 0xC1)]
  | mma {tile stamp rec slot m1} :
      TableRow (.mma tile stamp rec slot m1) decMma
        [(9, m1.val), (4, slot.val), (1, 0), (1, bitOf stamp), (1, bitOf tile), (8, rec.val), (8, 0xC2)]
  | msta {fmt ieee tile rec} :
      TableRow (.msta fmt ieee tile rec) decMsta
        [(10, 0), (4, fmt.code), (1, bitOf ieee), (1, bitOf tile), (8, rec.val), (8, 0xC3)]
  | mclr {tile int} :
      TableRow (.mclr tile int) decMclr
        [(8, 0), (1, bitOf int), (7, 0), (1, bitOf tile), (7, 0), (8, 0xC4)]
  | mfmt {f j srec} :
      TableRow (.mfmt f j srec) decMfmt [(8, srec.val), (8, j.val), (8, f.code), (8, 0xC5)]
  | mbar {b op} : TableRow (.mbar b op) decMbar [(8, 0), (8, op.val), (8, b.val), (8, 0xC6)]
  | mend : TableRow .mend decMend [(24, 0), (8, 0xC7)]

variable {i : Instr} {dec : Nat → Option Instr} {fs : List (Nat × Nat)}

theorem TableRow.width_eq (h : TableRow i dec fs) : width fs = 32 := by
  cases h <;> rfl

theorem CountSrc.image_lt (v : CountSrc) : v.image < 512 := by
  cases v with
  | s n => exact Nat.zero_lt_succ _
  | imm n => exact n.isLt

theorem CountSrc.reg_lt (v : CountSrc) : v.reg < 32 := by
  cases v with
  | s n => exact Nat.lt_trans n.isLt (by decide)
  | imm n => exact Nat.zero_lt_succ _

theorem CountSrc.mode_lt (v : CountSrc) : v.mode < 2 := by
  cases v <;> simp [CountSrc.mode]

theorem CountSrc.code_eq (v : CountSrc) : v.code = 16 * v.image + 8192 * v.mode + 524288 * v.reg := by
  cases v with
  | s n => simp only [CountSrc.code, CountSrc.image, CountSrc.mode, CountSrc.reg]; omega
  | imm n => simp only [CountSrc.code, CountSrc.image, CountSrc.mode, CountSrc.reg]; omega

/-- Every operand fits its field. -/
theorem TableRow.fits (h : TableRow i dec fs) : ∀ f ∈ fs, f.2 < 2 ^ f.1 := by
  cases h
  all_goals
    simp only [List.forall_mem_cons, List.not_mem_nil, IsEmpty.forall_iff, implies_true, Nat.reducePow,
      and_true, true_and, bitOf_lt, Reg.code_lt, Base.code_lt, IntTy.code_lt, FTy.code_lt, FArith.code_lt,
      RTy.code_lt, RedOp.code_lt, Rnd.code_lt, Scope.code_lt, EScope.code_lt, BrCond.code_lt,
      ICond.code_lt, ICondImm.code_lt, FCond.code_lt, MxFmt.code_lt, ShflMode.code_lt,
      VoteMode.code_lt, PlogOp.code_lt, AtomOp.code_lt, RettAction.code_lt, BMode.code_lt,
      AFmt.code_lt, MstaFmt.code_lt, EFlags.code_lt, CountSrc.image_lt, CountSrc.mode_lt,
      CountSrc.reg_lt]
  all_goals omega

theorem TableRow.encode_eq (h : TableRow i dec fs) : encode i = some (pack fs) := by
  cases h
  all_goals refine congrArg some ?_
  all_goals simp only [pack, MemOp.code, CountSrc.code_eq]; omega

theorem TableRow.of_encode {w : Nat} (h : encode i = some w) : ∃ dec fs, TableRow i dec fs := by
  cases i
  all_goals try contradiction
  all_goals exact ⟨_, _, by constructor⟩

theorem TableRow.decodeFields_eq (h : TableRow i dec fs) {w : Nat} (hr : Reads w 0 fs) :
    decodeFields (fld w 24 8) w = dec w := by
  cases h
  all_goals
    simp only [Reads, Nat.zero_add, Nat.reduceAdd, and_true] at hr
    simp only [hr]
    rfl

theorem bitOf_beq (b : Bool) : (bitOf b == 1) = b := by cases b <;> rfl

theorem flag_eq {w lo : Nat} {b : Bool} : (fld w lo 1 == 1) = b ↔ bitOf b = fld w lo 1 :=
  bitOf_eq (fld_lt w lo 1)

theorem IntTy.ofCode_code (t : IntTy) : IntTy.ofCode t.code = some t := IntTy.ofCode_eq_some.mpr rfl

theorem FTy.ofCode_code (t : FTy) : FTy.ofCode t.code = some t := FTy.ofCode_eq_some.mpr rfl

theorem FArith.ofCode_code (t : FArith) : FArith.ofCode t.code = some t := FArith.ofCode_eq_some.mpr rfl

theorem RTy.ofCode_code (t : RTy) : RTy.ofCode t.code = some t := RTy.ofCode_eq_some.mpr rfl

theorem RedOp.ofCode_code (t : RedOp) : RedOp.ofCode t.code = some t := RedOp.ofCode_eq_some.mpr rfl

theorem Rnd.ofCode_code (t : Rnd) : Rnd.ofCode t.code = some t := Rnd.ofCode_eq_some.mpr rfl

theorem Scope.ofCode_code (t : Scope) : Scope.ofCode t.code = some t := Scope.ofCode_eq_some.mpr rfl

theorem EScope.ofCode_code (t : EScope) : EScope.ofCode t.code = some t := EScope.ofCode_eq_some.mpr rfl

theorem BrCond.ofCode_code (t : BrCond) : BrCond.ofCode t.code = some t := BrCond.ofCode_eq_some.mpr rfl

theorem ICond.ofCode_code (t : ICond) : ICond.ofCode t.code = some t := ICond.ofCode_eq_some.mpr rfl

theorem ICondImm.ofCode_code (t : ICondImm) : ICondImm.ofCode t.code = some t := ICondImm.ofCode_eq_some.mpr rfl

theorem FCond.ofCode_code (t : FCond) : FCond.ofCode t.code = some t := FCond.ofCode_eq_some.mpr rfl

theorem MxFmt.ofCode_code (t : MxFmt) : MxFmt.ofCode t.code = some t := MxFmt.ofCode_eq_some.mpr rfl

theorem ShflMode.ofCode_code (t : ShflMode) : ShflMode.ofCode t.code = some t := ShflMode.ofCode_eq_some.mpr rfl

theorem VoteMode.ofCode_code (t : VoteMode) : VoteMode.ofCode t.code = some t := VoteMode.ofCode_eq_some.mpr rfl

theorem PlogOp.ofCode_code (t : PlogOp) : PlogOp.ofCode t.code = some t := PlogOp.ofCode_eq_some.mpr rfl

theorem AtomOp.ofCode_code (t : AtomOp) : AtomOp.ofCode t.code = some t := AtomOp.ofCode_eq_some.mpr rfl

theorem RettAction.ofCode_code (t : RettAction) : RettAction.ofCode t.code = some t := RettAction.ofCode_eq_some.mpr rfl

theorem BMode.ofCode_code (t : BMode) : BMode.ofCode t.code = some t := BMode.ofCode_eq_some.mpr rfl

theorem AFmt.ofCode_code (t : AFmt) : AFmt.ofCode t.code = some t := AFmt.ofCode_eq_some.mpr rfl

theorem MstaFmt.ofCode_code (t : MstaFmt) : MstaFmt.ofCode t.code = some t := MstaFmt.ofCode_eq_some.mpr rfl

theorem Reg.ofCode_code (t : Reg) : Reg.ofCode t.code = some t := Reg.ofCode_eq_some.mpr rfl

theorem Base.ofCode_code (t : Base) : Base.ofCode t.code = some t := Base.ofCode_eq_some.mpr rfl

theorem EFlags.ofCode_code (f : EFlags) : EFlags.ofCode f.code = some f :=
  (EFlags.ofCode_eq_some f.code_lt).mpr rfl

theorem finOf_val {n : Nat} (f : Fin n) : finOf n f.val = some f := finOf_eq_some.mpr rfl

theorem sOfFull_add (a : SReg) : sOfFull (a.val + 104) = some a := sOfFull_eq_some.mpr rfl

theorem fld_append (w lo n m : Nat) : fld w lo (n + m) = fld w lo n + 2 ^ n * fld w (lo + n) m := by
  simp only [fld, Nat.pow_add, Nat.mod_mul, Nat.div_div_eq_div_mul]

theorem CountSrc.ofWord_of_fields {w : Nat} {v : CountSrc} (hi : fld w 4 9 = v.image)
    (hm : fld w 13 1 = v.mode) (hr : fld w 19 5 = v.reg) : CountSrc.ofWord w = some v :=
  CountSrc.ofWord_eq_some.mpr ⟨hi.symm, hm.symm, hr.symm⟩

theorem TableRow.dec_eq (h : TableRow i dec fs) {w : Nat} (hr : Reads w 0 fs) : dec w = some i := by
  cases h
  all_goals simp only [Reads, Nat.zero_add, Nat.reduceAdd, and_true] at hr
  case planeUnpack =>
    have hne : fld w 0 10 ≠ 7 := by
      rw [fld_append w 0 7 3, Nat.zero_add, hr.2.2.1]; omega
    simp [decPlanePack, decPlaneUnpack, hne, finOf_val, Reg.ofCode_code, hr]
  case pmovWord =>
    have h10 : fld w 0 10 = fld w 0 8 + 2 ^ 8 * 2 := by rw [fld_append w 0 8 2, Nat.zero_add, hr.2.2.1]
    have hv : fld w 0 10 ≠ 7 := by omega
    have hp : fld w 0 10 ≠ 263 := by omega
    simp [decPmovToVector, decPmovToPredicate, decPmovWord, hv, hp, finOf_val, sOfFull_add, hr]
  case xferReg =>
    have hmode : fld w 21 1 ≠ 0 := by
      have h13 := fld_append w 9 12 1
      have := fld_lt w 9 12
      simp only [Nat.reduceAdd, Nat.reducePow, hr] at h13 this
      omega
    simp [decXfer, decXferReg, hmode, finOf_val, EFlags.ofCode_code, hr]
  case applyLane =>
    have hne : fld w 0 21 ≠ 0 := by
      rw [fld_append w 0 11 10, hr.1]; omega
    simp [decApply, decApplyLane, hne, finOf_val, hr]
  case qapplyLane =>
    have hne : fld w 9 10 ≠ 0 := by
      rw [fld_append w 9 4 6, hr.2.2.2.1]; omega
    simp [decQapply, decQapplyLane, hne, finOf_val, hr]
  case await v =>
    have hv : CountSrc.ofWord w = some v := CountSrc.ofWord_of_fields hr.2.1 hr.2.2.1 hr.2.2.2.2.1
    simp [decAwait, hv, finOf_val, hr]
  case aset v =>
    have hv : CountSrc.ofWord w = some v := CountSrc.ofWord_of_fields hr.2.1 hr.2.2.1 hr.2.2.2.2.1
    simp [decAset, hv, finOf_val, hr]
  all_goals
    simp [
      decNop, decBra, decBrx, decCall, decRet, decSplit, decFlip, decMerge, decPrune, decExit,
      decTrap, decRett, decBkpt, decSrd, decSwr, decIadd, decIsub, decImul, decImulh, decImad,
      decImin, decImax, decAnd, decOr, decXor, decShl, decShr, decSar, decBfx, decBfi, decLea,
      decIabs, decPopc, decClz, decBrev, decMov, decSel, decIcmp, decIaddImm, decAndImm,
      decOrImm, decXorImm, decShlImm, decShrImm, decSarImm, decIcmpImm, decMovi, decMovu,
      decFadd, decFsub, decFmul, decFfma, decFmin, decFmax, decFcmp, decFrcp, decFrsq,
      decFex2, decFlg2, decFtanh, decCvt, decPackmx, decUnpkmx, decPlanePack, decShfl,
      decVote, decMatchLanes, decTred, decTscan, decPlog, decPcnt, decPmovToVector,
      decPmovToPredicate, decLdB, decLdH, decLdW, decLdD, decLdQ, decStB, decStH, decStW,
      decStD, decStQ, decLdlW, decLdlQ, decStlW, decStlQ, decLdu, decStu, decLdcW, decLdcQ,
      decLdAcq, decStRel, decAtom, decRed, decAtoml, decFence, decWaitv, decXfer, decXptr,
      decRowcpy, decRowfil, decRownot, decRowand, decRowor, decRowmaj, decRowxor, decRowstat,
      decRowstatPoll, decCapt, decCaptRef, decCaptLane, decApply, decKdup, decKdrop, decKld,
      decKst, decKqry, decTarm, decTsig, decQapply, decLaunch, decJoin, decLeave, decBarv,
      decBara, decBarw, decCohq, decBdeclList, decBdeclRec, decBenter, decBexit, decBdrop,
      decBqry, decMatt, decMdet, decMwb, decMlw, decMma, decMsta, decMclr, decMfmt, decMbar,
      decMend,
      MemOp.ofWord, finOf_val, sOfFull_add, bitOf_beq,
      IntTy.ofCode_code, FTy.ofCode_code, FArith.ofCode_code, RTy.ofCode_code,
      RedOp.ofCode_code, Rnd.ofCode_code, Scope.ofCode_code, EScope.ofCode_code,
      BrCond.ofCode_code, ICond.ofCode_code, ICondImm.ofCode_code, FCond.ofCode_code,
      MxFmt.ofCode_code, ShflMode.ofCode_code, VoteMode.ofCode_code, PlogOp.ofCode_code,
      AtomOp.ofCode_code, RettAction.ofCode_code, BMode.ofCode_code, AFmt.ofCode_code,
      MstaFmt.ofCode_code, Reg.ofCode_code, Base.ofCode_code, EFlags.ofCode_code, hr]

theorem or_of_orElse_eq_some {α : Type} {a b : Option α} {x : α} (h : (a <|> b) = some x) :
    a = some x ∨ b = some x := by
  cases a with
  | none => exact .inr h
  | some y => exact .inl h

/-- Each decoder yields its instruction from the values of its fields alone, and reads all of them. -/
theorem row_of_decodeFields {op w : Nat} {i : Instr} (hop : fld w 24 8 = op)
    (h : decodeFields op w = some i) : ∃ dec fs, TableRow i dec fs ∧ Reads w 0 fs := by
  unfold decodeFields at h
  split at h
  case h_140 => cases h
  all_goals (repeat' rcases or_of_orElse_eq_some h with h | h)
  all_goals
    simp only [
      decNop, decBra, decBrx, decCall, decRet, decSplit, decFlip, decMerge, decPrune, decExit,
      decTrap, decRett, decBkpt, decSrd, decSwr, decIadd, decIsub, decImul, decImulh, decImad,
      decImin, decImax, decAnd, decOr, decXor, decShl, decShr, decSar, decBfx, decBfi, decLea,
      decIabs, decPopc, decClz, decBrev, decMov, decSel, decIcmp, decIaddImm, decAndImm,
      decOrImm, decXorImm, decShlImm, decShrImm, decSarImm, decIcmpImm, decMovi, decMovu,
      decFadd, decFsub, decFmul, decFfma, decFmin, decFmax, decFcmp, decFrcp, decFrsq,
      decFex2, decFlg2, decFtanh, decCvt, decPackmx, decUnpkmx, decPlanePack, decPlaneUnpack,
      decShfl, decVote, decMatchLanes, decTred, decTscan, decPlog, decPcnt, decPmovToVector,
      decPmovToPredicate, decPmovWord, decLdB, decLdH, decLdW, decLdD, decLdQ, decStB, decStH,
      decStW, decStD, decStQ, decLdlW, decLdlQ, decStlW, decStlQ, decLdu, decStu, decLdcW,
      decLdcQ, decLdAcq, decStRel, decAtom, decRed, decAtoml, decFence, decWaitv, decAwait,
      decAset, decXfer, decXferReg, decXptr, decRowcpy, decRowfil, decRownot, decRowand,
      decRowor, decRowmaj, decRowxor, decRowstat, decRowstatPoll, decCapt, decCaptRef,
      decCaptLane, decApply, decApplyLane, decKdup, decKdrop, decKld, decKst, decKqry,
      decTarm, decTsig, decQapply, decQapplyLane, decLaunch, decJoin, decLeave, decBarv,
      decBara, decBarw, decCohq, decBdeclList, decBdeclRec, decBenter, decBexit, decBdrop,
      decBqry, decMatt, decMdet, decMwb, decMlw, decMma, decMsta, decMclr, decMfmt, decMbar,
      decMend] at h
  all_goals (repeat' split at h)
  all_goals cases h
  all_goals
    simp only [beq_iff_eq, Bool.and_eq_true, Option.some.injEq, flag_eq, finOf_eq_some, sOfFull_eq_some,
      MemOp.ofWord_eq_some, CountSrc.ofWord_eq_some, EFlags.ofCode_eq_some (fld_lt _ _ 4),
      IntTy.ofCode_eq_some, FTy.ofCode_eq_some, FArith.ofCode_eq_some, RTy.ofCode_eq_some,
      RedOp.ofCode_eq_some, Rnd.ofCode_eq_some, Scope.ofCode_eq_some, EScope.ofCode_eq_some,
      BrCond.ofCode_eq_some, ICond.ofCode_eq_some, ICondImm.ofCode_eq_some, FCond.ofCode_eq_some,
      MxFmt.ofCode_eq_some, ShflMode.ofCode_eq_some, VoteMode.ofCode_eq_some, PlogOp.ofCode_eq_some,
      AtomOp.ofCode_eq_some, RettAction.ofCode_eq_some, BMode.ofCode_eq_some, AFmt.ofCode_eq_some,
      MstaFmt.ofCode_eq_some, Reg.ofCode_eq_some] at *
  all_goals refine ⟨_, _, by constructor, ?_⟩
  all_goals simp [Reads, bitOf_fld, *]

theorem TableRow.isAssigned_opcode (h : TableRow i dec fs) {w : Nat} (hr : Reads w 0 fs) :
    isAssigned (fld w 24 8) = true := by
  cases h
  all_goals
    simp only [Reads, Nat.zero_add, Nat.reduceAdd, and_true] at hr
    simp only [hr]
    rfl

theorem lt_of_isAssigned {op : Nat} (h : isAssigned op = true) : op < 0xE0 := by
  simp only [isAssigned, isStreamOp, Bool.or_eq_true, Bool.and_eq_true, decide_eq_true_eq,
    beq_iff_eq] at h
  omega

theorem isAssigned_of_decodeFields {w : Nat} {i : Instr}
    (h : decodeFields (fld w 24 8) w = some i) : isAssigned (fld w 24 8) = true := by
  obtain ⟨_, _, hrow, hr⟩ := row_of_decodeFields rfl h
  exact hrow.isAssigned_opcode hr

theorem op_eq_fld (w : Word) : w.toNat / 2 ^ 24 = fld w.toNat 24 8 := by
  have := w.isLt
  simp only [fld]; omega

theorem decodeWord_eq_ok {w : Word} {i : Instr} :
    decodeWord w = .ok i ↔ decodeFields (fld w.toNat 24 8) w.toNat = some i ∧ i.wf = true := by
  simp only [decodeWord, op_eq_fld]
  constructor
  · intro h
    repeat' split at h
    all_goals cases h
    exact ⟨‹_›, ‹_›⟩
  · rintro ⟨h, hwf⟩
    have ha := isAssigned_of_decodeFields h
    have hlt := lt_of_isAssigned ha
    rw [if_neg (by simp; omega), if_neg (by omega), if_neg (by simp [ha]), h]
    simp [hwf]

/-- Settles O21: the fields of the row of i are the fields that its word has (`TableRow.encode_eq`,
`reads_of_pack`), and the decoder of the row's opcode reads i from them (`TableRow.dec_eq`). -/
theorem decodingReadsBackEveryEncoding : Obligations.DecodingReadsBackEveryEncoding := by
  unfold Obligations.DecodingReadsBackEveryEncoding
  intro i w hwf hw
  obtain ⟨dec, fs, hrow⟩ := TableRow.of_encode hw
  obtain rfl : pack fs = w := Option.some.inj (hrow.encode_eq ▸ hw)
  have hlt : pack fs < 2 ^ 32 := hrow.width_eq ▸ pack_lt hrow.fits
  have hr : Reads (pack fs) 0 fs := reads_of_pack hrow.fits (by simp)
  refine ⟨hlt, decodeWord_eq_ok.mpr ⟨?_, hwf⟩⟩
  rw [BitVec.toNat_ofNat, Nat.mod_eq_of_lt hlt, hrow.decodeFields_eq hr]
  exact hrow.dec_eq hr

/-- Settles O22: a word that decodes has the fields of a row of its instruction
(`row_of_decodeFields`), and the row's fields determine the word (`pack_of_reads`). -/
theorem encodingGivesBackEveryWord : Obligations.EncodingGivesBackEveryWord := by
  unfold Obligations.EncodingGivesBackEveryWord
  intro w i h
  obtain ⟨hdec, hwf⟩ := decodeWord_eq_ok.mp h
  obtain ⟨dec, fs, hrow, hr⟩ := row_of_decodeFields rfl hdec
  refine ⟨hwf, ?_⟩
  rw [hrow.encode_eq, pack_of_reads hr, hrow.width_eq, Nat.pow_zero, Nat.div_one,
    Nat.mod_eq_of_lt w.isLt]

end Sys2Proof
end

section
/-! SUPPORT. Words that decode and words that are refused (R45, R55). -/

open Sys2Proof
namespace Sys2Proof

theorem decodeWord_unassigned {w : Word} (hlt : w.toNat / 2 ^ 24 < 0xE0)
    (ha : isAssigned (w.toNat / 2 ^ 24) = false) : decodeWord w = .error .reservedOpcode := by
  unfold decodeWord
  rw [if_neg (by simp; omega), if_neg (by omega), if_pos (by simpa using ha)]

/-- An assigned opcode whose decoder finds a field that breaks its encoding. -/
theorem decodeWord_badField {w : Word} {op : Nat} (hop : w.toNat / 2 ^ 24 = op)
    (ha : isAssigned op = true) (hnone : decodeFields op w.toNat = none) :
    decodeWord w = .error .badField := by
  have hlt := lt_of_isAssigned ha
  simp only [decodeWord, hop]
  rw [if_neg (by simp; omega), if_neg (by omega), if_neg (by simp [ha]), hnone]

theorem isAssigned_eq_false_of_reserved {op : Nat}
    (h : op = 0x0F ∨ op = 0x27 ∨ (0x48 ≤ op ∧ op ≤ 0x4F) ∨ (0x6B ≤ op ∧ op ≤ 0x6F) ∨
      (0x72 ≤ op ∧ op ≤ 0x77) ∨ op = 0x87 ∨ (0x8C ≤ op ∧ op ≤ 0x8F) ∨ op = 0x96 ∨ op = 0x97 ∨
      (0x9D ≤ op ∧ op ≤ 0x9F) ∨ (0xA2 ≤ op ∧ op ≤ 0xBF) ∨ (0xC8 ≤ op ∧ op ≤ 0xDF)) :
    isAssigned op = false := by
  rw [Bool.eq_false_iff]
  simp only [isAssigned, isStreamOp, ne_eq, Bool.or_eq_true, Bool.and_eq_true, decide_eq_true_eq,
    beq_iff_eq]
  omega

theorem fld_one_eq_of_getLsbD {w : Word} {k : Nat} (h : w.getLsbD k = true) : fld w.toNat k 1 = 1 := by
  rw [BitVec.getLsbD, Nat.testBit_eq_decide_div_mod_eq, decide_eq_true_eq] at h
  exact h

/-- Settles O20: reserved, extension and header opcodes by the opcode map, the two words with a set
reserved field by their decoders `decNop` and `decMovu`. -/
theorem wordsOutsideTheMapAreRefused : Obligations.WordsOutsideTheMapAreRefused := by
  unfold Obligations.WordsOutsideTheMapAreRefused
  refine ⟨?ext, ?header, ?reserved, ?nop, ?movu⟩
  case ext =>
    intro w hlo hhi
    unfold decodeWord
    rw [if_pos (by simp; omega)]
  case header =>
    intro w hlo
    unfold decodeWord
    rw [if_neg (by simp; omega), if_pos hlo]
  case reserved =>
    intro w op h
    exact decodeWord_unassigned (by omega) (isAssigned_eq_false_of_reserved h)
  case nop =>
    intro w hop hw
    have hne : fld w.toNat 0 24 ≠ 0 := by
      have : w.toNat ≠ 0 := by rwa [ne_eq, ← BitVec.toNat_zero, ← BitVec.toNat_eq]
      simp only [fld]; omega
    refine decodeWord_badField hop rfl ?_
    show decNop w.toNat = none
    simp [decNop, hne]
  case movu =>
    intro w hop hbit
    refine decodeWord_badField hop rfl ?_
    show decMovu w.toNat = none
    simp [decMovu, fld_one_eq_of_getLsbD hbit]

/-- Settles O19: each word is decoded by evaluation. -/
theorem wordsOfTheSpecDecode : Obligations.WordsOfTheSpecDecode := by
  unfold Obligations.WordsOfTheSpecDecode
  decide +kernel

end Sys2Proof
end

section
/-! SUPPORT. The trap of a word (R281): what the commits before it leave, and what the team is after it. -/

open Sys2Proof Sys2Proof.Machine Sys2Proof.Safety Sys2Proof.Statements
namespace Sys2Proof.Machine

/-! ### Commits -/

/-- What the commit of a result leaves as it was: everything but registers, FPFLAGS, arrivals, the counts
of row commands, the sources kept for a word and the results themselves. -/
def Team.apart (t : Team) : Team :=
  { t with v := [], s := [], fpflags := 0, a := [], rowDone := 0, rowBits := 0, pending := [], held := none }

theorem putVals_apart (t : Team) (vs : List (Nat × Word)) : (t.putVals vs).apart = t.apart := rfl

theorem putSvals_apart (t : Team) (vs : List (Nat × DWord)) : (t.putSvals vs).apart = t.apart := rfl

theorem orFlags_apart (t : Team) (f : Flags) : (t.orFlags f).apart = t.apart := rfl

theorem awrite_apart (t : Team) (a : Nat) (x : BitVec 16) : (t.awrite a x).apart = t.apart := rfl

theorem clearRows_apart (t : Team) (d : Nat) (x : DWord) :
    ({ t.swrite d x with rowDone := 0, rowBits := 0 } : Team).apart = t.apart := rfl

theorem commitOne_apart (t : Team) (p : Pending) : (t.commitOne p).apart = t.apart := by
  have h : (((t.putVals p.vals).putSvals p.svals).orFlags p.flags).apart = t.apart := by
    rw [orFlags_apart, putSvals_apart, putVals_apart]
  unfold Team.commitOne
  dsimp only
  split
  · split
    · exact h
    · rw [awrite_apart, h]
  · rw [clearRows_apart, h]
  · exact h

theorem came_apart (t : Team) (ls : List Nat) : (t.came ls).apart = t.apart := by
  unfold Team.came
  split <;> rfl

/-- One step of `Team.commitWhere`: a result commits, or keeps its place. -/
def commitStep (acc : Team × List Pending × List Nat) (p : Pending × Bool) :
    Team × List Pending × List Nat :=
  if p.2 && !p.1.blocked && !(acc.2.1.any fun q => q.overlaps p.1) then
    (acc.1.commitOne p.1, acc.2.1 ++ p.1.rest.toList, acc.2.2 ++ p.1.onWay)
  else (acc.1, acc.2.1 ++ [p.1], acc.2.2)

theorem commitWhere_eq (t : Team) (f : Pending → Bool) :
    t.commitWhere f =
      let r := (pickDue f t.pending).foldl commitStep (t, [], [])
      ({ r.1 with pending := r.2.1 } : Team).came r.2.2 := rfl

theorem setPending_apart (t : Team) (ps : List Pending) : ({ t with pending := ps } : Team).apart = t.apart := rfl

theorem foldl_commitStep_apart (ps : List (Pending × Bool)) (acc : Team × List Pending × List Nat) :
    (ps.foldl commitStep acc).1.apart = acc.1.apart := by
  induction ps generalizing acc with
  | nil => rfl
  | cons p r ih =>
    rw [List.foldl_cons, ih]
    unfold commitStep
    split
    · exact commitOne_apart _ _
    · rfl

theorem commitWhere_apart (t : Team) (f : Pending → Bool) : (t.commitWhere f).apart = t.apart := by
  rw [commitWhere_eq, came_apart, setPending_apart, foldl_commitStep_apart]

theorem holdSources_apart (t : Team) : t.holdSources.apart = t.apart := by
  unfold Team.holdSources
  split <;> rfl

theorem commitHere_apart (t : Team) : t.commitHere.apart = t.apart := by
  unfold Team.commitHere Team.commitFault Team.commitAll
  split
  · exact commitWhere_apart t _
  · rw [commitWhere_apart, holdSources_apart]

/-- What stays of a committed result is an LDC with lanes to replay, which has no register left. -/
def Pending.Emptied (p : Pending) : Prop :=
  p.more = true ∧ p.vals = [] ∧ p.sregs = [] ∧ p.isRowWait = false

theorem emptied_of_mem_rest {p q : Pending} (h : q ∈ p.rest.toList) : q.Emptied := by
  unfold Pending.rest at h
  split at h
  · next c hk =>
    split at h
    · next hm =>
      obtain rfl : q = { p with vals := [], svals := [], flags := 0 } := by simpa using h
      exact ⟨hm, rfl, by simp [Pending.sregs, hk], by simp [Pending.isRowWait, hk]⟩
    · cases h
  · cases h

theorem Pending.Emptied.not_overlaps {q : Pending} (h : q.Emptied) (p : Pending) : q.overlaps p = false := by
  obtain ⟨-, hv, hs, hw⟩ := h
  simp [Pending.overlaps, hv, hs, hw]

theorem snd_of_mem_pickDue_true {ps : List Pending} {e : Pending × Bool} (h : e ∈ pickDue (fun _ => true) ps) :
    e.2 = true ∧ e.1 ∈ ps := by
  induction ps with
  | nil => cases h
  | cons p r ih =>
    rcases List.mem_cons.mp h with rfl | h
    · exact ⟨by simp, List.mem_cons_self⟩
    · exact ⟨(ih h).1, List.mem_cons_of_mem _ (ih h).2⟩

theorem foldl_commitStep_emptied (ps : List (Pending × Bool)) (acc : Team × List Pending × List Nat)
    (hps : ∀ e ∈ ps, e.2 = true ∧ e.1.blocked = false) (hacc : ∀ q ∈ acc.2.1, q.Emptied) :
    ∀ q ∈ (ps.foldl commitStep acc).2.1, q.Emptied := by
  induction ps generalizing acc with
  | nil => exact hacc
  | cons p r ih =>
    rw [List.foldl_cons]
    refine ih _ (fun e he => hps e (List.mem_cons_of_mem _ he)) ?_
    obtain ⟨hdue, hfree⟩ := hps p List.mem_cons_self
    have hno : acc.2.1.any (fun q => q.overlaps p.1) = false :=
      List.any_eq_false.mpr fun q hq => by simp [(hacc q hq).not_overlaps p.1]
    intro q hq
    simp only [commitStep, hdue, hfree, hno, Bool.not_false, Bool.and_self, if_true, List.mem_append] at hq
    rcases hq with hq | hq
    · exact hacc q hq
    · exact emptied_of_mem_rest hq

theorem more_of_mem_came {t : Team} {ls : List Nat} (h : ∀ p ∈ t.pending, p.more = true) :
    ∀ p ∈ (t.came ls).pending, p.more = true := by
  unfold Team.came
  split
  · exact h
  · intro p hp
    obtain ⟨q, hq, rfl⟩ := List.mem_map.mp hp
    exact h q hq

/-- Where no result is blocked, every result commits; what stays are LDC with lanes to replay. -/
theorem more_of_mem_commitAll {t : Team} (h : t.blocked = false) : ∀ p ∈ t.commitAll.pending, p.more = true := by
  unfold Team.commitAll
  rw [commitWhere_eq]
  refine more_of_mem_came fun p hp => (foldl_commitStep_emptied _ _ (fun e he => ?_) (by simp) p hp).1
  obtain ⟨hdue, hmem⟩ := snd_of_mem_pickDue_true he
  exact ⟨hdue, by simpa using List.any_eq_false.mp h e.1 hmem⟩

theorem holdSources_pending (t : Team) : t.holdSources.pending = t.pending := by
  unfold Team.holdSources
  split <;> rfl

theorem more_of_mem_commitHere {t : Team} (h : t.blocked = false) : ∀ p ∈ t.commitHere.pending, p.more = true := by
  unfold Team.commitHere
  split
  · exact more_of_mem_commitAll h
  · exact more_of_mem_commitAll (by rw [Team.blocked, holdSources_pending]; exact h)

/-! ### The trap -/

/-- The commits before a trap change registers, FPFLAGS, arrivals, counts of row commands and results only. -/
theorem commitHere_cases (t : Team) : ∃ v s f a rd rb ps hl, t.commitHere =
    { t with
      v := v, s := s, fpflags := f, a := a, rowDone := rd, rowBits := rb, pending := ps, held := hl } := by
  have h := commitHere_apart t
  generalize t.commitHere = u at h
  have hu : u = { u.apart with
      v := u.v, s := u.s, fpflags := u.fpflags, a := u.a, rowDone := u.rowDone, rowBits := u.rowBits
      pending := u.pending, held := u.held } := rfl
  rw [h] at hu
  exact ⟨_, _, _, _, _, _, _, _, hu⟩

/-- A wake changes only how the team waits. -/
theorem wake_cases (t : Team) : ∃ w st h, t.wake = { t with wait := w, state := st, haltedFrom := h } := by
  unfold Team.wake
  dsimp only
  split
  · exact ⟨_, _, _, rfl⟩
  · exact ⟨_, _, _, rfl⟩
  · split
    · exact ⟨_, _, _, rfl⟩
    · exact ⟨_, _, _, rfl⟩
  · exact ⟨_, _, _, rfl⟩

theorem setStack_scratchPut (t : Team) (a : Nat) (bs : List Byte) (e : CallEntry) :
    ({ t.scratchPut a bs with
      callHw := e :: (t.scratchPut a bs).callHw.dropLast, callDepth := (t.scratchPut a bs).callDepth + 1 } : Team) =
    { t with
      callHw := e :: t.callHw.dropLast, callDepth := t.callDepth + 1, scratch := (t.scratchPut a bs).scratch } :=
  rfl

theorem push_few {t : Team} (e : CallEntry) (hd : t.callDepth < 4095) (hs : t.callHw.length < 16) :
    t.push e = some { t with callHw := e :: t.callHw, callDepth := t.callDepth + 1 } := by
  unfold Team.push
  rw [if_neg (Nat.not_le.mpr hd), if_pos hs]

theorem push_many {t : Team} (e : CallEntry) (hd : t.callDepth < 4095) (hs : ¬ t.callHw.length < 16)
    (hk : 16 * (t.callDepth - 15) ≤ t.scratchSize) :
    t.push e = some { t with
      callHw := e :: t.callHw.dropLast, callDepth := t.callDepth + 1
      scratch := (t.scratchPut (t.scratchSize - 16 * (t.callDepth - 15))
        (toBytes 16 ((t.callHw.getLast?).getD ⟨0, 0, 0, 0, 0⟩).image)).scratch } := by
  unfold Team.push
  rw [if_neg (Nat.not_le.mpr hd), if_neg hs]
  dsimp only
  rw [if_neg (Nat.not_lt.mpr hk), setStack_scratchPut]
theorem push_ne_none {t : Team} {e : CallEntry} (hd : t.callDepth < 4095)
    (hs : t.callHw.length < 16 ∨ 16 * (t.callDepth - 15) ≤ t.scratchSize) : t.push e ≠ none := by
  by_cases h : t.callHw.length < 16
  · simp [push_few e hd h]
  · simp [push_many e hd h (hs.resolve_left h)]

/-- A push changes the call stack and the scratch only (R70). -/
theorem of_push_eq_some {t t' : Team} {e : CallEntry} (hp : t.push e = some t') :
    ∃ hw sc, t' = { t with callHw := hw, callDepth := t.callDepth + 1, scratch := sc } ∧
      if t.callHw.length < 16 then hw = e :: t.callHw ∧ sc = t.scratch
      else hw = e :: t.callHw.dropLast ∧ ∀ o, t.callHw.getLast? = some o →
        sc = (t.scratchPut (t.scratchSize - 16 * (t.callDepth - 15)) (toBytes 16 o.image)).scratch := by
  have hd : t.callDepth < 4095 := by
    by_contra hd
    rw [Team.push, if_pos (Nat.not_lt.mp hd)] at hp
    cases hp
  by_cases h : t.callHw.length < 16
  · rw [push_few e hd h, Option.some.injEq] at hp
    exact ⟨_, _, hp.symm, by rw [if_pos h]; exact ⟨rfl, rfl⟩⟩
  · have hk : 16 * (t.callDepth - 15) ≤ t.scratchSize := by
      by_contra hk
      rw [Team.push, if_neg (Nat.not_le.mpr hd), if_neg h] at hp
      dsimp only at hp
      rw [if_pos (Nat.not_le.mp hk)] at hp
      cases hp
    rw [push_many e hd h hk, Option.some.injEq] at hp
    refine ⟨_, _, hp.symm, ?_⟩
    rw [if_neg h]
    refine ⟨rfl, fun o ho => ?_⟩
    rw [ho, Option.getD_some]

theorem sameMachine_setTm (s : State) (t : Team) : SameMachine s (s.setTm t) := rfl

theorem sameOthers_setTm (s : State) (t : Team) : SameOthers s (s.setTm t) := by
  intro u hu
  show sfind (sput s.teams s.cur t) u = sfind s.teams u
  rw [sfind_sput, if_neg hu]

/-- A trap that can be taken is taken (R281); a pending race exception stays one. -/
theorem takeTrap_spec {s : State} (hc : CanTrap s) {code q : Nat} (hcode : code < 256) (hq : q < 32)
    (hi : Word) (addr : DWord) : Trapped s (takeTrap s code q hi addr) code q hi addr ∧
      (takeTrap s code q hi addr).tm.racePending = s.tm.racePending := by
  obtain ⟨hh, hb, he, hd, hs⟩ := hc
  obtain ⟨v, sc, f, a, rd, rb, ps, hl, hu⟩ := commitHere_cases s.tm
  have hmore := more_of_mem_commitHere hb
  unfold takeTrap
  dsimp only
  rw [if_neg (by simp [hb]), hu]
  rw [hu] at hmore
  dsimp only at hmore ⊢
  rw [if_neg (by simp [hh]), if_neg (by simpa using he)]
  split
  · next hnone => exact absurd hnone (push_ne_none hd hs)
  · next t' ht' =>
    obtain ⟨w, st, hf, hwake⟩ := wake_cases t'
    obtain ⟨hw, sc', hte, hst⟩ := of_push_eq_some ht'
    rw [hwake, hte]
    refine ⟨⟨sameMachine_setTm _ _, sameOthers_setTm _ _, ?_⟩, by rw [tm_setTm]⟩
    simp only [tm_setTm, Pushed]
    refine ⟨trivial, ?info, trivial, trivial, trivial, trivial, trivial, trivial, trivial, trivial,
      ⟨trivial, ?stack⟩, trivial, trivial, trivial, hmore⟩
    case info => rw [trapInfoOf, Nat.mod_eq_of_lt hcode, Nat.mod_eq_of_lt hq]
    case stack =>
      split
      · next h => rwa [if_pos h] at hst
      · next h => rwa [if_neg h] at hst

theorem takeTrap_trapped {s : State} (hc : CanTrap s) {code q : Nat} (hcode : code < 256) (hq : q < 32)
    (hi : Word) (addr : DWord) : Trapped s (takeTrap s code q hi addr) code q hi addr :=
  (takeTrap_spec hc hcode hq hi addr).1

end Sys2Proof.Machine
end

section
/-! SUPPORT. What each instruction runs: a team word is issued, a word of a stream runs in its stream. -/

open Sys2Proof Sys2Proof.Machine
namespace Sys2Proof

variable {i : Instr} {dec : Nat → Option Instr} {fs : List (Nat × Nat)}

theorem word_eq_of_encode {w : Nat} (h : encode i = some w) : i.word = BitVec.ofNat 32 w := by
  unfold Instr.word
  split
  · cases h
  · rw [h, Option.getD_some]

theorem TableRow.opcode_eq (h : TableRow i dec fs) : i.opcode = fld (pack fs) 24 8 := by
  have hlt : pack fs < 2 ^ 32 := h.width_eq ▸ pack_lt h.fits
  rw [Instr.opcode, word_eq_of_encode h.encode_eq, op_eq_fld, BitVec.toNat_ofNat, Nat.mod_eq_of_lt hlt]

/-- The last field of a row is its opcode. -/
theorem TableRow.getLast_opcode (h : TableRow i dec fs) : fs.getLast? = some (8, i.opcode) := by
  rw [h.opcode_eq]
  have hr : Reads (pack fs) 0 fs := reads_of_pack h.fits (by simp)
  generalize pack fs = w at hr
  cases h
  all_goals
    simp only [Reads, Nat.zero_add, Nat.reduceAdd, and_true] at hr
    simp only [hr]
    rfl

theorem TableRow.isStreamOp_opcode {op : Nat} (h : TableRow i dec fs) (hl : fs.getLast? = some (8, op))
    (hop : isStreamOp op = true) : isStreamOp i.opcode = true := by
  rw [h.getLast_opcode] at hl
  cases hl
  exact hop

end Sys2Proof

namespace Sys2Proof.Machine

theorem streamWord_next (i : Instr) (s : State) (k : Nat → Stream → State → State) :
    ∃ t, streamWord i s k = .next t := ⟨_, rfl⟩

/-- A team word is issued; a word of a stream, and a step that has no encoding, answer a next state. -/
theorem exec_cases (i : Instr) (s : State) :
    (∃ k, exec i s = issue i s k) ∨
      (encode i = none ∨ isStreamOp i.opcode = true) ∧ ∃ t, exec i s = .next t := by
  cases i
  case mwb => exact .inr ⟨.inr (TableRow.mwb.isStreamOp_opcode rfl rfl), _, rfl⟩
  case mlw => exact .inr ⟨.inr (TableRow.mlw.isStreamOp_opcode rfl rfl), _, rfl⟩
  case mma => exact .inr ⟨.inr (TableRow.mma.isStreamOp_opcode rfl rfl), _, rfl⟩
  case msta fmt ieee tile rec =>
    refine .inr ⟨.inr (TableRow.msta.isStreamOp_opcode rfl rfl), ?_⟩
    show ∃ t, execMsta fmt ieee tile rec s = .next t
    unfold execMsta
    split
    · exact ⟨_, rfl⟩
    · exact streamWord_next _ _ _
  case mclr => exact .inr ⟨.inr (TableRow.mclr.isStreamOp_opcode rfl rfl), _, rfl⟩
  case mfmt => exact .inr ⟨.inr (TableRow.mfmt.isStreamOp_opcode rfl rfl), _, rfl⟩
  case mbar => exact .inr ⟨.inr (TableRow.mbar.isStreamOp_opcode rfl rfl), _, rfl⟩
  case mend => exact .inr ⟨.inr (TableRow.mend.isStreamOp_opcode rfl rfl), _, rfl⟩
  all_goals delta exec; dsimp only
  all_goals try exact .inr ⟨.inl rfl, _, rfl⟩
  all_goals
    dsimp only [
      execNop, execBra, execBrx, execCall, execRet, execSplit, execFlip, execMerge, execPrune,
      execExit, execTrap, execRett, execBkpt, execSrd, execSwr, execIadd, execIsub, execImul,
      execImulh, execImad, execImin, execImax, execAnd, execOr, execXor, execShl, execShr,
      execSar, execBfx, execBfi, execLea, execIabs, execPopc, execClz, execBrev, execMov,
      execSel, execIcmp, execIaddImm, execAndImm, execOrImm, execXorImm, execShlImm,
      execShrImm, execSarImm, execIcmpImm, execMovi, execMovu, execFadd, execFsub, execFmul,
      execFfma, execFmin, execFmax, execFcmp, execFrcp, execFrsq, execFex2, execFlg2,
      execFtanh, execCvt, execPackmx, execUnpkmx, execPlanePack, execPlaneUnpack, execShfl,
      execVote, execMatchLanes, execTred, execTscan, execPlog, execPcnt, execPmovToVector,
      execPmovToPredicate, execPmovWord, execLdB, execLdH, execLdW, execLdD, execLdQ, execStB,
      execStH, execStW, execStD, execStQ, execLdlW, execLdlQ, execStlW, execStlQ, execLdu,
      execStu, execLdcW, execLdcQ, execLdAcq, execStRel, execAtom, execRed, execAtoml,
      execFence, execWaitv, execAwait, execAset, execXfer, execXferReg, execXptr, execRowcpy,
      execRowfil, execRownot, execRowand, execRowor, execRowmaj, execRowxor, execRowstat,
      execRowstatPoll, execCapt, execCaptRef, execCaptLane, execApply, execApplyLane,
      execKdup, execKdrop, execKld, execKst, execKqry, execTarm, execTsig, execQapply,
      execQapplyLane, execLaunch, execJoin, execLeave, execBarv, execBara, execBarw, execCohq,
      execBdeclList, execBdeclRec, execBenter, execBexit, execBdrop, execBqry, execMatt,
      execMdet,
      teamWord, controlWord, loadWord, storeWord, rowWord, transWord, barWord, ldlWord,
      stlWord, ldcWord, xferWord, captTeam, qapplyWord]
    exact .inl ⟨_, rfl⟩

/-- Settles O24: a word that is issued answers a next state (`issue_next`), and so do the others. -/
theorem everyInstructionAnswersANextState : Obligations.EveryInstructionAnswersANextState := by
  unfold Obligations.EveryInstructionAnswersANextState
  intro i s
  rcases exec_cases i s with ⟨k, hk⟩ | ⟨-, hnext⟩
  · rw [hk]
    exact issue_next i s k
  · exact hnext

end Sys2Proof.Machine
end

section
/-! SUPPORT. Words that trap at decode or at issue (R44, R55). -/

open Sys2Proof Sys2Proof.Machine Sys2Proof.Safety Sys2Proof.Statements
namespace Sys2Proof.Machine

/-! ### A trap of the issued word -/

theorem canTrap_noteIssue {s : State} (h : CanTrap s) : CanTrap s.noteIssue := by
  unfold CanTrap CanPush at h ⊢
  rw [noteIssue_tm]
  exact h

theorem sameMachine_of_noteIssue {s t : State} (h : SameMachine s.noteIssue t) : SameMachine s t := by
  have hs : { t with teams := s.teams, issueCount := s.issueCount } =
      { s.noteIssue with teams := s.teams, issueCount := s.issueCount } :=
    congrArg (fun x : State => { x with teams := s.teams, issueCount := s.issueCount }) h
  exact hs.trans (noteIssue_same s)

theorem sfind_noteIssue_teams {s : State} {u : Nat} (hu : u ≠ s.cur) :
    sfind s.noteIssue.teams u = sfind s.teams u := by
  show sfind (sput s.teams s.cur _) u = sfind s.teams u
  rw [sfind_sput, if_neg hu]

theorem sameOthers_of_noteIssue {s t : State} (h : SameOthers s.noteIssue t) : SameOthers s t :=
  fun u hu => (h u hu).trans (sfind_noteIssue_teams hu)

theorem scratchPut_lastIssue (t : Team) (n a : Nat) (bs : List Byte) :
    (({ t with lastIssue := n } : Team).scratchPut a bs).scratch = (t.scratchPut a bs).scratch := rfl

theorem pushed_of_noteIssue {s t : State} {e : CallEntry} (h : Pushed s.noteIssue t e) : Pushed s t e := by
  unfold Pushed at h ⊢
  simpa only [noteIssue_tm, scratchPut_lastIssue] using h

@[simp] theorem getCtx_noteIssue (s : State) (c : Nat) : getCtx s.noteIssue c = getCtx s c := rfl

theorem trapped_of_noteIssue {s t : State} {code q : Nat} {hi : Word} {addr : DWord}
    (h : Trapped s.noteIssue t code q hi addr) : Trapped s t code q hi addr := by
  unfold Trapped at h ⊢
  simp only [noteIssue_tm, getCtx_noteIssue] at h
  obtain ⟨hm, ho, hh, hinfo, htpc, hsa, hfull, hact, hms, hpc, hcl, hframe, hpush, hdepth⟩ := h
  exact ⟨sameMachine_of_noteIssue hm, sameOthers_of_noteIssue ho, hh, hinfo, htpc, hsa, hfull, hact, hms,
    hpc, hcl, hframe, pushed_of_noteIssue hpush, hdepth⟩

theorem trapHi_eq {code : Nat} (h : code ≠ 6) (w : Word) : trapHi code w = w := by
  unfold trapHi
  rw [if_neg (by simpa using h)]

/-- A word that counts as issued takes its trap at its own address. -/
theorem trapWord_trapped {s : State} {code : Nat} (i : Instr) (hc : CanTrap s) (hcode : code < 256)
    (h6 : code ≠ 6) : Trapped s (trapWord s.noteIssue code i) code 0 i.word s.tm.pc := by
  have hpc : s.noteIssue.tm.pc = s.tm.pc := by rw [noteIssue_tm]
  rw [trapWord, trapHi_eq h6, hpc]
  exact trapped_of_noteIssue (takeTrap_trapped (canTrap_noteIssue hc) hcode (by decide) _ _)

/-! ### The traps of R44 -/

/-- SWR outside a handler (R57). -/
def OutsideHandler (i : Instr) (t : Team) : Prop := (∃ a n, i = .swr a n) ∧ t.inHandler = false

/-- A field names registers that the team has not, or not aligned (R46, R48). -/
def MissingRegister (i : Instr) (t : Team) : Prop :=
  ∃ r ∈ i.vregs, r.1 % r.2 ≠ 0 ∨ t.nreg - t.frame < r.1 + r.2

theorem outsideHandler_iff (i : Instr) (t : Team) :
    (match i with | .swr _ _ => !t.inHandler | _ => false) = true ↔ OutsideHandler i t := by
  unfold OutsideHandler
  split
  · simp
  · next hno =>
    simp only [Bool.false_eq_true, false_iff]
    rintro ⟨⟨a, n, rfl⟩, -⟩
    exact hno a n rfl

theorem fits_eq_false_iff (t : Team) (r : Nat × Nat) :
    ¬ t.fits r = true ↔ r.1 % r.2 ≠ 0 ∨ t.nreg - t.frame < r.1 + r.2 := by
  simp only [Team.fits, Bool.and_eq_true, beq_iff_eq, decide_eq_true_eq, not_and_or, not_le, ne_eq]

theorem missingRegister_iff (i : Instr) (t : Team) :
    (!i.vregs.all t.fits) = true ↔ MissingRegister i t := by
  simp only [MissingRegister, Bool.not_eq_true', List.all_eq_false, fits_eq_false_iff]

theorem staticTrap_eq (i : Instr) (t : Team) [Decidable (OutsideHandler i t)]
    [Decidable (MissingRegister i t)] :
    staticTrap i t =
      if OutsideHandler i t then some 1 else if MissingRegister i t then some 2
      else if i.converged = true ∧ t.active ≠ t.full then some 4 else none := by
  have hdiv : (i.converged && t.active != t.full) = true ↔ i.converged = true ∧ t.active ≠ t.full := by
    simp only [Bool.and_eq_true, bne_iff_ne]
  exact if_congr (outsideHandler_iff i t) rfl
    (if_congr (missingRegister_iff i t) rfl (if_congr hdiv rfl rfl))

theorem staticTrap_lt {i : Instr} {t : Team} {c : Nat} (h : staticTrap i t = some c) : c < 6 := by
  classical
  rw [staticTrap_eq] at h
  split_ifs at h
  all_goals cases h; decide

/-- Settles O16: a word that is issued takes the trap that stands against it (`issue_trap`), and
`staticTrap_eq` says which that is. -/
theorem wordsThatMayNotIssueTrap : Obligations.WordsThatMayNotIssueTrap := by
  unfold Obligations.WordsThatMayNotIssueTrap
  refine ⟨?traps, ?order⟩
  case traps =>
    intro i s c henc hop hlater hstat hc
    have hlt := staticTrap_lt hstat
    rcases exec_cases i s with ⟨k, hk⟩ | ⟨hnone | hstream, -⟩
    · rw [hk, issue_trap i s k c hlater hstat]
      exact ⟨_, rfl, trapWord_trapped i hc (by omega) (by omega)⟩
    · simp [hnone] at henc
    · simp only [isStreamOp, Bool.and_eq_true, decide_eq_true_eq] at hstream
      omega
  case order =>
    intro i t
    classical
    show (staticTrap i t = some 1 ↔ OutsideHandler i t) ∧
      (staticTrap i t = some 2 ↔ ¬OutsideHandler i t ∧ MissingRegister i t) ∧
      (staticTrap i t = some 4 ↔
        ¬OutsideHandler i t ∧ ¬MissingRegister i t ∧ i.converged = true ∧ t.active ≠ t.full) ∧
      (staticTrap i t = none ↔
        ¬OutsideHandler i t ∧ ¬MissingRegister i t ∧ (i.converged = true → t.active = t.full))
    rw [staticTrap_eq]
    split_ifs <;> simp_all

theorem wordTrap_eq (w : Word) :
    wordTrap w = if 0xE0 ≤ w.toNat / 2 ^ 24 ∧ w.toNat / 2 ^ 24 ≤ 0xEF then 3 else 1 := by
  unfold wordTrap
  simp only [Bool.and_eq_true, decide_eq_true_eq]

/-- Settles O17: the step of a word without meaning is the trap of `wordTrap`. -/
theorem wordsWithoutMeaningTrap : Obligations.WordsWithoutMeaningTrap := by
  unfold Obligations.WordsWithoutMeaningTrap
  intro s w hc
  refine ⟨trapWord s.noteIssue (wordTrap w) (.illegalInstructionWord w), rfl, ?_⟩
  rw [← wordTrap_eq]
  have hcode : wordTrap w < 6 := by
    rw [wordTrap_eq]
    split <;> decide
  exact trapWord_trapped _ hc (by omega) (by omega)

end Sys2Proof.Machine
end

section
/-! SUPPORT. Results that wait for their span (R52), and the transcendental words (R357). -/

open Sys2Proof Sys2Proof.Machine Sys2Proof.Safety
namespace Sys2Proof.Machine

theorem mem_foldl_distinct {l acc : List Nat} {x : Nat} :
    x ∈ l.foldl (fun acc x => if acc.contains x then acc else acc ++ [x]) acc ↔ x ∈ acc ∨ x ∈ l := by
  induction l generalizing acc with
  | nil => simp
  | cons a r ih =>
    rw [List.foldl_cons, ih, List.mem_cons]
    split
    · next h =>
      have ha : a ∈ acc := by simpa using h
      constructor
      · rintro (h | h)
        · exact .inl h
        · exact .inr (.inr h)
      · rintro (h | rfl | h)
        · exact .inl h
        · exact .inl ha
        · exact .inr h
    · simp only [List.mem_append, List.mem_singleton, or_assoc]

theorem mem_distinct {l : List Nat} {x : Nat} : x ∈ distinct l ↔ x ∈ l := by
  rw [distinct, mem_foldl_distinct]
  simp

@[simp] theorem advance_pending (t : Team) : t.advance.pending = t.pending := by
  simp only [Team.advance]
  repeat' split
  all_goals rfl

@[simp] theorem snap_held (t : Team) : t.snap.held = t.held := by
  simp only [Team.snap]
  repeat' split
  all_goals rfl

/-- Without kept sources, the results of a word wait behind those of earlier words: for each value of
each lane, one of its pass with the word's span holds it. -/
theorem mem_pend {t : Team} (hheld : t.held = none) (kind : PendKind) (span : Nat)
    {res : List (Nat × List (Nat × Word))} (flags : Nat → Flags) (eas : List (Nat × DWord × Nat))
    {l : Nat} {vs : List (Nat × Word)} (hl : (l, vs) ∈ res) {n : Nat} {x : Word} (hx : (n, x) ∈ vs) :
    ∃ p ∈ (t.pend kind span res flags eas).pending,
      p.pass = l / 32 ∧ p.span = span ∧ (vkey n l, x) ∈ p.vals := by
  unfold Team.pend
  dsimp only
  rw [if_neg (by simp [hheld])]
  have hq : l / 32 ∈ distinct (res.map fun r => r.1 / 32) :=
    mem_distinct.mpr (List.mem_map.mpr ⟨_, hl, rfl⟩)
  refine ⟨_, List.mem_append_right _ (List.mem_map.mpr ⟨_, hq, rfl⟩), rfl, rfl, ?_⟩
  refine List.mem_flatMap.mpr ⟨(l, vs), List.mem_filter.mpr ⟨hl, by simp⟩, ?_⟩
  exact List.mem_map.mpr ⟨(n, x), hx, rfl⟩

theorem pend_rest {t : Team} (hheld : t.held = none) (kind : PendKind) (span : Nat)
    (res : List (Nat × List (Nat × Word))) (flags : Nat → Flags) (eas : List (Nat × DWord × Nat)) :
    (t.pend kind span res flags eas).v = t.v ∧ (t.pend kind span res flags eas).fpflags = t.fpflags := by
  unfold Team.pend
  dsimp only
  rw [if_neg (by simp [hheld])]
  exact ⟨rfl, rfl⟩

/-- R52, R357: what a transcendental word that issues leaves to commit. -/
theorem transWord_waits {i : Instr} (g : Trans) {s : State} (d : VReg) (a : Reg) (look : Nat) (ty : FTy)
    (hheld : s.tm.held = none) (hi : Issues i s) :
    ∃ t, transWord i g d a look ty s = .next t ∧ t.tm.v = s.tm.v ∧ t.tm.fpflags = s.tm.fpflags ∧
      ∀ l, l ∈ s.tm.wordLanes → ∃ p, p ∈ t.tm.pending ∧ p.pass = l / 32 ∧ p.span = look ∧
        (vkey (s.tm.frame + d.val) l, (transLane g ty (s.tm.src a l)).1) ∈ p.vals := by
  refine ⟨_, by rw [transWord, issue_eq i s _ hi], ?_⟩
  have hh : (issuedTm s).countSpan.held = none := by
    show (issuedTm s).held = none
    rw [issuedTm, snap_held]
    exact hheld
  rw [tm_modTm, issued_tm]
  dsimp only
  refine ⟨?_, ?_, ?_⟩
  · rw [advance_v, (pend_rest hh ..).1]
    exact issuedTm_v s
  · rw [advance_fpflags, (pend_rest hh ..).2]
    exact issuedTm_fpflags s
  · intro l hl
    rw [← issuedTm_wordLanes] at hl
    rw [advance_pending, ← issuedTm_frame, ← issuedTm_src]
    refine mem_pend hh .trans look _ [] ?_ (List.mem_singleton.mpr rfl)
    exact List.mem_map.mpr ⟨_, List.mem_map.mpr ⟨l, hl, rfl⟩, rfl⟩

/-- Settles O7: each transcendental word is a `transWord`. -/
theorem transcendentalWordsWaitForTheirSpan : Obligations.TranscendentalWordsWaitForTheirSpan := by
  unfold Obligations.TranscendentalWordsWaitForTheirSpan
  intro s d a look ty _ hheld
  exact ⟨transWord_waits .rcp d a look.val ty hheld, transWord_waits .rsq d a look.val ty hheld,
    transWord_waits .ex2 d a look.val ty hheld, transWord_waits .lg2 d a look.val ty hheld,
    transWord_waits .tanh d a look.val ty hheld⟩

end Sys2Proof.Machine
end

section
/-! SUPPORT. What a translated fetch leaves as it was (R115, R266): memory and the caches, the teams and
channels that wait for a word, banks, heat and translation buffers may change; nothing else does. -/

open Sys2Proof Sys2Proof.Machine
namespace Sys2Proof.Machine

/-- The fields of the machine that no translation and no fetch at a home slice changes: those outside the stores, but
for the translation buffers and the heat that waits. -/
def State.still (s : State) : State := { outside s with heatWaits := [], tlbs := [] }

theorem still_of_outside {s t : State} (h : outside t = outside s) : t.still = s.still := by
  rw [State.still, State.still, h]

/-- A read of an entry of a page table, in its own key (R266, R268). -/
theorem entryRead_still (s : State) (addr : Nat) : (homeFetch (viewKey s addr 0) false addr).still = s.still :=
  still_of_outside ((outside_homeFetch _ _ _).trans (outside_viewKey _ _ _))

theorem homeFetchAll_still (s : State) (u : Bool) (pas : List Nat) : (homeFetchAll s u pas).still = s.still :=
  foldl_same State.still _ _ s fun _ _ _ => still_of_outside (outside_homeFetch _ _ _)

theorem walk_still (s : State) (table : Nat) (va : DWord) (levels : List Nat) :
    (walk s table va levels).2.still = s.still := by
  induction levels generalizing s table with
  | nil => rfl
  | cons level rest ih =>
    have hread := entryRead_still s (table + 8 * field va.toNat (12 + 9 * (level - 1)) 9)
    unfold walk
    dsimp only
    split
    · rfl
    · split
      · rfl
      · split
        · exact hread
        · split
          · exact hread
          · split
            · exact hread
            · exact (ih _ _).trans hread

theorem noteHeat_still (s : State) (addr : Nat) (w : Bool) : (noteHeat s addr w).still = s.still := by
  unfold noteHeat
  split
  · rfl
  · refine still_of_outside ?_
    rw [heatAt, outside_memSetAll, outside_markDirty, outside_viewKey]

theorem fillTlbs_still (s : State) (core : Nat) (tlbs : List TlbId) (ctx base size : Nat) (e : DWord)
    (x : Xlat) : (fillTlbs s core tlbs ctx base size e x).still = s.still := by
  unfold fillTlbs
  split <;> rfl

theorem translate_still (s : State) (core : Nat) (tlbs : List TlbId) (ctx : Nat) (va : DWord) (k : ReqKind) :
    (translate s core tlbs ctx va k).2.still = s.still := by
  have hw := walk_still s (getCtx s ctx).root va [5, 4, 3, 2, 1]
  unfold translate walkFrom
  split
  · rfl
  · split
    · rfl
    · split
      all_goals
        rename_i h
        rw [h] at hw
      case h_5 =>
        dsimp only
        rw [fillTlbs_still, noteHeat_still]
        exact hw
      all_goals exact hw

theorem onePage_still (s : State) (core : Nat) (tlbs : List TlbId) (ctx : Nat) (va : DWord) (n : Nat)
    (k : ReqKind) : (onePage s core tlbs ctx va n k).2.still = s.still := by
  have ht := translate_still s core tlbs ctx va k
  unfold onePage
  split
  all_goals
    rename_i h
    rw [h] at ht
  case h_1 =>
    dsimp only
    split
    · exact (still_of_outside (outside_viewBytes _ _ _)).trans ht
    · exact ht
  all_goals exact ht

end Sys2Proof.Machine
end

section
/-! SUPPORT. Steps of the machine: what a move runs, the words of a stream, and what follows a step. -/

open Sys2Proof Sys2Proof.Machine Sys2Proof.Safety Sys2Proof.Statements
namespace Sys2Proof.Machine

/-! ### Streams -/

theorem fetchStream_still (s : State) (core : Nat) (x : Stream) : (fetchStream s core x).2.still = s.still := by
  have hp := onePage_still s core streamTlbs x.ctx x.pc 4 .fetch
  unfold fetchStream
  split
  · rfl
  · split
    all_goals
      rename_i h
      rw [h] at hp
    case h_6 =>
      split
      · exact hp
      · split
        case h_5 => exact (homeFetchAll_still _ _ _).trans hp
        all_goals exact hp
    all_goals exact hp

theorem engines_eq_of_still {s t : State} (h : t.still = s.still) : t.engines = s.engines := by
  have he := congrArg State.engines h
  exact he

theorem ctxs_eq_of_still {s t : State} (h : t.still = s.still) : t.ctxs = s.ctxs := by
  have hc := congrArg State.ctxs h
  exact hc

theorem findStream_eq_of_still {s t : State} (h : t.still = s.still) (core ck : Nat) :
    findStream t core ck = findStream s core ck := by
  simp only [findStream, getEngine, engines_eq_of_still h]

theorem findStream_modStream {s : State} {core ck : Nat} {x : Stream} {f : Stream → Stream}
    (hx : findStream s core ck = some x) (hf : ∀ y, (f y).cohort = y.cohort) :
    findStream (modStream s core ck f) core ck = some (f x) := by
  have hcomp : ∀ y : Stream, ((if y.cohort == ck then f y else y).cohort == ck) = (y.cohort == ck) := by
    intro y
    split
    · rw [hf]
    · rfl
  have hck : (x.cohort == ck) = true := by simpa using List.find?_some hx
  simp only [findStream, modStream, getEngine, setEngine, sfind_sput, if_true, Option.getD_some,
    List.find?_map, Function.comp_def, hcomp] at hx ⊢
  rw [hx, Option.map_some, if_pos hck]

/-- Words fetched ahead go behind those that are there; nothing else of the stream changes (R379). -/
theorem findStream_prefetch {core ck : Nat} (n : Nat) {s : State} {x : Stream}
    (hx : findStream s core ck = some x) :
    (prefetch core ck n s).ctxs = s.ctxs ∧
      ∃ ws, findStream (prefetch core ck n s) core ck = some { x with ahead := x.ahead ++ ws } := by
  induction n generalizing s x with
  | zero => exact ⟨rfl, [], by rw [List.append_nil]; exact hx⟩
  | succ n ih =>
    have hnone : s.ctxs = s.ctxs ∧ ∃ ws, findStream s core ck = some { x with ahead := x.ahead ++ ws } :=
      ⟨rfl, [], by rw [List.append_nil]; exact hx⟩
    unfold prefetch
    rw [hx]
    dsimp only
    split
    · exact hnone
    · have hst := fetchStream_still s core { x with pc := x.pc + BitVec.ofNat 64 (4 * x.ahead.length) }
      have hx1 := (findStream_eq_of_still hst core ck).trans hx
      have hc1 := ctxs_eq_of_still hst
      generalize fetchStream s core { x with pc := x.pc + BitVec.ofNat 64 (4 * x.ahead.length) } = r at hx1 hc1
      split
      · next pas s1 =>
        obtain ⟨hc, ws, hws⟩ := ih (findStream_modStream (f := fun x => { x with ahead := x.ahead ++ [streamBytes s1 pas] })
          hx1 fun _ => rfl)
        refine ⟨hc.trans hc1, [streamBytes s1 pas] ++ ws, ?_⟩
        rw [hws, List.append_assoc]
      · exact hnone

/-- A stream with words fetched ahead may start what it could start before. -/
theorem mayStart_ahead {s t : State} (hc : t.ctxs = s.ctxs) (x : Stream) (ws : List Word) (i : Instr) :
    Stream.mayStart t { x with ahead := ws } i = x.mayStart s i := by
  have hk : ∀ ctx rec, kSteps t ctx rec = kSteps s ctx rec := by
    intro ctx rec
    simp only [kSteps, getCtx, hc]
  unfold Stream.mayStart
  cases i
  case mma =>
    dsimp only
    rw [hk]
    rfl
  all_goals rfl

/-! ### What a move runs -/

theorem runs_of_turn {s b : State} {i : Instr} (h : turn (tick s) = .run i b) : Runs s b i := by
  unfold Runs step
  rw [h]
  constructor
  · intro t ht
    simp only [Turn.outcome, ht]
  · intro f hf
    simp only [Turn.outcome, hf]

/-- With power on, the head of the agenda is performed. -/
theorem turn_tick {s : State} {m : Move} {rest : List Move} (hp : s.power = .on) (ha : s.agenda = m :: rest) :
    turn (tick s) = perform (taken s rest) m := by
  have ha' : (tick s).agenda = m :: rest := ha
  have hp' : ((tick s).power == .on) = true := by
    show (s.power == .on) = true
    rw [hp]; rfl
  unfold turn
  rw [ha']
  dsimp only
  rw [if_pos hp']
  rfl

end Sys2Proof.Machine
end

section
/-! SUPPORT. The instruction that a step runs (R39, R44, R78), and what follows a step. -/

open Sys2Proof Sys2Proof.Machine Sys2Proof.Safety Sys2Proof.Statements
namespace Sys2Proof.Machine

/-! ### Teams -/

theorem mayIssue_of_ready {s : State} {t : Team} (h : Ready s t) : t.mayIssue s = true := by
  obtain ⟨hstate, hfull, hpaused, hcls, -⟩ := h
  simpa [Team.mayIssue, Team.canIssue, hstate, hpaused, hcls] using hfull

theorem chosen_of_ready {s : State} {t : Team} (h : Ready s t) : t.chosen s = true := by
  have hmay := mayIssue_of_ready h
  obtain ⟨-, -, -, -, hrank⟩ := h
  rw [Team.chosen, hmay, Bool.true_and, List.all_eq_true]
  intro e he
  by_cases hp : e.2.partKey = t.partKey ∧ e.2.mayIssue s = true
  · simp [hp.1, hp.2, hrank e he hp.1 hp.2]
  · rcases not_and_or.mp hp with hp | hp
    · simp [hp]
    · simp [hp]

/-- The turn of a team that its partition chooses runs the team's next instruction (R78). -/
theorem runs_nextInstr {s : State} {u : Nat} {rest : List Move} (hp : s.power = .on)
    (ha : s.agenda = .issue u :: rest) (hr : Ready s (s.getTeam u)) :
    Runs s { taken s rest with cur := u } (s.getTeam u).nextInstr := by
  apply runs_of_turn
  rw [turn_tick hp ha]
  have hr' : Ready (taken s rest) (s.getTeam u) := hr
  show teamTurn (taken s rest) u = _
  have hg : (taken s rest).getTeam u = s.getTeam u := rfl
  unfold teamTurn
  rw [hg]
  dsimp only
  rw [if_pos (chosen_of_ready hr')]

theorem nextInstr_of_clause {t : Team} {c : Clause} {w : Word} (hc : t.clause = some c)
    (hw : c.words[c.idx]? = some w) : t.nextInstr = clauseInstr c.cls w := by
  rw [Team.nextInstr, hc]
  dsimp only
  rw [hw, Option.getD_some]

theorem nextInstr_of_no_clause {t : Team} (hc : t.clause = none) : t.nextInstr = .clauseHeader := by
  rw [Team.nextInstr, hc]

theorem clauseInstr_ok {cls : Nat} {w : Word} {i : Instr} (h : decodeWord w = .ok i) :
    clauseInstr cls w = if admits cls i then i else .illegalInstructionWord w := by
  rw [clauseInstr, h]

theorem clauseInstr_error {cls : Nat} {w : Word} {e : DecodeError} (h : decodeWord w = .error e) :
    clauseInstr cls w = .illegalInstructionWord w := by
  rw [clauseInstr, h]

/-! ### Events -/

theorem isEvent_of_encode_none {i : Instr} (h : encode i = none) (hh : i ≠ .clauseHeader)
    (hw : ∀ w, i ≠ .illegalInstructionWord w) (hs : ∀ c k w, i ≠ .streamOpcodeError c k w) :
    isEvent i = true := by
  cases i
  case clauseHeader => exact absurd rfl hh
  case illegalInstructionWord w => exact absurd rfl (hw w)
  case streamOpcodeError c k w => exact absurd rfl (hs c k w)
  all_goals first
    | rfl
    | contradiction

theorem runs_occur {s : State} {i : Instr} {rest : List Move} (hp : s.power = .on)
    (ha : s.agenda = .occur i :: rest) (hi : isEvent i = true) : Runs s (taken s rest) i := by
  apply runs_of_turn
  rw [turn_tick hp ha]
  show (if isEvent i then Turn.run i (taken s rest) else .done (taken s rest)) = _
  rw [if_pos hi]

/-! ### After a step -/

theorem foldl_eq_self {α β : Type} {f : β → α → β} {l : List α} {b : β} (h : ∀ a ∈ l, f b a = b) :
    l.foldl f b = b := by
  induction l with
  | nil => rfl
  | cons a r ih =>
    rw [List.foldl_cons, h a List.mem_cons_self]
    exact ih fun a ha => h a (List.mem_cons_of_mem _ ha)

theorem noteSteps_eq_self {b t : State} (h : t.dbg.stepCohort = []) : noteSteps b t = t := by
  unfold noteSteps
  rw [if_pos (by rw [h]; rfl)]

theorem noteParks_eq_self {b t : State}
    (h : ∀ e ∈ t.teams, ∀ x, sfind b.teams e.1 = some x → x.away = e.2.away) : noteParks b t = t := by
  refine foldl_eq_self fun e he => ?_
  split
  · rfl
  · next x hx => rw [if_pos (by rw [h e he x hx, beq_self_eq_true])]

theorem failReads_eq_self {t : State} (h : t.badReads = []) : failReads t = t := by
  unfold failReads
  rw [h]
  exact congrArg (fun l => ({ t with badReads := l } : State)) h.symm

theorem filter_isNone_eq_nil {α β : Type} {l : List α} {f : α → Option β} (h : ∀ a ∈ l, f a ≠ none) :
    (l.filter fun a => (f a).isNone) = [] :=
  List.filter_eq_nil_iff.mpr fun a ha => by simpa using h a ha

theorem retryHeld_eq_self {t : State} (hs : ∀ w ∈ t.stampWaits, w.req ≠ none)
    (hn : ∀ n ∈ t.tcbNotes, n.req ≠ none) (he : ∀ e ∈ t.taskEnds, e.req ≠ none) (hh : t.heatWaits = []) :
    retryHeld t = t := by
  unfold retryHeld
  dsimp only
  rw [filter_isNone_eq_nil hs, filter_isNone_eq_nil hn, filter_isNone_eq_nil he, hh]
  rfl

theorem dissolveAll_eq_self {t : State} (h : ∀ c ∈ t.cohorts, c.2.members ≠ []) : dissolveAll t = t := by
  have hf : (t.cohorts.filter fun c => c.2.members.isEmpty) = [] :=
    List.filter_eq_nil_iff.mpr fun c hc => by simpa using h c hc
  rw [dissolveAll, hf]
  rfl

theorem retryLost_eq_self {t : State} (h : ∀ e ∈ t.teams, ∀ p ∈ e.2.pending, p.lost = []) :
    retryLost t = t := by
  have hf : (t.teams.filter fun e => e.2.pending.any fun p => !p.lost.isEmpty) = [] :=
    List.filter_eq_nil_iff.mpr fun e he => by simpa using h e he
  rw [retryLost, hf]
  rfl

theorem syncStops_eq_self {t : State} (h : t.dbg.engStop = []) : syncStops t = t := by
  rw [syncStops, h]
  rfl

theorem trimL2_eq_self {t : State} (h : ∀ e ∈ t.l2, (setLines t e.1).length ≤ 16) : trimL2 t = t := by
  unfold trimL2
  split
  · rfl
  · exact foldl_eq_self fun e he => if_neg (Nat.not_lt.mpr (h e he))

/-- Where nothing waits for the end of a step, nothing follows it. -/
theorem after_eq_self {b t : State} (hq : Quiet t)
    (ha : ∀ e ∈ t.teams, ∀ x, sfind b.teams e.1 = some x → x.away = e.2.away) : after b t = t := by
  obtain ⟨hstep, hstop, hbad, hstamp, hnote, hend, hlost, hheat, hcoh, hl2⟩ := hq
  rw [after, noteSteps_eq_self hstep, noteParks_eq_self ha, tidy, failReads_eq_self hbad,
    retryHeld_eq_self hstamp hnote hend hheat, dissolveAll_eq_self hcoh, retryLost_eq_self hlost,
    syncStops_eq_self hstop, trimL2_eq_self hl2]

/-! ### Streams -/

theorem streamInstr_ok {core k : Nat} {w : Word} {i : Instr} (h : decodeWord w = .ok i)
    (ho : 0xC0 ≤ i.opcode) : streamInstr core k w = i := by
  rw [streamInstr, h]
  dsimp only
  rw [if_pos ho]

theorem streamInstr_other {core k : Nat} {w : Word} (h : ∀ i, decodeWord w = .ok i → i.opcode < 0xC0) :
    streamInstr core k w = .streamOpcodeError core k w := by
  unfold streamInstr
  split
  · next i hi => rw [if_neg (Nat.not_le.mpr (h i hi))]
  · rfl

theorem isNone_failing_of_mayStart {s : State} {x : Stream} {i : Instr} (h : x.mayStart s i = true) :
    x.failing.isNone = true := by
  unfold Stream.mayStart at h
  exact (Bool.and_eq_true_iff.mp h).1

/-- The turn of a stream whose next word is fetched, may start and is granted what it needs (R116, R118). -/
theorem runs_streamInstr {s : State} {core k : Nat} {rest : List Move} {x : Stream} {w : Word} {r : List Word}
    (hp : s.power = .on) (ha : s.agenda = .stream core k :: rest)
    (hx : (getEngine s core).streams[k]? = some x) (hf : findStream s core x.cohort = some x)
    (hahead : x.ahead = w :: r) (hrun : x.canRun = true ∨ x.atBarrier = true)
    (hmay : x.mayStart s (streamInstr core k w) = true)
    (hgrant : needsGrant (streamInstr core k w) = true → x.granted = true) :
    Runs s (prefetch core x.cohort aheadWords { taken s rest with curStream := (core, x.cohort) })
      (streamInstr core k w) := by
  apply runs_of_turn
  rw [turn_tick hp ha]
  have hx' : (getEngine (taken s rest) core).streams[k]? = some x := hx
  have hfail : x.failing.isNone = true := isNone_failing_of_mayStart hmay
  have hrun' : (x.canRun || x.atBarrier) = true := by simpa using hrun
  have hfetch : fetchAhead { taken s rest with curStream := (core, x.cohort) } core x =
      prefetch core x.cohort aheadWords { taken s rest with curStream := (core, x.cohort) } := by
    rw [fetchAhead, hahead]
  have hf' : findStream { taken s rest with curStream := (core, x.cohort) } core x.cohort = some x := hf
  obtain ⟨hc, ws, hws⟩ := findStream_prefetch aheadWords hf'
  show streamTurn (taken s rest) core k = _
  unfold streamTurn
  rw [hx']
  dsimp only
  rw [if_neg (by rcases hrun with h | h <;> simp [h]), if_neg (by simpa using hfail), hfetch]
  generalize prefetch core x.cohort aheadWords { taken s rest with curStream := (core, x.cohort) } = b at hc hws
  have hstart : Stream.mayStart b { x with ahead := x.ahead ++ ws } (streamInstr core k w) = true := by
    rw [mayStart_ahead hc]
    exact hmay
  rw [hws]
  dsimp only
  rw [hahead] at hstart ⊢
  show (if x.canRun || x.atBarrier then wordTurn b core k { x with ahead := w :: r ++ ws } w else Turn.done b) = _
  rw [if_pos hrun', wordTurn]
  dsimp only
  rw [if_pos hstart, if_neg]
  rw [Bool.and_eq_true, not_and]
  intro hn
  simp [hgrant hn]

/-- Settles O23: a team's turn runs its next instruction (`runs_nextInstr`), a stream's the word that it
has fetched (`runs_streamInstr`), an event of the table itself (`runs_occur`); after it, `after_eq_self`. -/
theorem stepRunsTheDecodedWord : Obligations.StepRunsTheDecodedWord := by
  unfold Obligations.StepRunsTheDecodedWord
  refine ⟨⟨?word, ?header, ?event, ?quiet⟩, ?stream⟩
  case word =>
    intro s u rest c w i hp ha hr hc hw
    have hrun := runs_nextInstr hp ha hr
    rw [nextInstr_of_clause hc hw] at hrun
    refine ⟨fun hd hadm => ?_, fun hd hadm => ?_, fun e hd => ?_⟩
    · rwa [clauseInstr_ok hd, if_pos hadm] at hrun
    · rwa [clauseInstr_ok hd, if_neg (by simp [hadm])] at hrun
    · rwa [clauseInstr_error hd] at hrun
  case header =>
    intro s u rest hp ha hr hc
    have hrun := runs_nextInstr hp ha hr
    rwa [nextInstr_of_no_clause hc] at hrun
  case event =>
    intro s i rest hp ha henc hh hw hs
    exact runs_occur hp ha (isEvent_of_encode_none henc hh hw hs)
  case quiet =>
    intro b t hq ha
    exact after_eq_self hq ha
  case stream =>
    intro s core k rest x w r i hp ha hx hf hahead hrun hmay hgrant b
    have hrun := runs_streamInstr hp ha hx hf hahead hrun hmay hgrant
    refine ⟨fun hd ho => ?_, fun hother => ?_⟩
    · rwa [streamInstr_ok hd ho] at hrun
    · rwa [streamInstr_other hother] at hrun

end Sys2Proof.Machine
end

section
/-! SUPPORT. A fetch does not look at what the teams know of failed pages (R42): with that forgotten
before it or after it, it comes to the same. -/

open Sys2Proof Sys2Proof.Machine
namespace Sys2Proof.Machine

/-- The team without what it knows of failed pages. -/
def Team.unfailed (t : Team) : Team := { t with fatalPages := [], hostFail := [] }

def State.unfailed (s : State) : State := { s with teams := s.teams.map fun e => (e.1, e.2.unfailed) }

theorem foldl_unfailed {α : Type} {f : State → α → State} (h : ∀ s a, f s.unfailed a = (f s a).unfailed)
    (l : List α) (s : State) : l.foldl f s.unfailed = (l.foldl f s).unfailed := by
  induction l generalizing s with
  | nil => rfl
  | cons a r ih => rw [List.foldl_cons, List.foldl_cons, h, ih]

theorem memSetAll_unfailed (s : State) (bs : List (Nat × Byte)) :
    memSetAll s.unfailed bs = (memSetAll s bs).unfailed := by
  induction bs generalizing s with
  | nil => rfl
  | cons b r ih => exact ih (memSet s b.1 b.2)

theorem touchLine_unfailed (s : State) (ln : Nat) : touchLine s.unfailed ln = (touchLine s ln).unfailed := rfl

theorem l2Set_unfailed (s : State) (ln : Nat) (x : L2Line) : l2Set s.unfailed ln x = (l2Set s ln x).unfailed := rfl

theorem l1Set_unfailed (s : State) (core pa : Nat) (v : Option L1Byte) :
    l1Set s.unfailed core pa v = (l1Set s core pa v).unfailed := rfl

@[simp] theorem l2Get_unfailed (s : State) (ln : Nat) : l2Get s.unfailed ln = l2Get s ln := rfl

theorem markDirty_unfailed (s : State) (pa : Nat) : markDirty s.unfailed pa = (markDirty s pa).unfailed := by
  unfold markDirty
  split <;> rfl

theorem bankAccess_unfailed (s : State) (u w : Bool) (pa : Nat) :
    bankAccess s.unfailed u w pa = (bankAccess s u w pa).unfailed := by
  have hc : capturedAt s.unfailed pa = capturedAt s pa := rfl
  unfold bankAccess
  rw [hc]
  split <;> rfl

theorem homeFetch_unfailed (s : State) (u : Bool) (pa : Nat) :
    homeFetch s.unfailed u pa = (homeFetch s u pa).unfailed := by
  unfold homeFetch
  simp only [touchLine_unfailed, l2Get_unfailed, l2Set_unfailed, bankAccess_unfailed]
  split <;> rfl

theorem homeFetchAll_unfailed (s : State) (u : Bool) (pas : List Nat) :
    homeFetchAll s.unfailed u pas = (homeFetchAll s u pas).unfailed :=
  foldl_unfailed (fun s _ => homeFetch_unfailed s u _) _ s

theorem writeSectors_unfailed (s : State) (ln : Nat) :
    writeSectors s.unfailed ln = (writeSectors s ln).unfailed := by
  have hp : portDown s.unfailed (ln * 256) = portDown s (ln * 256) := rfl
  have hc : capturedAt s.unfailed (ln * 256) = capturedAt s (ln * 256) := rfl
  unfold writeSectors
  simp only [l2Get_unfailed, hp, hc, l2Set_unfailed, bankAccess_unfailed]
  split <;> rfl

/-! ### What waits for a word -/

/-- One lane of a waiting team reads its word again (R171). -/
def rereadLane (s : State) (lines : List Nat) (t : Team) (e : Nat × Nat) : Team :=
  match t.waitv with
  | none => t
  | some w =>
    if lines.contains (lineOf e.2) && !w.satisfied.getLsbD e.1 then
      let x := readWordAt s t.core (w.sc == .core) e.2
      if (x == t.vget w.t e.1) != w.ne then
        { t.vset w.t e.1 x with waitv := some { w with satisfied := w.satisfied ||| laneBit e.1 } }
      else t
    else t

theorem satisfy_unfailed (t : Team) (g l : Nat) (x : Word) (w : WaitV) :
    ({ t.unfailed.vset g l x with waitv := some w } : Team) =
      ({ t.vset g l x with waitv := some w } : Team).unfailed := rfl

theorem rereadLane_unfailed (s : State) (lines : List Nat) (t : Team) (e : Nat × Nat) :
    rereadLane s.unfailed lines t.unfailed e = (rereadLane s lines t e).unfailed := by
  have hw : t.unfailed.waitv = t.waitv := rfl
  have hv : ∀ w : WaitV, t.unfailed.vget w.t e.1 = t.vget w.t e.1 := fun _ => rfl
  have hr : ∀ b, readWordAt s.unfailed t.unfailed.core b e.2 = readWordAt s t.core b e.2 := fun _ => rfl
  unfold rereadLane
  rw [hw]
  split
  · rfl
  · next w _ =>
    simp only [hr, hv, satisfy_unfailed]
    split
    · split <;> rfl
    · rfl

theorem reread_eq (s : State) (t : Team) (lines : List Nat) :
    reread s t lines = match t.waitv with
      | none => t
      | some w => w.lanes.foldl (rereadLane s lines) t := rfl

theorem foldl_rereadLane_unfailed (s : State) (lines : List Nat) (es : List (Nat × Nat)) (t : Team) :
    es.foldl (rereadLane s.unfailed lines) t.unfailed = (es.foldl (rereadLane s lines) t).unfailed := by
  induction es generalizing t with
  | nil => rfl
  | cons e r ih => rw [List.foldl_cons, List.foldl_cons, rereadLane_unfailed, ih]

theorem reread_unfailed (s : State) (t : Team) (lines : List Nat) :
    reread s.unfailed t.unfailed lines = (reread s t lines).unfailed := by
  have hw : t.unfailed.waitv = t.waitv := rfl
  rw [reread_eq, reread_eq, hw]
  split
  · rfl
  · exact foldl_rereadLane_unfailed s lines _ t

theorem concerned_unfailed (s : State) (c : Option Nat) (lines : List Nat) (t : Team) :
    t.unfailed.concerned s.unfailed c lines = t.concerned s c lines := rfl

/-- The waiting teams that a change in some lines concerns read their words again (R418, R419). -/
def observeTeams (s : State) (c : Option Nat) (lines : List Nat) : State :=
  if s.teams.any fun e => e.2.waitv.isSome then
    { s with teams := s.teams.map fun e => (e.1, reread s e.2 (e.2.concerned s c lines)) }
  else s

/-- So do the copy commands that wait for their condition (R194). -/
def observeChannels (s : State) (c : Option Nat) (lines : List Nat) : State :=
  if c.isNone && s.channels.any fun e => e.2.queue.any fun c => c.condPa.isSome then
    { s with channels := s.channels.map fun e =>
        (e.1, { e.2 with queue := e.2.queue.map (CopyCmd.recheck s (lines.filter fun ln => !heldLine s false ln)) }) }
  else s

theorem observe_eq (s : State) (c : Option Nat) (lines : List Nat) :
    observe s c lines = observeChannels (observeTeams s c lines) c lines := rfl

theorem observeTeams_unfailed (s : State) (c : Option Nat) (lines : List Nat) :
    observeTeams s.unfailed c lines = (observeTeams s c lines).unfailed := by
  have hany : (s.unfailed.teams.any fun e => e.2.waitv.isSome) = s.teams.any fun e => e.2.waitv.isSome := by
    simp only [State.unfailed, List.any_map]; rfl
  unfold observeTeams
  rw [hany]
  split
  · simp only [State.unfailed, List.map_map]
    congr 1
    refine List.map_congr_left fun e _ => ?_
    exact congrArg (Prod.mk e.1) (reread_unfailed s e.2 (e.2.concerned s c lines))
  · rfl

theorem observeChannels_unfailed (s : State) (c : Option Nat) (lines : List Nat) :
    observeChannels s.unfailed c lines = (observeChannels s c lines).unfailed := by
  have hc : s.unfailed.channels = s.channels := rfl
  unfold observeChannels
  rw [hc]
  split <;> rfl

theorem observe_unfailed (s : State) (c : Option Nat) (lines : List Nat) :
    observe s.unfailed c lines = (observe s c lines).unfailed := by
  rw [observe_eq, observe_eq, observeTeams_unfailed, observeChannels_unfailed]

theorem homeWrite_unfailed (s : State) (bs : List (Nat × Byte)) :
    homeWrite s.unfailed bs = (homeWrite s bs).unfailed := by
  unfold homeWrite
  dsimp only
  rw [foldl_unfailed touchLine_unfailed, foldl_unfailed markDirty_unfailed, memSetAll_unfailed, observe_unfailed]

/-! ### Keys, walks and fetches -/

theorem cleanBytes_unfailed (s : State) (core : Nat) (bs : List (Nat × L1Byte)) :
    cleanBytes s.unfailed core bs = (cleanBytes s core bs).unfailed := by
  induction bs generalizing s with
  | nil => rfl
  | cons b r ih => exact ih (l1Set s core b.1 (some ⟨b.2.val, false⟩))

theorem dropBytes_unfailed (s : State) (core : Nat) (bs : List (Nat × L1Byte)) :
    dropBytes s.unfailed core bs = (dropBytes s core bs).unfailed := by
  induction bs generalizing s with
  | nil => rfl
  | cons b r ih => exact ih (l1Set s core b.1 none)

theorem l1Collect_unfailed (s : State) (core line : Nat) :
    l1Collect s.unfailed core line = (l1Collect s core line).unfailed := by
  have hb : l1Bytes s.unfailed core = l1Bytes s core := rfl
  unfold l1Collect collectBytes writeBack
  dsimp only
  rw [hb, cleanBytes_unfailed, homeWrite_unfailed, dropBytes_unfailed]

theorem collectLine_unfailed (s : State) (line : Nat) :
    collectLine s.unfailed line = (collectLine s line).unfailed :=
  foldl_unfailed (fun s c => l1Collect_unfailed s c line) _ s

theorem setShadows_unfailed (s : State) (m : Sparse (Option (BitVec 512) × BitVec 512)) :
    ({ s.unfailed with shadows := m } : State) = ({ s with shadows := m } : State).unfailed := rfl

theorem viewUnit_unfailed (o n : Option (BitVec 512)) (s : State) (u : Nat) :
    viewUnit o n s.unfailed u = (viewUnit o n s u).unfailed := by
  have hm : memRead s.unfailed (u * 64) 64 = memRead s (u * 64) 64 := rfl
  have hs : s.unfailed.shadows = s.shadows := rfl
  have hs' : ∀ t : State, t.unfailed.shadows = t.shadows := fun _ => rfl
  unfold viewUnit
  simp only [hm, hs, memSetAll_unfailed, hs']
  split
  · rfl
  · exact setShadows_unfailed _ _

theorem viewKey_unfailed (s : State) (pa key : Nat) : viewKey s.unfailed pa key = (viewKey s pa key).unfailed := by
  have hk : ∀ (t : State) ln, lineKey t.unfailed ln = lineKey t ln := fun _ _ => rfl
  have hm : ∀ (t : State) k, keyMaterial t.unfailed k = keyMaterial t k := fun _ _ => rfl
  unfold viewKey
  simp only [hk, hm, collectLine_unfailed, writeSectors_unfailed]
  split
  · rfl
  · rw [foldl_unfailed (f := fun t i => viewUnit _ _ t (lineOf pa * 4 + i))
      fun t i => viewUnit_unfailed _ _ t (lineOf pa * 4 + i), l2Get_unfailed, l2Set_unfailed]

theorem viewBytes_unfailed (s : State) (pas : List Nat) (key : Nat) :
    viewBytes s.unfailed pas key = (viewBytes s pas key).unfailed :=
  foldl_unfailed (fun s _ => viewKey_unfailed s _ key) _ s

theorem walk_unfailed (s : State) (table : Nat) (va : DWord) (levels : List Nat) :
    walk s.unfailed table va levels = ((walk s table va levels).1, (walk s table va levels).2.unfailed) := by
  have hb : ∀ (t : State) pa, isBad t.unfailed pa = isBad t pa := fun _ _ => rfl
  have hst : ∀ (t : State) pa, stackHolds t.unfailed pa = stackHolds t pa := fun _ _ => rfl
  have hh : ∀ (t : State) w ln, heldLine t.unfailed w ln = heldLine t w ln := fun _ _ _ => rfl
  have hm : ∀ (t : State) pa n, memRead t.unfailed pa n = memRead t pa n := fun _ _ _ => rfl
  induction levels generalizing s table with
  | nil => rfl
  | cons level rest ih =>
    unfold walk
    simp only [hb, hst, hh, viewKey_unfailed, homeFetch_unfailed, hm, ih]
    repeat' split
    all_goals rfl

theorem heatAt_unfailed (s : State) (addr : Nat) (w : Bool) :
    heatAt s.unfailed addr w = (heatAt s addr w).unfailed := by
  have hm : ∀ (t : State) pa n, memRead t.unfailed pa n = memRead t pa n := fun _ _ _ => rfl
  unfold heatAt
  simp only [viewKey_unfailed, hm, markDirty_unfailed, memSetAll_unfailed]

theorem noteHeat_unfailed (s : State) (addr : Nat) (w : Bool) :
    noteHeat s.unfailed addr w = (noteHeat s addr w).unfailed := by
  have hh : ∀ (t : State) w ln, heldLine t.unfailed w ln = heldLine t w ln := fun _ _ _ => rfl
  unfold noteHeat
  rw [hh]
  split
  · rfl
  · exact heatAt_unfailed s addr w

theorem fillTlbs_unfailed (s : State) (core : Nat) (tlbs : List TlbId) (ctx base size : Nat) (e : DWord)
    (x : Xlat) :
    fillTlbs s.unfailed core tlbs ctx base size e x = (fillTlbs s core tlbs ctx base size e x).unfailed := by
  unfold fillTlbs
  split <;> rfl

theorem translate_unfailed (s : State) (core : Nat) (tlbs : List TlbId) (ctx : Nat) (va : DWord)
    (k : ReqKind) : translate s.unfailed core tlbs ctx va k =
      ((translate s core tlbs ctx va k).1, (translate s core tlbs ctx va k).2.unfailed) := by
  have ht : s.unfailed.tlbs = s.tlbs := rfl
  have hc : getCtx s.unfailed ctx = getCtx s ctx := rfl
  have hj : ∀ (t : State) size e, judge t.unfailed size e va k = judge t size e va k := fun _ _ _ => rfl
  unfold translate walkFrom
  rw [ht, hc, walk_unfailed]
  generalize walk s (getCtx s ctx).root va [5, 4, 3, 2, 1] = r
  obtain ⟨r, s1⟩ := r
  split
  · rfl
  · split
    · rfl
    · cases r with
      | leaf addr size e => simp only [noteHeat_unfailed, hj, fillTlbs_unfailed]
      | notPresent e => rfl
      | malformed => rfl
      | bad pa => rfl
      | held => rfl

theorem onePage_unfailed (s : State) (core : Nat) (tlbs : List TlbId) (ctx : Nat) (va : DWord) (n : Nat)
    (k : ReqKind) : onePage s.unfailed core tlbs ctx va n k =
      ((onePage s core tlbs ctx va n k).1, (onePage s core tlbs ctx va n k).2.unfailed) := by
  unfold onePage
  rw [translate_unfailed]
  generalize translate s core tlbs ctx va k = r
  obtain ⟨r, s1⟩ := r
  have hb : backed s1.unfailed = backed s1 := rfl
  cases r with
  | ok pa key =>
    simp only [hb, viewBytes_unfailed]
    split <;> rfl
  | fault p => rfl
  | migrating p => rfl
  | fatal => rfl
  | bad pa => rfl
  | held => rfl

theorem translateBytes_unfailed (s : State) (core : Nat) (tlbs : List TlbId) (ctx : Nat) (va : DWord)
    (n : Nat) (k : ReqKind) : translateBytes s.unfailed core tlbs ctx va n k =
      ((translateBytes s core tlbs ctx va n k).1, (translateBytes s core tlbs ctx va n k).2.unfailed) := by
  unfold translateBytes
  simp only [onePage_unfailed]
  split <;> rfl

theorem fetchAt_unfailed (s : State) (t : Team) (va : DWord) :
    fetchAt s.unfailed t va = ((fetchAt s t va).1, (fetchAt s t va).2.unfailed) := by
  unfold fetchAt
  rw [translateBytes_unfailed]
  generalize translateBytes s t.core (teamTlbs t) t.ctx va 4 .fetch = r
  obtain ⟨r, s1⟩ := r
  have hs : ∀ pas, homeStop s1.unfailed t.core true false pas = homeStop s1 t.core true false pas := fun _ => rfl
  have hr : ∀ pas, homeRead s1.unfailed t.core pas = homeRead s1 t.core pas := fun _ => rfl
  split
  · rfl
  · cases r with
    | ok pas =>
      simp only [hs, hr, homeFetchAll_unfailed]
      repeat' split
      all_goals rfl
    | fault ps => rfl
    | migrating ps => rfl
    | fatal => rfl
    | bad pa => rfl
    | held => rfl

theorem fetchAll_unfailed (s : State) (t : Team) (va : DWord) (n : Nat) :
    fetchAll s.unfailed t va n = ((fetchAll s t va n).1, (fetchAll s t va n).2.unfailed) := by
  induction n generalizing s va with
  | zero => rfl
  | succ n ih =>
    unfold fetchAll
    rw [fetchAt_unfailed]
    generalize fetchAt s t va = r
    obtain ⟨r, s1⟩ := r
    cases r with
    | ok w =>
      simp only [ih]
      generalize fetchAll s1 t (va + 4) n = q
      obtain ⟨q, s2⟩ := q
      cases q <;> rfl
    | page p => rfl
    | fatal => rfl
    | held => rfl
    | bad pa => rfl

end Sys2Proof.Machine
end

section
/-! SUPPORT. Headers and the clauses they start (R39 to R44). -/

open Sys2Proof Sys2Proof.Machine Sys2Proof.Safety Sys2Proof.Statements
namespace Sys2Proof.Machine

/-! ### Headers -/

theorem field_word (w : Word) (lo n : Nat) : field w.toNat lo n = (w.extractLsb' lo n).toNat := by
  rw [field, BitVec.extractLsb'_toNat]

theorem extractLsb'_eq_iff (w : Word) (lo n : Nat) (x : BitVec n) :
    w.extractLsb' lo n = x ↔ field w.toNat lo n = x.toNat := by
  rw [field_word, BitVec.toNat_eq]

theorem isHeader_iff (w : Word) : isHeader w = true ↔ w.extractLsb' 28 4 = 15 := by
  have hlt := w.isLt
  rw [extractLsb'_eq_iff, isHeader, beq_iff_eq, field, Nat.shiftRight_eq_div_pow]
  show w.toNat / 2 ^ 28 = 15 ↔ w.toNat / 2 ^ 28 % 2 ^ 4 = 15
  omega

theorem headerOk_iff (w : Word) : headerOk w = true ↔ GoodHeader w := by
  unfold GoodHeader
  simp only [headerOk, Bool.and_eq_true, Bool.or_eq_true, bne_iff_ne, beq_iff_eq, decide_eq_true_eq,
    isHeader_iff, hdrCount, hdrClass, field_word, extractLsb'_eq_iff, ne_eq, and_assoc,
    imp_iff_not_or]
  rfl

theorem drained_eq_drains (w : Word) (p : Pending) :
    Pending.drained (drainBit w 0) (drainBit w 3) p = drains w p.kind := by
  unfold Pending.drained drains
  cases p.kind <;> rfl

theorem engineIdle_of_engineDone {s : State} {t : Team} (h : EngineDone s t) : engineIdle s t = true := by
  obtain ⟨hrow, hdef, hch⟩ := h
  simp only [engineIdle, hrow, hdef, Bool.and_eq_true, List.all_eq_true, Bool.or_eq_true, bne_iff_ne]
  refine ⟨⟨rfl, rfl⟩, fun c hc => ?_⟩
  by_cases hctx : c.1 / 2048 = t.ctx
  · exact .inr (hch c hc hctx)
  · exact .inl hctx

/-! ### Fetches -/

theorem length_of_fetchAll {s s1 : State} {t : Team} {va : DWord} {n : Nat} {ws : List Word}
    (h : fetchAll s t va n = (.ok ws, s1)) : ws.length = n := by
  induction n generalizing s va ws s1 with
  | zero => cases h; rfl
  | succ n ih =>
    unfold fetchAll at h
    split at h
    · next w s2 _ =>
      split at h
      · next ws' s3 hrest =>
        cases h
        rw [List.length_cons, ih hrest]
      · next hno => exact absurd h (hno ws s1)
    · cases h

theorem fetchAll_unfailed_team (s : State) (t : Team) (va : DWord) (n : Nat) :
    fetchAll s t.unfailed va n = fetchAll s t va n := by
  induction n generalizing s va with
  | zero => rfl
  | succ n ih =>
    have hf : fetchAt s t.unfailed va = fetchAt s t va := rfl
    unfold fetchAll
    simp only [hf, ih]

/-- The team whose words have been fetched. -/
def Team.fetchedWords (t : Team) : Team := { t with only := none, held := none, unfin := 0 }

theorem withFetch_ok {s s1 : State} {va : DWord} {n : Nat} {ws : List Word} {read : Option Nat}
    (k : List Word → State → State) (h : fetchAll s s.tm va n = (.ok ws, s1)) :
    withFetch va n read s k = k ws (s1.setTm s1.tm.fetchedWords) := by
  unfold withFetch
  rw [h]
  rfl

theorem fetched_eq (s : State) : fetched s = s.setTm s.tm.fetchedWords.unfailed := rfl

/-! ### Teams that differ in what they know of failed pages -/

theorem map_sput {β γ : Type} (f : β → γ) (m : Sparse β) (k : Nat) (v : β) :
    (sput m k v).map (fun e => (e.1, f e.2)) = sput (m.map fun e => (e.1, f e.2)) k (f v) := by
  induction m with
  | nil => rfl
  | cons e r ih =>
    simp only [sput, List.map_cons]
    split
    · rfl
    · split
      · rfl
      · rw [List.map_cons, ih]

theorem setTm_unfailed (s : State) (t : Team) : (s.setTm t).unfailed = s.unfailed.setTm t.unfailed := by
  show ({ s with teams := (sput s.teams s.cur t).map fun e => (e.1, e.2.unfailed) } : State) = _
  rw [map_sput]
  rfl

theorem sfind_map {β γ : Type} (f : β → γ) (m : Sparse β) (k : Nat) :
    sfind (m.map fun e => (e.1, f e.2)) k = (sfind m k).map f := by
  induction m with
  | nil => rfl
  | cons e r ih =>
    simp only [List.map_cons, sfind]
    split
    · rfl
    · exact ih

theorem tm_unfailed (s : State) : s.unfailed.tm = s.tm.unfailed := by
  show (sfind (s.teams.map fun e => (e.1, e.2.unfailed)) s.cur).getD .blank = _
  rw [sfind_map, State.tm, State.getTeam]
  cases sfind s.teams s.cur <;> rfl

/-- Two states that differ in what is known of failed pages: a fetch that succeeds in one succeeds in the
other, with the same words. -/
theorem fetchAll_of_unfailed_eq {s s' s1 : State} {va : DWord} {n : Nat} {ws : List Word}
    (hs : s'.unfailed = s.unfailed) (h : fetchAll s s.tm va n = (.ok ws, s1)) :
    ∃ s1', fetchAll s' s'.tm va n = (.ok ws, s1') ∧ s1'.unfailed = s1.unfailed := by
  have htm : s'.tm.unfailed = s.tm.unfailed := by rw [← tm_unfailed, hs, tm_unfailed]
  have hteam : fetchAll s' s'.tm va n = fetchAll s' s.tm va n := by
    rw [← fetchAll_unfailed_team, htm, fetchAll_unfailed_team]
  have h' := fetchAll_unfailed s' s.tm va n
  rw [hs, fetchAll_unfailed, h, Prod.mk.injEq] at h'
  rw [hteam]
  exact ⟨(fetchAll s' s.tm va n).2, Prod.ext h'.1.symm rfl, h'.2.symm⟩

theorem putVals_unfailed (t : Team) (vs : List (Nat × Word)) : t.unfailed.putVals vs = (t.putVals vs).unfailed := rfl

theorem putSvals_unfailed (t : Team) (vs : List (Nat × DWord)) :
    t.unfailed.putSvals vs = (t.putSvals vs).unfailed := rfl

theorem orFlags_unfailed (t : Team) (f : Flags) : t.unfailed.orFlags f = (t.orFlags f).unfailed := rfl

theorem arrive_unfailed (t : Team) (c : Nat) :
    t.unfailed.awrite c (t.unfailed.aread c + 1) = (t.awrite c (t.aread c + 1)).unfailed := rfl

theorem clearRows_unfailed (t : Team) (d : Nat) :
    ({ t.unfailed.swrite d (rowStatus t.unfailed.rowOut t.unfailed.rowDone t.unfailed.rowBits) with
        rowDone := 0, rowBits := 0 } : Team) =
      ({ t.swrite d (rowStatus t.rowOut t.rowDone t.rowBits) with rowDone := 0, rowBits := 0 } : Team).unfailed :=
  rfl

theorem commitOne_unfailed (t : Team) (p : Pending) : t.unfailed.commitOne p = (t.commitOne p).unfailed := by
  unfold Team.commitOne
  dsimp only
  rw [putVals_unfailed, putSvals_unfailed, orFlags_unfailed]
  split
  · split
    · rfl
    · exact arrive_unfailed _ _
  · exact clearRows_unfailed _ _
  · rfl

theorem came_unfailed (t : Team) (ls : List Nat) : t.unfailed.came ls = (t.came ls).unfailed := by
  unfold Team.came
  split <;> rfl

theorem foldl_commitStep_unfailed (ps : List (Pending × Bool)) (t : Team) (kept : List Pending) (ls : List Nat) :
    ps.foldl commitStep (t.unfailed, kept, ls) =
      ((ps.foldl commitStep (t, kept, ls)).1.unfailed, (ps.foldl commitStep (t, kept, ls)).2) := by
  induction ps generalizing t kept ls with
  | nil => rfl
  | cons p r ih =>
    rw [List.foldl_cons, List.foldl_cons]
    unfold commitStep
    dsimp only
    split
    · rw [commitOne_unfailed]
      exact ih _ _ _
    · exact ih _ _ _

theorem commitWhere_unfailed (t : Team) (f : Pending → Bool) :
    t.unfailed.commitWhere f = (t.commitWhere f).unfailed := by
  have hp : t.unfailed.pending = t.pending := rfl
  rw [commitWhere_eq, commitWhere_eq, hp, foldl_commitStep_unfailed]
  generalize (pickDue f t.pending).foldl commitStep (t, [], []) = r
  exact came_unfailed { r.1 with pending := r.2.1 } r.2.2

/-! ### The start of a clause (R42) -/

theorem mem_passesOf {m : Mask} {q : Nat} :
    q ∈ passesOf m ↔ q < 32 ∧ ∃ l, l / 32 = q ∧ m.getLsbD l = true := by
  have hbit : ∀ i, ((m.toNat >>> (32 * q)) % 2 ^ 32).testBit i = (decide (i < 32) && m.getLsbD (32 * q + i)) := by
    intro i
    rw [Nat.testBit_mod_two_pow, Nat.testBit_shiftRight, BitVec.getLsbD]
  rw [passesOf, List.mem_filter, List.mem_range, bne_iff_ne]
  refine and_congr_right fun _ => ⟨fun hne => ?_, ?_⟩
  · obtain ⟨i, hi⟩ := Nat.exists_testBit_of_ne_zero hne
    rw [hbit, Bool.and_eq_true, decide_eq_true_eq] at hi
    exact ⟨32 * q + i, by omega, hi.2⟩
  · rintro ⟨l, rfl, hl⟩ hzero
    have hb := hbit (l % 32)
    rw [hzero, Nat.zero_testBit, Nat.div_add_mod, hl, Bool.and_true, eq_comm, decide_eq_false_iff_not] at hb
    omega

theorem passesOf_ne_nil {m : Mask} (h : m ≠ 0) : passesOf m ≠ [] := by
  obtain ⟨l, hl⟩ : ∃ l, m.getLsbD l = true := by
    by_contra hno
    refine h (BitVec.eq_of_getLsbD_eq fun i _ => ?_)
    rw [show (0 : Mask).getLsbD i = false from BitVec.getLsbD_zero]
    exact Bool.eq_false_iff.mpr fun hi => hno ⟨i, hi⟩
  have hlt : l < 1024 := by
    by_contra hge
    rw [BitVec.getLsbD_of_ge m l (Nat.not_lt.mp hge)] at hl
    cases hl
  exact List.ne_nil_of_mem (mem_passesOf.mpr ⟨by omega, l, rfl, hl⟩)

/-- A clause whose words do not trap at decode starts at its first word, with every pass to come. -/
theorem enterClause_eq {t : Team} {base : DWord} {cls : Nat} {ws : List Word} (hws : ws ≠ [])
    (hact : t.active ≠ 0) (hok : cls = 0 ∨ cls = 2 → ∀ x ∈ ws, decodeTraps cls t x = false) :
    t.enterClause base cls ws = { t with
      pc := base
      clause := some ⟨base, cls, ws, 0, ws.length, passesOf t.active,
        if cls == 0 || cls == 2 then passesOf t.active else [], true, [], 0, []⟩ } := by
  have hlen : 0 < ws.length := List.length_pos_iff.mpr hws
  have hfind : (cls == 0 || cls == 2) = true → ws.findIdx? (decodeTraps cls t) = none := by
    intro hc
    rw [List.findIdx?_eq_none_iff]
    exact hok (by simpa using hc)
  have hbad : (if cls == 0 || cls == 2 then (ws.findIdx? (decodeTraps cls t)).getD ws.length else ws.length) =
      ws.length := by
    split
    · next hc => rw [hfind hc, Option.getD_none]
    · rfl
  have hempty : (decide (cls ≤ 2) && (passesOf t.active).isEmpty) = false := by
    simp [passesOf_ne_nil hact]
  have h0 : (ws.length == 0) = false := by simp [hws]
  have hne : ((0 : Nat) == ws.length) = false := by simp; omega
  unfold Team.enterClause
  simp only [hbad, hempty, h0, hne, Bool.false_or, Bool.false_eq_true, if_false, if_pos hlen, Nat.mul_zero]
  rw [BitVec.add_zero]

end Sys2Proof.Machine
end

section
/-! SUPPORT. Steps of teams at a header: traps, drains, clauses (R39 to R44, R67, R156). -/

open Sys2Proof Sys2Proof.Machine Sys2Proof.Safety Sys2Proof.Statements
namespace Sys2Proof.Machine

/-! ### A trap of a team that has been changed -/

/-- The teams are alike in what a trap reads and keeps. -/
structure TrapAlike (x y : Team) : Prop where
  inHandler : x.inHandler = y.inHandler
  pending : x.pending = y.pending
  ctx : x.ctx = y.ctx
  active : x.active = y.active
  full : x.full = y.full
  maskStack : x.maskStack = y.maskStack
  frame : x.frame = y.frame
  callHw : x.callHw = y.callHw
  callDepth : x.callDepth = y.callDepth
  scratch : x.scratch = y.scratch
  scratchSize : x.scratchSize = y.scratchSize
  k : x.k = y.k

theorem canTrap_setTm {s : State} {x : Team} (hx : TrapAlike x s.tm) (h : CanTrap s) : CanTrap (s.setTm x) := by
  have hg : ∀ c, getCtx (s.setTm x) c = getCtx s c := fun _ => rfl
  unfold CanTrap CanPush Team.blocked at h ⊢
  rw [tm_setTm, hg, hx.inHandler, hx.pending, hx.ctx, hx.callDepth, hx.callHw, hx.scratchSize]
  exact h

theorem sameMachine_of_setTm {s t : State} {x : Team} (h : SameMachine (s.setTm x) t) : SameMachine s t := by
  have hs : { t with teams := s.teams, issueCount := s.issueCount } =
      ({ s.setTm x with teams := s.teams, issueCount := s.issueCount } : State) :=
    congrArg (fun u : State => { u with teams := s.teams, issueCount := s.issueCount }) h
  exact hs

theorem sameOthers_of_setTm {s t : State} {x : Team} (h : SameOthers (s.setTm x) t) : SameOthers s t := by
  intro u hu
  rw [h u hu]
  show sfind (sput s.teams s.cur x) u = sfind s.teams u
  rw [sfind_sput, if_neg hu]

theorem scratchPut_scratch_congr {x y : Team} (h : x.scratch = y.scratch) (a : Nat) (bs : List Byte) :
    (x.scratchPut a bs).scratch = (y.scratchPut a bs).scratch := by
  simp only [Team.scratchPut, h]

theorem trapped_of_setTm {s t : State} {x : Team} {code q : Nat} {hi : Word} {addr : DWord}
    (hx : TrapAlike x s.tm) (h : Trapped (s.setTm x) t code q hi addr) : Trapped s t code q hi addr := by
  have hg : ∀ c, getCtx (s.setTm x) c = getCtx s c := fun _ => rfl
  unfold Trapped Pushed at h ⊢
  simp only [tm_setTm, hg, hx.active, hx.full, hx.maskStack, hx.ctx, hx.frame, hx.callDepth, hx.callHw, hx.k,
    hx.scratchSize, hx.scratch, scratchPut_scratch_congr hx.scratch] at h
  obtain ⟨hm, ho, hteam⟩ := h
  exact ⟨sameMachine_of_setTm hm, sameOthers_of_setTm ho, hteam⟩

theorem trapAlike_fetchedWords (t : Team) : TrapAlike t.fetchedWords t :=
  ⟨rfl, rfl, rfl, rfl, rfl, rfl, rfl, rfl, rfl, rfl, rfl, rfl⟩

theorem trapAlike_raceTaken (t : Team) : TrapAlike { t with racePending := false } t :=
  ⟨rfl, rfl, rfl, rfl, rfl, rfl, rfl, rfl, rfl, rfl, rfl, rfl⟩

/-! ### The branches of CLAUSE_HEADER -/

theorem clauseHeader_race {s : State} (hres : s.tm.resume = none) (hrace : s.tm.racePending = true)
    (hh : s.tm.inHandler = false) (hb : s.tm.blocked = false) :
    exec .clauseHeader s =
      .next (takeTrap (s.setTm { s.tm with racePending := false }) 0x09 0 0 s.tm.pc) := by
  show execClauseHeader s = _
  unfold execClauseHeader
  dsimp only
  rw [if_pos (by simp [hres, hrace, hh]), if_neg (by simp [hb])]
  rfl

theorem no_race {s : State} (h : s.tm.racePending = false ∨ s.tm.inHandler = true) :
    ¬(s.tm.resume.isNone && s.tm.racePending && !s.tm.inHandler) = true := by
  rcases h with h | h <;> simp [h]

theorem clauseHeader_misaligned {s : State} (hrace : s.tm.racePending = false ∨ s.tm.inHandler = true)
    (hpc : s.tm.pc.toNat % 4 ≠ 0) :
    exec .clauseHeader s = .next (withFetch s.tm.pc 1 none s badHeader) := by
  show execClauseHeader s = _
  unfold execClauseHeader
  dsimp only
  rw [if_neg (no_race hrace), if_pos (by simpa using hpc)]

theorem clauseHeader_resume {s : State} {n cls : Nat} (hres : s.tm.resume = some (n, cls))
    (hpc : s.tm.pc.toNat % 4 = 0) :
    exec .clauseHeader s = .next (withFetch s.tm.pc n none s fun ws s =>
      s.modTm fun t => t.startClause t.pc cls ws) := by
  show execClauseHeader s = _
  unfold execClauseHeader
  dsimp only
  rw [if_neg (by simp [hres]), if_neg (by simp [hpc]), hres]

theorem clauseHeader_header {s : State} (hres : s.tm.resume = none)
    (hrace : s.tm.racePending = false ∨ s.tm.inHandler = true) (hpc : s.tm.pc.toNat % 4 = 0) :
    exec .clauseHeader s = .next (withFetch s.tm.pc 1 none s fun ws s =>
      if headerOk (ws.headD 0) then enterHeader (ws.headD 0) s else badHeader ws s) := by
  show execClauseHeader s = _
  unfold execClauseHeader
  dsimp only
  rw [if_neg (no_race hrace), if_neg (by simp [hpc]), hres]

theorem badHeader_trapped {s : State} (ws : List Word) (hc : CanTrap s) :
    Trapped s (badHeader ws (s.setTm s.tm.fetchedWords)) 0x01 0 (ws.headD 0) s.tm.pc := by
  have hx := trapAlike_fetchedWords s.tm
  have hpc : (s.setTm s.tm.fetchedWords).tm.pc = s.tm.pc := by rw [tm_setTm]; rfl
  rw [badHeader, hpc]
  exact trapped_of_setTm hx (takeTrap_trapped (canTrap_setTm hx hc) (by decide) (by decide) _ _)

/-! ### Clauses -/

theorem decodeTraps_congr {cls : Nat} {x y : Team} (hh : x.inHandler = y.inHandler) (hn : x.nreg = y.nreg)
    (hf : x.frame = y.frame) (ha : x.active = y.active) (hfu : x.full = y.full) (w : Word) :
    decodeTraps cls x w = decodeTraps cls y w := by
  have hfit : x.fits = y.fits := by
    funext r
    simp only [Team.fits, hn, hf]
  have hst : ∀ i, staticTrap i x = staticTrap i y := by
    intro i
    unfold staticTrap
    rw [hh, hfit, ha, hfu]
  unfold decodeTraps
  simp only [hst]

theorem startClause_eq {t : Team} {base : DWord} {cls : Nat} {ws : List Word} (hws : ws ≠ [])
    (hact : t.active ≠ 0) (hok : cls = 0 ∨ cls = 2 → ∀ x ∈ ws, decodeTraps cls t x = false) :
    t.startClause base cls ws = { t with
      resume := none, fatalPages := [], hostFail := [], pc := base
      clause := some ⟨base, cls, ws, 0, ws.length, passesOf t.active,
        if cls == 0 || cls == 2 then passesOf t.active else [], true, [], 0, []⟩ } := by
  have hok' : cls = 0 ∨ cls = 2 → ∀ x ∈ ws,
      decodeTraps cls { t with resume := none, fatalPages := [], hostFail := [] } x = false := by
    intro hc x hx
    rw [← hok hc x hx]
    exact decodeTraps_congr rfl rfl rfl rfl rfl x
  exact enterClause_eq hws hact hok'

/-- The state of a team that has started a clause (R42). -/
theorem atClause_setTm {s : State} {t : Team} {base : DWord} {cls : Nat} {ws : List Word} (hws : ws ≠ [])
    (hact : t.active ≠ 0) (hok : cls = 0 ∨ cls = 2 → ∀ x ∈ ws, decodeTraps cls t x = false) :
    AtClause (s.setTm (t.startClause base cls ws)) base cls ws := by
  rw [startClause_eq hws hact hok]
  unfold AtClause
  simp only [tm_setTm]
  refine ⟨trivial, _, rfl, rfl, rfl, rfl, rfl, rfl, rfl, fun hc q => ?_⟩
  rw [if_pos (by simpa using hc)]
  exact mem_passesOf

theorem startClause_rest {t : Team} {base : DWord} {cls : Nat} {ws : List Word} (hws : ws ≠ [])
    (hact : t.active ≠ 0) (hok : cls = 0 ∨ cls = 2 → ∀ x ∈ ws, decodeTraps cls t x = false) :
    (t.startClause base cls ws).s = t.s ∧ (t.startClause base cls ws).v = t.v ∧
      (t.startClause base cls ws).resume = none := by
  rw [startClause_eq hws hact hok]
  exact ⟨rfl, rfl, rfl⟩

/-- What a header with good drains goes on to: the results of the drained kinds commit, and the words of
its clause are fetched (R42, R43). -/
theorem enterHeader_eq {w : Word} {s : State} (hgood : ∀ p ∈ (s.tm.commitWhere fun p => drains w p.kind).pending,
      drains w p.kind = true → p.more = true ∧ p.lost = [])
    (hidle : w.getLsbD 18 = true →
      engineIdle (s.setTm (s.tm.commitWhere fun p => drains w p.kind)) (s.tm.commitWhere fun p => drains w p.kind) =
        true) :
    enterHeader w s = withFetch ((s.tm.commitWhere fun p => drains w p.kind).pc + 4) (w.extractLsb' 24 4).toNat
      (some (w.extractLsb' 24 4).toNat) (s.setTm (s.tm.commitWhere fun p => drains w p.kind))
      fun ws s => s.modTm fun t => t.startClause (t.pc + 4) (w.extractLsb' 21 3).toNat ws := by
  have hd : Pending.drained (drainBit w 0) (drainBit w 3) = fun p => drains w p.kind :=
    funext (drained_eq_drains w)
  have hs : (s.modTm fun t => t.commitWhere (Pending.drained (drainBit w 0) (drainBit w 3))) =
      s.setTm (s.tm.commitWhere fun p => drains w p.kind) := by rw [hd]; rfl
  have hno : ((s.tm.commitWhere fun p => drains w p.kind).pending.any
      (Pending.awaited (drainBit w 0) (drainBit w 3))) = false := by
    rw [List.any_eq_false]
    intro p hp
    rw [Pending.awaited, drained_eq_drains]
    by_cases hdr : drains w p.kind = true
    · obtain ⟨hmore, hlost⟩ := hgood p hp hdr
      simp [hmore, hlost]
    · simp [hdr]
  unfold enterHeader
  dsimp only
  rw [hs, tm_setTm, hno, if_neg Bool.false_ne_true, if_neg]
  · rw [hdrCount, hdrClass, field_word, field_word]
  · rw [Bool.and_eq_true, not_and]
    intro hbit
    rw [hidle hbit]
    exact Bool.false_ne_true

/-! ### What a header comes to -/

/-- A state whose team knows nothing of failed pages, from one that differs in that only. -/
theorem unfailed_setTm_unfailed (s : State) (t : Team) : (s.setTm t.unfailed).unfailed = (s.setTm t).unfailed := by
  rw [setTm_unfailed, setTm_unfailed]
  rfl

theorem mem_eq_of_unfailed {s t : State} (h : s.unfailed = t.unfailed) : s.mem = t.mem := by
  have hm := congrArg State.mem h
  exact hm

theorem tm_unfailed_of_unfailed {s t : State} (h : s.unfailed = t.unfailed) : s.tm.unfailed = t.tm.unfailed := by
  rw [← tm_unfailed, h, tm_unfailed]

/-- The clause of a good header starts where its fetch succeeds (R42, R43). -/
theorem enterHeader_starts {s1 s2 s3 : State} {w : Word} {ws : List Word} (hgood : GoodHeader w)
    (hs2 : s2 = (fetched s1).modTm fun t => t.commitWhere fun p => drains w p.kind)
    (hmore : ∀ p ∈ s2.tm.pending, drains w p.kind = true → p.more = true ∧ p.lost = [])
    (hidle : w.getLsbD 18 = true → EngineDone s2 s2.tm)
    (hfetch : fetchAll s2 s2.tm (s2.tm.pc + 4) (w.extractLsb' 24 4).toNat = (.ok ws, s3))
    (hact : s3.tm.active ≠ 0)
    (hok : (w.extractLsb' 21 3).toNat = 0 ∨ (w.extractLsb' 21 3).toNat = 2 →
      ∀ x ∈ ws, decodeTraps (w.extractLsb' 21 3).toNat (fetched s3).tm x = false) :
    ∃ t, enterHeader w (s1.setTm s1.tm.fetchedWords) = t ∧
      AtClause t (s3.tm.pc + 4) (w.extractLsb' 21 3).toNat ws ∧ t.tm.s = s3.tm.s ∧ t.tm.v = s3.tm.v ∧
      t.mem = s3.mem := by
  generalize hcls : (w.extractLsb' 21 3).toNat = cls at hok ⊢
  generalize hc : s1.tm.fetchedWords.commitWhere (fun p => drains w p.kind) = c
  have hs2' : s2 = s1.setTm c.unfailed := by
    rw [hs2, fetched_eq, State.modTm, tm_setTm, commitWhere_unfailed, hc, setTm_setTm]
  have htm2 : s2.tm = c.unfailed := by rw [hs2', tm_setTm]
  rw [htm2] at hmore hidle hfetch
  obtain ⟨s3', hfetch', h3⟩ := fetchAll_of_unfailed_eq (s := s2) (s' := s1.setTm c)
    (by rw [hs2', unfailed_setTm_unfailed]) (by rw [htm2]; exact hfetch)
  have h3tm := tm_unfailed_of_unfailed h3
  have hpc : s3'.tm.pc = s3.tm.pc := by have h := congrArg Team.pc h3tm; exact h
  have hs : s3'.tm.s = s3.tm.s := by have h := congrArg Team.s h3tm; exact h
  have hv : s3'.tm.v = s3.tm.v := by have h := congrArg Team.v h3tm; exact h
  have hac : s3'.tm.active = s3.tm.active := by have h := congrArg Team.active h3tm; exact h
  have hws : ws ≠ [] := by
    intro hnil
    have hlen := length_of_fetchAll hfetch
    rw [hnil, List.length_nil] at hlen
    exact hgood.2.1 (BitVec.eq_of_toNat_eq hlen.symm)
  have hok' : cls = 0 ∨ cls = 2 → ∀ x ∈ ws, decodeTraps cls s3'.tm.fetchedWords x = false := by
    intro hcl x hx
    rw [← hok hcl x hx, fetched_eq, tm_setTm]
    exact decodeTraps_congr (by have h := congrArg Team.inHandler h3tm; exact h)
      (by have h := congrArg Team.nreg h3tm; exact h) (by have h := congrArg Team.frame h3tm; exact h) hac
      (by have h := congrArg Team.full h3tm; exact h) x
  have hact' : s3'.tm.fetchedWords.active ≠ 0 := by
    show s3'.tm.active ≠ 0
    rw [hac]
    exact hact
  have hrun : enterHeader w (s1.setTm s1.tm.fetchedWords) =
      s3'.setTm (s3'.tm.fetchedWords.startClause (s3'.tm.pc + 4) cls ws) := by
    have htm : (s1.setTm s1.tm.fetchedWords).tm = s1.tm.fetchedWords := tm_setTm _ _
    rw [enterHeader_eq]
    · rw [htm, hc, setTm_setTm, hcls, withFetch_ok (s1 := s3') (ws := ws) _ (by rw [tm_setTm] at hfetch' ⊢; exact hfetch'),
        State.modTm, tm_setTm, setTm_setTm]
      rfl
    · rw [htm, hc]
      exact hmore
    · rw [htm, hc]
      intro hbit
      apply engineIdle_of_engineDone
      have hdone := hidle hbit
      rw [hs2'] at hdone
      exact hdone
  refine ⟨_, hrun, ?_, ?_, ?_, ?_⟩
  · rw [hpc]
    exact atClause_setTm hws hact' hok'
  · rw [tm_setTm, (startClause_rest hws hact' hok').1]
    exact hs
  · rw [tm_setTm, (startClause_rest hws hact' hok').2.1]
    exact hv
  · show s3'.mem = s3.mem
    exact mem_eq_of_unfailed h3

/-! ### Drains -/

theorem wake_stalled {t : Team} (hst : t.state = .stalled) (hre : t.reenter = false) :
    t.wake.state = .ready ∧ t.wake.wait = .none ∧ t.wake.pc = t.pc := by
  unfold Team.wake
  simp only [hst, hre, Bool.false_eq_true, if_false]
  exact ⟨trivial, trivial, trivial⟩

theorem drainEnd_wakes {s : State} {u : Nat} {a b c d : Bool} (hw : (s.getTeam u).wait = .drain a b c d)
    (hdone : EngineDone s (s.getTeam u)) : exec (.drainEnd u) s = .next (s.modTeam u Team.wake) := by
  show execDrainEnd u s = _
  unfold execDrainEnd
  simp only [hw, engineIdle_of_engineDone hdone, if_true]

end Sys2Proof.Machine
end

section
/-! SUPPORT. The commit of a result (R53, R330, R370). -/

open Sys2Proof Sys2Proof.Machine Sys2Proof.Safety Sys2Proof.Statements
namespace Sys2Proof.Machine

/-! ### Registers after a list of writes -/

theorem sget_foldl_sset_other {β : Type} [DecidableEq β] {d : β} {es : List (Nat × β)} {g : Nat}
    (hg : g ∉ es.map Prod.fst) (m : Sparse β) :
    sget d (es.foldl (fun m e => sset d m e.1 e.2) m) g = sget d m g := by
  induction es generalizing m with
  | nil => rfl
  | cons e r ih =>
    rw [List.map_cons, List.mem_cons, not_or] at hg
    rw [List.foldl_cons, ih hg.2, sget_sset, if_neg hg.1]

theorem sget_foldl_sset_mem {β : Type} [DecidableEq β] {d : β} {es : List (Nat × β)}
    (hn : (es.map Prod.fst).Nodup) {e : Nat × β} (he : e ∈ es) (m : Sparse β) :
    sget d (es.foldl (fun m e => sset d m e.1 e.2) m) e.1 = e.2 := by
  induction es generalizing m with
  | nil => cases he
  | cons a r ih =>
    rw [List.map_cons, List.nodup_cons] at hn
    rw [List.foldl_cons]
    rcases List.mem_cons.mp he with rfl | he
    · rw [sget_foldl_sset_other hn.1, sget_sset, if_pos rfl]
    · exact ih hn.2 he _

/-! ### Results that commit -/

/-- The results whose lines have come with those of p (log entry 109). -/
def cameWith (p q : Pending) : Pending :=
  if p.arrived then q else { q with port := q.port.filter fun e => p.port.all fun f => lineOf f.2 != lineOf e.2 }

theorem otherResults_eq (l : List Pending) (k : Nat) (p : Pending) :
    otherResults l k p = (l.take k ++ l.drop (k + 1)).map (cameWith p) := rfl

theorem not_contains_lines (p : Pending) (x : Nat) :
    (!(p.port.map fun e => lineOf e.2).contains x) = p.port.all fun f => lineOf f.2 != x := by
  rw [Bool.eq_iff_iff]
  simp only [Bool.not_eq_true', List.contains_eq_mem, decide_eq_false_iff_not, List.mem_map, not_exists, not_and,
    List.all_eq_true, bne_iff_ne, ne_eq]

theorem came_onWay_pending (t : Team) (p : Pending) : (t.came p.onWay).pending = t.pending.map (cameWith p) := by
  have hcw : cameWith p = fun q => if p.arrived then q
      else { q with port := q.port.filter fun e => p.port.all fun f => lineOf f.2 != lineOf e.2 } := rfl
  by_cases ha : p.arrived = true
  · have hw : p.onWay = [] := by rw [Pending.onWay, if_pos ha]
    simp [Team.came, hw, hcw, ha]
  · have hw : p.onWay = p.port.map fun e => lineOf e.2 := by rw [Pending.onWay, if_neg ha]
    unfold Team.came
    rw [hw]
    split
    · next hnil =>
      have hport : p.port = [] := by simpa using hnil
      simp [hcw, ha, hport]
    · simp only [hcw, ha, not_contains_lines, Bool.false_eq_true, if_false]

theorem came_cases (t : Team) (ls : List Nat) : t.came ls = { t with pending := (t.came ls).pending } := by
  unfold Team.came
  split <;> rfl

/-- The values of a result that commits go to its registers (R53). -/
theorem commitOne_eq_of_kind {t : Team} {p : Pending}
    (hk : p.kind = .load ∨ p.kind = .trans ∨ p.kind = .atomic ∨ p.kind = .status) :
    t.commitOne p = { t with
      v := p.vals.foldl (fun m e => sset 0 m e.1 e.2) t.v, s := p.svals.foldl (fun m e => sset 0 m e.1 e.2) t.s
      fpflags := t.fpflags ||| p.flags.setWidth 32 } := by
  unfold Team.commitOne
  rcases hk with hk | hk | hk | hk
  all_goals
    rw [hk]
    rfl

theorem commitAt_eq_of_kind {t : Team} {k : Nat} {p : Pending} {lanes : BitVec 32}
    (hk : p.kind = .load ∨ p.kind = .trans ∨ p.kind = .atomic ∨ p.kind = .status) :
    t.commitAt k p lanes = { t with
      v := p.vals.foldl (fun m e => sset 0 m e.1 e.2) t.v, s := p.svals.foldl (fun m e => sset 0 m e.1 e.2) t.s
      fpflags := t.fpflags ||| p.flags.setWidth 32, pending := otherResults t.pending k p } := by
  have hc : t.commitAt k p lanes =
      { (t.came p.onWay).commitOne p with pending := dropNth (t.came p.onWay).pending k } := by
    unfold Team.commitAt
    rcases hk with hk | hk | hk | hk
    all_goals
      rw [hk]
  rw [hc, commitOne_eq_of_kind hk, came_cases, came_onWay_pending, otherResults_eq, dropNth, ← List.map_take,
    ← List.map_drop, ← List.map_append]

/-- The last lanes of an LDC commit: its counter takes one arrival (R330). -/
theorem commitAt_ldc_last {t : Team} {k : Nat} {p : Pending} {lanes : BitVec 32} {c : Nat} (hk : p.kind = .ldc c)
    (hmore : p.more = false) (hlate : (p.vals.filter fun e => !valueIn lanes e) = []) :
    t.commitAt k p lanes = { t with
      v := p.vals.foldl (fun m e => sset 0 m e.1 e.2) t.v, s := p.svals.foldl (fun m e => sset 0 m e.1 e.2) t.s
      fpflags := t.fpflags ||| p.flags.setWidth 32, a := sset 0 t.a c (t.aread c + 1)
      pending := otherResults t.pending k p } := by
  have hrest : p.rest = none := by
    rw [Pending.rest, hk]
    exact if_neg (by simp [hmore])
  have hone : ∀ x : Team, x.commitOne p = { x with
      v := p.vals.foldl (fun m e => sset 0 m e.1 e.2) x.v, s := p.svals.foldl (fun m e => sset 0 m e.1 e.2) x.s
      fpflags := x.fpflags ||| p.flags.setWidth 32, a := sset 0 x.a c (x.aread c + 1) } := by
    intro x
    unfold Team.commitOne
    rw [hk]
    dsimp only
    rw [if_neg (by simp [hmore])]
    rfl
  have hc : t.commitAt k p lanes = { (t.came p.onWay).commitOne p with
      pending := (t.came p.onWay).pending.take k ++ p.rest.toList ++ (t.came p.onWay).pending.drop (k + 1) } := by
    unfold Team.commitAt
    rw [hk]
    dsimp only
    rw [if_pos (by rw [hlate]; rfl)]
  rw [hc, hone, hrest, came_cases, came_onWay_pending, otherResults_eq, Option.toList_none, List.append_nil,
    ← List.map_take, ← List.map_drop, ← List.map_append]
  rfl

/-- Some lanes of an LDC commit; the others wait on (R370). -/
theorem commitAt_ldc_some {t : Team} {k : Nat} {p : Pending} {lanes : BitVec 32} {c : Nat} (hk : p.kind = .ldc c)
    (hlate : (p.vals.filter fun e => !valueIn lanes e) ≠ []) :
    t.commitAt k p lanes = { t with
      v := (p.vals.filter (valueIn lanes)).foldl (fun m e => sset 0 m e.1 e.2) t.v
      pending := (t.pending.map (cameWith p)).set k { p with vals := p.vals.filter fun e => !valueIn lanes e } } := by
  have hc : t.commitAt k p lanes = { (t.came p.onWay).putVals (p.vals.filter (valueIn lanes)) with
      pending := (t.came p.onWay).pending.set k { p with vals := p.vals.filter fun e => !valueIn lanes e } } := by
    unfold Team.commitAt
    rw [hk]
    dsimp only
    rw [if_neg (by simpa using hlate)]
  rw [hc, came_cases, came_onWay_pending]
  rfl

/-! ### The end of the wait -/

theorem wake_wait {t : Team} (hre : t.reenter = false) : t.wake.wait = .none := by
  unfold Team.wake
  simp only [hre, Bool.false_eq_true, if_false]
  repeat' split
  all_goals rfl

/-- A team that waits for nothing but a commit waits for nothing then. -/
theorem afterCommit_cases {t : Team} (hw : t.wait = .none ∨ t.wait = .commit) (hre : t.reenter = false) :
    ∃ st hf o, t.afterCommit = { t with wait := .none, state := st, haltedFrom := hf, only := o } := by
  rcases hw with hw | hw
  · have ht : t.afterCommit = t := by
      unfold Team.afterCommit
      rw [hw]
    exact ⟨t.state, t.haltedFrom, t.only, by rw [ht, ← hw]⟩
  · have ht : t.afterCommit = t.reissue := by
      unfold Team.afterCommit
      rw [hw]
    obtain ⟨w, st, hf, hwake⟩ := wake_cases t
    have hnone : w = .none := by rw [← wake_wait hre, hwake]
    rw [ht, Team.reissue, hwake, hnone]
    exact ⟨st, hf, _, rfl⟩

theorem retryTeam_eq_self {s : State} {u : Nat} (h : (s.getTeam u).wait = .none) : retryTeam s u = s := by
  unfold retryTeam
  dsimp only
  rw [h]

theorem commitAt_apart (t : Team) (k : Nat) (p : Pending) (lanes : BitVec 32) :
    (t.commitAt k p lanes).apart = t.apart := by
  unfold Team.commitAt
  dsimp only
  split
  · split
    · rw [setPending_apart, commitOne_apart, came_apart]
    · rw [setPending_apart, putVals_apart, came_apart]
  · rw [setPending_apart, commitOne_apart, came_apart]

theorem canCommit_iff {t : Team} {k : Nat} {p : Pending} :
    t.canCommit k p = true ↔ p.span = 0 ∧ p.blocked = false ∧
      ∀ (j : Nat) q, j < k → t.pending[j]? = some q → p.overlaps q = false := by
  have hany : (t.pending.take k).any p.overlaps = false ↔
      ∀ (j : Nat) q, j < k → t.pending[j]? = some q → p.overlaps q = false := by
    simp only [List.any_eq_false, List.mem_take_iff_getElem, Bool.not_eq_true]
    constructor
    · intro h j q hj hq
      obtain ⟨hlt, rfl⟩ := List.getElem?_eq_some_iff.mp hq
      exact h _ ⟨j, by omega, rfl⟩
    · rintro h _ ⟨j, hj, rfl⟩
      exact h j _ (by omega) (List.getElem?_eq_getElem _)
  rw [Team.canCommit, ← hany]
  simp [and_assoc]

/-- A result that may commit: its team takes its values, and no longer waits for it. -/
theorem resultCommit_eq {s : State} {u k : Nat} {lanes : BitVec 32} {p : Pending}
    (hp : (s.getTeam u).pending[k]? = some p) (hst : (s.getTeam u).state ≠ .halted)
    (hcan : (s.getTeam u).canCommit k p = true)
    (hw : (s.getTeam u).wait = .none ∨ (s.getTeam u).wait = .commit) (hre : (s.getTeam u).reenter = false) :
    ∃ st hf o, exec (.resultCommit u k lanes) s = .next (s.setTeam u
      { (s.getTeam u).commitAt k p lanes with wait := .none, state := st, haltedFrom := hf, only := o }) := by
  have hapart := commitAt_apart (s.getTeam u) k p lanes
  have hwait : ((s.getTeam u).commitAt k p lanes).wait = (s.getTeam u).wait := by
    have h := congrArg Team.wait hapart
    exact h
  have hreenter : ((s.getTeam u).commitAt k p lanes).reenter = (s.getTeam u).reenter := by
    have h := congrArg Team.reenter hapart
    exact h
  obtain ⟨st, hf, o, hafter⟩ := afterCommit_cases (by rw [hwait]; exact hw) (hreenter.trans hre)
  refine ⟨st, hf, o, ?_⟩
  have hnone : ((s.setTeam u ((s.getTeam u).commitAt k p lanes).afterCommit).getTeam u).wait = .none := by
    rw [getTeam_setTeam, if_pos rfl, hafter]
  show execResultCommit u k lanes s = _
  unfold execResultCommit
  dsimp only
  rw [hp]
  dsimp only
  rw [if_neg (by simp [hst, hcan]), retryTeam_eq_self hnone, hafter]

end Sys2Proof.Machine
end

section
/-! SUPPORT. RESULT_COMMIT (R53, R330, R370). -/

open Sys2Proof Sys2Proof.Machine Sys2Proof.Safety Sys2Proof.Statements
namespace Sys2Proof.Machine

/-- A load, a transcendental, an atomic or a status commits whole (R53). -/
theorem resultCommit_whole {s : State} {u k : Nat} {lanes : BitVec 32} {p : Pending}
    (hp : (s.getTeam u).pending[k]? = some p) (hst : (s.getTeam u).state ≠ .halted)
    (hcan : (s.getTeam u).canCommit k p = true)
    (hw : (s.getTeam u).wait = .none ∨ (s.getTeam u).wait = .commit) (hre : (s.getTeam u).reenter = false)
    (hvals : (p.vals.map Prod.fst).Nodup) (hsvals : (p.svals.map Prod.fst).Nodup)
    (hk : p.kind = .load ∨ p.kind = .trans ∨ p.kind = .atomic ∨ p.kind = .status) :
    let x := s.getTeam u
    ∃ t, exec (.resultCommit u k lanes) s = .next t ∧ t.mem = s.mem ∧ let y := t.getTeam u
      y.pending = otherResults x.pending k p ∧ y.pc = x.pc ∧ y.wait = .none ∧
      (∀ e ∈ p.vals, sget 0 y.v e.1 = e.2) ∧ (∀ g, g ∉ p.vals.map Prod.fst → sget 0 y.v g = sget 0 x.v g) ∧
      (∀ e ∈ p.svals, sget 0 y.s e.1 = e.2) ∧ (∀ g, g ∉ p.svals.map Prod.fst → sget 0 y.s g = sget 0 x.s g) ∧
      y.fpflags = x.fpflags ||| p.flags.setWidth 32 := by
  intro x
  obtain ⟨st, hf, o, hexec⟩ := resultCommit_eq (lanes := lanes) hp hst hcan hw hre
  refine ⟨_, hexec, rfl, ?_⟩
  rw [getTeam_setTeam, if_pos rfl, commitAt_eq_of_kind hk]
  exact ⟨rfl, rfl, rfl, fun e he => sget_foldl_sset_mem hvals he _, fun g hg => sget_foldl_sset_other hg _,
    fun e he => sget_foldl_sset_mem hsvals he _, fun g hg => sget_foldl_sset_other hg _, rfl⟩

/-- The lanes of an LDC that commit write their values (R370). -/
theorem commitAt_ldc_v {t : Team} {k : Nat} {p : Pending} {lanes : BitVec 32} {c : Nat} (hk : p.kind = .ldc c)
    (hmore : p.more = false) :
    (t.commitAt k p lanes).v = (p.vals.filter (valueIn lanes)).foldl (fun m e => sset 0 m e.1 e.2) t.v := by
  by_cases hlate : (p.vals.filter fun e => !valueIn lanes e) = []
  · have hall : p.vals.filter (valueIn lanes) = p.vals := by simpa using hlate
    rw [commitAt_ldc_last hk hmore hlate, hall]
  · rw [commitAt_ldc_some hk hlate]

/-- An LDC commits lane by lane; its last lanes add one arrival (R330, R370). -/
theorem resultCommit_ldc {s : State} {u k : Nat} {lanes : BitVec 32} {p : Pending} {c : Nat}
    (hp : (s.getTeam u).pending[k]? = some p) (hst : (s.getTeam u).state ≠ .halted)
    (hcan : (s.getTeam u).canCommit k p = true)
    (hw : (s.getTeam u).wait = .none ∨ (s.getTeam u).wait = .commit) (hre : (s.getTeam u).reenter = false)
    (hvals : (p.vals.map Prod.fst).Nodup) (hk : p.kind = .ldc c) (hmore : p.more = false) :
    let x := s.getTeam u
    ∃ t, exec (.resultCommit u k lanes) s = .next t ∧ t.mem = s.mem ∧ let y := t.getTeam u
      (∀ e ∈ p.vals, lanes.getLsbD (e.1 % 32) = true → sget 0 y.v e.1 = e.2) ∧
      (∀ g, (∀ e ∈ p.vals, e.1 = g → lanes.getLsbD (g % 32) = false) → sget 0 y.v g = sget 0 x.v g) ∧
      ((∀ e ∈ p.vals, lanes.getLsbD (e.1 % 32) = true) → y.aread c = x.aread c + 1 ∧
        y.pending = otherResults x.pending k p) ∧
      ((∃ e ∈ p.vals, lanes.getLsbD (e.1 % 32) = false) → y.a = x.a ∧ y.pending.length = x.pending.length) := by
  intro x
  obtain ⟨st, hf, o, hexec⟩ := resultCommit_eq (lanes := lanes) hp hst hcan hw hre
  refine ⟨_, hexec, rfl, ?_⟩
  rw [getTeam_setTeam, if_pos rfl]
  refine ⟨fun e he hl => ?_, fun g hg => ?_, fun hall => ?_, fun hsome => ?_⟩
  · dsimp only
    rw [commitAt_ldc_v hk hmore]
    exact sget_foldl_sset_mem (hvals.sublist (List.filter_sublist.map _)) (List.mem_filter.mpr ⟨he, hl⟩) _
  · dsimp only
    rw [commitAt_ldc_v hk hmore]
    refine sget_foldl_sset_other (fun hmem => ?_) _
    obtain ⟨e, he, rfl⟩ := List.mem_map.mp hmem
    obtain ⟨he, hin⟩ := List.mem_filter.mp he
    rw [valueIn, hg e he rfl] at hin
    cases hin
  · have hlate : (p.vals.filter fun e => !valueIn lanes e) = [] :=
      List.filter_eq_nil_iff.mpr fun e he => by simp [valueIn, hall e he]
    rw [commitAt_ldc_last hk hmore hlate]
    exact ⟨by rw [Team.aread, sget_sset, if_pos rfl], rfl⟩
  · obtain ⟨e, he, hl⟩ := hsome
    have hlate : (p.vals.filter fun e => !valueIn lanes e) ≠ [] :=
      List.ne_nil_of_mem (List.mem_filter.mpr ⟨he, by simp [valueIn, hl]⟩)
    rw [commitAt_ldc_some hk hlate]
    exact ⟨rfl, by rw [List.length_set, List.length_map]⟩

end Sys2Proof.Machine
end

section
/-! SUPPORT. The references that a team drops when it retires (R73, R250), and the pool it leaves (R140). -/

open Sys2Proof Sys2Proof.Machine Sys2Proof.Safety Sys2Proof.Statements
namespace Sys2Proof.Machine

/-! ### One reference -/

theorem nextGen_eq (g : Nat) : nextGen g = if g = 65535 then 1 else g + 1 := by
  simp [nextGen]

/-- The generations of n slots from k on, each taken on. -/
theorem sget_foldl_nextGen (m : Sparse Nat) (k n i : Nat) :
    sget 1 ((List.range n).foldl (fun g i => sset 1 g (k + i) (nextGen (sget 1 g (k + i)))) m) (k + i) =
      if i < n then nextGen (sget 1 m (k + i)) else sget 1 m (k + i) := by
  induction n with
  | zero => rfl
  | succ n ih =>
    rw [List.range_succ, List.foldl_append, List.foldl_cons, List.foldl_nil, sget_sset]
    by_cases hi : i = n
    · subst hi
      rw [if_pos rfl, if_pos (Nat.lt_succ_self i), ih, if_neg (Nat.lt_irrefl i)]
    · rw [if_neg (by omega), ih]
      exact if_congr (by omega) rfl rfl

theorem dropRef_unnamed {s : State} {h : DWord} (hn : h = 0 ∨ namedEnv s h = none) : dropRef s h = s := by
  unfold dropRef
  rcases hn with hn | hn
  · rw [if_pos (by simp [hn])]
  · rw [hn]
    exact ite_self _

theorem dropRef_named {s : State} {h : DWord} {e : Env} (h0 : h ≠ 0) (he : namedEnv s h = some e) :
    dropRef s h = if e.count ≤ 1 then freeEnv s (envKey (hCore h) (hSlot h)) e
      else setEnv s h { e with count := e.count - 1 } := by
  unfold dropRef
  rw [if_neg (by simpa using h0), he]

/-- Dropping a reference changes the environments alone. -/
theorem dropRef_rest (s : State) (h : DWord) :
    dropRef s h = { s with envs := (dropRef s h).envs, envGens := (dropRef s h).envGens } := by
  unfold dropRef
  repeat' split
  all_goals rfl

theorem foldl_dropRef_rest (l : List DWord) (s : State) :
    l.foldl dropRef s = { s with envs := (l.foldl dropRef s).envs, envGens := (l.foldl dropRef s).envGens } := by
  induction l generalizing s with
  | nil => rfl
  | cons h r ih => rw [List.foldl_cons, ih, dropRef_rest s h]

/-- The environments of a machine and the generations of their slots. -/
def envsOf (s : State) : Sparse Env × Sparse Nat := (s.envs, s.envGens)

theorem namedEnv_congr {s t : State} (h : envsOf s = envsOf t) (x : DWord) : namedEnv s x = namedEnv t x := by
  obtain ⟨he, hg⟩ := Prod.mk.inj h
  simp only [namedEnv, slotGen, he, hg]

theorem envsOf_dropRef_congr {s t : State} (h : envsOf s = envsOf t) (x : DWord) :
    envsOf (dropRef s x) = envsOf (dropRef t x) := by
  obtain ⟨he, hg⟩ := Prod.mk.inj h
  have hn := namedEnv_congr h x
  by_cases hx : x = 0 ∨ namedEnv s x = none
  · rw [dropRef_unnamed hx, dropRef_unnamed (by rwa [hn] at hx), h]
  · obtain ⟨h0, hsome⟩ := not_or.mp hx
    obtain ⟨e, hs⟩ := Option.ne_none_iff_exists'.mp hsome
    rw [dropRef_named h0 hs, dropRef_named h0 (hn ▸ hs)]
    split
    · simp only [envsOf, freeEnv, he, hg]
    · simp only [envsOf, setEnv, he, hg]

theorem envsOf_foldl_dropRef_congr {s t : State} (h : envsOf s = envsOf t) (l : List DWord) :
    envsOf (l.foldl dropRef s) = envsOf (l.foldl dropRef t) := by
  induction l generalizing s t with
  | nil => exact h
  | cons x r ih => exact ih (envsOf_dropRef_congr h x)

theorem namedEnv_eq_some {s : State} {h : DWord} {e : Env} :
    namedEnv s h = some e ↔ sfind s.envs (envKey (hCore h) (hSlot h)) = some e ∧
      e.state ≠ .free ∧ slotGen s (envKey (hCore h) (hSlot h)) = hGen h := by
  simp [namedEnv, Option.filter_eq_some_iff]

theorem oneReferenceLess_dropRef (s : State) (h : DWord) : OneReferenceLess s (dropRef s h) h := by
  refine ⟨fun hn => ?_, fun e h0 he => ?_⟩
  · rw [dropRef_unnamed hn]
    exact ⟨rfl, rfl⟩
  · obtain ⟨-, hlive, hgen⟩ := namedEnv_eq_some.mp he
    rw [dropRef_named h0 he]
    refine ⟨fun hc => ?_, fun hc => ?_⟩
    · rw [if_neg (by omega)]
      exact ⟨namedEnv_eq_some.mpr ⟨by rw [setEnv, sfind_sput, if_pos rfl], hlive, hgen⟩, rfl⟩
    · rw [if_pos hc]
      refine ⟨?_, fun i hi => ?_⟩
      · rw [namedEnv, freeEnv, sfind_sdel, if_pos rfl]
        rfl
      · show sget 1 (freeEnv s _ e).envGens _ = _
        rw [freeEnv, sget_foldl_nextGen, if_pos hi, nextGen_eq]
        rfl

theorem oneReferenceLess_congr {s s' t t' : State} {h : DWord} (hs : envsOf s = envsOf s') (ht : envsOf t = envsOf t')
    (hone : OneReferenceLess s' t' h) : OneReferenceLess s t h := by
  obtain ⟨hse, hsg⟩ := Prod.mk.inj hs
  obtain ⟨hte, htg⟩ := Prod.mk.inj ht
  unfold OneReferenceLess slotGen at *
  rwa [namedEnv_congr hs, namedEnv_congr ht, hse, hsg, hte, htg]

/-! ### The pool that nobody uses any more -/

theorem outside_dropLines (s : State) (core : Nat) (lines : List Nat) :
    outside (dropLines s core lines) = outside s := by
  refine foldl_same outside _ _ s fun s line _ => ?_
  rw [outside_dropBytes, outside_writeBack]

theorem outside_setPools (s : State) (ps : Sparse Pool) :
    outside { s with pools := ps } = { outside s with pools := ps } := rfl

/-- Nothing but pools changes outside the stores. -/
theorem outside_trimPool (s : State) (core ctx : Nat) :
    ∃ ps, outside (trimPool s core ctx) = { outside s with pools := ps } := by
  unfold trimPool
  dsimp only
  split
  · exact ⟨s.pools, rfl⟩
  · split
    · exact ⟨s.pools, rfl⟩
    · exact ⟨_, by rw [outside_setPools, outside_dropLines]⟩

theorem ctxs_trimPool (s : State) (core ctx : Nat) : (trimPool s core ctx).ctxs = s.ctxs := by
  obtain ⟨ps, h⟩ := outside_trimPool s core ctx
  have hc := congrArg State.ctxs h
  exact hc

theorem envsOf_trimPool (s : State) (core ctx : Nat) : envsOf (trimPool s core ctx) = envsOf s := by
  obtain ⟨ps, h⟩ := outside_trimPool s core ctx
  have hc := congrArg envsOf h
  exact hc

/-! ### No team comes with a write -/

theorem teams_memSetAll (s : State) (bs : List (Nat × Byte)) : (memSetAll s bs).teams = s.teams := by
  induction bs generalizing s with
  | nil => rfl
  | cons b r ih => exact ih _

theorem teams_markDirty (s : State) (pa : Nat) : (markDirty s pa).teams = s.teams := by
  unfold markDirty
  split <;> rfl

theorem teams_cleanBytes (s : State) (core : Nat) (bs : List (Nat × L1Byte)) :
    (cleanBytes s core bs).teams = s.teams := by
  induction bs generalizing s with
  | nil => rfl
  | cons b r ih => exact ih _

theorem teams_dropBytes (s : State) (core : Nat) (bs : List (Nat × L1Byte)) :
    (dropBytes s core bs).teams = s.teams := by
  induction bs generalizing s with
  | nil => rfl
  | cons b r ih => exact ih _

theorem noTeam_observe {s : State} {u : Nat} (h : sfind s.teams u = none) (c : Option Nat) (lines : List Nat) :
    sfind (observe s c lines).teams u = none := by
  have hmap : sfind (s.teams.map fun e => (e.1, reread s e.2 (e.2.concerned s c lines))) u = none := by
    rw [sfind_map fun t => reread s t (t.concerned s c lines), h]
    rfl
  unfold observe
  split
  · dsimp only
    split <;> exact hmap
  · dsimp only
    split <;> exact h

theorem noTeam_writeBack {s : State} {u : Nat} (h : sfind s.teams u = none) (core : Nat) (bs : List (Nat × L1Byte)) :
    sfind (writeBack s core bs).teams u = none := by
  unfold writeBack homeWrite
  refine noTeam_observe ?_ _ _
  rw [teams_memSetAll, foldl_same State.teams markDirty _ _ fun _ _ _ => teams_markDirty _ _,
    foldl_same State.teams touchLine _ _ fun _ _ _ => rfl, teams_cleanBytes]
  exact h

theorem noTeam_dropLines {s : State} {u : Nat} (h : sfind s.teams u = none) (core : Nat) (lines : List Nat) :
    sfind (dropLines s core lines).teams u = none := by
  refine foldl_keeps (fun s : State => sfind s.teams u = none) _ _ s h fun s line _ h => ?_
  rw [teams_dropBytes]
  exact noTeam_writeBack h _ _

theorem noTeam_trimPool {s : State} {u : Nat} (h : sfind s.teams u = none) (core ctx : Nat) :
    sfind (trimPool s core ctx).teams u = none := by
  unfold trimPool
  dsimp only
  split
  · exact h
  · split
    · exact h
    · exact noTeam_dropLines h _ _

end Sys2Proof.Machine
end

section
/-! SUPPORT. TEAM_RETIREMENT (R73, R250). -/

open Sys2Proof Sys2Proof.Machine Sys2Proof.Safety Sys2Proof.Statements
namespace Sys2Proof.Machine

/-- A team may retire: no lane, and nothing under way. -/
def State.MayRetire (s : State) (u : Nat) : Prop :=
  let x := s.getTeam u
  x.full = 0 ∧ x.state ≠ .retired ∧ x.state ≠ .halted ∧ x.busy s = false ∧ dirtyHeld s x.core = false ∧ x.entered = []

/-- The machine when the results of the team have committed and its k-registers have dropped their references. -/
def State.emptied (s : State) (u : Nat) : State :=
  ((s.getTeam u).k.map Prod.snd).foldl dropRef (s.modTeam u Team.commitAll)

/-- The machine when the team is gone. -/
def State.without (s : State) (u : Nat) : State := { s with teams := sdel s.teams u }

theorem teamRetirement_eq {s : State} {u : Nat} (h : s.MayRetire u) (hc : (s.getTeam u).cohort = none) :
    exec (.teamRetirement u) s =
      .next (trimPool ((closeOrigin (s.emptied u) u).without u) (s.getTeam u).core (s.getTeam u).ctx) := by
  obtain ⟨hfull, hret, hhalt, hbusy, hdirty, hent⟩ := h
  have hleave : leaveCohort s u = s := by
    unfold leaveCohort
    rw [hc]
  have hentry : (s.getTeam u).entryHeld s = false := by
    unfold Team.entryHeld
    rw [hent]
    rfl
  show execTeamRetirement u s = _
  unfold execTeamRetirement
  dsimp only
  rw [if_neg (by simp [hfull, hret, hhalt, hbusy, hdirty, hentry]), hleave, hent]
  rfl

theorem getTeam_emptied (s : State) (u : Nat) : (s.emptied u).getTeam u = (s.getTeam u).commitAll := by
  rw [State.emptied, foldl_dropRef_rest]
  show (s.setTeam u (s.getTeam u).commitAll).getTeam u = _
  rw [getTeam_setTeam, if_pos rfl]

theorem origin_emptied (s : State) (u : Nat) : ((s.emptied u).getTeam u).origin = (s.getTeam u).origin := by
  rw [getTeam_emptied]
  have h := congrArg Team.origin (commitWhere_apart (s.getTeam u) fun _ => true)
  exact h

theorem ctxs_emptied (s : State) (u : Nat) : (s.emptied u).ctxs = s.ctxs := by
  rw [State.emptied, foldl_dropRef_rest]
  rfl

theorem envsOf_emptied (s : State) (u : Nat) :
    envsOf (s.emptied u) = envsOf (((s.getTeam u).k.map Prod.snd).foldl dropRef s) :=
  envsOf_foldl_dropRef_congr (s := s.modTeam u Team.commitAll) (t := s) rfl _

theorem closeOrigin_launch {s : State} {u ctx q seq : Nat} (h : (s.getTeam u).origin = .launch ctx q seq) :
    closeOrigin s u = setCtx s ctx { getCtx s ctx with
      runs := (getCtx s ctx).runs.map fun r => if r.q == q && r.seq == seq then { r with retired := r.retired + 1 } else r } := by
  unfold closeOrigin
  rw [h]

theorem closeOrigin_entry {s : State} {u : Nat} {h : DWord} (ho : (s.getTeam u).origin = .entry h) :
    closeOrigin s u = dropRef s h := by
  unfold closeOrigin
  rw [ho]

/-- A team that retires drops the references that it owns, and no other. -/
theorem envsOf_closeOrigin_emptied {s : State} {u : Nat} (h : ∀ ctx tcb, (s.getTeam u).origin ≠ .task ctx tcb) :
    envsOf (closeOrigin (s.emptied u) u) = envsOf ((ownReferences (s.getTeam u)).foldl dropRef s) := by
  have ho := origin_emptied s u
  unfold ownReferences
  rw [List.foldl_append]
  cases hx : (s.getTeam u).origin with
  | launch ctx q seq =>
    rw [closeOrigin_launch (ho.trans hx)]
    exact envsOf_emptied s u
  | task ctx tcb => exact absurd hx (h ctx tcb)
  | entry e =>
    rw [closeOrigin_entry (ho.trans hx)]
    exact envsOf_dropRef_congr (envsOf_emptied s u) e

/-- The launch counts the team as retired. -/
theorem mem_runs_closeOrigin {s : State} {u ctx q seq : Nat} {r : LaunchRun} (ho : (s.getTeam u).origin = .launch ctx q seq)
    (hr : r ∈ (getCtx s ctx).runs) (hq : r.q = q) (hs : r.seq = seq) :
    { r with retired := r.retired + 1 } ∈ (getCtx (closeOrigin (s.emptied u) u) ctx).runs := by
  have hctx : getCtx (s.emptied u) ctx = getCtx s ctx := by rw [getCtx, getCtx, ctxs_emptied]
  rw [closeOrigin_launch ((origin_emptied s u).trans ho), getCtx, setCtx, sfind_sput, if_pos rfl, Option.getD_some, hctx]
  exact List.mem_map.mpr ⟨r, hr, by simp [hq, hs]⟩

/-- A team without lanes, out of its cohort and with nothing under way retires (R73). -/
theorem retires {s : State} {u : Nat} (h : s.MayRetire u) (hc : (s.getTeam u).cohort = none) :
    ∃ t, exec (.teamRetirement u) s = .next t ∧ sfind t.teams u = none ∧
      t.ctxs = (closeOrigin (s.emptied u) u).ctxs ∧
      ((∀ ctx tcb, (s.getTeam u).origin ≠ .task ctx tcb) →
        envsOf t = envsOf ((ownReferences (s.getTeam u)).foldl dropRef s)) := by
  refine ⟨_, teamRetirement_eq h hc, noTeam_trimPool ?_ _ _, ctxs_trimPool _ _ _, fun ho => ?_⟩
  · rw [State.without, sfind_sdel, if_pos rfl]
  · rw [envsOf_trimPool]
    exact envsOf_closeOrigin_emptied ho

end Sys2Proof.Machine
end

section
/-! PROOF. Teams fetch headers, drain, commit results and retire (O54). -/

open Sys2Proof Sys2Proof.Machine Sys2Proof.Safety Sys2Proof.Statements
namespace Sys2Proof.Machine

/-! ### Headers -/

/-- An aligned header that is not valid takes the illegal-instruction trap (R41, R44). -/
theorem clauseHeader_bad {s s1 : State} {w : Word} (hres : s.tm.resume = none)
    (hrace : s.tm.racePending = false ∨ s.tm.inHandler = true) (hpc : s.tm.pc.toNat % 4 = 0)
    (hfetch : fetchAll s s.tm s.tm.pc 1 = (.ok [w], s1)) (hbad : ¬GoodHeader w) (hc : CanTrap s1) :
    ∃ t, exec .clauseHeader s = .next t ∧ Trapped s1 t 0x01 0 w s1.tm.pc := by
  refine ⟨badHeader [w] (s1.setTm s1.tm.fetchedWords), ?_, badHeader_trapped [w] hc⟩
  rw [clauseHeader_header hres hrace hpc, withFetch_ok _ hfetch, List.headD_cons,
    if_neg fun h => hbad ((headerOk_iff w).mp h)]

/-- A valid header is entered with its word fetched. -/
theorem clauseHeader_good {s s1 : State} {w : Word} (hres : s.tm.resume = none)
    (hrace : s.tm.racePending = false ∨ s.tm.inHandler = true) (hpc : s.tm.pc.toNat % 4 = 0)
    (hfetch : fetchAll s s.tm s.tm.pc 1 = (.ok [w], s1)) (hgood : GoodHeader w) :
    exec .clauseHeader s = .next (enterHeader w (s1.setTm s1.tm.fetchedWords)) := by
  rw [clauseHeader_header hres hrace hpc, withFetch_ok _ hfetch, List.headD_cons, if_pos ((headerOk_iff w).mpr hgood)]

/-- A return into a clause resumes its words without a header (R67). -/
theorem clauseHeader_resumes {s s1 : State} {n cls : Nat} {ws : List Word} (hres : s.tm.resume = some (n, cls))
    (hpc : s.tm.pc.toNat % 4 = 0) (hfetch : fetchAll s s.tm s.tm.pc n = (.ok ws, s1)) (hws : ws ≠ [])
    (hact : s1.tm.active ≠ 0)
    (hok : cls = 0 ∨ cls = 2 → ∀ x ∈ ws, decodeTraps cls { (fetched s1).tm with resume := none } x = false) :
    ∃ t, exec .clauseHeader s = .next t ∧ AtClause t s1.tm.pc cls ws ∧ t.tm.resume = none ∧ t.tm.s = s1.tm.s ∧
      t.mem = s1.mem := by
  have hact' : s1.tm.fetchedWords.active ≠ 0 := hact
  have hok' : cls = 0 ∨ cls = 2 → ∀ x ∈ ws, decodeTraps cls s1.tm.fetchedWords x = false := by
    intro hc x hx
    rw [← hok hc x hx, fetched_eq, tm_setTm]
    exact decodeTraps_congr rfl rfl rfl rfl rfl x
  obtain ⟨hs, -, hnone⟩ := startClause_rest (base := s1.tm.pc) hws hact' hok'
  refine ⟨s1.setTm (s1.tm.fetchedWords.startClause s1.tm.pc cls ws), ?_, atClause_setTm hws hact' hok', ?_, ?_, rfl⟩
  · rw [clauseHeader_resume hres hpc, withFetch_ok _ hfetch, State.modTm, tm_setTm, setTm_setTm]
    rfl
  · rw [tm_setTm]
    exact hnone
  · rw [tm_setTm]
    exact hs

/-- A race exception that is pending takes its trap at a header (R156). -/
theorem clauseHeader_takesRace {s : State} (hres : s.tm.resume = none) (hrace : s.tm.racePending = true)
    (hc : CanTrap s) :
    ∃ t, exec .clauseHeader s = .next t ∧ Trapped s t 0x09 0 0 s.tm.pc ∧ t.tm.racePending = false := by
  have hx := trapAlike_raceTaken s.tm
  obtain ⟨htrap, hkeep⟩ := takeTrap_spec (canTrap_setTm hx hc) (code := 0x09) (q := 0) (by decide) (by decide) 0 s.tm.pc
  refine ⟨_, clauseHeader_race hres hrace hc.1 hc.2.1, trapped_of_setTm hx htrap, ?_⟩
  rw [hkeep, tm_setTm]

/-- Settles O54, branch by branch: a header's fetch differs from the statement's only in what the team knows of failed
pages, a commit is a fold of writes, and a retirement drops the references that the team owns. -/
theorem teamStepsFetchDrainCommitAndRetire : Obligations.TeamStepsFetchDrainCommitAndRetire := by
  unfold Obligations.TeamStepsFetchDrainCommitAndRetire
  refine ⟨?header, ?resume, ?race, ?misaligned, ?drain, ?commit, ?retirement⟩
  case header =>
    intro s w s1 hres hrace hpc hfetch
    refine ⟨clauseHeader_bad hres hrace hpc hfetch, ?_⟩
    intro s2 ws s3 hgood hs2 hmore hidle hfetch2 cls hact hok
    obtain ⟨t, ht, hclause⟩ := enterHeader_starts hgood hs2 hmore hidle hfetch2 hact hok
    exact ⟨t, by rw [clauseHeader_good hres hrace hpc hfetch hgood, ht], hclause⟩
  case resume =>
    intro s n cls ws s1 hres hpc hfetch hws hact hok
    exact clauseHeader_resumes hres hpc hfetch hws hact hok
  case race =>
    intro s hres hrace hc
    exact clauseHeader_takesRace hres hrace hc
  case misaligned =>
    intro s ws s1 _ hrace hpc hfetch hc
    exact ⟨_, by rw [clauseHeader_misaligned hrace hpc, withFetch_ok _ hfetch], badHeader_trapped ws hc⟩
  case drain =>
    intro s u a b c d x hw hdone hst hre
    obtain ⟨hready, hnone, hpc⟩ := wake_stalled hst hre
    refine ⟨_, drainEnd_wakes hw hdone, ?_⟩
    rw [State.modTeam, getTeam_setTeam, if_pos rfl]
    exact ⟨hready, hnone, hpc, rfl⟩
  case commit =>
    intro s u k lanes p x hp hst hspan hb hover hvals hsvals hw hre
    have hcan : x.canCommit k p = true := canCommit_iff.mpr ⟨hspan, hb, hover⟩
    exact ⟨resultCommit_whole hp hst hcan hw hre hvals hsvals,
      fun c hk hm _ => resultCommit_ldc hp hst hcan hw hre hvals hk hm⟩
  case retirement =>
    intro s u x hfull hret hhalt hbusy hdirty hent hcoh
    obtain ⟨t, ht, hgone, hctxs, henvs⟩ := retires (s := s) (u := u) ⟨hfull, hret, hhalt, hbusy, hdirty, hent⟩ hcoh
    refine ⟨t, ht, hgone, ?_, ?_, ?_, fun ho => Prod.mk.inj (henvs ho)⟩
    · intro ctx q seq r ho hr hq hs
      rw [getCtx, hctxs]
      exact mem_runs_closeOrigin ho hr hq hs
    · intro h ho hne hk
      have hown : ownReferences x = [h] := by
        unfold ownReferences
        rw [hk]
        cases hx : x.origin with
        | launch ctx q seq => rfl
        | task ctx tcb => rfl
        | entry e => exact absurd hx (hne e)
      have ht := henvs ho
      rw [hown] at ht
      exact oneReferenceLess_congr rfl ht (oneReferenceLess_dropRef s h)
    · intro h hk ho
      have hown : ownReferences x = [h] := by
        unfold ownReferences
        rw [hk, ho]
        rfl
      have ht := henvs fun ctx tcb hx => by rw [ho] at hx; cases hx
      rw [hown] at ht
      exact oneReferenceLess_congr rfl ht (oneReferenceLess_dropRef s h)

end Sys2Proof.Machine
end

section
/-! PROOF. A team that is HALTED at its EXIT (O12). -/

open Sys2Proof Sys2Proof.Machine Sys2Proof.Safety Sys2Proof.Statements
namespace Sys2Proof.Machine

/-- A machine whose current team has one lane, which is active, and is HALTED. -/
def haltedAtExit : State :=
  { State.reset with teams := [(0, { Team.blank with state := .halted, full := 1, active := 1 })] }

theorem issues_exit_haltedAtExit : Issues .exit haltedAtExit := by
  unfold Issues Due
  decide +kernel

/-- EXIT leaves a HALTED team HALTED: only what it will be at its resumption changes (Table 4-6). -/
theorem exec_exit_haltedAtExit : ∃ t, exec .exit haltedAtExit = .next t ∧ t.tm.full = 0 ∧ t.tm.state = .halted :=
  ⟨_, rfl, by decide +kernel⟩

/-- Refutes O12: the last clause asks that a team without lanes be STALLED and does not ask that it was READY. A HALTED team
keeps its halt, and its wait stands behind it (Table 4-6). -/
theorem not_maskWordsSelectLanes : ¬ Obligations.MaskWordsSelectLanes := by
  unfold Obligations.MaskWordsSelectLanes
  rintro ⟨-, -, -, -, hexit⟩
  obtain ⟨t, ht, -, -, -, -, hempty⟩ := hexit haltedAtExit issues_exit_haltedAtExit rfl
  obtain ⟨-, -, hstalled, -⟩ := hempty (by decide +kernel)
  obtain ⟨t', ht', -, hhalted⟩ := exec_exit_haltedAtExit
  obtain rfl : t' = t := Host.Outcome.next.inj (ht'.symm.trans ht)
  rw [hhalted] at hstalled
  cases hstalled

end Sys2Proof.Machine
end

section
/-! PROOF. A capture by reference in a team table that is not in key order (O42). -/

open Sys2Proof Sys2Proof.Machine Sys2Proof.Safety Sys2Proof.Statements
namespace Sys2Proof.Machine

/-- A closure that captures v0 of the team with tag 0 by reference. -/
def refEnv : Env := ⟨.live, 1, 0x1000, 0, 1, true, 1, 0, 0, [0, 0]⟩

/-- Teams 1 and 0, in this order, both with tag 0 on core 0; team 0, which holds a handle of `refEnv`, issues. Its v0 is 1
in lane 0, that of team 1 is 0. -/
def outOfOrder : State :=
  { State.reset with
    envs := [(0, refEnv)]
    teams := [(1, { Team.blank with uid := 1, state := .ready, lanes := 1, nreg := 6 }),
      (0, { Team.blank with
        state := .ready, lanes := 1, nreg := 6, full := 1, active := 1, k := [(0, mkHandle 1 0 0 0)], v := [(0, 1)] })] }

theorem issues_apply_outOfOrder : Issues (.apply 0) outOfOrder := by
  unfold Issues Due
  decide +kernel

theorem applicable_outOfOrder : Applicable outOfOrder (outOfOrder.tm.kread 0) refEnv := by
  unfold Applicable FrameFits CanPush
  refine ⟨by rfl, by decide +kernel, by decide +kernel, by decide +kernel, fun _ => by rfl⟩

/-- The statement's table names team 1 by the tag; counting the issue puts an entry of team 0 in front of it. -/
theorem captured_outOfOrder : captured outOfOrder outOfOrder.tm refEnv 0 0 = 0 := by
  decide +kernel

theorem lane_of_exec_apply_outOfOrder {t : State} (ht : exec (.apply 0) outOfOrder = .next t) :
    t.tm.lane 0 0 = 1 := by
  have hexec : exec (.apply 0) outOfOrder = execApply 0 outOfOrder := rfl
  rw [hexec, execApply, issue_eq _ _ _ issues_apply_outOfOrder, Host.Outcome.next.injEq] at ht
  rw [← ht]
  decide +kernel

/-- Refutes O42: the statement reads captures by reference in the table as it was, and does not ask that its keys rise. In a
table out of order the entry that counts the issue comes first, and the tag names another team. -/
theorem not_applyWordsEnterTheClosure : ¬ Obligations.ApplyWordsEnterTheClosure := by
  unfold Obligations.ApplyWordsEnterTheClosure
  rintro ⟨happly, -⟩
  obtain ⟨t, ht, ⟨-, -, -, -, -, -, hlanes⟩, -⟩ :=
    happly outOfOrder 0 refEnv issues_apply_outOfOrder rfl applicable_outOfOrder
  have hlane : t.tm.lane 0 0 = captured outOfOrder outOfOrder.tm refEnv 0 0 :=
    hlanes 0 0 (by decide) (by decide +kernel) (by decide)
  rw [lane_of_exec_apply_outOfOrder ht, captured_outOfOrder] at hlane
  exact absurd hlane (by decide)

end Sys2Proof.Machine
end

section
/-! SUPPORT. Where the end of a word takes the team (R42, R44), and what it keeps of it. -/

open Sys2Proof Sys2Proof.Machine Sys2Proof.Safety Sys2Proof.Statements
namespace Sys2Proof.Machine

/-! ### The next address -/

/-- Where the team goes after the current word of its clause (R42, R44). -/
def Clause.nextPc (c : Clause) : DWord :=
  if c.idx + 1 < c.limit then c.base + BitVec.ofNat 64 (4 * (c.idx + 1))
  else if (c.cls == 0 || c.cls == 2) && c.passes.length > 1 then c.base + BitVec.ofNat 64 (4 * 0)
  else if c.idx < c.limit && c.limit < c.words.length then c.base + BitVec.ofNat 64 (4 * c.limit)
  else c.base + BitVec.ofNat 64 (4 * c.words.length)

/-- Where the team goes after its current word. -/
def Team.nextPc (t : Team) : DWord := (t.clause.map Clause.nextPc).getD (t.pc + 4)

theorem finish_pc (t : Team) : t.finish.pc = t.nextPc := by
  show t.countSpan.advance.pc = _
  unfold Team.advance Team.nextPc
  cases hc : t.clause with
  | none =>
    have h : t.countSpan.clause = none := hc
    simp only [h]
    rfl
  | some c =>
    have h : t.countSpan.clause = some c := hc
    simp only [h, Option.map_some, Option.getD_some, Clause.nextPc, Team.passMajor, Team.cls4]
    repeat' split
    all_goals rfl

@[simp] theorem snap_pc (t : Team) : t.snap.pc = t.pc := by
  simp only [Team.snap]
  repeat' split
  all_goals rfl

theorem snap_nextPc (t : Team) : t.snap.nextPc = t.nextPc := by
  rw [Team.nextPc, Team.nextPc, snap_pc]
  unfold Team.snap
  split
  · next c hc =>
    split
    · rw [hc]
      rfl
    · rfl
  · rfl

theorem issuedTm_nextPc (s : State) : (issuedTm s).nextPc = s.tm.nextPc := snap_nextPc _

@[simp] theorem snap_pending (t : Team) : t.snap.pending = t.pending := by
  simp only [Team.snap]
  repeat' split
  all_goals rfl

/-! ### What stays -/

/-- The issue of a word keeps what is neither a register nor the team's place. -/
theorem issuedTm_keeps {γ : Type} (g : Team → γ) (s : State) (hg : ∀ t : Team, g t = g (Team.rest t)) :
    g (issuedTm s) = g s.tm := by
  rw [hg (issuedTm s), issuedTm_rest, ← hg s.tm]

/-- So does the end of a word. -/
theorem finish_keeps {γ : Type} (g : Team → γ) (t : Team) (hg : ∀ t : Team, g t = g (Team.rest t)) :
    g t.finish = g t := by
  rw [hg t.finish, finish_rest, ← hg t]

/-- A wait changes only how the team waits. -/
theorem sleep_cases (t : Team) (st : TState) (w : Wait) :
    ∃ st' h, t.sleep st w = { t with wait := w, state := st', haltedFrom := h } := by
  unfold Team.sleep
  dsimp only
  split
  · split
    · exact ⟨_, _, rfl⟩
    · exact ⟨_, _, rfl⟩
  · exact ⟨_, _, rfl⟩
  · exact ⟨_, _, rfl⟩

theorem sleep_state {t : Team} {st : TState} {w : Wait} (hh : t.state ≠ .halted) (hs : t.state ≠ .swapped) :
    (t.sleep st w).state = st := by
  unfold Team.sleep
  dsimp only
  split
  · next h => exact absurd h hh
  · next h => exact absurd h hs
  · rfl

theorem sleep_wait (t : Team) (st : TState) (w : Wait) : (t.sleep st w).wait = w := by
  obtain ⟨st', h, e⟩ := sleep_cases t st w
  rw [e]

theorem sleep_keeps {γ : Type} (g : Team → γ) (t : Team) (st : TState) (w : Wait)
    (hg : ∀ (t : Team) w st h, g { t with wait := w, state := st, haltedFrom := h } = g t) :
    g (t.sleep st w) = g t := by
  obtain ⟨st', h, e⟩ := sleep_cases t st w
  rw [e, hg]

theorem wake_keeps {γ : Type} (g : Team → γ) (t : Team)
    (hg : ∀ (t : Team) w st h, g { t with wait := w, state := st, haltedFrom := h } = g t) :
    g t.wake = g t := by
  obtain ⟨w, st, h, e⟩ := wake_cases t
  rw [e, hg]

theorem wake_wait_eq (t : Team) : t.wake.wait = if t.reenter then .benter else .none := by
  unfold Team.wake
  dsimp only
  repeat' split
  all_goals rfl

theorem wake_nextPc (t : Team) : t.wake.nextPc = t.nextPc := wake_keeps Team.nextPc t fun _ _ _ _ => rfl

end Sys2Proof.Machine
end

section
/-! SUPPORT. Releases and acquires (R136, R137): the bytes that reach their home slices, and what they leave of the
teams. -/

open Sys2Proof Sys2Proof.Machine Sys2Proof.Safety Sys2Proof.Statements
namespace Sys2Proof.Machine

/-! ### Teams -/

/-- The team without what a WAITV's re-read changes (R171). -/
def Team.blind (t : Team) : Team := { t with v := [], waitv := none }

theorem rereadLane_blind (s : State) (lines : List Nat) (t : Team) (e : Nat × Nat) :
    (rereadLane s lines t e).blind = t.blind := by
  unfold rereadLane
  dsimp only
  repeat' split
  all_goals rfl

theorem reread_blind (s : State) (t : Team) (lines : List Nat) : (reread s t lines).blind = t.blind := by
  rw [reread_eq]
  split
  · rfl
  · exact foldl_same Team.blind _ _ t fun _ _ _ => rereadLane_blind ..

/-- The teams of a state, apart from what a WAITV's re-read changes. -/
theorem getTeam_observe_blind (s : State) (c : Option Nat) (lines : List Nat) (u : Nat) :
    ((observe s c lines).getTeam u).blind = (s.getTeam u).blind := by
  have hchan : (observe s c lines).getTeam u = (observeTeams s c lines).getTeam u := by
    rw [observe_eq]
    unfold observeChannels
    split <;> rfl
  rw [hchan]
  unfold observeTeams
  split
  · show (((sfind (s.teams.map fun e => (e.1, reread s e.2 (e.2.concerned s c lines))) u).getD .blank : Team)).blind = _
    rw [sfind_map fun t => reread s t (t.concerned s c lines), State.getTeam]
    cases sfind s.teams u with
    | none => rfl
    | some t => exact reread_blind ..
  · rfl

theorem teams_marked (s : State) (bs : List (Nat × Byte)) : (marked s bs).teams = s.teams := by
  rw [marked, foldl_same State.teams markDirty _ _ fun _ _ _ => teams_markDirty ..,
    foldl_same State.teams touchLine _ _ fun _ _ _ => rfl]

theorem getTeam_congr {s t : State} (h : t.teams = s.teams) (u : Nat) : t.getTeam u = s.getTeam u := by
  rw [State.getTeam, State.getTeam, h]

theorem getTeam_homeWrite_blind (s : State) (bs : List (Nat × Byte)) (u : Nat) :
    ((homeWrite s bs).getTeam u).blind = (s.getTeam u).blind := by
  rw [homeWrite_eq, getTeam_observe_blind, getTeam_congr ((teams_memSetAll _ _).trans (teams_marked s bs))]

theorem getTeam_l1Release_blind (s : State) (core u : Nat) :
    ((l1Release s core).getTeam u).blind = (s.getTeam u).blind := by
  rw [l1Release, collectBytes, getTeam_congr (teams_dropBytes ..), writeBack, getTeam_homeWrite_blind,
    getTeam_congr (teams_cleanBytes ..)]

theorem teams_l1Acquire (s : State) (core : Nat) : (l1Acquire s core).teams = s.teams := teams_dropBytes ..

/-! ### Bytes -/

theorem nodup_keys_of_rising {β : Type} {m : Sparse β} (h : rising m = true) : (m.map Prod.fst).Nodup := by
  induction m with
  | nil => exact List.nodup_nil
  | cons e r ih =>
    simp only [rising, above, Bool.and_eq_true, List.all_eq_true, decide_eq_true_eq] at h
    rw [List.map_cons, List.nodup_cons]
    refine ⟨fun hmem => ?_, ih h.2⟩
    obtain ⟨x, hx, he⟩ := List.mem_map.mp hmem
    exact absurd (h.1 x hx) (by omega)

/-- In a canonical table, the bytes of a core's first-level cache have distinct addresses. -/
theorem nodup_l1Bytes {s : State} (h : canon none s.l1 = true) (core : Nat) :
    ((l1Bytes s core).map Prod.fst).Nodup := by
  have hkeys := nodup_keys_of_rising (Bool.and_eq_true_iff.mp h).1
  rw [l1Bytes]
  refine List.Nodup.sublist (List.filter_sublist.map _) ?_
  generalize s.l1 = l at hkeys
  induction l with
  | nil => exact List.nodup_nil
  | cons e r ih =>
    rw [List.map_cons, List.nodup_cons] at hkeys
    rw [List.filterMap_cons]
    split
    · exact ih hkeys.2
    · next b hb =>
      rw [List.map_cons, List.nodup_cons]
      refine ⟨fun hmem => hkeys.1 ?_, ih hkeys.2⟩
      obtain ⟨x, hx, hxb⟩ := List.mem_map.mp hmem
      obtain ⟨y, hy, hyx⟩ := List.mem_filterMap.mp hx
      have hkey : ∀ (z : Nat × Option L1Byte) (q : Nat × L1Byte),
          (if z.1 / 2 ^ 46 == core then z.2.map fun b => (z.1 % 2 ^ 46, b) else none) = some q →
          z.1 = core * 2 ^ 46 + q.1 := by
        intro z q hq
        split at hq
        · next hcore =>
          obtain ⟨b, -, rfl⟩ := Option.map_eq_some_iff.mp hq
          have hdiv := Nat.div_add_mod z.1 (2 ^ 46)
          rw [beq_iff_eq.mp hcore, Nat.mul_comm] at hdiv
          exact hdiv.symm
        · cases hq
      rw [hkey e b hb, ← hxb, ← hkey y x hyx]
      exact List.mem_map_of_mem hy

theorem mem_dirtyLines {bs : List (Nat × L1Byte)} {e : Nat × L1Byte} (he : e ∈ bs) (hd : e.2.dirty = true) :
    e ∈ dirtyLines bs := by
  refine List.mem_filter.mpr ⟨he, ?_⟩
  rw [List.contains_iff_mem, mem_distinct]
  exact List.mem_map_of_mem (f := fun e : Nat × L1Byte => e.1 / 64) (List.mem_filter.mpr ⟨he, hd⟩)

/-- A release takes every byte that the core has written to its home slice (R136). -/
theorem memGet_l1Release {s : State} {core : Nat} (h : canon none s.l1 = true) {e : Nat × L1Byte}
    (he : e ∈ l1Bytes s core) (hd : e.2.dirty = true) : memGet (l1Release s core) e.1 = e.2.val := by
  rw [l1Release, collectBytes, memGet_dropBytes]
  exact memGet_writeBack_mem _ _ _ e ((nodup_l1Bytes h core).sublist (List.filter_sublist.map _)) (mem_dirtyLines he hd) hd

/-! ### After an acquire -/

theorem sublist_sdel {β : Type} (m : Sparse β) (k : Nat) : (sdel m k).Sublist m := by
  induction m with
  | nil => exact List.Sublist.refl _
  | cons e r ih =>
    unfold sdel
    split
    · exact ih.cons _
    · exact ih.cons_cons _

theorem ne_of_mem_sdel {β : Type} {m : Sparse β} {k : Nat} {e : Nat × β} (he : e ∈ sdel m k) : e.1 ≠ k := by
  induction m with
  | nil => cases he
  | cons a r ih =>
    unfold sdel at he
    split at he
    · exact ih he
    · next hk =>
      rcases List.mem_cons.mp he with rfl | he
      · exact fun h => hk h.symm
      · exact ih he

/-- What stays in the first-level caches after some bytes of one are dropped. -/
theorem mem_l1_dropBytes {s : State} {core : Nat} {bs : List (Nat × L1Byte)} {e : Nat × Option L1Byte}
    (he : e ∈ (dropBytes s core bs).l1) : e ∈ s.l1 ∧ ∀ b ∈ bs, e.1 ≠ l1Key core b.1 := by
  induction bs generalizing s with
  | nil => exact ⟨he, by simp⟩
  | cons b r ih =>
    obtain ⟨hmem, hne⟩ := ih he
    have hmem' : e ∈ sdel s.l1 (l1Key core b.1) := by
      simpa [l1Set, sset] using hmem
    refine ⟨(sublist_sdel _ _).subset hmem', fun x hx => ?_⟩
    rcases List.mem_cons.mp hx with rfl | hx
    · exact ne_of_mem_sdel hmem'
    · exact hne x hx

theorem mem_l1Bytes {s : State} {core : Nat} {e : Nat × L1Byte} :
    e ∈ l1Bytes s core ↔
      (∃ x ∈ s.l1, x.1 / 2 ^ 46 = core ∧ x.2 = some e.2 ∧ x.1 % 2 ^ 46 = e.1) ∧ inBundle s core (lineOf e.1) = false := by
  rw [l1Bytes, List.mem_filter, List.mem_filterMap, Bool.not_eq_true']
  refine and_congr_left fun _ => exists_congr fun x => and_congr_right fun _ => ?_
  by_cases hc : x.1 / 2 ^ 46 = core
  · simp only [hc, beq_self_eq_true, if_true, Option.map_eq_some_iff, Prod.ext_iff, true_and]
    constructor
    · rintro ⟨b, hb, h1, rfl⟩
      exact ⟨hb, h1⟩
    · rintro ⟨hb, h1⟩
      exact ⟨_, hb, h1, rfl⟩
  · simp only [beq_eq_false_iff_ne.mpr hc, hc, Bool.false_eq_true, if_false, reduceCtorEq, false_and]

theorem pools_dropBytes (s : State) (core : Nat) (bs : List (Nat × L1Byte)) :
    (dropBytes s core bs).pools = s.pools := by
  have h := congrArg State.pools (outside_dropBytes s core bs)
  exact h

/-- After an acquire every byte of the core's first-level cache is dirty (R137). -/
theorem dirty_of_mem_l1Acquire {s : State} {core : Nat} {e : Nat × L1Byte} (he : e ∈ l1Bytes (l1Acquire s core) core) :
    e.2.dirty = true := by
  obtain ⟨⟨x, hx, hcore, hval, haddr⟩, hbundle⟩ := mem_l1Bytes.mp he
  obtain ⟨hmem, hne⟩ := mem_l1_dropBytes hx
  by_contra hd
  have hb : inBundle s core (lineOf e.1) = false := by
    rw [← hbundle]
    unfold inBundle bundlesOf l1Acquire
    rw [pools_dropBytes]
  refine hne e (List.mem_filter.mpr ⟨mem_l1Bytes.mpr ⟨⟨x, hmem, hcore, hval, haddr⟩, hb⟩, by simpa using hd⟩) ?_
  rw [l1Key, ← hcore, ← haddr, Nat.mul_comm]
  exact (Nat.div_add_mod x.1 (2 ^ 46)).symm

end Sys2Proof.Machine
end

section
/-! SUPPORT. Arrivals at barriers, and the phases that they complete (R74 to R76, R126). -/

open Sys2Proof Sys2Proof.Machine Sys2Proof.Safety Sys2Proof.Statements
namespace Sys2Proof.Machine

/-! ### Cohorts -/

@[simp] theorem getCohort_setCohort (s : State) (ck k : Nat) (c : Cohort) :
    getCohort (setCohort s ck c) k = if k = ck then some c else getCohort s k := sfind_sput ..

theorem getCohort_congr {s t : State} (h : t.cohorts = s.cohorts) (ck : Nat) : getCohort t ck = getCohort s ck := by
  rw [getCohort, getCohort, h]

@[simp] theorem bar_setBar (c : Cohort) (b k : Nat) (x : Barrier) :
    (c.setBar b x).bar k = if k = b then x else c.bar k := by
  simp only [Cohort.bar, Cohort.setBar, sfind_sput]
  split <;> rfl

/-- The open phase of a barrier with one more arrival (R75, R295). -/
def arrivedAt (c : Cohort) (b id : Nat) : Barrier :=
  { c.bar b with
    arrived := (c.bar b).arrived ++ [id], tornNext := (c.bar b).tornNext || c.tornPending.contains id }

theorem bar_countArrival (c : Cohort) (b id k : Nat) :
    (countArrival c b id).bar k = if k = b then arrivedAt c b id else c.bar k := bar_setBar c b k _

/-! ### Teams that wait for a phase -/

/-- The team waits for a phase of barrier b that ph completes. -/
def Team.passesBar (b : Nat) (ph : BitVec 16) (t : Team) : Bool :=
  match t.wait with
  | .barWait k => k == b && reached ph (sget 0 t.arr b)
  | _ => false

/-- The team when phase ph of barrier b is open: a wait for an earlier one has ended (R75). -/
def Team.served (b : Nat) (ph : BitVec 16) (t : Team) : Team := if t.passesBar b ph then t.wake.finish else t

theorem passesBar_of_wait {t : Team} (h : t.wait = .none ∨ t.wait = .benter) (b : Nat) (ph : BitVec 16) :
    t.passesBar b ph = false := by
  unfold Team.passesBar
  rcases h with h | h <;> rw [h]

theorem passesBar_barWait {t : Team} {b : Nat} {ph : BitVec 16} (hw : t.wait = .barWait b) :
    t.passesBar b ph = reached ph (sget 0 t.arr b) := by
  unfold Team.passesBar
  rw [hw]
  dsimp only
  rw [beq_self_eq_true, Bool.true_and]

theorem finish_wait (t : Team) : t.finish.wait = t.wait := finish_keeps Team.wait t fun _ => rfl

theorem wake_finish_wait (t : Team) : t.wake.finish.wait = .none ∨ t.wake.finish.wait = .benter := by
  rw [finish_wait, wake_wait_eq]
  split
  · exact .inr rfl
  · exact .inl rfl

theorem served_served (b : Nat) (ph : BitVec 16) (t : Team) : (t.served b ph).served b ph = t.served b ph := by
  have h : (t.served b ph).passesBar b ph = false := by
    unfold Team.served
    split
    · exact passesBar_of_wait (wake_finish_wait t) b ph
    · next h => simpa using h
  rw [Team.served, h]
  rfl

theorem not_barArrive_served {t : Team} {b : Nat} (h : ∀ w, t.wait ≠ .barArrive b w) (ph : BitVec 16) (w : Bool) :
    (t.served b ph).wait ≠ .barArrive b w := by
  unfold Team.served
  split
  · rcases wake_finish_wait t with hw | hw <;> rw [hw] <;> exact Wait.noConfusion
  · exact h w

/-- A team that is not to arrive, when a phase has opened. -/
theorem serveTeam_waiting {s : State} {ck b u : Nat} {c : Cohort} (hc : getCohort s ck = some c)
    (hw : ∀ w, (s.getTeam u).wait ≠ .barArrive b w) :
    serveTeam ck b s u = if (s.getTeam u).passesBar b (c.bar b).ph
      then (acquireCore s u).modTeam u fun t => t.wake.finish else s := by
  unfold serveTeam Team.passesBar
  rw [hc]
  dsimp only
  cases hwait : (s.getTeam u).wait
  case barArrive k w =>
    have hk : (k == b) = false := by
      rw [beq_eq_false_iff_ne]
      rintro rfl
      exact hw w hwait
    simp [hk]
  all_goals rfl

theorem getTeam_acquireCore (s : State) (u w : Nat) : (acquireCore s u).getTeam w = s.getTeam w :=
  getTeam_congr (teams_l1Acquire ..) w

/-- The machine without what changes when a phase opens that nobody waits to arrive in: teams, first-level caches and
streams. -/
def State.offPhase (s : State) : State := { s with teams := [], l1 := [], engines := [] }

theorem offPhase_dropBytes (s : State) (core : Nat) (bs : List (Nat × L1Byte)) :
    (dropBytes s core bs).offPhase = s.offPhase := by
  induction bs generalizing s with
  | nil => rfl
  | cons b r ih => exact ih (l1Set s core b.1 none)

theorem offPhase_acquire_modTeam (s : State) (u : Nat) (f : Team → Team) :
    ((acquireCore s u).modTeam u f).offPhase = s.offPhase :=
  offPhase_dropBytes s (s.getTeam u).core _

theorem cohorts_of_offPhase {s t : State} (h : t.offPhase = s.offPhase) : t.cohorts = s.cohorts := by
  have hc := congrArg State.cohorts h
  exact hc

theorem mem_of_offPhase {s t : State} (h : t.offPhase = s.offPhase) : t.mem = s.mem := by
  have hm := congrArg State.mem h
  exact hm

theorem engines_l1Acquire (s : State) (core : Nat) : (l1Acquire s core).engines = s.engines := by
  have h := congrArg State.engines (outside_l1Acquire s core)
  exact h

/-- The members of a cohort, none of which is to arrive, when a phase has opened: those that wait for an earlier one go
on, and nothing else changes but first-level caches. -/
theorem foldl_serveTeam {ck b : Nat} {c : Cohort} (us : List Nat) {s : State} (hc : getCohort s ck = some c)
    (hw : ∀ u ∈ us, ∀ w, (s.getTeam u).wait ≠ .barArrive b w) :
    (us.foldl (serveTeam ck b) s).offPhase = s.offPhase ∧ (us.foldl (serveTeam ck b) s).engines = s.engines ∧
      ∀ u, (us.foldl (serveTeam ck b) s).getTeam u =
        if u ∈ us then (s.getTeam u).served b (c.bar b).ph else s.getTeam u := by
  induction us generalizing s with
  | nil => exact ⟨rfl, rfl, fun u => by rw [if_neg (List.not_mem_nil)]; rfl⟩
  | cons v r ih =>
    obtain ⟨hoff, heng, hget⟩ : (serveTeam ck b s v).offPhase = s.offPhase ∧
        (serveTeam ck b s v).engines = s.engines ∧ ∀ u, (serveTeam ck b s v).getTeam u =
          if u = v then (s.getTeam v).served b (c.bar b).ph else s.getTeam u := by
      rw [serveTeam_waiting hc (hw v List.mem_cons_self), Team.served]
      split
      · refine ⟨offPhase_acquire_modTeam .., engines_l1Acquire .., fun u => ?_⟩
        rw [State.modTeam, getTeam_setTeam, getTeam_acquireCore, getTeam_acquireCore]
      · refine ⟨rfl, rfl, fun u => ?_⟩
        split
        · next h => rw [h]
        · rfl
    have hwait : ∀ u ∈ r, ∀ w, ((serveTeam ck b s v).getTeam u).wait ≠ .barArrive b w := by
      intro u hu w
      rw [hget]
      split
      · exact not_barArrive_served (hw v List.mem_cons_self) _ w
      · exact hw u (List.mem_cons_of_mem _ hu) w
    obtain ⟨hoff', heng', hget'⟩ := ih ((getCohort_congr (cohorts_of_offPhase hoff) ck).trans hc) hwait
    refine ⟨hoff'.trans hoff, heng'.trans heng, fun u => ?_⟩
    rw [List.foldl_cons, hget', hget]
    by_cases huv : u = v
    · subst huv
      rw [if_pos rfl, served_served, if_pos List.mem_cons_self]
      exact ite_self _
    · rw [if_neg huv]
      exact if_congr (by rw [List.mem_cons, or_iff_right huv]) rfl rfl

/-! ### Streams -/

/-- No stream of the cohort waits to arrive at barrier b. -/
def NoStreamArrives (s : State) (ck b : Nat) : Prop := ∀ e ∈ streamsOf s ck, ∀ w, e.2.wait ≠ .barArrive b w

theorem streamsOf_congr {s t : State} (h : t.engines = s.engines) (ck : Nat) : streamsOf t ck = streamsOf s ck := by
  rw [streamsOf, streamsOf, h]

theorem mem_streamsOf {s : State} {ck : Nat} {e : Nat × Stream} :
    e ∈ streamsOf s ck ↔ ∃ g ∈ s.engines, g.1 = e.1 ∧ e.2 ∈ g.2.streams ∧ e.2.cohort = ck ∧ e.2.failed = false := by
  simp only [streamsOf, List.mem_flatMap, List.mem_map, List.mem_filter, Bool.and_eq_true, beq_iff_eq,
    Bool.not_eq_true']
  constructor
  · rintro ⟨g, hg, x, hx, rfl⟩
    exact ⟨g, hg, rfl, hx⟩
  · rintro ⟨g, hg, h1, hx⟩
    exact ⟨g, hg, e.2, hx, by rw [h1]⟩

theorem mem_of_mem_sput {β : Type} {m : Sparse β} {k : Nat} {v : β} {e : Nat × β} (he : e ∈ sput m k v) :
    e = (k, v) ∨ e ∈ m := by
  induction m with
  | nil => exact .inl (List.mem_singleton.mp he)
  | cons a r ih =>
    unfold sput at he
    split at he
    · exact List.mem_cons.mp he
    · split at he
      · exact (List.mem_cons.mp he).imp_right (List.mem_cons_of_mem _)
      · rcases List.mem_cons.mp he with rfl | he
        · exact .inr List.mem_cons_self
        · exact (ih he).imp_right (List.mem_cons_of_mem _)

theorem passed_cohort (x : Stream) : x.passed.cohort = x.cohort := by
  unfold Stream.passed
  split <;> rfl

theorem passed_wait (x : Stream) : x.passed.wait = .none ∨ x.passed.wait = .fault := by
  unfold Stream.passed
  split
  · exact .inl rfl
  · exact .inr rfl

theorem NoStreamArrives.passed {s : State} {ck b : Nat} (h : NoStreamArrives s ck b) (core : Nat) :
    NoStreamArrives (modStream s core ck Stream.passed) ck b := by
  intro e he w
  obtain ⟨g, hg, hcore, hx, hck, hf⟩ := mem_streamsOf.mp he
  rcases mem_of_mem_sput hg with rfl | hg
  · obtain ⟨y, -, hy⟩ := List.mem_map.mp hx
    have hpassed : e.2 = y.passed := by
      rw [← hy]
      refine if_pos ?_
      rw [beq_iff_eq, ← hck, ← hy]
      split
      · exact (passed_cohort y).symm
      · rfl
    rw [hpassed]
    rcases passed_wait y with h | h <;> rw [h] <;> exact Wait.noConfusion
  · exact h e (mem_streamsOf.mpr ⟨g, hg, hcore, hx, hck, hf⟩) w

/-- A stream that is not to arrive, when a phase has opened. -/
theorem serveStream_waiting {s : State} {ck b : Nat} (h : NoStreamArrives s ck b) (core : Nat) :
    serveStream ck b s core = s ∨ serveStream ck b s core = modStream s core ck Stream.passed := by
  unfold serveStream
  split
  · next c i x _ hx =>
    have hwait := h _ (List.mem_of_find?_eq_some hx)
    dsimp only
    split
    · next k w hw =>
      have hk : (k == b) = false := by
        rw [beq_eq_false_iff_ne]
        rintro rfl
        exact hwait w hw
      exact .inl (by simp [hk])
    · split
      · exact .inr rfl
      · exact .inl rfl
    · exact .inl rfl
  · exact .inl rfl

/-- The streams of a cohort, none of which is to arrive, when a phase has opened. -/
theorem foldl_serveStream {ck b : Nat} (cores : List Nat) {s : State} (h : NoStreamArrives s ck b) :
    (cores.foldl (serveStream ck b) s).offPhase = s.offPhase ∧ (cores.foldl (serveStream ck b) s).teams = s.teams := by
  obtain ⟨hoff, hteams, -⟩ := foldl_keeps
    (fun t : State => t.offPhase = s.offPhase ∧ t.teams = s.teams ∧ NoStreamArrives t ck b) (serveStream ck b) cores s
    ⟨rfl, rfl, h⟩ fun t core _ ⟨hoff, hteams, ht⟩ => by
      rcases serveStream_waiting ht core with e | e <;> rw [e]
      · exact ⟨hoff, hteams, ht⟩
      · exact ⟨hoff, hteams, ht.passed core⟩
  exact ⟨hoff, hteams⟩

/-! ### Phases -/

/-- The phase of a barrier that opens when everyone has arrived (R75). -/
def nextPhase (s : State) (ck b : Nat) (c : Cohort) : Barrier :=
  ⟨(c.bar b).ph + 1, expectedNow s c ck b, [], (c.bar b).tornNext, (c.bar b).errNext, false, false⟩

theorem settleBarrier_open {s : State} {ck b : Nat} {c : Cohort} (hc : getCohort s ck = some c)
    (hopen : (c.bar b).done = false) (n : Nat) : settleBarrier ck b n s = s := by
  cases n with
  | zero => rfl
  | succ n => simp [settleBarrier, hc, hopen]

theorem nextPhase_open (s : State) (ck b : Nat) {c : Cohort} (hm : c.members ≠ []) : (nextPhase s ck b c).done = false := by
  obtain ⟨m, hmem⟩ := List.exists_mem_of_ne_nil _ hm
  refine List.all_eq_false.mpr ⟨m.2, List.mem_append_left _ (List.mem_map_of_mem hmem), ?_⟩
  exact Bool.false_ne_true

/-- The machine with the next phase of barrier b open. -/
def openPhase (s : State) (ck b : Nat) (c : Cohort) : State := setCohort s ck (c.setBar b (nextPhase s ck b c))

/-- The machine when everyone who waits at barrier b has been served. -/
def serveAll (ck b : Nat) (c : Cohort) (s : State) : State :=
  let p := (c.members.map Prod.snd).foldl (serveTeam ck b) s
  ((streamsOf p ck).map Prod.fst).foldl (serveStream ck b) p

theorem settleBarrier_done {s : State} {ck b : Nat} {c : Cohort} (hc : getCohort s ck = some c)
    (hdone : (c.bar b).done = true) (hm : c.members ≠ []) (n : Nat) :
    settleBarrier ck b (n + 1) s = settleBarrier ck b n (serveAll ck b c (openPhase s ck b c)) := by
  have hempty : c.members.isEmpty = false := by simpa using hm
  conv_lhs => unfold settleBarrier
  rw [hc]
  dsimp only
  rw [if_neg (by simp [hdone, hempty])]
  rfl

/-- Nobody waits to arrive: those that wait for an earlier phase go on, and nothing else changes but first-level caches and
streams. -/
theorem serveAll_waiting {s : State} {ck b : Nat} {c c' : Cohort} (hc : getCohort s ck = some c')
    (hteams : ∀ m ∈ c.members, ∀ w, (s.getTeam m.2).wait ≠ .barArrive b w) (hstreams : NoStreamArrives s ck b) :
    (serveAll ck b c s).offPhase = s.offPhase ∧ ∀ u, (serveAll ck b c s).getTeam u =
      if u ∈ c.members.map Prod.snd then (s.getTeam u).served b (c'.bar b).ph else s.getTeam u := by
  obtain ⟨hoff, heng, hget⟩ := foldl_serveTeam (c.members.map Prod.snd) hc fun u hu => by
    obtain ⟨m, hm, rfl⟩ := List.mem_map.mp hu
    exact hteams m hm
  have hstr : NoStreamArrives ((c.members.map Prod.snd).foldl (serveTeam ck b) s) ck b := fun e he =>
    hstreams e (streamsOf_congr heng ck ▸ he)
  obtain ⟨hoff', hteams'⟩ := foldl_serveStream _ hstr
  exact ⟨hoff'.trans hoff, fun u => (getTeam_congr hteams' u).trans (hget u)⟩

/-- Everyone has arrived, and nobody waits to arrive in the next phase: that opens, and those who wait for it go on (R75). -/
theorem settleBarrier_completes {s : State} {ck b : Nat} {c : Cohort} (hc : getCohort s ck = some c)
    (hdone : (c.bar b).done = true) (hm : c.members ≠ [])
    (hteams : ∀ m ∈ c.members, ∀ w, (s.getTeam m.2).wait ≠ .barArrive b w) (hstreams : NoStreamArrives s ck b) (n : Nat) :
    (settleBarrier ck b (n + 1) s).offPhase = (openPhase s ck b c).offPhase ∧
      ∀ u, (settleBarrier ck b (n + 1) s).getTeam u =
        if u ∈ c.members.map Prod.snd then (s.getTeam u).served b ((c.bar b).ph + 1) else s.getTeam u := by
  have hco : getCohort (openPhase s ck b c) ck = some (c.setBar b (nextPhase s ck b c)) := by
    rw [openPhase, getCohort_setCohort, if_pos rfl]
  have hbar : (c.setBar b (nextPhase s ck b c)).bar b = nextPhase s ck b c := by rw [bar_setBar, if_pos rfl]
  obtain ⟨hoff, hget⟩ := serveAll_waiting (c := c) hco hteams hstreams
  rw [settleBarrier_done hc hdone hm, settleBarrier_open ((getCohort_congr (cohorts_of_offPhase hoff) ck).trans hco)
    (by rw [hbar]; exact nextPhase_open s ck b hm)]
  rw [hbar] at hget
  exact ⟨hoff, hget⟩

/-! ### Arrivals -/

/-- A team that arrives at barrier b in phase ph: it goes on, or waits for the phase (R335). -/
def Team.arriveAt (b : Nat) (ph : BitVec 16) (now : DWord) (thenWait : Bool) (t : Team) : Team :=
  let t := { t with arr := sset 0 t.arr b (ph + 1) }
  if thenWait then { t.sleep .parked (.barWait b) with parkedSince := now } else t.wake.finish

theorem cohorts_releaseCore (s : State) (u : Nat) : (releaseCore s u).cohorts = s.cohorts := by
  have h := congrArg State.cohorts (outside_l1Release s (s.getTeam u).core)
  exact h

theorem engines_releaseCore (s : State) (u : Nat) : (releaseCore s u).engines = s.engines := by
  have h := congrArg State.engines (outside_l1Release s (s.getTeam u).core)
  exact h

theorem clock_releaseCore (s : State) (u : Nat) : (releaseCore s u).clock = s.clock := by
  have h := congrArg State.clock (outside_l1Release s (s.getTeam u).core)
  exact h

theorem cur_releaseCore (s : State) (u : Nat) : (releaseCore s u).cur = s.cur := by
  have h := congrArg State.cur (outside_l1Release s (s.getTeam u).core)
  exact h

theorem getTeam_releaseCore_blind (s : State) (u w : Nat) : ((releaseCore s u).getTeam w).blind = (s.getTeam w).blind :=
  getTeam_l1Release_blind ..

/-- The machine when team u has arrived at barrier b of a cohort c. -/
def arrival (s : State) (ck b u : Nat) (c : Cohort) (thenWait : Bool) : State :=
  (setCohort (releaseCore s u) ck (countArrival c b u)).modTeam u (Team.arriveAt b (c.bar b).ph s.clock thenWait)

theorem modTeam_modTeam (s : State) (u : Nat) (f g : Team → Team) :
    (s.modTeam u f).modTeam u g = s.modTeam u fun t => g (f t) := by
  simp [State.modTeam, State.setTeam, State.getTeam, sfind_sput]

/-- A team that waits to arrive does so when nothing stands in the way (R75, R76). -/
theorem serveTeam_arrives {s : State} {ck b u : Nat} {c : Cohort} {thenWait : Bool} (hc : getCohort s ck = some c)
    (hwait : (s.getTeam u).wait = .barArrive b thenWait) (harr : sget 0 (s.getTeam u).arr b = (c.bar b).ph)
    (hrel : canRelease s u .home true = true) : serveTeam ck b s u = arrival s ck b u c thenWait := by
  have hc' : getCohort (releaseCore s u) ck = some c := (getCohort_congr (cohorts_releaseCore s u) ck).trans hc
  have hclock : (teamArrives s u ck b).clock = s.clock := by
    unfold teamArrives
    dsimp only
    rw [hc']
    exact clock_releaseCore s u
  have harrives : teamArrives s u ck b = (setCohort (releaseCore s u) ck (countArrival c b u)).modTeam u
      fun t => { t with arr := sset 0 t.arr b ((c.bar b).ph + 1) } := by
    unfold teamArrives
    dsimp only
    rw [hc']
  unfold serveTeam
  rw [hc]
  dsimp only
  rw [hwait]
  dsimp only
  rw [beq_self_eq_true, Bool.true_and, hrel, Bool.and_true, if_pos (beq_iff_eq.mpr harr), hclock, harrives]
  cases thenWait
  · rw [if_neg Bool.false_ne_true]
    exact modTeam_modTeam ..
  · rw [if_pos rfl]
    exact modTeam_modTeam ..

end Sys2Proof.Machine
end

section
/-! SUPPORT. The arrival of the current team at a barrier: the phase goes on, or the next one opens (R75, R335). -/

open Sys2Proof Sys2Proof.Machine Sys2Proof.Safety Sys2Proof.Statements
namespace Sys2Proof.Machine

/-! ### A barrier word that issues -/

theorem barWord_eq {i : Instr} {s : State} (f : State → State) (h : Issues i s) {ck : Nat} (hck : s.tm.cohort = some ck) :
    barWord i s f = .next (retryArrival (f (issued s)) s.cur) := by
  have hcoh : (issuedTm s).cohort = some ck := (issuedTm_keeps Team.cohort s fun _ => rfl).trans hck
  rw [barWord, issue_eq i s _ h, if_neg (by simp [hcoh]), issued_cur]

theorem trapAlike_snap (t : Team) : TrapAlike t.snap t := by
  have h : ∀ {γ : Type} (g : Team → γ), (∀ t : Team, g t = g (Team.rest t)) → g t.snap = g t := by
    intro γ g hg
    rw [hg t.snap, snap_rest, ← hg t]
  exact ⟨h _ fun _ => rfl, snap_pending t, h _ fun _ => rfl, h _ fun _ => rfl, h _ fun _ => rfl, h _ fun _ => rfl,
    h _ fun _ => rfl, h _ fun _ => rfl, h _ fun _ => rfl, h _ fun _ => rfl, h _ fun _ => rfl, h _ fun _ => rfl⟩

/-- A word that has issued takes its trap at its own address. -/
theorem trapWord_issued_trapped {s : State} {code : Nat} (i : Instr) (hc : CanTrap s) (hcode : code < 256) (h6 : code ≠ 6) :
    Trapped s (trapWord (issued s) code i) code 0 i.word s.tm.pc := by
  have hx := trapAlike_snap s.noteIssue.tm
  have hpc : (issued s).tm.pc = s.tm.pc := by
    rw [issued_tm, issuedTm, snap_pc]
  rw [trapWord, trapHi_eq h6, hpc]
  exact trapped_of_noteIssue (trapped_of_setTm hx
    (takeTrap_trapped (canTrap_setTm hx (canTrap_noteIssue hc)) hcode (by decide) _ _))

/-- A team in no cohort takes the illegal-instruction trap (R335). -/
theorem barWord_trapped {i : Instr} {s : State} (f : State → State) (h : Issues i s) (hno : s.tm.cohort = none)
    (hc : CanTrap s) : ∃ t, barWord i s f = .next t ∧ Trapped s t 1 0 i.word s.tm.pc := by
  have hcoh : (issuedTm s).cohort = none := (issuedTm_keeps Team.cohort s fun _ => rfl).trans hno
  refine ⟨trapWord (issued s) 1 i, ?_, trapWord_issued_trapped i hc (by decide) (by decide)⟩
  rw [barWord, issue_eq i s _ h, if_pos (by simp [hcoh])]

/-! ### The team that arrives -/

/-- The issue of a word changes teams and the count of issued words alone. -/
theorem issued_eq (s : State) : ∃ m n, issued s = { s with teams := m, issueCount := n } := ⟨_, _, rfl⟩

theorem modTm_eq_teams (s : State) (f : Team → Team) : ∃ m, s.modTm f = { s with teams := m } := ⟨_, rfl⟩

/-- What is no team is as it was when the current team of the issued state has changed. -/
theorem issued_modTm_keeps {γ : Type} (g : State → γ) (s : State) (f : Team → Team)
    (hg : ∀ (s : State) m n, g { s with teams := m, issueCount := n } = g s) : g ((issued s).modTm f) = g s := by
  obtain ⟨m, n, hi⟩ := issued_eq s
  obtain ⟨m', hm⟩ := modTm_eq_teams (issued s) f
  rw [hm, hi]
  exact hg s m' n

theorem getTeam_issued (s : State) (u : Nat) : (issued s).getTeam u = if u = s.cur then issuedTm s else s.getTeam u := by
  by_cases hu : u = s.cur
  · rw [if_pos hu, hu]
    exact issued_tm s
  · rw [if_neg hu]
    simp [issued, State.noteIssue, State.modTm, State.setTm, State.setTeam, State.getTeam, sfind_sput, hu]

/-- The team that has issued a barrier word and waits to arrive. -/
def atArrival (s : State) (b : Nat) (thenWait : Bool) : State := (issued s).stall (.barArrive b thenWait)

/-- The team that waits to arrive. -/
def arriving (s : State) (b : Nat) (thenWait : Bool) : Team := (issuedTm s).sleep .stalled (.barArrive b thenWait)

theorem getTeam_atArrival (s : State) (b u : Nat) (w : Bool) :
    (atArrival s b w).getTeam u = if u = s.cur then arriving s b w else s.getTeam u := by
  have hcur : (issued s).cur = s.cur := rfl
  show ((issued s).setTeam (issued s).cur _).getTeam u = _
  rw [getTeam_setTeam, hcur, getTeam_issued]
  split
  · show (issued s).tm.sleep _ _ = _
    rw [issued_tm]
    rfl
  · rfl

/-- What is no team is as it was. -/
theorem atArrival_keeps {γ : Type} (g : State → γ) (s : State) (b : Nat) (w : Bool)
    (hg : ∀ (s : State) m n, g { s with teams := m, issueCount := n } = g s) : g (atArrival s b w) = g s :=
  issued_modTm_keeps g s (fun t => t.sleep .stalled (.barArrive b w)) hg

theorem getCohort_atArrival (s : State) (b ck : Nat) (w : Bool) : getCohort (atArrival s b w) ck = getCohort s ck :=
  getCohort_congr (atArrival_keeps State.cohorts s b w fun _ _ _ => rfl) ck

theorem arriving_keeps {γ : Type} (g : Team → γ) (s : State) (b : Nat) (w : Bool)
    (hg : ∀ t : Team, g t = g (Team.rest t))
    (hw : ∀ (t : Team) w st h, g { t with wait := w, state := st, haltedFrom := h } = g t) :
    g (arriving s b w) = g s.tm := by
  rw [arriving, sleep_keeps g _ _ _ hw, issuedTm_keeps g s hg]

theorem unread_arriving (s : State) (b : Nat) (w : Bool) : (arriving s b w).unread = s.tm.unread := by
  have h : (arriving s b w).pending = s.tm.pending := by
    rw [arriving, sleep_keeps Team.pending _ _ _ fun _ _ _ _ => rfl, issuedTm, snap_pending]
  rw [Team.unread, h, Team.unread]

theorem core_arriving (s : State) (b : Nat) (w : Bool) : (arriving s b w).core = s.tm.core :=
  arriving_keeps Team.core s b w (fun _ => rfl) fun _ _ _ _ => rfl

theorem l1Bytes_congr {s t : State} (hl : t.l1 = s.l1) (hp : t.pools = s.pools) (core : Nat) :
    l1Bytes t core = l1Bytes s core := by
  unfold l1Bytes inBundle bundlesOf
  rw [hl, hp]

theorem dirtyHeld_congr {s t : State} (hl : t.l1 = s.l1) (hp : t.pools = s.pools) (hr : t.rowQueue = s.rowQueue)
    (core : Nat) : dirtyHeld t core = dirtyHeld s core := by
  unfold dirtyHeld heldLine
  rw [l1Bytes_congr hl hp, hr]

theorem canRelease_atArrival {s : State} (b : Nat) (w : Bool) (h : canRelease s s.cur .home true = true) :
    canRelease (atArrival s b w) s.cur .home true = true := by
  unfold canRelease mirrorsDone at h ⊢
  rw [getTeam_atArrival, if_pos rfl, core_arriving, unread_arriving, atArrival_keeps State.mirrors s b w fun _ _ _ => rfl,
    dirtyHeld_congr (atArrival_keeps State.l1 s b w fun _ _ _ => rfl)
      (atArrival_keeps State.pools s b w fun _ _ _ => rfl) (atArrival_keeps State.rowQueue s b w fun _ _ _ => rfl)]
  exact h

/-- A team that stands where the current team of s does, with its word not complete. -/
structure StandsAt (s : State) (x : Team) : Prop where
  nextPc : x.nextPc = s.tm.nextPc
  pc : x.pc = s.tm.pc
  scalars : x.s = s.tm.s
  reenter : x.reenter = s.tm.reenter
  arr : x.arr = s.tm.arr
  state : s.tm.state = .ready → x.state = .stalled

theorem standsAt_arriving (s : State) (b : Nat) (w : Bool) : StandsAt s (arriving s b w) where
  nextPc := by rw [arriving, sleep_keeps Team.nextPc _ _ _ fun _ _ _ _ => rfl, issuedTm_nextPc]
  pc := by rw [arriving, sleep_keeps Team.pc _ _ _ fun _ _ _ _ => rfl, issuedTm, snap_pc]
  scalars := by rw [arriving, sleep_keeps Team.s _ _ _ fun _ _ _ _ => rfl, issuedTm_s]
  reenter := arriving_keeps Team.reenter s b w (fun _ => rfl) fun _ _ _ _ => rfl
  arr := arriving_keeps Team.arr s b w (fun _ => rfl) fun _ _ _ _ => rfl
  state h := by
    have hst : (issuedTm s).state = .ready := (issuedTm_keeps Team.state s fun _ => rfl).trans h
    exact sleep_state (by rw [hst]; decide) (by rw [hst]; decide)

theorem eq_of_blind {γ : Type} (g : Team → γ) {x y : Team} (h : x.blind = y.blind) (hg : ∀ t : Team, g t = g t.blind) :
    g x = g y := by
  rw [hg x, h, ← hg y]

theorem StandsAt.of_blind {s : State} {x y : Team} (hy : StandsAt s y) (h : x.blind = y.blind) : StandsAt s x where
  nextPc := (eq_of_blind Team.nextPc h fun _ => rfl).trans hy.nextPc
  pc := (eq_of_blind Team.pc h fun _ => rfl).trans hy.pc
  scalars := (eq_of_blind Team.s h fun _ => rfl).trans hy.scalars
  reenter := (eq_of_blind Team.reenter h fun _ => rfl).trans hy.reenter
  arr := (eq_of_blind Team.arr h fun _ => rfl).trans hy.arr
  state hr := (eq_of_blind Team.state h fun _ => rfl).trans (hy.state hr)

/-! ### The machine when the team has arrived -/

theorem getCohort_arrival (s : State) (ck b u : Nat) (c : Cohort) (w : Bool) :
    getCohort (arrival s ck b u c w) ck = some (countArrival c b u) :=
  (getCohort_setCohort (releaseCore s u) ck ck (countArrival c b u)).trans (if_pos rfl)

theorem engines_arrival (s : State) (ck b u : Nat) (c : Cohort) (w : Bool) :
    (arrival s ck b u c w).engines = s.engines := engines_releaseCore s u

theorem cur_arrival (s : State) (ck b u : Nat) (c : Cohort) (w : Bool) : (arrival s ck b u c w).cur = s.cur :=
  cur_releaseCore s u

theorem getTeam_arrival (s : State) (ck b u v : Nat) (c : Cohort) (w : Bool) :
    (arrival s ck b u c w).getTeam v = if v = u then
      ((releaseCore s u).getTeam u).arriveAt b (c.bar b).ph s.clock w else (releaseCore s u).getTeam v :=
  getTeam_setTeam ..

theorem mem_arrival (s : State) (ck b u : Nat) (c : Cohort) (w : Bool) :
    (arrival s ck b u c w).mem = (l1Release s (s.getTeam u).core).mem := rfl

theorem arriveAt_arr (t : Team) (b : Nat) (ph : BitVec 16) (now : DWord) (w : Bool) :
    sget 0 (t.arriveAt b ph now w).arr b = ph + 1 := by
  have h : (t.arriveAt b ph now w).arr = sset 0 t.arr b (ph + 1) := by
    unfold Team.arriveAt
    cases w
    · show (Team.finish (Team.wake _)).arr = _
      rw [finish_keeps Team.arr _ fun _ => rfl, wake_keeps Team.arr _ fun _ _ _ _ => rfl]
    · show (Team.sleep _ _ _).arr = _
      rw [sleep_keeps Team.arr _ _ _ fun _ _ _ _ => rfl]
  rw [h, sget_sset, if_pos rfl]

theorem arriveAt_s (t : Team) (b : Nat) (ph : BitVec 16) (now : DWord) (w : Bool) : (t.arriveAt b ph now w).s = t.s := by
  unfold Team.arriveAt
  cases w
  · show (Team.finish (Team.wake _)).s = _
    rw [finish_s, wake_keeps Team.s _ fun _ _ _ _ => rfl]
  · show (Team.sleep _ _ _).s = _
    rw [sleep_keeps Team.s _ _ _ fun _ _ _ _ => rfl]

/-- BARA: the arrival completes the word. -/
theorem arriveAt_goes (t : Team) (b : Nat) (ph : BitVec 16) (now : DWord) :
    (t.arriveAt b ph now false).pc = t.nextPc ∧
      ((t.arriveAt b ph now false).wait = .none ∨ (t.arriveAt b ph now false).wait = .benter) :=
  ⟨(finish_pc _).trans (wake_nextPc _), wake_finish_wait _⟩

/-- BARV: after the arrival the team waits at its word. -/
theorem arriveAt_waits (t : Team) (b : Nat) (ph : BitVec 16) (now : DWord) :
    (t.arriveAt b ph now true).wait = .barWait b ∧ (t.arriveAt b ph now true).pc = t.pc ∧
      (t.arriveAt b ph now true).nextPc = t.nextPc ∧ (t.arriveAt b ph now true).reenter = t.reenter ∧
      (t.state = .stalled → (t.arriveAt b ph now true).state = .parked) := by
  refine ⟨sleep_wait .., sleep_keeps Team.pc _ _ _ fun _ _ _ _ => rfl, sleep_keeps Team.nextPc _ _ _ fun _ _ _ _ => rfl,
    sleep_keeps Team.reenter _ _ _ fun _ _ _ _ => rfl, fun h => sleep_state ?_ ?_⟩
  · show t.state ≠ .halted
    rw [h]
    decide
  · show t.state ≠ .swapped
    rw [h]
    decide

theorem not_barArrive_arriveAt (t : Team) (b : Nat) (ph : BitVec 16) (now : DWord) (w w' : Bool) :
    (t.arriveAt b ph now w).wait ≠ .barArrive b w' := by
  cases w
  · rcases (arriveAt_goes t b ph now).2 with h | h <;> rw [h] <;> exact Wait.noConfusion
  · rw [(arriveAt_waits t b ph now).1]
    exact Wait.noConfusion

/-- The machine when the current team, which has issued a barrier word, has arrived. -/
def arrived (s : State) (ck b : Nat) (c : Cohort) (w : Bool) : State := arrival (atArrival s b w) ck b s.cur c w

theorem cur_arrived (s : State) (ck b : Nat) (c : Cohort) (w : Bool) : (arrived s ck b c w).cur = s.cur :=
  (cur_arrival ..).trans (atArrival_keeps State.cur s b w fun _ _ _ => rfl)

theorem engines_arrived (s : State) (ck b : Nat) (c : Cohort) (w : Bool) : (arrived s ck b c w).engines = s.engines :=
  (engines_arrival ..).trans (atArrival_keeps State.engines s b w fun _ _ _ => rfl)

/-- The word of a team with nothing in its way arrives (R335). -/
theorem retryArrival_atArrival {s : State} {ck b : Nat} {c : Cohort} (w : Bool) (hm : MayArrive s ck c)
    (harr : sget 0 s.tm.arr b = (c.bar b).ph) :
    retryArrival (atArrival s b w) s.cur = settleBarrier ck b barFuel (arrived s ck b c w) := by
  obtain ⟨hck, hc, -, hrel⟩ := hm
  have hget : (atArrival s b w).getTeam s.cur = arriving s b w := by rw [getTeam_atArrival, if_pos rfl]
  have hwait : ((atArrival s b w).getTeam s.cur).wait = .barArrive b w := by
    rw [hget]
    exact sleep_wait ..
  have hcoh : ((atArrival s b w).getTeam s.cur).cohort = some ck := by
    rw [hget, arriving_keeps Team.cohort s b w (fun _ => rfl) fun _ _ _ _ => rfl, hck]
  have harr' : sget 0 ((atArrival s b w).getTeam s.cur).arr b = (c.bar b).ph := by
    rw [hget, (standsAt_arriving s b w).arr, harr]
  unfold retryArrival
  dsimp only
  rw [hwait, hcoh]
  dsimp only
  have hc' := (getCohort_atArrival s b ck w).trans hc
  rw [serveTeam_arrives hc' hwait harr' (canRelease_atArrival b w hrel), arrived]

theorem exists_tm_arrived (s : State) (ck b : Nat) (c : Cohort) (w : Bool) :
    ∃ x, StandsAt s x ∧ (arrived s ck b c w).getTeam s.cur = x.arriveAt b (c.bar b).ph s.clock w := by
  refine ⟨(releaseCore (atArrival s b w) s.cur).getTeam s.cur, (standsAt_arriving s b w).of_blind ?_, ?_⟩
  · rw [getTeam_releaseCore_blind, getTeam_atArrival, if_pos rfl]
  · rw [arrived, getTeam_arrival, if_pos rfl, atArrival_keeps State.clock s b w fun _ _ _ => rfl]

/-- The other teams are as they were, but for a WAITV's re-reads. -/
theorem getTeam_arrived_blind {s : State} {u : Nat} (hu : u ≠ s.cur) (ck b : Nat) (c : Cohort) (w : Bool) :
    ((arrived s ck b c w).getTeam u).blind = (s.getTeam u).blind := by
  rw [arrived, getTeam_arrival, if_neg hu, getTeam_releaseCore_blind, getTeam_atArrival, if_neg hu]

theorem released_arrived (s : State) (ck b : Nat) (c : Cohort) (w : Bool) : Released s (arrived s ck b c w) := by
  intro hcanon e he hd
  have hcore : ((atArrival s b w).getTeam s.cur).core = s.tm.core := by
    rw [getTeam_atArrival, if_pos rfl, core_arriving]
  rw [memGet, arrived, mem_arrival, hcore, ← memGet]
  rw [← atArrival_keeps State.l1 s b w fun _ _ _ => rfl] at hcanon
  rw [← l1Bytes_congr (atArrival_keeps State.l1 s b w fun _ _ _ => rfl)
    (atArrival_keeps State.pools s b w fun _ _ _ => rfl)] at he
  exact memGet_l1Release hcanon he hd

theorem released_of_mem {s t t' : State} (h : t'.mem = t.mem) (hr : Released s t) : Released s t' := by
  intro hcanon e he hd
  rw [memGet, h]
  exact hr hcanon e he hd

theorem done_iff (x : Barrier) : x.done = true ↔ ∀ u ∈ x.expected, u ∈ x.arrived := by
  simp [Barrier.done]

theorem arrivedAt_done_iff (s : State) (c : Cohort) (b : Nat) :
    (arrivedAt c b s.cur).done = true ↔ LastToArrive s (c.bar b) := done_iff _

/-- The phase goes on (R75). -/
theorem arrives_open {s : State} {ck b : Nat} {c : Cohort} (w : Bool) (hm : MayArrive s ck c)
    (harr : sget 0 s.tm.arr b = (c.bar b).ph) (hlast : ¬LastToArrive s (c.bar b)) :
    ∃ t x, retryArrival (atArrival s b w) s.cur = t ∧ StandsAt s x ∧ t.tm = x.arriveAt b (c.bar b).ph s.clock w ∧
      Arrived s t ck b c ∧ Released s t := by
  obtain ⟨x, hx, htm⟩ := exists_tm_arrived s ck b c w
  have hc : getCohort (arrived s ck b c w) ck = some (countArrival c b s.cur) := getCohort_arrival ..
  have hbar := fun k => bar_countArrival c b s.cur k
  have hopen : ((countArrival c b s.cur).bar b).done = false := by
    rw [hbar, if_pos rfl, Bool.eq_false_iff, ne_eq, arrivedAt_done_iff]
    exact hlast
  have htm' : (arrived s ck b c w).tm = x.arriveAt b (c.bar b).ph s.clock w := by
    rw [State.tm, cur_arrived]
    exact htm
  refine ⟨arrived s ck b c w, x, ?_, hx, htm', ⟨?_, _, hc, rfl, ?_⟩, released_arrived s ck b c w⟩
  · rw [retryArrival_atArrival w hm harr, settleBarrier_open hc hopen]
  · rw [htm', arriveAt_arr]
  · rw [hbar, if_pos rfl]
    exact ⟨rfl, rfl, rfl, fun k hk => by rw [hbar, if_neg hk]⟩

theorem served_of_reached {t : Team} {b : Nat} {ph : BitVec 16} (hw : t.wait = .barWait b)
    (hr : (ph - sget 0 t.arr b).toNat < 2 ^ 15) : t.served b ph = t.wake.finish := by
  have hp : t.passesBar b ph = true := by
    rw [passesBar_barWait hw]
    exact decide_eq_true hr
  rw [Team.served, if_pos hp]

theorem served_of_wait {t : Team} (h : t.wait = .none ∨ t.wait = .benter) (b : Nat) (ph : BitVec 16) :
    t.served b ph = t := by
  rw [Team.served, passesBar_of_wait h]
  rfl

theorem wake_finish_pc (t : Team) : t.wake.finish.pc = t.finish.pc := by rw [finish_pc, wake_nextPc, finish_pc]

/-- A member that waits for the phase goes on (R75). -/
theorem served_goes {x y : Team} {b : Nat} {ph : BitVec 16} (h : y.blind = x.blind) (hw : x.wait = .barWait b)
    (hr : (ph - sget 0 x.arr b).toNat < 2 ^ 15) (hre : x.reenter = false) :
    (y.served b ph).wait = .none ∧ (y.served b ph).pc = x.finish.pc := by
  have hw' : y.wait = .barWait b := (eq_of_blind Team.wait h fun _ => rfl).trans hw
  have harr : y.arr = x.arr := eq_of_blind Team.arr h fun _ => rfl
  have hre' : y.reenter = false := (eq_of_blind Team.reenter h fun _ => rfl).trans hre
  rw [served_of_reached hw' (by rw [harr]; exact hr)]
  refine ⟨?_, ?_⟩
  · rw [finish_wait, wake_wait_eq, hre']
    rfl
  · rw [wake_finish_pc, finish_pc, finish_pc]
    exact eq_of_blind Team.nextPc h fun _ => rfl

theorem cur_of_offPhase {s t : State} (h : t.offPhase = s.offPhase) : t.cur = s.cur := by
  have hc := congrArg State.cur h
  exact hc

theorem mem_openPhase (s : State) (ck b : Nat) (c : Cohort) : (openPhase s ck b c).mem = s.mem := rfl

/-- The cohort when the phase that the arrival completes has ended, and the next one is open. -/
def completed (s : State) (ck b : Nat) (c : Cohort) (w : Bool) : Cohort :=
  (countArrival c b s.cur).setBar b (nextPhase (arrived s ck b c w) ck b (countArrival c b s.cur))

theorem completed_bar (s : State) (ck b : Nat) (c : Cohort) (w : Bool) :
    ((completed s ck b c w).bar b).ph = (c.bar b).ph + 1 ∧ ((completed s ck b c w).bar b).arrived = [] ∧
      (∀ m ∈ c.members, m.2 ∈ ((completed s ck b c w).bar b).expected) ∧
      ((completed s ck b c w).bar b).torn = ((c.bar b).tornNext || c.tornPending.contains s.cur) ∧
      ((completed s ck b c w).bar b).streamErr = (c.bar b).errNext ∧ s.cur ∉ (completed s ck b c w).tornPending := by
  have hbar : (completed s ck b c w).bar b = nextPhase (arrived s ck b c w) ck b (countArrival c b s.cur) := by
    rw [completed, bar_setBar, if_pos rfl]
  have hold : (countArrival c b s.cur).bar b = arrivedAt c b s.cur := by rw [bar_countArrival, if_pos rfl]
  rw [hbar, nextPhase, hold]
  refine ⟨rfl, rfl, fun m hm => List.mem_append_left _ (List.mem_map_of_mem hm), rfl, rfl, fun hmem => ?_⟩
  have hne := (List.mem_filter.mp hmem).2
  exact absurd rfl (bne_iff_ne.mp hne)

/-- The arrival completes the phase, and the members that wait for it go on (R75). -/
theorem arrives_last {s : State} {ck b : Nat} {c : Cohort} (w : Bool) (hm : MayArrive s ck c)
    (harr : sget 0 s.tm.arr b = (c.bar b).ph) (hlast : LastToArrive s (c.bar b)) (hq : NoneQueued s ck b c) :
    ∃ t x, retryArrival (atArrival s b w) s.cur = t ∧ StandsAt s x ∧
      t.tm = (x.arriveAt b (c.bar b).ph s.clock w).served b ((c.bar b).ph + 1) ∧ Completed s t ck b c ∧ Released s t := by
  obtain ⟨x, hx, htm⟩ := exists_tm_arrived s ck b c w
  obtain ⟨i, hcur⟩ := hm.2.2.1
  have hc : getCohort (arrived s ck b c w) ck = some (countArrival c b s.cur) := getCohort_arrival ..
  have hbar : (countArrival c b s.cur).bar b = arrivedAt c b s.cur := by rw [bar_countArrival, if_pos rfl]
  have hdone : ((countArrival c b s.cur).bar b).done = true := by
    rw [hbar, arrivedAt_done_iff]
    exact hlast
  have hteams : ∀ m ∈ c.members, ∀ w', ((arrived s ck b c w).getTeam m.2).wait ≠ .barArrive b w' := by
    intro m hmem w'
    by_cases hu : m.2 = s.cur
    · rw [hu, htm]
      exact not_barArrive_arriveAt _ _ _ _ _ _
    · rw [eq_of_blind Team.wait (getTeam_arrived_blind hu ck b c w) fun _ => rfl]
      exact hq.1 m hmem hu w'
  have hstreams : NoStreamArrives (arrived s ck b c w) ck b := by
    intro e he
    rw [streamsOf_congr (engines_arrived s ck b c w)] at he
    exact hq.2 e he
  obtain ⟨hoff, hget⟩ := settleBarrier_completes hc hdone (List.ne_nil_of_mem (show (i, s.cur) ∈ c.members from hcur))
    hteams hstreams 3
  have hph : ((countArrival c b s.cur).bar b).ph = (c.bar b).ph := by rw [hbar]; rfl
  have hmembers : (countArrival c b s.cur).members = c.members := rfl
  rw [hph, hmembers] at hget
  have hcohort : getCohort (settleBarrier ck b (3 + 1) (arrived s ck b c w)) ck = some (completed s ck b c w) := by
    rw [getCohort_congr (cohorts_of_offPhase hoff), openPhase, getCohort_setCohort, if_pos rfl, completed]
  have htm' : (settleBarrier ck b (3 + 1) (arrived s ck b c w)).tm =
      (x.arriveAt b (c.bar b).ph s.clock w).served b ((c.bar b).ph + 1) := by
    rw [State.tm, (cur_of_offPhase hoff).trans (cur_arrived s ck b c w), hget, htm]
    exact if_pos (List.mem_map_of_mem (f := Prod.snd) hcur)
  have hmem := (mem_of_offPhase hoff).trans (mem_openPhase (arrived s ck b c w) ck b (countArrival c b s.cur))
  refine ⟨_, x, retryArrival_atArrival w hm harr, hx, htm',
    ⟨?_, ⟨completed s ck b c w, hcohort, rfl, completed_bar s ck b c w⟩, ?_⟩,
    released_of_mem hmem (released_arrived s ck b c w)⟩
  · have hserved : ∀ t : Team, (t.served b ((c.bar b).ph + 1)).arr = t.arr := by
      intro t
      unfold Team.served
      split
      · rw [finish_keeps Team.arr _ fun _ => rfl, wake_keeps Team.arr _ fun _ _ _ _ => rfl]
      · rfl
    show sget 0 (settleBarrier ck b (3 + 1) (arrived s ck b c w)).tm.arr b = _
    rw [htm', hserved, arriveAt_arr]
  · intro m hmem hu hwait hr hre
    show ((settleBarrier ck b (3 + 1) (arrived s ck b c w)).getTeam m.2).wait = _ ∧
      ((settleBarrier ck b (3 + 1) (arrived s ck b c w)).getTeam m.2).pc = _
    rw [hget, if_pos (List.mem_map_of_mem hmem)]
    exact served_goes (getTeam_arrived_blind hu ck b c w) hwait hr hre

end Sys2Proof.Machine
end

section
/-! PROOF. The barrier words (O46): the waits, and what each word does. -/

open Sys2Proof Sys2Proof.Machine Sys2Proof.Safety Sys2Proof.Statements
namespace Sys2Proof.Machine

/-! ### A team that waits -/

theorem serveTeam_tooEarly {s : State} {ck b u : Nat} {c : Cohort} {w : Bool} (hc : getCohort s ck = some c)
    (hwait : (s.getTeam u).wait = .barArrive b w) (harr : sget 0 (s.getTeam u).arr b ≠ (c.bar b).ph) :
    serveTeam ck b s u = s := by
  unfold serveTeam
  rw [hc]
  dsimp only
  rw [hwait]
  dsimp only
  rw [if_neg fun h => harr (by simpa using (Bool.and_eq_true_iff.mp (Bool.and_eq_true_iff.mp h).1).2)]

/-- A team that has arrived in the open phase waits for the next one before it arrives again (R335). -/
theorem arrival_waits {s : State} {ck b : Nat} {c : Cohort} (w : Bool) (hck : s.tm.cohort = some ck)
    (hc : getCohort s ck = some c) (hopen : (c.bar b).done = false) (harr : sget 0 s.tm.arr b = (c.bar b).ph + 1) :
    retryArrival (atArrival s b w) s.cur = atArrival s b w := by
  have hget : (atArrival s b w).getTeam s.cur = arriving s b w := by rw [getTeam_atArrival, if_pos rfl]
  have hwait : ((atArrival s b w).getTeam s.cur).wait = .barArrive b w := by
    rw [hget]
    exact sleep_wait ..
  have hcoh : ((atArrival s b w).getTeam s.cur).cohort = some ck := by
    rw [hget, arriving_keeps Team.cohort s b w (fun _ => rfl) fun _ _ _ _ => rfl, hck]
  have harr' : sget 0 ((atArrival s b w).getTeam s.cur).arr b ≠ (c.bar b).ph := by
    rw [hget, (standsAt_arriving s b w).arr, harr]
    simp
  have hc' := (getCohort_atArrival s b ck w).trans hc
  unfold retryArrival
  dsimp only
  rw [hwait, hcoh]
  dsimp only
  rw [serveTeam_tooEarly hc' hwait harr', settleBarrier_open hc' hopen]

/-- The team that has issued a BARW and waits for the phase. -/
def waiting (s : State) (b : Nat) : Team :=
  { (issuedTm s).sleep .parked (.barWait b) with parkedSince := s.clock }

/-- The machine when it has. -/
def atWait (s : State) (b : Nat) : State := (issued s).park (.barWait b)

theorem getTeam_atWait (s : State) (b : Nat) : (atWait s b).getTeam s.cur = waiting s b := by
  have hcur : (issued s).cur = s.cur := rfl
  show ((issued s).setTeam (issued s).cur _).getTeam s.cur = _
  rw [getTeam_setTeam, if_pos hcur.symm, issued_tm]
  rfl

theorem atWait_keeps {γ : Type} (g : State → γ) (s : State) (b : Nat)
    (hg : ∀ (s : State) m n, g { s with teams := m, issueCount := n } = g s) : g (atWait s b) = g s :=
  issued_modTm_keeps g s (fun t => { t.sleep .parked (.barWait b) with parkedSince := (issued s).clock }) hg

theorem waiting_keeps {γ : Type} (g : Team → γ) (s : State) (b : Nat) (hg : ∀ t : Team, g t = g (Team.rest t))
    (hw : ∀ (t : Team) w st h, g { t with wait := w, state := st, haltedFrom := h } = g t)
    (hp : ∀ (t : Team) n, g { t with parkedSince := n } = g t) : g (waiting s b) = g s.tm := by
  rw [waiting, hp, sleep_keeps g _ _ _ hw, issuedTm_keeps g s hg]

theorem waiting_wait (s : State) (b : Nat) : (waiting s b).wait = .barWait b := sleep_wait ..

theorem waiting_nextPc (s : State) (b : Nat) : (waiting s b).nextPc = s.tm.nextPc :=
  (sleep_keeps Team.nextPc _ _ _ fun _ _ _ _ => rfl).trans (issuedTm_nextPc s)

theorem waiting_pc (s : State) (b : Nat) : (waiting s b).pc = s.tm.pc :=
  (sleep_keeps Team.pc (issuedTm s) _ _ fun _ _ _ _ => rfl).trans (snap_pc _)

theorem waiting_s (s : State) (b : Nat) : (waiting s b).s = s.tm.s :=
  (sleep_keeps Team.s (issuedTm s) _ _ fun _ _ _ _ => rfl).trans (issuedTm_s s)

theorem waiting_arr (s : State) (b : Nat) : (waiting s b).arr = s.tm.arr :=
  waiting_keeps Team.arr s b (fun _ => rfl) (fun _ _ _ _ => rfl) fun _ _ => rfl

theorem waiting_state {s : State} (b : Nat) (h : s.tm.state = .ready) : (waiting s b).state = .parked := by
  have hst : (issuedTm s).state = .ready := (issuedTm_keeps Team.state s fun _ => rfl).trans h
  exact sleep_state (by rw [hst]; decide) (by rw [hst]; decide)

/-- What a wait at a barrier finds (R75, R335). -/
theorem retryArrival_atWait {s : State} {ck b : Nat} {c : Cohort} (hck : s.tm.cohort = some ck)
    (hc : getCohort s ck = some c) (hopen : (c.bar b).done = false) :
    retryArrival (atWait s b) s.cur = if reached (c.bar b).ph (sget 0 s.tm.arr b)
      then (acquireCore (atWait s b) s.cur).modTeam s.cur fun t => t.wake.finish else atWait s b := by
  have hget := getTeam_atWait s b
  have hwait : ((atWait s b).getTeam s.cur).wait = .barWait b := by rw [hget, waiting_wait]
  have hcoh : ((atWait s b).getTeam s.cur).cohort = some ck := by
    rw [hget, waiting_keeps Team.cohort s b (fun _ => rfl) (fun _ _ _ _ => rfl) fun _ _ => rfl, hck]
  have hc' : getCohort (atWait s b) ck = some c :=
    (getCohort_congr (atWait_keeps State.cohorts s b fun _ _ _ => rfl) ck).trans hc
  have hpass : ((atWait s b).getTeam s.cur).passesBar b (c.bar b).ph = reached (c.bar b).ph (sget 0 s.tm.arr b) := by
    rw [passesBar_barWait hwait, hget, waiting_arr]
  have hserve := serveTeam_waiting (b := b) (u := s.cur) hc' fun w => by rw [hwait]; exact Wait.noConfusion
  rw [hpass] at hserve
  have hcohorts : getCohort (serveTeam ck b (atWait s b) s.cur) ck = some c := by
    rw [hserve]
    split
    · rw [getCohort_congr (cohorts_of_offPhase (offPhase_acquire_modTeam ..)), hc']
    · exact hc'
  unfold retryArrival
  dsimp only
  rw [hwait, hcoh]
  dsimp only
  rw [settleBarrier_open hcohorts hopen, hserve]

/-- The phase is over: the wait ends with an acquire. -/
theorem wait_ends {s : State} {ck b : Nat} {c : Cohort} (hck : s.tm.cohort = some ck)
    (hc : getCohort s ck = some c) (hopen : (c.bar b).done = false)
    (hr : ((c.bar b).ph - sget 0 s.tm.arr b).toNat < 2 ^ 15) :
    ∃ t, retryArrival (atWait s b) s.cur = t ∧ t.tm.pc = s.tm.finish.pc ∧ t.cohorts = s.cohorts ∧ t.mem = s.mem ∧
      t.tm.s = s.tm.s ∧ ∀ e ∈ l1Bytes t s.tm.core, e.2.dirty = true := by
  have hcur : (acquireCore (atWait s b) s.cur).cur = s.cur :=
    (congrArg State.cur (outside_l1Acquire _ _) :).trans (atWait_keeps State.cur s b fun _ _ _ => rfl)
  have htm : ((acquireCore (atWait s b) s.cur).modTeam s.cur fun t => t.wake.finish).tm = (waiting s b).wake.finish := by
    show ((acquireCore (atWait s b) s.cur).setTeam s.cur _).getTeam (acquireCore (atWait s b) s.cur).cur = _
    rw [getTeam_setTeam, if_pos hcur, getTeam_acquireCore, getTeam_atWait]
  have hcore : ((atWait s b).getTeam s.cur).core = s.tm.core := by
    rw [getTeam_atWait, waiting_keeps Team.core s b (fun _ => rfl) (fun _ _ _ _ => rfl) fun _ _ => rfl]
  refine ⟨_, (retryArrival_atWait hck hc hopen).trans (if_pos (decide_eq_true hr)), ?_, ?_, ?_, ?_, ?_⟩
  · rw [htm, wake_finish_pc, finish_pc, finish_pc, waiting_nextPc]
  · exact (cohorts_of_offPhase (offPhase_acquire_modTeam ..)).trans (atWait_keeps State.cohorts s b fun _ _ _ => rfl)
  · exact (mem_of_offPhase (offPhase_acquire_modTeam ..)).trans (atWait_keeps State.mem s b fun _ _ _ => rfl)
  · rw [htm, finish_s, wake_keeps Team.s _ fun _ _ _ _ => rfl, waiting_s]
  · intro e he
    rw [l1Bytes_congr (s := l1Acquire (atWait s b) s.tm.core) (by rw [← hcore]; rfl) (by rw [← hcore]; rfl)] at he
    exact dirty_of_mem_l1Acquire he

theorem wait_stays {s : State} {ck b : Nat} {c : Cohort} (hck : s.tm.cohort = some ck)
    (hc : getCohort s ck = some c) (hopen : (c.bar b).done = false)
    (hr : 2 ^ 15 ≤ ((c.bar b).ph - sget 0 s.tm.arr b).toNat) (hready : s.tm.state = .ready) :
    ∃ t, retryArrival (atWait s b) s.cur = t ∧ t.tm.state = .parked ∧ t.tm.wait = .barWait b ∧ t.tm.pc = s.tm.pc ∧
      t.cohorts = s.cohorts ∧ t.mem = s.mem := by
  have htm : (atWait s b).tm = waiting s b := by
    rw [State.tm, atWait_keeps State.cur s b fun _ _ _ => rfl, getTeam_atWait]
  refine ⟨_, (retryArrival_atWait hck hc hopen).trans (if_neg ?_), ?_, ?_, ?_, ?_, ?_⟩
  · rw [reached, decide_eq_true_eq]
    omega
  · rw [htm, waiting_state b hready]
  · rw [htm, waiting_wait]
  · rw [htm, waiting_pc]
  · exact atWait_keeps State.cohorts s b fun _ _ _ => rfl
  · exact atWait_keeps State.mem s b fun _ _ _ => rfl

/-! ### The words -/

theorem exec_bara_arrives {s : State} {b : BReg} {ck : Nat} (h : Issues (.bara b) s) (hck : s.tm.cohort = some ck) :
    exec (.bara b) s = .next (retryArrival (atArrival s b.val false) s.cur) :=
  barWord_eq (fun s => s.stall (.barArrive b.val false)) h hck

theorem exec_barv_arrives {s : State} {b : BReg} {ck : Nat} (h : Issues (.barv b) s) (hck : s.tm.cohort = some ck) :
    exec (.barv b) s = .next (retryArrival (atArrival s b.val true) s.cur) :=
  barWord_eq (fun s => s.stall (.barArrive b.val true)) h hck

theorem exec_barw_waits {s : State} {b : BReg} {ck : Nat} (h : Issues (.barw b) s) (hck : s.tm.cohort = some ck) :
    exec (.barw b) s = .next (retryArrival (atWait s b.val) s.cur) :=
  barWord_eq (fun s => s.park (.barWait b.val)) h hck

theorem exec_bar_traps {s : State} {b : BReg} {i : Instr} (hi : i ∈ ([.bara b, .barv b, .barw b] : List Instr))
    (h : Issues i s) (hno : s.tm.cohort = none) (hc : CanTrap s) :
    ∃ t, exec i s = .next t ∧ Trapped s t 1 0 i.word s.tm.pc := by
  simp only [List.mem_cons, List.not_mem_nil, or_false] at hi
  rcases hi with rfl | rfl | rfl
  · exact barWord_trapped (fun s => s.stall (.barArrive b.val false)) h hno hc
  · exact barWord_trapped (fun s => s.stall (.barArrive b.val true)) h hno hc
  · exact barWord_trapped (fun s => s.park (.barWait b.val)) h hno hc

/-- BARA completes with its arrival, whether or not a phase does. -/
theorem bara_goes {s : State} {x : Team} (hx : StandsAt s x) (b : Nat) (ph : BitVec 16) (now : DWord) :
    (x.arriveAt b ph now false).pc = s.tm.finish.pc ∧ (x.arriveAt b ph now false).s = s.tm.s := by
  rw [(arriveAt_goes x b ph now).1, arriveAt_s, hx.scalars, hx.nextPc, finish_pc]
  exact ⟨rfl, rfl⟩

theorem bara_served (x : Team) (b : Nat) (ph : BitVec 16) (now : DWord) :
    (x.arriveAt b ph now false).served b (ph + 1) = x.arriveAt b ph now false :=
  served_of_wait (arriveAt_goes x b ph now).2 ..

/-- BARV completes with the phase that its arrival completes. -/
theorem barv_goes {s : State} {x : Team} (hx : StandsAt s x) (b : Nat) (ph : BitVec 16) (now : DWord) :
    ((x.arriveAt b ph now true).served b (ph + 1)).pc = s.tm.finish.pc ∧
      ((x.arriveAt b ph now true).served b (ph + 1)).s = s.tm.s ∧
      (s.tm.reenter = false → ((x.arriveAt b ph now true).served b (ph + 1)).wait = .none) := by
  obtain ⟨hwait, -, hnext, hreenter, -⟩ := arriveAt_waits x b ph now
  rw [served_of_reached hwait (by rw [arriveAt_arr, BitVec.sub_self]; decide)]
  refine ⟨?_, ?_, fun hre => ?_⟩
  · rw [wake_finish_pc, finish_pc, hnext, hx.nextPc, finish_pc]
  · rw [finish_s, wake_keeps Team.s _ fun _ _ _ _ => rfl, arriveAt_s, hx.scalars]
  · rw [finish_wait, wake_wait_eq, hreenter, hx.reenter, hre]
    rfl

/-- A second arrival waits (R335). -/
theorem exec_arrives_again {s : State} {b : BReg} {ck : Nat} {c : Cohort} {i : Instr} (hi : i = .bara b ∨ i = .barv b)
    (h : Issues i s) (hck : s.tm.cohort = some ck) (hc : getCohort s ck = some c) (hopen : (c.bar b.val).done = false)
    (harr : sget 0 s.tm.arr b.val = (c.bar b.val).ph + 1) (hready : s.tm.state = .ready) :
    ∃ t, exec i s = .next t ∧ t.tm.state = .stalled ∧ t.tm.pc = s.tm.pc ∧ t.cohorts = s.cohorts ∧ t.mem = s.mem := by
  have hexec : ∃ w, exec i s = .next (retryArrival (atArrival s b.val w) s.cur) := by
    rcases hi with rfl | rfl
    · exact ⟨false, exec_bara_arrives h hck⟩
    · exact ⟨true, exec_barv_arrives h hck⟩
  obtain ⟨w, he⟩ := hexec
  have htm : (atArrival s b.val w).tm = arriving s b.val w := by
    rw [State.tm, atArrival_keeps State.cur s b.val w fun _ _ _ => rfl, getTeam_atArrival, if_pos rfl]
  have hx := standsAt_arriving s b.val w
  refine ⟨atArrival s b.val w, by rw [he, arrival_waits w hck hc hopen harr], ?_, ?_, ?_, ?_⟩
  · rw [htm, hx.state hready]
  · rw [htm, hx.pc]
  · exact atArrival_keeps State.cohorts s b.val w fun _ _ _ => rfl
  · exact atArrival_keeps State.mem s b.val w fun _ _ _ => rfl

/-- Settles O46: an arrival puts the team in the open phase (arrives_open); the last one opens the next phase, in which
nobody is queued, so that serving the members only ends their waits (arrives_last). -/
theorem barrierWordsArriveAndWait : Obligations.BarrierWordsArriveAndWait := by
  refine ⟨fun s b i hi h hno hc => exec_bar_traps hi h hno hc, fun s b ck c hm harr =>
    ⟨fun hlast hq => ⟨fun h => ?_, fun h => ?_⟩, fun hlast => ⟨fun h => ?_, fun h hready => ?_⟩⟩,
    fun s b ck c i hi h hck hc hopen harr hready => exec_arrives_again hi h hck hc hopen harr hready,
    fun s b ck c h hck hc hopen => ⟨fun hr => ?_, fun hr hready => ?_⟩⟩
  · obtain ⟨t, x, he, hx, htm, hdone, hrel⟩ := arrives_last false hm harr hlast hq
    obtain ⟨hpc, hs⟩ := bara_goes hx b.val (c.bar b.val).ph s.clock
    rw [← bara_served, ← htm] at hpc hs
    exact ⟨t, (exec_bara_arrives h hm.1).trans (congrArg _ he), hpc, hs, hdone, hrel⟩
  · obtain ⟨t, x, he, hx, htm, hdone, hrel⟩ := arrives_last true hm harr hlast hq
    obtain ⟨hpc, hs, hwait⟩ := barv_goes hx b.val (c.bar b.val).ph s.clock
    rw [← htm] at hpc hs hwait
    exact ⟨t, (exec_barv_arrives h hm.1).trans (congrArg _ he), hpc, hs, hdone, hrel, hwait⟩
  · obtain ⟨t, x, he, hx, htm, harrived, hrel⟩ := arrives_open false hm harr hlast
    obtain ⟨hpc, hs⟩ := bara_goes hx b.val (c.bar b.val).ph s.clock
    rw [← htm] at hpc hs
    exact ⟨t, (exec_bara_arrives h hm.1).trans (congrArg _ he), hpc, hs, harrived, hrel⟩
  · obtain ⟨t, x, he, hx, htm, harrived, hrel⟩ := arrives_open true hm harr hlast
    obtain ⟨hwait, hpc, -, -, hstate⟩ := arriveAt_waits x b.val (c.bar b.val).ph s.clock
    have hs := arriveAt_s x b.val (c.bar b.val).ph s.clock true
    rw [← htm] at hwait hpc hs hstate
    exact ⟨t, (exec_barv_arrives h hm.1).trans (congrArg _ he), hpc.trans hx.pc, hs.trans hx.scalars, harrived, hrel,
      hstate (hx.state hready), hwait⟩
  · obtain ⟨t, he, ht⟩ := wait_ends hck hc hopen hr
    exact ⟨t, (exec_barw_waits h hck).trans (congrArg _ he), ht⟩
  · obtain ⟨t, he, ht⟩ := wait_stays hck hc hopen hr hready
    exact ⟨t, (exec_barw_waits h hck).trans (congrArg _ he), ht⟩

end Sys2Proof.Machine
end

section
/-! SUPPORT. JOIN (R71, R72, R360). -/

open Sys2Proof Sys2Proof.Machine Sys2Proof.Safety Sys2Proof.Statements
namespace Sys2Proof.Machine

/-! ### Statuses -/

theorem tm_endStatus (s : State) (st : SReg) (v : Nat) :
    (endStatus s st v).tm = (s.tm.swrite st.val (BitVec.ofNat 64 v)).finish := tm_modTm ..

/-- The team of X stands where the current team of s does, with the same registers. -/
structure Stands (s : State) (x : Team) : Prop where
  nextPc : x.nextPc = s.tm.nextPc
  scalars : x.s = s.tm.s
  k : x.k = s.tm.k
  p : x.p = s.tm.p

theorem stands_issuedTm (s : State) : Stands s (issuedTm s) :=
  ⟨issuedTm_nextPc s, issuedTm_s s, issuedTm_keeps Team.k s fun _ => rfl, issuedTm_p s⟩

theorem Stands.statusIs {s x : State} (h : Stands s x.tm) (st : SReg) (v : Nat) :
    StatusIs s (endStatus x st v) st (BitVec.ofNat 64 v) := by
  rw [StatusIs, tm_endStatus, finish_s, finish_p, finish_pc, finish_pc]
  refine ⟨h.nextPc, ?_, fun m hm => ?_, ?_, h.p⟩
  · rw [sget_s_swrite, if_pos rfl]
  · rw [sget_s_swrite, if_neg hm, h.scalars]
  · exact (finish_keeps Team.k _ fun _ => rfl).trans h.k

/-! ### The effect of a JOIN -/

/-- The id that a JOIN names (R360). -/
def joinId (s : State) (sa : SReg) : Nat := (s.tm.sread sa.val).toNat % 65536

/-- The state of a JOIN of id with the code before its status is written: the team has joined, or nothing is done. -/
def afterJoin (s : State) (id w code : Nat) : State :=
  if code == 1 then addMember (setCohort s (cohKey s.tm.ctx id) (newCohort s.tm id w)) s.tm.uid (cohKey s.tm.ctx id) true
  else if code == 0 then addMember s s.tm.uid (cohKey s.tm.ctx id) false
  else s

theorem cohorts_issued (s : State) : (issued s).cohorts = s.cohorts := rfl

theorem joinStatus_issued (s : State) (id w : Nat) : joinStatus (issued s) (issuedTm s) id w = joinStatus s s.tm id w := by
  have hcohort : (issuedTm s).cohort = s.tm.cohort := issuedTm_keeps Team.cohort s fun _ => rfl
  have hctx : (issuedTm s).ctx = s.tm.ctx := issuedTm_keeps Team.ctx s fun _ => rfl
  have hcore : (issuedTm s).core = s.tm.core := issuedTm_keeps Team.core s fun _ => rfl
  unfold joinStatus getCohort
  rw [hcohort, hctx, hcore, cohorts_issued]

theorem exec_join {s : State} {sa : SReg} {w : Fin 65} {st : SReg} (h : Issues (.join sa w st) s) :
    exec (.join sa w st) s = .next
      (if s.tm.cohort.isNone && dissolving s (cohKey s.tm.ctx (joinId s sa)) then (issued s).stall .hold
       else endStatus (afterJoin (issued s) (joinId s sa) w.val (joinStatus s s.tm (joinId s sa) w.val)) st
         (joinStatus s s.tm (joinId s sa) w.val)) := by
  have hcohort : (issued s).tm.cohort = s.tm.cohort := by rw [issued_tm, issuedTm_keeps Team.cohort s fun _ => rfl]
  have hctx : (issued s).tm.ctx = s.tm.ctx := by rw [issued_tm, issuedTm_keeps Team.ctx s fun _ => rfl]
  have hid : ((issued s).tm.sread sa.val).toNat % 65536 = joinId s sa := by rw [issued_tm, issuedTm_sread, joinId]
  have hd : ∀ ck, dissolving (issued s) ck = dissolving s ck := fun ck => by
    rw [dissolving, getCohort_congr (cohorts_issued s), dissolving]
  have hcode := joinStatus_issued s (joinId s sa) w.val
  rw [← issued_tm] at hcode
  show execJoin sa w st s = _
  rw [execJoin, issue_eq _ s _ h]
  dsimp only
  rw [hid, hctx, hd, hcohort, hcode, afterJoin, hctx]

/-- A JOIN of an id whose cohort is being dissolved waits (log entry 111). -/
theorem exec_join_dissolving {s : State} {sa : SReg} {w : Fin 65} {st : SReg} {c : Cohort} (h : Issues (.join sa w st) s)
    (hno : s.tm.cohort = none) (hc : getCohort s (cohKey s.tm.ctx (joinId s sa)) = some c) (hm : c.members = []) :
    exec (.join sa w st) s = .next ((issued s).stall .hold) := by
  rw [exec_join h, if_pos]
  simp [hno, dissolving, hc, hm]

/-- Any other has the code of Table 4-5. -/
theorem exec_join_code {s : State} {sa : SReg} {w : Fin 65} {st : SReg} {v : Nat} (h : Issues (.join sa w st) s)
    (hd : s.tm.cohort = none → ∀ c, getCohort s (cohKey s.tm.ctx (joinId s sa)) = some c → c.members ≠ [])
    (hv : joinStatus s s.tm (joinId s sa) w.val = v) :
    exec (.join sa w st) s = .next (endStatus (afterJoin (issued s) (joinId s sa) w.val v) st v) := by
  rw [exec_join h, if_neg, hv]
  intro hx
  obtain ⟨hno, hx⟩ := Bool.and_eq_true_iff.mp hx
  cases hc : getCohort s (cohKey s.tm.ctx (joinId s sa)) with
  | none => simp [dissolving, hc] at hx
  | some c =>
    rw [dissolving, hc] at hx
    exact hd (Option.isNone_iff_eq_none.mp hno) c hc (List.isEmpty_iff.mp hx)

/-- A JOIN that fails only writes its status. -/
theorem join_fails {s : State} {sa : SReg} {w : Fin 65} {st : SReg} {v : Nat} (h : Issues (.join sa w st) s)
    (hd : s.tm.cohort = none → ∀ c, getCohort s (cohKey s.tm.ctx (joinId s sa)) = some c → c.members ≠ [])
    (hv : joinStatus s s.tm (joinId s sa) w.val = v) (hfail : 1 < v) :
    ∃ t, exec (.join sa w st) s = .next t ∧ StatusIs s t st (BitVec.ofNat 64 v) ∧ t.cohorts = s.cohorts ∧
      t.tm.cohort = s.tm.cohort ∧ t.mem = s.mem := by
  have hafter : afterJoin (issued s) (joinId s sa) w.val v = issued s := by
    rw [afterJoin, if_neg, if_neg] <;> simp <;> omega
  refine ⟨_, exec_join_code h hd hv, ?_⟩
  rw [hafter]
  refine ⟨Stands.statusIs (by rw [issued_tm]; exact stands_issuedTm s) st v,
    issued_modTm_keeps State.cohorts s _ fun _ _ _ => rfl, ?_, issued_modTm_keeps State.mem s _ fun _ _ _ => rfl⟩
  rw [tm_endStatus, issued_tm, finish_keeps Team.cohort _ fun _ => rfl]
  exact issuedTm_keeps Team.cohort s fun _ => rfl

theorem join_waits {s : State} {sa : SReg} {w : Fin 65} {st : SReg} {c : Cohort} (h : Issues (.join sa w st) s)
    (hno : s.tm.cohort = none) (hc : getCohort s (cohKey s.tm.ctx (joinId s sa)) = some c) (hm : c.members = [])
    (hready : s.tm.state = .ready) :
    ∃ t, exec (.join sa w st) s = .next t ∧ t.tm.state = .stalled ∧ t.tm.pc = s.tm.pc ∧ t.cohorts = s.cohorts ∧
      t.mem = s.mem := by
  have hst : (issuedTm s).state = .ready := (issuedTm_keeps Team.state s fun _ => rfl).trans hready
  have htm : ((issued s).stall .hold).tm = (issuedTm s).sleep .stalled .hold := by rw [State.stall, tm_modTm, issued_tm]
  refine ⟨_, exec_join_dissolving h hno hc hm, ?_, ?_, issued_modTm_keeps State.cohorts s _ fun _ _ _ => rfl,
    issued_modTm_keeps State.mem s _ fun _ _ _ => rfl⟩
  · rw [htm, sleep_state (by rw [hst]; decide) (by rw [hst]; decide)]
  · rw [htm, sleep_keeps Team.pc _ _ _ fun _ _ _ _ => rfl, issuedTm, snap_pc]

/-! ### The team that becomes a member -/

/-- The phases that a member arrives in first: the open ones for a creator, the next ones for any other (R74). -/
def firstPhases (c : Cohort) (creator : Bool) : Sparse (BitVec 16) :=
  (List.range 16).foldl (init := []) fun m b => sset 0 m b ((c.bar b).ph + (if creator then 0 else 1))

theorem sget_firstPhases (c : Cohort) (creator : Bool) {b : Nat} (hb : b < 16) :
    sget 0 (firstPhases c creator) b = (c.bar b).ph + if creator then 0 else 1 := by
  have h := sget_foldl_sset_mem (d := (0 : BitVec 16))
    (es := (List.range 16).map fun b => (b, (c.bar b).ph + if creator then 0 else 1))
    (by rw [List.map_map]; exact (List.map_id _).symm ▸ List.nodup_range)
    (List.mem_map_of_mem (List.mem_range.mpr hb)) []
  rw [List.foldl_map] at h
  exact h

/-- The team as member i of a cohort (R72). -/
def Team.memberOf (t : Team) (ck i : Nat) (c : Cohort) (creator : Bool) : Team :=
  { t with cohort := some ck, memberIdx := i, window := [], windowSize := 1024 * c.window, arr := firstPhases c creator }

/-- The index of the next member (R72). -/
def Cohort.freeIdx (c : Cohort) : Nat := lowestFree 64 (c.members.map Prod.fst)

theorem tm_setCohort (s : State) (ck : Nat) (c : Cohort) : (setCohort s ck c).tm = s.tm := rfl
theorem cur_setCohort (s : State) (ck : Nat) (c : Cohort) : (setCohort s ck c).cur = s.cur := rfl
theorem mem_setCohort (s : State) (ck : Nat) (c : Cohort) : (setCohort s ck c).mem = s.mem := rfl

theorem addMember_eq {s : State} {ck : Nat} {c : Cohort} (hc : getCohort s ck = some c) (u : Nat) (creator : Bool) :
    addMember s u ck creator = (setCohort s ck { c with members := c.members ++ [(c.freeIdx, u)] }).modTeam u
      fun t => t.memberOf ck c.freeIdx c creator := by
  rw [addMember, hc]
  rfl

theorem tm_addMember {s : State} {ck u : Nat} {c : Cohort} (hc : getCohort s ck = some c) (hu : u = s.cur)
    (creator : Bool) : (addMember s u ck creator).tm = s.tm.memberOf ck c.freeIdx c creator := by
  rw [addMember_eq hc, hu]
  exact (getTeam_setTeam ..).trans (if_pos rfl)

theorem getCohort_addMember {s : State} {ck : Nat} {c : Cohort} (hc : getCohort s ck = some c) (u : Nat) (creator : Bool) :
    getCohort (addMember s u ck creator) ck = some { c with members := c.members ++ [(c.freeIdx, u)] } := by
  rw [addMember_eq hc]
  exact (getCohort_setCohort ..).trans (if_pos rfl)

theorem mem_addMember {s : State} {ck : Nat} {c : Cohort} (hc : getCohort s ck = some c) (u : Nat) (creator : Bool) :
    (addMember s u ck creator).mem = s.mem := by
  rw [addMember_eq hc]
  rfl

/-- A number below n is not in a list of fewer than n numbers. -/
theorem exists_lt_notMem {n : Nat} {l : List Nat} (h : l.length < n) : ∃ i, i < n ∧ i ∉ l := by
  by_contra hx
  push Not at hx
  have := List.nodup_range.subperm (fun i hi => hx i (List.mem_range.mp hi)) |>.length_le
  rw [List.length_range] at this
  omega

theorem lowestFree_spec {n : Nat} {l : List Nat} (h : l.length < n) :
    lowestFree n l < n ∧ lowestFree n l ∉ l ∧ ∀ j, j < lowestFree n l → j ∈ l := by
  obtain ⟨i, hi, hfree⟩ := exists_lt_notMem h
  unfold lowestFree
  cases hf : (List.range n).find? fun i => !l.contains i with
  | none =>
    have := List.find?_eq_none.mp hf i (List.mem_range.mpr hi)
    simp [hfree] at this
  | some k =>
    obtain ⟨hk, hmem, hbelow⟩ := List.find?_range_eq_some.mp hf
    refine ⟨List.mem_range.mp hmem, by simpa using hk, fun j hj => by simpa using hbelow j hj⟩

/-! ### The codes of Table 4-5 -/

theorem joinStatus_member {s : State} {t : Team} (h : t.cohort ≠ none) (id w : Nat) : joinStatus s t id w = 5 := by
  rw [joinStatus, if_pos (Option.isSome_iff_ne_none.mpr h)]

theorem joinStatus_refused {s : State} {t : Team} {id w : Nat} (hno : t.cohort = none)
    (h : id = 0xFFFF ∨ ∃ c, getCohort s (cohKey t.ctx id) = some c ∧ c.window ≠ w) : joinStatus s t id w = 4 := by
  unfold joinStatus
  rw [if_neg (by simp [hno])]
  dsimp only
  rw [if_pos]
  rcases h with rfl | ⟨c, hc, hw⟩
  · rfl
  · simp [hc, hw]

theorem joinStatus_found {s : State} {t : Team} {id w : Nat} {c : Cohort} (hno : t.cohort = none) (hid : id ≠ 0xFFFF)
    (hc : getCohort s (cohKey t.ctx id) = some c) (hw : c.window = w) : joinStatus s t id w =
      if c.dp ≠ t.core / 128 then 3 else if 64 ≤ c.members.length then 2 else 0 := by
  simp [joinStatus, hno, hid, hc, hw]

theorem joinStatus_new {s : State} {t : Team} {id w : Nat} (hno : t.cohort = none) (hid : id ≠ 0xFFFF)
    (hc : getCohort s (cohKey t.ctx id) = none) : joinStatus s t id w =
      if cohortCap ≤ (s.cohorts.filter fun c => c.2.dp == t.core / 128).length then 6 else 1 := by
  simp [joinStatus, hno, hid, hc]

/-! ### A JOIN that succeeds -/

/-- The team is member i of cohort ck, with the window of w kilobytes zero, and memory is as it was. -/
def MemberIs (s t : State) (ck i w : Nat) : Prop :=
  t.tm.cohort = some ck ∧ t.tm.memberIdx = i ∧ t.tm.window = [] ∧ t.tm.windowSize = 1024 * w ∧ t.mem = s.mem

theorem stands_memberOf {s : State} {x : Team} (h : Stands s x) (ck i : Nat) (c : Cohort) (creator : Bool) :
    Stands s (x.memberOf ck i c creator) :=
  ⟨h.nextPc, h.scalars, h.k, h.p⟩

/-- A team that has joined, with its status written. -/
theorem join_member {s X : State} {ck v : Nat} {c : Cohort} {creator : Bool} (st : SReg)
    (hX : X.tm = (issuedTm s).memberOf ck c.freeIdx c creator) (hmem : X.mem = s.mem) :
    StatusIs s (endStatus X st v) st (BitVec.ofNat 64 v) ∧ MemberIs s (endStatus X st v) ck c.freeIdx c.window ∧
      (endStatus X st v).tm.arr = firstPhases c creator := by
  have hkeep : ∀ {γ : Type} (g : Team → γ), (∀ t : Team, g t = g (Team.rest t)) →
      g (endStatus X st v).tm = g X.tm := by
    intro γ g hg
    rw [tm_endStatus, finish_keeps g _ hg, hg, hg X.tm]
    rfl
  refine ⟨Stands.statusIs (by rw [hX]; exact stands_memberOf (stands_issuedTm s) ..) st v, ⟨?_, ?_, ?_, ?_, hmem⟩, ?_⟩
  · rw [hkeep Team.cohort fun _ => rfl, hX]; rfl
  · rw [hkeep Team.memberIdx fun _ => rfl, hX]; rfl
  · rw [hkeep Team.window fun _ => rfl, hX]; rfl
  · rw [hkeep Team.windowSize fun _ => rfl, hX]; rfl
  · rw [hkeep Team.arr fun _ => rfl, hX]; rfl

theorem join_enters {s : State} {sa : SReg} {w : Fin 65} {st : SReg} {c : Cohort} (h : Issues (.join sa w st) s)
    (huid : s.tm.uid = s.cur) (hc : getCohort s (cohKey s.tm.ctx (joinId s sa)) = some c) (hm : c.members ≠ [])
    (hv : joinStatus s s.tm (joinId s sa) w.val = 0) :
    ∃ t, exec (.join sa w st) s = .next t ∧ StatusIs s t st 0 ∧
      MemberIs s t (cohKey s.tm.ctx (joinId s sa)) c.freeIdx c.window ∧ t.tm.arr = firstPhases c false ∧
      getCohort t (cohKey s.tm.ctx (joinId s sa)) = some { c with members := c.members ++ [(c.freeIdx, s.cur)] } := by
  have hctx : (issued s).tm.ctx = s.tm.ctx := by rw [issued_tm, issuedTm_keeps Team.ctx s fun _ => rfl]
  have huid' : (issued s).tm.uid = (issued s).cur := by
    rw [issued_tm, issuedTm_keeps Team.uid s fun _ => rfl, huid, issued_cur]
  have hc' := (getCohort_congr (cohorts_issued s) _).trans hc
  have hafter : afterJoin (issued s) (joinId s sa) w.val 0 =
      addMember (issued s) (issued s).cur (cohKey s.tm.ctx (joinId s sa)) false := by
    rw [afterJoin, hctx, huid']
    rfl
  obtain ⟨hstatus, hmember, harr⟩ := join_member (s := s) (v := 0) st
    ((tm_addMember hc' rfl false).trans (by rw [issued_tm])) (mem_addMember hc' (issued s).cur false)
  refine ⟨_, exec_join_code h (fun _ c' h' => by rwa [← Option.some.inj (hc.symm.trans h')]) hv, ?_⟩
  rw [hafter]
  exact ⟨hstatus, hmember, harr, getCohort_addMember hc' ..⟩

theorem bar_newCohort (t : Team) (id w : Nat) {b : Nat} (hb : b < 16) :
    (newCohort t id w).bar b = { Barrier.blank with expected := [t.uid] } := by
  interval_cases b <;> rfl

theorem freeIdx_newCohort (t : Team) (id w : Nat) : (newCohort t id w).freeIdx = 0 := by
  show lowestFree 64 [] = 0
  decide

theorem join_creates {s : State} {sa : SReg} {w : Fin 65} {st : SReg} (h : Issues (.join sa w st) s)
    (huid : s.tm.uid = s.cur) (hc : getCohort s (cohKey s.tm.ctx (joinId s sa)) = none)
    (hv : joinStatus s s.tm (joinId s sa) w.val = 1) :
    ∃ t, exec (.join sa w st) s = .next t ∧ StatusIs s t st 1 ∧
      MemberIs s t (cohKey s.tm.ctx (joinId s sa)) 0 w.val ∧
      t.tm.arr = firstPhases (newCohort s.tm (joinId s sa) w.val) true ∧
      getCohort t (cohKey s.tm.ctx (joinId s sa)) =
        some { newCohort s.tm (joinId s sa) w.val with members := [(0, s.cur)] } := by
  have hctx : (issued s).tm.ctx = s.tm.ctx := by rw [issued_tm, issuedTm_keeps Team.ctx s fun _ => rfl]
  have hcore : (issued s).tm.core = s.tm.core := by rw [issued_tm, issuedTm_keeps Team.core s fun _ => rfl]
  have huid' : (issued s).tm.uid = s.tm.uid := by rw [issued_tm, issuedTm_keeps Team.uid s fun _ => rfl]
  have hnew : newCohort (issued s).tm (joinId s sa) w.val = newCohort s.tm (joinId s sa) w.val := by
    rw [newCohort, newCohort, hctx, hcore, huid']
  have hafter : afterJoin (issued s) (joinId s sa) w.val 1 =
      addMember (setCohort (issued s) (cohKey s.tm.ctx (joinId s sa)) (newCohort s.tm (joinId s sa) w.val)) s.cur
        (cohKey s.tm.ctx (joinId s sa)) true := by
    rw [afterJoin, hctx, hnew, huid', huid]
    rfl
  have hc' : getCohort (setCohort (issued s) (cohKey s.tm.ctx (joinId s sa)) (newCohort s.tm (joinId s sa) w.val))
      (cohKey s.tm.ctx (joinId s sa)) = some (newCohort s.tm (joinId s sa) w.val) :=
    (getCohort_setCohort ..).trans (if_pos rfl)
  obtain ⟨hstatus, hmember, harr⟩ := join_member (s := s) (v := 1) st
    ((tm_addMember hc' (cur_setCohort ..).symm true).trans (by rw [tm_setCohort, issued_tm]))
    ((mem_addMember hc' s.cur true).trans (mem_setCohort ..))
  rw [freeIdx_newCohort] at hmember
  refine ⟨_, exec_join_code h (fun _ c' h' => by rw [hc] at h'; cases h') hv, ?_⟩
  rw [hafter]
  refine ⟨hstatus, hmember, harr, (getCohort_addMember hc' ..).trans ?_⟩
  rw [freeIdx_newCohort]
  rfl

/-- A JOIN of a cohort with room takes its least free index, and arrives in the next phases (R72, R74). -/
theorem join_takesIndex {s : State} {sa : SReg} {w : Fin 65} {st : SReg} {c : Cohort} (h : Issues (.join sa w st) s)
    (huid : s.tm.uid = s.cur) (hno : s.tm.cohort = none) (hid : joinId s sa ≠ 0xFFFF)
    (hc : getCohort s (cohKey s.tm.ctx (joinId s sa)) = some c) (hm : c.members ≠ []) (hw : c.window = w.val)
    (hdp : c.dp = s.tm.core / 128) (hlen : c.members.length < 64) :
    ∃ t i, exec (.join sa w st) s = .next t ∧ StatusIs s t st 0 ∧
      MemberIs s t (cohKey s.tm.ctx (joinId s sa)) i w.val ∧ (∀ b, b < 16 → sget 0 t.tm.arr b = (c.bar b).ph + 1) ∧
      i < 64 ∧ (∀ m ∈ c.members, m.1 ≠ i) ∧ (∀ j, j < i → ∃ m ∈ c.members, m.1 = j) ∧
      getCohort t (cohKey s.tm.ctx (joinId s sa)) = some { c with members := c.members ++ [(i, s.cur)] } := by
  have hv : joinStatus s s.tm (joinId s sa) w.val = 0 := by
    rw [joinStatus_found hno hid hc hw, if_neg (not_not.mpr hdp), if_neg (by omega)]
  obtain ⟨t, he, hstatus, hmember, harr, hcohort⟩ := join_enters h huid hc hm hv
  obtain ⟨hi, hfree, hbelow⟩ := lowestFree_spec (n := 64) (l := c.members.map Prod.fst) (by rwa [List.length_map])
  rw [hw] at hmember
  refine ⟨t, c.freeIdx, he, hstatus, hmember, fun b hb => ?_, hi, fun m hm hx => hfree ?_, fun j hj => ?_, hcohort⟩
  · rw [harr, sget_firstPhases c false hb]
    rfl
  · rw [← Cohort.freeIdx, ← hx]
    exact List.mem_map_of_mem hm
  · exact List.mem_map.mp (hbelow j hj)

/-- A JOIN of a free id creates its cohort, whose phases expect the creator (R74, R75). -/
theorem join_opensPhases {s : State} {sa : SReg} {w : Fin 65} {st : SReg} (h : Issues (.join sa w st) s)
    (huid : s.tm.uid = s.cur) (hno : s.tm.cohort = none) (hid : joinId s sa ≠ 0xFFFF)
    (hc : getCohort s (cohKey s.tm.ctx (joinId s sa)) = none)
    (hroom : (s.cohorts.filter fun c => c.2.dp == s.tm.core / 128).length < 512) :
    ∃ t c, exec (.join sa w st) s = .next t ∧ StatusIs s t st 1 ∧
      MemberIs s t (cohKey s.tm.ctx (joinId s sa)) 0 w.val ∧ (∀ b, b < 16 → sget 0 t.tm.arr b = 0) ∧
      getCohort t (cohKey s.tm.ctx (joinId s sa)) = some c ∧ c.members = [(0, s.cur)] ∧ c.ctx = s.tm.ctx ∧
      c.id = joinId s sa ∧ c.dp = s.tm.core / 128 ∧ c.window = w.val ∧
      ∀ b, b < 16 → (c.bar b).ph = 0 ∧ (c.bar b).expected = [s.cur] ∧ (c.bar b).arrived = [] := by
  have hv : joinStatus s s.tm (joinId s sa) w.val = 1 := by
    rw [joinStatus_new hno hid hc, cohortCap, if_neg (Nat.not_le.mpr hroom)]
  have hbar := fun b => bar_newCohort s.tm (joinId s sa) w.val (b := b)
  obtain ⟨t, he, hstatus, hmember, harr, hcohort⟩ := join_creates h huid hc hv
  refine ⟨t, _, he, hstatus, hmember, fun b hb => ?_, hcohort, rfl, rfl, rfl, rfl, rfl, fun b hb => ?_⟩
  · rw [harr, sget_firstPhases _ _ hb, hbar b hb]
    rfl
  · show ((newCohort s.tm (joinId s sa) w.val).bar b).ph = 0 ∧
      ((newCohort s.tm (joinId s sa) w.val).bar b).expected = [s.cur] ∧
      ((newCohort s.tm (joinId s sa) w.val).bar b).arrived = []
    rw [hbar b hb, huid]
    exact ⟨rfl, rfl, rfl⟩

end Sys2Proof.Machine
end

section
/-! SUPPORT. A team that leaves its cohort: what the barriers' phases leave of it, and the end of a cohort without members
(R73, R75). -/

open Sys2Proof Sys2Proof.Machine Sys2Proof.Safety Sys2Proof.Statements
namespace Sys2Proof.Machine

/-! ### What the phases of a cohort leave of a team that is no member -/

/-- What is kept for team u while the barriers of cohort ck go on without it: the team, apart from what a WAITV's re-read
changes, whose turn it is, the mirrored stores and the members. -/
def State.view (u ck : Nat) (s : State) : Nat × List MirrorPkt × Team × Option (List (Nat × Nat)) :=
  (s.cur, s.mirrors, (s.getTeam u).blind, (getCohort s ck).map Cohort.members)

variable {u ck : Nat} {s t : State}

theorem view_setCohort {c c' : Cohort} (hc : getCohort s ck = some c) (hm : c'.members = c.members) :
    (setCohort s ck c').view u ck = s.view u ck := by
  have hview : (getCohort (setCohort s ck c') ck).map Cohort.members = (getCohort s ck).map Cohort.members := by
    rw [getCohort_setCohort, if_pos rfl, hc, Option.map_some, Option.map_some, hm]
  rw [State.view, hview]
  rfl

theorem view_modTeam {w : Nat} (hw : w ≠ u) (f : Team → Team) : (s.modTeam w f).view u ck = s.view u ck := by
  have hget : (s.modTeam w f).getTeam u = s.getTeam u := (getTeam_setTeam ..).trans (if_neg hw.symm)
  rw [State.view, hget]
  rfl

theorem view_releaseCore (s : State) (w : Nat) : (releaseCore s w).view u ck = s.view u ck := by
  have hmirrors : (releaseCore s w).mirrors = s.mirrors := by
    have h := congrArg State.mirrors (outside_l1Release s (s.getTeam w).core)
    exact h
  rw [State.view, cur_releaseCore, hmirrors, getTeam_releaseCore_blind, getCohort_congr (cohorts_releaseCore s w)]
  rfl

theorem view_acquireCore (s : State) (w : Nat) : (acquireCore s w).view u ck = s.view u ck := by
  have houtside := outside_l1Acquire s (s.getTeam w).core
  have hmirrors : (acquireCore s w).mirrors = s.mirrors := by
    have h := congrArg State.mirrors houtside
    exact h
  have hcur : (acquireCore s w).cur = s.cur := by
    have h := congrArg State.cur houtside
    exact h
  have hcohorts : (acquireCore s w).cohorts = s.cohorts := by
    have h := congrArg State.cohorts houtside
    exact h
  rw [State.view, hcur, hmirrors, getTeam_acquireCore, getCohort_congr hcohorts]
  rfl

theorem view_teamArrives {w : Nat} (hw : w ≠ u) (b : Nat) : (teamArrives s w ck b).view u ck = s.view u ck := by
  unfold teamArrives
  dsimp only
  split
  · exact view_releaseCore s w
  · next c hc => rw [view_modTeam hw, view_setCohort (c' := countArrival c b w) hc rfl, view_releaseCore]

theorem view_serveTeam {w : Nat} (hw : w ≠ u) (b : Nat) : (serveTeam ck b s w).view u ck = s.view u ck := by
  unfold serveTeam
  split
  · rfl
  · dsimp only
    split
    · split
      · split
        · rw [view_modTeam hw, view_teamArrives hw]
        · rw [view_modTeam hw, view_teamArrives hw]
      · rfl
    · split
      · rw [view_modTeam hw, view_acquireCore]
      · rfl
    · rfl

theorem view_modStream (s : State) (core : Nat) (f : Stream → Stream) :
    (modStream s core ck f).view u ck = s.view u ck := rfl

theorem view_serveStream (b core : Nat) : (serveStream ck b s core).view u ck = s.view u ck := by
  unfold serveStream
  split
  · next c i x hc _ =>
    dsimp only
    split
    · split
      · rw [view_modStream, view_setCohort (c' := countArrival c b (streamId core)) hc rfl]
      · rfl
    · split
      · rw [view_modStream]
      · rfl
    · rfl
  · rfl

/-- Team u is no member of cohort ck. -/
def NoMember (u ck : Nat) (s : State) : Prop := ∀ c, getCohort s ck = some c → ∀ m ∈ c.members, m.2 ≠ u

theorem NoMember.of_view (h : NoMember u ck s) (hv : t.view u ck = s.view u ck) : NoMember u ck t := by
  intro c hc m hm
  have hmap : (getCohort s ck).map Cohort.members = some c.members :=
    (congrArg (fun v => v.2.2.2) hv).symm.trans (congrArg (Option.map Cohort.members) hc)
  obtain ⟨c', hc', hmem⟩ := Option.map_eq_some_iff.mp hmap
  exact h c' hc' m (hmem ▸ hm)

theorem view_settleBarrier (h : NoMember u ck s) (b n : Nat) : (settleBarrier ck b n s).view u ck = s.view u ck := by
  induction n generalizing s with
  | zero => rfl
  | succ n ih =>
    cases hc : getCohort s ck with
    | none => simp [settleBarrier, hc]
    | some c =>
      by_cases hgo : (c.bar b).done = true ∧ c.members ≠ []
      · have hopen : (openPhase s ck b c).view u ck = s.view u ck := view_setCohort hc rfl
        have hteams := foldl_keeps (fun t : State => t.view u ck = s.view u ck) (serveTeam ck b) (c.members.map Prod.snd)
          (openPhase s ck b c) hopen fun t w hw ht => by
            obtain ⟨m, hm, rfl⟩ := List.mem_map.mp hw
            exact (view_serveTeam (h c hc m hm) b).trans ht
        have hall : (serveAll ck b c (openPhase s ck b c)).view u ck = s.view u ck :=
          (foldl_same (State.view u ck) _ _ _ fun t core _ => view_serveStream b core).trans hteams
        rw [settleBarrier_done hc hgo.1 hgo.2, ih (h.of_view hall), hall]
      · have hstop : (!(c.bar b).done || c.members.isEmpty) = true := by
          by_contra hx
          exact hgo (by simpa using hx)
        simp [settleBarrier, hc, hstop]

/-- A participant is expected at barrier b no more, and its arrival no longer counts (R75). -/
def Cohort.without (c : Cohort) (b id : Nat) : Cohort :=
  c.setBar b { c.bar b with
    expected := (c.bar b).expected.filter (· != id), arrived := (c.bar b).arrived.filter (· != id) }

/-- A participant leaves barrier b. -/
def leaveBarrier (ck id : Nat) (s : State) (b : Nat) : State :=
  match getCohort s ck with
  | none => s
  | some c => settleBarrier ck b barFuel (setCohort s ck (c.without b id))

theorem leaveBarriers_eq (s : State) (ck id : Nat) :
    leaveBarriers s ck id = (List.range 16).foldl (leaveBarrier ck id) s := rfl

theorem view_leaveBarriers (h : NoMember u ck s) (id : Nat) : (leaveBarriers s ck id).view u ck = s.view u ck := by
  rw [leaveBarriers_eq]
  refine foldl_keeps (fun t : State => t.view u ck = s.view u ck) _ _ s rfl fun t b _ ht => ?_
  unfold leaveBarrier
  split
  · exact ht
  · next c hc =>
    have hset := view_setCohort (u := u) (c' := c.without b id) hc rfl
    rw [view_settleBarrier ((h.of_view ht).of_view hset), hset, ht]

/-! ### A cohort without members -/

/-- Cohort ck has no members. -/
def Deserted (ck : Nat) (s : State) : Prop := ∀ c, getCohort s ck = some c → c.members = []

/-- The machine without cohorts and engines. -/
def State.offCohorts (s : State) : State := { s with cohorts := [], engines := [] }

theorem settleBarrier_empty (h : Deserted ck s) (b n : Nat) : settleBarrier ck b n s = s := by
  cases n with
  | zero => rfl
  | succ n =>
    cases hc : getCohort s ck with
    | none => simp [settleBarrier, hc]
    | some c => simp [settleBarrier, hc, h c hc]

theorem leaveBarrier_empty (h : Deserted ck s) (id b : Nat) : Deserted ck (leaveBarrier ck id s b) ∧
    (leaveBarrier ck id s b).engines = s.engines ∧ (leaveBarrier ck id s b).offCohorts = s.offCohorts := by
  unfold leaveBarrier
  split
  · exact ⟨h, rfl, rfl⟩
  · next c hc =>
    have hset : Deserted ck (setCohort s ck (c.without b id)) := by
      intro c' hc'
      rw [getCohort_setCohort, if_pos rfl, Option.some.injEq] at hc'
      exact hc' ▸ h c hc
    rw [settleBarrier_empty hset]
    exact ⟨hset, rfl, rfl⟩

theorem leaveBarriers_empty (h : Deserted ck s) (id : Nat) : Deserted ck (leaveBarriers s ck id) ∧
    (leaveBarriers s ck id).engines = s.engines ∧ (leaveBarriers s ck id).offCohorts = s.offCohorts := by
  rw [leaveBarriers_eq]
  refine foldl_keeps (fun t : State => Deserted ck t ∧ t.engines = s.engines ∧ t.offCohorts = s.offCohorts) _ _ s
    ⟨h, rfl, rfl⟩ fun t b _ ⟨ht, heng, hoff⟩ => ?_
  obtain ⟨ht', heng', hoff'⟩ := leaveBarrier_empty ht id b
  exact ⟨ht', heng'.trans heng, hoff'.trans hoff⟩

theorem offCohorts_setEngine (s : State) (core : Nat) (e : Engine) : (setEngine s core e).offCohorts = s.offCohorts := rfl

theorem Deserted.setEngine (h : Deserted ck s) (core : Nat) (e : Engine) : Deserted ck (setEngine s core e) := fun c hc => h c hc

theorem findStream_congr (h : t.engines = s.engines) (core : Nat) : findStream t core ck = findStream s core ck := by
  rw [findStream, findStream, getEngine, getEngine, h]

theorem findStream_setEngine (s : State) (core k : Nat) (e : Engine) : findStream (setEngine s core e) k ck =
    if k = core then e.streams.find? fun x => x.cohort == ck else findStream s k ck := by
  rw [findStream, getEngine, setEngine]
  dsimp only
  rw [sfind_sput]
  split <;> rfl

theorem find_without (l : List Stream) (ck : Nat) :
    (l.filter fun x => x.cohort != ck).find? (fun x => x.cohort == ck) = none := by
  refine List.find?_eq_none.mpr fun y hy => ?_
  have hne := (List.mem_filter.mp hy).2
  simpa using hne

/-- The engine of a core without its stream of a cohort, if it had one (R114). -/
theorem detachStream_cases (s : State) (core ck : Nat) : ∃ t, t = leaveBarriers s ck (streamId core) ∧
    ((detachStream s core ck = t ∧ findStream t core ck = none) ∨ ∃ e, detachStream s core ck = setEngine t core e ∧
      e.streams = (getEngine t core).streams.filter fun x => x.cohort != ck) := by
  unfold detachStream
  dsimp only
  generalize leaveBarriers s ck (streamId core) = t
  refine ⟨t, rfl, ?_⟩
  split
  · next h => exact .inl ⟨rfl, h⟩
  · exact .inr ⟨_, rfl, rfl⟩

theorem detachStream_empty (h : Deserted ck s) (core : Nat) : Deserted ck (detachStream s core ck) ∧
    (detachStream s core ck).offCohorts = s.offCohorts ∧
    ∀ k, findStream (detachStream s core ck) k ck = if k = core then none else findStream s k ck := by
  obtain ⟨t, ht, hcases⟩ := detachStream_cases s core ck
  obtain ⟨hempty, heng, hoff⟩ := leaveBarriers_empty h (streamId core)
  rw [← ht] at hempty heng hoff
  rcases hcases with ⟨e, hnone⟩ | ⟨e, he, hstreams⟩
  · rw [e]
    refine ⟨hempty, hoff, fun k => ?_⟩
    rw [findStream_congr heng]
    split
    · next hk => rw [hk, ← findStream_congr heng, hnone]
    · rfl
  · rw [he]
    refine ⟨hempty.setEngine _ _, (offCohorts_setEngine ..).trans hoff, fun k => ?_⟩
    rw [findStream_setEngine, hstreams, find_without, findStream_congr heng]

theorem foldl_detachStream_empty (es : List (Nat × Engine)) (h : Deserted ck s) :
    (es.foldl (fun s e => detachStream s e.1 ck) s).offCohorts = s.offCohorts ∧
    ∀ k, findStream (es.foldl (fun s e => detachStream s e.1 ck) s) k ck =
      if k ∈ es.map Prod.fst then none else findStream s k ck := by
  induction es generalizing s with
  | nil => exact ⟨rfl, fun k => (if_neg List.not_mem_nil).symm⟩
  | cons e r ih =>
    obtain ⟨hempty, hoff, hfind⟩ := detachStream_empty h e.1
    obtain ⟨hoff', hfind'⟩ := ih hempty
    rw [List.foldl_cons]
    refine ⟨hoff'.trans hoff, fun k => ?_⟩
    rw [hfind', hfind, List.map_cons]
    by_cases hk : k = e.1
    · simp [hk]
    · simp [hk, -List.mem_map]

theorem mem_of_sfind {β : Type} {m : Sparse β} {k : Nat} {v : β} (h : sfind m k = some v) : (k, v) ∈ m := by
  induction m with
  | nil => cases h
  | cons e r ih =>
    obtain ⟨j, w⟩ := e
    rw [sfind] at h
    split at h
    · next hk =>
      obtain rfl := Option.some.inj h
      rw [← hk]
      exact List.mem_cons_self
    · exact List.mem_cons_of_mem _ (ih h)

/-- No stream of the cohort is left (R73). -/
theorem findStream_detachAll (h : Deserted ck s) (k : Nat) : findStream (detachAll s ck) k ck = none := by
  rw [detachAll, (foldl_detachStream_empty _ h).2]
  split
  · rfl
  · next hk =>
    refine List.find?_eq_none.mpr fun x hx hck => hk ?_
    unfold getEngine at hx
    cases he : sfind s.engines k with
    | none => simp [he, Engine.idle] at hx
    | some e =>
      rw [he] at hx
      exact List.mem_map.mpr ⟨(k, e), List.mem_filter.mpr ⟨mem_of_sfind he, List.any_eq_true.mpr ⟨x, hx, hck⟩⟩, rfl⟩

/-- The machine when the id of a cohort is free. -/
def freeId (s : State) (ck : Nat) : State := { s with cohorts := sdel s.cohorts ck }

theorem endCohort_free (h : stampsLeft s ck = false) : endCohort s ck = freeId (detachAll s ck) ck := by
  rw [endCohort, if_neg (by rw [h]; exact Bool.false_ne_true)]
  rfl

theorem offCohorts_freeId (s : State) (ck : Nat) : (freeId s ck).offCohorts = s.offCohorts := rfl

theorem engines_freeId (s : State) (ck : Nat) : (freeId s ck).engines = s.engines := rfl

theorem getCohort_freeId (s : State) (ck : Nat) : getCohort (freeId s ck) ck = none := (sfind_sdel ..).trans (if_pos rfl)

theorem offCohorts_detachAll (h : Deserted ck s) : (detachAll s ck).offCohorts = s.offCohorts :=
  (foldl_detachStream_empty _ h).1

/-- The engine whose stream of a cohort stands still (R73). -/
def Engine.standing (ck : Nat) (e : Engine) : Engine :=
  { e with streams := e.streams.map fun x => if x.cohort == ck then x.dissolved else x }

/-- The machine when the streams of a cohort stand still. -/
def standStill (s : State) (ck : Nat) : State := { s with engines := s.engines.map fun e => (e.1, e.2.standing ck) }

theorem endCohort_stamps (h : stampsLeft s ck = true) : endCohort s ck = standStill s ck := if_pos h

theorem cohorts_standStill (s : State) (ck : Nat) : (standStill s ck).cohorts = s.cohorts := rfl

theorem offCohorts_standStill (s : State) (ck : Nat) : (standStill s ck).offCohorts = s.offCohorts := rfl

theorem findStream_standStill {core : Nat} {x : Stream} (h : findStream (standStill s ck) core ck = some x) :
    ∃ y : Stream, x = y.dissolved := by
  rw [findStream, getEngine, standStill] at h
  dsimp only at h
  rw [sfind_map (Engine.standing ck)] at h
  have hmem := List.mem_of_find?_eq_some h
  have hck := List.find?_some h
  cases he : sfind s.engines core with
  | none =>
    rw [he] at hmem
    cases hmem
  | some e =>
    rw [he] at hmem
    obtain ⟨y, -, hy⟩ := List.mem_map.mp hmem
    by_cases hyc : (y.cohort == ck) = true
    · exact ⟨y, by rw [← hy, if_pos hyc]⟩
    · rw [if_neg hyc] at hy
      exact absurd (hy ▸ hck) hyc

theorem dissolved_rests (x : Stream) : (x.dissolved.state = .parked ∨ x.dissolved.state = .saved) ∧
    x.dissolved.mma = none ∧ x.dissolved.msta = none ∧ x.dissolved.mwbs = [] := by
  unfold Stream.dissolved
  split
  · next h => exact ⟨.inr (beq_iff_eq.mp h), rfl, rfl, rfl⟩
  · exact ⟨.inl rfl, rfl, rfl, rfl⟩

end Sys2Proof.Machine
end

section
/-! SUPPORT. LEAVE (R73, R374). -/

open Sys2Proof Sys2Proof.Machine Sys2Proof.Safety Sys2Proof.Statements
namespace Sys2Proof.Machine

/-! ### The team that leaves -/

/-- The team in no cohort (R73). -/
def Team.left (t : Team) : Team := { t with cohort := none, memberIdx := 0, window := [], windowSize := 0, arr := [] }

/-- The mirrored stores on their way, none of which is to reach team u (R73). -/
def withoutTarget (u : Nat) (ms : List MirrorPkt) : List MirrorPkt :=
  ms.map fun m => { m with targets := m.targets.filter (· != u) }

theorem notMem_withoutTarget {u : Nat} {ms : List MirrorPkt} {m : MirrorPkt} (hm : m ∈ withoutTarget u ms) :
    u ∉ m.targets := by
  obtain ⟨x, -, rfl⟩ := List.mem_map.mp hm
  intro hu
  have hne := (List.mem_filter.mp hu).2
  exact absurd rfl (bne_iff_ne.mp hne)

/-- The members but team u. -/
def Cohort.others (c : Cohort) (u : Nat) : List (Nat × Nat) := c.members.filter fun m => m.2 != u

/-- Team u is in no cohort, and no mirrored store is to reach it. -/
def outOfCohort (s : State) (u : Nat) : State := { s.modTeam u Team.left with mirrors := withoutTarget u s.mirrors }

/-- Team u has left cohort ck; nothing has come of it yet. -/
def departed (s : State) (u ck : Nat) (c : Cohort) : State :=
  setCohort (outOfCohort s u) ck { c with members := c.others u, tornPending := c.tornPending.filter (· != u) }

theorem leaveCohort_eq {s : State} {u ck : Nat} {c : Cohort} (hcoh : (s.getTeam u).cohort = some ck)
    (hc : getCohort s ck = some c) : leaveCohort s u =
      if (c.others u).isEmpty then endCohort (departed s u ck c) ck else leaveBarriers (departed s u ck c) ck u := by
  have hc' : getCohort (outOfCohort s u) ck = some c := hc
  unfold leaveCohort
  rw [hcoh]
  show (match getCohort (outOfCohort s u) ck with
    | none => outOfCohort s u
    | some c => if (c.others u).isEmpty then endCohort (departed s u ck c) ck
      else leaveBarriers (departed s u ck c) ck u) = _
  rw [hc']

theorem getCohort_departed (s : State) (u ck : Nat) (c : Cohort) : getCohort (departed s u ck c) ck =
    some { c with members := c.others u, tornPending := c.tornPending.filter (· != u) } :=
  (getCohort_setCohort ..).trans (if_pos rfl)

theorem getTeam_departed (s : State) (u ck : Nat) (c : Cohort) : (departed s u ck c).getTeam u = (s.getTeam u).left :=
  (getTeam_setTeam ..).trans (if_pos rfl)

theorem noMember_departed (s : State) (u ck : Nat) (c : Cohort) : NoMember u ck (departed s u ck c) := by
  intro c' hc' m hm
  rw [getCohort_departed, Option.some.injEq] at hc'
  rw [← hc'] at hm
  exact bne_iff_ne.mp (List.mem_filter.mp hm).2

theorem exec_leave {s : State} (h : Issues .leave s) :
    exec .leave s = .next ((leaveCohort (issued s) s.cur).modTm Team.finish) :=
  issue_eq .leave s (fun s => (leaveCohort s s.cur).modTm Team.finish) h

/-- In no cohort LEAVE has no effect (R374). -/
theorem leave_outside {s : State} (h : Issues .leave s) (hno : s.tm.cohort = none) :
    ∃ t, exec .leave s = .next t ∧ OnlyPlace s t ∧ t.tm.pc = s.tm.finish.pc := by
  have hcoh : ((issued s).getTeam s.cur).cohort = none := by
    rw [getTeam_issued, if_pos rfl, issuedTm_keeps Team.cohort s fun _ => rfl, hno]
  have hstay : leaveCohort (issued s) s.cur = issued s := by rw [leaveCohort, hcoh]
  refine ⟨(issued s).setTm (issuedTm s).finish, ?_, ⟨onlyTeam_of s _ ((finish_rest _).trans (issuedTm_rest s)), ?_⟩, ?_⟩
  · rw [exec_leave h, hstay, State.modTm, issued_tm]
  · rw [tm_setTm, finish_v, finish_s, finish_p, finish_fpflags]
    exact ⟨issuedTm_v s, issuedTm_s s, issuedTm_p s, issuedTm_fpflags s⟩
  · rw [tm_setTm, finish_pc, finish_pc]
    exact issuedTm_nextPc s

/-- What LEAVE leaves of the team, whatever comes of its cohort. -/
def HasLeft (s t : State) : Prop :=
  t.tm.pc = s.tm.finish.pc ∧ t.tm.cohort = none ∧ t.tm.window = [] ∧ t.tm.windowSize = 0 ∧ t.tm.s = s.tm.s ∧
    ∀ m ∈ t.mirrors, s.cur ∉ m.targets

theorem hasLeft {s X : State} (htm : X.tm.blind = (issuedTm s).left.blind)
    (hmirrors : X.mirrors = withoutTarget s.cur s.mirrors) : HasLeft s (X.modTm Team.finish) := by
  rw [HasLeft, tm_modTm]
  refine ⟨?_, ?_, ?_, ?_, ?_, fun m hm => notMem_withoutTarget (hmirrors ▸ hm)⟩
  · rw [finish_pc, finish_pc, eq_of_blind Team.nextPc htm fun _ => rfl]
    exact issuedTm_nextPc s
  · rw [finish_keeps Team.cohort _ fun _ => rfl]
    exact eq_of_blind Team.cohort htm fun _ => rfl
  · rw [finish_keeps Team.window _ fun _ => rfl]
    exact eq_of_blind Team.window htm fun _ => rfl
  · rw [finish_keeps Team.windowSize _ fun _ => rfl]
    exact eq_of_blind Team.windowSize htm fun _ => rfl
  · rw [finish_s, eq_of_blind Team.s htm fun _ => rfl]
    exact issuedTm_s s

/-! ### What comes of the cohort -/

section
variable {s : State} {ck : Nat} {c : Cohort}

theorem leaveCohort_issued (hcoh : s.tm.cohort = some ck) (hc : getCohort s ck = some c) :
    leaveCohort (issued s) s.cur = if (c.others s.cur).isEmpty then endCohort (departed (issued s) s.cur ck c) ck
      else leaveBarriers (departed (issued s) s.cur ck c) ck s.cur := by
  refine leaveCohort_eq ?_ ((getCohort_congr (cohorts_issued s) ck).trans hc)
  rw [getTeam_issued, if_pos rfl, issuedTm_keeps Team.cohort s fun _ => rfl, hcoh]

theorem getTeam_departed_issued (s : State) (ck : Nat) (c : Cohort) :
    (departed (issued s) s.cur ck c).getTeam s.cur = (issuedTm s).left := by
  rw [getTeam_departed, getTeam_issued, if_pos rfl]

theorem cur_departed (s : State) (u ck : Nat) (c : Cohort) : (departed s u ck c).cur = s.cur := rfl
theorem mem_departed (s : State) (u ck : Nat) (c : Cohort) : (departed s u ck c).mem = s.mem := rfl
theorem engines_departed (s : State) (u ck : Nat) (c : Cohort) : (departed s u ck c).engines = s.engines := rfl
theorem mirrors_departed (s : State) (u ck : Nat) (c : Cohort) :
    (departed s u ck c).mirrors = withoutTarget u s.mirrors := rfl

theorem mirrors_issued (s : State) : (issued s).mirrors = s.mirrors := rfl
theorem engines_issued (s : State) : (issued s).engines = s.engines := rfl
theorem mem_issued (s : State) : (issued s).mem = s.mem := rfl

/-- What is no team is as it was when the current team has changed. -/
theorem modTm_keeps {γ : Type} (g : State → γ) (X : State) (f : Team → Team)
    (hg : ∀ (s : State) m, g { s with teams := m } = g s) : g (X.modTm f) = g X := by
  obtain ⟨m, hm⟩ := modTm_eq_teams X f
  rw [hm, hg]

/-- The cohort goes on without the team (R73). -/
theorem leave_others (h : Issues .leave s) (hcoh : s.tm.cohort = some ck) (hc : getCohort s ck = some c)
    (hothers : ∃ m ∈ c.members, m.2 ≠ s.cur) : ∃ t, exec .leave s = .next t ∧ HasLeft s t ∧
      ∃ c', getCohort t ck = some c' ∧ c'.members = c.others s.cur := by
  obtain ⟨m, hm, hne⟩ := hothers
  have hmem : m ∈ c.others s.cur := List.mem_filter.mpr ⟨hm, bne_iff_ne.mpr hne⟩
  have hempty : ¬(c.others s.cur).isEmpty = true := by
    rw [List.isEmpty_iff]
    exact List.ne_nil_of_mem hmem
  have hview := view_leaveBarriers (noMember_departed (issued s) s.cur ck c) s.cur
  simp only [State.view, Prod.mk.injEq, getTeam_departed_issued, cur_departed, mirrors_departed, getCohort_departed,
    Option.map_some] at hview
  obtain ⟨hcur, hmirrors, hteam, hcohort⟩ := hview
  obtain ⟨c', hc', hmembers⟩ := Option.map_eq_some_iff.mp hcohort
  refine ⟨_, exec_leave h, ?_⟩
  rw [leaveCohort_issued hcoh hc, if_neg hempty]
  rw [getCohort_congr (modTm_keeps State.cohorts _ _ fun _ _ => rfl)]
  refine ⟨hasLeft ?_ (hmirrors.trans (by rw [mirrors_issued])), c', hc', hmembers⟩
  rw [State.tm, hcur]
  exact hteam

theorem others_eq_nil (hall : ∀ m ∈ c.members, m.2 = s.cur) : c.others s.cur = [] :=
  List.filter_eq_nil_iff.mpr fun m hm => by simp [hall m hm]

theorem empty_departed (s : State) (ck : Nat) {u : Nat} (hnil : c.others u = []) : Deserted ck (departed s u ck c) := by
  intro c' hc'
  rw [getCohort_departed, Option.some.injEq] at hc'
  exact hc' ▸ hnil

/-- The last member has left: the cohort is dissolved, at once or when the stamps of its streams are written (R73). -/
theorem leave_last (h : Issues .leave s) (hcoh : s.tm.cohort = some ck) (hc : getCohort s ck = some c)
    (hall : ∀ m ∈ c.members, m.2 = s.cur) :
    exec .leave s = .next ((endCohort (departed (issued s) s.cur ck c) ck).modTm Team.finish) := by
  rw [exec_leave h, leaveCohort_issued hcoh hc, if_pos (List.isEmpty_iff.mpr (others_eq_nil hall))]

theorem stampsLeft_departed (s : State) (u ck : Nat) (c : Cohort) :
    stampsLeft (departed (issued s) u ck c) ck = stampsLeft s ck := by
  rw [stampsLeft, engines_departed, engines_issued, stampsLeft]

theorem hasLeft_of_offCohorts {X : State} (hX : X.offCohorts = (departed (issued s) s.cur ck c).offCohorts) :
    HasLeft s (X.modTm Team.finish) ∧ (X.modTm Team.finish).mem = s.mem := by
  have hkeep : ∀ {γ : Type} (g : State → γ), (∀ s : State, g s = g s.offCohorts) →
      g X = g (departed (issued s) s.cur ck c) := by
    intro γ g hg
    rw [hg, hX, ← hg]
  refine ⟨hasLeft ?_ ?_, ?_⟩
  · rw [State.tm, hkeep State.cur fun _ => rfl, cur_departed, issued_cur, getTeam_congr (hkeep State.teams fun _ => rfl),
      getTeam_departed_issued]
  · rw [hkeep State.mirrors fun _ => rfl, mirrors_departed, mirrors_issued]
  · rw [modTm_keeps State.mem _ _ fun _ _ => rfl, hkeep State.mem fun _ => rfl, mem_departed, mem_issued]

/-- No stamps are to be written: the streams are detached and the id is free. -/
theorem leave_dissolves (h : Issues .leave s) (hcoh : s.tm.cohort = some ck) (hc : getCohort s ck = some c)
    (hall : ∀ m ∈ c.members, m.2 = s.cur) (hstamps : stampsLeft s ck = false) :
    ∃ t, exec .leave s = .next t ∧ HasLeft s t ∧ t.mem = s.mem ∧ getCohort t ck = none ∧
      ∀ core, findStream t core ck = none := by
  have hempty := empty_departed (issued s) ck (others_eq_nil hall)
  have hend : endCohort (departed (issued s) s.cur ck c) ck =
      freeId (detachAll (departed (issued s) s.cur ck c) ck) ck :=
    endCohort_free ((stampsLeft_departed s s.cur ck c).trans hstamps)
  obtain ⟨hleft, hmem⟩ := hasLeft_of_offCohorts (X := endCohort (departed (issued s) s.cur ck c) ck)
    (by rw [hend, offCohorts_freeId, offCohorts_detachAll hempty])
  refine ⟨_, leave_last h hcoh hc hall, hleft, hmem, ?_, fun core => ?_⟩
  · rw [getCohort_congr (modTm_keeps State.cohorts _ _ fun _ _ => rfl), hend, getCohort_freeId]
  · rw [findStream_congr (modTm_keeps State.engines _ _ fun _ _ => rfl), hend, findStream_congr (engines_freeId ..),
      findStream_detachAll hempty]

/-- Stamps are to be written: the cohort keeps its id and its streams stand still (log entry 111). -/
theorem leave_waits (h : Issues .leave s) (hcoh : s.tm.cohort = some ck) (hc : getCohort s ck = some c)
    (hall : ∀ m ∈ c.members, m.2 = s.cur) (hstamps : stampsLeft s ck = true) :
    ∃ t, exec .leave s = .next t ∧ HasLeft s t ∧ t.mem = s.mem ∧ (∃ c', getCohort t ck = some c' ∧ c'.members = []) ∧
      ∀ core x, findStream t core ck = some x → (x.state = .parked ∨ x.state = .saved) ∧ x.mma = none ∧
        x.msta = none ∧ x.mwbs = [] := by
  have hend : endCohort (departed (issued s) s.cur ck c) ck = standStill (departed (issued s) s.cur ck c) ck :=
    endCohort_stamps ((stampsLeft_departed s s.cur ck c).trans hstamps)
  obtain ⟨hleft, hmem⟩ := hasLeft_of_offCohorts (X := endCohort (departed (issued s) s.cur ck c) ck)
    (by rw [hend, offCohorts_standStill])
  refine ⟨_, leave_last h hcoh hc hall, hleft, hmem, ?_, fun core x hx => ?_⟩
  · rw [getCohort_congr (modTm_keeps State.cohorts _ _ fun _ _ => rfl), hend, getCohort_congr (cohorts_standStill ..)]
    exact ⟨_, getCohort_departed .., others_eq_nil hall⟩
  · rw [findStream_congr (modTm_keeps State.engines _ _ fun _ _ => rfl), hend] at hx
    obtain ⟨y, rfl⟩ := findStream_standStill hx
    exact dissolved_rests y

end

end Sys2Proof.Machine
end

section
/-! PROOF. COHQ, and the cohort words (O45). -/

open Sys2Proof Sys2Proof.Machine Sys2Proof.Safety Sys2Proof.Statements
namespace Sys2Proof.Machine

/-! ### COHQ -/

/-- The number whose binary form is the word of Table 20-4. -/
def cohqSum (ph arr torn err len idx id : Nat) : Nat :=
  ph * 2 ^ 48 + arr * 2 ^ 32 + torn * 2 ^ 31 + err * 2 ^ 30 + 2 ^ 29 + len * 2 ^ 22 + idx * 2 ^ 16 + id

theorem extract_ofNat (n lo w : Nat) (hlo : lo + w ≤ 64) {x : Nat} (h : n / 2 ^ lo % 2 ^ w = x) :
    (BitVec.ofNat 64 n).extractLsb' lo w = BitVec.ofNat w x := by
  apply BitVec.eq_of_getLsbD_eq
  intro i hi
  have hi' : lo + i < 64 := by omega
  rw [BitVec.getLsbD_extractLsb', BitVec.getLsbD_ofNat, BitVec.getLsbD_ofNat, ← h, Nat.testBit_mod_two_pow,
    Nat.testBit_div_two_pow, Nat.add_comm i lo]
  simp [hi, hi']

theorem getLsbD_ofNat_eq (n k : Nat) (hk : k < 64) {x : Bool} (h : n / 2 ^ k % 2 = x.toNat) :
    (BitVec.ofNat 64 n).getLsbD k = x := by
  rw [BitVec.getLsbD_ofNat, Nat.testBit_eq_decide_div_mod_eq, h]
  cases x <;> simp [hk]

section
variable {ph arr torn err len idx id : Nat}

theorem cohqSum_fields (harr : arr < 65536) (hph : ph < 65536) (ht : torn < 2) (he : err < 2) (hlen : len < 128)
    (hidx : idx < 64) (hid : id < 65536) :
    cohqSum ph arr torn err len idx id / 2 ^ 48 % 2 ^ 16 = ph ∧
    cohqSum ph arr torn err len idx id / 2 ^ 32 % 2 ^ 16 = arr ∧
    cohqSum ph arr torn err len idx id / 2 ^ 31 % 2 = torn ∧ cohqSum ph arr torn err len idx id / 2 ^ 30 % 2 = err ∧
    cohqSum ph arr torn err len idx id / 2 ^ 29 % 2 = 1 ∧ cohqSum ph arr torn err len idx id / 2 ^ 22 % 2 ^ 7 = len ∧
    cohqSum ph arr torn err len idx id / 2 ^ 16 % 2 ^ 6 = idx ∧
    cohqSum ph arr torn err len idx id / 2 ^ 0 % 2 ^ 16 = id := by
  unfold cohqSum
  omega
end

theorem cohqWord_none {s : State} {t : Team} (h : t.cohort = none) (b : Nat) : cohqWord s t b = 0xFFFF := by
  rw [cohqWord, h]

theorem cohqWord_member {s : State} {t : Team} {ck : Nat} {c : Cohort} (h : t.cohort = some ck)
    (hc : getCohort s ck = some c) (b : Nat) : cohqWord s t b = BitVec.ofNat 64 (cohqSum (c.bar b).ph.toNat
      (sget 0 t.arr b).toNat (c.bar b).torn.toNat (c.bar b).streamErr.toNat c.members.length t.memberIdx c.id) := by
  unfold cohqWord
  rw [h]
  dsimp only
  rw [hc]
  dsimp only
  rw [cohqSum]
  cases (c.bar b).torn <;> cases (c.bar b).streamErr <;> simp

/-- The fields of COHQ's word (Table 20-4). -/
theorem cohqWord_fields {s : State} {t : Team} {ck : Nat} {c : Cohort} (h : t.cohort = some ck)
    (hc : getCohort s ck = some c) (b : Nat) (hlen : c.members.length < 128) (hidx : t.memberIdx < 64)
    (hid : c.id < 65536) :
    let w := cohqWord s t b
    w.extractLsb' 48 16 = (c.bar b).ph ∧ w.extractLsb' 32 16 = sget 0 t.arr b ∧ w.getLsbD 31 = (c.bar b).torn ∧
      w.getLsbD 30 = (c.bar b).streamErr ∧ w.getLsbD 29 = true ∧
      w.extractLsb' 22 7 = BitVec.ofNat 7 c.members.length ∧ w.extractLsb' 16 6 = BitVec.ofNat 6 t.memberIdx ∧
      w.extractLsb' 0 16 = BitVec.ofNat 16 c.id := by
  obtain ⟨hph, harr, ht, he, hone, hl, hi, hd⟩ := cohqSum_fields (sget 0 t.arr b).isLt (c.bar b).ph.isLt
    (c.bar b).torn.toNat_lt (c.bar b).streamErr.toNat_lt hlen hidx hid
  dsimp only
  rw [cohqWord_member h hc]
  refine ⟨(extract_ofNat _ _ _ (by decide) hph).trans (by simp), (extract_ofNat _ _ _ (by decide) harr).trans (by simp),
    getLsbD_ofNat_eq _ _ (by decide) ht, getLsbD_ofNat_eq _ _ (by decide) he, getLsbD_ofNat_eq _ _ (by decide) hone,
    extract_ofNat _ _ _ (by decide) hl, extract_ofNat _ _ _ (by decide) hi, extract_ofNat _ _ _ (by decide) hd⟩

theorem cohqWord_issued (s : State) (b : Nat) : cohqWord (issued s) (issuedTm s) b = cohqWord s s.tm b := by
  have hcohort : (issuedTm s).cohort = s.tm.cohort := issuedTm_keeps Team.cohort s fun _ => rfl
  have harr : (issuedTm s).arr = s.tm.arr := issuedTm_keeps Team.arr s fun _ => rfl
  have hidx : (issuedTm s).memberIdx = s.tm.memberIdx := issuedTm_keeps Team.memberIdx s fun _ => rfl
  unfold cohqWord getCohort
  rw [hcohort, harr, hidx, cohorts_issued]

theorem exec_cohq {s : State} {sd : SReg} {b : BReg} (h : Issues (.cohq sd b) s) : exec (.cohq sd b) s =
    .next ((issued s).setTm ((issuedTm s).swrite sd.val (cohqWord s s.tm b.val)).finish) := by
  have he : exec (.cohq sd b) s = .next ((issued s).setTm (((issued s).tm.swrite sd.val
      (cohqWord (issued s) (issued s).tm b.val)).finish)) := issue_eq _ s
    (fun s => s.modTm fun t => (t.swrite sd.val (cohqWord s t b.val)).finish) h
  rw [he, issued_tm, cohqWord_issued]

/-- A word that writes one scalar of the team. -/
theorem onlyDest_swrite (s : State) (n : SReg) (x : DWord) :
    OnlyDest s ((issued s).setTm ((issuedTm s).swrite n.val x).finish) (.s n) 1 := by
  refine ⟨onlyTeam_of s _ ((finish_rest _).trans (issuedTm_rest s)), ?_, ?_, ?_, fun m hm => ?_⟩
  · rw [tm_setTm, finish_p]
    exact issuedTm_p s
  · rw [tm_setTm, finish_fpflags]
    exact issuedTm_fpflags s
  · rw [tm_setTm, finish_v]
    exact issuedTm_v s
  · rw [tm_setTm, finish_s, sget_s_swrite, if_neg hm, issuedTm_s]

theorem cohq_reports {s : State} {sd : SReg} {b : BReg} (h : Issues (.cohq sd b) s) :
    ∃ t, exec (.cohq sd b) s = .next t ∧ OnlyDest s t (.s sd) 1 ∧ t.tm.pc = s.tm.finish.pc ∧
      sget 0 t.tm.s sd.val = cohqWord s s.tm b.val := by
  refine ⟨_, exec_cohq h, onlyDest_swrite s sd _, ?_, ?_⟩
  · rw [tm_setTm, finish_pc, finish_pc]
    exact issuedTm_nextPc s
  · rw [tm_setTm, finish_s, sget_s_swrite, if_pos rfl]

/-! ### The cohort words -/

/-- LEAVE of a member: the cohort goes on with its other members, or is dissolved (R73). -/
theorem leave_member {s : State} {ck : Nat} {c : Cohort} (h : Issues .leave s) (hcoh : s.tm.cohort = some ck)
    (hc : getCohort s ck = some c) :
    ∃ t, exec .leave s = .next t ∧ HasLeft s t ∧
      ((∃ m ∈ c.members, m.2 ≠ s.cur) → ∃ c', getCohort t ck = some c' ∧ c'.members = c.others s.cur) ∧
      ((∀ m ∈ c.members, m.2 = s.cur) → t.mem = s.mem ∧
        (stampsLeft s ck = false → getCohort t ck = none ∧ ∀ core, findStream t core ck = none) ∧
        (stampsLeft s ck = true → (∃ c', getCohort t ck = some c' ∧ c'.members = []) ∧
          ∀ core x, findStream t core ck = some x → (x.state = .parked ∨ x.state = .saved) ∧ x.mma = none ∧
            x.msta = none ∧ x.mwbs = [])) := by
  by_cases hall : ∀ m ∈ c.members, m.2 = s.cur
  · have hno : ¬∃ m ∈ c.members, m.2 ≠ s.cur := fun ⟨m, hm, hne⟩ => hne (hall m hm)
    cases hstamps : stampsLeft s ck with
    | false =>
      obtain ⟨t, he, hleft, hmem, hgone, hstreams⟩ := leave_dissolves h hcoh hc hall hstamps
      exact ⟨t, he, hleft, fun hx => absurd hx hno, fun _ => ⟨hmem, fun _ => ⟨hgone, hstreams⟩, Bool.noConfusion⟩⟩
    | true =>
      obtain ⟨t, he, hleft, hmem, hkept, hstreams⟩ := leave_waits h hcoh hc hall hstamps
      exact ⟨t, he, hleft, fun hx => absurd hx hno, fun _ => ⟨hmem, Bool.noConfusion, fun _ => ⟨hkept, hstreams⟩⟩⟩
  · obtain ⟨t, he, hleft, hothers⟩ := leave_others h hcoh hc (by simpa using hall)
    exact ⟨t, he, hleft, fun _ => hothers, fun hx => absurd hx hall⟩

/-- Settles O45: JOIN by the codes of joinStatus; LEAVE by what the barriers that go on keep of a team that is no member
(view_leaveBarriers), and by what a cohort without members leaves as it was (leaveBarriers_empty); COHQ by the fields of its
word. -/
theorem cohortWordsJoinLeaveAndReport : Obligations.CohortWordsJoinLeaveAndReport := by
  refine ⟨fun s sa w st h huid => ⟨fun hin => ?_, fun c hno hc hm hready => join_waits h hno hc hm hready,
    fun hno hd hbad => ?_, fun c hno hid hc hm hw => ⟨fun hdp => ?_, fun hdp hlen => ?_, fun hdp hlen =>
      join_takesIndex h huid hno hid hc hm hw hdp hlen⟩, fun hno hid hc => ⟨fun hfull => ?_, fun hroom =>
      join_opensPhases h huid hno hid hc hroom⟩⟩, fun s h hno => leave_outside h hno, fun s ck c h hcoh hc => ?_,
    fun s sd b h => ?_⟩
  · exact join_fails h (fun hno => absurd hno hin) (joinStatus_member hin ..) (by decide)
  · exact join_fails h (fun _ => hd) (joinStatus_refused hno hbad) (by decide)
  · have hv := joinStatus_found hno hid hc hw
    rw [if_pos hdp] at hv
    exact join_fails h (fun _ c' hc' => Option.some.inj (hc.symm.trans hc') ▸ hm) hv (by decide)
  · have hv := joinStatus_found hno hid hc hw
    rw [if_neg (not_not.mpr hdp), if_pos hlen] at hv
    exact join_fails h (fun _ c' hc' => Option.some.inj (hc.symm.trans hc') ▸ hm) hv (by decide)
  · have hv := joinStatus_new (w := w.val) hno hid hc
    rw [cohortCap, if_pos hfull] at hv
    exact join_fails h (fun _ c' hc' => by cases hc.symm.trans hc') hv (by decide)
  · obtain ⟨t, he, ⟨hpc, hcohort, hwindow, hsize, hs, hmirrors⟩, hothers, hlast⟩ := leave_member h hcoh hc
    refine ⟨t, he, hpc, hcohort, hwindow, hsize, hs, hmirrors, hothers, fun hall => ?_⟩
    obtain ⟨hmem, hfree, hkept⟩ := hlast hall
    exact ⟨hmem, fun hstamps => ⟨(hfree hstamps).1, fun _ => (hfree hstamps).2⟩, hkept⟩
  · obtain ⟨t, he, honly, hpc, hw⟩ := cohq_reports h
    exact ⟨t, _, he, honly, hpc, hw, fun hno => cohqWord_none hno _, fun ck c hcoh hc hlen hidx hid =>
      cohqWord_fields hcoh hc b.val hlen hidx hid⟩

end Sys2Proof.Machine
end

section
/-! PROOF. A team that is HALTED at a word whose lane meets an absent page (O31, O32, O34). -/

open Sys2Proof Sys2Proof.Machine Sys2Proof.Safety Sys2Proof.Statements
namespace Sys2Proof.Machine

/-! ### The machine -/

/-- A machine whose current team has one lane, which is active, and is HALTED. Its context maps no page; its core has asked
for page 0, to read and to write it. -/
def haltedAtAccess : State :=
  { State.reset with
    teams := [(0, { Team.blank with state := .halted, lanes := 1, nreg := 6, full := 1, active := 1 })]
    reqs := [⟨0, 0, 0, [], 0, .read, none, false, false⟩, ⟨1, 0, 0, [], 0, .write, none, false, false⟩]
    nextReq := 2 }

/-- The address in v0, which is 0 in `haltedAtAccess`. -/
def atV0 : MemOp := ⟨.v 0, .zero, false⟩

/-- The word runs and leaves the team of `haltedAtAccess` HALTED: its wait stands behind the halt (Table 4-6). -/
def staysHalted (i : Instr) : Bool :=
  match exec i haltedAtAccess with
  | .next t => t.tm.state == .halted
  | _ => false

theorem halted_of_staysHalted {i : Instr} {t : State} (hstays : staysHalted i = true)
    (ht : exec i haltedAtAccess = .next t) : t.tm.state = .halted := by
  rw [staysHalted, ht] at hstays
  exact eq_of_beq hstays

/-- By the statement the fault of a page leaves the team PARKED (R272), which a HALTED team is not. -/
theorem not_faultsTaken_halted {s x t : State} {once : Bool} {l p : Nat} {k : ReqKind}
    (ht : t.tm.state = .halted) : ¬ FaultsTaken s x t once [(l, .page p k)] := by
  rintro ⟨-, hpages⟩
  obtain ⟨hparked, -⟩ := hpages ⟨_, List.mem_singleton_self _, rfl⟩ (by simp)
  rw [ht] at hparked
  cases hparked

/-- A word of which a lane meets an absent page and that leaves the team HALTED does not take its faults as the statement
says. -/
theorem not_faultsTaken_of_staysHalted {i : Instr} {x : State} {once : Bool} {fs : List (Nat × LaneFault)} {l p : Nat}
    {k : ReqKind} (hstays : staysHalted i = true) (hfs : fs = [(l, .page p k)]) :
    ¬ (fs ≠ [] → ∃ t, exec i haltedAtAccess = .next t ∧ FaultsTaken haltedAtAccess x t once fs) := by
  subst hfs
  intro h
  obtain ⟨t, ht, htaken⟩ := h (List.cons_ne_nil _ _)
  exact not_faultsTaken_halted (halted_of_staysHalted hstays ht) htaken

/-! ### Loads -/

theorem issues_ldW_haltedAtAccess : Issues (.ldW (.v 0) atV0 0) haltedAtAccess := by
  unfold Issues Due
  decide +kernel

theorem staysHalted_ldW : staysHalted (.ldW (.v 0) atV0 0) = true := by
  decide +kernel

/-- The lane of LD.w meets the absent page 0; nothing (id) comes before the load. -/
theorem faults_ldW_haltedAtAccess :
    let b := id (issued haltedAtAccess)
    (loadLanes b.tm .plain true false 4 atV0 (b.tm.memLanes (.v 0)) b).2.2 = [(0, .page 0 .read)] := by
  decide +kernel

/-- Refutes O31: where a lane waits for a page the statement asks that the team be PARKED, and does not ask that it was
READY. A HALTED team keeps its halt, and its wait stands behind it (Table 4-6). -/
theorem not_loadWordsComplete : ¬ Obligations.LoadWordsComplete := by
  unfold Obligations.LoadWordsComplete
  rintro ⟨hloads, -⟩
  obtain ⟨-, -, -, -, -, -, -, hldW, -⟩ := hloads (.v 0) atV0 0
  exact not_faultsTaken_of_staysHalted staysHalted_ldW faults_ldW_haltedAtAccess
    (hldW haltedAtAccess issues_ldW_haltedAtAccess)

/-! ### Stores -/

theorem issues_stW_haltedAtAccess : Issues (.stW (.v 0) atV0 0) haltedAtAccess := by
  unfold Issues Due
  decide +kernel

theorem staysHalted_stW : staysHalted (.stW (.v 0) atV0 0) = true := by
  decide +kernel

/-- The lane of ST.w meets the absent page 0. -/
theorem faults_stW_haltedAtAccess :
    let b := issued haltedAtAccess
    (eachLane (b.tm.memLanes (.v 0)) (fun s l =>
      if false && (memAddr b.tm atV0 l).toNat % 4 != 0 then (.error [.code 0x07], s)
      else storeLane b.tm (.v 0) .plain true true 4 (memAddr b.tm atV0 l) s l) b).2.2 = [(0, .page 0 .write)] := by
  decide +kernel

/-- Refutes O32, as O31: a HALTED team whose store meets an absent page keeps its halt. -/
theorem not_storeWordsComplete : ¬ Obligations.StoreWordsComplete := by
  unfold Obligations.StoreWordsComplete
  rintro ⟨hstores, -⟩
  obtain ⟨-, -, -, -, -, -, -, hstW, -⟩ := hstores (.v 0) atV0 0
  exact not_faultsTaken_of_staysHalted staysHalted_stW faults_stW_haltedAtAccess
    (hstW haltedAtAccess (issued haltedAtAccess) issues_stW_haltedAtAccess rfl)

/-! ### Atomics -/

theorem issues_red_haltedAtAccess : Issues (.red .add 0 atV0) haltedAtAccess := by
  unfold Issues Due
  decide +kernel

theorem staysHalted_red : staysHalted (.red .add 0 atV0) = true := by
  decide +kernel

/-- The lane of RED.add meets the absent page 0. -/
theorem faults_red_haltedAtAccess :
    (eachLane haltedAtAccess.tm.wordLanes (atomLane (issued haltedAtAccess).tm .red .add (0 : VReg).val atV0)
      (issued haltedAtAccess)).2.2 = [(0, .page 0 .write)] := by
  decide +kernel

/-- Refutes O34, as O31: a HALTED team whose RED meets an absent page keeps its halt. -/
theorem not_atomicWordsReadAndWriteOnce : ¬ Obligations.AtomicWordsReadAndWriteOnce := by
  unfold Obligations.AtomicWordsReadAndWriteOnce
  rintro ⟨-, hfaults, -⟩
  obtain ⟨-, hred⟩ :=
    hfaults haltedAtAccess .add 0 atV0 .red (.red .add 0 atV0) (.inr ⟨rfl, rfl⟩) issues_red_haltedAtAccess
  exact not_faultsTaken_of_staysHalted staysHalted_red faults_red_haltedAtAccess hred

end Sys2Proof.Machine
end

section
/-! SUPPORT. What the barriers of a cohort change of its streams, and of a team that waits for nothing (R75, R126). -/

open Sys2Proof Sys2Proof.Machine Sys2Proof.Safety Sys2Proof.Statements
namespace Sys2Proof.Machine

variable {s t : State} {core ck b : Nat} {x : Stream}

/-! ### The stream of a core and a cohort -/

theorem cohort_of_findStream (hx : findStream s core ck = some x) : x.cohort = ck := by
  simpa using List.find?_some hx

/-- An update of the streams of a cohort on one core. -/
theorem map_findStream_modStream (s : State) (core k ck : Nat) {f : Stream → Stream} (hf : ∀ y, (f y).cohort = y.cohort) :
    findStream (modStream s core ck f) k ck = if k = core then (findStream s k ck).map f else findStream s k ck := by
  by_cases hk : k = core
  · subst hk
    rw [if_pos rfl]
    cases hx : findStream s k ck with
    | some x => exact findStream_modStream hx hf
    | none =>
      have hall := List.find?_eq_none.mp hx
      rw [modStream, findStream_setEngine, if_pos rfl]
      refine List.find?_eq_none.mpr fun y hy => ?_
      obtain ⟨z, hz, rfl⟩ := List.mem_map.mp hy
      rw [if_neg (hall z hz)]
      exact hall z hz
  · rw [if_neg hk, modStream, findStream_setEngine, if_neg hk]

/-- What an update leaves alone of every stream, it leaves alone of the stream of a core. -/
theorem findStream_modStream_keeps {γ : Type} (g : Stream → γ) (s : State) (core k ck : Nat) {f : Stream → Stream}
    (hf : ∀ y, (f y).cohort = y.cohort) (hg : ∀ y, g (f y) = g y) :
    (findStream (modStream s core ck f) k ck).map g = (findStream s k ck).map g := by
  rw [map_findStream_modStream s core k ck hf]
  split
  · rw [Option.map_map]
    exact congrArg (fun h => (findStream s k ck).map h) (funext hg)
  · rfl

theorem exists_of_map_findStream {γ : Type} {g : Stream → γ} (hx : findStream s core ck = some x)
    (h : (findStream t core ck).map g = (findStream s core ck).map g) :
    ∃ y, findStream t core ck = some y ∧ g y = g x := by
  rw [hx, Option.map_some] at h
  exact Option.map_eq_some_iff.mp h

/-! ### What an operation of the barriers keeps -/

/-- What the opening of a phase and the serving of those who wait keep, the completing of phases keeps. -/
theorem settleBarrier_keeps {P : State → Prop}
    (hopen : ∀ s c y, getCohort s ck = some c → P s → P (setCohort s ck (c.setBar b y)))
    (hteam : ∀ s u, P s → P (serveTeam ck b s u)) (hstream : ∀ s k, P s → P (serveStream ck b s k)) (n : Nat)
    (h : P s) : P (settleBarrier ck b n s) := by
  induction n generalizing s with
  | zero => exact h
  | succ n ih =>
    cases hc : getCohort s ck with
    | none => simpa [settleBarrier, hc] using h
    | some c =>
      by_cases hgo : (c.bar b).done = true ∧ c.members ≠ []
      · rw [settleBarrier_done hc hgo.1 hgo.2]
        refine ih (foldl_keeps P _ _ _ (foldl_keeps P _ _ _ (hopen s c _ hc h) ?_) ?_)
        · exact fun s u _ => hteam s u
        · exact fun s k _ => hstream s k
      · have hstop : (!(c.bar b).done || c.members.isEmpty) = true := by
          by_contra hx
          exact hgo (by simpa using hx)
        simpa [settleBarrier, hc, hstop] using h

/-- So does the leaving of a participant. -/
theorem leaveBarriers_keeps {P : State → Prop}
    (hopen : ∀ s c b y, getCohort s ck = some c → P s → P (setCohort s ck (c.setBar b y)))
    (hteam : ∀ s b u, P s → P (serveTeam ck b s u)) (hstream : ∀ s b k, P s → P (serveStream ck b s k)) (id : Nat)
    (h : P s) : P (leaveBarriers s ck id) := by
  rw [leaveBarriers_eq]
  refine foldl_keeps P _ _ s h fun t b _ ht => ?_
  unfold leaveBarrier
  split
  · exact ht
  · next c hc =>
    exact settleBarrier_keeps (fun s c y => hopen s c b y) (fun s u => hteam s b u) (fun s k => hstream s b k) _
      (hopen t c b _ hc ht)

/-! ### A team that waits for nothing -/

theorem serveTeam_idle {u : Nat} (h : (s.getTeam u).wait = .none) (b : Nat) : serveTeam ck b s u = s := by
  unfold serveTeam
  split
  · rfl
  · dsimp only
    rw [h]

theorem view_serveTeam_idle {u : Nat} (h : (s.getTeam u).wait = .none) (b w : Nat) :
    (serveTeam ck b s w).view u ck = s.view u ck := by
  by_cases hw : w = u
  · rw [hw, serveTeam_idle h]
  · exact view_serveTeam hw b

theorem cur_of_view {u : Nat} (h : t.view u ck = s.view u ck) : t.cur = s.cur := congrArg Prod.fst h

theorem blind_of_view {u : Nat} (h : t.view u ck = s.view u ck) : (t.getTeam u).blind = (s.getTeam u).blind :=
  congrArg (fun v => v.2.2.1) h

theorem wait_of_view {u : Nat} (h : t.view u ck = s.view u ck) : (t.getTeam u).wait = (s.getTeam u).wait :=
  eq_of_blind Team.wait (blind_of_view h) fun _ => rfl

/-- The team is as it was when another participant has left the barriers, apart from a WAITV's re-reads. -/
theorem view_leaveBarriers_idle {u : Nat} (h : (s.getTeam u).wait = .none) (id : Nat) :
    (leaveBarriers s ck id).view u ck = s.view u ck :=
  leaveBarriers_keeps (P := fun t => t.view u ck = s.view u ck)
    (fun _ c b y hc ht => (view_setCohort (c' := c.setBar b y) hc rfl).trans ht)
    (fun _ b w ht => (view_serveTeam_idle ((wait_of_view ht).trans h) b w).trans ht)
    (fun _ b k ht => (view_serveStream b k).trans ht) id rfl

/-! ### Streams -/

/-- The stream apart from what barriers change of it: the phases of its arrivals, its wait, and the states that a wait
holds. -/
def Stream.apart (x : Stream) : Stream :=
  { x with arr := [], wait := .none, savedFrom := .running, state := if x.state = .parked then .running else x.state }

theorem unpark_apart (x : Stream) : x.unpark.apart = x.apart := by
  rcases hx : x.state <;> simp [Stream.unpark, Stream.apart, hx]

theorem passed_apart (x : Stream) : x.passed.apart = x.apart := by
  unfold Stream.passed
  split
  · exact unpark_apart x
  · rfl

theorem cohort_of_apart {x y : Stream} (h : x.apart = y.apart) : x.cohort = y.cohort := by
  have hc := congrArg Stream.cohort h
  exact hc

/-- A stream in ERROR stays there. -/
theorem error_of_apart {x y : Stream} (h : x.apart = y.apart) (hy : y.state = .error) : x.state = .error := by
  have hst := congrArg Stream.state h
  simp only [Stream.apart, hy] at hst
  split at hst
  · cases hst
  · exact hst

/-- A stream that arrives at barrier b in phase ph, and goes on or waits for the phase (R124). -/
def Stream.arriveAt (b : Nat) (ph : BitVec 16) (thenWait : Bool) (x : Stream) : Stream :=
  let x := { x with arr := sset 0 x.arr b (ph + 1) }
  if thenWait then { x with wait := .barWait b } else x.passed

theorem arriveAt_apart (b : Nat) (ph : BitVec 16) (w : Bool) (x : Stream) : (x.arriveAt b ph w).apart = x.apart := by
  cases w
  · exact passed_apart _
  · rfl

/-- What the opening of a phase does for the stream of a core: nothing, an arrival, or the end of its wait. -/
theorem serveStream_cases (ck b : Nat) (s : State) (k : Nat) : serveStream ck b s k = s ∨
    ∃ t f, t.engines = s.engines ∧ serveStream ck b s k = modStream t k ck f ∧ ∀ y : Stream, (f y).apart = y.apart := by
  unfold serveStream
  split
  · next c i x _ _ =>
    dsimp only
    split
    · next j w _ =>
      split
      · exact .inr ⟨setCohort s ck (countArrival c b (streamId k)), Stream.arriveAt b (c.bar b).ph w, rfl, rfl,
          arriveAt_apart b (c.bar b).ph w⟩
      · exact .inl rfl
    · split
      · exact .inr ⟨s, _, rfl, rfl, passed_apart⟩
      · exact .inl rfl
    · exact .inl rfl
  · exact .inl rfl

theorem apart_serveStream (ck b : Nat) (s : State) (k core : Nat) :
    (findStream (serveStream ck b s k) core ck).map Stream.apart = (findStream s core ck).map Stream.apart := by
  rcases serveStream_cases ck b s k with h | ⟨t, f, ht, h, hf⟩
  · rw [h]
  · rw [h, findStream_modStream_keeps Stream.apart t k core ck (fun y => cohort_of_apart (hf y)) hf, findStream_congr ht]

theorem engines_teamArrives (s : State) (u ck b : Nat) : (teamArrives s u ck b).engines = s.engines := by
  unfold teamArrives
  dsimp only
  split
  · exact engines_releaseCore s u
  · exact engines_releaseCore s u

theorem engines_serveTeam (ck b : Nat) (s : State) (u : Nat) : (serveTeam ck b s u).engines = s.engines := by
  unfold serveTeam
  split
  · rfl
  · dsimp only
    split
    · split
      · split
        · exact engines_teamArrives s u ck b
        · exact engines_teamArrives s u ck b
      · rfl
    · split
      · exact engines_l1Acquire s _
      · rfl
    · rfl

/-- When a participant has left the barriers, every stream is as it was, apart from its arrivals and its wait. -/
theorem apart_leaveBarriers (s : State) (ck id core : Nat) :
    (findStream (leaveBarriers s ck id) core ck).map Stream.apart = (findStream s core ck).map Stream.apart :=
  leaveBarriers_keeps (P := fun t => (findStream t core ck).map Stream.apart = (findStream s core ck).map Stream.apart)
    (fun _ _ _ _ _ ht => ht)
    (fun t b u ht => by rw [findStream_congr (engines_serveTeam ck b t u), ht])
    (fun t b k ht => (apart_serveStream ck b t k core).trans ht) id rfl

end Sys2Proof.Machine
end

section
/-! SUPPORT. The accesses of streams (R112, R127, R197): what a check of some bytes and a write at the home slices leave as
it was. -/

open Sys2Proof Sys2Proof.Machine Sys2Proof.Safety Sys2Proof.Statements
namespace Sys2Proof.Machine

/-! ### The check of an access -/

section
variable {γ : Type} {g : State → γ}

/-- What each page's translation leaves alone, a translation of some bytes does. -/
theorem translateBytes_keeps
    (hpage : ∀ s core tlbs ctx va n k, g (onePage s core tlbs ctx va n k).2 = g s) (s : State) (core : Nat)
    (tlbs : List TlbId) (ctx : Nat) (va : DWord) (n : Nat) (k : ReqKind) :
    g (translateBytes s core tlbs ctx va n k).2 = g s := by
  unfold translateBytes
  dsimp only
  split
  · exact hpage ..
  · exact (hpage ..).trans (hpage ..)

/-- So does the check of an engine's access, if a fetch at the home slices does. -/
theorem engineCheck_keeps
    (hpage : ∀ s core tlbs ctx va n k, g (onePage s core tlbs ctx va n k).2 = g s)
    (hfetch : ∀ s u pas, g (homeFetchAll s u pas) = g s) (s : State) (core : Nat) (tlbs : List TlbId) (ctx : Nat)
    (va : DWord) (n : Nat) (rd wr : Bool) : g (engineCheck s core tlbs ctx va n rd wr).2 = g s := by
  have ht := translateBytes_keeps hpage s core tlbs ctx va n (if wr then .write else .read)
  unfold engineCheck
  split
  · rfl
  · split
    · rfl
    · split <;> rename_i h <;> rw [h] at ht
      case h_6 =>
        split
        · exact ht
        · split
          case h_5 =>
            split
            · exact (hfetch ..).trans ht
            · exact ht
          all_goals exact ht
      all_goals exact ht

theorem checkParts_keeps
    (hpage : ∀ s core tlbs ctx va n k, g (onePage s core tlbs ctx va n k).2 = g s)
    (hfetch : ∀ s u pas, g (homeFetchAll s u pas) = g s) (s : State) (core ctx : Nat) (wr : Bool)
    (ps : List (DWord × Nat)) : g (checkParts s core ctx wr ps).2 = g s := by
  induction ps generalizing s with
  | nil => rfl
  | cons p r ih =>
    obtain ⟨va, n⟩ := p
    have hp := engineCheck_keeps hpage hfetch s core streamTlbs ctx va n (!wr) wr
    unfold checkParts
    split
    · next a s1 h =>
      rw [h] at hp
      have hr := (ih s1).trans hp
      split
      · next h1 => rwa [h1] at hr
      · exact hr
    · exact hp

end

/-! ### Outside the stores -/

theorem checkParts_still (s : State) (core ctx : Nat) (wr : Bool) (ps : List (DWord × Nat)) :
    (checkParts s core ctx wr ps).2.still = s.still :=
  checkParts_keeps onePage_still homeFetchAll_still s core ctx wr ps

theorem engineWrite_still (s : State) (core : Nat) (bs : List (Nat × Byte)) : (engineWrite s core bs).still = s.still :=
  still_of_outside (outside_engineWrite s core bs)

theorem cur_of_still {s t : State} (h : t.still = s.still) : t.cur = s.cur := by
  have hc := congrArg State.cur h
  exact hc

/-! ### Teams -/

/-- The teams, apart from what a WAITV's re-read changes (R171). -/
def State.blindTeams (s : State) : Nat → Team := fun u => (s.getTeam u).blind

theorem blindTeams_congr {s t : State} (h : t.teams = s.teams) : t.blindTeams = s.blindTeams :=
  funext fun u => congrArg Team.blind (getTeam_congr h u)

theorem blindTeams_observe (s : State) (c : Option Nat) (lines : List Nat) : (observe s c lines).blindTeams = s.blindTeams :=
  funext fun u => getTeam_observe_blind s c lines u

theorem blindTeams_homeWrite (s : State) (bs : List (Nat × Byte)) : (homeWrite s bs).blindTeams = s.blindTeams :=
  funext fun u => getTeam_homeWrite_blind s bs u

theorem blindTeams_collectBytes (s : State) (core : Nat) (bs : List (Nat × L1Byte)) :
    (collectBytes s core bs).blindTeams = s.blindTeams := by
  rw [collectBytes, blindTeams_congr (teams_dropBytes ..), writeBack, blindTeams_homeWrite,
    blindTeams_congr (teams_cleanBytes ..)]

theorem teams_bankAccess (s : State) (u w : Bool) (pa : Nat) : (bankAccess s u w pa).teams = s.teams := by
  unfold bankAccess
  split <;> rfl

theorem teams_writeSectors (s : State) (line : Nat) : (writeSectors s line).teams = s.teams := by
  unfold writeSectors
  dsimp only
  split
  · rfl
  · exact teams_bankAccess ..

theorem teams_homeFetch (s : State) (u : Bool) (pa : Nat) : (homeFetch s u pa).teams = s.teams := by
  unfold homeFetch
  dsimp only
  split
  · rfl
  · exact teams_bankAccess ..

theorem blindTeams_viewKey (s : State) (pa key : Nat) : (viewKey s pa key).blindTeams = s.blindTeams := by
  unfold viewKey
  dsimp only
  split
  · rfl
  · refine (blindTeams_congr ((l2Set_teams ..).trans (foldl_same State.teams _ _ _ fun _ _ _ => viewUnit_teams ..))).trans ?_
    rw [blindTeams_congr (teams_writeSectors ..), collectLine]
    exact foldl_same State.blindTeams _ _ _ fun _ _ _ => blindTeams_collectBytes ..

theorem blindTeams_walk (s : State) (table : Nat) (va : DWord) (levels : List Nat) :
    (walk s table va levels).2.blindTeams = s.blindTeams := by
  induction levels generalizing s table with
  | nil => rfl
  | cons level rest ih =>
    have hread : ∀ addr, (homeFetch (viewKey s addr 0) false addr).blindTeams = s.blindTeams := fun addr =>
      (blindTeams_congr (teams_homeFetch ..)).trans (blindTeams_viewKey ..)
    unfold walk
    dsimp only
    split
    · rfl
    · split
      · rfl
      · split
        · exact hread _
        · split
          · exact hread _
          · split
            · exact hread _
            · exact (ih _ _).trans (hread _)

theorem blindTeams_noteHeat (s : State) (addr : Nat) (w : Bool) : (noteHeat s addr w).blindTeams = s.blindTeams := by
  unfold noteHeat
  split
  · rfl
  · rw [heatAt, blindTeams_congr ((teams_memSetAll ..).trans (teams_markDirty ..)), blindTeams_viewKey]

theorem teams_fillTlbs (s : State) (core : Nat) (tlbs : List TlbId) (ctx base size : Nat) (e : DWord) (x : Xlat) :
    (fillTlbs s core tlbs ctx base size e x).teams = s.teams := by
  unfold fillTlbs
  split <;> rfl

theorem blindTeams_translate (s : State) (core : Nat) (tlbs : List TlbId) (ctx : Nat) (va : DWord) (k : ReqKind) :
    (translate s core tlbs ctx va k).2.blindTeams = s.blindTeams := by
  have hw := blindTeams_walk s (getCtx s ctx).root va [5, 4, 3, 2, 1]
  unfold translate walkFrom
  split
  · rfl
  · split
    · rfl
    · split <;> rename_i h <;> rw [h] at hw
      case h_5 =>
        dsimp only
        rw [blindTeams_congr (teams_fillTlbs ..), blindTeams_noteHeat]
        exact hw
      all_goals exact hw

theorem blindTeams_onePage (s : State) (core : Nat) (tlbs : List TlbId) (ctx : Nat) (va : DWord) (n : Nat) (k : ReqKind) :
    (onePage s core tlbs ctx va n k).2.blindTeams = s.blindTeams := by
  have ht := blindTeams_translate s core tlbs ctx va k
  unfold onePage
  split <;> rename_i h <;> rw [h] at ht
  case h_1 =>
    dsimp only
    split
    · exact (foldl_same State.blindTeams _ _ _ fun _ _ _ => blindTeams_viewKey ..).trans ht
    · exact ht
  all_goals exact ht

theorem blindTeams_checkParts (s : State) (core ctx : Nat) (wr : Bool) (ps : List (DWord × Nat)) :
    (checkParts s core ctx wr ps).2.blindTeams = s.blindTeams :=
  checkParts_keeps blindTeams_onePage
    (fun _ _ _ => foldl_same State.blindTeams _ _ _ fun _ _ _ => blindTeams_congr (teams_homeFetch ..)) s core ctx wr ps

theorem blindTeams_fillSector (s : State) (core pa : Nat) : (fillSector s core pa).blindTeams = s.blindTeams := by
  rw [fillSector, blindTeams_observe]
  refine blindTeams_congr ((foldl_same State.teams _ _ _ fun _ _ _ => ?_).trans rfl)
  unfold fillByte
  repeat' split
  all_goals rfl

theorem blindTeams_engineWrite (s : State) (core : Nat) (bs : List (Nat × Byte)) :
    (engineWrite s core bs).blindTeams = s.blindTeams := by
  rw [engineWrite, refetch, blindTeams_observe]
  refine (foldl_same State.blindTeams _ _ _ fun _ _ _ => blindTeams_fillSector ..).trans ?_
  rw [blindTeams_homeWrite]
  refine blindTeams_congr (foldl_same State.teams _ _ _ fun _ _ _ => ?_)
  repeat' split
  all_goals rfl

end Sys2Proof.Machine
end

section
/-! SUPPORT. The stamps of a stream (R133), and its end: off its barriers, its tiles and slots free (R114, R125). -/

open Sys2Proof Sys2Proof.Machine Sys2Proof.Safety Sys2Proof.Statements
namespace Sys2Proof.Machine

variable {s t : State} {core ck : Nat} {x y : Stream}

/-! ### Stamps -/

/-- The stream apart from its stamps. -/
def Stream.unstamped (x : Stream) : Stream := { x with stamps := [] }

/-- What stays when stamps of a stream are written or dropped: whose turn it is, the teams apart from a WAITV's re-reads,
and the stream but for its stamps. -/
def State.unstamped (core ck : Nat) (s : State) : Nat × (Nat → Team) × Option Stream :=
  (s.cur, s.blindTeams, (findStream s core ck).map Stream.unstamped)

theorem unstamped_of_still (h : t.still = s.still) (hb : t.blindTeams = s.blindTeams) :
    t.unstamped core ck = s.unstamped core ck := by
  rw [State.unstamped, State.unstamped, cur_of_still h, hb, findStream_eq_of_still h]

theorem unstamped_checkParts (s : State) (k ctx : Nat) (wr : Bool) (ps : List (DWord × Nat)) :
    (checkParts s k ctx wr ps).2.unstamped core ck = s.unstamped core ck :=
  unstamped_of_still (checkParts_still ..) (blindTeams_checkParts ..)

theorem unstamped_dropStamp (s : State) (core ck : Nat) (p : StampRun) :
    (dropStamp s core ck p).unstamped core ck = s.unstamped core ck := by
  have hfind : (findStream (dropStamp s core ck p) core ck).map Stream.unstamped =
      (findStream s core ck).map Stream.unstamped :=
    findStream_modStream_keeps Stream.unstamped s core core ck (fun _ => rfl) fun _ => rfl
  rw [State.unstamped, hfind]
  rfl

theorem unstamped_traceStamp (s : State) (v : Nat) : (traceStamp s v).unstamped core ck = s.unstamped core ck := by
  unfold traceStamp
  split
  · rfl
  · split <;> rfl

theorem unstamped_writeTileStamp (s : State) (core : Nat) (x : Stream) (p : StampRun) :
    (writeTileStamp s core x p).2.unstamped core x.cohort = s.unstamped core x.cohort := by
  unfold writeTileStamp
  split
  · exact unstamped_dropStamp ..
  · next va _ =>
    have hc := unstamped_checkParts (core := core) (ck := x.cohort) s core x.ctx true (cut va 64)
    split
    · next pas s1 h =>
      rw [h] at hc
      refine (unstamped_dropStamp ..).trans ((unstamped_traceStamp ..).trans (Eq.trans ?_ hc))
      exact unstamped_of_still (engineWrite_still ..) (blindTeams_engineWrite ..)
    · next h =>
      rw [h] at hc
      exact hc

theorem unstamped_retireStamps (core : Nat) (x : Stream) (ps : List StampRun) (s : State) :
    (retireStamps core x ps s).2.unstamped core x.cohort = s.unstamped core x.cohort := by
  induction ps generalizing s with
  | nil => rfl
  | cons p r ih =>
    have hw := unstamped_writeTileStamp s core x p
    unfold retireStamps
    split <;> rename_i h <;> rw [h] at hw
    · exact (ih _).trans hw
    · dsimp only
      split
      · exact hw
      · exact (unstamped_dropStamp ..).trans hw

theorem unstamped_retireFor (core : Nat) (x : Stream) (ps : List StampRun) (s : State) :
    (retireFor core x ps s).2.unstamped core x.cohort = s.unstamped core x.cohort := by
  induction ps generalizing s with
  | nil => rfl
  | cons p r ih =>
    have hw := unstamped_writeTileStamp s core x p
    have hdrop : ∀ t : State, t.unstamped core x.cohort = s.unstamped core x.cohort →
        (retireFor core x r (dropStamp t core x.cohort p)).2.unstamped core x.cohort = s.unstamped core x.cohort :=
      fun t ht => (ih _).trans ((unstamped_dropStamp ..).trans ht)
    unfold retireFor
    split <;> rename_i h <;> rw [h] at hw
    · exact (ih _).trans hw
    · split
      · exact hdrop _ hw
      · exact hw
    · exact hw
    · exact hw
    · exact hdrop _ hw

theorem cur_of_unstamped (h : t.unstamped core ck = s.unstamped core ck) : t.cur = s.cur := congrArg Prod.fst h

theorem blind_of_unstamped (h : t.unstamped core ck = s.unstamped core ck) (u : Nat) :
    (t.getTeam u).blind = (s.getTeam u).blind := congrFun (congrArg (fun v => v.2.1) h) u

theorem findStream_of_unstamped (h : t.unstamped core ck = s.unstamped core ck) (hx : findStream s core ck = some x) :
    ∃ y, findStream t core ck = some y ∧ y.unstamped = x.unstamped :=
  exists_of_map_findStream hx (congrArg (fun v => v.2.2) h)

/-! ### The end of a stream -/

/-- The tiles and slots that a stream holds. -/
def Stream.holding (x : Stream) : BitVec 2 × Nat × Nat := (x.tileMask, x.slotBase, x.slotCount)

theorem holding_of_apart (h : x.apart = y.apart) : x.holding = y.holding := by
  have hh := congrArg Stream.holding h
  exact hh

theorem holding_of_unstamped (h : x.unstamped = y.unstamped) : x.holding = y.holding := by
  have hh := congrArg Stream.holding h
  exact hh

theorem emptied_of_holding {e : Engine} (h : Emptied e y) (hh : x.holding = y.holding) : Emptied e x := by
  obtain ⟨ht, hb, hn⟩ : x.tileMask = y.tileMask ∧ x.slotBase = y.slotBase ∧ x.slotCount = y.slotCount := by
    simpa [Stream.holding] using hh
  rw [Emptied, ht, hb, hn]
  exact h

theorem sfind_filter_key {β : Type} (m : Sparse β) (p : Nat → Bool) {k : Nat} (hk : p k = false) :
    sfind (m.filter fun e => p e.1) k = none := by
  induction m with
  | nil => rfl
  | cons e r ih =>
    rw [List.filter_cons]
    split
    · next he =>
      have hne : k ≠ e.1 := by
        rintro rfl
        rw [hk] at he
        cases he
      rw [sfind, if_neg hne, ih]
    · exact ih

theorem holdsSlot_iff (x : Stream) (n : Nat) : x.holdsSlot n = true ↔ Holds x n := by
  simp [Stream.holdsSlot, Holds]

/-- What a stream held is empty when the engine has released it (R114, R121). -/
theorem emptied_release (e : Engine) (x : Stream) : Emptied (e.release x) x := by
  refine ⟨fun h => if_pos h, fun h => if_pos h, fun n hlo hhi => ?_⟩
  exact sfind_filter_key e.slots (fun n => !x.holdsSlot n) (by simpa using (holdsSlot_iff x n).mpr ⟨hlo, hhi⟩)

/-- The engine without its stream y, of cohort ck. -/
def Engine.detached (e : Engine) (ck : Nat) (y : Stream) : Engine :=
  Engine.release { e with streams := e.streams.filter fun x => x.cohort != ck } y

theorem streams_detached (e : Engine) (ck : Nat) (y : Stream) :
    (e.detached ck y).streams = e.streams.filter fun x => x.cohort != ck := rfl

theorem getEngine_setEngine (s : State) (core : Nat) (e : Engine) : getEngine (setEngine s core e) core = e := by
  rw [getEngine, setEngine]
  dsimp only
  rw [sfind_sput, if_pos rfl, Option.getD_some]

theorem detachStream_eq (hy : findStream (leaveBarriers s ck (streamId core)) core ck = some y) :
    detachStream s core ck = setEngine (leaveBarriers s ck (streamId core)) core
      ((getEngine (leaveBarriers s ck (streamId core)) core).detached ck y) := by
  rw [findStream] at hy
  unfold detachStream
  dsimp only
  rw [hy, Engine.detached]

/-- The stream of a core is gone, and what it held is empty (R114, R125). -/
theorem detachStream_detaches (hx : findStream s core ck = some x) :
    findStream (detachStream s core ck) core ck = none ∧ Emptied (getEngine (detachStream s core ck) core) x := by
  obtain ⟨y, hy, hapart⟩ := exists_of_map_findStream hx (apart_leaveBarriers s ck (streamId core) core)
  rw [detachStream_eq hy, findStream_setEngine, if_pos rfl, streams_detached, getEngine_setEngine]
  exact ⟨find_without _ _, emptied_of_holding (emptied_release _ y) (holding_of_apart hapart).symm⟩

theorem view_setEngine (s : State) (core : Nat) (e : Engine) (u ck : Nat) :
    (setEngine s core e).view u ck = s.view u ck := rfl

/-- A team that waits for nothing is as it was, apart from a WAITV's re-reads. -/
theorem view_detachStream_idle {u : Nat} (h : (s.getTeam u).wait = .none) (core : Nat) :
    (detachStream s core ck).view u ck = s.view u ck := by
  obtain ⟨t, ht, hcases⟩ := detachStream_cases s core ck
  have hview := view_leaveBarriers_idle (ck := ck) h (streamId core)
  rw [← ht] at hview
  rcases hcases with ⟨e, -⟩ | ⟨e, he, -⟩
  · rw [e, hview]
  · rw [he, view_setEngine, hview]

end Sys2Proof.Machine
end

section
/-! PROOF. MATT and MDET (O51). -/

open Sys2Proof Sys2Proof.Machine Sys2Proof.Safety Sys2Proof.Statements
namespace Sys2Proof.Machine

variable {s : State} {ck : Nat} {c : Cohort}

theorem cohort_issued (hck : s.tm.cohort = some ck) : (issued s).tm.cohort = some ck := by
  rw [issued_tm, issuedTm_keeps Team.cohort s fun _ => rfl, hck]

theorem core_issued (s : State) : (issued s).tm.core = s.tm.core := by
  rw [issued_tm, issuedTm_keeps Team.core s fun _ => rfl]

theorem ctx_issued (s : State) : (issued s).tm.ctx = s.tm.ctx := by
  rw [issued_tm, issuedTm_keeps Team.ctx s fun _ => rfl]

theorem sread_issued (s : State) (n : Nat) : (issued s).tm.sread n = s.tm.sread n := by
  rw [issued_tm, issuedTm_sread]

/-- A team in no cohort takes the illegal-instruction trap (R113, R114). -/
theorem exec_stream_word_outside {i : Instr} (hi : (∃ sa sb st, i = .matt sa sb st) ∨ ∃ st, i = .mdet st)
    (h : Issues i s) (hno : s.tm.cohort = none) : exec i s = .next (trapWord (issued s) 1 i) := by
  have hcoh : (issued s).tm.cohort = none := by
    rw [issued_tm, issuedTm_keeps Team.cohort s fun _ => rfl, hno]
  rcases hi with ⟨sa, sb, st, rfl⟩ | ⟨st, rfl⟩
  · show execMatt sa sb st s = _
    rw [execMatt, issue_eq _ s _ h]
    dsimp only
    rw [hcoh]
  · show execMdet st s = _
    rw [execMdet, issue_eq _ s _ h]
    dsimp only
    rw [hcoh]

/-! ### The status of MATT (Table 7-3) -/

theorem findStream_isSome_iff (s : State) (core ck : Nat) :
    (findStream s core ck).isSome = true ↔ ∃ x ∈ (getEngine s core).streams, x.cohort = ck := by
  simp [findStream]

theorem ofNat2_and_ne_zero_iff (m : BitVec 2) (cfg : DWord) :
    m &&& BitVec.ofNat 2 cfg.toNat ≠ 0 ↔ ∃ i, i < 2 ∧ m.getLsbD i = true ∧ cfg.getLsbD i = true := by
  have hbit : ∀ i, i < 2 → (m &&& BitVec.ofNat 2 cfg.toNat).getLsbD i = (m.getLsbD i && cfg.getLsbD i) := by
    intro i hi
    rw [BitVec.getLsbD_and, BitVec.getLsbD_ofNat]
    simp [hi, BitVec.getLsbD]
  constructor
  · intro hne
    by_contra hno
    refine hne (BitVec.eq_of_getLsbD_eq fun i hi => ?_)
    have hbits : ¬(m.getLsbD i && cfg.getLsbD i) = true := fun h => hno ⟨i, hi, Bool.and_eq_true_iff.mp h⟩
    rw [hbit i hi]
    simpa using hbits
  · rintro ⟨i, hi, hm, hcfg⟩ hzero
    have h := hbit i hi
    rw [hzero, hm, hcfg] at h
    simp at h

theorem attBase_eq (cfg : DWord) : attBase cfg = cfg.toNat / 16 % 16 := by
  rw [attBase, field, Nat.shiftRight_eq_div_pow]
  rfl

theorem attCount_eq (cfg : DWord) : attCount cfg = cfg.toNat / 256 % 16 + 1 := by
  rw [attCount, field, Nat.shiftRight_eq_div_pow]
  rfl

/-- Status 3: a tile or a slot of the configuration is held. -/
theorem attTaken_iff (e : Engine) (cfg : DWord) : attTaken e cfg = true ↔ Wanted e cfg := by
  have hslots : ∀ x : Stream, ((List.range (attCount cfg)).any fun i => x.holdsSlot (attBase cfg + i)) = true ↔
      ∃ n, cfg.toNat / 16 % 16 ≤ n ∧ n < cfg.toNat / 16 % 16 + cfg.toNat / 256 % 16 + 1 ∧ Holds x n := by
    intro x
    simp only [List.any_eq_true, List.mem_range, holdsSlot_iff, attBase_eq, attCount_eq]
    constructor
    · rintro ⟨i, hi, h⟩
      exact ⟨_, by omega, by omega, h⟩
    · rintro ⟨n, hlo, hhi, h⟩
      exact ⟨n - cfg.toNat / 16 % 16, by omega, by rwa [Nat.add_sub_cancel' hlo]⟩
  unfold attTaken Wanted
  simp only [List.any_eq_true, Bool.and_eq_true, Bool.or_eq_true, bne_iff_ne, hslots, attTiles,
    ofNat2_and_ne_zero_iff, Holds]

/-- Status 4: the configuration or the start address is malformed. -/
theorem badConfig_iff (start cfg : DWord) :
    (field cfg.toNat 32 32 != 0 || field cfg.toNat 12 4 != 0 || field cfg.toNat 2 2 != 0 ||
      decide (16 < attBase cfg + attCount cfg) || start.toNat % 4 != 0) = true ↔ BadConfig start cfg := by
  have hfield : ∀ lo n, field cfg.toNat lo n ≠ 0 ↔ cfg.extractLsb' lo n ≠ 0 := by
    intro lo n
    rw [field_toNat, ne_eq, ne_eq, BitVec.toNat_eq]
    rfl
  have hslots : 16 < attBase cfg + attCount cfg ↔ 15 < cfg.toNat / 16 % 16 + cfg.toNat / 256 % 16 := by
    rw [attBase_eq, attCount_eq]
    omega
  simp only [Bool.or_eq_true, bne_iff_ne, decide_eq_true_eq, hfield, hslots, BadConfig, or_assoc]

/-- Table 7-3, from the lowest status on. -/
theorem attStatus_eq (s : State) (core ck : Nat) (start cfg : DWord) :
    let e := getEngine s core
    let one := ∃ x ∈ e.streams, x.cohort = ck
    let four := 4 ≤ (e.streams.filter fun x => x.state != .saved).length
    (one → attStatus s core ck start cfg = 1) ∧ (¬one → four → attStatus s core ck start cfg = 2) ∧
    (¬one → ¬four → Wanted e cfg → attStatus s core ck start cfg = 3) ∧
    (¬one → ¬four → ¬Wanted e cfg → BadConfig start cfg → attStatus s core ck start cfg = 4) ∧
    (¬one → ¬four → ¬Wanted e cfg → ¬BadConfig start cfg → attStatus s core ck start cfg = 0) := by
  intro e one four
  have hone : ¬one → ¬(findStream s core ck).isSome = true := mt (findStream_isSome_iff s core ck).mp
  have htaken : ¬Wanted e cfg → ¬attTaken e cfg = true := mt (attTaken_iff e cfg).mp
  unfold attStatus
  dsimp only
  refine ⟨fun h1 => ?_, fun h1 h2 => ?_, fun h1 h2 h3 => ?_, fun h1 h2 h3 h4 => ?_, fun h1 h2 h3 h4 => ?_⟩
  · rw [if_pos ((findStream_isSome_iff s core ck).mpr h1)]
  · rw [if_neg (hone h1), if_pos h2]
  · rw [if_neg (hone h1), if_neg h2, if_pos ((attTaken_iff e cfg).mpr h3)]
  · rw [if_neg (hone h1), if_neg h2, if_neg (htaken h3), if_pos ((badConfig_iff start cfg).mpr h4)]
  · rw [if_neg (hone h1), if_neg h2, if_neg (htaken h3), if_neg (mt (badConfig_iff start cfg).mp h4)]

theorem attStatus_issued (s : State) (core ck : Nat) (start cfg : DWord) :
    attStatus (issued s) core ck start cfg = attStatus s core ck start cfg := by
  unfold attStatus findStream getEngine
  rw [engines_issued]

/-! ### The stream that MATT attaches -/

/-- A participant is expected in the open phases of some barriers, as a mask says. -/
def expectAt (mask : BitVec 16) (id : Nat) (c : Cohort) (b : Nat) : Cohort :=
  if mask.getLsbD b then c.setBar b { c.bar b with expected := (c.bar b).expected ++ [id] } else c

theorem bar_foldl_expectAt (mask : BitVec 16) (id : Nat) {bs : List Nat} (hn : bs.Nodup) (c : Cohort) (b : Nat) :
    (bs.foldl (expectAt mask id) c).bar b = if b ∈ bs ∧ mask.getLsbD b = true
      then { c.bar b with expected := (c.bar b).expected ++ [id] } else c.bar b := by
  induction bs generalizing c with
  | nil => simp
  | cons a r ih =>
    obtain ⟨ha, hr⟩ := List.nodup_cons.mp hn
    have hstep : (expectAt mask id c a).bar b = if b = a ∧ mask.getLsbD a = true
        then { c.bar b with expected := (c.bar b).expected ++ [id] } else c.bar b := by
      unfold expectAt
      by_cases hm : mask.getLsbD a = true
      · rw [if_pos hm, bar_setBar]
        by_cases hb : b = a
        · rw [if_pos hb, if_pos ⟨hb, hm⟩, hb]
        · rw [if_neg hb, if_neg fun h => hb h.1]
      · rw [if_neg hm, if_neg fun h => hm h.2]
    rw [List.foldl_cons, ih hr, hstep]
    by_cases hb : b = a
    · subst hb
      simp [ha]
    · simp [hb]

theorem bar_expectStream (c : Cohort) (mask : BitVec 16) (id : Nat) {b : Nat} (hb : b < 16) :
    ((expectStream c mask id).bar b).ph = (c.bar b).ph ∧
      ((expectStream c mask id).bar b).expected = (c.bar b).expected ++ if mask.getLsbD b then [id] else [] := by
  have h : (expectStream c mask id).bar b = if mask.getLsbD b = true
      then { c.bar b with expected := (c.bar b).expected ++ [id] } else c.bar b := by
    have hfold := bar_foldl_expectAt mask id List.nodup_range c b (bs := List.range 16)
    simp only [List.mem_range, hb, true_and] at hfold
    exact hfold
  rw [h]
  split
  · exact ⟨rfl, rfl⟩
  · exact ⟨rfl, (List.append_nil _).symm⟩

/-- The stream arrives first in the open phase of a barrier of its mask, in the next phase of any other (R126). -/
theorem sget_newStream_arr (e : Engine) (ctx ck : Nat) (c : Cohort) (start cfg : DWord) {b : Nat} (hb : b < 16) :
    sget 0 (newStream e ctx ck c start cfg).arr b = (c.bar b).ph + if (attBars cfg).getLsbD b then 0 else 1 := by
  have h := sget_foldl_sset_mem (d := (0 : BitVec 16))
    (es := (List.range 16).map fun b => (b, (c.bar b).ph + if (attBars cfg).getLsbD b then 0 else 1))
    (by rw [List.map_map]; exact (List.map_id _).symm ▸ List.nodup_range)
    (List.mem_map_of_mem (List.mem_range.mpr hb)) []
  rw [List.foldl_map] at h
  exact h

/-- The engine with a new stream. -/
def Engine.attach (e : Engine) (x : Stream) : Engine :=
  { e.release x with streams := (e.release x).streams ++ [x], attached := (e.release x).attached + 1 }

theorem attachStream_eq (hc : getCohort s ck = some c) (core ctx : Nat) (start cfg : DWord) :
    attachStream s core ctx ck start cfg =
      setCohort (setEngine s core ((getEngine s core).attach (newStream (getEngine s core) ctx ck c start cfg))) ck
        (expectStream c (attBars cfg) (streamId core)) := by
  rw [attachStream, hc]
  rfl

theorem emptied_attach (e : Engine) (x : Stream) : Emptied (e.attach x) x := emptied_release e x

theorem find_attach {e : Engine} {x : Stream} (hno : ∀ y ∈ e.streams, y.cohort ≠ x.cohort) :
    (e.attach x).streams.find? (fun y => y.cohort == x.cohort) = some x := by
  show (e.streams ++ [x]).find? _ = _
  rw [List.find?_append, List.find?_eq_none.mpr fun y hy => by simpa using hno y hy]
  simp

/-! ### MATT -/

section
variable {sa sb st : SReg}

theorem exec_matt (h : Issues (.matt sa sb st) s) (hck : s.tm.cohort = some ck) {code : Nat}
    (hcode : attStatus s s.tm.core ck (s.tm.sread sa.val) (s.tm.sread sb.val) = code) :
    exec (.matt sa sb st) s = .next (endStatus (if code == 0 then
      attachStream (issued s) s.tm.core s.tm.ctx ck (s.tm.sread sa.val) (s.tm.sread sb.val) else issued s) st code) := by
  show execMatt sa sb st s = _
  rw [execMatt, issue_eq _ s _ h]
  dsimp only
  rw [cohort_issued hck]
  dsimp only
  rw [core_issued, ctx_issued, sread_issued, sread_issued, attStatus_issued, hcode]

/-- A MATT that fails writes its status and does nothing else. -/
theorem matt_fails (h : Issues (.matt sa sb st) s) (hck : s.tm.cohort = some ck) {code : Nat}
    (hcode : attStatus s s.tm.core ck (s.tm.sread sa.val) (s.tm.sread sb.val) = code) (hne : code ≠ 0) :
    NotAttached s (.matt sa sb st) st (BitVec.ofNat 64 code) := by
  refine ⟨_, exec_matt h hck hcode, ?_⟩
  rw [if_neg (by simpa using hne)]
  exact ⟨Stands.statusIs (by rw [issued_tm]; exact stands_issuedTm s) st code,
    issued_modTm_keeps State.engines s _ fun _ _ _ => rfl, issued_modTm_keeps State.cohorts s _ fun _ _ _ => rfl⟩

/-- What MATT attaches, of a cohort without a stream on its core (R113, R119, R126). -/
theorem attach_attaches (hc : getCohort s ck = some c) (core ctx : Nat) (start cfg : DWord)
    (hno : ¬∃ x ∈ (getEngine s core).streams, x.cohort = ck) {t : State}
    (ht : t = attachStream s core ctx ck start cfg) :
    (∀ x ∈ (getEngine s core).streams, x ∈ (getEngine t core).streams) ∧
      findStream t core ck = some (newStream (getEngine s core) ctx ck c start cfg) ∧
      Emptied (getEngine t core) (newStream (getEngine s core) ctx ck c start cfg) ∧
      getCohort t ck = some (expectStream c (attBars cfg) (streamId core)) := by
  rw [attachStream_eq hc] at ht
  subst ht
  have hengine : ∀ (t : State) e c', getEngine (setCohort (setEngine t core e) ck c') core = e := fun t e _ =>
    getEngine_setEngine t core e
  rw [findStream, hengine]
  refine ⟨fun x hx => List.mem_append_left [_] hx, ?_, emptied_attach _ _, by rw [getCohort_setCohort, if_pos rfl]⟩
  exact find_attach (x := newStream (getEngine s core) ctx ck c start cfg) fun y hy hyc => hno ⟨y, hy, hyc⟩

theorem attBars_eq (cfg : DWord) : attBars cfg = BitVec.ofNat 16 (cfg.toNat / 2 ^ 16) := by
  rw [attBars, field, Nat.shiftRight_eq_div_pow]
  exact BitVec.eq_of_toNat_eq (by simp)

/-- From s to t a stream of cohort c is attached on the core of the team, as the configuration says (R113, R119, R126). -/
def Attached (s t : State) (ck : Nat) (c : Cohort) (start cfg : DWord) : Prop :=
  t.mem = s.mem ∧ (∀ x ∈ (getEngine s s.tm.core).streams, x ∈ (getEngine t s.tm.core).streams) ∧
    StreamIs t s.tm.core ck fun y => y.state = .running ∧ y.pc = start ∧ y.start = start ∧ y.ctx = s.tm.ctx ∧
      y.tileMask = BitVec.ofNat 2 cfg.toNat ∧ y.slotBase = cfg.toNat / 16 % 16 ∧
      y.slotCount = cfg.toNat / 256 % 16 + 1 ∧ y.barMask = BitVec.ofNat 16 (cfg.toNat / 2 ^ 16) ∧
      y.afmt = .e4m3 ∧ y.j = 0 ∧ y.srec = 0 ∧ Emptied (getEngine t s.tm.core) y ∧
      ∀ b, b < 16 → sget 0 y.arr b = (c.bar b).ph + (if y.barMask.getLsbD b then 0 else 1) ∧
        ∃ c', getCohort t ck = some c' ∧ (c'.bar b).ph = (c.bar b).ph ∧
          (c'.bar b).expected = (c.bar b).expected ++ if y.barMask.getLsbD b then [2 ^ 40 + s.tm.core] else []

/-- A MATT that succeeds writes status 0 and attaches the stream. -/
theorem matt_attaches (h : Issues (.matt sa sb st) s) (hck : s.tm.cohort = some ck) (hc : getCohort s ck = some c)
    (hcode : attStatus s s.tm.core ck (s.tm.sread sa.val) (s.tm.sread sb.val) = 0)
    (hno : ¬∃ x ∈ (getEngine s s.tm.core).streams, x.cohort = ck) : ∃ t, exec (.matt sa sb st) s = .next t ∧
      StatusIs s t st 0 ∧ Attached s t ck c (s.tm.sread sa.val) (s.tm.sread sb.val) := by
  have hexec := exec_matt h hck hcode
  generalize s.tm.sread sa.val = start at hexec ⊢
  generalize s.tm.sread sb.val = cfg at hexec ⊢
  have he : getEngine (issued s) s.tm.core = getEngine s s.tm.core := by rw [getEngine, engines_issued, ← getEngine]
  have hci : getCohort (issued s) ck = some c := (getCohort_congr (cohorts_issued s) ck).trans hc
  obtain ⟨hmem, hfind, hempty, hcohort⟩ := attach_attaches hci s.tm.core s.tm.ctx start cfg (he ▸ hno) rfl
  have htm : (attachStream (issued s) s.tm.core s.tm.ctx ck start cfg).tm = issuedTm s := by
    rw [attachStream_eq hci, tm_setCohort]
    exact issued_tm s
  have hmem0 : (attachStream (issued s) s.tm.core s.tm.ctx ck start cfg).mem = s.mem := by
    rw [attachStream_eq hci, mem_setCohort]
    rfl
  rw [he] at hmem hfind hempty
  simp only [beq_self_eq_true, if_true] at hexec
  have hkeep : ∀ {γ : Type} (g : State → γ), (∀ (s : State) m, g { s with teams := m } = g s) →
      g (endStatus (attachStream (issued s) s.tm.core s.tm.ctx ck start cfg) st 0) =
        g (attachStream (issued s) s.tm.core s.tm.ctx ck start cfg) := fun g hg => modTm_keeps g _ _ hg
  rw [← hkeep (fun t => getEngine t s.tm.core) fun _ _ => rfl] at hmem hempty
  refine ⟨_, hexec, Stands.statusIs (by rw [htm]; exact stands_issuedTm s) st 0, ?_, hmem, ?_⟩
  · exact (hkeep State.mem fun _ _ => rfl).trans hmem0
  · refine ⟨_, (hkeep (fun t => findStream t s.tm.core ck) fun _ _ => rfl).trans hfind, rfl, rfl, rfl, rfl, rfl,
      attBase_eq cfg, attCount_eq cfg, attBars_eq cfg, rfl, rfl, rfl, hempty, fun b hb => ?_⟩
    obtain ⟨hph, hexpected⟩ := bar_expectStream c (attBars cfg) (streamId s.tm.core) hb
    exact ⟨sget_newStream_arr _ s.tm.ctx ck c start cfg hb, _,
      (hkeep (fun t => getCohort t ck) fun _ _ => rfl).trans hcohort, hph, hexpected⟩

end

/-! ### MDET -/

section
variable {st : SReg} {x : Stream}

/-- The state that MDET detaches the stream in: stopped (R114). -/
def stopping (s : State) (ck : Nat) : State := modStream (issued s) s.tm.core ck Stream.stopAll

theorem cur_stopping (s : State) (ck : Nat) : (stopping s ck).cur = s.cur := rfl

theorem getTeam_stopping (s : State) (ck u : Nat) : (stopping s ck).getTeam u = (issued s).getTeam u := rfl

theorem exec_mdet_none (h : Issues (.mdet st) s) (hck : s.tm.cohort = some ck)
    (hx : findStream s s.tm.core ck = none) : exec (.mdet st) s = .next (endStatus (issued s) st 1) := by
  show execMdet st s = _
  rw [execMdet, issue_eq _ s _ h]
  dsimp only
  rw [cohort_issued hck]
  dsimp only
  rw [core_issued, findStream_congr (engines_issued s), hx]

theorem exec_mdet_some {s1 : State} (h : Issues (.mdet st) s) (hck : s.tm.cohort = some ck)
    (hx : findStream s s.tm.core ck = some x) (hr : retireFor s.tm.core x x.stamps (stopping s ck) = (none, s1)) :
    exec (.mdet st) s = .next (endStatus (detachStream s1 s.tm.core ck) st (detStatus x)) := by
  rw [stopping] at hr
  show execMdet st s = _
  rw [execMdet, issue_eq _ s _ h]
  dsimp only
  rw [cohort_issued hck]
  dsimp only
  rw [core_issued, findStream_congr (engines_issued s), hx]
  dsimp only
  rw [hr]

theorem stopAll_cohort (x : Stream) : x.stopAll.cohort = x.cohort := by
  unfold Stream.stopAll
  split <;> rfl

theorem stopAll_holding (x : Stream) : x.stopAll.holding = x.holding := by
  unfold Stream.stopAll
  split <;> rfl

theorem Stands.of_blind {y z : Team} (hz : Stands s z) (h : y.blind = z.blind) : Stands s y where
  nextPc := (eq_of_blind Team.nextPc h fun _ => rfl).trans hz.nextPc
  scalars := (eq_of_blind Team.s h fun _ => rfl).trans hz.scalars
  k := (eq_of_blind Team.k h fun _ => rfl).trans hz.k
  p := (eq_of_blind Team.p h fun _ => rfl).trans hz.p

/-- The status of MDET (R114). -/
theorem ofNat_detStatus (x : Stream) : BitVec.ofNat 64 (detStatus x) = if x.state = .error then
    BitVec.ofNat 64 (2 + x.errCode * 2 ^ 8 + (x.errPc - x.start).toNat % 2 ^ 48 * 2 ^ 16) else 0 := by
  by_cases h : x.state = .error
  · simp [detStatus, h]
  · simp [detStatus, h]

/-- The stream goes, and the team, which waits for nothing, stands where it did (R114). -/
theorem mdet_detaches {s1 : State} (h : Issues (.mdet st) s) (hck : s.tm.cohort = some ck) (hw : s.tm.wait = .none)
    (hx : findStream s s.tm.core ck = some x) (hr : retireFor s.tm.core x x.stamps (stopping s ck) = (none, s1)) :
    ∃ t, exec (.mdet st) s = .next t ∧ findStream t s.tm.core ck = none ∧ Emptied (getEngine t s.tm.core) x ∧
      StatusIs s t st (BitVec.ofNat 64 (detStatus x)) := by
  have hun := unstamped_retireFor s.tm.core x x.stamps (stopping s ck)
  rw [hr, cohort_of_findStream hx] at hun
  dsimp only at hun
  have hstop : findStream (stopping s ck) s.tm.core ck = some x.stopAll :=
    findStream_modStream ((findStream_congr (engines_issued s) _).trans hx) stopAll_cohort
  obtain ⟨y, hy, hyx⟩ := findStream_of_unstamped hun hstop
  obtain ⟨hnone, hempty⟩ := detachStream_detaches hy
  have hcur : s1.cur = s.cur := (cur_of_unstamped hun).trans (cur_stopping s ck)
  have hteam : (s1.getTeam s.cur).blind = (issuedTm s).blind := by
    rw [blind_of_unstamped hun, getTeam_stopping, getTeam_issued, if_pos rfl]
  have hidle : (s1.getTeam s.cur).wait = .none := by
    rw [eq_of_blind Team.wait hteam fun _ => rfl, issuedTm_keeps Team.wait s fun _ => rfl, hw]
  have hview := view_detachStream_idle (ck := ck) hidle s.tm.core
  have hstands : Stands s (detachStream s1 s.tm.core ck).tm := by
    refine (stands_issuedTm s).of_blind (Eq.trans ?_ hteam)
    rw [State.tm, cur_of_view hview, hcur]
    exact blind_of_view hview
  have heng : (endStatus (detachStream s1 s.tm.core ck) st (detStatus x)).engines =
      (detachStream s1 s.tm.core ck).engines := modTm_keeps State.engines _ _ fun _ _ => rfl
  refine ⟨_, exec_mdet_some h hck hx hr, (findStream_congr heng _).trans hnone, ?_, hstands.statusIs st _⟩
  rw [getEngine, heng, ← getEngine]
  exact emptied_of_holding hempty ((stopAll_holding x).symm.trans (holding_of_unstamped hyx).symm)

end

/-- Settles O51: the code of MATT is the lowest status of Table 7-3 that applies (attStatus_eq), and 0 attaches the stream
(attach_attaches); MDET retires the stamps, which leaves the teams and the rest of the stream as they are, and takes the
stream off its barriers, which a team that waits for nothing does not notice (mdet_detaches). -/
theorem streamsAttachAndDetach : Obligations.StreamsAttachAndDetach := by
  refine ⟨fun s i h hno hc hi => ?_, fun s sa sb st ck c h hck hc => ?_,
    fun s st ck h hck hw => ⟨fun hx => ?_, fun x s1 hx hr => ?_⟩⟩
  · exact ⟨_, exec_stream_word_outside hi h hno, trapWord_issued_trapped i hc (by decide) (by decide)⟩
  · obtain ⟨h1, h2, h3, h4, h0⟩ := attStatus_eq s s.tm.core ck (s.tm.sread sa.val) (s.tm.sread sb.val)
    refine ⟨fun a => matt_fails h hck (h1 a) (by decide), fun a b => matt_fails h hck (h2 a b) (by decide),
      fun a b d => matt_fails h hck (h3 a b d) (by decide), fun a b d f => matt_fails h hck (h4 a b d f) (by decide),
      fun a b d f => ?_⟩
    exact matt_attaches h hck hc (h0 a b d f) a
  · exact ⟨_, exec_mdet_none h hck hx, Stands.statusIs (by rw [issued_tm]; exact stands_issuedTm s) st 1,
      issued_modTm_keeps State.engines s _ fun _ _ _ => rfl⟩
  · obtain ⟨t, ht, hnone, hempty, hstatus⟩ := mdet_detaches h hck hw hx hr
    exact ⟨t, ht, hnone, hempty, by rwa [ofNat_detStatus] at hstatus⟩

end Sys2Proof.Machine
end

section
/-! SUPPORT. A word of a stream whose turn it is (R116, R118), and what a word that fails comes to (R132). -/

open Sys2Proof Sys2Proof.Machine Sys2Proof.Safety Sys2Proof.Statements
namespace Sys2Proof.Machine

variable {s t : State} {i : Instr} {x y : Stream} {core ck code : Nat} {pc : DWord}

/-! ### An update of streams changes nothing else -/

theorem mem_modStream (s : State) (core ck : Nat) (f : Stream → Stream) : (modStream s core ck f).mem = s.mem := rfl

theorem getCohort_modStream (s : State) (core ck : Nat) (f : Stream → Stream) (k : Nat) :
    getCohort (modStream s core ck f) k = getCohort s k := rfl

theorem cohorts_modStream (s : State) (core ck : Nat) (f : Stream → Stream) :
    (modStream s core ck f).cohorts = s.cohorts := rfl

/-! ### Turns -/

theorem canRun_iff (x : Stream) : x.canRun = true ↔ x.state = .running ∧ x.wait = .none ∧ x.stopped = false := by
  simp [Stream.canRun, and_assoc]

theorem cohort_of_turn (h : Statements.Turn s i x) : x.cohort = s.curStream.2 := cohort_of_findStream h.1

theorem find_of_turn (h : Statements.Turn s i x) : findStream s s.curStream.1 x.cohort = some x := by
  rw [cohort_of_turn h]
  exact h.1

/-- The word starts (R118). -/
theorem streamWord_turn (h : Statements.Turn s i x) (k : Nat → Stream → State → State) :
    streamWord i s k = .next (k s.curStream.1 x s) := by
  obtain ⟨hx, hmay, hgrant⟩ := h
  have hgo : (x.mayStart s i && (!needsGrant i || x.granted)) = true := by
    rw [hmay, Bool.true_and, Bool.or_eq_true, Bool.not_eq_true']
    cases hn : needsGrant i with
    | false => exact .inl rfl
    | true => exact .inr (hgrant hn)
  rw [streamWord, hx]
  dsimp only
  rw [if_pos hgo]

theorem failing_of_turn (h : Statements.Turn s i x) : x.failing = none :=
  Option.isNone_iff_eq_none.mp (isNone_failing_of_mayStart h.2.1)

/-- Every word but MWB starts when the stream runs and no word of it is on the array (R118). -/
theorem canRun_of_turn (h : Statements.Turn s i x) (hi : ∀ a b c, i ≠ .mwb a b c) :
    x.canRun = true ∧ x.mma = none ∧ x.msta = none := by
  have hmay := h.2.1
  unfold Stream.mayStart at hmay
  obtain ⟨-, hmay⟩ := Bool.and_eq_true_iff.mp hmay
  have hrun : (x.canRun && !x.running) = true := by
    cases i
    case mwb => exact absurd rfl (hi _ _ _)
    case mlw => exact (Bool.and_eq_true_iff.mp hmay).1
    case mma => exact (Bool.and_eq_true_iff.mp hmay).1
    case mbar => exact (Bool.and_eq_true_iff.mp hmay).1
    case mend => exact (Bool.and_eq_true_iff.mp hmay).1
    all_goals exact hmay
  simpa [Stream.running] using hrun

/-- An MWB may start at a barrier too. A stream whose turn it is waits for no page. -/
theorem wait_of_turn (h : Statements.Turn s i x) : x.wait ≠ .fault := by
  by_cases hi : ∃ a b c, i = .mwb a b c
  · obtain ⟨a, b, c, rfl⟩ := hi
    have hmay : (x.canRun || x.atBarrier) = true := (Bool.and_eq_true_iff.mp h.2.1).2
    intro hw
    simp [Stream.canRun, Stream.atBarrier, hw] at hmay
  · have hrun := (canRun_of_turn h fun a b c he => hi ⟨a, b, c, he⟩).1
    rw [((canRun_iff x).mp hrun).2.1]
    exact Wait.noConfusion

/-! ### The stream enters ERROR -/

/-- R132: the stream leaves its barriers in ERROR. -/
theorem errs_enterError (hx : findStream s core ck = some x) (code : Nat) (pc : DWord) :
    Errs (enterError s core ck code pc) core ck code pc := by
  have hset : findStream (modStream s core ck fun x => { x.halt with state := .error, errCode := code, errPc := pc }) core ck =
      some { x.halt with state := .error, errCode := code, errPc := pc } := findStream_modStream hx fun _ => rfl
  have hleave : ∃ t, enterError s core ck code pc = leaveBarriers t ck (streamId core) ∧ findStream t core ck =
      some { x.halt with state := .error, errCode := code, errPc := pc } := by
    unfold enterError
    rw [hx]
    refine ⟨_, rfl, ?_⟩
    dsimp only
    split
    · exact hset
    · exact hset
  obtain ⟨t, he, ht⟩ := hleave
  obtain ⟨y, hy, hapart⟩ := exists_of_map_findStream ht (apart_leaveBarriers t ck (streamId core) core)
  have hkeep : ∀ {γ : Type} (g : Stream → γ), (∀ z : Stream, g z.apart = g z) →
      g y = g { x.halt with state := .error, errCode := code, errPc := pc } := by
    intro γ g hg
    rw [← hg y, hapart, hg]
  rw [he]
  exact ⟨y, hy, error_of_apart hapart rfl, hkeep Stream.errCode fun _ => rfl, hkeep Stream.errPc fun _ => rfl,
    hkeep Stream.mma fun _ => rfl, hkeep Stream.mwbs fun _ => rfl, hkeep Stream.granted fun _ => rfl⟩

/-! ### A word that fails as it starts -/

/-- No word at the address is under way, none has failed, and the stream waits for no page. -/
def Stream.Clear (x : Stream) (pc : DWord) : Prop :=
  (∀ m, x.mma = some m → m.word ≠ pc) ∧ (∀ m, x.msta = some m → m.word ≠ pc) ∧ (∀ m ∈ x.mwbs, m.word ≠ pc) ∧
    x.failing = none ∧ x.wait ≠ .fault

theorem any_word_eq_false {α : Type} {o : Option α} {w : α → DWord} (h : ∀ m, o = some m → w m ≠ pc) :
    (o.any fun m => w m == pc) = false := by
  cases o with
  | none => rfl
  | some m => simpa using h m rfl

theorem filter_word_eq {α : Type} {o : Option α} {w : α → DWord} (h : ∀ m, o = some m → w m ≠ pc) :
    (o.filter fun m => !(w m == pc)) = o := by
  cases o with
  | none => rfl
  | some m => simpa [Option.filter] using h m rfl

/-- The word is the first of the stream that fails; nothing else changes but the pages that are waited for. -/
theorem fail_clear (h : x.Clear pc) (code : Nat) : Stream.fail code pc x =
    { x with waitReqs := x.waitReqs.filter fun r => !(r.2 == pc), failing := some (code, pc) } := by
  obtain ⟨hmma, hmsta, hmwbs, hf, hw⟩ := h
  have hkept : (x.mwbs.filter fun m => !(m.word == pc)) = x.mwbs :=
    List.filter_eq_self.mpr fun m hm => by simpa using hmwbs m hm
  have hwait : (x.wait == .fault) = false := by simpa using hw
  simp only [Stream.fail, any_word_eq_false hmma, any_word_eq_false hmsta, filter_word_eq hmma, filter_word_eq hmsta, hf,
    hwait, Bool.or_false, Bool.not_false, Bool.and_true, Bool.true_or, Bool.false_and, Bool.false_eq_true, if_false, hkept]

theorem fail_cohort (code : Nat) (pc : DWord) (x : Stream) : (Stream.fail code pc x).cohort = x.cohort := by
  unfold Stream.fail
  dsimp only
  split
  · rfl
  · rfl

theorem streamError_clear (hx : findStream s core ck = some x) (h : x.Clear pc) (code : Nat) :
    streamError s core ck code pc = settleStream (modStream s core ck (Stream.fail code pc)) core ck := by
  obtain ⟨hmma, hmsta, -⟩ := h
  have hslots : undoMwbs s core ck pc = s := by
    rw [undoMwbs, hx]
    dsimp only
    rw [if_neg]
    rw [Stream.runs, any_word_eq_false hmma, any_word_eq_false hmsta]
    exact Bool.false_ne_true
  have htile : undoMma s core ck pc = s := by
    rw [undoMma, hx, Option.bind_some]
    split
    · next m hm => rw [if_neg (by simpa using hmma m hm)]
    · rfl
  rw [streamError, hslots, htile]

theorem settleStream_failing {f : Nat × DWord} (hx : findStream s core ck = some x) (hf : x.failing = some f) :
    settleStream s core ck =
      if x.canRun && !x.running && x.mwbs.isEmpty then enterError s core ck f.1 f.2 else s := by
  rw [settleStream, hx]
  dsimp only
  rw [hf]

theorem settleStream_none (hx : findStream s core ck = some x) (hf : x.failing = none) : settleStream s core ck = s := by
  rw [settleStream, hx]
  dsimp only
  rw [hf]

theorem still_iff (x : Stream) : (x.canRun && !x.running && x.mwbs.isEmpty) = true ↔ Still x := by
  simp [Still, Stream.running, and_assoc]

/-- A word that fails as it starts stops the stream, at once or when the words under way have ended (R120, R132). -/
theorem fails_of_streamError (h : Statements.Turn s i x) (he : exec i s = .next (streamError s s.curStream.1 x.cohort code x.pc)) :
    Fails s i x code := by
  have hx := find_of_turn h
  have hfail : findStream (modStream s s.curStream.1 x.cohort (Stream.fail code x.pc)) s.curStream.1 x.cohort =
      some (Stream.fail code x.pc x) := findStream_modStream hx (fail_cohort code x.pc)
  have hrun : x.Clear x.pc → exec i s = .next (if x.canRun && !x.running && x.mwbs.isEmpty
      then enterError (modStream s s.curStream.1 x.cohort (Stream.fail code x.pc)) s.curStream.1 x.cohort code x.pc
      else modStream s s.curStream.1 x.cohort (Stream.fail code x.pc)) := by
    intro hclear
    rw [he, streamError_clear hx hclear, settleStream_failing hfail (by rw [fail_clear hclear]), fail_clear hclear]
    rfl
  refine ⟨fun hs => ?_, fun hs hmma hmsta hmwbs => ?_⟩
  · have hclear : x.Clear x.pc := by
      obtain ⟨-, h1, h2, h3⟩ := hs
      exact ⟨by simp [h1], by simp [h2], by simp [h3], failing_of_turn h, wait_of_turn h⟩
    rw [hrun hclear, if_pos ((still_iff x).mpr hs), cohort_of_turn h]
    rw [cohort_of_turn h] at hfail
    exact ⟨_, rfl, errs_enterError hfail code x.pc⟩
  · have hclear : x.Clear x.pc := ⟨hmma, hmsta, hmwbs, failing_of_turn h, wait_of_turn h⟩
    rw [hrun hclear, if_neg (mt (still_iff x).mp hs), cohort_of_turn h]
    rw [cohort_of_turn h, fail_clear hclear] at hfail
    exact ⟨_, rfl, _, hfail, rfl, rfl, rfl, rfl, rfl⟩

/-- A word that ends with an update of its stream completes. -/
theorem completes_of_modStream {f : Stream → Stream} {p : State → Stream → Prop} (h : Statements.Turn s i x)
    (he : exec i s = .next (modStream t s.curStream.1 x.cohort f)) (hy : findStream t s.curStream.1 x.cohort = some y)
    (hf : ∀ z, (f z).cohort = z.cohort) (hpc : (f y).pc = x.pc + 4)
    (hp : p (modStream t s.curStream.1 x.cohort f) (f y)) : Completes s i x p := by
  refine ⟨_, he, f y, ?_, hpc, hp⟩
  rw [← cohort_of_turn h]
  exact findStream_modStream hy hf

end Sys2Proof.Machine
end

section
/-! SUPPORT. MBAR (R124, R126): the arrivals and the waits of a stream at the barriers of its cohort. -/

open Sys2Proof Sys2Proof.Machine Sys2Proof.Safety Sys2Proof.Statements
namespace Sys2Proof.Machine

variable {s t : State} {core ck b : Nat} {c : Cohort} {x y : Stream}

/-! ### The stream that a barrier serves on a core -/

/-- The streams of a cohort that take part in barriers on one engine (R126). -/
def atBarriers (ck : Nat) (e : Nat × Engine) : List (Nat × Stream) :=
  (e.2.streams.filter fun x => x.cohort == ck && !x.failed).map fun x => (e.1, x)

theorem find_atBarriers_other {e : Nat × Engine} (h : e.1 ≠ core) :
    (atBarriers ck e).find? (fun z => z.1 == core) = none := by
  refine List.find?_eq_none.mpr fun z hz => ?_
  obtain ⟨w, -, rfl⟩ := List.mem_map.mp hz
  simpa using h

theorem find_atBarriers_same {e : Engine} (hx : e.streams.find? (fun z => z.cohort == ck) = some x)
    (hf : x.failed = false) : (atBarriers ck (core, e)).find? (fun z => z.1 == core) = some (core, x) := by
  have hfirst : (e.streams.filter fun z => z.cohort == ck && !z.failed).head? = some x := by
    obtain ⟨hck, as, bs, hl, has⟩ := List.find?_eq_some_iff_append.mp hx
    have hnil : (as.filter fun z => z.cohort == ck && !z.failed) = [] :=
      List.filter_eq_nil_iff.mpr fun z hz => by
        have := has z hz
        simp_all
    rw [hl, List.filter_append, hnil, List.nil_append, List.filter_cons, if_pos (by simp [hck, hf])]
    rfl
  obtain ⟨r, hr⟩ := List.head?_eq_some_iff.mp hfirst
  rw [atBarriers, hr, List.map_cons]
  exact List.find?_cons_of_pos (by simp)

/-- It is the stream of the core, unless that has had an error. -/
theorem find_streamsOf (hx : findStream s core ck = some x) (hf : x.failed = false) :
    (streamsOf s ck).find? (fun z => z.1 == core) = some (core, x) := by
  rw [findStream, getEngine] at hx
  show (s.engines.flatMap (atBarriers ck)).find? _ = _
  generalize s.engines = m at hx
  induction m with
  | nil => cases hx
  | cons e r ih =>
    obtain ⟨j, w⟩ := e
    rw [List.flatMap_cons, List.find?_append]
    by_cases hj : core = j
    · subst hj
      rw [sfind, if_pos rfl, Option.getD_some] at hx
      rw [find_atBarriers_same hx hf, Option.some_or]
    · rw [sfind, if_neg hj] at hx
      rw [find_atBarriers_other fun h => hj h.symm, Option.none_or, ih hx]

/-! ### A stream at a barrier -/

/-- The stream waits for a phase of barrier b that ph completes. -/
def Stream.passesBar (b : Nat) (ph : BitVec 16) (x : Stream) : Bool :=
  match x.wait with
  | .barWait k => k == b && reached ph (sget 0 x.arr b)
  | _ => false

/-- The stream when phase ph of barrier b is open: a wait for an earlier one has ended (R124). -/
def Stream.served (b : Nat) (ph : BitVec 16) (x : Stream) : Stream := if x.passesBar b ph then x.passed else x

theorem passesBar_passed (x : Stream) (b : Nat) (ph : BitVec 16) : x.passed.passesBar b ph = false := by
  unfold Stream.passesBar
  rcases passed_wait x with h | h <;> rw [h]

theorem stream_served_served (b : Nat) (ph : BitVec 16) (x : Stream) : (x.served b ph).served b ph = x.served b ph := by
  have h : (x.served b ph).passesBar b ph = false := by
    unfold Stream.served
    split
    · exact passesBar_passed x b ph
    · next h => simpa using h
  rw [Stream.served, h]
  rfl

theorem passed_failed (hf : x.failed = false) : x.passed.failed = false := by
  unfold Stream.passed Stream.unpark
  split
  · simp only [Stream.failed, Bool.or_eq_false_iff, beq_eq_false_iff_ne, Bool.and_eq_false_iff] at hf ⊢
    rcases hx : x.state <;> simp_all
  · exact hf

theorem served_failed (hf : x.failed = false) (b : Nat) (ph : BitVec 16) : (x.served b ph).failed = false := by
  unfold Stream.served
  split
  · exact passed_failed hf
  · exact hf

theorem not_barArrive_served_stream (h : ∀ w, x.wait ≠ .barArrive b w) (ph : BitVec 16) (w : Bool) :
    (x.served b ph).wait ≠ .barArrive b w := by
  unfold Stream.served
  split
  · rcases passed_wait x with hw | hw <;> rw [hw] <;> exact Wait.noConfusion
  · exact h w

/-- The stream of a core arrives when its phase is open (R124). -/
theorem serveStream_arrives {w : Bool} (hc : getCohort s ck = some c) (hx : findStream s core ck = some x)
    (hf : x.failed = false) (hwait : x.wait = .barArrive b w) (harr : sget 0 x.arr b = (c.bar b).ph) :
    serveStream ck b s core =
      modStream (setCohort s ck (countArrival c b (streamId core))) core ck (Stream.arriveAt b (c.bar b).ph w) := by
  unfold serveStream
  rw [hc, find_streamsOf hx hf]
  dsimp only
  rw [hwait]
  dsimp only
  rw [beq_self_eq_true, Bool.true_and, if_pos (beq_iff_eq.mpr harr)]
  rfl

/-- A stream of a core that is not to arrive, when a phase is open. -/
theorem serveStream_passes (hc : getCohort s ck = some c) (hx : findStream s core ck = some x) (hf : x.failed = false)
    (hwait : ∀ w, x.wait ≠ .barArrive b w) :
    serveStream ck b s core = if x.passesBar b (c.bar b).ph then modStream s core ck Stream.passed else s := by
  unfold serveStream Stream.passesBar
  rw [hc, find_streamsOf hx hf]
  dsimp only
  cases hw : x.wait
  case barArrive k w =>
    have hk : (k == b) = false := by
      rw [beq_eq_false_iff_ne]
      rintro rfl
      exact hwait w hw
    simp [hk]
  all_goals rfl

/-! ### A phase that opens while no other stream is to arrive -/

/-- No stream of the cohort on another core waits to arrive at barrier b. -/
def OthersPass (s : State) (core ck b : Nat) : Prop :=
  ∀ e ∈ streamsOf s ck, e.1 ≠ core → ∀ w, e.2.wait ≠ .barArrive b w

theorem othersPass_passed (h : OthersPass s core ck b) (k : Nat) :
    OthersPass (modStream s k ck Stream.passed) core ck b := by
  intro e he hne w
  obtain ⟨g, hg, hcore, hx, hck, hf⟩ := mem_streamsOf.mp he
  rcases mem_of_mem_sput hg with rfl | hg
  · obtain ⟨y, -, hy⟩ := List.mem_map.mp hx
    have hpassed : e.2 = y.passed := by
      rw [← hy]
      refine if_pos ?_
      rw [beq_iff_eq, ← hck, ← hy]
      split
      · exact (passed_cohort y).symm
      · rfl
    rw [hpassed]
    rcases passed_wait y with h | h <;> rw [h] <;> exact Wait.noConfusion
  · exact h e (mem_streamsOf.mpr ⟨g, hg, hcore, hx, hck, hf⟩) hne w

theorem serveStream_other (h : OthersPass s core ck b) {k : Nat} (hk : k ≠ core) :
    serveStream ck b s k = s ∨ serveStream ck b s k = modStream s k ck Stream.passed := by
  unfold serveStream
  split
  · next c i x _ hx =>
    have hi : i = k := by simpa using List.find?_some hx
    have hwait := h _ (List.mem_of_find?_eq_some hx) (hi ▸ hk)
    dsimp only
    split
    · next j w hw =>
      have hj : (j == b) = false := by
        rw [beq_eq_false_iff_ne]
        rintro rfl
        exact hwait w hw
      exact .inl (by simp [hj])
    · split
      · exact .inr rfl
      · exact .inl rfl
    · exact .inl rfl
  · exact .inl rfl

/-- What one stream's turn leaves: the stream of core is served when it is its turn. -/
theorem serveStream_step (hc : getCohort s ck = some c) (ho : OthersPass s core ck b) (hx : findStream s core ck = some x)
    (hf : x.failed = false) (hwait : ∀ w, x.wait ≠ .barArrive b w) (k : Nat) :
    (serveStream ck b s k).offPhase = s.offPhase ∧ OthersPass (serveStream ck b s k) core ck b ∧
      findStream (serveStream ck b s k) core ck = some (if k = core then x.served b (c.bar b).ph else x) := by
  by_cases hk : k = core
  · subst hk
    rw [serveStream_passes hc hx hf hwait, if_pos rfl, Stream.served]
    split
    · exact ⟨rfl, othersPass_passed ho k, findStream_modStream hx passed_cohort⟩
    · exact ⟨rfl, ho, hx⟩
  · rw [if_neg hk]
    rcases serveStream_other ho hk with h | h <;> rw [h]
    · exact ⟨rfl, ho, hx⟩
    · refine ⟨rfl, othersPass_passed ho k, ?_⟩
      rw [map_findStream_modStream s k core ck passed_cohort, if_neg fun h => hk h.symm, hx]

theorem foldl_serveStream_served (cores : List Nat) (hc : getCohort s ck = some c) (ho : OthersPass s core ck b)
    (hx : findStream s core ck = some x) (hf : x.failed = false) (hwait : ∀ w, x.wait ≠ .barArrive b w) :
    (cores.foldl (serveStream ck b) s).offPhase = s.offPhase ∧
      findStream (cores.foldl (serveStream ck b) s) core ck =
        some (if core ∈ cores then x.served b (c.bar b).ph else x) := by
  induction cores generalizing s x with
  | nil => exact ⟨rfl, hx⟩
  | cons k r ih =>
    obtain ⟨hoff, ho', hx'⟩ := serveStream_step hc ho hx hf hwait k
    have hc' : getCohort (serveStream ck b s k) ck = some c := (getCohort_congr (cohorts_of_offPhase hoff) ck).trans hc
    by_cases hk : k = core
    · subst hk
      rw [if_pos rfl] at hx'
      obtain ⟨hoff', hfind⟩ := ih hc' ho' hx' (served_failed hf ..) (not_barArrive_served_stream hwait _)
      rw [stream_served_served, ite_self] at hfind
      rw [List.foldl_cons, if_pos List.mem_cons_self]
      exact ⟨hoff'.trans hoff, hfind⟩
    · rw [if_neg hk] at hx'
      obtain ⟨hoff', hfind⟩ := ih hc' ho' hx' hf hwait
      rw [List.foldl_cons]
      refine ⟨hoff'.trans hoff, hfind.trans (congrArg some (if_congr ?_ rfl rfl))⟩
      rw [List.mem_cons, or_iff_right fun h => hk h.symm]

/-- Those who wait at barrier b of a cohort are served: the stream of core, if its wait is over, goes on. -/
theorem serveAll_serves {c' : Cohort} (hc : getCohort s ck = some c')
    (hteams : ∀ m ∈ c.members, ∀ w, (s.getTeam m.2).wait ≠ .barArrive b w) (ho : OthersPass s core ck b)
    (hx : findStream s core ck = some x) (hf : x.failed = false) (hwait : ∀ w, x.wait ≠ .barArrive b w) :
    getCohort (serveAll ck b c s) ck = some c' ∧
      findStream (serveAll ck b c s) core ck = some (x.served b (c'.bar b).ph) := by
  obtain ⟨hoff, heng, -⟩ := foldl_serveTeam (c.members.map Prod.snd) hc fun u hu => by
    obtain ⟨m, hmem, rfl⟩ := List.mem_map.mp hu
    exact hteams m hmem
  unfold serveAll
  dsimp only
  generalize (c.members.map Prod.snd).foldl (serveTeam ck b) s = t at hoff heng
  have hc1 : getCohort t ck = some c' := (getCohort_congr (cohorts_of_offPhase hoff) ck).trans hc
  have hx1 : findStream t core ck = some x := (findStream_congr heng core).trans hx
  have ho1 : OthersPass t core ck b := fun e he => ho e (streamsOf_congr heng ck ▸ he)
  have hin : core ∈ (streamsOf t ck).map Prod.fst :=
    List.mem_map_of_mem (f := Prod.fst) (List.mem_of_find?_eq_some (find_streamsOf hx1 hf))
  obtain ⟨hoff2, hfind⟩ := foldl_serveStream_served ((streamsOf t ck).map Prod.fst) hc1 ho1 hx1 hf hwait
  rw [if_pos hin] at hfind
  exact ⟨(getCohort_congr (cohorts_of_offPhase hoff2) ck).trans hc1, hfind⟩

/-- Everyone has arrived, and nobody else waits to arrive in the next phase: that opens, and the stream that waits for it
goes on (R75, R126). -/
theorem settleBarrier_serves (hc : getCohort s ck = some c) (hdone : (c.bar b).done = true) (hm : c.members ≠ [])
    (hteams : ∀ m ∈ c.members, ∀ w, (s.getTeam m.2).wait ≠ .barArrive b w) (ho : OthersPass s core ck b)
    (hx : findStream s core ck = some x) (hf : x.failed = false) (hwait : ∀ w, x.wait ≠ .barArrive b w) (n : Nat) :
    getCohort (settleBarrier ck b (n + 1) s) ck = some (c.setBar b (nextPhase s ck b c)) ∧
      findStream (settleBarrier ck b (n + 1) s) core ck = some (x.served b ((c.bar b).ph + 1)) := by
  have hco : getCohort (openPhase s ck b c) ck = some (c.setBar b (nextPhase s ck b c)) := by
    rw [openPhase, getCohort_setCohort, if_pos rfl]
  have hbar : (c.setBar b (nextPhase s ck b c)).bar b = nextPhase s ck b c := by rw [bar_setBar, if_pos rfl]
  obtain ⟨hc1, hx1⟩ := serveAll_serves (c := c) hco hteams ho hx hf hwait
  rw [hbar] at hx1
  rw [settleBarrier_done hc hdone hm, settleBarrier_open hc1 (by rw [hbar]; exact nextPhase_open s ck b hm)]
  exact ⟨hc1, hx1⟩

end Sys2Proof.Machine
end

section
/-! SUPPORT. MBAR (R124, R126): what the word comes to. -/

open Sys2Proof Sys2Proof.Machine Sys2Proof.Safety Sys2Proof.Statements
namespace Sys2Proof.Machine

variable {s : State} {core ck : Nat} {c : Cohort} {x : Stream}

/-! ### The stream at its MBAR -/

/-- The stream whose MBAR has started takes up its wait. -/
def Stream.takesUp (w : Wait) (x : Stream) : Stream := { x.skip with wait := w, granted := false }

/-- A stream that waits for something is PARKED (R115). -/
def Stream.rests (x : Stream) : Stream := if x.wait == .none then x else { x with state := .parked }

theorem rests_cohort (x : Stream) : x.rests.cohort = x.cohort := by
  unfold Stream.rests
  split <;> rfl

/-- The machine when the MBAR of a stream has started. -/
def atMbar (s : State) (core ck : Nat) (w : Wait) : State := modStream s core ck (Stream.takesUp w)

theorem find_atMbar (hx : findStream s core ck = some x) (w : Wait) :
    findStream (atMbar s core ck w) core ck = some (x.takesUp w) := findStream_modStream hx fun _ => rfl

theorem exec_mbar {b : BReg} {op : Fin 4} (h : Statements.Turn s (.mbar b op) x) (h0 : op.val ≠ 0)
    (hmask : op.val = 2 ∨ x.barMask.getLsbD b.val = true) :
    exec (.mbar b op) s = .next (modStream (settleBarrier x.cohort b.val barFuel (serveStream x.cohort b.val
      (atMbar s s.curStream.1 x.cohort (mbarWait b.val op.val)) s.curStream.1)) s.curStream.1 x.cohort Stream.rests) := by
  show execMbar b op s = _
  rw [execMbar, streamWord_turn h]
  have hgo : ¬(op.val == 0 || (op.val != 2 && !x.barMask.getLsbD b.val)) = true := by
    rcases hmask with h2 | hm
    · simp [h2]
    · simp [h0, hm]
  rw [if_neg hgo]
  rfl

/-- An arrival outside the mask, or no operation, is a stream error (R124). -/
theorem mbar_fails {b : BReg} {op : Fin 4} (h : Statements.Turn s (.mbar b op) x)
    (hbad : op.val = 0 ∨ (op.val ≠ 2 ∧ x.barMask.getLsbD b.val = false)) : Fails s (.mbar b op) x 6 := by
  refine fails_of_streamError h ?_
  show execMbar b op s = _
  rw [execMbar, streamWord_turn h, if_pos]
  rcases hbad with h0 | ⟨h2, hm⟩
  · simp [h0]
  · rw [hm]
    simp [h2]

/-! ### Arrivals -/

/-- The stream whose arrival at barrier b in phase ph has ended its word. -/
def Stream.afterArrival (b : Nat) (ph : BitVec 16) (x : Stream) : Stream :=
  { x.skip with arr := sset 0 x.arr b (ph + 1), wait := .none, granted := false }

/-- The stream that has arrived, and waits where its word says so. -/
def Stream.arrivedAt (b : Nat) (ph : BitVec 16) (thenWait : Bool) (x : Stream) : Stream :=
  (x.takesUp (.barArrive b thenWait)).arriveAt b ph thenWait

theorem arrivedAt_false (hst : x.state = .running) (hq : x.waitReqs = []) (b : Nat) (ph : BitVec 16) :
    x.arrivedAt b ph false = x.afterArrival b ph := by
  simp [Stream.arrivedAt, Stream.arriveAt, Stream.afterArrival, Stream.takesUp, Stream.skip, Stream.passed, Stream.unpark,
    hst, hq]

theorem arrivedAt_served (hst : x.state = .running) (hq : x.waitReqs = []) (b : Nat) (ph : BitVec 16) (w : Bool) :
    (x.arrivedAt b ph w).served b (ph + 1) = x.afterArrival b ph := by
  cases w
  · rw [arrivedAt_false hst hq]
    rfl
  · have hpass : (x.arrivedAt b ph true).passesBar b (ph + 1) = true := by
      show (b == b && reached (ph + 1) (sget 0 (sset 0 x.arr b (ph + 1)) b)) = true
      rw [sget_sset, if_pos rfl, reached, BitVec.sub_self]
      simp
    rw [Stream.served, if_pos hpass]
    simp [Stream.arrivedAt, Stream.arriveAt, Stream.afterArrival, Stream.takesUp, Stream.skip, Stream.passed,
      Stream.unpark, hst, hq]

theorem arrivedAt_not_failed (hst : x.state = .running) (b : Nat) (ph : BitVec 16) (w : Bool) :
    (x.arrivedAt b ph w).failed = false := by
  have hf : (x.takesUp (.barArrive b w)).failed = false := by
    show (x.state == .error || (x.state == .saved && x.savedFrom == .error)) = false
    rw [hst]
    rfl
  cases w
  · exact passed_failed (x := { x.takesUp (.barArrive b false) with arr := sset 0 x.arr b (ph + 1) }) hf
  · exact hf

theorem arrivedAt_wait (x : Stream) (b : Nat) (ph : BitVec 16) (w w' : Bool) :
    (x.arrivedAt b ph w).wait ≠ .barArrive b w' := by
  cases w
  · rcases passed_wait { x.takesUp (.barArrive b false) with arr := sset 0 x.arr b (ph + 1) } with h | h
    · exact fun he => Wait.noConfusion (h.symm.trans he)
    · exact fun he => Wait.noConfusion (h.symm.trans he)
  · exact Wait.noConfusion

/-- The machine when the stream of a core has arrived at barrier b of cohort c. -/
def streamArrival (s : State) (core ck b : Nat) (c : Cohort) (w : Bool) : State :=
  modStream (setCohort (atMbar s core ck (.barArrive b w)) ck (countArrival c b (streamId core))) core ck
    (Stream.arriveAt b (c.bar b).ph w)

theorem serveStream_atMbar {b : Nat} (hc : getCohort s ck = some c) (hx : findStream s core ck = some x)
    (hst : x.state = .running) (harr : sget 0 x.arr b = (c.bar b).ph) (w : Bool) :
    serveStream ck b (atMbar s core ck (.barArrive b w)) core = streamArrival s core ck b c w := by
  refine serveStream_arrives (x := x.takesUp (.barArrive b w)) hc (find_atMbar hx _) ?_ rfl harr
  show (x.state == .error || (x.state == .saved && x.savedFrom == .error)) = false
  rw [hst]
  rfl

theorem find_streamArrival (hx : findStream s core ck = some x) (b : Nat) (c : Cohort) (w : Bool) :
    findStream (streamArrival s core ck b c w) core ck = some (x.arrivedAt b (c.bar b).ph w) :=
  findStream_modStream (find_atMbar hx _) fun y => cohort_of_apart (arriveAt_apart b (c.bar b).ph w y)

theorem getCohort_streamArrival (s : State) (core ck b : Nat) (c : Cohort) (w : Bool) :
    getCohort (streamArrival s core ck b c w) ck = some (countArrival c b (streamId core)) :=
  (getCohort_setCohort (atMbar s core ck (.barArrive b w)) ck ck _).trans (if_pos rfl)

theorem mem_streamArrival (s : State) (core ck b : Nat) (c : Cohort) (w : Bool) :
    (streamArrival s core ck b c w).mem = s.mem := by
  rw [streamArrival, mem_modStream, mem_setCohort, atMbar, mem_modStream]

theorem othersPass_modStream {b : Nat} (h : OthersPass s core ck b) (f : Stream → Stream) :
    OthersPass (modStream s core ck f) core ck b := by
  intro e he hne
  obtain ⟨g, hg, hcore, hx, hck, hf⟩ := mem_streamsOf.mp he
  rcases mem_of_mem_sput hg with rfl | hg
  · exact absurd hcore.symm hne
  · exact h e (mem_streamsOf.mpr ⟨g, hg, hcore, hx, hck, hf⟩) hne

theorem othersPass_streamArrival {b : Nat} (h : OthersPass s core ck b) (c : Cohort) (w : Bool) :
    OthersPass (streamArrival s core ck b c w) core ck b :=
  othersPass_modStream (s := setCohort (atMbar s core ck (.barArrive b w)) ck (countArrival c b (streamId core)))
    (othersPass_modStream h _) _

theorem countArrival_done_iff (c : Cohort) (b u : Nat) :
    ((countArrival c b u).bar b).done = true ↔ ∀ v ∈ (c.bar b).expected, v ∈ (c.bar b).arrived ++ [u] := by
  rw [bar_countArrival, if_pos rfl]
  exact done_iff _

/-! ### The word -/

section
variable {b : BReg} {op : Fin 4}

/-- An MBAR that arrives is one with op 1 or 3; the latter waits (R124). -/
theorem mbarWait_arrives (hop : op.val = 1 ∨ op.val = 3) (b : Nat) :
    mbarWait b op.val = .barArrive b (op.val == 3) := by
  rcases hop with h | h <;> rw [h] <;> rfl

/-- An MBAR that arrives in the open phase. -/
theorem exec_mbar_arrives (h : Statements.Turn s (.mbar b op) x) (hop : op.val = 1 ∨ op.val = 3)
    (hmask : x.barMask.getLsbD b.val = true) (hc : getCohort s x.cohort = some c)
    (harr : sget 0 x.arr b.val = (c.bar b.val).ph) :
    exec (.mbar b op) s = .next (modStream (settleBarrier x.cohort b.val barFuel
      (streamArrival s s.curStream.1 x.cohort b.val c (op.val == 3))) s.curStream.1 x.cohort Stream.rests) := by
  obtain ⟨hst, -, -⟩ := (canRun_iff x).mp (canRun_of_turn h fun _ _ _ => Instr.noConfusion).1
  rw [exec_mbar h (by omega) (.inr hmask), mbarWait_arrives hop, serveStream_atMbar hc (find_of_turn h) hst harr]

/-- The arrival completes the phase, and the word with it (R75, R124). -/
theorem mbar_arrives_last (h : Statements.Turn s (.mbar b op) x) (hop : op.val = 1 ∨ op.val = 3)
    (hmask : x.barMask.getLsbD b.val = true) (hc : getCohort s x.cohort = some c) (hm : c.members ≠ [])
    (harr : sget 0 x.arr b.val = (c.bar b.val).ph) (hq : x.waitReqs = [])
    (hlast : ∀ v ∈ (c.bar b.val).expected, v ∈ (c.bar b.val).arrived ++ [streamId s.curStream.1])
    (hteams : ∀ m ∈ c.members, ∀ w, (s.getTeam m.2).wait ≠ .barArrive b.val w)
    (ho : OthersPass s s.curStream.1 x.cohort b.val) :
    Completes s (.mbar b op) x fun t y => sget 0 y.arr b.val = (c.bar b.val).ph + 1 ∧ y.state = .running ∧
      ∃ c', getCohort t x.cohort = some c' ∧ (c'.bar b.val).ph = (c.bar b.val).ph + 1 ∧ (c'.bar b.val).arrived = [] := by
  obtain ⟨hst, -, -⟩ := (canRun_iff x).mp (canRun_of_turn h fun _ _ _ => Instr.noConfusion).1
  have hph : ((countArrival c b.val (streamId s.curStream.1)).bar b.val).ph = (c.bar b.val).ph := by
    rw [bar_countArrival, if_pos rfl]
    rfl
  obtain ⟨hcohort, hfind⟩ := settleBarrier_serves (getCohort_streamArrival s _ _ _ _ (op.val == 3))
    ((countArrival_done_iff c b.val _).mpr hlast) (show (countArrival c b.val _).members ≠ [] from hm) hteams
    (othersPass_streamArrival ho c (op.val == 3)) (find_streamArrival (find_of_turn h) _ _ _)
    (arrivedAt_not_failed hst ..) (arrivedAt_wait x _ _ _) 3
  rw [hph, arrivedAt_served hst hq] at hfind
  refine completes_of_modStream h (exec_mbar_arrives h hop hmask hc harr) hfind rests_cohort rfl ?_
  refine ⟨?_, hst, _, hcohort, ?_, ?_⟩
  · show sget 0 (sset 0 x.arr b.val ((c.bar b.val).ph + 1)) b.val = _
    rw [sget_sset, if_pos rfl]
  · rw [bar_setBar, if_pos rfl, nextPhase, hph]
  · rw [bar_setBar, if_pos rfl]
    rfl

/-- The phase stays open after the arrival: the word completes, or the stream waits for the phase (R124). -/
theorem mbar_arrives_open (h : Statements.Turn s (.mbar b op) x) (hop : op.val = 1 ∨ op.val = 3)
    (hmask : x.barMask.getLsbD b.val = true) (hc : getCohort s x.cohort = some c)
    (harr : sget 0 x.arr b.val = (c.bar b.val).ph)
    (hlast : ¬∀ v ∈ (c.bar b.val).expected, v ∈ (c.bar b.val).arrived ++ [streamId s.curStream.1]) :
    exec (.mbar b op) s = .next (modStream (streamArrival s s.curStream.1 x.cohort b.val c (op.val == 3))
      s.curStream.1 x.cohort Stream.rests) := by
  rw [exec_mbar_arrives h hop hmask hc harr, settleBarrier_open (getCohort_streamArrival s _ _ _ _ (op.val == 3))]
  rw [Bool.eq_false_iff, ne_eq, countArrival_done_iff]
  exact hlast

/-- An MBAR that waits: for a phase that is over it completes, for any other the stream is parked (R124). -/
theorem exec_mbar_waits (h : Statements.Turn s (.mbar b op) x) (hop : op.val = 2) (hc : getCohort s x.cohort = some c)
    (hopen : (c.bar b.val).done = false) :
    exec (.mbar b op) s = .next (modStream (if reached (c.bar b.val).ph (sget 0 x.arr b.val)
      then modStream (atMbar s s.curStream.1 x.cohort (.barWait b.val)) s.curStream.1 x.cohort Stream.passed
      else atMbar s s.curStream.1 x.cohort (.barWait b.val)) s.curStream.1 x.cohort Stream.rests) := by
  obtain ⟨hst, -, -⟩ := (canRun_iff x).mp (canRun_of_turn h fun _ _ _ => Instr.noConfusion).1
  have hf : (x.takesUp (.barWait b.val)).failed = false := by
    show (x.state == .error || (x.state == .saved && x.savedFrom == .error)) = false
    rw [hst]
    rfl
  have hpass : (x.takesUp (.barWait b.val)).passesBar b.val (c.bar b.val).ph =
      reached (c.bar b.val).ph (sget 0 x.arr b.val) := by
    show (b.val == b.val && _) = _
    rw [beq_self_eq_true, Bool.true_and]
    rfl
  have hserve := serveStream_passes (b := b.val) (s := atMbar s s.curStream.1 x.cohort (.barWait b.val)) hc
    (find_atMbar (find_of_turn h) _) hf fun _ => Wait.noConfusion
  rw [hpass] at hserve
  have hw : mbarWait b.val op.val = .barWait b.val := by
    rw [hop]
    rfl
  rw [exec_mbar h (by omega) (.inl hop), hw, hserve, settleBarrier_open (c := c) (by split <;> exact hc) hopen]

end

end Sys2Proof.Machine
end

section
/-! SUPPORT. MFMT, MBAR, MEND, MWB, MLW and MCLR (R119 to R121, R124, R125): each completes, or gives its error code. -/

open Sys2Proof Sys2Proof.Machine Sys2Proof.Safety Sys2Proof.Statements
namespace Sys2Proof.Machine

variable {s : State} {x : Stream}

theorem running_of_turn {i : Instr} (h : Statements.Turn s i x) (hi : ∀ a b c, i ≠ .mwb a b c) : x.state = .running :=
  ((canRun_iff x).mp (canRun_of_turn h hi).1).1

theorem nextWord_cohort (x : Stream) : x.nextWord.cohort = x.cohort := rfl

/-! ### MFMT (R119) -/

section
variable {f : AFmt} {j : Fin 9} {srec : Fin 256}

theorem mfmt_fails (h : Statements.Turn s (.mfmt f j srec) x) (hj : j.val = 1) : Fails s (.mfmt f j srec) x 9 := by
  refine fails_of_streamError h ?_
  show execMfmt f j srec s = _
  rw [execMfmt, streamWord_turn h, if_pos (beq_iff_eq.mpr hj)]

theorem mfmt_completes (h : Statements.Turn s (.mfmt f j srec) x) (hj : j.val ≠ 1) :
    Completes s (.mfmt f j srec) x fun t y => y.afmt = f ∧ y.j = j.val ∧ y.srec = srec.val ∧ y.state = .running ∧
      t.mem = s.mem := by
  have hst := running_of_turn h fun _ _ _ => Instr.noConfusion
  refine completes_of_modStream (t := s) h (f := fun x => { x with afmt := f, j := j.val, srec := srec.val }.nextWord) ?_
    (find_of_turn h) (fun _ => rfl) rfl ⟨rfl, rfl, rfl, ?_, rfl⟩
  · show execMfmt f j srec s = _
    rw [execMfmt, streamWord_turn h, if_neg (by simpa using hj)]
  · show (if x.state == .parked then SState.running else x.state) = .running
    rw [hst]
    rfl

end

/-! ### MBAR (R124) -/

section
variable {b : BReg} {op : Fin 4} {c : Cohort}

theorem mbar_arr_completes (h : Statements.Turn s (.mbar b op) x) (hop : op.val = 1)
    (hmask : x.barMask.getLsbD b.val = true) (hc : getCohort s x.cohort = some c)
    (harr : sget 0 x.arr b.val = (c.bar b.val).ph) (hq : x.waitReqs = [])
    (hlast : ¬∀ v ∈ (c.bar b.val).expected, v ∈ (c.bar b.val).arrived ++ [streamId s.curStream.1]) :
    Completes s (.mbar b op) x fun t y => sget 0 y.arr b.val = (c.bar b.val).ph + 1 ∧ y.state = .running ∧
      t.mem = s.mem ∧ ∃ c', getCohort t x.cohort = some c' ∧ (c'.bar b.val).ph = (c.bar b.val).ph ∧
        (c'.bar b.val).arrived = (c.bar b.val).arrived ++ [streamId s.curStream.1] := by
  have hst := running_of_turn h fun _ _ _ => Instr.noConfusion
  have hexec := mbar_arrives_open h (.inl hop) hmask hc harr hlast
  rw [hop] at hexec
  have hfind := find_streamArrival (find_of_turn h) b.val c false
  rw [arrivedAt_false hst hq] at hfind
  refine completes_of_modStream h hexec hfind rests_cohort rfl ?_
  rw [getCohort_modStream, getCohort_streamArrival, mem_modStream, mem_streamArrival]
  refine ⟨?_, hst, rfl, _, rfl, ?_⟩
  · show sget 0 (sset 0 x.arr b.val ((c.bar b.val).ph + 1)) b.val = _
    rw [sget_sset, if_pos rfl]
  · rw [bar_countArrival, if_pos rfl]
    exact ⟨rfl, rfl⟩

theorem mbar_sync_parks (h : Statements.Turn s (.mbar b op) x) (hop : op.val = 3)
    (hmask : x.barMask.getLsbD b.val = true) (hc : getCohort s x.cohort = some c)
    (harr : sget 0 x.arr b.val = (c.bar b.val).ph)
    (hlast : ¬∀ v ∈ (c.bar b.val).expected, v ∈ (c.bar b.val).arrived ++ [streamId s.curStream.1]) :
    ∃ t, exec (.mbar b op) s = .next t ∧ StreamIs t s.curStream.1 s.curStream.2 fun y =>
      y.state = .parked ∧ y.wait = .barWait b.val ∧ y.pc = x.pc + 4 ∧ sget 0 y.arr b.val = (c.bar b.val).ph + 1 := by
  have hexec := mbar_arrives_open h (.inr hop) hmask hc harr hlast
  rw [hop] at hexec
  have hfind := findStream_modStream (find_streamArrival (find_of_turn h) b.val c true) rests_cohort
  refine ⟨_, hexec, _, by rw [← cohort_of_turn h]; exact hfind, rfl, rfl, rfl, ?_⟩
  show sget 0 (sset 0 x.arr b.val ((c.bar b.val).ph + 1)) b.val = _
  rw [sget_sset, if_pos rfl]

theorem passed_takesUp (hst : x.state = .running) (hq : x.waitReqs = []) (w : Wait) :
    (x.takesUp w).passed = x.takesUp .none := by
  simp [Stream.takesUp, Stream.skip, Stream.passed, Stream.unpark, hst, hq]

theorem mbar_wait_completes (h : Statements.Turn s (.mbar b op) x) (hop : op.val = 2) (hc : getCohort s x.cohort = some c)
    (hopen : (c.bar b.val).done = false) (hq : x.waitReqs = [])
    (hr : ((c.bar b.val).ph - sget 0 x.arr b.val).toNat < 2 ^ 15) :
    Completes s (.mbar b op) x fun t _ => t.mem = s.mem ∧ t.cohorts = s.cohorts := by
  have hst := running_of_turn h fun _ _ _ => Instr.noConfusion
  have hexec := exec_mbar_waits h hop hc hopen
  have hreached : reached (c.bar b.val).ph (sget 0 x.arr b.val) = true := decide_eq_true hr
  rw [if_pos hreached] at hexec
  have hfind := findStream_modStream (find_atMbar (find_of_turn h) (.barWait b.val)) passed_cohort
  rw [passed_takesUp hst hq] at hfind
  refine completes_of_modStream h hexec hfind rests_cohort rfl ?_
  simp only [atMbar, mem_modStream, cohorts_modStream, and_self]

theorem mbar_wait_parks (h : Statements.Turn s (.mbar b op) x) (hop : op.val = 2) (hc : getCohort s x.cohort = some c)
    (hopen : (c.bar b.val).done = false) (hr : 2 ^ 15 ≤ ((c.bar b.val).ph - sget 0 x.arr b.val).toNat) :
    ∃ t, exec (.mbar b op) s = .next t ∧ StreamIs t s.curStream.1 s.curStream.2 fun y =>
      y.state = .parked ∧ y.wait = .barWait b.val ∧ y.pc = x.pc + 4 := by
  have hexec := exec_mbar_waits h hop hc hopen
  rw [if_neg (by rw [reached, decide_eq_true_eq]; omega)] at hexec
  have hfind := findStream_modStream (find_atMbar (find_of_turn h) (.barWait b.val)) rests_cohort
  exact ⟨_, hexec, _, by rw [← cohort_of_turn h]; exact hfind, rfl, rfl, rfl⟩

end

/-! ### MEND (R125) -/

theorem retireThen_done {s1 : State} {core : Nat} {ps : List StampRun} (h : retireStamps core x ps s = (.done, s1))
    (pc : DWord) (k : State → State) : retireThen s core x pc ps k = k s1 := by
  rw [retireThen, h]

/-- The stream when some of its stamps are written. -/
theorem find_retired {s1 : State} {core : Nat} {ps : List StampRun} {r : Retire} (hx : findStream s core x.cohort = some x)
    (h : retireStamps core x ps s = (r, s1)) :
    ∃ y, findStream s1 core x.cohort = some y ∧ y.unstamped = x.unstamped := by
  have hun := unstamped_retireStamps core x ps s
  rw [h] at hun
  exact findStream_of_unstamped hun hx

theorem mend_detaches {s1 : State} (h : Statements.Turn s .mend x)
    (hr : retireStamps s.curStream.1 x x.stamps s = (.done, s1)) :
    ∃ t, exec .mend s = .next t ∧ findStream t s.curStream.1 s.curStream.2 = none ∧
      Emptied (getEngine t s.curStream.1) x := by
  obtain ⟨y, hy, hyx⟩ := find_retired (find_of_turn h) hr
  obtain ⟨hnone, hempty⟩ := detachStream_detaches hy
  refine ⟨detachStream s1 s.curStream.1 x.cohort, ?_, by rw [← cohort_of_turn h, hnone],
    emptied_of_holding hempty (holding_of_unstamped hyx).symm⟩
  show execMend s = _
  rw [execMend, streamWord_turn h, retireThen_done hr]

/-! ### MWB (R120) -/

section
variable {slot : Fin 16} {rec idx : Fin 256}

theorem holdsSlot_eq_false_iff (x : Stream) (n : Nat) : x.holdsSlot n = false ↔ ¬Holds x n := by
  rw [← holdsSlot_iff, Bool.not_eq_true]

theorem mwb_fails_slot (h : Statements.Turn s (.mwb slot rec idx) x) (hn : ¬Holds x slot.val) :
    Fails s (.mwb slot rec idx) x 4 := by
  refine fails_of_streamError h ?_
  show execMwb slot rec idx s = _
  rw [execMwb, streamWord_turn h, (holdsSlot_eq_false_iff ..).mpr hn]
  rfl

theorem exec_mwb_holds (h : Statements.Turn s (.mwb slot rec idx) x) (hn : Holds x slot.val) :
    exec (.mwb slot rec idx) s = .next (match getRec s x.ctx rec.val with
      | none => streamError s s.curStream.1 x.cohort 5 x.pc
      | some r =>
        if recBroken r then streamError s s.curStream.1 x.cohort 5 x.pc
        else modStream s s.curStream.1 x.cohort fun x => { x.skip with mwbs := x.mwbs ++
          [⟨x.pc, slot.val, BitVec.ofInt 64 (recBase r + (idx.val : Int) * recStride r 0), none⟩] }) := by
  show execMwb slot rec idx s = _
  rw [execMwb, streamWord_turn h, (holdsSlot_iff ..).mpr hn]
  rfl

theorem mwb_fails_record (h : Statements.Turn s (.mwb slot rec idx) x) (hn : Holds x slot.val)
    (hr : getRec s x.ctx rec.val = none ∨ ∃ q, getRec s x.ctx rec.val = some q ∧ recBroken q = true) :
    Fails s (.mwb slot rec idx) x 5 := by
  refine fails_of_streamError h ((exec_mwb_holds h hn).trans ?_)
  rcases hr with hr | ⟨q, hr, hq⟩
  · rw [hr]
  · rw [hr]
    dsimp only
    rw [if_pos hq]

theorem mwb_completes {q : TRec} (h : Statements.Turn s (.mwb slot rec idx) x) (hn : Holds x slot.val)
    (hr : getRec s x.ctx rec.val = some q) (hq : recBroken q = false) :
    Completes s (.mwb slot rec idx) x fun t y => t.mem = s.mem ∧ y.state = x.state ∧ y.wait = x.wait ∧ y.mwbs =
      x.mwbs ++ [⟨x.pc, slot.val, BitVec.ofInt 64 (recBase q + idx.val * recStride q 0), none⟩] := by
  have hexec := exec_mwb_holds h hn
  rw [hr] at hexec
  dsimp only at hexec
  rw [if_neg (by rw [hq]; exact Bool.false_ne_true)] at hexec
  exact completes_of_modStream h hexec (find_of_turn h) (fun _ => rfl) rfl ⟨rfl, rfl, rfl, rfl⟩

end

/-! ### MLW (R110, R119, R120) -/

section
variable {slot : Fin 16}

theorem latchOf_of_latches {e : Engine} {n : Nat} {l : Option Latched} (h : Latches e x n l) : latchOf e x n none = l := by
  unfold Latches at h
  unfold latchOf
  dsimp only at h ⊢
  cases hg : parseImage (sget [] e.slots n) with
  | none =>
    rw [hg] at h
    exact h.symm
  | some g =>
    rw [hg] at h
    dsimp only at h ⊢
    obtain ⟨hother, hmore, hplanes⟩ := h
    by_cases hf : g.fmt = .bp8
    · rw [if_neg (by simpa using hf), Option.getD_none]
      by_cases hj : x.j ≤ g.planes
      · rw [hplanes hf hj]
        by_cases h0 : x.j = 0
        · simp only [h0, beq_self_eq_true, if_true, Nat.lt_irrefl, if_false]
          rfl
        · have hj0 : (x.j == 0) = false := beq_eq_false_iff_ne.mpr h0
          simp only [hj0, Bool.false_eq_true, if_false, Nat.not_lt.mpr hj, h0]
          rfl
      · have h0 : ¬(x.j == 0) = true := by
          rw [beq_iff_eq]
          omega
        rw [if_neg h0, if_pos (Nat.lt_of_not_le hj), hmore hf (Nat.lt_of_not_le hj)]
    · rw [if_pos (by simpa using hf), hother hf]
      rfl

theorem mlw_fails_slot (h : Statements.Turn s (.mlw slot) x) (hn : ¬Holds x slot.val) : Fails s (.mlw slot) x 4 := by
  refine fails_of_streamError h ?_
  show execMlw slot s = _
  rw [execMlw, streamWord_turn h, (holdsSlot_eq_false_iff ..).mpr hn]
  rfl

/-- What MLW does with the block of its slot; j exceeds the stored planes where there is none (R119). -/
def mlwStep (s : State) (core : Nat) (x : Stream) : Option Latched → State
  | none => streamError s core x.cohort 9 x.pc
  | some l => modStream (modEngine s core fun e => { e with latched := some l }) core x.cohort Stream.nextWord

theorem exec_mlw_holds {l : Option Latched} (h : Statements.Turn s (.mlw slot) x) (hn : Holds x slot.val)
    (hl : Latches (getEngine s s.curStream.1) x slot.val l) :
    exec (.mlw slot) s = .next (mlwStep s s.curStream.1 x l) := by
  show execMlw slot s = _
  rw [execMlw, streamWord_turn h, (holdsSlot_iff ..).mpr hn, latchOf_of_latches hl]
  cases l <;> rfl

theorem mlw_fails_planes (h : Statements.Turn s (.mlw slot) x) (hn : Holds x slot.val)
    (hl : Latches (getEngine s s.curStream.1) x slot.val none) : Fails s (.mlw slot) x 9 :=
  fails_of_streamError h (exec_mlw_holds h hn hl)

theorem findStream_modEngine {core : Nat} {f : Engine → Engine} (hf : ∀ e, (f e).streams = e.streams)
    (s : State) (ck : Nat) : findStream (modEngine s core f) core ck = findStream s core ck := by
  rw [modEngine, findStream_setEngine, if_pos rfl, hf, findStream]

theorem getEngine_modStream (s : State) (core ck : Nat) (f : Stream → Stream) : getEngine (modStream s core ck f) core =
    { getEngine s core with streams := (getEngine s core).streams.map fun x => if x.cohort == ck then f x else x } :=
  getEngine_setEngine ..

theorem mlw_completes {l : Latched} (h : Statements.Turn s (.mlw slot) x) (hn : Holds x slot.val)
    (hl : Latches (getEngine s s.curStream.1) x slot.val (some l)) : Completes s (.mlw slot) x fun t _ =>
      t.mem = s.mem ∧ (getEngine t s.curStream.1).latched = some l := by
  refine completes_of_modStream h (exec_mlw_holds h hn hl) ?_ nextWord_cohort rfl ⟨rfl, ?_⟩
  · exact (findStream_modEngine (f := fun e => { e with latched := some l }) (fun _ => rfl) ..).trans (find_of_turn h)
  · rw [getEngine_modStream, modEngine, getEngine_setEngine]

end

/-! ### MCLR (R121) -/

section
variable {tile int : Bool}

theorem mclr_fails (h : Statements.Turn s (.mclr tile int) x) (hn : ¬HoldsTile x tile) : Fails s (.mclr tile int) x 4 := by
  refine fails_of_streamError h ?_
  show execMclr tile int s = _
  have hno : x.holdsTile tile = false := Bool.eq_false_iff.mpr hn
  rw [execMclr, streamWord_turn h, hno]
  rfl

theorem streams_setTile (e : Engine) (tile : Bool) (t : Tile) : (e.setTile tile t).streams = e.streams := by
  cases tile <;> rfl

theorem tile_setTile (e : Engine) (tile : Bool) (t : Tile) : (e.setTile tile t).tile tile = t := by
  cases tile <;> rfl

theorem tile_streams (e : Engine) (xs : List Stream) (tile : Bool) : Engine.tile { e with streams := xs } tile = e.tile tile := rfl

theorem mclr_completes {s1 : State} (h : Statements.Turn s (.mclr tile int) x) (hn : HoldsTile x tile)
    (hr : retireStamps s.curStream.1 x (x.stamps.filter fun p => p.tile == tile) s = (.done, s1)) :
    Completes s (.mclr tile int) x fun t _ => (getEngine t s.curStream.1).tile tile = ⟨int, false, []⟩ ∧
      t.mem = s1.mem := by
  have hyes : x.holdsTile tile = true := hn
  obtain ⟨y, hy, hyx⟩ := find_retired (find_of_turn h) hr
  have hpc : y.pc = x.pc := by
    have hp := congrArg Stream.pc hyx
    exact hp
  have hexec : exec (.mclr tile int) s = .next (modStream (modEngine s1 s.curStream.1 fun e => e.setTile tile ⟨int, false, []⟩)
      s.curStream.1 x.cohort Stream.nextWord) := by
    show execMclr tile int s = _
    rw [execMclr, streamWord_turn h, hyes]
    exact congrArg _ (retireThen_done hr x.pc _)
  refine completes_of_modStream h hexec ((findStream_modEngine (fun e => streams_setTile e ..) ..).trans hy)
    nextWord_cohort (congrArg (· + 4) hpc) ⟨?_, rfl⟩
  rw [getEngine_modStream, tile_streams, modEngine, getEngine_setEngine, tile_setTile]

end

end Sys2Proof.Machine
end

section
/-! SUPPORT. MMA (R122): the checks in their order, and the start of the word. -/

open Sys2Proof Sys2Proof.Machine Sys2Proof.Safety Sys2Proof.Statements
namespace Sys2Proof.Machine

variable {s : State} {x : Stream}

/-! ### What the checks of R122 say -/

theorem actFormat_eq (f : AFmt) : actFormat f = afmtRec f := by
  cases f <;> rfl

/-- A slot that integer activations go with (R122, log entry 116). -/
theorem intWeights_iff (e : Engine) (n : Nat) : intWeights e n = true ↔
    ∀ g, parseImage (sget [] e.slots n) = some g → g.fmt = .bp8 ∨ g.fmt = .mx .int8 := by
  unfold intWeights
  cases parseImage (sget [] e.slots n) with
  | none => simp
  | some g => simp

/-- The activation record is missing or invalid, or the stamp record of a stamped MMA. -/
def MmaNoRecord (s : State) (x : Stream) (stamp : Bool) (rec : Nat) : Prop :=
  getRec s x.ctx rec = none ∨ (∃ r, getRec s x.ctx rec = some r ∧ recInvalid r = true) ∨
    (stamp = true ∧ ∀ q, getRec s x.ctx x.srec = some q → recInvalid q = true)

/-- The stream holds the tile and the slots of the record's K extent. -/
def MmaHeld (x : Stream) (tile : Bool) (slot : Nat) (r : TRec) : Prop :=
  HoldsTile x tile ∧ ∀ k, k < (recExtent r 0 + 127) / 128 → Holds x (slot + k)

/-- The record's extents fit the MMA. -/
def MmaFits (r : TRec) (rows : Nat) : Prop := recExtent r 0 % 32 = 0 ∧ rows ≤ recExtent r 1

/-- The record's format goes with the stream's, and both with the tile and the slots. -/
def MmaPair (e : Engine) (x : Stream) (tile : Bool) (slot : Nat) (r : TRec) : Prop :=
  recFmt r = actFormat x.afmt ∧ ((e.tile tile).int = true → x.afmt = .int8 ∧
    ∀ k, k < (recExtent r 0 + 127) / 128 → ∀ g, parseImage (sget [] e.slots (slot + k)) = some g →
      g.fmt = .bp8 ∨ g.fmt = .mx .int8)

/-- The stamp record of a stamped MMA is missing or invalid. -/
def stampBad (s : State) (x : Stream) (stamp : Bool) : Bool :=
  stamp && (match getRec s x.ctx x.srec with | some q => recInvalid q | none => true)

theorem stampBad_iff (s : State) (x : Stream) (stamp : Bool) : stampBad s x stamp = true ↔
    stamp = true ∧ ∀ q, getRec s x.ctx x.srec = some q → recInvalid q = true := by
  unfold stampBad
  rw [Bool.and_eq_true]
  cases getRec s x.ctx x.srec with
  | none => simp
  | some q => simp

theorem mmaHeld_iff (x : Stream) (tile : Bool) (slot : Nat) (r : TRec) :
    (!x.holdsTile tile || !((List.range ((recExtent r 0 + 127) / 128)).all fun i => x.holdsSlot (slot + i))) = true ↔
      ¬MmaHeld x tile slot r := by
  have htile : HoldsTile x tile ↔ x.holdsTile tile = true := Iff.rfl
  rw [MmaHeld, htile, ← Bool.not_and, Bool.not_eq_true', Bool.eq_false_iff, ne_eq, Bool.and_eq_true, List.all_eq_true]
  simp only [List.mem_range, holdsSlot_iff]

theorem mmaFits_iff (r : TRec) (rows : Nat) :
    (recExtent r 0 % 32 != 0 || decide (recExtent r 1 < rows)) = true ↔ ¬MmaFits r rows := by
  rw [MmaFits, Bool.or_eq_true, bne_iff_ne, decide_eq_true_eq]
  omega

theorem mmaInt_iff (e : Engine) (x : Stream) (tile : Bool) (slot n : Nat) :
    ((e.tile tile).int && (x.afmt != .int8 || !((List.range n).all fun i => intWeights e (slot + i)))) = true ↔
      ¬((e.tile tile).int = true → x.afmt = .int8 ∧ ∀ k, k < n → ∀ g, parseImage (sget [] e.slots (slot + k)) = some g →
        g.fmt = .bp8 ∨ g.fmt = .mx .int8) := by
  have hall : ((List.range n).all fun i => intWeights e (slot + i)) = true ↔ ∀ k, k < n → ∀ g,
      parseImage (sget [] e.slots (slot + k)) = some g → g.fmt = .bp8 ∨ g.fmt = .mx .int8 := by
    rw [List.all_eq_true]
    simp only [List.mem_range, intWeights_iff]
  rw [Classical.not_imp, not_and_or, ← hall, Bool.and_eq_true, Bool.or_eq_true, bne_iff_ne, Bool.not_eq_true',
    Bool.not_eq_true]

/-! ### The codes, in the order of the checks -/

section
variable {core rec slot rows : Nat} {tile stamp : Bool} {r : TRec}

theorem mmaError_noRecord (h : MmaNoRecord s x stamp rec) : mmaError s core x tile stamp rec slot rows = some 5 := by
  unfold mmaError
  cases hr : getRec s x.ctx rec with
  | none => rfl
  | some r =>
    dsimp only
    rcases h with hnone | ⟨q, hq, hbad⟩ | hstamp
    · exact absurd (hnone.symm.trans hr) nofun
    · rw [if_pos (Option.some.inj (hr.symm.trans hq) ▸ hbad)]
    · split
      · rfl
      · exact if_pos ((stampBad_iff ..).mpr hstamp)

/-- What MMA checks once its records are there. -/
theorem mmaError_some (hno : ¬MmaNoRecord s x stamp rec) (hr : getRec s x.ctx rec = some r) :
    mmaError s core x tile stamp rec slot rows =
      if !x.holdsTile tile || !((List.range ((recExtent r 0 + 127) / 128)).all fun i => x.holdsSlot (slot + i)) then some 4
      else if recExtent r 0 % 32 != 0 || recExtent r 1 < rows then some 5
      else if recFmt r != afmtRec x.afmt then some 3
      else if ((getEngine s core).tile tile).int && (x.afmt != .int8 ||
        !((List.range ((recExtent r 0 + 127) / 128)).all fun i => intWeights (getEngine s core) (slot + i))) then some 3
      else none := by
  have hvalid : ¬recInvalid r = true := fun hbad => hno (.inr (.inl ⟨r, hr, hbad⟩))
  have hstamp : ¬stampBad s x stamp = true := fun hbad => hno (.inr (.inr ((stampBad_iff ..).mp hbad)))
  unfold mmaError
  rw [hr]
  dsimp only
  rw [if_neg hvalid]
  exact if_neg hstamp

theorem mmaError_notHeld (hno : ¬MmaNoRecord s x stamp rec) (hr : getRec s x.ctx rec = some r)
    (hheld : ¬MmaHeld x tile slot r) : mmaError s core x tile stamp rec slot rows = some 4 := by
  rw [mmaError_some hno hr, if_pos ((mmaHeld_iff ..).mpr hheld)]

theorem mmaError_notFits (hno : ¬MmaNoRecord s x stamp rec) (hr : getRec s x.ctx rec = some r)
    (hheld : MmaHeld x tile slot r) (hfits : ¬MmaFits r rows) :
    mmaError s core x tile stamp rec slot rows = some 5 := by
  rw [mmaError_some hno hr, if_neg fun h => (mmaHeld_iff ..).mp h hheld, if_pos ((mmaFits_iff ..).mpr hfits)]

theorem mmaError_notPair (hno : ¬MmaNoRecord s x stamp rec) (hr : getRec s x.ctx rec = some r)
    (hheld : MmaHeld x tile slot r) (hfits : MmaFits r rows) (hpair : ¬MmaPair (getEngine s core) x tile slot r) :
    mmaError s core x tile stamp rec slot rows = some 3 := by
  rw [mmaError_some hno hr, if_neg fun h => (mmaHeld_iff ..).mp h hheld, if_neg fun h => (mmaFits_iff ..).mp h hfits]
  by_cases hfmt : recFmt r = actFormat x.afmt
  · rw [if_neg (by simpa [actFormat_eq] using hfmt), if_pos ((mmaInt_iff ..).mpr fun hint => hpair ⟨hfmt, hint⟩)]
  · rw [if_pos (by simpa [actFormat_eq] using hfmt)]

theorem mmaError_none (hno : ¬MmaNoRecord s x stamp rec) (hr : getRec s x.ctx rec = some r)
    (hheld : MmaHeld x tile slot r) (hfits : MmaFits r rows) (hpair : MmaPair (getEngine s core) x tile slot r) :
    mmaError s core x tile stamp rec slot rows = none := by
  obtain ⟨hfmt, hint⟩ := hpair
  rw [mmaError_some hno hr, if_neg fun h => (mmaHeld_iff ..).mp h hheld, if_neg fun h => (mmaFits_iff ..).mp h hfits,
    if_neg (by simpa [actFormat_eq] using hfmt), if_neg fun h => (mmaInt_iff ..).mp h hint]

end

/-! ### The word -/

section
variable {tile stamp : Bool} {rec : Fin 256} {slot : Fin 16} {m1 : Fin 512}

theorem mma_fails {code : Nat} (h : Statements.Turn s (.mma tile stamp rec slot m1) x)
    (he : mmaError s s.curStream.1 x tile stamp rec.val slot.val (m1.val + 1) = some code) :
    Fails s (.mma tile stamp rec slot m1) x code := by
  refine fails_of_streamError h ?_
  show execMma tile stamp rec slot m1 s = _
  rw [execMma, streamWord_turn h, he]

theorem mma_completes (h : Statements.Turn s (.mma tile stamp rec slot m1) x)
    (he : mmaError s s.curStream.1 x tile stamp rec.val slot.val (m1.val + 1) = none) :
    Completes s (.mma tile stamp rec slot m1) x fun t y => t.mem = s.mem ∧ ∃ m, y.mma = some m ∧ m.word = x.pc ∧
      m.tile = tile ∧ m.stamp = stamp ∧ m.recNo = rec.val ∧ m.slot = slot.val ∧ m.rows = m1.val + 1 ∧ m.kstep = 0 ∧
      m.chunk = 0 ∧ m.issue = s.clock ∧ m.before = (getEngine s s.curStream.1).tile tile := by
  have hexec : exec (.mma tile stamp rec slot m1) s = .next (modStream s s.curStream.1 x.cohort fun y =>
      { y.skip with mma := some ⟨y.pc, tile, stamp, rec.val, slot.val, m1.val + 1, 0, 0, s.clock, 0, 0, 0, 0, false, none,
        (getEngine s s.curStream.1).tile tile⟩ }) := by
    show execMma tile stamp rec slot m1 s = _
    rw [execMma, streamWord_turn h, he]
  exact completes_of_modStream h hexec (find_of_turn h) (fun _ => rfl) rfl
    ⟨rfl, _, rfl, rfl, rfl, rfl, rfl, rfl, rfl, rfl, rfl, rfl, rfl⟩

end

end Sys2Proof.Machine
end

section
/-! SUPPORT. MSTA (R123): the checks, and the next 32 rows of a running one. -/

open Sys2Proof Sys2Proof.Machine Sys2Proof.Safety Sys2Proof.Statements
namespace Sys2Proof.Machine

variable {s : State} {x : Stream}

/-! ### The checks of R123 -/

theorem outFormat_eq (f : MstaFmt) : outFormat f = mstaRec f := by
  cases f <;> rfl

theorem isMx_eq (f : MstaFmt) : isMx f = (mstaMx f).isSome := by
  cases f <;> rfl

/-- The record's extents, or the record itself, do not do. -/
def MstaBad (fmt : MstaFmt) (r : TRec) : Prop :=
  128 < recExtent r 0 ∨ 512 < recExtent r 1 ∨ (isMx fmt = true ∧ recExtent r 0 % 32 ≠ 0) ∨ recInvalid r = true

/-- The record's format is that of the word, and an integer one has an integer tile. -/
def MstaPair (e : Engine) (fmt : MstaFmt) (tile : Bool) (r : TRec) : Prop :=
  recFmt r = outFormat fmt ∧ (fmt = .s32 → (e.tile tile).int = true)

theorem mstaBad_iff (fmt : MstaFmt) (r : TRec) : (decide (128 < recExtent r 0) || decide (512 < recExtent r 1) ||
    ((mstaMx fmt).isSome && recExtent r 0 % 32 != 0) || recInvalid r) = true ↔ MstaBad fmt r := by
  simp only [MstaBad, isMx_eq, Bool.or_eq_true, Bool.and_eq_true, bne_iff_ne, decide_eq_true_eq, or_assoc]

theorem mstaPair_iff (e : Engine) (fmt : MstaFmt) (tile : Bool) (r : TRec) :
    (recFmt r != mstaRec fmt || (fmt == .s32 && !(e.tile tile).int)) = true ↔ ¬MstaPair e fmt tile r := by
  rw [MstaPair, outFormat_eq, not_and_or, Classical.not_imp, Bool.or_eq_true, Bool.and_eq_true, bne_iff_ne, beq_iff_eq,
    Bool.not_eq_true', Bool.not_eq_true]

section
variable {core rec : Nat} {fmt : MstaFmt} {tile : Bool} {r : TRec}

theorem mstaError_tile (h : ¬HoldsTile x tile) : mstaError s core x fmt tile rec = some 4 := by
  have hno : x.holdsTile tile = false := Bool.eq_false_iff.mpr h
  rw [mstaError, hno]
  rfl

theorem mstaError_noRecord (h : HoldsTile x tile) (hr : getRec s x.ctx rec = none) :
    mstaError s core x fmt tile rec = some 5 := by
  have hyes : x.holdsTile tile = true := h
  rw [mstaError, hyes, hr]
  rfl

/-- What MSTA checks of its record. -/
theorem mstaError_some (h : HoldsTile x tile) (hr : getRec s x.ctx rec = some r) :
    mstaError s core x fmt tile rec =
      if 128 < recExtent r 0 || 512 < recExtent r 1 || ((mstaMx fmt).isSome && recExtent r 0 % 32 != 0) ||
          recInvalid r then some 5
      else if recFmt r != mstaRec fmt || (fmt == .s32 && !((getEngine s core).tile tile).int) then some 3
      else none := by
  have hyes : x.holdsTile tile = true := h
  rw [mstaError, hyes, hr]
  rfl

theorem mstaError_bad (h : HoldsTile x tile) (hr : getRec s x.ctx rec = some r) (hbad : MstaBad fmt r) :
    mstaError s core x fmt tile rec = some 5 := by
  rw [mstaError_some h hr, if_pos ((mstaBad_iff ..).mpr hbad)]

theorem mstaError_notPair (h : HoldsTile x tile) (hr : getRec s x.ctx rec = some r) (hbad : ¬MstaBad fmt r)
    (hpair : ¬MstaPair (getEngine s core) fmt tile r) : mstaError s core x fmt tile rec = some 3 := by
  rw [mstaError_some h hr, if_neg (mt (mstaBad_iff ..).mp hbad), if_pos ((mstaPair_iff ..).mpr hpair)]

theorem mstaError_none (h : HoldsTile x tile) (hr : getRec s x.ctx rec = some r) (hbad : ¬MstaBad fmt r)
    (hpair : MstaPair (getEngine s core) fmt tile r) : mstaError s core x fmt tile rec = none := by
  rw [mstaError_some h hr, if_neg (mt (mstaBad_iff ..).mp hbad), if_neg fun hn => (mstaPair_iff ..).mp hn hpair]

end

/-! ### 32 rows of a tile -/

/-- Bytes written to some addresses: each lands at its address, and the others keep theirs. -/
theorem memGet_engineWrite_zip (s : State) (core : Nat) {pas : List Nat} (hn : pas.Nodup) (bs : List Byte) :
    (∀ (k : Nat) a b, pas[k]? = some a → bs[k]? = some b → memGet (engineWrite s core (pas.zip bs)) a = b) ∧
      ∀ a, a ∉ pas → memGet (engineWrite s core (pas.zip bs)) a = memGet s a := by
  have hkeys : ((pas.zip bs).map Prod.fst).Sublist pas := by
    rw [List.zip_eq_zip_take_min, List.map_fst_zip (by simp)]
    exact List.take_sublist ..
  refine ⟨fun k a b ha hb => ?_, fun a ha => ?_⟩
  · rw [memGet_engineWrite]
    refine memGet_memSetAll_mem s _ a b (hn.sublist hkeys) (List.mem_of_getElem? (i := k) ?_)
    rw [List.getElem?_zip_eq_some]
    exact ⟨ha, hb⟩
  · rw [memGet_engineWrite]
    exact memGet_memSetAll_other s _ a fun h => ha (hkeys.mem h)

theorem converted_unstamped (h : x.stamps = []) (tile : Bool) (at_ : DWord) : x.converted tile at_ = x := by
  rw [Stream.converted, h, List.map_nil, ← h]

theorem tile_modStream (s : State) (core ck : Nat) (f : Stream → Stream) (tile : Bool) :
    (getEngine (modStream s core ck f) core).tile tile = (getEngine s core).tile tile := by
  rw [getEngine_modStream]
  exact tile_streams ..

/-- The stream when its MSTA has ended. -/
def Stream.ended (x : Stream) : Stream := { x with msta := none, granted := false, undo := [] }

/-- The end of an MSTA without stamps. -/
theorem endMsta_unstamped {core ck : Nat} (hx : findStream s core ck = some x) (hst : x.stamps = []) (hf : x.failing = none)
    (m : MstaRun) :
    endMsta s core ck m = modStream s core ck Stream.ended := by
  have hnone : x.stampsOf m.tile = [] := by rw [Stream.stampsOf, hst, List.filter_nil]
  unfold endMsta
  rw [hx]
  dsimp only
  rw [hnone, retireThen_done rfl]
  exact settleStream_none (findStream_modStream hx fun _ => rfl) hf

variable {s0 s1 : State} {core ck : Nat} {y : Stream} {m : MstaRun} {r : TRec} {pas : List Nat}

/-- The stream with the MSTA at its next part. -/
def Stream.putPart (m : MstaRun) (x : Stream) : Stream := { x with msta := some { m with part := m.part + 1 } }

theorem ended_putPart (m : MstaRun) (x : Stream) : (x.putPart m).ended = x.ended := rfl

/-- The stream as one of the given number of parts has been written; with the last one the tile is converted. -/
def Stream.atPart (m : MstaRun) (parts : Nat) (now : DWord) (x : Stream) : Stream :=
  { (if parts ≤ m.part + 1 then x.converted m.tile now else x) with msta := some { m with part := m.part + 1 } }

theorem atPart_unstamped (h : x.stamps = []) (m : MstaRun) (parts : Nat) (now : DWord) :
    x.atPart m parts now = x.putPart m := by
  rw [Stream.atPart, converted_unstamped h, ite_self]
  rfl

theorem atPart_cohort (m : MstaRun) (parts : Nat) (now : DWord) (x : Stream) :
    (x.atPart m parts now).cohort = x.cohort := by
  unfold Stream.atPart
  split <;> rfl

/-- What a part writes. -/
def partWrites (e : Engine) (m : MstaRun) (r : TRec) : List (DWord × List Byte) :=
  (chunkRows (recExtent r 1) m.part).flatMap (mstaRow r m.fmt m.ieee (e.tile m.tile))

/-- The machine when some bytes are written at the home slices, and the stream knows that its part is. -/
def afterPart (s : State) (core ck : Nat) (m : MstaRun) (parts : Nat) (bs : List (Nat × Byte)) : State :=
  modStream (engineWrite s core bs) core ck (Stream.atPart m parts (engineWrite s core bs).clock)

theorem mem_afterPart (s : State) (core ck : Nat) (m : MstaRun) (parts : Nat) (bs : List (Nat × Byte)) :
    (afterPart s core ck m parts bs).mem = (engineWrite s core bs).mem := mem_modStream ..

theorem mstaPart_ok (hr : getRec s0 x.ctx m.recNo = some r) (hpart : 32 * m.part < recExtent r 1)
    (hpas : checkParts s0 core x.ctx true ((partWrites (getEngine s0 core) m r).flatMap fun p => cut p.1 p.2.length) =
      (.ok pas, s1)) :
    let parts := (recExtent r 1 + 31) / 32
    let t := afterPart s1 core x.cohort m parts (pas.zip ((partWrites (getEngine s0 core) m r).flatMap fun p => p.2))
    mstaPart s0 core x m = if parts ≤ m.part + 1 then endMsta t core x.cohort { m with part := m.part + 1 } else t := by
  have hmore : ¬(recExtent r 1 + 31) / 32 ≤ m.part := by omega
  rw [mstaPart, hr]
  refine (if_neg hmore).trans ?_
  extract_lets +onlyGivenNames w
  have hw : checkParts s0 core x.ctx true (w.flatMap fun e => cut e.1 e.2.length) = (.ok pas, s1) := hpas
  rw [hw]
  rfl

/-- The stream when a part is written: the last one ends the word. -/
def Stream.wrotePart (m : MstaRun) (last : Prop) [Decidable last] (x : Stream) : Stream :=
  if last then x.ended else x.putPart m

/-- A part whose accesses are made is written, and its stream goes on or ends its word. -/
theorem mstaPart_writes (hr : getRec s0 x.ctx m.recNo = some r) (hpart : 32 * m.part < recExtent r 1)
    (hy : findStream s0 core x.cohort = some y) (hst : y.stamps = []) (hf : y.failing = none)
    (hpas : checkParts s0 core x.ctx true ((partWrites (getEngine s0 core) m r).flatMap fun p => cut p.1 p.2.length) =
      (.ok pas, s1)) :
    (mstaPart s0 core x m).mem =
        (engineWrite s1 core (pas.zip ((partWrites (getEngine s0 core) m r).flatMap fun p => p.2))).mem ∧
      (getEngine (mstaPart s0 core x m) core).tile m.tile = (getEngine s0 core).tile m.tile ∧
      findStream (mstaPart s0 core x m) core x.cohort = some (y.wrotePart m (recExtent r 1 ≤ 32 * (m.part + 1))) := by
  have hstill := checkParts_still s0 core x.ctx true
    ((partWrites (getEngine s0 core) m r).flatMap fun p => cut p.1 p.2.length)
  rw [hpas] at hstill
  have hok := mstaPart_ok hr hpart hpas
  dsimp only at hok
  generalize pas.zip ((partWrites (getEngine s0 core) m r).flatMap fun p => p.2) = bs at hok ⊢
  have hwrite : (engineWrite s1 core bs).still = s0.still := (engineWrite_still ..).trans hstill
  have hafter : findStream (afterPart s1 core x.cohort m ((recExtent r 1 + 31) / 32) bs) core x.cohort =
      some (y.putPart m) := by
    rw [← atPart_unstamped hst]
    exact findStream_modStream ((findStream_eq_of_still hwrite core x.cohort).trans hy) fun z => atPart_cohort m _ _ z
  have htile : (getEngine (afterPart s1 core x.cohort m ((recExtent r 1 + 31) / 32) bs) core).tile m.tile =
      (getEngine s0 core).tile m.tile := by
    rw [afterPart, tile_modStream, getEngine, engines_eq_of_still hwrite, ← getEngine]
  have hparts : (recExtent r 1 + 31) / 32 ≤ m.part + 1 ↔ recExtent r 1 ≤ 32 * (m.part + 1) := by omega
  by_cases hlast : recExtent r 1 ≤ 32 * (m.part + 1)
  · rw [if_pos (hparts.mpr hlast), endMsta_unstamped hafter hst hf] at hok
    rw [hok, tile_modStream, mem_modStream, mem_afterPart, Stream.wrotePart, if_pos hlast]
    refine ⟨rfl, htile, ?_⟩
    rw [findStream_modStream (f := Stream.ended) hafter fun _ => rfl, ended_putPart]
  · rw [if_neg (mt hparts.mp hlast)] at hok
    rw [hok, Stream.wrotePart, if_neg hlast]
    exact ⟨mem_afterPart .., htile, hafter⟩

/-- A word that comes to the next part of an MSTA writes it. -/
theorem writesPart_of_exec {i : Instr} {pc : DWord} (he : exec i s = .next (mstaPart s0 s.curStream.1 x m))
    (hck : x.cohort = s.curStream.2) (hr : getRec s0 x.ctx m.recNo = some r)
    (htile : (getEngine s0 s.curStream.1).tile m.tile = (getEngine s s.curStream.1).tile m.tile)
    (hy : findStream s0 s.curStream.1 x.cohort = some y) (hst : y.stamps = x.stamps) (hf : y.failing = x.failing)
    (hpc : y.pc = pc) : WritesPart i s s0 x m r pc := by
  intro pas s1 hpart hstamps hfailing
  dsimp only
  rw [← htile]
  intro hpas hn
  obtain ⟨hmem, hkeep, hfind⟩ := mstaPart_writes hr hpart hy (hst.trans hstamps) (hf.trans hfailing) hpas
  obtain ⟨hin, hout⟩ := memGet_engineWrite_zip s1 s.curStream.1 hn
    ((partWrites (getEngine s0 s.curStream.1) m r).flatMap fun p => p.2)
  refine ⟨_, he, hkeep, fun k a b ha hb => ?_, fun a ha => ?_, _, hck ▸ hfind, ?_, ?_⟩
  · rw [memGet, hmem]
    exact hin k a b ha hb
  · rw [memGet, hmem]
    exact hout a ha
  · rw [← hpc, Stream.wrotePart]
    split <;> rfl
  · rw [Stream.wrotePart]
    split
    · exact ⟨rfl, rfl⟩
    · rfl

/-! ### The word -/

section
variable {fmt : MstaFmt} {ieee tile : Bool} {rec : Fin 256}

/-- An MSTA that is not running takes its turn as any word. -/
theorem exec_msta_turn (h : Statements.Turn s (.msta fmt ieee tile rec) x) : exec (.msta fmt ieee tile rec) s =
    .next (match mstaError s s.curStream.1 x fmt tile rec.val with
      | some c => streamError s s.curStream.1 x.cohort c x.pc
      | none => mstaPart (modStream s s.curStream.1 x.cohort fun y =>
          { y.skip with msta := some ⟨x.pc, fmt, ieee, tile, rec.val, 0⟩ }) s.curStream.1 x
          ⟨x.pc, fmt, ieee, tile, rec.val, 0⟩) := by
  have hrest := (canRun_of_turn h fun _ _ _ => Instr.noConfusion).2.2
  show execMsta fmt ieee tile rec s = _
  rw [execMsta, h.1, Option.bind_some, hrest, Option.map_none]
  exact streamWord_turn h _

theorem msta_fails {code : Nat} (h : Statements.Turn s (.msta fmt ieee tile rec) x)
    (he : mstaError s s.curStream.1 x fmt tile rec.val = some code) : Fails s (.msta fmt ieee tile rec) x code := by
  refine fails_of_streamError h ((exec_msta_turn h).trans ?_)
  rw [he]

/-- The first rows. -/
theorem msta_starts (h : Statements.Turn s (.msta fmt ieee tile rec) x) (hr : getRec s x.ctx rec.val = some r)
    (he : mstaError s s.curStream.1 x fmt tile rec.val = none) : WritesPart (.msta fmt ieee tile rec) s
      (modStream s s.curStream.1 x.cohort fun y => { y.skip with msta := some ⟨x.pc, fmt, ieee, tile, rec.val, 0⟩ }) x
      ⟨x.pc, fmt, ieee, tile, rec.val, 0⟩ r (x.pc + 4) := by
  have hexec := exec_msta_turn h
  rw [he] at hexec
  exact writesPart_of_exec hexec (cohort_of_turn h) hr (tile_modStream ..)
    (findStream_modStream (find_of_turn h) fun _ => rfl) rfl rfl rfl

/-- The rows of a running MSTA. -/
theorem msta_goes_on (hx : findStream s s.curStream.1 s.curStream.2 = some x) (hm : x.msta = some m)
    (hrun : x.canRun = true) (hg : x.granted = true) (hr : getRec s x.ctx m.recNo = some r) :
    WritesPart (.msta fmt ieee tile rec) s s x m r x.pc := by
  have hck := cohort_of_findStream hx
  have hexec : exec (.msta fmt ieee tile rec) s = .next (mstaPart s s.curStream.1 x m) := by
    show execMsta fmt ieee tile rec s = _
    rw [execMsta, hx, Option.bind_some, hm, Option.map_some]
    dsimp only
    rw [if_pos (by rw [hrun, hg]; rfl)]
  exact writesPart_of_exec hexec hck hr rfl (by rw [hck, hx]) rfl rfl rfl

end

end Sys2Proof.Machine
end

section
/-! PROOF. The words of a stream (O52). -/

open Sys2Proof Sys2Proof.Machine Sys2Proof.Safety Sys2Proof.Statements
namespace Sys2Proof.Machine

/-- Settles O52, word by word: each lemma says of one word what it completes with, or with which code it fails
(fails_of_streamError: at once, or when the words under way have ended). The two that need more than their own step are an
MBAR whose arrival opens the next phase (mbar_arrives_last), and MSTA, whose first rows and later ones are one argument
(writesPart_of_exec). -/
theorem streamWordsRunOrStop : Obligations.StreamWordsRunOrStop := by
  refine ⟨fun s x f j srec h => ⟨mfmt_fails h, mfmt_completes h⟩,
    fun s x b op c h hc hm => ⟨mbar_fails h, ?_, ?_⟩,
    fun s x s1 h => mend_detaches h,
    fun s x slot rec idx h => ⟨mwb_fails_slot h, mwb_fails_record h, fun q => mwb_completes h⟩,
    fun s x slot l h hl => ⟨mlw_fails_slot h, ?_, ?_⟩,
    fun s x tile int h => ⟨mclr_fails h, fun s1 => mclr_completes h⟩,
    fun s x tile stamp rec slot m1 h => ⟨fun hno => mma_fails h (mmaError_noRecord hno), ?_⟩,
    fun s x fmt ieee tile rec h => ⟨fun htile => msta_fails h (mstaError_tile htile),
      fun htile hr => msta_fails h (mstaError_noRecord htile hr), ?_⟩,
    fun s x m r fmt ieee tile rec hx hm hrun hg hr => msta_goes_on hx hm hrun hg hr⟩
  · intro hop hmask harr hq
    refine ⟨fun hlast hquiet => ?_, fun hlast h1 => ?_, fun hlast h3 => ?_⟩
    · obtain ⟨hteams, hstreams⟩ := hquiet
      exact mbar_arrives_last h hop hmask hc hm harr hq hlast hteams hstreams
    · exact mbar_arr_completes h h1 hmask hc harr hq hlast
    · exact mbar_sync_parks h h3 hmask hc harr hlast
  · intro hop hopen hq
    exact ⟨mbar_wait_completes h hop hc hopen hq, mbar_wait_parks h hop hc hopen⟩
  · rintro hn rfl
    exact mlw_fails_planes h hn hl
  · rintro b hn rfl
    exact mlw_completes h hn hl
  · intro r hno hr
    exact ⟨fun hheld => mma_fails h (mmaError_notHeld hno hr hheld),
      fun hheld hfits => mma_fails h (mmaError_notFits hno hr hheld hfits),
      fun hheld hfits hpair => mma_fails h (mmaError_notPair hno hr hheld hfits hpair),
      fun hheld hfits hpair => mma_completes h (mmaError_none hno hr hheld hfits hpair)⟩
  · intro r htile hr
    exact ⟨fun hbad => msta_fails h (mstaError_bad htile hr hbad),
      fun hbad hpair => msta_fails h (mstaError_notPair htile hr hbad hpair),
      fun hbad hpair => msta_starts h hr (mstaError_none htile hr hbad hpair)⟩

end Sys2Proof.Machine
end
